-- ==== Sys2Proof/Word.lean ====
section
/-! DEFINITION. The word types of the LN9: 32-bit register values (R20), bytes of the little-endian memory (R5)
and the 64-bit values of register pairs (R6). -/

namespace Sys2Proof

/-- A 32-bit register value (R20). -/
abbrev Word := BitVec 32

/-- One byte of memory (R5). -/
abbrev Byte := BitVec 8

/-- A 64-bit value, as a pair of registers holds it (R6). -/
abbrev DWord := BitVec 64

end Sys2Proof
end

