-- ==== Sys2Proof/Machine/Bits.lean ====
section
/-! DEFINITION. Bit fields, sign extension and byte order (R5), as the decoder and the meanings use them. -/

namespace Sys2Proof

/-- Bit `i` of a number. -/
def bit (n i : Nat) : Bool := n / 2 ^ i % 2 == 1

/-- Bits [lo + w − 1 : lo] of a number. -/
def field (n lo w : Nat) : Nat := n / 2 ^ lo % 2 ^ w

/-- The low `k` bits of `n / 2^lo`. -/
def bits (k : Nat) (n lo : Nat) : BitVec k := BitVec.ofNat k (n / 2 ^ lo)

/-- A flag as a number. -/
def b2n (b : Bool) : Nat := if b then 1 else 0

/-- The `n` low bytes of a number, lowest first (R5). -/
def leBytes : Nat → Nat → List Byte
  | 0, _ => []
  | n + 1, v => BitVec.ofNat 8 v :: leBytes n (v / 256)

/-- The number whose bytes, lowest first, are the list (R5). -/
def leNat : List Byte → Nat
  | [] => 0
  | b :: bs => b.toNat + 256 * leNat bs

/-- A `w`-bit number read as two's complement. -/
def sgn (w n : Nat) : Int :=
  let m := n % 2 ^ w
  if m < 2 ^ (w - 1) then (m : Int) else (m : Int) - (2 ^ w : Int)

/-- An integer modulo 2^w. -/
def wrapTo (w : Nat) (v : Int) : Nat := (v % (2 ^ w : Int)).toNat

/-- `n` with its bits [lo + w − 1 : lo] replaced by the low bits of `v`. -/
def setField (n lo w v : Nat) : Nat :=
  n - field n lo w * 2 ^ lo + v % 2 ^ w * 2 ^ lo

/-- An address modulo 2^48 (R77, R152). -/
def addr48 (n : Nat) : Nat := n % 2 ^ 48

/-- How far a counter of `w` bits stands beyond an older value of it. -/
def ahead (w new old : Nat) : Nat := (new + 2 ^ w - old % 2 ^ w) % 2 ^ w

end Sys2Proof
end

