-- ==== Sys2Proof/Config.lean ====
section
/-! DEFINITION. What the spec leaves to the part or to chance: the free values. Each is a constant without a body,
so no proof can use a value of it; the step applies it to the counter `fresh` of the state and to a position, so
that two reads of an undefined value need not agree (R8). -/

namespace Sys2Proof.Config

/-- An undefined 32-bit value (R8), by the step in which it is read and the position it is read for.
(DESIGN CHOICE, log entry 2) -/
opaque freeWord : Nat → Nat → Word

/-- An undefined byte of memory (R379, R380, R266), by the event that made it undefined and its address.
(DESIGN CHOICE, log entry 2) -/
opaque freeByte : Nat → Nat → Byte

/-- A natural number the spec does not fix, by the step that draws it and the purpose of the draw.
(DESIGN CHOICE, log entry 2) -/
opaque freeNat : Nat → Nat → Nat

/-- Random bytes drawn by the key and attestation engine (R380, R382). (DESIGN CHOICE, log entry 2) -/
opaque freeBytes : Nat → Nat → List Byte

/-- The SHA-384 of a byte string (R382, R381), 48 bytes. The standard is outside the spec.
(DESIGN CHOICE, log entry 67) -/
opaque sha384 : List Byte → List Byte

/-- The signature of R382 by the device identity key over a digest, 96 bytes; the second argument is the nonce
of ECDSA, drawn at random. (DESIGN CHOICE, log entry 67) -/
opaque signReport : List Byte → Nat → List Byte

/-- The attestation public point of an attestation key (R382), 96 bytes. (DESIGN CHOICE, log entry 67) -/
opaque publicPoint : List Byte → List Byte

/-- The key unwrap of R381: attestation private key, report digest, blob and the wrapped length; none when the
unwrap check fails. (DESIGN CHOICE, log entry 67) -/
opaque unwrapKey : List Byte → List Byte → List Byte → Nat → Option (List Byte)

/-- AES-256-GCM opening of R385 with the channel key: key, IV as a number, associated data, ciphertext, tag.
(DESIGN CHOICE, log entry 67) -/
opaque gcmOpen : List Byte → Nat → List Byte → List Byte → List Byte → Option (List Byte)

/-- AES-256-GCM sealing of R385: key, IV as a number, associated data, plaintext; ciphertext and tag.
(DESIGN CHOICE, log entry 67) -/
opaque gcmSeal : List Byte → Nat → List Byte → List Byte → List Byte × List Byte

/-- The device identity certificate chain, DER encoded (R370, IDCERT). (DESIGN CHOICE, log entry 67) -/
opaque identityChain : List Byte

/-- The package serial number (R382). (DESIGN CHOICE, log entry 4) -/
opaque serialNumber : DWord

/-- The set of a home slice in which a line lies (R260 gives 2,560 sets and no index function), by line address.
(DEDUCED, log entry 32) -/
opaque l2Set : Nat → Nat

/-- How the requests to a remote package spread over the sub-links to it, by line address (R390).
(DEDUCED, log entry 64) -/
opaque linkPick : Nat → Nat

/-- The number of threads that the waiter lists of one Sluice hold (R339 gives 56 KiB and no entry size).
(DESIGN CHOICE, log entry 29) -/
opaque waiterCapacity : Nat

/-- The base and the FSTRIDE of a context's save area (R329): the spec gives its save descriptor neither a place nor a
layout. (DESIGN CHOICE, log entry 34) -/
opaque saveArea : Nat → Nat × Nat

/-- The body of a frame record whose contents the spec lists without their places (R330), by the record's type and those
contents in the order of the spec's list. (DESIGN CHOICE, log entry 35) -/
opaque frameBody : Nat → List (List Byte) → List Byte

/-- Which of the physical cores of a die, and which of the physical stacks, are the enabled ones (R1, R3, R259): the
picks by which they are drawn one after another. (DESIGN CHOICE, log entry 4) -/
opaque pickCore : Nat → Nat → Nat
opaque pickStack : Nat → Nat

end Sys2Proof.Config
end

