-- ==== Sys2Proof/Syntax.lean ====
section
/-! DEFINITION. The instructions and steps of the LN9: one constructor of `Instr` per row of the opcode table.
The word forms carry the header of R67 (or of a medium unit, R80) and their own modifier fields, typed as their
entry gives them; the compact forms carry the three operand bytes of R78; the steps of R238 and of the chapters on
dispatch, pre-emption, partitions and debugging carry the number of the party they act on. -/

namespace Sys2Proof

/-- The length of a unit (R77): 4, 8 or 12 bytes. A word form of the code stream is medium or full; `compact` marks
the header to which a compact form expands (R78). -/
inductive UnitLen where
  | compact
  | medium
  | full
deriving DecidableEq, Repr

/-- The fields that every word form has (R67, R80): guard, hint, operand codes and, where MOD[39] is 1, the
immediate of R69. `b` keeps the B field also where an immediate makes it ignored (R70). -/
structure Hdr where
  len : UnitLen
  gp : BitVec 3
  gn : Bool
  hint : BitVec 10
  d : BitVec 10
  a : BitVec 10
  b : BitVec 10
  imm : Option Word
deriving DecidableEq, Repr

/-- Operands A0 to A6 of a command record (R369, R371). -/
structure CmdOps where
  a0 : BitVec 64
  a1 : BitVec 64
  a2 : BitVec 64
  a3 : BitVec 64
  a4 : BitVec 64
  a5 : BitVec 64
  a6 : BitVec 64
deriving DecidableEq, Repr

/-- The target of a debug command (R399): a whole context, or one group. -/
structure DbgTarget where
  whole : Bool
  ctx : Nat
  core : Nat
  quad : Nat
  slot : Nat
deriving DecidableEq, Repr

/-- A memory error of R276: corrected in place, or uncorrectable: in the 64-byte block at a physical address, wherever HBM,
L2 or Sluice memory holds it; in a 64-byte run of a block's scratchpad; in a line of an owner slot's L1 ways; in a register
of a thread; in an s register of a group. `check`: the MAC or counter of a class-2 block fails its check (R273, R275), which is no soft error. -/
inductive MemErr where
  | corrected
  | block (pa : Nat)
  | spad (block off : Nat)
  | l1 (core oslot line : Nat)
  | regs (k r : Nat)
  | sregs (g i : Nat)
  | check (pa : Nat)
deriving DecidableEq, Repr

/-- What a remote package asks for (R390): a read of `n` bytes, a write, or an atomic of R169 by its OP and TY codes with its
operands. -/
inductive RemoteAcc where
  | read (n : Nat)
  | write (data : List Byte)
  | atomic (op ty b cmp : Nat)
deriving DecidableEq, Repr

/-- One constructor per row of the opcode table. -/
inductive Instr where
  /-- `MOV` (R96). Copies operand A, or the pair A with .b64, to D. -/
  | mov (h : Hdr) (w64 : Bool)
  /-- `MOVI` (R96). Writes the 32-bit immediate, sign-extended to a pair with .b64, to D. -/
  | movi (h : Hdr) (w64 : Bool)
  /-- `SEL` (R96). Writes A if the select predicate XOR SN is 1, otherwise B. -/
  | sel (h : Hdr) (sp : BitVec 3) (sn : Bool)
  /-- `IADD` (R94). Integer add, wrapping or saturating, signed or unsigned. -/
  | iadd (h : Hdr) (u : Bool) (sat : Bool)
  /-- `ISUB` (R94). Integer subtract, wrapping or saturating, signed or unsigned. -/
  | isub (h : Hdr) (u : Bool) (sat : Bool)
  /-- `IADC` (R95). Adds, or subtracts with .sub, with a carry predicate that is read and then written with the carry out. -/
  | iadc (h : Hdr) (cp : BitVec 3) (sub : Bool)
  /-- `IMUL` (R94). Integer multiply giving the low word, or the 64-bit product with .wide, optionally saturating. -/
  | imul (h : Hdr) (u : Bool) (sat : Bool) (wide : Bool)
  /-- `IMULH` (R94). Writes the high word of the 64-bit integer product. -/
  | imulh (h : Hdr) (u : Bool)
  /-- `IMAD` (R94). Integer multiply-add into D, optionally wide and saturating. -/
  | imad (h : Hdr) (u : Bool) (sat : Bool) (wide : Bool)
  /-- `IMIN` (R94). Writes the lesser of two integers, signed or unsigned. -/
  | imin (h : Hdr) (u : Bool)
  /-- `IMAX` (R94). Writes the greater of two integers, signed or unsigned. -/
  | imax (h : Hdr) (u : Bool)
  /-- `IABS` (R94). Writes the signed absolute value, wrapping or saturating. -/
  | iabs (h : Hdr) (sat : Bool)
  /-- `INEG` (R94). Writes the signed negation, wrapping or saturating. -/
  | ineg (h : Hdr) (sat : Bool)
  /-- `AND` (R96). Bitwise AND of A and B. -/
  | andw (h : Hdr)
  /-- `OR` (R96). Bitwise OR of A and B. -/
  | orw (h : Hdr)
  /-- `XOR` (R96). Bitwise XOR of A and B. -/
  | xorw (h : Hdr)
  /-- `ANDN` (R96). Bitwise A AND NOT B. -/
  | andn (h : Hdr)
  /-- `NOT` (R96). Bitwise complement of A. -/
  | notw (h : Hdr)
  /-- `SHL` (R96). Shifts left by b, giving 0 when b is 32 or more. -/
  | shl (h : Hdr)
  /-- `SHR` (R96). Logical shift right by b. -/
  | shr (h : Hdr)
  /-- `SAR` (R96). Arithmetic shift right by b. -/
  | sar (h : Hdr)
  /-- `ROTL` (R96). Rotates left by b mod 32. -/
  | rotl (h : Hdr)
  /-- `BFX` (R97). Extracts a bit field, zero-filled or sign-filled. -/
  | bfx (h : Hdr) (sx : Bool)
  /-- `BFI` (R97). Inserts a bit field of A into D. -/
  | bfi (h : Hdr)
  /-- `POPC` (R98). Counts the one bits of A. -/
  | popc (h : Hdr)
  /-- `CLZ` (R98). Counts the leading zeros of A. -/
  | clz (h : Hdr)
  /-- `CTZ` (R98). Counts the trailing zeros of A. -/
  | ctz (h : Hdr)
  /-- `BREV` (R98). Reverses the bit order of A. -/
  | brev (h : Hdr)
  /-- `ICMP` (R99). Compares two integers and writes 1 or 0. -/
  | icmp (h : Hdr) (cond : BitVec 3) (u : Bool)
  /-- `PLOP` (R99). Applies a 4-entry lookup table to two predicates. -/
  | plop (h : Hdr) (lut : BitVec 4)
  /-- `LEA` (R100). Adds a scaled, extended 32-bit value to a 64-bit pair. -/
  | lea (h : Hdr) (sc : BitVec 3) (u : Bool)
  /-- `ADD64` (R100). 64-bit add, or subtract with .sub, mod 2^64. -/
  | add64 (h : Hdr) (neg : Bool)
  /-- `CMP64` (R99). Compares two 64-bit pairs and writes 1 or 0. -/
  | cmp64 (h : Hdr) (cond : BitVec 3) (u : Bool)
  /-- `CVTI` (R101). Converts between integer widths, wrapping or saturating. -/
  | cvti (h : Hdr) (sty : BitVec 3) (dty : BitVec 3) (sat : Bool)
  /-- `BSEL` (R102). Builds a word from bytes of A and B under a control word in D. -/
  | bsel (h : Hdr)
  /-- `FADD` (R126). FP32 add rounded by Result. -/
  | fadd (h : Hdr) (rnd : BitVec 3)
  /-- `FSUB` (R126). FP32 subtract rounded by Result. -/
  | fsub (h : Hdr) (rnd : BitVec 3)
  /-- `FMUL` (R126). FP32 multiply rounded by Result. -/
  | fmul (h : Hdr) (rnd : BitVec 3)
  /-- `FFMA` (R126). FP32 fused multiply-add into D. -/
  | ffma (h : Hdr) (rnd : BitVec 3)
  /-- `FMIN` (R127). Writes the lesser FP32 value, with defined NaN handling. -/
  | fmin (h : Hdr)
  /-- `FMAX` (R127). Writes the greater FP32 value, with defined NaN handling. -/
  | fmax (h : Hdr)
  /-- `FCMP` (R128). Compares two FP32 values and writes 1 or 0. -/
  | fcmp (h : Hdr) (cond : BitVec 3)
  /-- `FCLASS` (R129). Writes a one-hot class mask of an element. -/
  | fclass (h : Hdr) (fmt : BitVec 3)
  /-- `FRND` (R130). Rounds FP32 to an integral value. -/
  | frnd (h : Hdr) (rnd : BitVec 3)
  /-- `FRCP` (R131). Correctly rounded reciprocal. -/
  | frcp (h : Hdr) (rnd : BitVec 3)
  /-- `FRSQ` (R131). Correctly rounded reciprocal square root. -/
  | frsq (h : Hdr) (rnd : BitVec 3)
  /-- `FSQRT` (R131). Correctly rounded square root. -/
  | fsqrt (h : Hdr) (rnd : BitVec 3)
  /-- `FEX2` (R131). Correctly rounded 2^a. -/
  | fex2 (h : Hdr) (rnd : BitVec 3)
  /-- `FLG2` (R131). Correctly rounded log2 a. -/
  | flg2 (h : Hdr) (rnd : BitVec 3)
  /-- `FSIN` (R131). Correctly rounded sin(pi a). -/
  | fsin (h : Hdr) (rnd : BitVec 3)
  /-- `FCOS` (R131). Correctly rounded cos(pi a). -/
  | fcos (h : Hdr) (rnd : BitVec 3)
  /-- `FTANH` (R131). Correctly rounded tanh a. -/
  | ftanh (h : Hdr) (rnd : BitVec 3)
  /-- `F2F` (R133). Converts between floating formats. -/
  | f2f (h : Hdr) (rnd : BitVec 3) (dty : BitVec 3) (sty : BitVec 3)
  /-- `I2F` (R134). Converts an integer to a floating format. -/
  | i2f (h : Hdr) (rnd : BitVec 3) (sty : BitVec 3) (dty : BitVec 2)
  /-- `F2I` (R135). Converts a floating value to an integer type. -/
  | f2i (h : Hdr) (rnd : BitVec 3) (dty : BitVec 3) (sty : BitVec 2)
  /-- `HADD2` (R137). Packed FP16 or BF16 add on two elements. -/
  | hadd2 (h : Hdr) (rnd : BitVec 3) (bf : Bool)
  /-- `HMUL2` (R137). Packed FP16 or BF16 multiply on two elements. -/
  | hmul2 (h : Hdr) (rnd : BitVec 3) (bf : Bool)
  /-- `HFMA2` (R137). Packed FP16 or BF16 fused multiply-add on two elements. -/
  | hfma2 (h : Hdr) (rnd : BitVec 3) (bf : Bool)
  /-- `DP2` (R138). Two-element dot product accumulated into D. -/
  | dp2 (h : Hdr) (rnd : BitVec 3) (hf : Bool)
  /-- `DP4` (R138). Four-element dot product accumulated into D. -/
  | dp4 (h : Hdr) (ty : BitVec 3) (sat : Bool) (rnd : BitVec 3)
  /-- `DP8` (R138). Eight-element dot product accumulated into D. -/
  | dp8 (h : Hdr) (ty : BitVec 3) (sat : Bool) (rnd : BitVec 3)
  /-- `SCLF` (R139). Applies block scales to a value and accumulates, rounding once. -/
  | sclf (h : Hdr) (rnd : BitVec 3) (one : Bool)
  /-- `PACK` (R140). Converts two FP32 values into one element pair of D. -/
  | pack (h : Hdr) (fmt : BitVec 3) (pos : BitVec 2) (rnd : BitVec 3)
  /-- `UNPK` (R141). Extracts one packed element as FP32 or s32. -/
  | unpk (h : Hdr) (fmt : BitVec 3)
  /-- `RSADD` (R144). Ring-set addition by table union. -/
  | rsadd (h : Hdr) (rs : BitVec 2)
  /-- `RSSUB` (R144). Ring-set subtraction. -/
  | rssub (h : Hdr) (rs : BitVec 2)
  /-- `RSMUL` (R144). Ring-set multiplication by table union. -/
  | rsmul (h : Hdr) (rs : BitVec 2)
  /-- `RSDIV` (R144). Ring-set division through the reciprocal. -/
  | rsdiv (h : Hdr) (rs : BitVec 2)
  /-- `RSNEG` (R145). Ring-set negation by element permutation. -/
  | rsneg (h : Hdr)
  /-- `RSRCP` (R145). Ring-set reciprocal. -/
  | rsrcp (h : Hdr) (rs : BitVec 2)
  /-- `RSSQR` (R145). Ring-set square. -/
  | rssqr (h : Hdr) (rs : BitVec 2)
  /-- `RSFROM` (R146). Converts an FP32 value or interval to an RS32 set. -/
  | rsfrom (h : Hdr) (rs : BitVec 2) (iv : Bool)
  /-- `RSLO` (R147). Writes the FP32 lower bound of a set. -/
  | rslo (h : Hdr) (rs : BitVec 2)
  /-- `RSHI` (R147). Writes the FP32 upper bound of a set. -/
  | rshi (h : Hdr) (rs : BitVec 2)
  /-- `RSUNI` (R148). Union of two sets. -/
  | rsuni (h : Hdr)
  /-- `RSINT` (R148). Intersection of two sets. -/
  | rsint (h : Hdr)
  /-- `RSTEST` (R148). Tests subset, meet, empty or whole. -/
  | rstest (h : Hdr) (mode : BitVec 2)
  /-- `RSPACK` (R149). Packs a set, or its hull, as RS16. -/
  | rspack (h : Hdr) (pw : BitVec 3)
  /-- `RSUNPK` (R149). Unpacks RS16 to RS32. -/
  | rsunpk (h : Hdr)
  /-- `RSRING` (R150). Loads seven ring values into a slot, starts its table build and writes a status. -/
  | rsring (h : Hdr) (rs : BitVec 2)
  /-- `BRA` (R104). Relative branch, conditional under a guard. -/
  | bra (h : Hdr)
  /-- `BRX` (R104). Indirect branch to a 64-bit address. -/
  | brx (h : Hdr)
  /-- `CALL` (R104). Writes the return address and branches, directly or indirectly. -/
  | call (h : Hdr) (ind : Bool)
  /-- `RET` (R104). Returns to an address held in a pair. -/
  | ret (h : Hdr)
  /-- `LOOP` (R105). Decrements a count and branches while it is non-zero. -/
  | loop (h : Hdr)
  /-- `EXIT` (R107). Ends the thread, withdrawing it from barriers and the leader record. -/
  | exit (h : Hdr)
  /-- `YIELD` (R108). Has the effect of the YIELD hint. -/
  | yieldI (h : Hdr)
  /-- `NOP` (R108). Does nothing. -/
  | nop (h : Hdr)
  /-- `SLEEP` (R108). Puts the thread in Waiting until a deadline of T. -/
  | sleep (h : Hdr)
  /-- `BAR` (R109). Arrives at a block barrier and waits for its release. -/
  | bar (h : Hdr) (id : BitVec 4)
  /-- `BARA` (R109). Arrives at a block barrier without waiting. -/
  | bara (h : Hdr) (id : BitVec 4)
  /-- `LAUNCH` (R111). Appends a child launch record to the owner's child queue and returns a handle. -/
  | launch (h : Hdr)
  /-- `CJOIN` (R112). Waits until a child grid, or all children, have completed. -/
  | cjoin (h : Hdr)
  /-- `RJEN` (R113). Enrols the lane in a rejoin barrier. -/
  | rjen (h : Hdr) (j : BitVec 3)
  /-- `RJWAIT` (R113). Arrives at a rejoin barrier and waits. -/
  | rjwait (h : Hdr) (j : BitVec 3)
  /-- `RJLEAVE` (R113). Withdraws the lane from a rejoin barrier. -/
  | rjleave (h : Hdr) (j : BitVec 3)
  /-- `LXCH` (R117). Exchanges values across lanes within segments. -/
  | lxch (h : Hdr) (mode : BitVec 2) (seg : BitVec 2) (vp : BitVec 3)
  /-- `VOTE` (R118). Ballot, any, all or equal vote over the participating lanes. -/
  | vote (h : Hdr) (mode : BitVec 2)
  /-- `SEGRED` (R119). Segmented reduction across lanes. -/
  | segred (h : Hdr) (op : BitVec 3) (ty : BitVec 2)
  /-- `SCAN` (R120). Segmented prefix across lanes. -/
  | scan (h : Hdr) (op : BitVec 3) (ty : BitVec 2) (excl : Bool)
  /-- `MATCH` (R121). Writes to each lane the mask of lanes with an equal value. -/
  | matchL (h : Hdr) (w64 : Bool)
  /-- `LEAD` (R121). Elects the lowest participating lane as the group's leader. -/
  | lead (h : Hdr)
  /-- `BCAST` (R122). Broadcasts one lane's value to all participating lanes. -/
  | bcast (h : Hdr)
  /-- `LD` (R158). Loads from global memory or the scratchpad window, with optional acquire or no lease. -/
  | ld (h : Hdr) (sz : BitVec 3) (acq : Bool) (sc : BitVec 3) (nl : Bool)
  /-- `ST` (R159). Stores to memory, with optional release, and collects the GWCT into wct. -/
  | st (h : Hdr) (sz : BitVec 3) (rel : Bool) (sc : BitVec 3)
  /-- `LDS` (R160). Loads from the block's scratchpad. -/
  | lds (h : Hdr) (sz : BitVec 3)
  /-- `STS` (R160). Stores to the block's scratchpad. -/
  | sts (h : Hdr) (sz : BitVec 3)
  /-- `LDC` (R161). Loads from the constant store. -/
  | ldc (h : Hdr) (sz : BitVec 2)
  /-- `LDF` (R162). Fine-grain load of 8 or 16 bytes, with no lease and no L1 allocation. -/
  | ldf (h : Hdr) (w16 : Bool)
  /-- `PREF` (R163). Prefetches a line into L1 with a lease, or into L2. -/
  | pref (h : Hdr) (l2 : Bool)
  /-- `CINV` (R164). Drops L1 lines or instruction-cache words, by line or in full. -/
  | cinv (h : Hdr) (op : BitVec 2)
  /-- `SMAP` (R166). Maps a stash window and takes ownership of its lines. -/
  | smap (h : Hdr) (w : BitVec 3)
  /-- `SWB` (R168). Writes back the dirty lines of a stash window. -/
  | swb (h : Hdr) (w : BitVec 3)
  /-- `SINV` (R168). Releases and unmaps a stash window, with optional write-back. -/
  | sinv (h : Hdr) (w : BitVec 3) (wb : Bool)
  /-- `ATOM` (R171). Atomic read-modify-write at the home, returning the old value. -/
  | atom (h : Hdr) (op : BitVec 4) (ty : BitVec 2) (ord : BitVec 2) (sc : BitVec 3)
  /-- `ATOMC` (R172). Atomic compare-and-swap. -/
  | atomc (h : Hdr) (w64 : Bool) (ord : BitVec 2) (sc : BitVec 3)
  /-- `RED` (R173). Atomic reduction that returns nothing. -/
  | red (h : Hdr) (op : BitVec 4) (ty : BitVec 2) (rel : Bool) (sc : BitVec 3)
  /-- `ATOMSC` (R174). Sequentially consistent atomic ordered by sequencer tickets. -/
  | atomsc (h : Hdr) (op : BitVec 4) (ty : BitVec 2)
  /-- `ATOMS` (R175). Atomic operation on a scratchpad word. -/
  | atoms (h : Hdr) (op : BitVec 4) (ty : BitVec 2)
  /-- `FENCE` (R177). Orders and, at wide scopes, waits for the thread's earlier accesses. -/
  | fence (h : Hdr) (sc : BitVec 3)
  /-- `WAITC` (R178). Registers a monitor with a continuation and ends the thread. -/
  | waitc (h : Hdr) (live : BitVec 5) (cnd : BitVec 2)
  /-- `WAITG` (R182). Waits until an arrival word's generation changes. -/
  | waitg (h : Hdr)
  /-- `ARMW` (R182). Arms an arrival word's target and returns its generation. -/
  | armw (h : Hdr)
  /-- `ARRV` (R182). Adds bytes to an arrival word's count and runs its test. -/
  | arrv (h : Hdr)
  /-- `CAPS` (R184). Acquires a capsule record, skips to after CEND if the runner is descheduled, or waits. -/
  | caps (h : Hdr) (ns : BitVec 5)
  /-- `CLD` (R186). Capsule step that reads a word at the home at commit. -/
  | cld (h : Hdr)
  /-- `CST` (R186). Capsule step whose store Sluice performs once at commit. -/
  | cst (h : Hdr)
  /-- `CEND` (R187). Ends a capsule, posting a displaced result if adopted, and releases the record. -/
  | cend (h : Hdr)
  /-- `CADOPT` (R188). Adopts a capsule whose runner is descheduled and resumes it from its checkpoint. -/
  | cadopt (h : Hdr)
  /-- `CQRY` (R190). Reads a snapshot of a capsule record. -/
  | cqry (h : Hdr)
  /-- `MMA` (R196). Queues a floating 32x32 matrix multiply-accumulate on the MXU. -/
  | mma (h : Hdr) (ty : BitVec 3) (asp : Bool) (pm : Bool) (str : BitVec 2) (rnd : BitVec 3)
  /-- `MMAI` (R196). Queues an integer matrix multiply-accumulate. -/
  | mmai (h : Hdr) (ty : BitVec 3) (asp : Bool) (pm : Bool) (str : BitVec 2) (sat : Bool)
  /-- `MMAB` (R196). Queues a block-scaled matrix multiply-accumulate. -/
  | mmab (h : Hdr) (ty : BitVec 3) (asp : Bool) (pm : Bool) (str : BitVec 2) (rnd : BitVec 3)
  /-- `MMAS` (R196). Queues a 2:4 structured-sparse matrix multiply-accumulate. -/
  | mmas (h : Hdr) (ty : BitVec 3) (asp : Bool) (pm : Bool) (str : BitVec 2) (rnd : BitVec 3) (sat : Bool)
  /-- `TMV` (R204). Per-thread tiny matrix-vector product with weights from the constant store. -/
  | tmv (h : Hdr) (m1 : BitVec 3) (n1 : BitVec 3) (bf : Bool)
  /-- `MZERO` (R202). Queues a stream operation that zeroes a 32-register tile. -/
  | mzero (h : Hdr) (pm : Bool) (str : BitVec 2)
  /-- `MOPR` (R203). Waits until the group's earlier register and scratchpad writes are complete. -/
  | mopr (h : Hdr)
  /-- `MWAIT` (R203). Waits for the group's matrix streams, then delivers poison. -/
  | mwait (h : Hdr) (smask : BitVec 4)
  /-- `TCOPY` (R210). Starts a tensor copy between global memory and scratchpad through a shape record. -/
  | tcopy (h : Hdr) (dir : Bool) (sf : BitVec 3) (sr : Bool) (arv : Bool)
  /-- `RCFENCE` (R209). Drops one or all record-cache entries after earlier accesses. -/
  | rcfence (h : Hdr) (all : Bool)
  /-- `CPWAIT` (R207). Waits until at most b engine operations remain, then delivers an error. -/
  | cpwait (h : Hdr)
  /-- `GATH` (R211). Starts an indexed gather from global memory into scratchpad. -/
  | gath (h : Hdr) (sz : BitVec 2) (u : Bool) (arv : Bool)
  /-- `SCAT` (R211). Starts an indexed scatter from scratchpad to global memory. -/
  | scat (h : Hdr) (sz : BitVec 2) (u : Bool) (arv : Bool)
  /-- `HSET` (R213). Configures a Harrow cursor from an image and resets its positions. -/
  | hset (h : Hdr) (hc : BitVec 2)
  /-- `HNEXT` (R214). Draws up to m survivors from a cursor, one per lane. -/
  | hnext (h : Hdr) (hc : BitVec 2) (pv : BitVec 3)
  /-- `HSAVE` (R213). Writes a cursor image to memory. -/
  | hsave (h : Hdr) (hc : BitVec 2)
  /-- `HLOAD` (R213). Loads a full cursor image so that it resumes. -/
  | hload (h : Hdr) (hc : BitVec 2)
  /-- `HSTAT` (R213). Writes a cursor's VALID, DONE and DRAWN. -/
  | hstat (h : Hdr) (hc : BitVec 2)
  /-- `HXST` (R218). Saves the owner slot's history image to memory. -/
  | hxst (h : Hdr)
  /-- `HXLD` (R218). Loads a history image into the owner slot's bank. -/
  | hxld (h : Hdr)
  /-- `HXCLR` (R219). Clears the whole bank or chosen tables. -/
  | hxclr (h : Hdr) (tbl : BitVec 4)
  /-- `HXRD` (R220). Reads one word of the history image. -/
  | hxrd (h : Hdr)
  /-- `HXWR` (R220). Writes one word of the history image as a bank operation. -/
  | hxwr (h : Hdr)
  /-- `HXCFG` (R221). Updates the low half of the configuration word and returns its old value. -/
  | hxcfg (h : Hdr)
  /-- `TRAP` (R225). Takes a TRAP-cause trap carrying b. -/
  | trapI (h : Hdr)
  /-- `XRET` (R226). Returns from a handler, optionally skipping the trapped unit. -/
  | xret (h : Hdr) (skip : Bool)
  /-- `MFS` (R227). Reads a special register. -/
  | mfs (h : Hdr)
  /-- `MTS` (R227). Writes a special register. -/
  | mts (h : Hdr)
  /-- `MFS_T` (R228). Debug monitor reads a register of a stopped thread. -/
  | mfsT (h : Hdr) (pv : BitVec 3)
  /-- `MTS_T` (R228). Debug monitor writes a register of a stopped thread. -/
  | mtsT (h : Hdr) (pv : BitVec 3)
  /-- `BKPT` (R225). Takes a BKPT trap, or stops the thread when breakpoints are claimed. -/
  | bkpt (h : Hdr)
  /-- `DBGMSG` (R229). Posts a debug message to the mailbox or the trace fabric. -/
  | dbgmsg (h : Hdr)
  /-- `PMARK` (R230). Sets the group's performance mark. -/
  | pmark (h : Hdr)
  /-- `PMRD` (R231). Reads a performance counter. -/
  | pmrd (h : Hdr)
  /-- `CLKRD` (R232). Reads the time base T. -/
  | clkrd (h : Hdr)
  /-- `IPREF` (R233). Prefetches code lines into the instruction cache. -/
  | ipref (h : Hdr)
  /-- `QNTF` (R234). Notifies a host-visible work queue. -/
  | qntf (h : Hdr)
  /-- `TOKRD` (R235). Reads a figure of the partition's power budget. -/
  | tokrd (h : Hdr) (fig : BitVec 2)
  /-- `MOV_COMPACT` (R79): compact entry 0. -/
  | movCompact (d a b : Byte)
  /-- `IADD_COMPACT` (R79): compact entry 1. -/
  | iaddCompact (d a b : Byte)
  /-- `ISUB_COMPACT` (R79): compact entry 2. -/
  | isubCompact (d a b : Byte)
  /-- `IMUL_COMPACT` (R79): compact entry 3. -/
  | imulCompact (d a b : Byte)
  /-- `IMAD_COMPACT` (R79): compact entry 4. -/
  | imadCompact (d a b : Byte)
  /-- `IMIN_COMPACT` (R79): compact entry 5. -/
  | iminCompact (d a b : Byte)
  /-- `IMAX_COMPACT` (R79): compact entry 6. -/
  | imaxCompact (d a b : Byte)
  /-- `AND_COMPACT` (R79): compact entry 7. -/
  | andwCompact (d a b : Byte)
  /-- `OR_COMPACT` (R79): compact entry 8. -/
  | orwCompact (d a b : Byte)
  /-- `XOR_COMPACT` (R79): compact entry 9. -/
  | xorwCompact (d a b : Byte)
  /-- `ANDN_COMPACT` (R79): compact entry 10. -/
  | andnCompact (d a b : Byte)
  /-- `NOT_COMPACT` (R79): compact entry 11. -/
  | notwCompact (d a b : Byte)
  /-- `SHL_COMPACT` (R79): compact entry 12. -/
  | shlCompact (d a b : Byte)
  /-- `SHR_COMPACT` (R79): compact entry 13. -/
  | shrCompact (d a b : Byte)
  /-- `SAR_COMPACT` (R79): compact entry 14. -/
  | sarCompact (d a b : Byte)
  /-- `POPC_COMPACT` (R79): compact entry 15. -/
  | popcCompact (d a b : Byte)
  /-- `CLZ_COMPACT` (R79): compact entry 16. -/
  | clzCompact (d a b : Byte)
  /-- `ADD64_COMPACT` (R79): compact entry 17. -/
  | add64Compact (d a b : Byte)
  /-- `LEA_COMPACT` (R79): compact entry 18. -/
  | leaCompact (d a b : Byte)
  /-- `FADD_COMPACT` (R79): compact entry 19. -/
  | faddCompact (d a b : Byte)
  /-- `FSUB_COMPACT` (R79): compact entry 20. -/
  | fsubCompact (d a b : Byte)
  /-- `FMUL_COMPACT` (R79): compact entry 21. -/
  | fmulCompact (d a b : Byte)
  /-- `FFMA_COMPACT` (R79): compact entry 22. -/
  | ffmaCompact (d a b : Byte)
  /-- `FMIN_COMPACT` (R79): compact entry 23. -/
  | fminCompact (d a b : Byte)
  /-- `FMAX_COMPACT` (R79): compact entry 24. -/
  | fmaxCompact (d a b : Byte)
  /-- `FRCP_COMPACT` (R79): compact entry 25. -/
  | frcpCompact (d a b : Byte)
  /-- `FRSQ_COMPACT` (R79): compact entry 26. -/
  | frsqCompact (d a b : Byte)
  /-- `FSQRT_COMPACT` (R79): compact entry 27. -/
  | fsqrtCompact (d a b : Byte)
  /-- `FEX2_COMPACT` (R79): compact entry 28. -/
  | fex2Compact (d a b : Byte)
  /-- `FLG2_COMPACT` (R79): compact entry 29. -/
  | flg2Compact (d a b : Byte)
  /-- `FTANH_COMPACT` (R79): compact entry 30. -/
  | ftanhCompact (d a b : Byte)
  /-- `HADD2_COMPACT` (R79): compact entry 31. -/
  | hadd2Compact (d a b : Byte)
  /-- `HMUL2_COMPACT` (R79): compact entry 32. -/
  | hmul2Compact (d a b : Byte)
  /-- `HFMA2_COMPACT` (R79): compact entry 33. -/
  | hfma2Compact (d a b : Byte)
  /-- `DP2_COMPACT` (R79): compact entry 34. -/
  | dp2Compact (d a b : Byte)
  /-- `DP4_S8_COMPACT` (R79): compact entry 35. -/
  | dp4S8Compact (d a b : Byte)
  /-- `DP4_E4M3_COMPACT` (R79): compact entry 36. -/
  | dp4E4m3Compact (d a b : Byte)
  /-- `DP8_S4_COMPACT` (R79): compact entry 37. -/
  | dp8S4Compact (d a b : Byte)
  /-- `DP8_E2M1_COMPACT` (R79): compact entry 38. -/
  | dp8E2m1Compact (d a b : Byte)
  /-- `I2F_COMPACT` (R79): compact entry 39. -/
  | i2fCompact (d a b : Byte)
  /-- `F2I_COMPACT` (R79): compact entry 40. -/
  | f2iCompact (d a b : Byte)
  /-- `F2F_COMPACT` (R79): compact entry 41. -/
  | f2fCompact (d a b : Byte)
  /-- `LD_B32_COMPACT` (R79): compact entry 42. -/
  | ldB32Compact (d a b : Byte)
  /-- `LD_B64_COMPACT` (R79): compact entry 43. -/
  | ldB64Compact (d a b : Byte)
  /-- `ST_B32_COMPACT` (R79): compact entry 44. -/
  | stB32Compact (d a b : Byte)
  /-- `ST_B64_COMPACT` (R79): compact entry 45. -/
  | stB64Compact (d a b : Byte)
  /-- `LDS_COMPACT` (R79): compact entry 46. -/
  | ldsCompact (d a b : Byte)
  /-- `STS_COMPACT` (R79): compact entry 47. -/
  | stsCompact (d a b : Byte)
  /-- `LDC_COMPACT` (R79): compact entry 48. -/
  | ldcCompact (d a b : Byte)
  /-- `ATOM_COMPACT` (R79): compact entry 49. -/
  | atomCompact (d a b : Byte)
  /-- `RED_COMPACT` (R79): compact entry 50. -/
  | redCompact (d a b : Byte)
  /-- `LXCH_FROM_COMPACT` (R79): compact entry 51. -/
  | lxchFromCompact (d a b : Byte)
  /-- `LXCH_FLIP_COMPACT` (R79): compact entry 52. -/
  | lxchFlipCompact (d a b : Byte)
  /-- `LXCH_FWD_COMPACT` (R79): compact entry 53. -/
  | lxchFwdCompact (d a b : Byte)
  /-- `RSADD_COMPACT` (R79): compact entry 54. -/
  | rsaddCompact (d a b : Byte)
  /-- `RSSUB_COMPACT` (R79): compact entry 55. -/
  | rssubCompact (d a b : Byte)
  /-- `RSMUL_COMPACT` (R79): compact entry 56. -/
  | rsmulCompact (d a b : Byte)
  /-- `RSDIV_COMPACT` (R79): compact entry 57. -/
  | rsdivCompact (d a b : Byte)
  /-- `RSUNI_COMPACT` (R79): compact entry 58. -/
  | rsuniCompact (d a b : Byte)
  /-- `RSINT_COMPACT` (R79): compact entry 59. -/
  | rsintCompact (d a b : Byte)
  /-- `BFX_COMPACT` (R79): compact entry 60. -/
  | bfxCompact (d a b : Byte)
  /-- `BFI_COMPACT` (R79): compact entry 61. -/
  | bfiCompact (d a b : Byte)
  /-- `BSEL_COMPACT` (R79): compact entry 62. -/
  | bselCompact (d a b : Byte)
  /-- `CVTI_COMPACT` (R79): compact entry 63. -/
  | cvtiCompact (d a b : Byte)
  /-- `TICK` (R238). The time base T advances by one cycle. -/
  | tick
  /-- `EVICT` (R238). A valid L1 line becomes invalid. -/
  | evict (c o la : Nat)
  /-- `READ_L1` (R238). A pending load takes its value from a valid L1 copy. -/
  | readL1 (r : Nat)
  /-- `READ_HOME` (R238). A pending load takes the home value, granting a lease and filling L1 where it leases. -/
  | readHome (r : Nat)
  /-- `RECALL` (R238). A global load of a stash-owned line takes the window's current bytes. -/
  | recall (r : Nat)
  /-- `WRITE_HOME` (R238). A store, write-back or engine write is performed at home, returns its GWCT and tests monitors. -/
  | writeHome (r : Nat)
  /-- `RMW_HOME` (R238). An atomic is performed at home in one step and returns the old value. -/
  | rmwHome (r : Nat)
  /-- `TICKET` (R174). An ATOMSC takes the next ticket from the sequencer. -/
  | ticket (r : Nat)
  /-- `SLUICE_OP` (R238). Sluice performs a synchronisation-page request in intake order. -/
  | sluiceOp (r : Nat)
  /-- `GRANT` (R238). A home slice grants stash ownership of a line once its leases have expired. -/
  | grant (r : Nat)
  /-- `ENGINE_PART` (R243). One part of an engine or matrix operation is read or written. -/
  | enginePart (e part : Nat)
  /-- `LOAD_RETURN` (R324). A load's value returns and is written unless its generation tag is stale. -/
  | loadReturn (r : Nat)
  /-- `GWCT_RETURN` (R159). A write's GWCT reaches its thread and enters its wct. -/
  | gwctReturn (r : Nat)
  /-- `HOST_PATH_COMPLETION` (R383). A completion or acknowledgement arrives on the host path or a Pritch sub-link and is checked. -/
  | hostPathCompletion (r : Nat) (ok : Bool)
  /-- `REQUEST_TIMEOUT` (R384). A non-posted host or Pritch request times out after 50 µs. -/
  | requestTimeout (r : Nat)
  /-- `L2_EVICT` (R260). An L2 slice evicts a line, writing dirty sectors and keeping MAXEXP. -/
  | l2Evict (la : Nat)
  /-- `LINE_STORE_EVICT` (R340). Sluice evicts a synchronisation-page line to HBM. -/
  | lineStoreEvict (la : Nat)
  /-- `STASH_LINE_FILL` (R167). An owned stash-window line fills from its home on first touch. -/
  | stashLineFill (b w line : Nat)
  /-- `STASH_EVICT` (R168). A stash window loses a line to eviction, writing it back if dirty. -/
  | stashEvict (b w line : Nat)
  /-- `ICACHE_FILL` (R82). An instruction-cache fill ends, installing expanded or fill-fault words. -/
  | icacheFill (c o pc : Nat)
  /-- `BANK_OP_DONE` (R292). A history bank operation ends and its thread may proceed. -/
  | bankOpDone (c o : Nat)
  /-- `RING_BUILD_DONE` (R65). A ring slot's table build ends and waiting consumers proceed. -/
  | ringBuildDone (c rs : Nat)
  /-- `MXU_OP_COMPLETE` (R196). A matrix operation runs and writes its rows, or poisons them. -/
  | mxuOpComplete (e : Nat)
  /-- `COPY_CHUNK_DONE` (R210). A 4 KiB chunk of a copy completes and adds its bytes to the arrival word. -/
  | copyChunkDone (e : Nat)
  /-- `GATHER_WINDOW_DONE` (R211). A 32-element gather or scatter window completes and adds its bytes. -/
  | gatherWindowDone (e : Nat)
  /-- `ENGINE_OP_COMPLETE` (R206). An engine operation completes, normally or in error. -/
  | engineOpComplete (e : Nat)
  /-- `CAPSULE_COMMIT` (R348). Sluice tests and performs a capsule step's commit and acknowledges it. -/
  | capsuleCommit (r : Nat)
  /-- `CAPS_RETRY_TIMER` (R350). A core retries a waiting CAPS every 64 cycles when the waiter lists are full. -/
  | capsRetryTimer (c : Nat)
  /-- `SLEEP_EXPIRE` (R108). A sleeping thread's deadline passes and it becomes Ready. -/
  | sleepExpire (k : Nat)
  /-- `DEFER_END` (R285). A deferred short bundle's deferral ends and it may issue. -/
  | deferEnd (q : Nat)
  /-- `NOTIFY` (R300). A write to a queue's PROD maps the queue, pre-empts a releasable slot, or pends it. -/
  | notify (q prod : Nat)
  /-- `PENDING_MAP` (R301). A slot that becomes releasable maps the next pending queue of its partition. -/
  | pendingMap (sl : Nat)
  /-- `RECORD_CONSUME` (R301). A slot reads a launch record, raises CONS and checks it into a launch or a rejection. -/
  | recordConsume (src : Nat)
  /-- `LAUNCH_READY` (R304). A launch becomes ready once its wait words and predecessor allow. -/
  | launchReady (l : Nat)
  /-- `PRIORITY_AGE` (R305). A waiting launch's effective priority rises after each 65,536 cycles. -/
  | priorityAge (l : Nat)
  /-- `BLOCK_PLACEMENT` (R306). The dispatcher places a block on a core, loading a constant image if needed. -/
  | blockPlacement (l : Nat)
  /-- `CONTINUATION_PLACEMENT` (R310). The dispatcher forms and places a continuation group from a grid's pool. -/
  | continuationPlacement (g c : Nat)
  /-- `CARVE_CHANGE` (R308). A marked core changes its carve-out once its resident blocks allow. -/
  | carveChange (c : Nat)
  /-- `BLOCK_COMPLETE` (R107). A block completes once its threads, operations and stores are done. -/
  | blockComplete (b : Nat)
  /-- `BLOCK_RETIRE` (R16). A retire record's child count reaches zero and the block retires. -/
  | blockRetire (b : Nat)
  /-- `GRID_COMPLETE` (R314). A grid completes and its completion word is incremented. -/
  | gridComplete (g : Nat)
  /-- `FAULT_RECORD_POST` (R318). A held fault record is posted once the fault queue has room. -/
  | faultRecordPost (p : Nat)
  /-- `FAULTQ_CONS_WRITE` (R318). System software raises the fault queue's CONS, ignored beyond PROD. -/
  | faultqConsWrite (p v : Nat)
  /-- `RETIRED_TIMER_EXPIRE` (R328). A context's retired-instruction count reaches its limit and it is pre-empted with hold. -/
  | retiredTimerExpire (c ctx : Nat)
  /-- `ENGINE_ACK` (R325). An engine class stops at its unit and acknowledges to the collector. -/
  | engineAck (c ctx cls : Nat)
  /-- `FRAME_WRITE` (R332). The context engine writes a core's save frame. -/
  | frameWrite (c ctx : Nat)
  /-- `PREEMPT_DONE` (R327). The collector sees every acknowledgement and frame and posts PREEMPT_DONE. -/
  | preemptDone (ctx : Nat)
  /-- `PREEMPT_LATE` (R327). A pre-emption is still incomplete after 50 µs and PREEMPT_LATE is posted. -/
  | preemptLate (ctx : Nat)
  /-- `CONTEXT_RESTORE` (R334). The context engine places and restores a pre-empted context's blocks. -/
  | contextRestore (ctx c : Nat)
  /-- `PREEMPT` (R323). Pre-empts a context on every core, with or without hold. -/
  | preempt (p : Nat) (ops : CmdOps)
  /-- `RESTORE` (R334). Restores a pre-empted context. -/
  | restore (p : Nat) (ops : CmdOps)
  /-- `REPLAY` (R320). Replays a fault record by its sequence number. -/
  | replay (p : Nat) (ops : CmdOps)
  /-- `ABORT` (R335). Destroys a context. -/
  | abort (p : Nat) (ops : CmdOps)
  /-- `PTIMER` (R328). Arms or disarms a context's retired-instruction timer on a core. -/
  | ptimer (p : Nat) (ops : CmdOps)
  /-- `INV_VA` (R271). Invalidates translations of an owner's virtual range. -/
  | invVa (p : Nat) (ops : CmdOps)
  /-- `INV_OWNER` (R271). Invalidates every translation of an owner. -/
  | invOwner (p : Nat) (ops : CmdOps)
  /-- `INV_IPA` (R271). Invalidates translations of an intermediate range. -/
  | invIpa (p : Nat) (ops : CmdOps)
  /-- `INV_ALL` (R271). Invalidates every translation of the partition. -/
  | invAll (p : Nat) (ops : CmdOps)
  /-- `SET_FAULTQ` (R318). Sets the fault queue's base and size. -/
  | setFaultq (p : Nat) (ops : CmdOps)
  /-- `SET_TABLES` (R370). Sets the owner table and the queue table. -/
  | setTables (p : Nat) (ops : CmdOps)
  /-- `SET_SLUICE_OVF` (R341). Sets a Sluice overflow area. -/
  | setSluiceOvf (p : Nat) (ops : CmdOps)
  /-- `SET_REGION` (R372). Writes a format-region descriptor at every controller. -/
  | setRegion (p : Nat) (ops : CmdOps)
  /-- `PAGE_REC` (R379). Sets the protection class and key of a range of pages. -/
  | pageRec (p : Nat) (ops : CmdOps)
  /-- `SCRUB` (R370). Writes zeros under a range's records and clears poison. -/
  | scrub (p : Nat) (ops : CmdOps)
  /-- `KEYGEN` (R380). Fills a key slot from the device's random source. -/
  | keygen (p : Nat) (ops : CmdOps)
  /-- `KEYLOAD` (R381). Unwraps a key blob into a key slot or channel. -/
  | keyload (p : Nat) (ops : CmdOps)
  /-- `KEYDROP` (R380). Clears a key slot. -/
  | keydrop (p : Nat) (ops : CmdOps)
  /-- `ATTEST` (R382). Makes a fresh attestation key and writes a signed report. -/
  | attest (p : Nat) (ops : CmdOps)
  /-- `IDCERT` (R370). Copies the device identity certificate chain. -/
  | idcert (p : Nat) (ops : CmdOps)
  /-- `BRINE_SET` (R385). Opens a brine channel from its descriptor. -/
  | brineSet (p : Nat) (ops : CmdOps)
  /-- `BRINE_CLOSE` (R385). Stops a brine channel after the slot in progress. -/
  | brineClose (p : Nat) (ops : CmdOps)
  /-- `BRINE_SEND` (R389). Encrypts device data into a device-to-host brine slot. -/
  | brineSend (p : Nat) (ops : CmdOps)
  /-- `QRESUME` (R303). Resumes a halted queue, optionally setting PROD. -/
  | qresume (p : Nat) (ops : CmdOps)
  /-- `PART_CREATE` (R368). Creates a partition from its descriptor. -/
  | partCreate (p : Nat) (ops : CmdOps)
  /-- `PART_DESTROY` (R395). Destroys a partition and frees its resources. -/
  | partDestroy (p : Nat) (ops : CmdOps)
  /-- `CORE_ASSIGN` (R373). Moves a core to another partition, with history save and scrub. -/
  | coreAssign (p : Nat) (ops : CmdOps)
  /-- `MEM_ASSIGN` (R370). Assigns HBM pages to a partition with record NONE. -/
  | memAssign (p : Nat) (ops : CmdOps)
  /-- `LINK_KEY` (R383). Switches link stream keys for the named directions. -/
  | linkKey (p : Nat) (ops : CmdOps)
  /-- `SUBLINK_ASSIGN` (R390). Sets a Pritch port's split and gives a sub-link to a partition. -/
  | sublinkAssign (p : Nat) (ops : CmdOps)
  /-- `POWER_WEIGHT` (R370). Sets a partition's power weight from the next interval. -/
  | powerWeight (p : Nat) (ops : CmdOps)
  /-- `RESET` (R394). Resets the package into open or confidential mode. -/
  | reset (p : Nat) (ops : CmdOps)
  /-- `REGION_ASSIGN` (R372). Gives a format region to a partition or takes it away. -/
  | regionAssign (p : Nat) (ops : CmdOps)
  /-- `POWER_ON_RESET` (R394). Power-on runs the verified boot, training, scrub and start of the partition manager. -/
  | powerOnReset
  /-- `BRINE_PROD_WRITE` (R386). The host writes a brine channel's PROD. -/
  | brineProdWrite (p ch v : Nat)
  /-- `BRINE_SLOT_FINISH` (R387). The device finishes a host-to-device slot, or fails it into DESYNC. -/
  | brineSlotFinish (p ch : Nat)
  /-- `BRINE_DESYNC_CLEAR` (R388). A write of 1 to DESYNC clears it and advances EPOCH when PROD equals CONS. -/
  | brineDesyncClear (p ch : Nat)
  /-- `POWER_INTERVAL_START` (R391). A 50 µs interval starts and allots token balances and the pool. -/
  | powerIntervalStart
  /-- `POWER_MIDPOINT` (R391). At cycle 21,250 unspent tokens flow to the pool. -/
  | powerMidpoint
  /-- `ENERGY_ACCRUE` (R391). A metered millijoule lowers a balance, or draws a token from the pool, or throttles. -/
  | energyAccrue (p : Nat)
  /-- `MEMORY_ERROR` (R276). A soft error is corrected and counted, or an uncorrectable one is delivered as INTEGRITY. -/
  | memoryError (kind : MemErr)
  /-- `ATTACH` (R398). Attaches a debug monitor group from a debug descriptor. -/
  | attach (p desc : Nat)
  /-- `DETACH` (R398). Detaches the debug monitor and resumes stopped threads. -/
  | detach (p : Nat)
  /-- `STOP` (R400). Brings the target threads to Stopped at instruction boundaries. -/
  | stop (p : Nat) (tgt : DbgTarget)
  /-- `RESUME` (R400). Lets the target's stopped threads continue. -/
  | resume (p : Nat) (tgt : DbgTarget)
  /-- `STEP` (R402). Steps each distinct PC of a group's stopped threads by one instruction. -/
  | step (p : Nat) (tgt : DbgTarget)
  /-- `STEP_ONE` (R402). Steps only the lowest PC of a group's stopped threads. -/
  | stepOne (p : Nat) (tgt : DbgTarget)
  /-- `STEP_WAIT` (R403). Steps and reports once the operations and children it started complete. -/
  | stepWait (p : Nat) (tgt : DbgTarget)
  /-- `TRAPSTEP` (R403). Resumes stopped threads so that each traps STEP after its next instruction. -/
  | trapstep (p : Nat) (tgt : DbgTarget)
  /-- `MAILBOX_POST` (R404). A held STOP message is appended to the mailbox ring once it has room. -/
  | mailboxPost (p : Nat)
  /-- `STALL_SAMPLE` (R405). Each quadrant samples one group when T mod PERIOD is 0. -/
  | stallSample (q : Nat)
  /-- `SAMPLE_DRAIN` (R406). A core drains a buffered sample record to the sample ring. -/
  | sampleDrain (c : Nat)
  /-- `HOST_WRITE` (R180). A write from the host to device memory arrives over the host link and is performed at its home, testing that line's monitors. -/
  | hostWrite (pa : Nat) (data : List Byte)
  /-- `PRITCH_REMOTE_REQUEST` (R390). A request from a remote package arrives on a Pritch sub-link, is translated by the local partition's stage 2 and is served at its home. -/
  | pritchRemoteRequest (port sl ipa : Nat) (acc : RemoteAcc)
  /-- `SUBLINK_TRAIN` (R390). A sub-link trains once the remote package's partition manager makes the matching assignment. -/
  | sublinkTrain (port sl : Nat)
deriving DecidableEq, Repr

end Sys2Proof
end

