-- ==== Sys2Proof/Machine/Encoding.lean ====
section
/-! DEFINITION. The encoding tables of the instruction chapters as functions of the instruction: opcode (R85),
modifier region (R69), header, whether B may be an immediate (R92), and the rules of the entries on field values. -/

namespace Sys2Proof

/-- The column "Imm" of the encoding tables (R92). -/
inductive ImmPolicy where
  | no
  | yes
  | req
deriving DecidableEq, Repr

/-- An immediate where none is accepted, or none where one is required (R69, R92). -/
def ImmPolicy.bad : ImmPolicy → Option Word → Bool
  | .no, i => i.isSome
  | .yes, _ => false
  | .req, i => i.isNone

/-- The last pair position of a PACK format (R136). -/
def packLast (fmt : BitVec 3) : Nat :=
  match fmt.toNat with
  | 1 => 0 | 2 => 0 | 3 => 1 | 4 => 1 | 5 => 3 | 6 => 1 | 7 => 3 | _ => 0

/-- The operations and types that ATOM accepts (R170): `.cas` is left to ATOMSC and ATOMS. -/
def atomOpOk (op : BitVec 4) (ty : BitVec 2) : Bool :=
  match op.toNat with
  | 0 | 1 | 2 | 6 => true
  | 3 | 4 | 5 => ty ≠ 2
  | 7 | 8 => ty = 1
  | _ => false

/-- The operations and types that ATOMSC and ATOMS accept (R170). -/
def atomOpOkCas (op : BitVec 4) (ty : BitVec 2) : Bool :=
  atomOpOk op ty || (op = 9 && (ty = 1 || ty = 3))

/-- The header of a word form; the compact forms and the steps have none. -/
def Instr.hdr? : Instr → Option Hdr
  | .mov h _ => some h
  | .movi h _ => some h
  | .sel h _ _ => some h
  | .iadd h _ _ => some h
  | .isub h _ _ => some h
  | .iadc h _ _ => some h
  | .imul h _ _ _ => some h
  | .imulh h _ => some h
  | .imad h _ _ _ => some h
  | .imin h _ => some h
  | .imax h _ => some h
  | .iabs h _ => some h
  | .ineg h _ => some h
  | .andw h => some h
  | .orw h => some h
  | .xorw h => some h
  | .andn h => some h
  | .notw h => some h
  | .shl h => some h
  | .shr h => some h
  | .sar h => some h
  | .rotl h => some h
  | .bfx h _ => some h
  | .bfi h => some h
  | .popc h => some h
  | .clz h => some h
  | .ctz h => some h
  | .brev h => some h
  | .icmp h _ _ => some h
  | .plop h _ => some h
  | .lea h _ _ => some h
  | .add64 h _ => some h
  | .cmp64 h _ _ => some h
  | .cvti h _ _ _ => some h
  | .bsel h => some h
  | .fadd h _ => some h
  | .fsub h _ => some h
  | .fmul h _ => some h
  | .ffma h _ => some h
  | .fmin h => some h
  | .fmax h => some h
  | .fcmp h _ => some h
  | .fclass h _ => some h
  | .frnd h _ => some h
  | .frcp h _ => some h
  | .frsq h _ => some h
  | .fsqrt h _ => some h
  | .fex2 h _ => some h
  | .flg2 h _ => some h
  | .fsin h _ => some h
  | .fcos h _ => some h
  | .ftanh h _ => some h
  | .f2f h _ _ _ => some h
  | .i2f h _ _ _ => some h
  | .f2i h _ _ _ => some h
  | .hadd2 h _ _ => some h
  | .hmul2 h _ _ => some h
  | .hfma2 h _ _ => some h
  | .dp2 h _ _ => some h
  | .dp4 h _ _ _ => some h
  | .dp8 h _ _ _ => some h
  | .sclf h _ _ => some h
  | .pack h _ _ _ => some h
  | .unpk h _ => some h
  | .rsadd h _ => some h
  | .rssub h _ => some h
  | .rsmul h _ => some h
  | .rsdiv h _ => some h
  | .rsneg h => some h
  | .rsrcp h _ => some h
  | .rssqr h _ => some h
  | .rsfrom h _ _ => some h
  | .rslo h _ => some h
  | .rshi h _ => some h
  | .rsuni h => some h
  | .rsint h => some h
  | .rstest h _ => some h
  | .rspack h _ => some h
  | .rsunpk h => some h
  | .rsring h _ => some h
  | .bra h => some h
  | .brx h => some h
  | .call h _ => some h
  | .ret h => some h
  | .loop h => some h
  | .exit h => some h
  | .yieldI h => some h
  | .nop h => some h
  | .sleep h => some h
  | .bar h _ => some h
  | .bara h _ => some h
  | .launch h => some h
  | .cjoin h => some h
  | .rjen h _ => some h
  | .rjwait h _ => some h
  | .rjleave h _ => some h
  | .lxch h _ _ _ => some h
  | .vote h _ => some h
  | .segred h _ _ => some h
  | .scan h _ _ _ => some h
  | .matchL h _ => some h
  | .lead h => some h
  | .bcast h => some h
  | .ld h _ _ _ _ => some h
  | .st h _ _ _ => some h
  | .lds h _ => some h
  | .sts h _ => some h
  | .ldc h _ => some h
  | .ldf h _ => some h
  | .pref h _ => some h
  | .cinv h _ => some h
  | .smap h _ => some h
  | .swb h _ => some h
  | .sinv h _ _ => some h
  | .atom h _ _ _ _ => some h
  | .atomc h _ _ _ => some h
  | .red h _ _ _ _ => some h
  | .atomsc h _ _ => some h
  | .atoms h _ _ => some h
  | .fence h _ => some h
  | .waitc h _ _ => some h
  | .waitg h => some h
  | .armw h => some h
  | .arrv h => some h
  | .caps h _ => some h
  | .cld h => some h
  | .cst h => some h
  | .cend h => some h
  | .cadopt h => some h
  | .cqry h => some h
  | .mma h _ _ _ _ _ => some h
  | .mmai h _ _ _ _ _ => some h
  | .mmab h _ _ _ _ _ => some h
  | .mmas h _ _ _ _ _ _ => some h
  | .tmv h _ _ _ => some h
  | .mzero h _ _ => some h
  | .mopr h => some h
  | .mwait h _ => some h
  | .tcopy h _ _ _ _ => some h
  | .rcfence h _ => some h
  | .cpwait h => some h
  | .gath h _ _ _ => some h
  | .scat h _ _ _ => some h
  | .hset h _ => some h
  | .hnext h _ _ => some h
  | .hsave h _ => some h
  | .hload h _ => some h
  | .hstat h _ => some h
  | .hxst h => some h
  | .hxld h => some h
  | .hxclr h _ => some h
  | .hxrd h => some h
  | .hxwr h => some h
  | .hxcfg h => some h
  | .trapI h => some h
  | .xret h _ => some h
  | .mfs h => some h
  | .mts h => some h
  | .mfsT h _ => some h
  | .mtsT h _ => some h
  | .bkpt h => some h
  | .dbgmsg h => some h
  | .pmark h => some h
  | .pmrd h => some h
  | .clkrd h => some h
  | .ipref h => some h
  | .qntf h => some h
  | .tokrd h _ => some h
  | .movCompact _ _ _ => none
  | .iaddCompact _ _ _ => none
  | .isubCompact _ _ _ => none
  | .imulCompact _ _ _ => none
  | .imadCompact _ _ _ => none
  | .iminCompact _ _ _ => none
  | .imaxCompact _ _ _ => none
  | .andwCompact _ _ _ => none
  | .orwCompact _ _ _ => none
  | .xorwCompact _ _ _ => none
  | .andnCompact _ _ _ => none
  | .notwCompact _ _ _ => none
  | .shlCompact _ _ _ => none
  | .shrCompact _ _ _ => none
  | .sarCompact _ _ _ => none
  | .popcCompact _ _ _ => none
  | .clzCompact _ _ _ => none
  | .add64Compact _ _ _ => none
  | .leaCompact _ _ _ => none
  | .faddCompact _ _ _ => none
  | .fsubCompact _ _ _ => none
  | .fmulCompact _ _ _ => none
  | .ffmaCompact _ _ _ => none
  | .fminCompact _ _ _ => none
  | .fmaxCompact _ _ _ => none
  | .frcpCompact _ _ _ => none
  | .frsqCompact _ _ _ => none
  | .fsqrtCompact _ _ _ => none
  | .fex2Compact _ _ _ => none
  | .flg2Compact _ _ _ => none
  | .ftanhCompact _ _ _ => none
  | .hadd2Compact _ _ _ => none
  | .hmul2Compact _ _ _ => none
  | .hfma2Compact _ _ _ => none
  | .dp2Compact _ _ _ => none
  | .dp4S8Compact _ _ _ => none
  | .dp4E4m3Compact _ _ _ => none
  | .dp8S4Compact _ _ _ => none
  | .dp8E2m1Compact _ _ _ => none
  | .i2fCompact _ _ _ => none
  | .f2iCompact _ _ _ => none
  | .f2fCompact _ _ _ => none
  | .ldB32Compact _ _ _ => none
  | .ldB64Compact _ _ _ => none
  | .stB32Compact _ _ _ => none
  | .stB64Compact _ _ _ => none
  | .ldsCompact _ _ _ => none
  | .stsCompact _ _ _ => none
  | .ldcCompact _ _ _ => none
  | .atomCompact _ _ _ => none
  | .redCompact _ _ _ => none
  | .lxchFromCompact _ _ _ => none
  | .lxchFlipCompact _ _ _ => none
  | .lxchFwdCompact _ _ _ => none
  | .rsaddCompact _ _ _ => none
  | .rssubCompact _ _ _ => none
  | .rsmulCompact _ _ _ => none
  | .rsdivCompact _ _ _ => none
  | .rsuniCompact _ _ _ => none
  | .rsintCompact _ _ _ => none
  | .bfxCompact _ _ _ => none
  | .bfiCompact _ _ _ => none
  | .bselCompact _ _ _ => none
  | .cvtiCompact _ _ _ => none
  | .tick => none
  | .evict _ _ _ => none
  | .readL1 _ => none
  | .readHome _ => none
  | .recall _ => none
  | .writeHome _ => none
  | .rmwHome _ => none
  | .ticket _ => none
  | .sluiceOp _ => none
  | .grant _ => none
  | .enginePart _ _ => none
  | .loadReturn _ => none
  | .gwctReturn _ => none
  | .hostPathCompletion _ _ => none
  | .requestTimeout _ => none
  | .l2Evict _ => none
  | .lineStoreEvict _ => none
  | .stashLineFill _ _ _ => none
  | .stashEvict _ _ _ => none
  | .icacheFill _ _ _ => none
  | .bankOpDone _ _ => none
  | .ringBuildDone _ _ => none
  | .mxuOpComplete _ => none
  | .copyChunkDone _ => none
  | .gatherWindowDone _ => none
  | .engineOpComplete _ => none
  | .capsuleCommit _ => none
  | .capsRetryTimer _ => none
  | .sleepExpire _ => none
  | .deferEnd _ => none
  | .notify _ _ => none
  | .pendingMap _ => none
  | .recordConsume _ => none
  | .launchReady _ => none
  | .priorityAge _ => none
  | .blockPlacement _ => none
  | .continuationPlacement _ _ => none
  | .carveChange _ => none
  | .blockComplete _ => none
  | .blockRetire _ => none
  | .gridComplete _ => none
  | .faultRecordPost _ => none
  | .faultqConsWrite _ _ => none
  | .retiredTimerExpire _ _ => none
  | .engineAck _ _ _ => none
  | .frameWrite _ _ => none
  | .preemptDone _ => none
  | .preemptLate _ => none
  | .contextRestore _ _ => none
  | .preempt _ _ => none
  | .restore _ _ => none
  | .replay _ _ => none
  | .abort _ _ => none
  | .ptimer _ _ => none
  | .invVa _ _ => none
  | .invOwner _ _ => none
  | .invIpa _ _ => none
  | .invAll _ _ => none
  | .setFaultq _ _ => none
  | .setTables _ _ => none
  | .setSluiceOvf _ _ => none
  | .setRegion _ _ => none
  | .pageRec _ _ => none
  | .scrub _ _ => none
  | .keygen _ _ => none
  | .keyload _ _ => none
  | .keydrop _ _ => none
  | .attest _ _ => none
  | .idcert _ _ => none
  | .brineSet _ _ => none
  | .brineClose _ _ => none
  | .brineSend _ _ => none
  | .qresume _ _ => none
  | .partCreate _ _ => none
  | .partDestroy _ _ => none
  | .coreAssign _ _ => none
  | .memAssign _ _ => none
  | .linkKey _ _ => none
  | .sublinkAssign _ _ => none
  | .powerWeight _ _ => none
  | .reset _ _ => none
  | .regionAssign _ _ => none
  | .powerOnReset => none
  | .brineProdWrite _ _ _ => none
  | .brineSlotFinish _ _ => none
  | .brineDesyncClear _ _ => none
  | .powerIntervalStart => none
  | .powerMidpoint => none
  | .energyAccrue _ => none
  | .memoryError _ => none
  | .attach _ _ => none
  | .detach _ => none
  | .stop _ _ => none
  | .resume _ _ => none
  | .step _ _ => none
  | .stepOne _ _ => none
  | .stepWait _ _ => none
  | .trapstep _ _ => none
  | .mailboxPost _ => none
  | .stallSample _ => none
  | .sampleDrain _ => none
  | .hostWrite _ _ => none
  | .pritchRemoteRequest _ _ _ _ => none
  | .sublinkTrain _ _ => none

/-- The opcode of a word form (R85). -/
def Instr.opc : Instr → Nat
  | .mov _ _ => 0x000
  | .movi _ _ => 0x001
  | .sel _ _ _ => 0x002
  | .iadd _ _ _ => 0x003
  | .isub _ _ _ => 0x004
  | .iadc _ _ _ => 0x005
  | .imul _ _ _ _ => 0x006
  | .imulh _ _ => 0x007
  | .imad _ _ _ _ => 0x008
  | .imin _ _ => 0x009
  | .imax _ _ => 0x00A
  | .iabs _ _ => 0x00B
  | .ineg _ _ => 0x00C
  | .andw _ => 0x00D
  | .orw _ => 0x00E
  | .xorw _ => 0x00F
  | .andn _ => 0x010
  | .notw _ => 0x011
  | .shl _ => 0x012
  | .shr _ => 0x013
  | .sar _ => 0x014
  | .rotl _ => 0x015
  | .bfx _ _ => 0x016
  | .bfi _ => 0x017
  | .popc _ => 0x018
  | .clz _ => 0x019
  | .ctz _ => 0x01A
  | .brev _ => 0x01B
  | .icmp _ _ _ => 0x01C
  | .plop _ _ => 0x01D
  | .lea _ _ _ => 0x01E
  | .add64 _ _ => 0x01F
  | .cmp64 _ _ _ => 0x020
  | .cvti _ _ _ _ => 0x021
  | .bsel _ => 0x022
  | .fadd _ _ => 0x080
  | .fsub _ _ => 0x081
  | .fmul _ _ => 0x082
  | .ffma _ _ => 0x083
  | .fmin _ => 0x084
  | .fmax _ => 0x085
  | .fcmp _ _ => 0x086
  | .fclass _ _ => 0x087
  | .frnd _ _ => 0x088
  | .frcp _ _ => 0x089
  | .frsq _ _ => 0x08A
  | .fsqrt _ _ => 0x08B
  | .fex2 _ _ => 0x08C
  | .flg2 _ _ => 0x08D
  | .fsin _ _ => 0x08E
  | .fcos _ _ => 0x08F
  | .ftanh _ _ => 0x090
  | .f2f _ _ _ _ => 0x091
  | .i2f _ _ _ _ => 0x092
  | .f2i _ _ _ _ => 0x093
  | .hadd2 _ _ _ => 0x094
  | .hmul2 _ _ _ => 0x095
  | .hfma2 _ _ _ => 0x096
  | .dp2 _ _ _ => 0x097
  | .dp4 _ _ _ _ => 0x098
  | .dp8 _ _ _ _ => 0x099
  | .sclf _ _ _ => 0x09A
  | .pack _ _ _ _ => 0x09B
  | .unpk _ _ => 0x09C
  | .rsadd _ _ => 0x100
  | .rssub _ _ => 0x101
  | .rsmul _ _ => 0x102
  | .rsdiv _ _ => 0x103
  | .rsneg _ => 0x104
  | .rsrcp _ _ => 0x105
  | .rssqr _ _ => 0x106
  | .rsfrom _ _ _ => 0x107
  | .rslo _ _ => 0x108
  | .rshi _ _ => 0x109
  | .rsuni _ => 0x10A
  | .rsint _ => 0x10B
  | .rstest _ _ => 0x10C
  | .rspack _ _ => 0x10D
  | .rsunpk _ => 0x10E
  | .rsring _ _ => 0x10F
  | .bra _ => 0x140
  | .brx _ => 0x141
  | .call _ _ => 0x142
  | .ret _ => 0x143
  | .loop _ => 0x144
  | .exit _ => 0x145
  | .yieldI _ => 0x146
  | .nop _ => 0x147
  | .sleep _ => 0x148
  | .bar _ _ => 0x149
  | .bara _ _ => 0x14A
  | .launch _ => 0x14B
  | .cjoin _ => 0x14C
  | .rjen _ _ => 0x14D
  | .rjwait _ _ => 0x14E
  | .rjleave _ _ => 0x14F
  | .lxch _ _ _ _ => 0x150
  | .vote _ _ => 0x151
  | .segred _ _ _ => 0x152
  | .scan _ _ _ _ => 0x153
  | .matchL _ _ => 0x154
  | .lead _ => 0x155
  | .bcast _ => 0x156
  | .ld _ _ _ _ _ => 0x180
  | .st _ _ _ _ => 0x181
  | .lds _ _ => 0x182
  | .sts _ _ => 0x183
  | .ldc _ _ => 0x184
  | .ldf _ _ => 0x185
  | .pref _ _ => 0x186
  | .cinv _ _ => 0x187
  | .smap _ _ => 0x188
  | .swb _ _ => 0x189
  | .sinv _ _ _ => 0x18A
  | .atom _ _ _ _ _ => 0x18B
  | .atomc _ _ _ _ => 0x18C
  | .red _ _ _ _ _ => 0x18D
  | .atomsc _ _ _ => 0x18E
  | .atoms _ _ _ => 0x18F
  | .fence _ _ => 0x200
  | .waitc _ _ _ => 0x201
  | .waitg _ => 0x202
  | .armw _ => 0x203
  | .arrv _ => 0x204
  | .caps _ _ => 0x205
  | .cld _ => 0x206
  | .cst _ => 0x207
  | .cend _ => 0x208
  | .cadopt _ => 0x209
  | .cqry _ => 0x20A
  | .mma _ _ _ _ _ _ => 0x240
  | .mmai _ _ _ _ _ _ => 0x241
  | .mmab _ _ _ _ _ _ => 0x242
  | .mmas _ _ _ _ _ _ _ => 0x243
  | .tmv _ _ _ _ => 0x244
  | .mzero _ _ _ => 0x245
  | .mopr _ => 0x246
  | .mwait _ _ => 0x247
  | .tcopy _ _ _ _ _ => 0x280
  | .rcfence _ _ => 0x281
  | .cpwait _ => 0x282
  | .gath _ _ _ _ => 0x283
  | .scat _ _ _ _ => 0x284
  | .hset _ _ => 0x285
  | .hnext _ _ _ => 0x286
  | .hsave _ _ => 0x287
  | .hload _ _ => 0x288
  | .hstat _ _ => 0x289
  | .hxst _ => 0x2C0
  | .hxld _ => 0x2C1
  | .hxclr _ _ => 0x2C2
  | .hxrd _ => 0x2C3
  | .hxwr _ => 0x2C4
  | .hxcfg _ => 0x2C5
  | .trapI _ => 0x2C6
  | .xret _ _ => 0x2C7
  | .mfs _ => 0x2C8
  | .mts _ => 0x2C9
  | .mfsT _ _ => 0x2C8
  | .mtsT _ _ => 0x2C9
  | .bkpt _ => 0x2CA
  | .dbgmsg _ => 0x2CB
  | .pmark _ => 0x2CC
  | .pmrd _ => 0x2CD
  | .clkrd _ => 0x2CE
  | .ipref _ => 0x2CF
  | .qntf _ => 0x2D0
  | .tokrd _ _ => 0x2D1
  | _ => 0

/-- The modifier fields of a word form, at their places in the modifier region (R69). -/
def Instr.mods : Instr → Nat
  | .mov _ w64 => b2n w64
  | .movi _ w64 => b2n w64
  | .sel _ sp sn => sp.toNat + 2 ^ 3 * b2n sn
  | .iadd _ u sat => b2n u + 2 ^ 1 * b2n sat
  | .isub _ u sat => b2n u + 2 ^ 1 * b2n sat
  | .iadc _ cp sub => cp.toNat + 2 ^ 3 * b2n sub
  | .imul _ u sat wide => b2n u + 2 ^ 1 * b2n sat + 2 ^ 2 * b2n wide
  | .imulh _ u => b2n u
  | .imad _ u sat wide => b2n u + 2 ^ 1 * b2n sat + 2 ^ 2 * b2n wide
  | .imin _ u => b2n u
  | .imax _ u => b2n u
  | .iabs _ sat => 2 ^ 1 * b2n sat
  | .ineg _ sat => 2 ^ 1 * b2n sat
  | .andw _ => 0
  | .orw _ => 0
  | .xorw _ => 0
  | .andn _ => 0
  | .notw _ => 0
  | .shl _ => 0
  | .shr _ => 0
  | .sar _ => 0
  | .rotl _ => 0
  | .bfx _ sx => b2n sx
  | .bfi _ => 0
  | .popc _ => 0
  | .clz _ => 0
  | .ctz _ => 0
  | .brev _ => 0
  | .icmp _ cond u => cond.toNat + 2 ^ 3 * b2n u
  | .plop _ lut => lut.toNat
  | .lea _ sc u => sc.toNat + 2 ^ 3 * b2n u
  | .add64 _ neg => b2n neg
  | .cmp64 _ cond u => cond.toNat + 2 ^ 3 * b2n u
  | .cvti _ sty dty sat => sty.toNat + 2 ^ 3 * dty.toNat + 2 ^ 6 * b2n sat
  | .bsel _ => 0
  | .fadd _ rnd => rnd.toNat
  | .fsub _ rnd => rnd.toNat
  | .fmul _ rnd => rnd.toNat
  | .ffma _ rnd => rnd.toNat
  | .fmin _ => 0
  | .fmax _ => 0
  | .fcmp _ cond => cond.toNat
  | .fclass _ fmt => fmt.toNat
  | .frnd _ rnd => rnd.toNat
  | .frcp _ rnd => rnd.toNat
  | .frsq _ rnd => rnd.toNat
  | .fsqrt _ rnd => rnd.toNat
  | .fex2 _ rnd => rnd.toNat
  | .flg2 _ rnd => rnd.toNat
  | .fsin _ rnd => rnd.toNat
  | .fcos _ rnd => rnd.toNat
  | .ftanh _ rnd => rnd.toNat
  | .f2f _ rnd dty sty => rnd.toNat + 2 ^ 3 * dty.toNat + 2 ^ 6 * sty.toNat
  | .i2f _ rnd sty dty => rnd.toNat + 2 ^ 3 * sty.toNat + 2 ^ 6 * dty.toNat
  | .f2i _ rnd dty sty => rnd.toNat + 2 ^ 3 * dty.toNat + 2 ^ 6 * sty.toNat
  | .hadd2 _ rnd bf => rnd.toNat + 2 ^ 3 * b2n bf
  | .hmul2 _ rnd bf => rnd.toNat + 2 ^ 3 * b2n bf
  | .hfma2 _ rnd bf => rnd.toNat + 2 ^ 3 * b2n bf
  | .dp2 _ rnd hf => rnd.toNat + 2 ^ 3 * b2n hf
  | .dp4 _ ty sat rnd => ty.toNat + 2 ^ 3 * b2n sat + 2 ^ 4 * rnd.toNat
  | .dp8 _ ty sat rnd => ty.toNat + 2 ^ 3 * b2n sat + 2 ^ 4 * rnd.toNat
  | .sclf _ rnd one => rnd.toNat + 2 ^ 3 * b2n one
  | .pack _ fmt pos rnd => fmt.toNat + 2 ^ 3 * pos.toNat + 2 ^ 5 * rnd.toNat
  | .unpk _ fmt => fmt.toNat
  | .rsadd _ rs => rs.toNat
  | .rssub _ rs => rs.toNat
  | .rsmul _ rs => rs.toNat
  | .rsdiv _ rs => rs.toNat
  | .rsneg _ => 0
  | .rsrcp _ rs => rs.toNat
  | .rssqr _ rs => rs.toNat
  | .rsfrom _ rs iv => rs.toNat + 2 ^ 2 * b2n iv
  | .rslo _ rs => rs.toNat
  | .rshi _ rs => rs.toNat
  | .rsuni _ => 0
  | .rsint _ => 0
  | .rstest _ mode => mode.toNat
  | .rspack _ pw => pw.toNat
  | .rsunpk _ => 0
  | .rsring _ rs => rs.toNat
  | .bra _ => 0
  | .brx _ => 0
  | .call _ ind => b2n ind
  | .ret _ => 0
  | .loop _ => 0
  | .exit _ => 0
  | .yieldI _ => 0
  | .nop _ => 0
  | .sleep _ => 0
  | .bar _ id => id.toNat
  | .bara _ id => id.toNat
  | .launch _ => 0
  | .cjoin _ => 0
  | .rjen _ j => j.toNat
  | .rjwait _ j => j.toNat
  | .rjleave _ j => j.toNat
  | .lxch _ mode seg vp => mode.toNat + 2 ^ 2 * seg.toNat + 2 ^ 4 * vp.toNat
  | .vote _ mode => mode.toNat
  | .segred _ op ty => op.toNat + 2 ^ 3 * ty.toNat
  | .scan _ op ty excl => op.toNat + 2 ^ 3 * ty.toNat + 2 ^ 5 * b2n excl
  | .matchL _ w64 => b2n w64
  | .lead _ => 0
  | .bcast _ => 0
  | .ld _ sz acq sc nl => sz.toNat + 2 ^ 3 * b2n acq + 2 ^ 4 * sc.toNat + 2 ^ 7 * b2n nl
  | .st _ sz rel sc => sz.toNat + 2 ^ 3 * b2n rel + 2 ^ 4 * sc.toNat
  | .lds _ sz => sz.toNat
  | .sts _ sz => sz.toNat
  | .ldc _ sz => sz.toNat
  | .ldf _ w16 => b2n w16
  | .pref _ l2 => b2n l2
  | .cinv _ op => op.toNat
  | .smap _ w => w.toNat
  | .swb _ w => w.toNat
  | .sinv _ w wb => w.toNat + 2 ^ 3 * b2n wb
  | .atom _ op ty ord sc => op.toNat + 2 ^ 4 * ty.toNat + 2 ^ 6 * ord.toNat + 2 ^ 8 * sc.toNat
  | .atomc _ w64 ord sc => b2n w64 + 2 ^ 1 * ord.toNat + 2 ^ 3 * sc.toNat
  | .red _ op ty rel sc => op.toNat + 2 ^ 4 * ty.toNat + 2 ^ 6 * b2n rel + 2 ^ 7 * sc.toNat
  | .atomsc _ op ty => op.toNat + 2 ^ 4 * ty.toNat
  | .atoms _ op ty => op.toNat + 2 ^ 4 * ty.toNat
  | .fence _ sc => sc.toNat
  | .waitc _ live cnd => live.toNat + 2 ^ 5 * cnd.toNat
  | .waitg _ => 0
  | .armw _ => 0
  | .arrv _ => 0
  | .caps _ ns => ns.toNat
  | .cld _ => 0
  | .cst _ => 0
  | .cend _ => 0
  | .cadopt _ => 0
  | .cqry _ => 0
  | .mma _ ty asp pm str rnd => ty.toNat + 2 ^ 3 * b2n asp + 2 ^ 4 * b2n pm + 2 ^ 5 * str.toNat + 2 ^ 7 * rnd.toNat
  | .mmai _ ty asp pm str sat => ty.toNat + 2 ^ 3 * b2n asp + 2 ^ 4 * b2n pm + 2 ^ 5 * str.toNat + 2 ^ 7 * b2n sat
  | .mmab _ ty asp pm str rnd => ty.toNat + 2 ^ 3 * b2n asp + 2 ^ 4 * b2n pm + 2 ^ 5 * str.toNat + 2 ^ 7 * rnd.toNat
  | .mmas _ ty asp pm str rnd sat => ty.toNat + 2 ^ 3 * b2n asp + 2 ^ 4 * b2n pm + 2 ^ 5 * str.toNat + 2 ^ 7 * rnd.toNat + 2 ^ 10 * b2n sat
  | .tmv _ m1 n1 bf => m1.toNat + 2 ^ 3 * n1.toNat + 2 ^ 6 * b2n bf
  | .mzero _ pm str => 2 ^ 4 * b2n pm + 2 ^ 5 * str.toNat
  | .mopr _ => 0
  | .mwait _ smask => smask.toNat
  | .tcopy _ dir sf sr arv => b2n dir + 2 ^ 1 * sf.toNat + 2 ^ 4 * b2n sr + 2 ^ 5 * b2n arv
  | .rcfence _ all => b2n all
  | .cpwait _ => 0
  | .gath _ sz u arv => sz.toNat + 2 ^ 2 * b2n u + 2 ^ 3 * b2n arv
  | .scat _ sz u arv => sz.toNat + 2 ^ 2 * b2n u + 2 ^ 3 * b2n arv
  | .hset _ hc => hc.toNat
  | .hnext _ hc pv => hc.toNat + 2 ^ 2 * pv.toNat
  | .hsave _ hc => hc.toNat
  | .hload _ hc => hc.toNat
  | .hstat _ hc => hc.toNat
  | .hxst _ => 0
  | .hxld _ => 0
  | .hxclr _ tbl => tbl.toNat
  | .hxrd _ => 0
  | .hxwr _ => 0
  | .hxcfg _ => 0
  | .trapI _ => 0
  | .xret _ skip => b2n skip
  | .mfs _ => 0
  | .mts _ => 0
  | .mfsT _ pv => 1 + 2 ^ 1 * pv.toNat
  | .mtsT _ pv => 1 + 2 ^ 1 * pv.toNat
  | .bkpt _ => 0
  | .dbgmsg _ => 0
  | .pmark _ => 0
  | .pmrd _ => 0
  | .clkrd _ => 0
  | .ipref _ => 0
  | .qntf _ => 0
  | .tokrd _ fig => fig.toNat
  | _ => 0

/-- Whether B may or must be the immediate (R92). -/
def Instr.immPolicy : Instr → ImmPolicy
  | .mov _ _ => .no
  | .movi _ _ => .req
  | .sel _ _ _ => .yes
  | .iadd _ _ _ => .yes
  | .isub _ _ _ => .yes
  | .iadc _ _ _ => .yes
  | .imul _ _ _ _ => .yes
  | .imulh _ _ => .yes
  | .imad _ _ _ _ => .yes
  | .imin _ _ => .yes
  | .imax _ _ => .yes
  | .iabs _ _ => .no
  | .ineg _ _ => .no
  | .andw _ => .yes
  | .orw _ => .yes
  | .xorw _ => .yes
  | .andn _ => .yes
  | .notw _ => .no
  | .shl _ => .yes
  | .shr _ => .yes
  | .sar _ => .yes
  | .rotl _ => .yes
  | .bfx _ _ => .yes
  | .bfi _ => .yes
  | .popc _ => .no
  | .clz _ => .no
  | .ctz _ => .no
  | .brev _ => .no
  | .icmp _ _ _ => .yes
  | .plop _ _ => .no
  | .lea _ _ _ => .yes
  | .add64 _ _ => .yes
  | .cmp64 _ _ _ => .yes
  | .cvti _ _ _ _ => .no
  | .bsel _ => .yes
  | .fadd _ _ => .yes
  | .fsub _ _ => .yes
  | .fmul _ _ => .yes
  | .ffma _ _ => .yes
  | .fmin _ => .yes
  | .fmax _ => .yes
  | .fcmp _ _ => .yes
  | .fclass _ _ => .no
  | .frnd _ _ => .no
  | .frcp _ _ => .no
  | .frsq _ _ => .no
  | .fsqrt _ _ => .no
  | .fex2 _ _ => .no
  | .flg2 _ _ => .no
  | .fsin _ _ => .no
  | .fcos _ _ => .no
  | .ftanh _ _ => .no
  | .f2f _ _ _ _ => .no
  | .i2f _ _ _ _ => .no
  | .f2i _ _ _ _ => .no
  | .hadd2 _ _ _ => .yes
  | .hmul2 _ _ _ => .yes
  | .hfma2 _ _ _ => .yes
  | .dp2 _ _ _ => .yes
  | .dp4 _ _ _ _ => .yes
  | .dp8 _ _ _ _ => .yes
  | .sclf _ _ _ => .yes
  | .pack _ _ _ _ => .no
  | .unpk _ _ => .yes
  | .rsadd _ _ => .yes
  | .rssub _ _ => .yes
  | .rsmul _ _ => .yes
  | .rsdiv _ _ => .yes
  | .rsneg _ => .no
  | .rsrcp _ _ => .no
  | .rssqr _ _ => .no
  | .rsfrom _ _ iv => if iv then .yes else .no
  | .rslo _ _ => .no
  | .rshi _ _ => .no
  | .rsuni _ => .yes
  | .rsint _ => .yes
  | .rstest _ _ => .yes
  | .rspack _ _ => .no
  | .rsunpk _ => .no
  | .rsring _ _ => .no
  | .bra _ => .req
  | .brx _ => .no
  | .call _ ind => if ind then .no else .req
  | .ret _ => .no
  | .loop _ => .req
  | .exit _ => .no
  | .yieldI _ => .no
  | .nop _ => .no
  | .sleep _ => .yes
  | .bar _ _ => .yes
  | .bara _ _ => .yes
  | .launch _ => .no
  | .cjoin _ => .no
  | .rjen _ _ => .no
  | .rjwait _ _ => .no
  | .rjleave _ _ => .no
  | .lxch _ _ _ _ => .yes
  | .vote _ _ => .no
  | .segred _ _ _ => .yes
  | .scan _ _ _ _ => .yes
  | .matchL _ _ => .no
  | .lead _ => .no
  | .bcast _ => .yes
  | .ld _ _ _ _ _ => .yes
  | .st _ _ _ _ => .yes
  | .lds _ _ => .yes
  | .sts _ _ => .yes
  | .ldc _ _ => .yes
  | .ldf _ _ => .yes
  | .pref _ _ => .yes
  | .cinv _ op => if op.toNat % 2 = 0 then .yes else .no
  | .smap _ _ => .yes
  | .swb _ _ => .no
  | .sinv _ _ _ => .no
  | .atom _ _ _ _ _ => .yes
  | .atomc _ _ _ _ => .yes
  | .red _ _ _ _ _ => .yes
  | .atomsc _ _ _ => .yes
  | .atoms _ _ _ => .yes
  | .fence _ _ => .no
  | .waitc _ _ _ => .req
  | .waitg _ => .yes
  | .armw _ => .yes
  | .arrv _ => .yes
  | .caps _ _ => .no
  | .cld _ => .yes
  | .cst _ => .yes
  | .cend _ => .no
  | .cadopt _ => .req
  | .cqry _ => .no
  | .mma _ _ _ _ _ _ => .no
  | .mmai _ _ _ _ _ _ => .no
  | .mmab _ _ _ _ _ _ => .no
  | .mmas _ _ _ _ _ _ _ => .no
  | .tmv _ _ _ _ => .yes
  | .mzero _ _ _ => .no
  | .mopr _ => .no
  | .mwait _ _ => .no
  | .tcopy _ _ _ _ _ => .no
  | .rcfence _ _ => .no
  | .cpwait _ => .yes
  | .gath _ _ _ _ => .no
  | .scat _ _ _ _ => .no
  | .hset _ _ => .no
  | .hnext _ _ _ => .no
  | .hsave _ _ => .no
  | .hload _ _ => .no
  | .hstat _ _ => .no
  | .hxst _ => .no
  | .hxld _ => .no
  | .hxclr _ _ => .no
  | .hxrd _ => .yes
  | .hxwr _ => .yes
  | .hxcfg _ => .yes
  | .trapI _ => .yes
  | .xret _ _ => .no
  | .mfs _ => .no
  | .mts _ => .yes
  | .mfsT _ _ => .yes
  | .mtsT _ _ => .yes
  | .bkpt _ => .yes
  | .dbgmsg _ => .yes
  | .pmark _ => .yes
  | .pmrd _ => .yes
  | .clkrd _ => .no
  | .ipref _ => .yes
  | .qntf _ => .yes
  | .tokrd _ _ => .no
  | _ => .no

/-- The field values that the entries mark reserved, or combinations they rule out. -/
def Instr.badFields : Instr → Bool
  | .caps h _ => h.gp != 7 || h.gn
  | .cend h => h.gp != 7 || h.gn
  | .icmp _ cond _ => (cond.toNat > 5)
  | .cmp64 _ cond _ => (cond.toNat > 5)
  | .cvti _ sty dty _ => (sty.toNat > 5 || dty.toNat > 5)
  | .fadd _ rnd => (rnd.toNat > 5)
  | .fsub _ rnd => (rnd.toNat > 5)
  | .fmul _ rnd => (rnd.toNat > 5)
  | .ffma _ rnd => (rnd.toNat > 5)
  | .fclass _ fmt => (fmt.toNat > 5)
  | .frnd _ rnd => (rnd.toNat > 5)
  | .frcp _ rnd => (rnd.toNat > 5)
  | .frsq _ rnd => (rnd.toNat > 5)
  | .fsqrt _ rnd => (rnd.toNat > 5)
  | .fex2 _ rnd => (rnd.toNat > 5)
  | .flg2 _ rnd => (rnd.toNat > 5)
  | .fsin _ rnd => (rnd.toNat > 5)
  | .fcos _ rnd => (rnd.toNat > 5)
  | .ftanh _ rnd => (rnd.toNat > 5)
  | .f2f _ rnd dty sty => (rnd.toNat > 5 || dty.toNat > 5 || sty.toNat > 5)
  | .i2f _ rnd sty dty => (rnd.toNat > 5 || sty.toNat > 5 || dty.toNat > 2)
  | .f2i _ rnd dty sty => (rnd.toNat > 5 || dty.toNat > 5 || sty.toNat > 2)
  | .hadd2 _ rnd _ => (rnd.toNat > 5)
  | .hmul2 _ rnd _ => (rnd.toNat > 5)
  | .hfma2 _ rnd _ => (rnd.toNat > 5)
  | .dp2 _ rnd _ => (rnd.toNat > 5)
  | .dp4 _ ty sat rnd => (ty.toNat > 3 || rnd.toNat > 5) || ((ty.toNat ≥ 2 && sat) || (ty.toNat < 2 && rnd ≠ 0))
  | .dp8 _ ty sat rnd => (ty.toNat > 2 || rnd.toNat > 5) || ((ty.toNat = 2 && sat) || (ty.toNat < 2 && rnd ≠ 0))
  | .sclf _ rnd _ => (rnd.toNat > 5)
  | .pack _ fmt pos rnd => (fmt = 0 || rnd.toNat > 5) || ((fmt.toNat ≥ 6 && rnd ≠ 0) || pos.toNat > packLast fmt)
  | .unpk _ fmt => (fmt = 0)
  | .segred _ op ty => (op.toNat > 5 || ty = 3) || (op.toNat ≥ 3 && ty ≠ 0)
  | .scan _ op ty _ => (op.toNat > 5 || ty = 3) || (op.toNat ≥ 3 && ty ≠ 0)
  | .ld _ sz acq sc _ => (sz = 7 || sc.toNat > 4) || (!acq && sc ≠ 0)
  | .st _ sz rel sc => (sz = 4 || sz.toNat > 5 || sc.toNat > 4) || (!rel && sc ≠ 0)
  | .lds _ sz => (sz = 7)
  | .sts _ sz => (sz = 4 || sz.toNat > 5)
  | .ldc _ sz => (sz = 3)
  | .atom _ op ty ord sc => (sc.toNat > 4) || (!atomOpOk op ty || (ord = 0 && sc ≠ 0))
  | .atomc _ _ ord sc => (sc.toNat > 4) || (ord = 0 && sc ≠ 0)
  | .red _ op ty rel sc => (sc.toNat > 4) || (op.toNat > 5 || !atomOpOk op ty || (!rel && sc ≠ 0))
  | .atomsc _ op ty => (!atomOpOkCas op ty)
  | .atoms _ op ty => (!atomOpOkCas op ty)
  | .fence _ sc => (sc.toNat > 4)
  | .waitc _ live cnd => (cnd = 3) || (live.toNat > 28)
  | .mma _ ty _ _ _ rnd => (ty.toNat > 4 || rnd.toNat > 5)
  | .mmai _ ty _ _ _ _ => (ty.toNat > 3)
  | .mmab _ ty _ _ _ rnd => (ty.toNat > 1 || rnd.toNat > 5)
  | .mmas _ ty _ _ _ rnd sat => (ty = 7 || rnd.toNat > 5) || ((ty.toNat ≥ 5 && rnd ≠ 0) || (ty.toNat < 5 && sat))
  | .tcopy _ _ sf _ _ => (sf = 7)
  | _ => false

end Sys2Proof
end

