-- ==== Sys2Proof/WellFormed.lean ====
section
/-! DEFINITION. Well-formed instructions: those that some unit of the code stream encodes (R69, R73, R77, R78). -/

namespace Sys2Proof

/-- A compact operand byte that expands (R78): 0 to 231. -/
def compactByteOk (b : Byte) : Bool := b.toNat < 232

/-- The header rules of a word form: a medium unit carries no immediate and no modifier bit above bit 5 (R80), an
immediate leaves modifier bits 6 to 0 (R69), HINT[0] is 0 (R73). -/
def Hdr.wf (h : Hdr) (pol : ImmPolicy) (mods : Nat) : Bool :=
  h.len ≠ .compact
    && (h.len ≠ .medium || (h.imm.isNone && mods < 64))
    && (h.imm.isNone || mods < 128)
    && !h.hint.getLsbD 0
    && !pol.bad h.imm

/-- Which of the three operand bytes of a compact form are used (R79), as the bytes that must expand. -/
def Instr.compactBytes : Instr → List Byte
  | .movCompact d a _ => [d, a]
  | .iaddCompact d a b => [d, a, b]
  | .isubCompact d a b => [d, a, b]
  | .imulCompact d a b => [d, a, b]
  | .imadCompact d a b => [d, a, b]
  | .iminCompact d a b => [d, a, b]
  | .imaxCompact d a b => [d, a, b]
  | .andwCompact d a b => [d, a, b]
  | .orwCompact d a b => [d, a, b]
  | .xorwCompact d a b => [d, a, b]
  | .andnCompact d a b => [d, a, b]
  | .notwCompact d a _ => [d, a]
  | .shlCompact d a b => [d, a, b]
  | .shrCompact d a b => [d, a, b]
  | .sarCompact d a b => [d, a, b]
  | .popcCompact d a _ => [d, a]
  | .clzCompact d a _ => [d, a]
  | .add64Compact d a b => [d, a, b]
  | .leaCompact d a b => [d, a, b]
  | .faddCompact d a b => [d, a, b]
  | .fsubCompact d a b => [d, a, b]
  | .fmulCompact d a b => [d, a, b]
  | .ffmaCompact d a b => [d, a, b]
  | .fminCompact d a b => [d, a, b]
  | .fmaxCompact d a b => [d, a, b]
  | .frcpCompact d a _ => [d, a]
  | .frsqCompact d a _ => [d, a]
  | .fsqrtCompact d a _ => [d, a]
  | .fex2Compact d a _ => [d, a]
  | .flg2Compact d a _ => [d, a]
  | .ftanhCompact d a _ => [d, a]
  | .hadd2Compact d a b => [d, a, b]
  | .hmul2Compact d a b => [d, a, b]
  | .hfma2Compact d a b => [d, a, b]
  | .dp2Compact d a b => [d, a, b]
  | .dp4S8Compact d a b => [d, a, b]
  | .dp4E4m3Compact d a b => [d, a, b]
  | .dp8S4Compact d a b => [d, a, b]
  | .dp8E2m1Compact d a b => [d, a, b]
  | .i2fCompact d a _ => [d, a]
  | .f2iCompact d a _ => [d, a]
  | .f2fCompact d a _ => [d, a]
  | .ldB32Compact d a _ => [d, a]
  | .ldB64Compact d a _ => [d, a]
  | .stB32Compact d a _ => [d, a]
  | .stB64Compact d a _ => [d, a]
  | .ldsCompact d a _ => [d, a]
  | .stsCompact d a _ => [d, a]
  | .ldcCompact d a _ => [d, a]
  | .atomCompact d a b => [d, a, b]
  | .redCompact _ a b => [a, b]
  | .lxchFromCompact d a b => [d, a, b]
  | .lxchFlipCompact d a b => [d, a, b]
  | .lxchFwdCompact d a b => [d, a, b]
  | .rsaddCompact d a b => [d, a, b]
  | .rssubCompact d a b => [d, a, b]
  | .rsmulCompact d a b => [d, a, b]
  | .rsdivCompact d a b => [d, a, b]
  | .rsuniCompact d a b => [d, a, b]
  | .rsintCompact d a b => [d, a, b]
  | .bfxCompact d a b => [d, a, b]
  | .bfiCompact d a b => [d, a, b]
  | .bselCompact d a b => [d, a, b]
  | .cvtiCompact d a _ => [d, a]
  | _ => []

/-- The check of a whole instruction. A step of the machine carries no encoding and is always well-formed. -/
def Instr.wf (i : Instr) : Bool :=
  (match i.hdr? with
   | some h => h.wf i.immPolicy i.mods && !i.badFields
   | none => true)
    && i.compactBytes.all compactByteOk

end Sys2Proof
end

