-- ==== Sys2Proof/Decode.lean ====
section
/-! DEFINITION. The decoder, total on any bytes, and the encoder written from the same tables.
A unit that does not decode is rejected by name: a fill fault by its kind (R83), an illegal word by the WHY that the
ILLOP trap reports (R222). -/

namespace Sys2Proof

/-- What the bytes at a PC hold. -/
inductive Decoded where
  /-- An instruction and the length of its unit in bytes. -/
  | instr (i : Instr) (len : Nat)
  /-- A word that traps ILLOP: its WHY and opcode (R222), its unit's length and its privileged-form question open. -/
  | illop (why opc len : Nat)
  /-- A unit that the cache cannot expand: its kind (R83) and its length, 0 where it has none. -/
  | fill (kind len : Nat)
deriving DecidableEq, Repr

/-- One entry of an encoding table: the immediate rule, then the modifier bits it defines (R69: WHY 3), then the
field values it rules out (WHY 5 or 6). -/
def form (pol : ImmPolicy) (mask : Nat) (bad : Option Nat) (h : Hdr) (m : Nat) (i : Instr) : Except Nat Instr :=
  if pol.bad h.imm then .error 3
  else if m ||| mask ≠ mask then .error 3
  else match bad with
    | some w => .error w
    | none => .ok i

/-- WHY 5 or 6 where the first or the second condition holds (R222). -/
def why56 (c5 c6 : Bool) : Option Nat := if c5 then some 5 else if c6 then some 6 else none

/-- The opcodes of the class at 0x000 (R93). -/
def decodeInt (opc : Nat) (h : Hdr) (m : Nat) : Except Nat Instr :=
  match opc with
  | 0x000 => form .no 0x1 none h m (.mov h (bit m 0))
  | 0x001 => form .req 0x1 none h m (.movi h (bit m 0))
  | 0x002 => form .yes 0xF none h m (.sel h (bits 3 m 0) (bit m 3))
  | 0x003 => form .yes 0x3 none h m (.iadd h (bit m 0) (bit m 1))
  | 0x004 => form .yes 0x3 none h m (.isub h (bit m 0) (bit m 1))
  | 0x005 => form .yes 0xF none h m (.iadc h (bits 3 m 0) (bit m 3))
  | 0x006 => form .yes 0x7 none h m (.imul h (bit m 0) (bit m 1) (bit m 2))
  | 0x007 => form .yes 0x1 none h m (.imulh h (bit m 0))
  | 0x008 => form .yes 0x7 none h m (.imad h (bit m 0) (bit m 1) (bit m 2))
  | 0x009 => form .yes 0x1 none h m (.imin h (bit m 0))
  | 0x00A => form .yes 0x1 none h m (.imax h (bit m 0))
  | 0x00B => form .no 0x3 (why56 (bit m 0) (false)) h m (.iabs h (bit m 1))
  | 0x00C => form .no 0x3 (why56 (bit m 0) (false)) h m (.ineg h (bit m 1))
  | 0x00D => form .yes 0x0 none h m (.andw h)
  | 0x00E => form .yes 0x0 none h m (.orw h)
  | 0x00F => form .yes 0x0 none h m (.xorw h)
  | 0x010 => form .yes 0x0 none h m (.andn h)
  | 0x011 => form .no 0x0 none h m (.notw h)
  | 0x012 => form .yes 0x0 none h m (.shl h)
  | 0x013 => form .yes 0x0 none h m (.shr h)
  | 0x014 => form .yes 0x0 none h m (.sar h)
  | 0x015 => form .yes 0x0 none h m (.rotl h)
  | 0x016 => form .yes 0x1 none h m (.bfx h (bit m 0))
  | 0x017 => form .yes 0x0 none h m (.bfi h)
  | 0x018 => form .no 0x0 none h m (.popc h)
  | 0x019 => form .no 0x0 none h m (.clz h)
  | 0x01A => form .no 0x0 none h m (.ctz h)
  | 0x01B => form .no 0x0 none h m (.brev h)
  | 0x01C => form .yes 0xF (why56 ((bits 3 m 0).toNat > 5) (false)) h m (.icmp h (bits 3 m 0) (bit m 3))
  | 0x01D => form .no 0xF none h m (.plop h (bits 4 m 0))
  | 0x01E => form .yes 0xF none h m (.lea h (bits 3 m 0) (bit m 3))
  | 0x01F => form .yes 0x1 none h m (.add64 h (bit m 0))
  | 0x020 => form .yes 0xF (why56 ((bits 3 m 0).toNat > 5) (false)) h m (.cmp64 h (bits 3 m 0) (bit m 3))
  | 0x021 => form .no 0x7F (why56 ((bits 3 m 0).toNat > 5 || (bits 3 m 3).toNat > 5) (false)) h m (.cvti h (bits 3 m 0) (bits 3 m 3) (bit m 6))
  | 0x022 => form .yes 0x0 none h m (.bsel h)
  | _ => .error 1

/-- The opcodes of the class at 0x080 (R125, R132, R136). -/
def decodeFloat (opc : Nat) (h : Hdr) (m : Nat) : Except Nat Instr :=
  match opc with
  | 0x080 => form .yes 0x7 (why56 ((bits 3 m 0).toNat > 5) (false)) h m (.fadd h (bits 3 m 0))
  | 0x081 => form .yes 0x7 (why56 ((bits 3 m 0).toNat > 5) (false)) h m (.fsub h (bits 3 m 0))
  | 0x082 => form .yes 0x7 (why56 ((bits 3 m 0).toNat > 5) (false)) h m (.fmul h (bits 3 m 0))
  | 0x083 => form .yes 0x7 (why56 ((bits 3 m 0).toNat > 5) (false)) h m (.ffma h (bits 3 m 0))
  | 0x084 => form .yes 0x0 none h m (.fmin h)
  | 0x085 => form .yes 0x0 none h m (.fmax h)
  | 0x086 => form .yes 0x7 none h m (.fcmp h (bits 3 m 0))
  | 0x087 => form .no 0x7 (why56 ((bits 3 m 0).toNat > 5) (false)) h m (.fclass h (bits 3 m 0))
  | 0x088 => form .no 0x7 (why56 ((bits 3 m 0).toNat > 5) (false)) h m (.frnd h (bits 3 m 0))
  | 0x089 => form .no 0x7 (why56 ((bits 3 m 0).toNat > 5) (false)) h m (.frcp h (bits 3 m 0))
  | 0x08A => form .no 0x7 (why56 ((bits 3 m 0).toNat > 5) (false)) h m (.frsq h (bits 3 m 0))
  | 0x08B => form .no 0x7 (why56 ((bits 3 m 0).toNat > 5) (false)) h m (.fsqrt h (bits 3 m 0))
  | 0x08C => form .no 0x7 (why56 ((bits 3 m 0).toNat > 5) (false)) h m (.fex2 h (bits 3 m 0))
  | 0x08D => form .no 0x7 (why56 ((bits 3 m 0).toNat > 5) (false)) h m (.flg2 h (bits 3 m 0))
  | 0x08E => form .no 0x7 (why56 ((bits 3 m 0).toNat > 5) (false)) h m (.fsin h (bits 3 m 0))
  | 0x08F => form .no 0x7 (why56 ((bits 3 m 0).toNat > 5) (false)) h m (.fcos h (bits 3 m 0))
  | 0x090 => form .no 0x7 (why56 ((bits 3 m 0).toNat > 5) (false)) h m (.ftanh h (bits 3 m 0))
  | 0x091 => form .no 0x1FF (why56 ((bits 3 m 0).toNat > 5 || (bits 3 m 3).toNat > 5 || (bits 3 m 6).toNat > 5) (false)) h m (.f2f h (bits 3 m 0) (bits 3 m 3) (bits 3 m 6))
  | 0x092 => form .no 0xFF (why56 ((bits 3 m 0).toNat > 5 || (bits 3 m 3).toNat > 5 || (bits 2 m 6).toNat > 2) (false)) h m (.i2f h (bits 3 m 0) (bits 3 m 3) (bits 2 m 6))
  | 0x093 => form .no 0xFF (why56 ((bits 3 m 0).toNat > 5 || (bits 3 m 3).toNat > 5 || (bits 2 m 6).toNat > 2) (false)) h m (.f2i h (bits 3 m 0) (bits 3 m 3) (bits 2 m 6))
  | 0x094 => form .yes 0xF (why56 ((bits 3 m 0).toNat > 5) (false)) h m (.hadd2 h (bits 3 m 0) (bit m 3))
  | 0x095 => form .yes 0xF (why56 ((bits 3 m 0).toNat > 5) (false)) h m (.hmul2 h (bits 3 m 0) (bit m 3))
  | 0x096 => form .yes 0xF (why56 ((bits 3 m 0).toNat > 5) (false)) h m (.hfma2 h (bits 3 m 0) (bit m 3))
  | 0x097 => form .yes 0xF (why56 ((bits 3 m 0).toNat > 5) (false)) h m (.dp2 h (bits 3 m 0) (bit m 3))
  | 0x098 => form .yes 0x7F (why56 ((bits 3 m 0).toNat > 3 || (bits 3 m 4).toNat > 5) (((bits 3 m 0).toNat ≥ 2 && bit m 3) || ((bits 3 m 0).toNat < 2 && (bits 3 m 4) ≠ 0))) h m (.dp4 h (bits 3 m 0) (bit m 3) (bits 3 m 4))
  | 0x099 => form .yes 0x7F (why56 ((bits 3 m 0).toNat > 2 || (bits 3 m 4).toNat > 5) (((bits 3 m 0).toNat = 2 && bit m 3) || ((bits 3 m 0).toNat < 2 && (bits 3 m 4) ≠ 0))) h m (.dp8 h (bits 3 m 0) (bit m 3) (bits 3 m 4))
  | 0x09A => form .yes 0xF (why56 ((bits 3 m 0).toNat > 5) (false)) h m (.sclf h (bits 3 m 0) (bit m 3))
  | 0x09B => form .no 0xFF (why56 ((bits 3 m 0) = 0 || (bits 3 m 5).toNat > 5) (((bits 3 m 0).toNat ≥ 6 && (bits 3 m 5) ≠ 0) || (bits 2 m 3).toNat > packLast (bits 3 m 0))) h m (.pack h (bits 3 m 0) (bits 2 m 3) (bits 3 m 5))
  | 0x09C => form .yes 0x7 (why56 ((bits 3 m 0) = 0) (false)) h m (.unpk h (bits 3 m 0))
  | _ => .error 1

/-- The opcodes of the class at 0x100 (R142). -/
def decodeRing (opc : Nat) (h : Hdr) (m : Nat) : Except Nat Instr :=
  match opc with
  | 0x100 => form .yes 0x3 none h m (.rsadd h (bits 2 m 0))
  | 0x101 => form .yes 0x3 none h m (.rssub h (bits 2 m 0))
  | 0x102 => form .yes 0x3 none h m (.rsmul h (bits 2 m 0))
  | 0x103 => form .yes 0x3 none h m (.rsdiv h (bits 2 m 0))
  | 0x104 => form .no 0x0 none h m (.rsneg h)
  | 0x105 => form .no 0x3 none h m (.rsrcp h (bits 2 m 0))
  | 0x106 => form .no 0x3 none h m (.rssqr h (bits 2 m 0))
  | 0x107 => form (if bit m 2 then .yes else .no) 0x7 none h m (.rsfrom h (bits 2 m 0) (bit m 2))
  | 0x108 => form .no 0x3 none h m (.rslo h (bits 2 m 0))
  | 0x109 => form .no 0x3 none h m (.rshi h (bits 2 m 0))
  | 0x10A => form .yes 0x0 none h m (.rsuni h)
  | 0x10B => form .yes 0x0 none h m (.rsint h)
  | 0x10C => form .yes 0x3 none h m (.rstest h (bits 2 m 0))
  | 0x10D => form .no 0x7 none h m (.rspack h (bits 3 m 0))
  | 0x10E => form .no 0x0 none h m (.rsunpk h)
  | 0x10F => form .no 0x3 none h m (.rsring h (bits 2 m 0))
  | _ => .error 1

/-- The opcodes of the class at 0x140 (R103, R116). -/
def decodeControl (opc : Nat) (h : Hdr) (m : Nat) : Except Nat Instr :=
  match opc with
  | 0x140 => form .req 0x0 none h m (.bra h)
  | 0x141 => form .no 0x0 none h m (.brx h)
  | 0x142 => form (if bit m 0 then .no else .req) 0x1 none h m (.call h (bit m 0))
  | 0x143 => form .no 0x0 none h m (.ret h)
  | 0x144 => form .req 0x0 none h m (.loop h)
  | 0x145 => form .no 0x0 none h m (.exit h)
  | 0x146 => form .no 0x0 none h m (.yieldI h)
  | 0x147 => form .no 0x0 none h m (.nop h)
  | 0x148 => form .yes 0x0 none h m (.sleep h)
  | 0x149 => form .yes 0xF none h m (.bar h (bits 4 m 0))
  | 0x14A => form .yes 0xF none h m (.bara h (bits 4 m 0))
  | 0x14B => form .no 0x0 none h m (.launch h)
  | 0x14C => form .no 0x0 none h m (.cjoin h)
  | 0x14D => form .no 0x7 none h m (.rjen h (bits 3 m 0))
  | 0x14E => form .no 0x7 none h m (.rjwait h (bits 3 m 0))
  | 0x14F => form .no 0x7 none h m (.rjleave h (bits 3 m 0))
  | 0x150 => form .yes 0x7F none h m (.lxch h (bits 2 m 0) (bits 2 m 2) (bits 3 m 4))
  | 0x151 => form .no 0x3 none h m (.vote h (bits 2 m 0))
  | 0x152 => form .yes 0x1F (why56 ((bits 3 m 0).toNat > 5 || (bits 2 m 3) = 3) ((bits 3 m 0).toNat ≥ 3 && (bits 2 m 3) ≠ 0)) h m (.segred h (bits 3 m 0) (bits 2 m 3))
  | 0x153 => form .yes 0x3F (why56 ((bits 3 m 0).toNat > 5 || (bits 2 m 3) = 3) ((bits 3 m 0).toNat ≥ 3 && (bits 2 m 3) ≠ 0)) h m (.scan h (bits 3 m 0) (bits 2 m 3) (bit m 5))
  | 0x154 => form .no 0x1 none h m (.matchL h (bit m 0))
  | 0x155 => form .no 0x0 none h m (.lead h)
  | 0x156 => form .yes 0x0 none h m (.bcast h)
  | _ => .error 1

/-- The opcodes of the class at 0x180 (R157, R165, R169). -/
def decodeMemory (opc : Nat) (h : Hdr) (m : Nat) : Except Nat Instr :=
  match opc with
  | 0x180 => form .yes 0xFF (why56 ((bits 3 m 0) = 7 || (bits 3 m 4).toNat > 4) (!bit m 3 && (bits 3 m 4) ≠ 0)) h m (.ld h (bits 3 m 0) (bit m 3) (bits 3 m 4) (bit m 7))
  | 0x181 => form .yes 0x7F (why56 ((bits 3 m 0) = 4 || (bits 3 m 0).toNat > 5 || (bits 3 m 4).toNat > 4) (!bit m 3 && (bits 3 m 4) ≠ 0)) h m (.st h (bits 3 m 0) (bit m 3) (bits 3 m 4))
  | 0x182 => form .yes 0x7 (why56 ((bits 3 m 0) = 7) (false)) h m (.lds h (bits 3 m 0))
  | 0x183 => form .yes 0x7 (why56 ((bits 3 m 0) = 4 || (bits 3 m 0).toNat > 5) (false)) h m (.sts h (bits 3 m 0))
  | 0x184 => form .yes 0x3 (why56 ((bits 2 m 0) = 3) (false)) h m (.ldc h (bits 2 m 0))
  | 0x185 => form .yes 0x1 none h m (.ldf h (bit m 0))
  | 0x186 => form .yes 0x1 none h m (.pref h (bit m 0))
  | 0x187 => form (if bit m 0 then .no else .yes) 0x3 none h m (.cinv h (bits 2 m 0))
  | 0x188 => form .yes 0x7 none h m (.smap h (bits 3 m 0))
  | 0x189 => form .no 0x7 none h m (.swb h (bits 3 m 0))
  | 0x18A => form .no 0xF none h m (.sinv h (bits 3 m 0) (bit m 3))
  | 0x18B => form .yes 0x7FF (why56 ((bits 3 m 8).toNat > 4) (!atomOpOk (bits 4 m 0) (bits 2 m 4) || ((bits 2 m 6) = 0 && (bits 3 m 8) ≠ 0))) h m (.atom h (bits 4 m 0) (bits 2 m 4) (bits 2 m 6) (bits 3 m 8))
  | 0x18C => form .yes 0x3F (why56 ((bits 3 m 3).toNat > 4) ((bits 2 m 1) = 0 && (bits 3 m 3) ≠ 0)) h m (.atomc h (bit m 0) (bits 2 m 1) (bits 3 m 3))
  | 0x18D => form .yes 0x3FF (why56 ((bits 3 m 7).toNat > 4) ((bits 4 m 0).toNat > 5 || !atomOpOk (bits 4 m 0) (bits 2 m 4) || (!bit m 6 && (bits 3 m 7) ≠ 0))) h m (.red h (bits 4 m 0) (bits 2 m 4) (bit m 6) (bits 3 m 7))
  | 0x18E => form .yes 0x3F (why56 (false) (!atomOpOkCas (bits 4 m 0) (bits 2 m 4))) h m (.atomsc h (bits 4 m 0) (bits 2 m 4))
  | 0x18F => form .yes 0x3F (why56 (false) (!atomOpOkCas (bits 4 m 0) (bits 2 m 4))) h m (.atoms h (bits 4 m 0) (bits 2 m 4))
  | _ => .error 1

/-- The opcodes of the class at 0x200 (R176). -/
def decodeSync (opc : Nat) (h : Hdr) (m : Nat) : Except Nat Instr :=
  match opc with
  | 0x200 => form .no 0x7 (why56 ((bits 3 m 0).toNat > 4) (false)) h m (.fence h (bits 3 m 0))
  | 0x201 => form .req 0x7F (why56 ((bits 2 m 5) = 3) ((bits 5 m 0).toNat > 28)) h m (.waitc h (bits 5 m 0) (bits 2 m 5))
  | 0x202 => form .yes 0x0 none h m (.waitg h)
  | 0x203 => form .yes 0x0 none h m (.armw h)
  | 0x204 => form .yes 0x0 none h m (.arrv h)
  | 0x205 => form .no 0x1F (why56 false (h.gp != 7 || h.gn)) h m (.caps h (bits 5 m 0))
  | 0x206 => form .yes 0x0 none h m (.cld h)
  | 0x207 => form .yes 0x0 none h m (.cst h)
  | 0x208 => form .no 0x0 (why56 false (h.gp != 7 || h.gn)) h m (.cend h)
  | 0x209 => form .req 0x0 none h m (.cadopt h)
  | 0x20A => form .no 0x0 none h m (.cqry h)
  | _ => .error 1

/-- The opcodes of the class at 0x240 (R194). -/
def decodeMatrix (opc : Nat) (h : Hdr) (m : Nat) : Except Nat Instr :=
  match opc with
  | 0x240 => form .no 0x3FF (why56 ((bits 3 m 0).toNat > 4 || (bits 3 m 7).toNat > 5) (false)) h m (.mma h (bits 3 m 0) (bit m 3) (bit m 4) (bits 2 m 5) (bits 3 m 7))
  | 0x241 => form .no 0xFF (why56 ((bits 3 m 0).toNat > 3) (false)) h m (.mmai h (bits 3 m 0) (bit m 3) (bit m 4) (bits 2 m 5) (bit m 7))
  | 0x242 => form .no 0x3FF (why56 ((bits 3 m 0).toNat > 1 || (bits 3 m 7).toNat > 5) (false)) h m (.mmab h (bits 3 m 0) (bit m 3) (bit m 4) (bits 2 m 5) (bits 3 m 7))
  | 0x243 => form .no 0x7FF (why56 ((bits 3 m 0) = 7 || (bits 3 m 7).toNat > 5) (((bits 3 m 0).toNat ≥ 5 && (bits 3 m 7) ≠ 0) || ((bits 3 m 0).toNat < 5 && bit m 10))) h m (.mmas h (bits 3 m 0) (bit m 3) (bit m 4) (bits 2 m 5) (bits 3 m 7) (bit m 10))
  | 0x244 => form .yes 0x7F none h m (.tmv h (bits 3 m 0) (bits 3 m 3) (bit m 6))
  | 0x245 => form .no 0x70 none h m (.mzero h (bit m 4) (bits 2 m 5))
  | 0x246 => form .no 0x0 none h m (.mopr h)
  | 0x247 => form .no 0xF none h m (.mwait h (bits 4 m 0))
  | _ => .error 1

/-- The opcodes of the class at 0x280 (R205). -/
def decodeEngine (opc : Nat) (h : Hdr) (m : Nat) : Except Nat Instr :=
  match opc with
  | 0x280 => form .no 0x3F (why56 ((bits 3 m 1) = 7) (false)) h m (.tcopy h (bit m 0) (bits 3 m 1) (bit m 4) (bit m 5))
  | 0x281 => form .no 0x1 none h m (.rcfence h (bit m 0))
  | 0x282 => form .yes 0x0 none h m (.cpwait h)
  | 0x283 => form .no 0xF none h m (.gath h (bits 2 m 0) (bit m 2) (bit m 3))
  | 0x284 => form .no 0xF none h m (.scat h (bits 2 m 0) (bit m 2) (bit m 3))
  | 0x285 => form .no 0x3 none h m (.hset h (bits 2 m 0))
  | 0x286 => form .no 0x1F none h m (.hnext h (bits 2 m 0) (bits 3 m 2))
  | 0x287 => form .no 0x3 none h m (.hsave h (bits 2 m 0))
  | 0x288 => form .no 0x3 none h m (.hload h (bits 2 m 0))
  | 0x289 => form .no 0x3 none h m (.hstat h (bits 2 m 0))
  | _ => .error 1

/-- The opcodes of the class at 0x2C0 (R215). -/
def decodeSystem (opc : Nat) (h : Hdr) (m : Nat) : Except Nat Instr :=
  match opc with
  | 0x2C0 => form .no 0x0 none h m (.hxst h)
  | 0x2C1 => form .no 0x0 none h m (.hxld h)
  | 0x2C2 => form .no 0xF none h m (.hxclr h (bits 4 m 0))
  | 0x2C3 => form .yes 0x0 none h m (.hxrd h)
  | 0x2C4 => form .yes 0x0 none h m (.hxwr h)
  | 0x2C5 => form .yes 0x0 none h m (.hxcfg h)
  | 0x2C6 => form .yes 0x0 none h m (.trapI h)
  | 0x2C7 => form .no 0x1 none h m (.xret h (bit m 0))
  | 0x2C8 => if bit m 0 then form .yes 0xF none h m (.mfsT h (bits 3 m 1))
    else form .no 0xF (why56 (false) (m ≥ 2)) h m (.mfs h)
  | 0x2C9 => if bit m 0 then form .yes 0xF none h m (.mtsT h (bits 3 m 1))
    else form .yes 0xF (why56 (false) (m ≥ 2)) h m (.mts h)
  | 0x2CA => form .yes 0x0 none h m (.bkpt h)
  | 0x2CB => form .yes 0x0 none h m (.dbgmsg h)
  | 0x2CC => form .yes 0x0 none h m (.pmark h)
  | 0x2CD => form .yes 0x0 none h m (.pmrd h)
  | 0x2CE => form .no 0x0 none h m (.clkrd h)
  | 0x2CF => form .yes 0x0 none h m (.ipref h)
  | 0x2D0 => form .yes 0x0 none h m (.qntf h)
  | 0x2D1 => form .no 0x3 none h m (.tokrd h (bits 2 m 0))
  | _ => .error 1

/-- The opcode map (R85), after the check of HINT[0] (R73, R76). -/
def decodeOp (opc : Nat) (h : Hdr) (m : Nat) : Except Nat Instr :=
  if h.hint.getLsbD 0 && decodable opc then .error 2
  else match opc / 64 with
    | 0 => decodeInt opc h m
    | 2 => decodeFloat opc h m
    | 4 => decodeRing opc h m
    | 5 => decodeControl opc h m
    | 6 => decodeMemory opc h m
    | 8 => decodeSync opc h m
    | 9 => decodeMatrix opc h m
    | 10 => decodeEngine opc h m
    | 11 => decodeSystem opc h m
    | _ => .error 1
where
  /-- An opcode that R85 assigns. -/
  decodable (o : Nat) : Bool :=
    o ≤ 0x022 || (0x080 ≤ o && o ≤ 0x09C) || (0x100 ≤ o && o ≤ 0x10F) || (0x140 ≤ o && o ≤ 0x156)
      || (0x180 ≤ o && o ≤ 0x18F) || (0x200 ≤ o && o ≤ 0x20A) || (0x240 ≤ o && o ≤ 0x247)
      || (0x280 ≤ o && o ≤ 0x289) || (0x2C0 ≤ o && o ≤ 0x2D1)

/-- A decoded word form, or its ILLOP, with the length of its unit. -/
def decodedOf (opc len : Nat) : Except Nat Instr → Decoded
  | .ok i => .instr i len
  | .error why => .illop why opc len

/-- The fields of a full unit (R67, R69), `w` its 96 bits. -/
def decodeFull (w : Nat) : Decoded :=
  let imm := bit w 95
  let h : Hdr := ⟨.full, bits 3 w 12, bit w 15, bits 10 w 46, bits 10 w 16, bits 10 w 26, bits 10 w 36,
    if imm then some (bits 32 w 56) else none⟩
  decodedOf (field w 2 10) 12 (decodeOp (field w 2 10) h (if imm then field w 88 7 else field w 56 39))

/-- The fields of a medium unit (R80), `w` its 64 bits; opcode bits [13:12] not 0 make a fill fault of kind 5. -/
def decodeMedium (w : Nat) : Decoded :=
  if field w 12 2 ≠ 0 then .fill 5 8
  else
    let h : Hdr := ⟨.medium, bits 3 w 14, bit w 17, bits 10 w 48, bits 10 w 18, bits 10 w 28, bits 10 w 38, none⟩
    decodedOf (field w 2 10) 8 (decodeOp (field w 2 10) h (field w 58 6))

/-- The compact table (R79). -/
def compactInstr (idx : Nat) (d a b : Byte) : Instr :=
  match idx with
  | 0 => .movCompact d a b
  | 1 => .iaddCompact d a b
  | 2 => .isubCompact d a b
  | 3 => .imulCompact d a b
  | 4 => .imadCompact d a b
  | 5 => .iminCompact d a b
  | 6 => .imaxCompact d a b
  | 7 => .andwCompact d a b
  | 8 => .orwCompact d a b
  | 9 => .xorwCompact d a b
  | 10 => .andnCompact d a b
  | 11 => .notwCompact d a b
  | 12 => .shlCompact d a b
  | 13 => .shrCompact d a b
  | 14 => .sarCompact d a b
  | 15 => .popcCompact d a b
  | 16 => .clzCompact d a b
  | 17 => .add64Compact d a b
  | 18 => .leaCompact d a b
  | 19 => .faddCompact d a b
  | 20 => .fsubCompact d a b
  | 21 => .fmulCompact d a b
  | 22 => .ffmaCompact d a b
  | 23 => .fminCompact d a b
  | 24 => .fmaxCompact d a b
  | 25 => .frcpCompact d a b
  | 26 => .frsqCompact d a b
  | 27 => .fsqrtCompact d a b
  | 28 => .fex2Compact d a b
  | 29 => .flg2Compact d a b
  | 30 => .ftanhCompact d a b
  | 31 => .hadd2Compact d a b
  | 32 => .hmul2Compact d a b
  | 33 => .hfma2Compact d a b
  | 34 => .dp2Compact d a b
  | 35 => .dp4S8Compact d a b
  | 36 => .dp4E4m3Compact d a b
  | 37 => .dp8S4Compact d a b
  | 38 => .dp8E2m1Compact d a b
  | 39 => .i2fCompact d a b
  | 40 => .f2iCompact d a b
  | 41 => .f2fCompact d a b
  | 42 => .ldB32Compact d a b
  | 43 => .ldB64Compact d a b
  | 44 => .stB32Compact d a b
  | 45 => .stB64Compact d a b
  | 46 => .ldsCompact d a b
  | 47 => .stsCompact d a b
  | 48 => .ldcCompact d a b
  | 49 => .atomCompact d a b
  | 50 => .redCompact d a b
  | 51 => .lxchFromCompact d a b
  | 52 => .lxchFlipCompact d a b
  | 53 => .lxchFwdCompact d a b
  | 54 => .rsaddCompact d a b
  | 55 => .rssubCompact d a b
  | 56 => .rsmulCompact d a b
  | 57 => .rsdivCompact d a b
  | 58 => .rsuniCompact d a b
  | 59 => .rsintCompact d a b
  | 60 => .bfxCompact d a b
  | 61 => .bfiCompact d a b
  | 62 => .bselCompact d a b
  | _ => .cvtiCompact d a b

/-- A compact unit (R78); a used operand byte from 232 to 255 makes a fill fault of kind 2.
(DESIGN CHOICE, log entry 83) -/
def decodeCompact (w : Nat) : Decoded :=
  let i := compactInstr (field w 2 6) (bits 8 w 8) (bits 8 w 16) (bits 8 w 24)
  if i.compactBytes.all compactByteOk then .instr i 4 else .fill 2 4

/-- The unit that starts at the first of the bytes (R77); `w` is the little-endian number they make.
(DESIGN CHOICE, log entry 83) -/
def decodeUnit (w : Nat) : Decoded :=
  match w % 4 with
  | 0 => decodeCompact w
  | 1 => decodeMedium w
  | 2 => decodeFull w
  | _ => .fill 1 0

/-- The decoder on bytes: reads the unit at the head of the list, bytes past its end being 0 where the list is short. -/
def decodeBytes (bs : List Byte) : Decoded := decodeUnit (leNat (bs.take 12))

/-- The length in bytes of the unit whose first byte is given (R77); 0 for a prefix that has none. -/
def unitLength (b : Byte) : Nat :=
  match b.toNat % 4 with
  | 0 => 4
  | 1 => 8
  | 2 => 12
  | _ => 0

/-- The instruction that the decoder reads from a table word: its bits laid out in memory, the bits above `nbits` 0. -/
def decodeTableWord (nbits w : Nat) : Option Instr :=
  match decodeBytes (leBytes 12 (w % 2 ^ nbits)) with
  | .instr i _ => some i
  | _ => none

/-! ### The encoder -/

/-- The 96 bits of a full unit (R67, R69). -/
def encodeFull (opc m : Nat) (h : Hdr) : Nat :=
  2 + 2 ^ 2 * opc + 2 ^ 12 * h.gp.toNat + 2 ^ 15 * b2n h.gn + 2 ^ 16 * h.d.toNat + 2 ^ 26 * h.a.toNat
    + 2 ^ 36 * h.b.toNat + 2 ^ 46 * h.hint.toNat
    + 2 ^ 56 * (match h.imm with | some v => v.toNat + 2 ^ 32 * m + 2 ^ 39 | none => m)

/-- The 64 bits of a medium unit (R80). -/
def encodeMedium (opc m : Nat) (h : Hdr) : Nat :=
  1 + 2 ^ 2 * opc + 2 ^ 14 * h.gp.toNat + 2 ^ 17 * b2n h.gn + 2 ^ 18 * h.d.toNat + 2 ^ 28 * h.a.toNat
    + 2 ^ 38 * h.b.toNat + 2 ^ 48 * h.hint.toNat + 2 ^ 58 * m

/-- The 32 bits of a compact unit (R78). -/
def encodeCompact (idx : Nat) (d a b : Byte) : Nat :=
  2 ^ 2 * idx + 2 ^ 8 * d.toNat + 2 ^ 16 * a.toNat + 2 ^ 24 * b.toNat

/-- The compact index and operand bytes of a compact form (R79). -/
def Instr.compact? : Instr → Option (Nat × Byte × Byte × Byte)
  | .movCompact d a b => some (0, d, a, b)
  | .iaddCompact d a b => some (1, d, a, b)
  | .isubCompact d a b => some (2, d, a, b)
  | .imulCompact d a b => some (3, d, a, b)
  | .imadCompact d a b => some (4, d, a, b)
  | .iminCompact d a b => some (5, d, a, b)
  | .imaxCompact d a b => some (6, d, a, b)
  | .andwCompact d a b => some (7, d, a, b)
  | .orwCompact d a b => some (8, d, a, b)
  | .xorwCompact d a b => some (9, d, a, b)
  | .andnCompact d a b => some (10, d, a, b)
  | .notwCompact d a b => some (11, d, a, b)
  | .shlCompact d a b => some (12, d, a, b)
  | .shrCompact d a b => some (13, d, a, b)
  | .sarCompact d a b => some (14, d, a, b)
  | .popcCompact d a b => some (15, d, a, b)
  | .clzCompact d a b => some (16, d, a, b)
  | .add64Compact d a b => some (17, d, a, b)
  | .leaCompact d a b => some (18, d, a, b)
  | .faddCompact d a b => some (19, d, a, b)
  | .fsubCompact d a b => some (20, d, a, b)
  | .fmulCompact d a b => some (21, d, a, b)
  | .ffmaCompact d a b => some (22, d, a, b)
  | .fminCompact d a b => some (23, d, a, b)
  | .fmaxCompact d a b => some (24, d, a, b)
  | .frcpCompact d a b => some (25, d, a, b)
  | .frsqCompact d a b => some (26, d, a, b)
  | .fsqrtCompact d a b => some (27, d, a, b)
  | .fex2Compact d a b => some (28, d, a, b)
  | .flg2Compact d a b => some (29, d, a, b)
  | .ftanhCompact d a b => some (30, d, a, b)
  | .hadd2Compact d a b => some (31, d, a, b)
  | .hmul2Compact d a b => some (32, d, a, b)
  | .hfma2Compact d a b => some (33, d, a, b)
  | .dp2Compact d a b => some (34, d, a, b)
  | .dp4S8Compact d a b => some (35, d, a, b)
  | .dp4E4m3Compact d a b => some (36, d, a, b)
  | .dp8S4Compact d a b => some (37, d, a, b)
  | .dp8E2m1Compact d a b => some (38, d, a, b)
  | .i2fCompact d a b => some (39, d, a, b)
  | .f2iCompact d a b => some (40, d, a, b)
  | .f2fCompact d a b => some (41, d, a, b)
  | .ldB32Compact d a b => some (42, d, a, b)
  | .ldB64Compact d a b => some (43, d, a, b)
  | .stB32Compact d a b => some (44, d, a, b)
  | .stB64Compact d a b => some (45, d, a, b)
  | .ldsCompact d a b => some (46, d, a, b)
  | .stsCompact d a b => some (47, d, a, b)
  | .ldcCompact d a b => some (48, d, a, b)
  | .atomCompact d a b => some (49, d, a, b)
  | .redCompact d a b => some (50, d, a, b)
  | .lxchFromCompact d a b => some (51, d, a, b)
  | .lxchFlipCompact d a b => some (52, d, a, b)
  | .lxchFwdCompact d a b => some (53, d, a, b)
  | .rsaddCompact d a b => some (54, d, a, b)
  | .rssubCompact d a b => some (55, d, a, b)
  | .rsmulCompact d a b => some (56, d, a, b)
  | .rsdivCompact d a b => some (57, d, a, b)
  | .rsuniCompact d a b => some (58, d, a, b)
  | .rsintCompact d a b => some (59, d, a, b)
  | .bfxCompact d a b => some (60, d, a, b)
  | .bfiCompact d a b => some (61, d, a, b)
  | .bselCompact d a b => some (62, d, a, b)
  | .cvtiCompact d a b => some (63, d, a, b)
  | _ => none

/-- The unit of an instruction: its bits and its length in bytes. A step of the machine has no unit. -/
def encodeUnit (i : Instr) : Nat × Nat :=
  match i.compact? with
  | some (k, d, a, b) => (encodeCompact k d a b, 4)
  | none =>
    match i.hdr? with
    | some h =>
      match h.len with
      | .medium => (encodeMedium i.opc i.mods h, 8)
      | _ => (encodeFull i.opc i.mods h, 12)
    | none => (0, 0)

/-- The bytes of an instruction in memory (R5, R77). -/
def encode (i : Instr) : List Byte := leBytes (encodeUnit i).2 (encodeUnit i).1

end Sys2Proof
end

