-- ==== Sys2Proof/Machine/State.lean ====
section
/-! DEFINITION. The state of an LN9 package: everything the spec gives the machine, as plain data.
Tables are lists of a key and a value. A thread's key is ((core·4 + quadrant)·16 + slot)·32 + lane, so a group's key
is the thread key div 32, a quadrant's the group key div 16 and a core's the quadrant key div 4. Addresses, counts
and the time base are natural numbers; what software reads as bits is a bit vector. -/

namespace Sys2Proof.Machine

/-- Values by key. (DESIGN CHOICE, log entry 9) -/
abbrev Tbl (α : Type) := List (Nat × α)

/-! ### Threads, groups and blocks (01 R10–R36) -/

/-- The identity a thread keeps across WAITC (R13): %tid, %ntid, %bid, %nbid, %depth, %owner. -/
structure Ident where
  tid : Nat
  ntid : Nat
  bidX : Nat
  bidY : Nat
  bidZ : Nat
  nbidX : Nat
  nbidY : Nat
  nbidZ : Nat
  depth : Nat
  owner : Nat
deriving DecidableEq, Repr

/-- What a Waiting thread waits for (R331, WKIND) and the argument of the wait. (DEDUCED, log entry 30) -/
inductive Wait where
  | none
  /-- BAR: the barrier (R109). -/
  | bar (id : Nat)
  /-- RJWAIT: the rejoin barrier (R113). -/
  | rejoin (j : Nat)
  /-- WAITG: the offset of the arrival word, the generation, the D operand code (R182); for an s destination the step of
  its issue and, in its group, the lanes that committed then and those of the bundle (R27). -/
  | waitg (off gen : Nat) (d : BitVec 10) (mates : Option (Nat × BitVec 32 × BitVec 32))
  /-- CPWAIT: the count (R207), and the length of its unit, since the wait may end in a trap at it. -/
  | cpwait (n len : Nat)
  /-- MWAIT: the stream mask (R203), the length of its unit, and the operation number below which it waits. -/
  | mwait (mask len bound : Nat)
  /-- SLEEP: the deadline in T (R108). -/
  | sleep (deadline : Nat)
  /-- CJOIN: the handle, 0 for every child launched before the launch number `bound` (R112). -/
  | cjoin (handle bound : Nat)
  /-- CAPS: the record address (R184); `retried` where no waiter list had room and the core retries it (R350). -/
  | caps (rec : Nat) (retried : Bool)
  /-- A displaced holder: waits for its result (R189). The record's address and its physical address, by which the
  result is keyed (R351). -/
  | displaced (rec pa : Nat)
deriving DecidableEq, Repr

/-- Why a thread is Stalled (R13). -/
inductive Stall where
  | operand
  | memory
  | fetch
  | mxu
  | engine
  | wct
  | bank
  /-- A consumer waits for the RSRINGs that issued before it, up to the one of this number (R65). -/
  | ring (n : Nat)
  | queue
  | sluice
  | slot
  /-- An SMAP whose window waits for its lines (R166). -/
  | stash
deriving DecidableEq, Repr

/-- The state of a thread (R13) but for Stopped, which the field `stopped` of the thread holds beside it. -/
inductive TState where
  | ready
  | stalled (why : Stall)
  | waiting (w : Wait)
  /-- Parked on the fault record with this sequence number (R319). -/
  | parked (seq : Nat)
  | ended
deriving DecidableEq, Repr

/-- The capsule state of a thread whose MODE is not none (R183, R343). -/
structure Capsule where
  adopter : Bool
  capr : Nat
  estep : Nat
  code : Nat
  n : Nat
  ret : Nat
  ident : Nat
deriving DecidableEq, Repr

/-- A register range of a matrix operation whose MWAIT has not come (R200): reads of it give undefined values; the
registers of it that the thread has written are undefined, and so are their elements of the result.
(DESIGN CHOICE, log entry 15) -/
structure Hazard where
  stream : Nat
  op : Nat
  base : Nat
  count : Nat
  written : List Nat
deriving DecidableEq, Repr

/-- The banked trap state (R33). -/
structure TrapState where
  xpc : DWord
  xcause : Word
  xinfo : DWord
  xstat : Word
  z : List Word
  xlat : List Word
deriving DecidableEq, Repr

/-- One thread. `regs` holds x0 … x(A − 1). `latch` holds b1, b2, … of the open chain, newest first (R25, R75). -/
structure Thread where
  ident : Ident
  regs : List Word
  preds : BitVec 7
  ks : List (BitVec 16)
  fpc : Word
  fps : BitVec 4
  pc : Nat
  handler : Bool
  state : TState
  stopped : Bool
  trap : TrapState
  chain : Bool
  latch : List Word
  wctPkg : Nat
  wctSys : Nat
  capsule : Option Capsule
  /-- Program order of its requests (R237). -/
  seq : Nat
  /-- Ordering points passed (R239). -/
  epoch : Nat
  /-- Poisoned column and event by stream (R199). -/
  poison : Tbl (Nat × Nat)
  hazards : List Hazard
  /-- Registers with an uncorrectable error (R276). -/
  bad : List Nat
  /-- T at which it last became Ready or issued (R312). -/
  readyAt : Nat
  /-- T before which a STALL hint keeps it from issuing (R73). -/
  holdTill : Nat
  /-- T before which it has not started: its owner slot's history moves (R288), or a continuation's start (R240). -/
  startTill : Nat
  /-- TRAPSTEP armed (R403). -/
  stepTrap : Bool
  /-- Stops again after its next instruction (R402). -/
  stepping : Bool
  /-- Words that an instruction which reads memory itself (RSRING, HXLD, HSET, HLOAD, HNEXT) has read so far, each under
  the key of its read: it commits when it has all it needs (R150, R218, R360). (DEDUCED, log entry 11) -/
  memo : Tbl Nat
  /-- T at which its stall began (R17). -/
  stalledAt : Nat
  /-- The instruction at its PC has been counted: it left the thread Waiting there (R328). -/
  counted : Bool
  /-- The trap STEP is due when the operation that its instruction began has ended (R403). -/
  stepDue : Bool
deriving DecidableEq, Repr

/-- One group (R11, R12, R26–R29, R121, R230). -/
structure Group where
  block : Nat
  /-- %grp; a continuation group reads 0xFFFFFFFF (R14). -/
  grp : Nat
  cont : Bool
  alloc : Nat
  oslot : Nat
  /-- Register offset in each lane (R306). -/
  regBase : Nat
  live : BitVec 32
  s : List Word
  enrolled : List (BitVec 32)
  arrived : List (BitVec 32)
  udiv : Bool
  leader : Option Nat
  mark : BitVec 16
  /-- s registers that an uncorrectable error has struck (R276). -/
  badS : List Nat
deriving DecidableEq, Repr

/-- One block barrier (R109): `opened` while a phase has had an arrival. -/
structure Barrier where
  opened : Bool
  expected : Nat
  implicit : Bool
  count : Nat
deriving DecidableEq, Repr

/-- One line of a stash window (R167); `touched`: the block has touched its bytes and waits for its fill. -/
structure StashLine where
  owned : Bool
  filled : Bool
  dirty : Bool
  touched : Bool
deriving DecidableEq, Repr

/-- A mapped stash window (R166): scratchpad offset, global address, the lines' physical addresses and states. -/
structure Stash where
  off : Nat
  va : Nat
  len : Nat
  pas : List Nat
  lines : List StashLine
  /-- The thread whose SMAP mapped it, for the wct of write-backs (R245). -/
  byThread : Nat
  /-- The bytes of a window that SINV has unmapped and whose write-backs are still to be performed (R168): it holds a number
  above 7 then. -/
  parting : Option (List Byte)
deriving DecidableEq, Repr

/-- One resident block, or the retire record of one (R16): `retired` then holds. -/
structure Block where
  core : Nat
  grid : Nat
  ident : Ident
  alloc : Nat
  scratch : Nat
  spadBase : Nat
  spad : List Host.Cell
  /-- Offsets of 64-byte runs of the scratchpad with an uncorrectable error (R276). -/
  badSpad : List Nat
  bars : List Barrier
  windows : Tbl Stash
  /-- Unjoined children: handle and launch number (R111, R112). -/
  children : Tbl Nat
  /-- The kernel descriptor's address (R295). -/
  kernel : Nat
  cbase : Nat
  cunits : Nat
  oslot : Nat
  q0 : Nat
  groups : List Nat
  retired : Bool
  cont : Bool
  /-- The largest GWCT that its threads' stores have been given (R107). -/
  wctMax : Nat
deriving DecidableEq, Repr

/-! ### History banks (01 R37–R42) -/

/-- An SPT entry (R40). -/
structure SptEntry where
  age : Nat
  valid : Bool
  conf : Nat
  stride : Int
  last : Nat
  tag : Nat
deriving DecidableEq, Repr

/-- A CHT entry (R40). -/
structure ChtEntry where
  valid : Bool
  cnt : Nat
  tag : Nat
deriving DecidableEq, Repr

/-- The history bank of one owner slot (R37): counters are numbers 0 to 3. -/
structure Bank where
  bot : List (List Nat)
  ghr : List Nat
  conf : DWord
  rip : List Nat
  spt : List SptEntry
  cht : List (List ChtEntry)
deriving DecidableEq, Repr

/-- One owner slot of a core (R35, R36, R231): `busy` while a bank operation occupies the bank (R217). -/
structure OSlot where
  valid : Bool
  udivt : Bool
  owner : Nat
  tvec : Nat
  hsave : Nat
  s1root : Nat
  cqBase : Nat
  cqLog2 : Nat
  bank : Bank
  busy : Bool
  /-- PMRD counters 0 to 9 (R231). -/
  counters : List Nat
  idleSince : Nat
  /-- T before which no group of the owner issues: its history moves (R288). -/
  readyAt : Nat
deriving DecidableEq, Repr

/-! ### Cores and quadrants -/

/-- A line in the L1 (R238, R253, R283). -/
structure L1Line where
  oslot : Nat
  set : Nat
  way : Nat
  pa : Nat
  data : List Byte
  expiry : Nat
  rrv : Nat
  sig : Nat
  reused : Bool
deriving DecidableEq, Repr

/-- A slot of an instruction-cache frame: the unit's bytes and length, or a fill fault with its kind and ADDR (R83). -/
inductive ICWord where
  | unit (bytes : List Byte) (len : Nat)
  | fillFault (kind addr : Nat)
deriving DecidableEq, Repr

/-- A frame of the instruction cache: owner, line address and the words by start address (R257). -/
structure ICFrame where
  owner : Nat
  part : Nat
  line : Nat
  words : Tbl ICWord
  /-- The physical pages it was filled through, for invalidation (R271). -/
  pages : List Nat
deriving DecidableEq, Repr

/-- A fill of a line ahead of demand: owner slot, owner, line, and whether IPREF asked for it (R82, R233). -/
structure Ahead where
  oslot : Nat
  owner : Nat
  line : Nat
  ipref : Bool
deriving DecidableEq, Repr

/-- A cached translation of one page (R268, R270): its size is 2^bits bytes, the smaller page of the two stages; the
addresses are those of its first 64 KiB page, div 65,536; the permissions of each stage; SYNC; record match. -/
structure TlbEntry where
  part : Nat
  owner : Nat
  bits : Nat
  vpage : Nat
  ipage : Nat
  ppage : Nat
  rd1 : Bool
  wr1 : Bool
  ex1 : Bool
  rd2 : Bool
  wr2 : Bool
  ex2 : Bool
  sync : Bool
  pcl : Nat
  key : Nat
  aliased : Bool
deriving DecidableEq, Repr

/-- A table entry in the walk cache of a core (R270): the partition, the owner for a stage-1 table, the level, the
address bits that index it, the intermediate page it was read through and the entry. -/
structure WalkEntry where
  part : Nat
  owner : Option Nat
  level : Nat
  index : Nat
  ipage : Nat
  entry : Nat
deriving DecidableEq, Repr

/-- An RSRING that has issued and whose build has not ended (R65): its number on the slot, the owner slot of its group, its
lane L0 with the PC, and the ring's values once its words have arrived. -/
structure RingLoad where
  number : Nat
  owner : Nat
  thread : Nat
  pc : Nat
  words : Option (List Word)
deriving DecidableEq, Repr

/-- A ring slot (R143): the seven FP32 values and the owner slot's tag that its tables were last built for, and the number
of that RSRING; the RSRINGs issued since, in issue order (R65); how many have issued; the rings that were built before the
present one and that a waiter may still use, newest first: number, values, tag. -/
structure Ring where
  values : List Word
  tag : Option Nat
  number : Nat
  queue : List RingLoad
  issued : Nat
  past : List (Nat × List Word × Nat)
deriving DecidableEq, Repr

/-- A slot that holds no ring. -/
def Ring.none : Ring := ⟨List.replicate 7 0, .none, 0, [], 0, []⟩

/-- A constant image (R255). -/
structure ConstImage where
  owner : Nat
  cbase : Nat
  cunits : Nat
  bytes : List Host.Cell
deriving DecidableEq, Repr

/-- A stall-sample record (R406). -/
structure Sample where
  mark : Nat
  pc : Nat
  owner : Nat
  state : Nat
  grp : Nat
  quad : Nat
  slot : Nat
  tlow : Nat
deriving DecidableEq, Repr

/-- A Harrow cursor (R212): the image's fields and the tag; `valid` is VALID. -/
structure Cursor where
  valid : Bool
  tag : Nat
  base0 : Nat
  base1 : Nat
  len0 : Nat
  len1 : Nat
  spl : Nat
  enc0 : Nat
  enc1 : Nat
  mode : Nat
  pos0 : Nat
  pos1 : Nat
  segc : Nat
  drawn : Nat
  done : Bool
deriving DecidableEq, Repr

/-- One core. `carve` is 0, 1, 2 for 128, 256, 512 KiB of L1; `carveTo` marks a change (R308). -/
structure Core where
  part : Option Nat
  carve : Nat
  carveTo : Option Nat
  oslots : List OSlot
  rings : List Ring
  /-- The record cache, most recently used first (R209). -/
  records : Tbl (List Byte)
  icache : List ICFrame
  /-- Fills ahead of demand in flight (R82). -/
  aheads : List Ahead
  /-- The shared TLB and the walk cache (R270). -/
  tlb : List TlbEntry
  walks : List WalkEntry
  l1 : List L1Line
  /-- Lines of an owner slot's ways with an uncorrectable error (R276). -/
  badL1 : List (Nat × Nat)
  images : List ConstImage
  /-- PMRD counters 10 and 11 (R231). -/
  stretch : Nat
  smpdrop : Nat
  samples : List Sample
  /-- Scratchpad requests in issue order (R160). -/
  spadQueue : List Nat
  /-- A paused save or restore holds the core: the SEQ of its record (R333). -/
  frozen : Option Nat
  /-- CORE_ASSIGN has taken it from its partition's masks and waits for it to empty (R373). -/
  leaving : Bool
deriving DecidableEq, Repr

/-- A bundle (R17): its core and quadrant key, its threads in ascending lane order. -/
structure Bundle where
  quad : Nat
  threads : List Nat
deriving DecidableEq, Repr, Inhabited

/-- A formed bundle (R17): its threads, how many instructions it has issued, for one whose deferral has ended and that has
not issued since, whether a thread joined it (R286), and for one that met a cause to re-form inside a chain or at an
instruction in progress, whether it yields (R75). `chosen`: it was selected for the instruction at its PC, which has not
passed; `behind`: its threads that have still to pass the instruction that the others have passed. -/
structure Formed where
  threads : List Nat
  issued : Nat
  deferral : Option Bool
  reform : Option Bool
  chosen : Bool
  behind : List Nat
deriving DecidableEq, Repr

/-- One quadrant: the selection count (R312), the open chain's bundle (R75), the formed bundles (R17), the cycle of its
last issue, the deferred bundles with the cycle at which each formed (R285), the short bundles that issued undeferred
(R286), the bundles that yielded with the cycle (R73), cursors (R212), the instruction that draws from or loads each
(R359: its lowest lane's thread and PC) and the sampler's pointer (R405). -/
structure Quad where
  selections : Nat
  openChain : Option Bundle
  formed : List Formed
  lastIssue : Option Nat
  /-- The cycle of its last selection (R311), and of its last issue that trained a bank or loaded a ring (R278, R65). -/
  lastSelect : Option Nat
  trained : Option Nat
  /-- PC and groups of the bundle last issued (R405). -/
  lastBundle : Nat × List Nat
  deferred : List (Bundle × Nat)
  /-- Cycle, PC, groups. -/
  recentShort : List (Nat × Nat × List Nat)
  yielded : List (List Nat × Nat)
  cursors : List Cursor
  drawing : Tbl (Nat × Nat)
  samplePtr : Nat
  sampledAt : Option Nat
  /-- Its 64-entry TLB (R270). -/
  tlb : List TlbEntry
deriving DecidableEq, Repr

/-! ### Memory requests and the lease machine (09) -/

/-- A destination of a returning value: registers of the thread from an operand code, `words` of them. -/
structure Dest where
  code : BitVec 10
  words : Nat
deriving DecidableEq, Repr

/-- Where a request is performed (R237). -/
inductive Space where
  | spad
  | home
  | sluice
  | hostPath
deriving DecidableEq, Repr

/-- The memory access of a CLD or CST, as it was translated at issue (R153, R186). -/
structure StepAccess where
  pa : Nat
  va : Nat
  space : Space
deriving DecidableEq, Repr

/-- What a request does (R238). -/
inductive ReqKind where
  /-- LD, LDS, LDC, LDF: sign extension of sizes below 4 (R158). `lease`: grants a lease and fills L1. `fine`: a
  fine-grain access, which makes no change to L2 (R162, R261). -/
  | load (signed : Bool) (lease : Bool) (fine : Bool) (dest : Dest)
  /-- One read of an instruction that reads memory itself; its value goes to the thread's memo under a key. -/
  | memo (lease : Bool) (key : Nat)
  /-- CQRY: a load of the record, performed at Sluice (R190, R246). -/
  | query (dest : Dest)
  | store (data : List Byte)
  /-- ATOM, RED, ATOMSC, ATOMS: operation, type, operand, comparand of `.cas`, destination if it returns (R170). -/
  | atomic (op : Nat) (ty : Nat) (b : Nat) (cmp : Nat) (dest : Option Dest) (sc : Bool)
  | pref (toL1 : Bool)
  /-- The write-back of one line of a window (R168, R245). -/
  | writeBack (block window line : Nat)
  /-- SMAP's request for one line of a window (R166). -/
  | own (block window line : Nat)
  /-- A capsule step's commit (R348): the committer's identity and ESTEP, destinations with values, the CST store, the
  CLD access with its destination. -/
  | commit (ident estep : Nat) (writes : List (BitVec 10 × Word)) (cst : Option (StepAccess × Word))
      (cld : Option (StepAccess × BitVec 10))
  /-- ARMW, ARRV (R182). -/
  | arm (target : Nat) (dest : Dest)
  | arrive (n : Nat)
deriving DecidableEq, Repr

/-- A request's progress: pending, holding a ticket (R174), performed with a value and a GWCT. -/
inductive ReqState where
  | pending
  | ticketed (t : Nat)
  | performed (value : Nat) (gwct : Nat)
deriving DecidableEq, Repr

/-- A memory request of a thread (R237). -/
structure Req where
  thread : Nat
  tag : Nat
  ctx : Nat
  grid : Nat
  seq : Nat
  epoch : Nat
  core : Nat
  oslot : Nat
  part : Nat
  block : Nat
  space : Space
  va : Nat
  pa : Nat
  size : Nat
  kind : ReqKind
  acquire : Bool
  /-- The request whose fill of its line it waits for, to take Read-L1, and whether that is of the same instruction
  (R291, R283). -/
  joined : Option (Nat × Bool)
  /-- A cancelled fill: CINV (R291), or its ways have changed slot (R284). -/
  dropFill : Bool
  pc : Nat
  issuedAt : Nat
  /-- T at which it was sent, and the stream-key slot under which a host-path request went (R383, R384). -/
  sentAt : Nat
  keySlot : Nat
  /-- The Pritch sub-link that carries it (R390). -/
  link : Option Nat
  /-- Its completion failed authentication and was dropped: it can only time out (R384). -/
  lost : Bool
  /-- For an s destination (R27): the lanes of its group that committed in its bundle, and those that the bundle held. -/
  live : BitVec 32
  bundle : BitVec 32
  state : ReqState
deriving DecidableEq, Repr

/-- A home line (R237, R238, R260). `used` is the step of its last use, for the order of replacement. -/
structure HomeLine where
  maxExp : Nat
  stash : Option (Nat × Nat × Nat)
  resident : Bool
  valid : BitVec 4
  dirty : BitVec 4
  used : Nat
deriving DecidableEq, Repr

/-- A page whose bytes are undefined (R379, R380): until written or, without a key, whatever is written.
(DESIGN CHOICE, log entry 76) -/
structure UndefPage where
  nonce : Nat
  written : List Nat
  keyless : Bool
deriving DecidableEq, Repr

/-- The carried state of a continuation (R179). -/
structure Carried where
  ident : Ident
  regs : List Word
  preds : BitVec 7
  ks : List (BitVec 16)
  fpc : Word
  fps : BitVec 4
  pc : Nat
  grid : Nat
deriving DecidableEq, Repr

/-- A monitor (R178, R180). `inSluice`: held by the Sluice of the die (R342); `overflow`: in its partition's overflow
area (R341). -/
structure Monitor where
  pa : Nat
  cond : Nat
  value : Word
  carried : Carried
  part : Nat
  inSluice : Bool
  overflow : Bool
deriving DecidableEq, Repr

/-- A continuation in a grid's pool (R310), with its start time (R238, Fire). -/
structure Continuation where
  carried : Carried
  start : Nat
deriving DecidableEq, Repr

/-- A displaced result (R351); `overflow`: in its partition's overflow area (R341). -/
structure Displaced where
  part : Nat
  record : Nat
  holder : Nat
  c : List Word
  overflow : Bool
deriving DecidableEq, Repr

/-- The Sluice of a die (R339–R351). -/
structure Sluice where
  displaced : List Displaced
  waiters : Tbl Nat
  /-- Identities marked dead (R347). -/
  dead : List Nat
  errors : Nat
  lines : List Nat
  /-- The blocks that CAPS, CADOPT or CQRY has named as records (R344, R345). -/
  records : List Nat
deriving DecidableEq, Repr

/-- A format-region descriptor (R264). -/
structure Region where
  part : Option Nat
  en : Bool
  ro : Bool
  vbase : Nat
  sbase : Nat
  xbase : Nat
  vpages : Nat
  p0 : Nat
  dither : Bool
  sfmt : Nat
  vfmt : Nat
  /-- Elements of decoded view lines whose scales have been written since their decode: undefined (R266). -/
  stale : List Nat
deriving DecidableEq, Repr

/-- A page record (R274): class and key. -/
structure PageRec where
  cls : Nat
  key : Nat
deriving DecidableEq, Repr

/-! ### Engines (07) -/

/-- A matrix operation's kind and types (R196, R202). -/
inductive MxKind where
  | mma (ty : Nat) (rnd : Nat)
  | mmai (ty : Nat) (sat : Bool)
  | mmab (ty : Nat) (rnd : Nat)
  | mmas (ty : Nat) (rnd : Nat) (sat : Bool)
  | mzero
deriving DecidableEq, Repr

/-- A queued matrix operation. `latched` holds the operand words already read (R200). (DEDUCED, log entry 14) -/
structure MxOp where
  group : Nat
  block : Nat
  oslot : Nat
  stream : Nat
  kind : MxKind
  lanes : List Nat
  d : Nat
  aReg : Option Nat
  aOff : Nat
  bOff : Nat
  metaOff : Nat
  scaleOff : Nat
  fpcs : Tbl Word
  latched : Tbl Word
  /-- Elements whose result is undefined (R200, R201): lane and column. -/
  undef : List (Nat × Nat)
  /-- The lanes whose rows have been written (R244). -/
  rows : List Nat
  acceptedAt : Nat
deriving DecidableEq, Repr

/-- The kind of an engine operation (R206). -/
inductive EngKind where
  /-- TCOPY: the record image, direction to global, SF, SR, scratchpad offset, origins. -/
  | tcopy (image : List Byte) (toGlobal : Bool) (sf : Nat) (sr : Bool) (off : Nat) (origin : List Int)
  /-- GATH and SCAT: direction to global, element size, unsigned, base, scratchpad offset, index vector, count. -/
  | gather (toGlobal : Bool) (size : Nat) (uns : Bool) (base : Nat) (off : Nat) (idx : Nat) (n : Nat)
deriving DecidableEq, Repr

/-- The error with which an operation completed: cause, WHY, address (R206, R207). -/
structure EngErr where
  cause : Nat
  why : Nat
  va : Nat
deriving DecidableEq, Repr

/-- A request that a device of the package has on the host path or on a Pritch sub-link (R362, R383, R384): when it was sent,
to which physical address, under which stream-key slot and over which sub-link; `lost`: it can only time out. -/
structure FarReq where
  sentAt : Nat
  pa : Nat
  keySlot : Nat
  link : Option Nat
  lost : Bool
deriving DecidableEq, Repr

/-- One engine operation (R206). `sent`: its parts on the host path that have not been completed (R362). `parts`: its parts performed, each with the GWCT it received; `counted`: its chunks or
windows that have ended, whose bytes an arrival word has counted. -/
structure EngOp where
  thread : Nat
  order : Nat
  ctx : Nat
  grid : Nat
  core : Nat
  block : Nat
  oslot : Nat
  part : Nat
  owner : Nat
  s1root : Nat
  kind : EngKind
  arrival : Option Nat
  sent : Tbl FarReq
  parts : Tbl Nat
  counted : List Nat
  gwct : Nat
  held : Option Nat
  error : Option EngErr
  delivered : Bool
  complete : Bool
  startSeq : Nat
deriving DecidableEq, Repr

/-! ### Dispatcher (13) -/

/-- The fields of a launch record (R298). -/
structure LaunchRec where
  kdesc : Nat
  gx : Nat
  gy : Nat
  gz : Nat
  owner : Nat
  ntid : Nat
  pre : Bool
  prio : Nat
  ovl : Bool
  nwait : Nat
  maskp : Nat
  waitp : Nat
  donew : Nat
  paramp : Nat
  reservedOk : Bool
deriving DecidableEq, Repr

/-- The fields of a kernel descriptor (R296). -/
structure KernelDesc where
  entry : Nat
  cbase : Nat
  scratch : Nat
  carve : Nat
  cunits : Nat
  rg : Nat
  reservedOk : Bool
deriving DecidableEq, Repr

/-- A queue's state at the dispatcher (R297, R299, R303). -/
structure Queue where
  prod : Nat
  cons : Nat
  pending : Bool
  halted : Bool
  slot : Option Nat
  /-- The launch of the record last consumed; none where it was rejected (R304). -/
  last : Option Nat
deriving DecidableEq, Repr

/-- A launch and the grid it becomes (R302–R314). -/
structure Launch where
  queue : Option Nat
  index : Nat
  part : Nat
  ctx : Nat
  record : LaunchRec
  kd : KernelDesc
  depth : Nat
  mask : List Nat
  waits : List (Nat × Nat)
  params : List Word
  pred : Option Nat
  consumedAt : Nat
  readyAt : Option Nat
  boosts : Nat
  boostedAt : Nat
  nextBlock : Nat
  live : Nat
  complete : Bool
  parent : Option (Nat × Nat)
  gwct : Nat
  startStopped : Bool
  pool : List Continuation
  markedCore : Option Nat
deriving DecidableEq, Repr

/-- A record in a child queue (R111, R309): the launch number it will have, its bytes, its parent's launch, the block
that launched it, its %depth, and whether its threads start Stopped (R403). -/
structure Child where
  launch : Nat
  /-- The intermediate address of its record in the ring (R309). -/
  place : Nat
  parent : Nat
  block : Nat
  depth : Nat
  stopped : Bool
deriving DecidableEq, Repr

/-- An owner's child queue (R309): records appended so far, and those not yet consumed. -/
structure ChildQ where
  prod : Nat
  waiting : List Child
deriving DecidableEq, Repr

/-- A hardware queue slot (R299). -/
structure QSlot where
  queue : Option Nat
  idleSince : Nat
deriving DecidableEq, Repr

/-! ### Context engine (14) -/

/-- A fault record (R319). -/
structure FaultRec where
  owner : Nat
  ctx : Nat
  detail : Nat
  src : Nat
  kind : Nat
  seq : Nat
  va : Nat
  ipa : Nat
  acc : Nat
  pc : Nat
  done : Nat
  flt : Nat
  prog : Nat
  queue : Nat
  quad : Nat
  slot : Nat
  core : Nat
  xinfo : Nat
deriving DecidableEq, Repr

/-- Who waits on a fault record (R320). -/
inductive Party where
  | threads (ks : List Nat)
  | double (k : Nat) (pc : Nat)
  | engine (e : Nat)
  | saving (core ctx : Nat)
  | restoring (core ctx : Nat)
deriving DecidableEq, Repr

/-- A ring as it is saved (R330): the owner and the owner slot of its tag, its ring slot, its values. -/
structure SavedRing where
  owner : Nat
  oslot : Nat
  slot : Nat
  words : List Word
deriving DecidableEq, Repr

/-- What a core's frame holds (R330), as structures. -/
structure Frame where
  status : Nat
  blocks : Tbl Block
  groups : Tbl Group
  threads : Tbl Thread
  packets : List Req
  engines : Tbl EngOp
  /-- Quadrant of the core, cursor number, cursor. -/
  cursors : List (Nat × Nat × Cursor)
  rings : List SavedRing
  savedAt : Nat
  /-- Where each block's records begin in the frame, and those that follow the blocks; and the frame's bytes (R330). -/
  places : Tbl Nat
  tail : Nat
  bytes : Nat
  /-- Cores and owners whose rings have been loaded again (R334). -/
  ringsOn : List (Nat × Nat)
deriving DecidableEq, Repr

/-- What a saved context waits for (R322, R334): RESTORE, the mapping of one of its queues by the dispatcher that
pre-empted it, or only resources. -/
inductive Held where
  | software
  | dispatcher
  | eligible
deriving DecidableEq, Repr

/-- A pre-emption in progress (R323–R327). `missing`: core and engine class still to acknowledge; `parked`: the groups whose
outstanding loads have become packets (R324); `rings`: core and ring of the builds aborted (R325);
`written`: by core, the records of the frame written and T at the start of the save (R332). -/
structure Preemption where
  since : Nat
  kind : Held
  missing : List (Nat × Nat)
  framesDue : List Nat
  latePosted : Bool
  parked : List Nat
  packets : List Req
  rings : List (Nat × SavedRing)
  written : Tbl (Nat × Nat)
deriving DecidableEq, Repr

/-- One context (R297, R322, R328, R343). -/
structure Ctx where
  part : Nat
  serial : Nat
  preemption : Option Preemption
  /-- Saved, and until when it stays so. -/
  suspended : Option Held
  frames : Tbl Frame
  /-- Limit and count by core. -/
  timers : Tbl (Nat × Nat)
  /-- Packets of restored threads still to be reissued (R334). -/
  packets : List Req
deriving DecidableEq, Repr

/-! ### Partitions, debug and package (20, 21) -/

/-- A mailbox entry of MRING (R404). -/
structure MailEntry where
  kind : Nat
  pc : Nat
  owner : Nat
  tid : Nat
  b : Nat
  a : Nat
  core : Nat
  quad : Nat
  slot : Nat
deriving DecidableEq, Repr

/-- A debug command under way (R399–R403): the entry at CONS. -/
structure DbgPending where
  code : Nat
  /-- The group stepped, or the context or group stopped. -/
  target : DbgTarget
  /-- Threads still to step. -/
  todo : List Nat
  /-- The first operation and the first launch that a STEP.wait waits for. -/
  firstOp : Nat
  firstLaunch : Nat
deriving DecidableEq, Repr

/-- An attached debug monitor (R397). -/
structure Dbg where
  desc : Nat
  owner : Nat
  entry : Nat
  cring : Nat
  mring : Nat
  sring : Nat
  period : Nat
  stopCh : Bool
  claim : Bool
  slog2 : Nat
  mlog2 : Nat
  clog2 : Nat
  quad : Nat
  core : Nat
  group : Nat
  held : List MailEntry
  pending : Option DbgPending
  /-- The largest GWCT of the engine's writes, and a STATUS that waits for it (R399). -/
  wct : Nat
  due : Option Nat
deriving DecidableEq, Repr

/-- How far the slot in progress of a brine channel is (R387, R389): its header and payload asked of the host; its bytes being
written, `todo` those to come by address, with the largest GWCT so far; its word on the way to the host; or, from the device,
its header and payload on the way there. -/
inductive BrineStage where
  | fetch (r : FarReq)
  | write (owner : Nat) (todo : List (Nat × List Byte)) (gwct : Nat)
  | publish (owner : Nat) (r : FarReq)
  | send (owner : Nat) (r : FarReq) (header payload : List Byte)
deriving DecidableEq, Repr

/-- A brine channel (R385–R389). -/
structure Brine where
  opened : Bool
  hbase : Nat
  dbase : Nat
  ccaddr : Nat
  devcnt : Nat
  toHost : Bool
  log2n : Nat
  prod : Nat
  cons : Nat
  epoch : Nat
  desync : Bool
  key : List Byte
  /-- The slot in progress (R387). -/
  busy : Option BrineStage
deriving DecidableEq, Repr

/-- A partition (R367–R369). -/
structure Part where
  s2root : Nat
  ctlBase : Nat
  ctlLog2 : Nat
  ctlProd : Nat
  ctlCons : Nat
  /-- The largest GWCT that the ring's commands wait for, and a STATUS that waits for it (R369). -/
  ctlWct : Nat
  ctlDue : Option Nat
  keyBase : Nat
  keyCnt : Nat
  weight : Nat
  nextWeight : Nat
  world : Bool
  qBase : Nat
  qCnt1 : Nat
  slBase : Nat
  slCnt1 : Nat
  ownerTable : Nat
  queueTable : Nat
  fqBase : Nat
  fqLog2 : Nat
  fqProd : Nat
  fqCons : Nat
  /-- GWCTs of the records written for which PROD has not been raised yet, oldest first (R318). -/
  fqDue : List Nat
  held : List FaultRec
  nextSeq : Nat
  parked : Tbl Party
  notifyErrors : Nat
  lostEvents : Nat
  drops : Nat
  linkDrops : Nat
  balance : Nat
  spent : Nat
  previous : Nat
  descBytes : List Byte
  attestKey : List Byte
  reportDigest : List Byte
  lastMapped : Option Nat
  dbg : Option Dbg
  dbgStatus : Nat
  /-- The descriptor of an ATTACH that waits (R396). -/
  attaching : Option Nat
  brine : Tbl Brine
  overflow : Tbl (Nat × Nat)
  /-- The requests that an invalidation at the ring's head waits for (R271). -/
  invWait : Option (List Nat)
deriving DecidableEq, Repr

/-- One sub-link of a Pritch port (R390). -/
structure SubLink where
  part : Option Nat
  remote : Nat
  trained : Bool
deriving DecidableEq, Repr

/-- A direction of a stream-keyed link (R383): the current slot and the key of each slot. -/
structure LinkDir where
  current : Nat
  keys : List (List Byte)
deriving DecidableEq, Repr

/-- The package: capability figures (R393), mode, keys, links, power, counters. -/
structure Package where
  coresPerDie : Nat
  stackCount : Nat
  hbmBytes : Nat
  class2Bytes : Nat
  /-- Enabled channels of each physical stack, enabled lanes of each Pritch port, as masks (R393). -/
  channels : List Nat
  lanes : List Nat
  confidential : Bool
  fwDigest : List Byte
  ticket : Nat
  corrected : Nat
  uncorrected : Nat
  regionErrors : Nat
  mgmtBase : Nat
  mgmtLog2 : Nat
  mgmtProd : Nat
  mgmtCons : Nat
  mgmtWct : Nat
  mgmtDue : Option Nat
  keys : Tbl (List Byte)
  hostOut : LinkDir
  hostIn : LinkDir
  /-- T of the host's latest request to device memory under each stream-key slot (R383). -/
  hostInAt : Tbl Nat
  /-- One per Pritch port; its sub-links switch both directions together. -/
  ports : List LinkDir
  splits : List Nat
  sublinks : Tbl SubLink
  pool : Nat
  intervalAt : Nat
  /-- The interval's midpoint is past. -/
  midpoint : Bool
  /-- Partitions that draw a token from the pool, one entry for each token. -/
  drawers : List Nat
  /-- State of the smooth weighted round-robin, by partition (R391). -/
  robin : Tbl Int
  /-- State of the round-robin that shares energy which no partition caused (R391). -/
  idleRobin : Tbl Int
deriving DecidableEq, Repr

/-- A move: who acts next. The spec fixes no order among the agents; the agenda of the state does.
(DESIGN CHOICE, log entry 1; DEDUCED, log entry 82) -/
inductive Move where
  /-- The quadrant issues this bundle (R17). -/
  | issue (b : Bundle)
  /-- The core performs its oldest scratchpad request (R160). -/
  | spad (core : Nat)
  /-- A step of the opcode table. -/
  | act (i : Instr)
  /-- The device takes the next command of a partition's ring, or of the management ring, 16 (R369). -/
  | command (ring : Nat)
  /-- The host writes a word at an offset of the doorbell aperture (R367). -/
  | doorbell (off value : Nat)
  /-- The debug engine takes the next entry of a partition's command ring (R399). -/
  | debug (p : Nat)
  /-- A debug command under way is tested for its end (R400–R403). -/
  | debugDone (p : Nat)
deriving DecidableEq, Repr, Inhabited

/-- Reasons for which the machine stops. -/
inductive Fault where
  /-- No rule of the spec stops the LN9: traps go to handlers, translation faults park a thread, a link failure times
  out. Raised by nobody; safe. -/
  | none
deriving DecidableEq, Repr

/-- Reasons for which the model gives an instruction no meaning. -/
inductive Refusal where
  /-- An instruction the model does not reach yet, by its mnemonic; raised by `exec` alone; safe. -/
  | notModelled (mnemonic : String)
deriving DecidableEq, Repr

/-- The state of the package. -/
structure State where
  /-- The time base T (R2). (DESIGN CHOICE, log entry 3) -/
  time : Nat
  /-- The model's own: counts the steps, for free values. (DESIGN CHOICE, log entry 2) -/
  fresh : Nat
  /-- The model's own: the moves to come, first first. (DESIGN CHOICE, log entry 1) -/
  agenda : List Move
  /-- The model's own: the bundle whose instruction is being executed. (DESIGN CHOICE, log entry 2) -/
  cur : Bundle
  /-- Byte memory by physical address. -/
  mem : List Host.Cell
  undef : Tbl UndefPage
  homes : Tbl HomeLine
  /-- The largest MAXEXP of evicted lines, by slice · 2560 + set (R238). -/
  setMaxExp : Tbl Nat
  /-- The GWCT of the last write performed at each line, for a monitor that fires as it is registered (R178, R238). -/
  wrote : Tbl Nat
  poisoned : List Nat
  pageParts : Tbl Nat
  pageRecs : Tbl PageRec
  regions : List Region
  reqs : Tbl Req
  /-- Host-path requests that have timed out and whose completion may still arrive (R384). -/
  late : Tbl Req
  nextReq : Nat
  monitors : List Monitor
  sluices : List Sluice
  threads : Tbl Thread
  groups : Tbl Group
  blocks : Tbl Block
  nextBlock : Nat
  cores : Tbl Core
  quads : Tbl Quad
  /-- Generation tag of each thread slot (R324), by group key. -/
  slotTags : Tbl Nat
  mxOps : Tbl MxOp
  engOps : Tbl EngOp
  nextOp : Nat
  queues : Tbl Queue
  qslots : Tbl QSlot
  /-- By partition · 65536 + owner. -/
  childQs : Tbl ChildQ
  launches : Tbl Launch
  nextLaunch : Nat
  ctxs : Tbl Ctx
  parts : Tbl Part
  pkg : Package
deriving DecidableEq, Repr

/-! ### Reset (09 R237, 20 R394) -/

/-- The cleared bank of R42. -/
def Bank.cleared : Bank where
  bot := List.replicate 4 (List.replicate 256 1)
  ghr := List.replicate 4 0
  conf := 0x40F1
  rip := List.replicate 128 1
  spt := (List.range 32).map fun e => ⟨31 - e, false, 0, 0, 0, 0⟩
  cht := List.replicate 4 (List.replicate 64 ⟨false, 0, 0⟩)

/-- A bank whose bytes are all zero, as a core's scrub leaves it (R373). -/
def Bank.zero : Bank where
  bot := List.replicate 4 (List.replicate 256 0)
  ghr := List.replicate 4 0
  conf := 0
  rip := List.replicate 128 0
  spt := List.replicate 32 ⟨0, false, 0, 0, 0, 0⟩
  cht := List.replicate 4 (List.replicate 64 ⟨false, 0, 0⟩)

/-- An owner slot that holds no owner (R36, R231). -/
def OSlot.empty : OSlot where
  valid := false
  udivt := false
  owner := 0
  tvec := 0
  hsave := 0
  s1root := 0
  cqBase := 0
  cqLog2 := 0
  bank := .cleared
  busy := false
  counters := List.replicate 10 0
  idleSince := 0
  readyAt := 0

/-- A cursor that nothing has tagged (R212). -/
def Cursor.invalid : Cursor where
  valid := false
  tag := 0
  base0 := 0
  base1 := 0
  len0 := 0
  len1 := 0
  spl := 0
  enc0 := 0
  enc1 := 0
  mode := 0
  pos0 := 0
  pos1 := 0
  segc := 0
  drawn := 0
  done := false

/-- A core after the scrub (R373, R394): idle, nothing in it; the carve-out is 128 KiB. (DESIGN CHOICE, log entry 5) -/
def Core.scrubbed : Core where
  part := none
  carve := 0
  carveTo := none
  oslots := List.replicate 4 .empty
  rings := List.replicate 4 Ring.none
  records := []
  icache := []
  aheads := []
  tlb := []
  walks := []
  l1 := []
  badL1 := []
  images := []
  stretch := 0
  smpdrop := 0
  samples := []
  spadQueue := []
  frozen := none
  leaving := false

/-- A quadrant after reset; its first sample is of slot 0 (R405). (DESIGN CHOICE, log entry 5; DEDUCED, log entry 101) -/
def Quad.scrubbed : Quad where
  selections := 0
  openChain := none
  formed := []
  lastIssue := none
  lastSelect := none
  trained := none
  lastBundle := (0, [])
  deferred := []
  recentShort := []
  yielded := []
  cursors := List.replicate 4 .invalid
  drawing := []
  samplePtr := 15
  sampledAt := none
  tlb := []

/-- A region that belongs to no partition, with EN 0 (R264, R372). -/
def Region.empty : Region where
  part := none
  en := false
  ro := false
  vbase := 0
  sbase := 0
  xbase := 0
  vpages := 0
  p0 := 0
  dither := false
  sfmt := 0
  vfmt := 0
  stale := []

/-- A full part (R1, R3) in open mode (R374), with the management ring placed (R369, R394).
(DESIGN CHOICE, log entries 4, 5) -/
def Package.reset : Package where
  coresPerDie := 64
  stackCount := 12
  hbmBytes := 12 * 64 * 2 ^ 30
  class2Bytes := 0
  channels := List.replicate 12 (2 ^ 32 - 1)
  lanes := List.replicate 8 (2 ^ 16 - 1)
  confidential := false
  fwDigest := Config.freeBytes 0 0
  ticket := 0
  corrected := 0
  uncorrected := 0
  regionErrors := 0
  mgmtBase := 0x400000000000
  mgmtLog2 := 6
  mgmtProd := 0
  mgmtCons := 0
  mgmtWct := 0
  mgmtDue := none
  keys := []
  hostOut := ⟨0, [[], []]⟩
  hostIn := ⟨0, [[], []]⟩
  hostInAt := []
  ports := List.replicate 8 ⟨0, [[], []]⟩
  splits := List.replicate 8 0
  sublinks := []
  pool := 180
  intervalAt := 0
  midpoint := false
  drawers := []
  robin := []
  idleRobin := []

/-- The package right after reset: HBM zero with every page record NONE, no partition, every core idle and
scrubbed (R394), every L1 line invalid, every MAXEXP and wct 0 (R237). A core, quadrant, queue or slot without an
entry in its table is in its reset state. (DESIGN CHOICE, log entries 3, 5) -/
def State.reset : State where
  time := 0
  fresh := 0
  agenda := []
  cur := ⟨0, []⟩
  mem := []
  undef := []
  homes := []
  setMaxExp := []
  wrote := []
  poisoned := []
  pageParts := []
  pageRecs := []
  regions := List.replicate 16 .empty
  reqs := []
  late := []
  nextReq := 0
  monitors := []
  sluices := List.replicate 4 ⟨[], [], [], 0, [], []⟩
  threads := []
  groups := []
  blocks := []
  nextBlock := 0
  cores := []
  quads := []
  slotTags := []
  mxOps := []
  engOps := []
  nextOp := 0
  queues := []
  qslots := []
  childQs := []
  launches := []
  nextLaunch := 0
  ctxs := []
  parts := []
  pkg := .reset

end Sys2Proof.Machine
end

