-- ==== Sys2Proof/Machine/Table.lean ====
section
/-! DEFINITION. Operations on the tables of the state. A table holds one entry per key, in
rising order of the keys when every entry went in through `Tbl.put`, so that equal tables are equal data. -/

namespace Sys2Proof.Machine

/-- The value at a key. -/
def Tbl.find {α : Type} : Tbl α → Nat → Option α
  | [], _ => none
  | (j, v) :: t, k => if j = k then some v else Tbl.find t k

/-- The table with a value put at a key. -/
def Tbl.put {α : Type} (k : Nat) (v : α) : Tbl α → Tbl α
  | [] => [(k, v)]
  | (j, w) :: t => if k < j then (k, v) :: (j, w) :: t else if k = j then (k, v) :: t else (j, w) :: Tbl.put k v t

/-- The table without a key. -/
def Tbl.del {α : Type} (k : Nat) : Tbl α → Tbl α
  | [] => []
  | (j, w) :: t => if j = k then t else (j, w) :: Tbl.del k t

/-- The table with the value at a key changed, if it has one. -/
def Tbl.change {α : Type} (k : Nat) (f : α → α) (t : Tbl α) : Tbl α :=
  match Tbl.find t k with
  | some v => Tbl.put k (f v) t
  | none => t

/-- The table with every value changed. -/
def Tbl.changeAll {α : Type} (f : Nat → α → α) (t : Tbl α) : Tbl α := t.map fun kv => (kv.1, f kv.1 kv.2)

/-- The keys. -/
def Tbl.keys {α : Type} (t : Tbl α) : List Nat := t.map (·.1)

/-- The keys rise strictly. -/
def Tbl.sorted {α : Type} : Tbl α → Bool
  | [] => true
  | [_] => true
  | a :: b :: t => decide (a.1 < b.1) && Tbl.sorted (b :: t)

/-! ### Byte memories (canonical: addresses strictly rising, no entry that an unlisted address would read as) -/

/-- What a byte that nothing has written reads as (R394 for HBM; log entry 7 for the rest). -/
def Memory.blank : Byte := 0

/-- One byte. (DESIGN CHOICE, log entry 6) -/
def Memory.get (m : List Host.Cell) (a : Nat) : Byte := (Tbl.find m a).getD Memory.blank

/-- One byte written. (DESIGN CHOICE, log entry 7) -/
def Memory.set (m : List Host.Cell) (a : Nat) (b : Byte) : List Host.Cell :=
  if b = Memory.blank then Tbl.del a m else Tbl.put a b m

/-- The canonical form. (DESIGN CHOICE, log entry 7) -/
def Memory.wf (m : List Host.Cell) : Bool := Tbl.sorted m && m.all fun c => c.2 != Memory.blank

/-- The bytes from an address on. -/
def Memory.read (m : List Host.Cell) (a : Nat) : Nat → List Byte
  | 0 => []
  | n + 1 => Memory.get m a :: Memory.read m (a + 1) n

/-- Bytes written from an address on. (DESIGN CHOICE, log entry 7) -/
def Memory.write (m : List Host.Cell) (a : Nat) : List Byte → List Host.Cell
  | [] => m
  | b :: bs => Memory.write (Memory.set m a b) (a + 1) bs

end Sys2Proof.Machine
end

