-- ==== Sys2Proof/Machine/Access.lean ====
section
/-! DEFINITION. Names for the parts of the state: the keys of threads, groups, quadrants and cores (01 R11, 13), reads
with the reset value where a table lists nothing, and updates. -/

namespace Sys2Proof.Machine

/-! ### Keys -/

def laneOf (k : Nat) : Nat := k % 32
def slotOf (k : Nat) : Nat := k / 32 % 16
def quadOf (k : Nat) : Nat := k / 512 % 4
def coreOf (k : Nat) : Nat := k / 2048
/-- The group key of a thread. -/
def groupOf (k : Nat) : Nat := k / 32
/-- The quadrant key of a thread. -/
def quadKeyOf (k : Nat) : Nat := k / 512
/-- The key of the thread in a lane of a group. -/
def threadKey (g lane : Nat) : Nat := g * 32 + lane
/-- The key of a group by core, quadrant and slot. -/
def groupKey (core quad slot : Nat) : Nat := (core * 4 + quad) * 16 + slot
/-- A mask with one bit. -/
def laneBit (k : Nat) : BitVec 32 := BitVec.ofNat 32 (2 ^ laneOf k)

/-! ### Blank entries: what a key without an entry reads as -/

def Ident.blank : Ident := ⟨0, 1, 0, 0, 0, 1, 1, 1, 1, 0⟩

/-- The trap state at a thread's start (R20). -/
def TrapState.clear : TrapState := ⟨0, 0, 0, 0, List.replicate 8 0, List.replicate 7 0⟩

/-- A thread at its start (R20), with an allocation of `a` registers; `pc` is the entry. -/
def Thread.start (id : Ident) (a pc : Nat) : Thread where
  ident := id
  regs := List.replicate a 0
  preds := 0
  ks := List.replicate 4 0
  fpc := 0
  fps := 0
  pc := pc
  handler := false
  state := .ready
  stopped := false
  trap := .clear
  chain := false
  latch := []
  wctPkg := 0
  wctSys := 0
  capsule := none
  seq := 0
  epoch := 0
  poison := []
  hazards := []
  bad := []
  readyAt := 0
  holdTill := 0
  startTill := 0
  stepTrap := false
  stepping := false
  memo := []
  stalledAt := 0
  counted := false
  stepDue := false

/-- What a lane that holds no thread reads as: an ended thread. -/
def Thread.blank : Thread := { Thread.start .blank 0 0 with state := .ended }

/-- Registers written: an error that struck them is gone (R276). -/
def Thread.heal (base n : Nat) (t : Thread) : Thread := { t with bad := t.bad.filter fun r => !(base ≤ r && r < base + n) }

/-- The thread is Stopped (R13). One that entered a wait in a single step stays Waiting until it is released (R402). -/
def Thread.isStopped (t : Thread) : Bool :=
  t.stopped && !(t.stepping && match t.state with | .waiting _ => true | _ => false)

/-- A thread becomes Ready at this T. -/
def Thread.ready (now : Nat) (t : Thread) : Thread := { t with state := .ready, readyAt := now }

/-- A thread whose wait is over: Ready, but a Stopped one only once it continues (R400). -/
def Thread.release (now : Nat) (t : Thread) : Thread := if t.isStopped then { t with state := .waiting .none } else t.ready now

def Group.blank : Group where
  block := 0
  grp := 0
  cont := false
  alloc := 16
  oslot := 0
  regBase := 0
  live := 0
  s := List.replicate 64 0
  enrolled := List.replicate 8 0
  arrived := List.replicate 8 0
  udiv := false
  leader := none
  mark := 0
  badS := []

def Barrier.idle : Barrier := ⟨false, 0, false, 0⟩

def Block.blank : Block where
  core := 0
  grid := 0
  ident := .blank
  alloc := 16
  scratch := 0
  spadBase := 0
  spad := []
  badSpad := []
  bars := List.replicate 16 .idle
  windows := []
  children := []
  kernel := 0
  cbase := 0
  cunits := 0
  oslot := 0
  q0 := 0
  groups := []
  retired := false
  cont := false
  wctMax := 0

/-- A partition as PART_CREATE finds it: nothing set. (DESIGN CHOICE, log entry 5) -/
def Part.blank : Part where
  s2root := 0
  ctlBase := 0
  ctlLog2 := 0
  ctlProd := 0
  ctlCons := 0
  ctlWct := 0
  ctlDue := none
  keyBase := 0
  keyCnt := 0
  weight := 0
  nextWeight := 0
  world := false
  qBase := 0
  qCnt1 := 0
  slBase := 0
  slCnt1 := 0
  ownerTable := 0
  queueTable := 0
  fqBase := 0
  fqLog2 := 0
  fqProd := 0
  fqCons := 0
  fqDue := []
  held := []
  nextSeq := 1
  parked := []
  notifyErrors := 0
  lostEvents := 0
  drops := 0
  linkDrops := 0
  balance := 0
  spent := 0
  previous := 0
  descBytes := []
  attestKey := []
  reportDigest := []
  lastMapped := none
  dbg := none
  dbgStatus := 0
  attaching := none
  brine := []
  overflow := []
  invWait := none

def Ctx.blank (p : Nat) : Ctx where
  part := p
  serial := 0
  preemption := none
  suspended := none
  frames := []
  timers := []
  packets := []

def Queue.idle : Queue := ⟨0, 0, false, false, none, none⟩

/-! ### Reads -/

def State.thr (s : State) (k : Nat) : Thread := (s.threads.find k).getD .blank
def State.grp (s : State) (g : Nat) : Group := (s.groups.find g).getD .blank
def State.blk (s : State) (b : Nat) : Block := (s.blocks.find b).getD .blank
def State.coreAt (s : State) (c : Nat) : Core := (s.cores.find c).getD .scrubbed
def State.quadAt (s : State) (q : Nat) : Quad := (s.quads.find q).getD .scrubbed
def State.queueAt (s : State) (q : Nat) : Queue := (s.queues.find q).getD .idle
def State.partAt (s : State) (p : Nat) : Part := (s.parts.find p).getD .blank
def State.ctxAt (s : State) (c : Nat) : Ctx := (s.ctxs.find c).getD (.blank 0)
def State.slotAt (s : State) (core o : Nat) : OSlot := (s.coreAt core).oslots.getD o .empty
/-- The partition of a core; 0 where the core has none. -/
def State.partOf (s : State) (core : Nat) : Nat := (s.coreAt core).part.getD 0
/-- A thread's group. -/
def State.grpOf (s : State) (k : Nat) : Group := s.grp (groupOf k)
/-- A thread's block. -/
def State.blkOf (s : State) (k : Nat) : Block := s.blk (s.grpOf k).block
/-- The owner slot of a thread's group on its core. -/
def State.slotOfThread (s : State) (k : Nat) : OSlot := s.slotAt (coreOf k) (s.grpOf k).oslot
/-- The launch of a thread's grid. -/
def State.launchOf (s : State) (k : Nat) : Option Launch := s.launches.find (s.blkOf k).grid
/-- The number that stands for no context: the debug monitor's group has none (R398). -/
def noCtx : Nat := 4096
/-- The context of a grid. -/
def State.ctxOfGrid (s : State) (g : Nat) : Nat := ((s.launches.find g).map (·.ctx)).getD noCtx

/-- A child launch has completed (R112): it waits in no child queue and its grid is not running. -/
def State.childDone (s : State) (l : Nat) : Bool :=
  !(s.childQs.any fun q => q.2.waiting.any fun c => c.launch == l)
    && (match s.launches.find l with
        | some x => x.complete
        | none => true)

/-- A partition with a balance of 0 and an empty pool issues on every fourth cycle (R392). -/
def State.throttled (s : State) (core : Nat) : Bool :=
  s.pkg.pool == 0 && (match (s.coreAt core).part with
    | some p => (s.parts.find p).isSome && (s.partAt p).balance == 0
    | none => false)

/-! ### Updates -/

def State.setThr (s : State) (k : Nat) (t : Thread) : State := { s with threads := s.threads.put k t }
def State.modThr (s : State) (k : Nat) (f : Thread → Thread) : State := { s with threads := s.threads.change k f }
def State.modGrp (s : State) (g : Nat) (f : Group → Group) : State := { s with groups := s.groups.change g f }
def State.modBlk (s : State) (b : Nat) (f : Block → Block) : State := { s with blocks := s.blocks.change b f }
def State.modCore (s : State) (c : Nat) (f : Core → Core) : State := { s with cores := s.cores.put c (f (s.coreAt c)) }
def State.modQuad (s : State) (q : Nat) (f : Quad → Quad) : State := { s with quads := s.quads.put q (f (s.quadAt q)) }
def State.modQueue (s : State) (q : Nat) (f : Queue → Queue) : State :=
  { s with queues := s.queues.put q (f (s.queueAt q)) }
def State.modPart (s : State) (p : Nat) (f : Part → Part) : State := { s with parts := s.parts.change p f }
def State.modCtx (s : State) (c : Nat) (f : Ctx → Ctx) : State := { s with ctxs := s.ctxs.change c f }
def State.modLaunch (s : State) (l : Nat) (f : Launch → Launch) : State :=
  { s with launches := s.launches.change l f }
def State.modReq (s : State) (r : Nat) (f : Req → Req) : State := { s with reqs := s.reqs.change r f }
def State.modEng (s : State) (e : Nat) (f : EngOp → EngOp) : State := { s with engOps := s.engOps.change e f }
def State.modSlot (s : State) (core o : Nat) (f : OSlot → OSlot) : State :=
  s.modCore core fun c => { c with oslots := c.oslots.modify o f }
def State.modPkg (s : State) (f : Package → Package) : State := { s with pkg := f s.pkg }

/-- The next draw of a free value: `fresh` counts steps, so draws within one step differ by their purpose. -/
def State.free (s : State) (purpose : Nat) : Nat := Config.freeNat s.fresh purpose

/-- The threads of a table whose group satisfies a test, in ascending key order. -/
def State.threadsIn (s : State) (p : Nat → Bool) : List Nat := s.threads.keys.filter p

/-- The live threads of a block (R12). -/
def State.liveOfBlock (s : State) (b : Nat) : List Nat :=
  (s.threads.filter fun kt => kt.2.state != .ended && (s.grpOf kt.1).block == b
    && (s.grpOf kt.1).live.getLsbD (laneOf kt.1)).map (·.1)

/-- A list with an element replaced, extended with `d` where it is too short. -/
def listSet {α : Type} (l : List α) (i : Nat) (v : α) : List α := l.set i v

/-- Whether any element of a run of registers [b, b + n) meets another. -/
def overlaps (a n b m : Nat) : Bool := decide (a < b + m ∧ b < a + n)

end Sys2Proof.Machine
end

