-- ==== Sys2Proof/Machine/Fp.lean ====
section
/-! DEFINITION. Floating-point formats and exact arithmetic (02 R45–R59): decoding, exact values as dyadic numbers
with a sticky bit, Round in its five modes, the events of a result, and the functions of R131.

An exact value is (−1)^neg · (m + ε) · 2^e with 0 ≤ ε < 1, where ε > 0 exactly when `sticky` is set; a sticky value
carries at least 60 leading bits, so every comparison that Round makes is decided by m and the sticky bit. -/

namespace Sys2Proof.Machine

/-- The floating formats of R45. -/
inductive Fmt where
  | f32
  | f16
  | bf16
  | e4m3
  | e5m2
  | e2m1
deriving DecidableEq, Repr

/-- Fraction bits of a format. -/
def Fmt.fbits : Fmt → Nat
  | .f32 => 23 | .f16 => 10 | .bf16 => 7 | .e4m3 => 3 | .e5m2 => 2 | .e2m1 => 1

/-- Exponent bits of a format. -/
def Fmt.ebits : Fmt → Nat
  | .f32 => 8 | .f16 => 5 | .bf16 => 8 | .e4m3 => 4 | .e5m2 => 5 | .e2m1 => 2

/-- Exponent bias of a format. -/
def Fmt.bias : Fmt → Nat
  | .f32 => 127 | .f16 => 15 | .bf16 => 127 | .e4m3 => 7 | .e5m2 => 15 | .e2m1 => 1

/-- Width of a format in bits. -/
def Fmt.width (F : Fmt) : Nat := 1 + F.ebits + F.fbits

/-- E4M3 and E2M1 have no infinity. -/
def Fmt.hasInf : Fmt → Bool
  | .e4m3 | .e2m1 => false
  | _ => true

/-- The largest finite value is `maxM · 2^maxUlp`. -/
def Fmt.maxM : Fmt → Nat
  | .f32 => 2 ^ 24 - 1 | .f16 => 2 ^ 11 - 1 | .bf16 => 2 ^ 8 - 1 | .e4m3 => 14 | .e5m2 => 7 | .e2m1 => 3

def Fmt.maxUlp : Fmt → Int
  | .f32 => 104 | .f16 => 5 | .bf16 => 120 | .e4m3 => 5 | .e5m2 => 13 | .e2m1 => 1

/-- The bits of the largest finite value. -/
def Fmt.maxBits : Fmt → Nat
  | .f32 => 0x7F7FFFFF | .f16 => 0x7BFF | .bf16 => 0x7F7F | .e4m3 => 0x7E | .e5m2 => 0x7B | .e2m1 => 7

/-- The canonical NaN (R46); an E2M1 element that would be NaN is +0. -/
def Fmt.nanBits : Fmt → Nat
  | .f32 => 0x7FC00000 | .f16 => 0x7E00 | .bf16 => 0x7FC0 | .e4m3 => 0x7F | .e5m2 => 0x7E | .e2m1 => 0

/-- The bits of +∞; unused for the formats without one. -/
def Fmt.infBits : Fmt → Nat
  | .f32 => 0x7F800000 | .f16 => 0x7C00 | .bf16 => 0x7F80 | .e5m2 => 0x7C | .e4m3 => 0x7F | .e2m1 => 7

/-- The sign bit placed above the magnitude bits of a format. -/
def Fmt.signed (F : Fmt) (neg : Bool) (mag : Nat) : Nat :=
  if neg then 2 ^ (F.width - 1) + mag else mag

/-- A format code of R123; codes past 5 name no floating format and read as FP32. -/
def fmtOf (n : Nat) : Fmt :=
  match n with
  | 1 => .f16 | 2 => .bf16 | 3 => .e4m3 | 4 => .e5m2 | 5 => .e2m1 | _ => .f32

/-- An exact operand or term: NaN, an indeterminate form, an infinity or a finite value with its sign. -/
inductive FVal where
  | nan
  | indet
  | inf (neg : Bool)
  | fin (neg : Bool) (m : Nat) (e : Int) (sticky : Bool)
deriving DecidableEq, Repr

def FVal.isNan : FVal → Bool
  | .nan => true
  | _ => false

def FVal.isFin : FVal → Bool
  | .fin .. => true
  | _ => false

def FVal.isZero : FVal → Bool
  | .fin _ 0 _ false => true
  | _ => false

def FVal.sign : FVal → Bool
  | .inf n => n
  | .fin n _ _ _ => n
  | _ => false

def FVal.negate : FVal → FVal
  | .inf n => .inf !n
  | .fin n m e s => .fin (!n) m e s
  | v => v

/-- +0. -/
def FVal.zero : FVal := .fin false 0 0 false

/-- An integer as an exact value. -/
def FVal.ofInt (v : Int) : FVal := .fin (decide (v < 0)) v.natAbs 0 false

/-- The value of the bits of an element (R45). -/
def decodeF (F : Fmt) (bs : Nat) : FVal :=
  let neg := bit bs (F.width - 1)
  let E := field bs F.fbits F.ebits
  let M := field bs 0 F.fbits
  let special := match F with
    | .e2m1 => false
    | .e4m3 => E == 15 && M == 7
    | _ => E == 2 ^ F.ebits - 1
  if special then (if F == .e4m3 || M != 0 then .nan else .inf neg)
  else if E == 0 then .fin neg M (1 - (F.bias : Int) - F.fbits) false
  else .fin neg (2 ^ F.fbits + M) ((E : Int) - F.bias - F.fbits) false

/-- A subnormal element of a format, by its bits. -/
def isSubnormal (F : Fmt) (bs : Nat) : Bool := field bs F.fbits F.ebits == 0 && field bs 0 F.fbits != 0

/-- FTZ applies to FP32 and FP16 alone (R47). -/
def flushable : Fmt → Bool
  | .f32 | .f16 => true
  | _ => false

/-- An operand element under FTZ (R47). -/
def readF (F : Fmt) (ftz : Bool) (bs : Nat) : FVal :=
  if ftz && flushable F && isSubnormal F bs then .fin (bit bs (F.width - 1)) 0 0 false else decodeF F bs

/-! ### Rounding (R52, R53) -/

/-- The rounding modes of R31. -/
inductive RMode where
  | rn
  | rz
  | ru
  | rd
  | sr
deriving DecidableEq, Repr

/-- The mode that fpc.RM names; 5 to 7 are never held (R31). -/
def modeOfRM (n : Nat) : RMode :=
  match n with
  | 1 => .rz | 2 => .ru | 3 => .rd | 4 => .sr | _ => .rn

/-- The mode of a rounding field (R123): 0 names fpc.RM. -/
def modeOfRnd (rnd : Nat) (fpc : Word) : RMode :=
  match rnd with
  | 0 => modeOfRM (field fpc.toNat 0 3)
  | 1 => .rn | 2 => .rz | 3 => .ru | 4 => .rd | _ => .sr

/-- The five bits of a number below 32 in reverse order (R53). -/
def bitrev5 (n : Nat) : Nat :=
  field n 0 1 * 16 + field n 1 1 * 8 + field n 2 1 * 4 + field n 3 1 * 2 + field n 4 1

/-- Events of one element (R55): IV, DZ, OF, NF at bits 0 to 3, as in fps. -/
abbrev Events := BitVec 4

def evIV : Events := 1
def evDZ : Events := 2
def evOF : Events := 4
def evNF : Events := 8

/-- Whether Round takes the neighbour away from zero, for a quotient q, remainder r of `2^sh`, sticky, sign. -/
def roundsUp (mode : RMode) (t32 : Nat) (neg sticky : Bool) (q r sh : Nat) : Bool :=
  let inexact := r != 0 || sticky
  match mode with
  | .rn => decide (2 * r > 2 ^ sh) || (2 * r == 2 ^ sh && (sticky || q % 2 == 1))
  | .rz => false
  | .ru => !neg && inexact
  | .rd => neg && inexact
  | .sr => decide (32 * r > t32 * 2 ^ sh) || (32 * r == t32 * 2 ^ sh && sticky)

/-- The overflow result of R52 as magnitude bits. -/
def overflowBits (F : Fmt) (mode : RMode) (neg : Bool) : Nat :=
  if !F.hasInf then F.maxBits
  else match mode with
    | .rn | .sr => F.infBits
    | .rz => F.maxBits
    | .ru => if neg then F.maxBits else F.infBits
    | .rd => if neg then F.infBits else F.maxBits

/-- |m·2^e| exceeds the largest finite value of F. -/
def exceedsMax (F : Fmt) (m : Nat) (e : Int) (sticky : Bool) : Bool :=
  if e ≥ F.maxUlp then decide (m * 2 ^ (e - F.maxUlp).toNat > F.maxM) || (sticky && m * 2 ^ (e - F.maxUlp).toNat == F.maxM)
  else
    let sc := F.maxM * 2 ^ (F.maxUlp - e).toNat
    decide (m > sc) || (m == sc && sticky)

/-- Round of R52 on a finite value: the element's bits and whether OF occurs. `t32` is 32 times the dither threshold. -/
def roundFin (F : Fmt) (mode : RMode) (t32 : Nat) (neg : Bool) (m : Nat) (e : Int) (sticky : Bool) : Nat × Bool :=
  if m = 0 then (F.signed neg 0, false)
  else
    let mode := if mode = .sr && exceedsMax F m e sticky then .rn else mode
    let top : Int := (Nat.log2 m : Int) + e
    let ulp := max (top - F.fbits) (1 - (F.bias : Int) - F.fbits)
    let sh := (ulp - e).toNat
    let q := if ulp ≥ e then m / 2 ^ sh else m * 2 ^ (e - ulp).toNat
    let r := if ulp ≥ e then m % 2 ^ sh else 0
    let q' := if roundsUp mode t32 neg sticky q r sh then q + 1 else q
    if ulp ≥ F.maxUlp && q' * 2 ^ (ulp - F.maxUlp).toNat > F.maxM then (F.signed neg (overflowBits F mode neg), true)
    else if q' < 2 ^ F.fbits then (F.signed neg q', false)
    else (F.signed neg ((ulp + F.fbits + F.bias).toNat * 2 ^ F.fbits + (q' - 2 ^ F.fbits)), false)

/-- 32 times the dither threshold of position i and phase P (R53). -/
def dither32 (i P : Nat) : Nat := bitrev5 ((i + P) % 32)

/-- Result(v, F) of R124 with the replacements for E4M3 and E2M1: bits and events. `allFin`: every operand element is
finite; `pos`, `phase`: the dither's position and phase. -/
def resultF (F : Fmt) (mode : RMode) (pos phase : Nat) (ftz allFin : Bool) (v : FVal) : Nat × Events :=
  let nf : Events := if allFin then evNF else 0
  match v with
  | .indet =>
    match F with
    | .e2m1 => (0, evIV)
    | _ => (F.nanBits, evIV ||| nf)
  | .nan =>
    match F with
    | .e2m1 => (0, evIV)
    | _ => (F.nanBits, 0)
  | .inf neg =>
    match F with
    | .e4m3 => (0x7F, evIV)
    | .e2m1 => (F.signed neg 7, evIV)
    | _ => (F.signed neg F.infBits, nf)
  | .fin neg m e st =>
    let (w, ovf) := roundFin F mode (dither32 pos phase) neg m e st
    let w := if ftz && flushable F && isSubnormal F w then F.signed neg 0 else w
    let isInf := F.hasInf && w % 2 ^ (F.width - 1) == F.infBits
    (w, (if ovf then evOF else 0) ||| (if isInf then nf else 0))

/-! ### Exact operations (R9, R48, R57) -/

/-- A product of two elements: 0 × ∞ is indeterminate. -/
def mulF (a b : FVal) : FVal :=
  match a, b with
  | .indet, _ | _, .indet => .indet
  | .nan, _ | _, .nan => .nan
  | .inf s, .inf t => .inf (s != t)
  | .inf s, .fin t m _ _ => if m = 0 then .indet else .inf (s != t)
  | .fin s m _ _, .inf t => if m = 0 then .indet else .inf (s != t)
  | .fin s m e _, .fin t n f _ => .fin (s != t) (m * n) (e + f) false

/-- A finite term as an integer multiple of 2^e0, for e0 not above its exponent. -/
def scaledTo (e0 : Int) : FVal → Int
  | .fin n m e _ => let v : Int := m * 2 ^ (e - e0).toNat; if n then -v else v
  | _ => 0

/-- The lowest exponent among the finite terms. -/
def minExp : List FVal → Int → Int
  | [], e => e
  | .fin _ m f _ :: ts, e => minExp ts (if m = 0 then e else min f e)
  | _ :: ts, e => minExp ts e

/-- An exact sum (R57): an invalid term, or infinities of both signs, make it indeterminate; then a NaN makes it
NaN; an exact zero takes its sign by R48, `down` being the mode toward −∞. (DEDUCED, log entry 77) -/
def sumF (down : Bool) (ts : List FVal) : FVal :=
  let infs := ts.filterMap fun t => match t with | .inf n => some n | _ => none
  if ts.any (· == .indet) || (infs.contains true && infs.contains false) then .indet
  else if ts.any FVal.isNan then .nan
  else match infs with
    | n :: _ => .inf n
    | [] =>
      let e0 := minExp ts 1024
      let v := ts.foldl (fun acc t => acc + scaledTo e0 t) (0 : Int)
      if v = 0 then
        .fin (down || (!ts.isEmpty && ts.all fun t => t.isZero && t.sign)) 0 0 false
      else .fin (decide (v < 0)) v.natAbs e0 false

/-- Comparison of two finite or infinite values as real numbers: `a < b`. -/
def ltF (a b : FVal) : Bool :=
  match a, b with
  | .inf s, .inf t => s && !t
  | .inf s, .fin .. => s
  | .fin .., .inf t => !t
  | .fin .., .fin .. =>
    let e0 := minExp [a, b] 1024
    decide (scaledTo e0 a < scaledTo e0 b)
  | _, _ => false

/-- Equality as real numbers: −0 equals +0. -/
def eqF (a b : FVal) : Bool :=
  match a, b with
  | .inf s, .inf t => s == t
  | .fin .., .fin .. =>
    let e0 := minExp [a, b] 1024
    decide (scaledTo e0 a = scaledTo e0 b)
  | _, _ => false

/-- The order of FMIN and FMAX (R127): −0 is below +0. -/
def ltSignedZero (a b : FVal) : Bool := ltF a b || (eqF a b && a.sign && !b.sign)

/-- FP32 bits of an operand after FTZ, a NaN canonical. -/
def canonF32 (ftz : Bool) (bs : Nat) : Nat :=
  match readF .f32 ftz bs with
  | .nan => Fmt.f32.nanBits
  | .fin n 0 _ _ => Fmt.f32.signed n 0
  | _ => bs

/-- FMIN and FMAX of FP32 bits (R127). -/
def minMaxF32 (isMax ftz : Bool) (a b : Nat) : Nat :=
  let va := readF .f32 ftz a
  let vb := readF .f32 ftz b
  if va.isNan && vb.isNan then Fmt.f32.nanBits
  else if va.isNan then canonF32 ftz b
  else if vb.isNan then canonF32 ftz a
  else if ltSignedZero va vb == isMax then canonF32 ftz b else canonF32 ftz a

/-! ### Integer square root and fixed-point series -/

/-- One Newton descent toward the integer square root, from a value not below it. -/
def isqrtGo (n : Nat) : Nat → Nat → Nat
  | 0, x => x
  | k + 1, x =>
    let y := (x + n / x) / 2
    if y < x then isqrtGo n k y else x

/-- The integer square root of n. -/
def isqrt (n : Nat) : Nat :=
  if n = 0 then 0 else isqrtGo n 64 (2 ^ (Nat.log2 n / 2 + 1))

/-- Working precision of the series of R131, in fraction bits. -/
def wp : Nat := 448

/-- Σ x^(2k+1)/(2k+1) at precision `wp` for x = 1/n: terms k … , sign alternating when `alt`. -/
def atanSum (n : Nat) (alt : Bool) : Nat → Nat → Nat → Int
  | 0, _, _ => 0
  | fuel + 1, k, pw =>
    let t : Int := pw / (2 * k + 1)
    (if alt && k % 2 == 1 then -t else t) + atanSum n alt fuel (k + 1) (pw / (n * n))

/-- ln 2 · 2^wp = 2·artanh(1/3). -/
def ln2Fix : Nat := (2 * atanSum 3 false 160 0 (2 ^ wp / 3)).toNat

/-- π · 2^wp = 16·arctan(1/5) − 4·arctan(1/239). -/
def piFix : Nat := (16 * atanSum 5 true 110 0 (2 ^ wp / 5) - 4 * atanSum 239 true 40 0 (2 ^ wp / 239)).toNat

/-- Σ x^k/k! from the term `t` of index k on, at precision `wp`, 0 ≤ x ≤ 1. -/
def expSum (x : Nat) : Nat → Nat → Nat → Nat
  | 0, _, _ => 0
  | fuel + 1, k, t => t + expSum x fuel (k + 1) (t * x / 2 ^ wp / (k + 1))

/-- e^x · 2^wp for a fixed-point x in [0, 1]. -/
def expFix (x : Nat) : Nat := expSum x 100 0 (2 ^ wp)

/-- Σ (−1)^k x^(2k+1)/(2k+1)! from the term `t` of index k on. -/
def sinSum (x2 : Nat) : Nat → Nat → Nat → Int
  | 0, _, _ => 0
  | fuel + 1, k, t =>
    (if k % 2 == 1 then -(t : Int) else (t : Int)) + sinSum x2 fuel (k + 1) (t * x2 / 2 ^ wp / ((2 * k + 2) * (2 * k + 3)))

/-- sin x · 2^wp for a fixed-point x in [0, π/2]. -/
def sinFix (x : Nat) : Nat := (sinSum (x * x / 2 ^ wp) 60 0 x).toNat

/-- Digits of log2 of y/2^wp in [1, 2), by repeated squaring: `n` binary digits. -/
def log2Digits : Nat → Nat → Nat → Nat
  | 0, _, acc => acc
  | n + 1, y, acc =>
    let z := y * y / 2 ^ wp
    if z ≥ 2 ^ (wp + 1) then log2Digits n (z / 2) (2 * acc + 1) else log2Digits n z (2 * acc)

/-- 2^(x) of a positive irrational result: drops 64 guard bits and sets the sticky bit. -/
def stickyFix (neg : Bool) (v : Nat) (e : Int) : FVal := .fin neg (v / 2 ^ 64) (e + 64) true

/-- A dyadic m·2^e, m < 2^24, as a fixed-point number of `wp` fraction bits, floor. -/
def toFix (m : Nat) (e : Int) : Nat :=
  let k := e + wp
  if k ≥ 0 then m * 2 ^ k.toNat else m / 2 ^ (-k).toNat

/-! ### The functions of R131 on a finite operand -/

/-- 1/(m·2^e). -/
def rcpFin (neg : Bool) (m : Nat) (e : Int) : FVal :=
  let k := Nat.log2 m + 64
  .fin neg (2 ^ k / m) (-(k : Int) - e) (2 ^ k % m != 0)

/-- √(m·2^e). -/
def sqrtFin (m : Nat) (e : Int) : FVal :=
  let odd := e % 2 != 0
  let m' := (if odd then 2 * m else m) * 4 ^ 64
  let e' := (if odd then e - 1 else e) / 2 - 64
  let s := isqrt m'
  .fin false s e' (s * s != m')

/-- 1/√(m·2^e). -/
def rsqFin (m : Nat) (e : Int) : FVal :=
  let odd := e % 2 != 0
  let m' := if odd then 2 * m else m
  let e' := (if odd then e - 1 else e) / 2
  let k := Nat.log2 m' + 64
  let s := isqrt (4 ^ k / m')
  .fin false s (-(k : Int) - e') (m' * (s * s) != 4 ^ k)

/-- 2^(±m·2^e); exponents past the range of FP32 are cut to 2^±400. -/
def ex2Fin (neg : Bool) (m : Nat) (e : Int) : FVal :=
  if m = 0 then .fin false 1 0 false
  else if (Nat.log2 m : Int) + e ≥ 9 then (if neg then .fin false (2 ^ 64) (-464) true else .fin false 1 400 false)
  else
    let whole := if e ≥ 0 then m * 2 ^ e.toNat else m / 2 ^ (-e).toNat
    let frac := if e ≥ 0 then 0 else m % 2 ^ (-e).toNat
    if frac = 0 then .fin false 1 (if neg then -(whole : Int) else whole) false
    else
      let d := (-e).toNat
      let n : Int := if neg then -(whole : Int) - 1 else whole
      let f := if neg then 2 ^ d - frac else frac
      let x := f * ln2Fix / 2 ^ d
      stickyFix false (expFix x) (n - wp)

/-- log2(m·2^e), m ≠ 0; the sign of an exact zero by R48. -/
def lg2Fin (down : Bool) (m : Nat) (e : Int) : FVal :=
  let t := Nat.log2 m
  let n : Int := (t : Int) + e
  if m = 2 ^ t then (if n = 0 then .fin down 0 0 false else .ofInt n)
  else
    let dg := log2Digits 192 (m * 2 ^ (wp - t)) 0
    if n ≥ 0 then stickyFix false (n.toNat * 2 ^ 192 + dg) (-192)
    else stickyFix true ((-n).toNat * 2 ^ 192 - dg - 1) (-192)

/-- sin(π·r) for a dyadic r = m/2^d in (0, 1/2); tiny arguments are π·r less a part below the sticky bit. -/
def sinPiSmall (m d : Nat) : FVal :=
  if d > Nat.log2 m + 80 then
    let v := m * piFix
    .fin false (v / 2 ^ (Nat.log2 v - 100)) ((Nat.log2 v : Int) - 100 - wp - d) true
  else stickyFix false (min (sinFix (m * piFix / 2 ^ d)) (2 ^ wp - 1)) (-(wp : Int))

/-- sin(π·n/2^d) for a natural n below 2·2^d; an exact zero takes `zneg`. -/
def sinPi (zneg : Bool) (n d : Nat) : FVal :=
  let one := 2 ^ d
  let neg := n ≥ one
  let r := if neg then n - one else n
  let r := if 2 * r > one then one - r else r
  if r = 0 then .fin zneg 0 0 false
  else if 2 * r = one then .fin neg 1 0 false
  else match sinPiSmall r d with
    | .fin _ m e s => .fin neg m e s
    | v => v

/-- sin(π·a) and, with a quarter turn added, cos(π·a), for a = ±m·2^e. -/
def sinCosFin (cos zneg neg : Bool) (m : Nat) (e : Int) : FVal :=
  let d := if e ≥ 0 then 1 else (-e).toNat + 1
  let n := if e ≥ 0 then m * 2 ^ (e.toNat + 1) else m * 2
  let full := 2 * 2 ^ d
  let n := if cos then n + 2 ^ (d - 1) else n
  let n := n % full
  let v := sinPi zneg n d
  if cos then v else match v with
    | .fin s k f st => if k = 0 then v else .fin (s != neg) k f st
    | _ => v

/-- tanh(±m·2^e), m ≠ 0. -/
def tanhFin (neg : Bool) (m : Nat) (e : Int) : FVal :=
  let top : Int := (Nat.log2 m : Int) + e
  if top ≥ 6 then .fin neg (2 ^ 100 - 1) (-100) true
  else if top < -44 then .fin neg (m * 2 ^ 64 - 1) (e - 64) true
  else
    -- u = exp(−2|a|) by 2^8 squarings of exp(−2|a|/2^8)
    let x := toFix m (e + 1 - 8)
    let y := expFix x
    let big := (List.range 8).foldl (fun v _ => v * v / 2 ^ wp) y
    -- tanh = (E − 1)/(E + 1) with E = exp(2|a|)
    stickyFix neg ((big - 2 ^ wp) * 2 ^ wp / (big + 2 ^ wp)) (-(wp : Int))

/-- The functions of R131, by their place in the opcode map. -/
inductive FFun where
  | rcp
  | rsq
  | sqrt
  | ex2
  | lg2
  | sin
  | cos
  | tanh
deriving DecidableEq, Repr

/-- The exact value of a function of R131 and the events of its special operands (IV of an invalid operand comes with
the indeterminate form). -/
def funF (fn : FFun) (down : Bool) (a : FVal) : FVal × Events :=
  match a with
  | .nan | .indet => (.nan, 0)
  | .inf n =>
    match fn with
    | .rcp => (.fin n 0 0 false, 0)
    | .rsq => if n then (.indet, 0) else (.zero, 0)
    | .sqrt => if n then (.indet, 0) else (.inf false, 0)
    | .ex2 => if n then (.zero, 0) else (.inf false, 0)
    | .lg2 => if n then (.indet, 0) else (.inf false, 0)
    | .sin | .cos => (.indet, 0)
    | .tanh => (.fin n 1 0 false, 0)
  | .fin n m e _ =>
    if m = 0 then
      match fn with
      | .rcp | .rsq => (.inf n, evDZ)
      | .sqrt | .sin | .tanh => (.fin n 0 0 false, 0)
      | .ex2 | .cos => (.fin false 1 0 false, 0)
      | .lg2 => (.inf true, evDZ)
    else
      match fn with
      | .rcp => (rcpFin n m e, 0)
      | .rsq => if n then (.indet, 0) else (rsqFin m e, 0)
      | .sqrt => if n then (.indet, 0) else (sqrtFin m e, 0)
      | .ex2 => (ex2Fin n m e, 0)
      | .lg2 => if n then (.indet, 0) else (lg2Fin down m e, 0)
      | .sin => (sinCosFin false down n m e, 0)
      | .cos => (sinCosFin true down n m e, 0)
      | .tanh => (tanhFin n m e, 0)

/-! ### Conversions, classes, block scales -/

/-- The class mask of R129. -/
def classMask (F : Fmt) (bs : Nat) : Nat :=
  match decodeF F (bs % 2 ^ F.width) with
  | .nan | .indet => 2 ^ 8
  | .inf n => if n then 1 else 2 ^ 7
  | .fin n m _ _ =>
    if m = 0 then (if n then 2 ^ 3 else 2 ^ 4)
    else if isSubnormal F bs then (if n then 2 ^ 2 else 2 ^ 5)
    else (if n then 2 else 2 ^ 6)

/-- A finite value rounded to an integer by the mode (R130, R135): magnitude. -/
def roundInt (mode : RMode) (t32 : Nat) (neg : Bool) (m : Nat) (e : Int) : Nat :=
  if e ≥ 0 then m * 2 ^ e.toNat
  else
    let sh := (-e).toNat
    let q := m / 2 ^ sh
    if roundsUp mode t32 neg false q (m % 2 ^ sh) sh then q + 1 else q

/-- The range of an integer type code of R93: 0 s32, 1 u32, 2 s16, 3 u16, 4 s8, 5 u8. -/
def intRange (ty : Nat) : Int × Int :=
  match ty with
  | 0 => (-(2 ^ 31), 2 ^ 31 - 1)
  | 1 => (0, 2 ^ 32 - 1)
  | 2 => (-(2 ^ 15), 2 ^ 15 - 1)
  | 3 => (0, 2 ^ 16 - 1)
  | 4 => (-(2 ^ 7), 2 ^ 7 - 1)
  | _ => (0, 2 ^ 8 - 1)

/-- The width of an integer type code. -/
def intWidth (ty : Nat) : Nat :=
  match ty with
  | 0 | 1 => 32
  | 2 | 3 => 16
  | _ => 8

/-- The value of the low bits of a word by an integer type code. -/
def readInt (ty : Nat) (a : Nat) : Int :=
  let w := intWidth ty
  if ty % 2 = 0 then sgn w a else ((a % 2 ^ w : Nat) : Int)

/-- An integer clamped to a range. -/
def clampTo (r : Int × Int) (v : Int) : Int := max r.1 (min r.2 v)

/-- A UE8M8 block scale (R50): none is NaN. -/
def scaleOf (bs : Nat) : FVal :=
  let e := field bs 8 8
  let m := field bs 0 8
  if e = 255 then .nan
  else if e = 0 && m = 0 then .zero
  else .fin false (256 + m) ((e : Int) - 127 - 8) false

end Sys2Proof.Machine
end

