-- ==== Sys2Proof/Machine/Home.lean ====
section
/-! DEFINITION. Physical memory and the home of a line: the ranges of R258, homing (R259), undefined pages (R379,
R380), format-region views (R264–R266), and the Write-home step with its GWCT, its L1 update and its monitors
(R238, R180). -/

namespace Sys2Proof.Machine

/-! ### Physical addresses (R258, R259) -/

/-- What a physical address names. -/
inductive PRange where
  | hbm
  | host
  | pritch
  | view (n : Nat)
  | noMemory
deriving DecidableEq, Repr

/-- The ranges of R258. -/
def prange (s : State) (pa : Nat) : PRange :=
  if pa < s.pkg.hbmBytes then .hbm
  else if 0x400000000000 ≤ pa && pa < 0x800000000000 then .host
  else if 0x800000000000 ≤ pa && pa < 0xC00000000000 then .pritch
  else if 0xC00000000000 ≤ pa && pa < 0xC10000000000 then .view ((pa - 0xC00000000000) / 2 ^ 36)
  else .noMemory

/-- Host and Pritch memory are reached over the host path (R248). -/
def onHostPath (s : State) (pa : Nat) : Bool :=
  match prange s pa with
  | .host | .pritch => true
  | _ => false

/-- The trained sub-links of a partition to the package that a Pritch address names (R390). -/
def State.linksTo (s : State) (part pa : Nat) : List Nat :=
  (s.pkg.sublinks.filter fun l => l.2.trained && l.2.part == some part && l.2.remote == field pa 40 6).map (·.1)

/-- The sub-link that carries a request to a Pritch address: they are spread by line address (R390).
(DEDUCED, log entry 64) -/
def State.linkFor (s : State) (part pa : Nat) : Option Nat :=
  match prange s pa with
  | .pritch => let ls := s.linksTo part pa; ls[Config.linkPick (pa / 128) % ls.length]?
  | _ => none

/-- The stream-key slot under which a request to a host or Pritch address goes (R383). -/
def State.sendSlot (s : State) (part pa : Nat) : Nat :=
  match s.linkFor part pa with
  | some l => (s.pkg.ports.getD (l / 4) ⟨0, []⟩).current
  | none => s.pkg.hostOut.current

/-- A request of a device sent to a host or Pritch address now (R383). -/
def State.farReq (s : State) (part pa : Nat) : FarReq := ⟨s.time, pa, s.sendSlot part pa, s.linkFor part pa, false⟩

/-- A request on the host path has timed out (R384). -/
def timedOut (now sentAt : Nat) : Bool := decide (sentAt + 42500 ≤ now)

/-- The host, or the remote package, can be reached (R390). -/
def State.reaches (s : State) (part pa : Nat) : Bool :=
  match prange s pa with
  | .pritch => (s.linkFor part pa).isSome
  | _ => true

/-- The XOR of the five-bit groups of a 33-bit value (R259). -/
def fold5 (v : Nat) : Nat := (List.range 7).foldl (fun acc i => acc ^^^ field v (5 * i) 5) 0

/-- `k` elements drawn from a pool, one after another. -/
def drawFrom (pick : Nat → Nat) : Nat → List Nat → List Nat
  | 0, _ => []
  | k + 1, pool =>
    match pool[pick k % pool.length]? with
    | some x => x :: drawFrom pick k (pool.erase x)
    | none => []

/-- The `k` enabled units of `n` physical ones, in ascending order; all of them where k reaches n. -/
def enabledUnits (pick : Nat → Nat) (n k : Nat) : List Nat :=
  if n ≤ k then List.range n else (List.range n).filter ((drawFrom pick k (List.range n)).contains ·)

/-- The enabled physical cores of a die, E of its 68 (R1): the order of the logical numbers d·E to d·E + E − 1. -/
def Package.cores (g : Package) (d : Nat) : List Nat := enabledUnits (Config.pickCore d) 68 g.coresPerDie

/-- The enabled physical stacks, S of the 12 (R259). -/
def Package.stacks (g : Package) : List Nat := enabledUnits Config.pickStack 12 g.stackCount

/-- The die and the physical core of a logical core (R1). -/
def Package.physicalCore (g : Package) (core : Nat) : Nat × Nat :=
  (core / g.coresPerDie, (g.cores (core / g.coresPerDie)).getD (core % g.coresPerDie) 0)

/-- The units of a list as a mask. -/
def unitMask (us : List Nat) : Nat := us.foldl (fun m u => m + 2 ^ u) 0

/-- The die beside which the enabled stack of an address sits (R259). -/
def dieOf (s : State) (pa : Nat) : Nat := s.pkg.stacks.getD (pa / 1024 % s.pkg.stackCount) 0 / 3

/-- The home slice of an HBM address (R259), 0 to 127. -/
def homeSlice (s : State) (pa : Nat) : Nat := 32 * dieOf s pa + fold5 (field pa 7 33)

/-! ### Bytes as they stand at their home -/

/-- A stored byte, undefined pages included. (DESIGN CHOICE, log entry 76) -/
def State.storedByte (s : State) (pa : Nat) : Byte :=
  match s.undef.find (pa / 65536) with
  | some u => if u.written.contains pa then Memory.get s.mem pa else Config.freeByte u.nonce pa
  | none => Memory.get s.mem pa

/-- A number of `n` stored bytes, little-endian (R5). -/
def State.stored (s : State) (pa n : Nat) : Nat := leNat ((List.range n).map fun i => s.storedByte (pa + i))

/-- A change of one die's Sluice. -/
def State.modSluice (s : State) (d : Nat) (f : Sluice → Sluice) : State := { s with sluices := s.sluices.modify d f }

/-- The block of an address is a record. -/
def State.isRecord (s : State) (pa : Nat) : Bool := s.sluices.any fun d => d.records.contains (pa / 64 * 64)

/-- The bits of a record's byte that are no reserved bits (R344). -/
def recordBits (o : Nat) : Byte :=
  match o with
  | 0x0F => 0x07
  | 0x10 => 0x1F
  | 0x11 => 0x7F
  | 0x12 | 0x13 | 0x14 | 0x15 | 0x16 | 0x17 => 0
  | _ => 0xFF

/-- A byte of a held record, which plain writes do not change (R345). -/
def State.inHeldRecord (s : State) (pa : Nat) : Bool := s.isRecord pa && (s.storedByte (pa / 64 * 64 + 16)).getLsbD 4

/-- A stored byte written; a record's reserved bits stay 0 (R7, R344). (DESIGN CHOICE, log entry 84) -/
def State.storeByte (s : State) (pa : Nat) (b : Byte) : State :=
  let b := if s.isRecord pa then b &&& recordBits (pa % 64) else b
  { s with
    mem := Memory.set s.mem pa b
    undef := s.undef.change (pa / 65536) fun u =>
      if u.keyless then u else { u with written := pa :: u.written.filter (· != pa) } }

/-- Bytes stored from an address on. -/
def State.storeBytes (s : State) (pa : Nat) : List Byte → State
  | [] => s
  | b :: bs => (s.storeByte pa b).storeBytes (pa + 1) bs

/-! ### Format-region views (R264–R266) -/

/-- The view format of a region: f32, f16 or bf16. -/
def Region.viewFmt (r : Region) : Fmt := fmtOf r.vfmt

/-- Bytes of a view element. -/
def Region.vsize (r : Region) : Nat := r.viewFmt.width / 8

/-- Bits of a stored element by the FMT codes of R208. -/
def fmtBits (fmt : Nat) : Nat :=
  match fmt with
  | 0 => 32 | 1 => 16 | 2 => 16 | 3 => 8 | 4 => 8 | 5 => 4 | 6 => 8 | 7 => 4 | 8 => 8 | _ => 4

/-- The floating format of an FMT code's elements; integers have none. -/
def fmtFloat (fmt : Nat) : Option Fmt :=
  match fmt with
  | 0 => some .f32 | 1 => some .f16 | 2 => some .bf16 | 3 => some .e4m3 | 4 => some .e5m2 | 5 => some .e2m1
  | 8 => some .e4m3 | 9 => some .e2m1 | _ => none

/-- The address of the byte that holds stored element e, and the bit at which it starts. -/
def elemAt (base fmt e : Nat) : Nat × Nat :=
  let b := fmtBits fmt
  if b = 4 then (base + e / 2, 4 * (e % 2)) else (base + e * (b / 8), 0)

/-- The bits of stored element e. -/
def State.elemBits (s : State) (base fmt e : Nat) : Nat :=
  let (a, sh) := elemAt base fmt e
  let b := fmtBits fmt
  if b = 4 then field (s.storedByte a).toNat sh 4 else s.stored a (b / 8)

/-- An exact product of a block scale and an element (R51). -/
def scaleMul (sc el : FVal) : FVal :=
  match sc, el with
  | .nan, _ => .nan
  | _, .nan => .nan
  | sc, el => if sc.isZero then .fin el.sign 0 0 false else mulF sc el

/-- The exact value of stored bits by FMT code (R45, R49), without scale. -/
def elemVal (fmt bs : Nat) : FVal :=
  match fmtFloat fmt with
  | some F => decodeF F bs
  | none => .ofInt (sgn (fmtBits fmt) bs)

/-- A value in the view format: exact where R265 decodes exactly; beyond the range it is ±∞, and a value that the format does
not hold is rounded to nearest even. (DESIGN CHOICE, log entry 115) -/
def viewEncode (F : Fmt) (v : FVal) : Nat :=
  match v with
  | .nan | .indet => F.nanBits
  | .inf n => F.signed n F.infBits
  | .fin n m e st => (roundFin F .rn 0 n m e st).1

/-- View element e of a region as its bits; undefined where its scale was written since its decode (R266).
(DESIGN CHOICE, log entry 2) -/
def State.viewElem (s : State) (n : Nat) (r : Region) (e : Nat) : Nat :=
  if r.stale.contains e then (Config.freeWord s.fresh (n * 2 ^ 40 + e)).toNat % 2 ^ r.viewFmt.width
  else
    let v := elemVal r.sfmt (s.elemBits r.sbase r.sfmt e)
    let v := if r.sfmt = 8 || r.sfmt = 9 then scaleMul (scaleOf (s.stored (r.xbase + 2 * (e / 32)) 2)) v else v
    viewEncode r.viewFmt v

/-- The enabled region that covers a view address. -/
def State.regionAt (s : State) (n pa : Nat) : Option Region :=
  match s.regions[n]? with
  | some r => if r.en && r.vbase ≤ pa && pa < r.vbase + 65536 * r.vpages then some r else none
  | none => none

/-- One byte as a reader at the home sees it: memory, or a decoded view (R265). -/
def State.byteAt (s : State) (pa : Nat) : Byte :=
  match prange s pa with
  | .view n =>
    match s.regionAt n pa with
    | some r =>
      let off := pa - r.vbase
      BitVec.ofNat 8 (field (s.viewElem n r (off / r.vsize)) (8 * (off % r.vsize)) 8)
    | none => Memory.blank
  | _ => s.storedByte pa

/-- `n` bytes at the home. -/
def State.bytesAt (s : State) (pa n : Nat) : List Byte := (List.range n).map fun i => s.byteAt (pa + i)

/-- `n` bytes at the home as a number. -/
def State.read (s : State) (pa n : Nat) : Nat := leNat (s.bytesAt pa n)

/-- A view element rounded into its stored format (R265). -/
def viewStoreBits (r : Region) (e bits : Nat) : Nat :=
  let v := decodeF r.viewFmt bits
  let mode : RMode := if r.dither then .sr else .rn
  let pos := e % 32
  let phase := (r.p0 + e / 32) % 32
  match fmtFloat r.sfmt with
  | some F => (resultF F mode pos phase false false v).1
  | none =>
    let w := fmtBits r.sfmt
    let hi : Int := 2 ^ (w - 1) - 1
    match v with
    | .nan | .indet => 0
    | .inf n => wrapTo w (if n then -hi - 1 else hi)
    | .fin n m ex _ =>
      let q := roundInt mode (dither32 pos phase) n m ex
      wrapTo w (clampTo (-hi - 1, hi) (if n then -(q : Int) else q))

/-- The bits of a stored element written. -/
def State.setElem (s : State) (base fmt e bits : Nat) : State :=
  let (a, sh) := elemAt base fmt e
  let b := fmtBits fmt
  if b = 4 then s.storeByte a (BitVec.ofNat 8 (setField (s.storedByte a).toNat sh 4 bits))
  else s.storeBytes a (leBytes (b / 8) bits)

/-- The view elements that a write of `n` bytes at view offset `off` touches. -/
def viewElems (r : Region) (off n : Nat) : List Nat :=
  if n = 0 then [] else (List.range ((off + n - 1) / r.vsize - off / r.vsize + 1)).map (· + off / r.vsize)

/-- Bytes written through a view: each element merges with its decoded value and is rounded (R265). -/
def State.viewWrite (s : State) (n : Nat) (r : Region) (pa : Nat) (bs : List Byte) : State :=
  let off := pa - r.vbase
  (viewElems r off bs.length).foldl (fun (acc : State) e =>
    let old := leBytes r.vsize (s.viewElem n r e)
    let new := (List.range r.vsize).map fun i =>
      let p := e * r.vsize + i
      if off ≤ p && p < off + bs.length then bs.getD (p - off) 0 else old.getD i 0
    acc.setElem r.sbase r.sfmt e (viewStoreBits r e (leNat new))) s

/-- The stored data bytes of a region: first address and length. -/
def Region.dataSpan (r : Region) : Nat × Nat :=
  (r.sbase, 65536 * r.vpages / r.vsize * fmtBits r.sfmt / 8)

/-- The scale bytes of a region (NB formats). -/
def Region.scaleSpan (r : Region) : Nat × Nat :=
  (r.xbase, if r.sfmt = 8 || r.sfmt = 9 then 65536 * r.vpages / r.vsize / 32 * 2 else 0)

/-- The view elements of a region whose stored bytes lie in the data line `la` (R266). -/
def Region.elemsOfLine (r : Region) (la : Nat) : List Nat :=
  let (b, n) := r.dataSpan
  let lo := max (la * 128) b
  let hi := min (la * 128 + 128) (b + n)
  if lo < hi then
    let per := 8 / fmtBits r.sfmt
    if fmtBits r.sfmt = 4 then (List.range ((hi - lo) * per)).map (· + (lo - b) * 2)
    else (List.range ((hi - lo) / (fmtBits r.sfmt / 8))).map (· + (lo - b) / (fmtBits r.sfmt / 8))
  else []

/-- The address at whose home a physical address is served: its own, or for a view line the first stored data byte
of it (R265). -/
def State.homeAddr (s : State) (pa : Nat) : Nat :=
  match prange s pa with
  | .view n =>
    match s.regionAt n (pa / 128 * 128) with
    | some r => (elemAt r.sbase r.sfmt ((pa / 128 * 128 - r.vbase) / r.vsize)).1
    | none => pa
  | _ => pa

/-- The home slice of a physical address, a view's included (R259, R265). -/
def State.sliceOf (s : State) (pa : Nat) : Nat := homeSlice s (s.homeAddr pa)

/-- The view lines derived from a stored data line, of every enabled region (R266). -/
def State.derivedLines (s : State) (la : Nat) : List Nat :=
  (s.regions.filter (·.en)).flatMap fun r =>
    ((r.elemsOfLine la).map fun e => (r.vbase + e * r.vsize) / 128).eraseDups

/-- The view line that holds an element. -/
def Region.lineOf (r : Region) (e : Nat) : Nat := (r.vbase + e * r.vsize) / 128

/-- The view elements whose scales lie in `n` bytes at `pa`. -/
def Region.scaledBy (r : Region) (pa n : Nat) : List Nat :=
  let (xb, xn) := r.scaleSpan
  let lo := max pa xb
  let hi := min (pa + n) (xb + xn)
  if r.en && lo < hi then
    ((List.range ((hi - 1 - xb) / 2 - (lo - xb) / 2 + 1)).map (· + (lo - xb) / 2)).flatMap fun b => (List.range 32).map (· + 32 * b)
  else []

/-- A line is resident in L2 (R260). -/
def State.residentL2 (s : State) (la : Nat) : Bool := ((s.homes.find la).map (·.resident)).getD false

/-- A view element that stands decoded in L2: its line is resident with the sector that holds it (R266). -/
def State.decodedL2 (s : State) (r : Region) (e : Nat) : Bool :=
  match s.homes.find (r.lineOf e) with
  | some h => h.resident && h.valid.getLsbD ((r.vbase + e * r.vsize) % 128 / 32)
  | none => false

/-- An L1 copy of a view line in which the bytes of the elements whose scales were just written are undefined (R266).
(DESIGN CHOICE, log entry 2) -/
def L1Line.blur (s : State) (pa n : Nat) (l : L1Line) : L1Line :=
  let hit (va : Nat) : Bool := s.regions.any fun r =>
    r.vbase ≤ va && va < r.vbase + 65536 * r.vpages && (r.scaledBy pa n).contains ((va - r.vbase) / r.vsize)
  { l with data := (List.range 128).map fun i =>
      if hit (l.pa * 128 + i) then Config.freeByte s.fresh (l.pa * 128 + i) else l.data.getD i 0 }

/-- After a write of `n` bytes at `pa`: the decoded elements whose scales it wrote are undefined, in L2 and in L1 (R266). -/
def State.markViews (s : State) (pa n : Nat) : State :=
  if s.regions.all fun r => (r.scaledBy pa n).isEmpty then s
  else
    { s with
      regions := s.regions.map fun r =>
        { r with stale := (r.stale ++ (r.scaledBy pa n).filter (s.decodedL2 r)).eraseDups }
      cores := s.cores.changeAll fun _ c => { c with l1 := c.l1.map (L1Line.blur s pa n) } }

/-! ### Leases (R238) -/

/-- The key of the set that keeps MAXEXP for evicted lines. -/
def setKey (s : State) (la : Nat) : Nat := s.sliceOf (la * 128) * 2560 + Config.l2Set la % 2560

/-- MAXEXP of a line: its own while resident; one that L2 does not hold takes its set's (R238, R260). -/
def State.maxExpOf (s : State) (la : Nat) : Nat :=
  match s.homes.find la with
  | some h => if h.resident then h.maxExp else max h.maxExp ((s.setMaxExp.find (setKey s la)).getD 0)
  | none => (s.setMaxExp.find (setKey s la)).getD 0

/-- A line that its home holds no bytes of. -/
def HomeLine.blank (e : Nat) : HomeLine := ⟨e, none, false, 0, 0, 0⟩

/-- The home line with its MAXEXP. -/
def State.homeOf (s : State) (la : Nat) : HomeLine := { (s.homes.find la).getD (.blank 0) with maxExp := s.maxExpOf la }

def State.modHome (s : State) (la : Nat) (f : HomeLine → HomeLine) : State :=
  { s with homes := s.homes.put la (f (s.homeOf la)) }

/-- A line leaves L2 (R260): dirty sectors go to HBM, which changes no value; MAXEXP stays in the set; a view line that
comes back is decoded afresh (R266). A stash-owned line stays known at its home. -/
def State.evictL2 (s : State) (la : Nat) : State :=
  match s.homes.find la with
  | none => s
  | some h =>
    let k := setKey s la
    let s1 : State := { s with
      setMaxExp := s.setMaxExp.put k (max ((s.setMaxExp.find k).getD 0) h.maxExp)
      regions := s.regions.map fun r => { r with stale := r.stale.filter fun e => r.lineOf e != la } }
    match h.stash with
    | some _ => s1.modHome la fun h => { h with resident := false, valid := 0, dirty := 0 }
    | none => { s1 with homes := s1.homes.del la }

/-- The resident lines of a line's set, with the step of their last use. -/
def State.setLines (s : State) (la : Nat) : List (Nat × Nat) :=
  (s.homes.filter fun h => h.2.resident && setKey s h.1 == setKey s la).map fun h => (h.1, h.2.used)

/-- The least recently used line of a list. -/
def lruLine : List (Nat × Nat) → Option Nat
  | [] => none
  | x :: xs => some (xs.foldl (fun m y => if y.2 < m.2 then y else m) x).1

/-- Room for a line in its set of 16 ways: the least recently used line leaves a full one (R260). -/
def State.roomL2 (s : State) (la : Nat) : State :=
  if s.residentL2 la || (s.setLines la).length < 16 then s
  else match lruLine (s.setLines la) with
    | some v => s.evictL2 v
    | none => s

/-- A line used in L2, or brought into it (R260). -/
def State.useL2 (s : State) (la : Nat) (f : HomeLine → HomeLine) : State :=
  (s.roomL2 la).modHome la fun h => { f h with resident := true, used := s.fresh }

/-- The stored data line of a view line (R266). -/
def State.storedLines (s : State) (la : Nat) : List Nat :=
  match prange s (la * 128) with
  | .view n => (s.regionAt n (la * 128)).elim [] fun r => [(elemAt r.sbase r.sfmt ((la * 128 - r.vbase) / r.vsize)).1 / 128]
  | _ => []

/-- The lines that a write to a line updates or drops beside it (R266): the stored line of a view line, and every view
line derived from either. -/
def State.tiedLines (s : State) (la : Nat) : List Nat :=
  s.storedLines la ++ (la :: s.storedLines la).flatMap s.derivedLines

/-- The GWCT of a write to a line at this T (R159, R266). -/
def State.gwctOf (s : State) (la : Nat) : Nat :=
  ((la :: s.tiedLines la).foldl (fun acc l => max acc (s.maxExpOf l)) s.time) + 1

/-! ### Monitors (R178–R180) -/

/-- Whether a word meets a monitor's condition. -/
def condHolds (cond : Nat) (word v : Word) : Bool :=
  match cond with
  | 0 => word != v
  | 1 => word == v
  | _ => decide (word.toNat ≥ v.toNat)

/-- The 32-bit word at a physical address. -/
def State.word (s : State) (pa : Nat) : Word := BitVec.ofNat 32 (s.read pa 4)

/-- A monitor fires: its continuation joins the pool of its grid (R180, R310). -/
def State.fire (s : State) (m : Monitor) (start : Nat) : State :=
  s.modLaunch m.carried.grid fun l => { l with pool := l.pool ++ [⟨m.carried, start⟩] }

/-- Tests the monitors on the words of a line (R238, R180). -/
def State.testMonitors (s : State) (la start : Nat) : State :=
  let hit (m : Monitor) : Bool := m.pa / 128 == la && condHolds m.cond (s.word m.pa) m.value
  let fired := s.monitors.filter hit
  if fired.isEmpty then s
  else fired.foldl (fun acc m => acc.fire m start) { s with monitors := s.monitors.filter fun m => !hit m }

/-! ### Stash windows seen from outside (R167) -/

/-- The window line that owns a home line: block, window, line number. -/
def State.stashOf (s : State) (la : Nat) : Option (Nat × Nat × Nat) := (s.homes.find la).bind (·.stash)

/-- A window line that its home has not granted, or that the window has lost. -/
def StashLine.lost : StashLine := ⟨false, false, false, false⟩

/-- The lines of a block's mapped windows that a scratchpad range touches. -/
def Block.windowLines (b : Block) (off n : Nat) : List (Nat × Nat) :=
  (b.windows.filter (·.2.parting.isNone)).flatMap fun w => ((List.range w.2.lines.length).filter fun i => overlaps (w.2.off + 128 * i) 128 off n).map fun i => (w.1, i)

/-- Every window line that a range touches is filled. -/
def State.linesFilled (s : State) (b off n : Nat) : Bool :=
  ((s.blk b).windowLines off n).all fun wi =>
    match (s.blk b).windows.find wi.1 with
    | some w => (w.lines.getD wi.2 .lost).filled
    | none => true

/-- The bytes that the owning window holds for its line; the home's where the line has not been filled (R167). -/
def State.stashBytes (s : State) (own : Nat × Nat × Nat) (la : Nat) : List Byte :=
  let b := s.blk own.1
  match b.windows.find own.2.1 with
  | some w =>
    match w.parting with
    | some bs => (bs.drop (128 * own.2.2)).take 128
    | none =>
      if (w.lines.getD own.2.2 .lost).filled then Memory.read b.spad (w.off + 128 * own.2.2) 128
      else s.bytesAt (la * 128) 128
  | none => s.bytesAt (la * 128) 128

/-- A change of one line of a window. -/
def State.modStashLine (s : State) (own : Nat × Nat × Nat) (f : StashLine → StashLine) : State :=
  s.modBlk own.1 fun b => { b with windows := b.windows.change own.2.1 fun w => { w with lines := w.lines.modify own.2.2 f } }

/-- The block touches a scratchpad range (R167): window lines in it that hold no bytes wait for their fill. -/
def State.touchSpad (s : State) (b off n : Nat) : State :=
  ((s.blk b).windowLines off n).foldl (fun (acc : State) wi =>
    acc.modStashLine (b, wi.1, wi.2) fun l => { l with touched := !l.filled }) s

/-- Scratchpad bytes of a block written by the block or its engines: window lines become dirty (R167). -/
def State.writeSpad (s : State) (b off : Nat) (bs : List Byte) : State :=
  ((s.blk b).windowLines off bs.length).foldl (fun (acc : State) wi =>
    acc.modStashLine (b, wi.1, wi.2) fun l => { l with dirty := true })
    (s.modBlk b fun B => { B with spad := Memory.write B.spad off bs })

/-- Ownership of a line ends: the window must take it and fill it again (R167). -/
def State.endOwnership (s : State) (la : Nat) : State :=
  match s.stashOf la with
  | some own =>
    (s.modHome la fun h => { h with stash := none }).modStashLine own fun _ => .lost
  | none => s

/-! ### Reads and writes at the home -/

/-- Bytes that a reader at the home takes: the window's where the line is owned (Recall, R238), otherwise the home's. -/
def State.homeBytes (s : State) (pa n : Nat) : List Byte :=
  match s.stashOf (pa / 128) with
  | some own => ((s.stashBytes own (pa / 128)).drop (pa % 128)).take n
  | none => s.bytesAt pa n

/-- Bytes written in every valid copy of the line in a core's L1 (R254). -/
def updateL1 (now pa : Nat) (bs : List Byte) (c : Core) : Core :=
  { c with
    l1 := c.l1.map fun l =>
      if l.pa == pa / 128 && l.expiry > now then
        { l with data := l.data.take (pa % 128) ++ bs ++ l.data.drop (pa % 128 + bs.length) }
      else l }

/-- The stored byte ranges that `n` bytes at a physical address are read from: a view's are those of its elements and
their scales (R265). -/
def State.sourceSpans (s : State) (pa n : Nat) : List (Nat × Nat) :=
  match prange s pa with
  | .view i =>
    match s.regionAt i pa with
    | some r => (viewElems r (pa - r.vbase) n).flatMap fun e =>
        ((elemAt r.sbase r.sfmt e).1, (fmtBits r.sfmt + 7) / 8)
          :: (if r.sfmt = 8 || r.sfmt = 9 then [(r.xbase + 2 * (e / 32), 2)] else [])
    | none => []
  | _ => [(pa, n)]

/-- A scratchpad range meets an uncorrectable error (R276). -/
def Block.spadBad (b : Block) (off n : Nat) : Bool := b.badSpad.any fun x => overlaps x 64 off n

/-- A range of an owned line meets an uncorrectable error of the window that holds it (R276). -/
def State.windowBad (s : State) (pa n : Nat) : Bool :=
  match s.stashOf (pa / 128) with
  | some own =>
    let B := s.blk own.1
    (match B.windows.find own.2.1 with
     | some w => (w.lines.getD own.2.2 .lost).filled && B.spadBad (w.off + 128 * own.2.2 + pa % 128) n
     | none => false)
  | none => false

/-- A read that is an integrity error: of a 64-byte block poisoned by a failed check or an uncorrectable error (R275, R276),
through a view also, or of a window's bytes struck by one. -/
def State.isPoisoned (s : State) (pa n : Nat) : Bool :=
  (!s.poisoned.isEmpty && (s.sourceSpans pa n).any fun x => s.poisoned.any fun b => overlaps b 64 x.1 x.2)
    || s.windowBad pa n

/-- The bytes of the elements that `n` bytes at an address touch: those bytes themselves outside a view (R265). -/
def State.wholeElems (s : State) (pa n : Nat) : Nat × Nat :=
  match prange s pa with
  | .view i =>
    match s.regionAt i pa with
    | some r =>
      let lo := (pa - r.vbase) / r.vsize * r.vsize
      (r.vbase + lo, (pa - r.vbase + n + r.vsize - 1) / r.vsize * r.vsize - lo)
    | none => (pa, n)
  | _ => (pa, n)

/-- The pieces of a byte string by 64-byte blocks. -/
def blockPieces (pa : Nat) (bs : List Byte) : List (Nat × List Byte) :=
  ((List.range ((pa % 64 + bs.length + 63) / 64)).map fun i =>
    let lo := 64 * i - pa % 64
    (pa + lo, (bs.take (64 * (i + 1) - pa % 64)).drop lo)).filter fun x => !x.2.isEmpty

/-- The Sluice of a physical address (R339). -/
def sluiceOf (s : State) (pa : Nat) : Nat := s.sliceOf pa / 32

/-- A plain write to bytes of one block: dropped and counted by Sluice where the block is a held record (R345). -/
def State.plainWrite (s : State) (pa : Nat) (bs : List Byte) : State :=
  if s.inHeldRecord pa then s.modSluice (sluiceOf s pa) fun d => { d with errors := d.errors + 1 } else s.storeBytes pa bs

/-- The bytes stored at their home, views included: no lease account, no monitor. -/
def State.putBytes (s : State) (pa : Nat) (bs : List Byte) : State :=
  match prange s pa with
  | .view n =>
    match s.regionAt n pa with
    | some r => if r.ro then s.modPkg fun p => { p with regionErrors := p.regionErrors + 1 } else s.viewWrite n r pa bs
    | none => s
  | .noMemory => s
  | _ => (blockPieces pa bs).foldl (fun (acc : State) x => acc.plainWrite x.1 x.2) s

/-- A write all of whose blocks are held records: it changes no memory and fires no monitor (R345). -/
def State.dropsAll (s : State) (pa : Nat) (bs : List Byte) : Bool := (blockPieces pa bs).all fun x => s.inHeldRecord x.1

/-- The sectors of a line that bytes [o, o + n) touch. -/
def sectorMask (o n : Nat) : BitVec 4 :=
  BitVec.ofNat 4 ((List.range 4).foldl (fun m i => if overlaps (32 * i) 32 o n then m + 2 ^ i else m) 0)

/-- The sectors of a line that a write of `n` bytes at `pa` leaves valid in L2: those that it touches, and with a class-2
page the whole 64-byte blocks, which the store fills (R260, R275). -/
def State.filledBy (s : State) (pa n : Nat) : BitVec 4 :=
  if (s.pageRecs.find (pa / 65536)).any (·.cls == 2) then sectorMask (pa % 128 / 64 * 64) ((pa % 64 + n + 63) / 64 * 64)
  else sectorMask (pa % 128) n

/-- What follows a write performed on a line with its GWCT: the derived view lines leave L2 (R266), the GWCT is that of
the tied lines too, and the monitors on all of them are tested (R180, R238). -/
def State.afterWrite (s : State) (la g : Nat) (tied drop : List Nat) : State :=
  let s1 := drop.foldl State.evictL2 s
  let s2 : State := { s1 with wrote := (la :: tied).foldl (fun w l => w.put l g) s1.wrote }
  (la :: tied).foldl (fun acc l => acc.testMonitors l (g + 1)) s2

/-- A write of `n` bytes to a line that is performed without a lease, as Sluice and a recall do: its GWCT is T + 1. -/
def State.afterPut (s : State) (pa n : Nat) : State :=
  let la := pa / 128
  let tied := s.tiedLines la
  (s.markViews pa n).afterWrite la (s.time + 1) tied (tied.filter fun l => l != la && !(s.storedLines la).contains l)

/-- Write-home (R238): a write within one line. `core` is the issuing core, if any. Answers the state and the GWCT. -/
def State.writeHome (s : State) (core : Option Nat) (pa : Nat) (bs : List Byte) : State × Nat :=
  let la := pa / 128
  let s1 := match s.stashOf la with
    | some own => (s.putBytes (la * 128) (s.stashBytes own la)).endOwnership la
    | none => s
  let g := s1.gwctOf la
  let tied := s1.tiedLines la
  let s2 := (s1.putBytes pa bs).markViews pa bs.length
  let s3 := if onHostPath s pa then s2 else s2.useL2 la fun h =>
    { h with valid := h.valid ||| s1.filledBy pa bs.length, dirty := h.dirty ||| sectorMask (pa % 128) bs.length }
  let s4 := match core with
    | some c =>
      let (lo, n) := s3.wholeElems pa bs.length
      s3.modCore c (updateL1 s.time lo (s3.bytesAt lo n))
    | none => s3
  (if s1.dropsAll pa bs then s4
    else s4.afterWrite la g tied (tied.filter fun l => l != la && !(s1.storedLines la).contains l), g)

/-- The pieces of a byte string by lines. -/
def linePieces (pa : Nat) (bs : List Byte) : List (Nat × List Byte) :=
  ((List.range ((pa % 128 + bs.length + 127) / 128)).map fun i =>
    let lo := if i = 0 then 0 else 128 * i - pa % 128
    (pa + lo, (bs.take (128 * (i + 1) - pa % 128)).drop lo)).filter fun x => !x.2.isEmpty

/-- Bytes of any length written at home line by line, as a device or the host writes them; the largest GWCT. -/
def State.writeLines (s : State) (core : Option Nat) (pa : Nat) (bs : List Byte) : State × Nat :=
  (linePieces pa bs).foldl (fun (acc : State × Nat) x =>
    let w := acc.1.writeHome core x.1 x.2
    (w.1, max acc.2 w.2)) (s, 0)

/-- A write by a device of the package (rings, status words, records). -/
def State.deviceWrite (s : State) (pa : Nat) (bs : List Byte) : State := (s.writeLines none pa bs).1

/-- Lease length of an owner's bank (R238, R39). -/
def leaseLen (conf : DWord) : Nat := 2 ^ (min (field conf.toNat 12 4) 8 + 5)

end Sys2Proof.Machine
end

