-- ==== Sys2Proof/Machine/Sluice.lean ====
section
/-! DEFINITION. Sluice's records and lists (16 R339–R351): the capsule record as bytes and as fields, runners,
descheduling, waiters and displaced results. -/

namespace Sys2Proof.Machine

/-- A capsule record (R344). -/
structure CapRec where
  holder : Nat
  adopter : Nat
  step : Nat
  nm1 : Nat
  code : Nat
  pck : BitVec 7
  held : Bool
  complete : Bool
  adopted : Bool
  desched : Bool
  running : Bool
  cwct : Nat
  ck : List Word
deriving DecidableEq, Repr

/-- The record at a physical address. -/
def State.record (s : State) (pa : Nat) : CapRec :=
  let w := s.stored (pa + 8) 8
  let f := s.stored (pa + 16) 4
  { holder := s.stored pa 4
    adopter := s.stored (pa + 4) 4
    step := field w 53 6
    nm1 := field w 48 5
    code := field w 0 48
    pck := BitVec.ofNat 7 (field f 8 7)
    held := bit f 4
    complete := bit f 3
    adopted := bit f 2
    desched := bit f 1
    running := bit f 0
    cwct := s.stored (pa + 24) 8
    ck := (List.range 8).map fun i => BitVec.ofNat 32 (s.stored (pa + 32 + 4 * i) 4) }

/-- The 64 bytes of a record; reserved bits are 0. -/
def CapRec.bytes (r : CapRec) : List Byte :=
  leBytes 4 r.holder ++ leBytes 4 r.adopter ++ leBytes 8 (r.step * 2 ^ 53 + r.nm1 * 2 ^ 48 + r.code)
    ++ leBytes 4 (r.pck.toNat * 2 ^ 8 + b2n r.held * 16 + b2n r.complete * 8 + b2n r.adopted * 4 + b2n r.desched * 2 + b2n r.running)
    ++ leBytes 4 0 ++ leBytes 8 r.cwct ++ r.ck.flatMap fun w => leBytes 4 w.toNat

/-- A record written by Sluice: a Sluice-op whose GWCT is T + 1 (R238). -/
def State.setRecord (s : State) (pa : Nat) (r : CapRec) : State := (s.storeBytes pa r.bytes).afterPut pa 64

/-- The runner of a held record (R183, R344). -/
def CapRec.runner (r : CapRec) : Option Nat := if r.held then some (if r.adopted then r.adopter else r.holder) else none

def State.sluiceAt (s : State) (d : Nat) : Sluice := s.sluices.getD d ⟨[], [], [], 0, [], []⟩

/-- A block that CAPS, CADOPT or CQRY has named is a record from then on (R344, R345); the bits that a record reserves
read 0 from then on, whatever stood there. (DESIGN CHOICE, log entry 84) -/
def State.nameRecord (s : State) (pa : Nat) : State :=
  if s.isRecord pa then s
  else
    let s1 := s.modSluice (sluiceOf s pa) fun d => { d with records := pa :: d.records.filter (· != pa) }
    (List.range 9).foldl (fun (acc : State) i => acc.storeByte (pa + 15 + i) (acc.storedByte (pa + 15 + i))) s1

/-- The records of a page end, when the page's bytes are written or given away by a command. -/
def State.forgetRecords (s : State) (pg : Nat) : State :=
  { s with sluices := s.sluices.map fun d => { d with records := d.records.filter fun pa => pa / 65536 != pg } }

/-- A line in the line store, most recent first (R340). -/
def State.touchLine (s : State) (pa : Nat) : State :=
  s.modSluice (sluiceOf s pa) fun d => { d with lines := (pa / 128 :: d.lines.filter (· != pa / 128)).take 28160 }

/-! ### Waiters (R350) -/

/-- Every waiter of a record becomes Ready and re-executes its CAPS. -/
def State.wakeRecord (s : State) (pa : Nat) : State :=
  let d := sluiceOf s pa
  let ks := ((s.sluiceAt d).waiters.filter fun w => w.2 == pa).map (·.1)
  let s1 := s.modSluice d fun x => { x with waiters := x.waiters.filter fun w => w.2 != pa }
  ks.foldl (fun acc k => acc.modThr k fun t =>
    match t.state with
    | .waiting (.caps ..) => t.release s.time
    | _ => t) s1

/-- A thread leaves every waiter list; its core does not retry its CAPS either (R350). -/
def State.dropWaiter (s : State) (k : Nat) : State :=
  ({ s with sluices := s.sluices.map fun d => { d with waiters := d.waiters.filter fun w => w.1 != k } } : State).modThr k fun t =>
    match t.state with
    | .waiting (.caps r _) => { t with state := .waiting (.caps r false) }
    | _ => t

/-- A thread waits for a record: on its waiter list where that has room, otherwise retried by its core (R350). `va` is
the record's virtual address. -/
def State.waitRecord (s : State) (k pa va : Nat) : State :=
  let d := sluiceOf s pa
  if (s.sluiceAt d).waiters.length < Config.waiterCapacity then
    (s.modSluice d fun d => { d with waiters := Tbl.put k pa d.waiters }).modThr k fun t => { t with state := .waiting (.caps va false) }
  else s.modThr k fun t => { t with state := .waiting (.caps va true) }

/-! ### Descheduling (R189, R347, R350) -/

/-- Every held record whose runner has an identity is marked; DESCHED set wakes the record's waiters. -/
def State.deschedule (s : State) (ident : Nat) : State :=
  (s.sluices.flatMap (·.records)).foldl (fun acc pa =>
    let r := acc.record pa
    if r.runner = some ident then (acc.setRecord pa { r with desched := true, running := false }).wakeRecord pa else acc) s

/-- DESCHED cleared for the records whose runner is still this identity (R189). -/
def State.reschedule (s : State) (ident : Nat) : State :=
  (s.sluices.flatMap (·.records)).foldl (fun acc pa =>
    let r := acc.record pa
    if r.runner = some ident && r.desched then acc.setRecord pa { r with desched := false, running := true } else acc) s

/-- A thread with capsule state ends (R347): descheduled for good; a holder's identity is dead. -/
def State.capsuleEnds (s : State) (c : Capsule) : State :=
  let s1 := s.deschedule c.ident
  if c.adopter then s1 else { s1 with sluices := s1.sluices.map fun d => { d with dead := c.ident :: d.dead } }

/-! ### Displaced results (R351) -/

/-- c0 … c7 stand at x216 … x223 (R23). -/
def cReg (i : Nat) : Nat := 216 + i

/-- MODE becomes none and the thread goes on at an address. -/
def Thread.leaveCapsule (now pc : Nat) (t : Thread) : Thread := { t with capsule := none, pc := pc, state := .ready, readyAt := now }

/-- The address after the capsule's CEND (R183, R189). -/
def Capsule.past (c : Capsule) : Nat := addr48 (c.code + 12 + 12 * c.n + 12)

/-- The holder collects its result (R189, R351): c0–c3 loaded, the entry freed. -/
def Thread.collect (now : Nat) (c : Capsule) (d : Displaced) (t : Thread) : Thread :=
  let regs := (List.range 4).foldl (fun rs i => rs.set (cReg i) (d.c.getD i 0)) t.regs
  ({ t with regs := regs }.heal (cReg 0) 4).leaveCapsule now c.past

/-- The entry of a holder. -/
def State.findDisplaced (s : State) (pa holder : Nat) : Option Displaced :=
  (s.sluices.flatMap (·.displaced)).find? fun d => d.record == pa && d.holder == holder

def State.dropDisplaced (s : State) (pa holder : Nat) : State :=
  { s with sluices := s.sluices.map fun x => { x with displaced := x.displaced.filter fun d => !(d.record == pa && d.holder == holder) } }

/-- The thread that waits for the result of a record and holder, if it does; one that is Stopped collects it when it continues
(R400). -/
def State.displacedWaiter (s : State) (pa holder : Nat) : Option (Nat × Capsule) :=
  s.threads.findSome? fun kt =>
    match kt.2.state, kt.2.capsule with
    | .waiting (.displaced _ rec), some c => if c.ident = holder && rec == pa && !kt.2.isStopped then some (kt.1, c) else none
    | _, _ => none

/-! ### Overflow areas (R341, R342) -/

/-- Entries that a partition's overflow area at a die holds (R341, R370). -/
def State.overflowCap (s : State) (part die : Nat) : Nat := (((s.partAt part).overflow.find die).map (·.2)).getD 0

/-- Entries of a partition that stand in its overflow area at a die. -/
def State.overflowUsed (s : State) (part die : Nat) : Nat :=
  (s.monitors.filter fun m => m.overflow && m.part == part && sluiceOf s m.pa == die).length
    + ((s.sluiceAt die).displaced.filter fun d => d.overflow && d.part == part).length

/-- A partition's overflow area at a die has room. -/
def State.overflowRoom (s : State) (part die : Nat) : Bool := decide (s.overflowUsed part die < s.overflowCap part die)

/-- The displaced-result table of a die has room. -/
def State.displacedTable (s : State) (die : Nat) : Bool :=
  decide (((s.sluiceAt die).displaced.filter fun d => !d.overflow).length < 256)

/-- Room for one more displaced result of a partition. (DEDUCED, log entry 28) -/
def State.displacedRoom (s : State) (part die : Nat) : Bool := s.displacedTable die || s.overflowRoom part die

/-- Where a new monitor goes, as `inSluice` and `overflow`; none where no room is left. (DEDUCED, log entry 28) -/
def State.monitorRoom (s : State) (part pa : Nat) (sync : Bool) : Option (Bool × Bool) :=
  let sl := s.sliceOf pa
  let die := sl / 32
  if !sync && (s.monitors.filter fun m => !m.inSluice && s.sliceOf m.pa == sl).length < 1024 then some (false, false)
  else if (s.monitors.filter fun m => m.inSluice && !m.overflow && sluiceOf s m.pa == die).length < 16384 then some (true, false)
  else if s.overflowRoom part die then some (true, true)
  else none

/-! ### Posting a result (R187, R351) -/

/-- A result posted by an adopter's CEND (R187, R351). -/
def State.postDisplaced (s : State) (pa part holder : Nat) (cs : List Word) : State :=
  let d := sluiceOf s pa
  if (s.sluiceAt d).dead.contains holder then s
  else
    let x : Displaced := ⟨part, pa, holder, cs, !s.displacedTable d⟩
    match s.displacedWaiter pa holder with
    | some (k, c) => s.modThr k fun t => t.collect s.time c x
    | none => s.modSluice d fun S => { S with displaced := S.displaced ++ [x] }

end Sys2Proof.Machine
end

