-- ==== Sys2Proof/Machine/Translate.lean ====
section
/-! DEFINITION. Address translation (10 R267–R274): the two walks, permissions, page records and the TLB. -/

namespace Sys2Proof.Machine

/-- The kind of an access, for permissions and for ACC of the fault record (R319). -/
inductive Acc where
  | load
  | store
  | fetch
  | atomic
deriving DecidableEq, Repr

/-- How a translation fails (R272, R274): stage-1 permission, with SYNC of the page; a replayable fault with its kind,
intermediate address and whether a walk read failed; or a page record that differs. -/
inductive XFail where
  | perm (sync : Bool)
  | fault (kind ipa : Nat) (walk : Bool)
  | aliased
deriving DecidableEq, Repr

/-- A leaf reached by a walk: output address, the bits of its page, permissions, SYNC, class and key. -/
structure Leaf where
  oa : Nat
  bits : Nat
  rd : Bool
  wr : Bool
  ex : Bool
  sync : Bool
  pcl : Nat
  key : Nat
deriving DecidableEq, Repr

/-- Bits of the page that a leaf maps: 29 at level 2, 16 or 21 at level 3 (R267). -/
def leafBits (level e : Nat) : Nat := if level = 2 then 29 else if field e 7 2 = 1 then 21 else 16

/-- A malformed entry (R268); the range rule of stage-2 outputs is checked apart. -/
def entryMalformed (stage2 : Bool) (level e : Nat) : Bool :=
  let leaf := bit e 1
  (leaf && level == 1) || (!leaf && level == 3)
    || (field e 7 2 != 0 && !(leaf && level == 3)) || field e 7 2 ≥ 2
    || (leaf && field e 16 32 * 65536 % 2 ^ leafBits level e != 0)
    || (stage2 && leaf && (field e 10 2 == 3 || (field e 10 2 == 0 && field e 48 13 != 0)))

/-- The index of an address in a table of a level (R267). -/
def tableIndex (level a : Nat) : Nat :=
  match level with
  | 1 => field a 42 6
  | 2 => field a 29 13
  | _ => field a 16 13

/-- The leaf of an entry, for an address. -/
def leafOf (level e a : Nat) : Leaf :=
  ⟨field e 16 32 * 65536 + a % 2 ^ leafBits level e, leafBits level e, bit e 3, bit e 4, bit e 5, bit e 9, field e 10 2, field e 48 13⟩

/-- The address bits that index the entries of a level: all above the span of one (R267). -/
def levelIndex (level a : Nat) : Nat :=
  match level with
  | 1 => a / 2 ^ 42
  | 2 => a / 2 ^ 29
  | _ => a / 2 ^ 16

/-- Why a walk fails: the kind, the intermediate address, and whether a walk read failed. -/
abbrev WalkErr := Nat × Nat × Bool

/-- The next level. A table walk has three. `rd` reads an entry by its level and address, with the page it was read
through and the table entries that its own translation passed; `mk` names a table entry for the walk cache. -/
def walkFrom (stage2 : Bool) (rd : Nat → Nat → Except WalkErr (Nat × Nat × List WalkEntry))
    (mk : Nat → Nat → Nat → WalkEntry) (absent malf a : Nat) : Nat → Nat → Nat → Except WalkErr (Leaf × List WalkEntry)
  | 0, _, _ => .error (malf, a, true)
  | fuel + 1, level, table =>
    match rd level (table + 8 * tableIndex level a) with
    | .error k => .error k
    | .ok (e, page, ws) =>
      if !bit e 0 then .error (absent, a, false)
      else if entryMalformed stage2 level e then .error (malf, a, false)
      else if bit e 1 then .ok (leafOf level e a, ws)
      else
        match walkFrom stage2 rd mk absent malf a fuel (level + 1) (field e 16 32 * 65536) with
        | .error k => .error k
        | .ok (l, ws') => .ok (l, ws ++ mk level page e :: ws')

/-- The entry of the walk cache for a table of a level (R270). -/
def walkFind (wc : List WalkEntry) (part : Nat) (owner : Option Nat) (level a : Nat) : Option WalkEntry :=
  wc.find? fun w => w.part == part && w.owner == owner && w.level == level && w.index == levelIndex level a

/-- The 64 KiB pages of the page of 2^bits bytes that holds an address. -/
def pagesOf (bits a : Nat) : List Nat :=
  (List.range (2 ^ (bits - 16))).map (a / 2 ^ bits * 2 ^ (bits - 16) + ·)

/-- A stage-2 leaf that the partition may not hold (R258, R372, R375, R376): its key, its output, which is all of the
page it maps (DEDUCED, log entry 98), and what a protected world adds. -/
def badOutput (s : State) (part : Nat) (l : Leaf) : Bool :=
  let p := s.partAt part
  (l.key != 0 && !(p.keyBase ≤ l.key && l.key < p.keyBase + p.keyCnt)) || (p.world && l.pcl == 0)
    || (match prange s l.oa with
        | .noMemory => true
        | .view n => ((s.regions[n]?).bind (·.part)) != some part
        | .hbm => !(pagesOf l.bits l.oa).all fun pg => s.pageParts.find pg == some part
        | .host => p.world
        | .pritch => false)

/-- The page of a stage-2 table has a record (R274). -/
def State.tableHeld (s : State) (a : Nat) : Bool :=
  match prange s a with
  | .hbm => (s.pageRecs.find (a / 65536)).isSome
  | _ => true

/-- The stage-2 walk of an intermediate address (R267), with a walk cache. Its reads are made as LD.nl: a stash-owned
line gives the window's bytes (R269). -/
def State.walk2 (s : State) (wc : List WalkEntry) (part ipa : Nat) : Except WalkErr (Leaf × List WalkEntry) :=
  let rd (level a : Nat) : Except WalkErr (Nat × Nat × List WalkEntry) :=
    match walkFind wc part none level ipa with
    | some w => .ok (w.entry, w.ipage, [])
    | none =>
      if s.isPoisoned a 8 || !s.tableHeld a then .error (4, ipa, true) else .ok (leNat (s.homeBytes a 8), ipa / 65536, [])
  let mk (level page e : Nat) : WalkEntry := ⟨part, none, level, levelIndex level ipa, page, e⟩
  match walkFrom true rd mk 3 4 ipa 3 1 (s.partAt part).s2root with
  | .error k => .error k
  | .ok (l, ws) => if badOutput s part l then .error (4, ipa, false) else .ok (l, ws)

/-- The stage-2 walk that a device makes, without a walk cache. -/
def State.stage2 (s : State) (part ipa : Nat) : Except WalkErr Leaf := (s.walk2 [] part ipa).map (·.1)

/-- Whether the page records allow an access through a leaf (R274): HBM pages by their own record, views by the
record of the stored bytes' page. -/
def State.recordOk (s : State) (pa pcl key : Nat) : Bool :=
  match prange s pa with
  | .hbm => s.pageRecs.find (pa / 65536) == some ⟨pcl, key⟩
  | .view n =>
    match s.regionAt n pa with
    | some r =>
      let (a, _) := elemAt r.sbase r.sfmt ((pa - r.vbase) / r.vsize)
      s.pageRecs.find (a / 65536) == some ⟨pcl, key⟩
    | none => false
  | _ => true

/-- A physical address reached through stage 2 alone with load permission, for device structures at intermediate
addresses (tables of R370, save areas of R329). -/
def State.ipaToPa (s : State) (part ipa : Nat) (acc : Acc) : Except XFail Nat :=
  match s.stage2 part ipa with
  | .error (k, i, w) => .error (.fault k i w)
  | .ok l =>
    let ok := match acc with
      | .load => l.rd | .store => l.wr | .fetch => l.ex | .atomic => l.rd && l.wr
    if !ok then .error (.fault 5 ipa false)
    else if !s.recordOk l.oa l.pcl l.key then .error .aliased
    else .ok l.oa

/-- The stage-1 walk of a virtual address (R267), with a walk cache; its reads go through stage 2. -/
def State.walk1 (s : State) (wc : List WalkEntry) (part owner root va : Nat) : Except WalkErr (Leaf × List WalkEntry) :=
  let rd (level a : Nat) : Except WalkErr (Nat × Nat × List WalkEntry) :=
    match walkFind wc part (some owner) level va with
    | some w => .ok (w.entry, w.ipage, [])
    | none =>
      match s.walk2 wc part a with
      | .error (k, i, _) => .error (k, i, true)
      | .ok (l, ws) =>
        if !l.rd then .error (5, a, true)
        else if !s.recordOk l.oa l.pcl l.key || s.isPoisoned l.oa 8 then .error (2, a, true)
        else .ok (leNat (s.homeBytes l.oa 8), a / 65536, ws)
  let mk (level page e : Nat) : WalkEntry := ⟨part, some owner, level, levelIndex level va, page, e⟩
  match walkFrom false rd mk 1 2 va 3 1 root with
  | .error (k, i, w) => .error (k, if w then i else 0, w)
  | .ok x => .ok x

/-- Whether permissions allow an access (R268). -/
def permits (acc : Acc) (rd wr ex : Bool) : Bool :=
  match acc with
  | .load => rd
  | .store => wr
  | .fetch => ex
  | .atomic => rd && wr

/-- A translation: physical address and SYNC. -/
structure Xlat where
  pa : Nat
  sync : Bool
deriving DecidableEq, Repr

/-- What an access through a translation gives (R268, R272, R274): the permissions of stage 1, then of stage 2, then the
page record. -/
def TlbEntry.use (e : TlbEntry) (va : Nat) (acc : Acc) : Except XFail Xlat :=
  if !permits acc e.rd1 e.wr1 e.ex1 then .error (.perm e.sync)
  else if !permits acc e.rd2 e.wr2 e.ex2 then .error (.fault 5 (e.ipage * 65536 + va % 2 ^ e.bits) false)
  else if e.aliased then .error .aliased
  else .ok ⟨e.ppage * 65536 + va % 2 ^ e.bits, e.sync⟩

/-- The first 64 KiB page of a page of 2^bits bytes. -/
def pageBase (bits a : Nat) : Nat := a / 2 ^ bits * 2 ^ (bits - 16)

/-- The walk of both stages (R269, R272, R274): the translation of the smaller page of the two (R268), with the records of
all that it maps compared (DEDUCED, log entry 98). -/
def State.walkBoth (s : State) (wc : List WalkEntry) (part owner root va : Nat) (acc : Acc) :
    Except XFail (TlbEntry × List WalkEntry) :=
  match s.walk1 wc part owner root va with
  | .error (k, i, w) => .error (.fault k i w)
  | .ok (l1, ws) =>
    if !permits acc l1.rd l1.wr l1.ex then .error (.perm l1.sync)
    else
      match s.walk2 wc part l1.oa with
      | .error (k, i, w) => .error (.fault k i w)
      | .ok (l2, ws') =>
        if !permits acc l2.rd l2.wr l2.ex then .error (.fault 5 l1.oa false)
        else
          let b := min l1.bits l2.bits
          let page := pageBase b l2.oa
          let ok := (pagesOf b l2.oa).all fun pg => s.recordOk (pg * 65536) l2.pcl l2.key
          .ok ({ part := part, owner := owner, bits := b, vpage := pageBase b va, ipage := pageBase b l1.oa, ppage := page
                 rd1 := l1.rd, wr1 := l1.wr, ex1 := l1.ex, rd2 := l2.rd, wr2 := l2.wr, ex2 := l2.ex
                 sync := l1.sync, pcl := l2.pcl, key := l2.key, aliased := !ok }, ws ++ ws')

/-- A translation that a device makes for an owner, without a TLB. -/
def State.walk (s : State) (part owner root va : Nat) (acc : Acc) : Except XFail Xlat :=
  match s.walkBoth [] part owner root va acc with
  | .error x => .error x
  | .ok (e, _) => e.use va acc

/-- Whether a cached translation is that of an address. -/
def TlbEntry.maps (part owner va : Nat) (e : TlbEntry) : Bool :=
  e.part == part && e.owner == owner && e.vpage == pageBase e.bits va

/-- The cached translation of an address: of the quadrant's TLB, or of its core's shared one (R270). -/
def State.tlbFind (s : State) (core : Nat) (quad : Option Nat) (part owner va : Nat) : Option TlbEntry :=
  (quad.bind fun q => (s.quadAt q).tlb.find? (TlbEntry.maps part owner va))
    <|> (s.coreAt core).tlb.find? (TlbEntry.maps part owner va)

/-- Translation at an issue on a core (R153, R269): the cached one, whatever the tables hold by now, otherwise a walk. -/
def State.translate (s : State) (core : Nat) (quad : Option Nat) (part owner root va : Nat) (acc : Acc) : Except XFail Xlat :=
  match s.tlbFind core quad part owner va with
  | some e => e.use va acc
  | none =>
    match s.walkBoth (s.coreAt core).walks part owner root va acc with
    | .error x => .error x
    | .ok (e, _) => e.use va acc

/-- A cache of `cap` entries with one more: which entry leaves a full one is not fixed (R270).
(DESIGN CHOICE, log entry 31) -/
def cacheIn {α : Type} (cap victim : Nat) (l : List α) (x : α) : List α :=
  (if l.length < cap then l else l.eraseIdx (victim % cap)) ++ [x]

/-- The caches after a translation: the quadrant's TLB and the shared one take it, the walk cache the tables that its
walk passed (R270). -/
def State.tlbFill (s : State) (core : Nat) (quad : Option Nat) (part owner root va : Nat) (acc : Acc) : State :=
  let toQuad (e : TlbEntry) (s : State) : State :=
    match quad with
    | some q =>
      if (s.quadAt q).tlb.any (TlbEntry.maps part owner va) then s
      else s.modQuad q fun Q => { Q with tlb := cacheIn 64 (s.free (va / 65536 * 8 + 1)) Q.tlb e }
    | none => s
  match s.tlbFind core quad part owner va with
  | some e => toQuad e s
  | none =>
    match s.walkBoth (s.coreAt core).walks part owner root va acc with
    | .ok (e, ws) =>
      toQuad e (s.modCore core fun c =>
        { c with
          tlb := cacheIn 2048 (s.free (va / 65536 * 8 + 2)) c.tlb e
          walks := (ws.filter fun w => !c.walks.contains w).foldl (cacheIn 256 (s.free (va / 65536 * 8 + 3))) c.walks })
    | .error _ => s

/-- The cached translations of a page whose record has changed: one that maps a page whose record is not its leaf's makes
every access trap ALIAS, until it is invalidated (R274, R376, R379). -/
def State.aliasEntries (s : State) : State :=
  let mark (e : TlbEntry) : TlbEntry :=
    { e with aliased := e.aliased || !(pagesOf e.bits (e.ppage * 65536)).all fun pg => s.recordOk (pg * 65536) e.pcl e.key }
  { s with
    quads := s.quads.changeAll fun _ Q => { Q with tlb := Q.tlb.map mark }
    cores := s.cores.changeAll fun _ C => { C with tlb := C.tlb.map mark } }

/-- Translation for a thread: through its owner's stage 1 and its partition's stage 2 (R152). -/
def State.translateFor (s : State) (k va : Nat) (acc : Acc) : Except XFail Xlat :=
  let o := s.slotOfThread k
  s.translate (coreOf k) (some (quadKeyOf k)) (s.partOf (coreOf k)) o.owner o.s1root va acc

/-- The TLB fill of a thread's access. -/
def State.tlbFillFor (s : State) (k va : Nat) (acc : Acc) : State :=
  let o := s.slotOfThread k
  s.tlbFill (coreOf k) (some (quadKeyOf k)) (s.partOf (coreOf k)) o.owner o.s1root va acc

end Sys2Proof.Machine
end

