-- ==== Sys2Proof/Machine/Ops.lean ====
section
/-! DEFINITION. Operations on threads that the meanings share: fault records (14 R318–R321), taking a trap and
returning from one (08 R223–R226), parking, ending, waiting and releasing (01 R12, R29; 04 R107, R109, R113), and the
tests on a thread's pending requests (06 R159, 09 R239). -/

namespace Sys2Proof.Machine

/-! ### Fault records -/

/-- The 64 bytes of a fault record (R319). -/
def FaultRec.bytes (r : FaultRec) : List Byte :=
  leBytes 8 (r.owner * 2 ^ 48 + r.ctx % 4096 * 2 ^ 36 + r.detail * 2 ^ 16 + r.src * 2 ^ 8 + r.kind)
    ++ leBytes 8 r.seq ++ leBytes 8 (addr48 r.va) ++ leBytes 8 (addr48 r.ipa)
    ++ leBytes 8 (r.acc * 2 ^ 56 + addr48 r.pc) ++ leBytes 4 r.done ++ leBytes 4 r.flt ++ leBytes 4 r.prog
    ++ leBytes 4 (r.queue * 2 ^ 20) ++ leBytes 4 (r.quad * 2 ^ 20 + r.slot * 2 ^ 16 + r.core) ++ leBytes 4 r.xinfo

def FaultRec.blank : FaultRec := ⟨0, 0, 0, 0, 0, 0, 0, 0, 0, 0, 0, 0, 0, 0, 0, 0, 0, 0⟩

/-- The number of the next record of the fault queue; PROD and CONS are counted without wrap here (R318). -/
def Part.fqNext (p : Part) : Nat := p.fqProd + p.fqDue.length

/-- The fault-queue word at 0x8600 as it reads (R318). -/
def Part.fqWord (p : Part) : Nat := p.fqProd % 2 ^ 32 * 2 ^ 32 + p.fqCons % 2 ^ 32

/-- Whether the fault queue has room (R318). Before SET_FAULTQ there is none. -/
def Part.fqRoom (p : Part) : Bool := decide (6 ≤ p.fqLog2) && decide (p.fqNext - p.fqCons < 2 ^ p.fqLog2)

/-- PROD raised past the records whose writes have passed their GWCT, in ring order: the wait of a .sys release (R318). -/
def Part.raiseProd (now : Nat) (p : Part) : Part :=
  let n := (p.fqDue.takeWhile (· < now)).length
  { p with fqProd := p.fqProd + n, fqDue := p.fqDue.drop n }

/-- A record written into the ring (R318); PROD follows when T has passed its GWCT. -/
def State.writeRecord (s : State) (p : Nat) (r : FaultRec) : State :=
  let q := s.partAt p
  let (s1, g) := s.writeLines none (q.fqBase + 64 * (q.fqNext % 2 ^ q.fqLog2)) r.bytes
  s1.modPart p fun q => { q with fqDue := q.fqDue ++ [g] }

/-- Posts a record (R318, R319): it takes the next SEQ; with a full ring it is held for a party that waits on it and
dropped and counted otherwise. Answers its SEQ. -/
def State.post (s : State) (p : Nat) (r : FaultRec) (party : Option Party) : State × Nat :=
  let q := s.partAt p
  let r := { r with seq := q.nextSeq }
  let s := s.modPart p fun q =>
    { q with
      nextSeq := q.nextSeq + 1
      parked := match party with | some w => q.parked.put r.seq w | none => q.parked }
  if q.fqRoom then (s.writeRecord p r, r.seq)
  else match party with
    | some _ => (s.modPart p fun q => { q with held := q.held ++ [r] }, r.seq)
    | none => (s.modPart p fun q => { q with lostEvents := q.lostEvents + 1 }, r.seq)

/-- The fields of a record that name a thread. -/
def State.recordOf (s : State) (k : Nat) : FaultRec :=
  { FaultRec.blank with
    owner := (s.slotOfThread k).owner
    ctx := s.ctxOfGrid (s.blkOf k).grid
    pc := (s.thr k).pc
    quad := quadOf k
    slot := slotOf k
    core := coreOf k }

/-- ACC bits of a record (R319). -/
def accBits (acc : Acc) (walk : Bool) : Nat :=
  (match acc with | .load => 1 | .store => 2 | .fetch => 4 | .atomic => 16) + (if walk then 8 else 0)

/-- The lanes of a list of threads as a mask. -/
def laneMask (ks : List Nat) : BitVec 32 := ks.foldl (fun m k => m ||| laneBit k) 0

/-- Threads park on a replayable fault (R13, R155): one record, DONE the lanes that committed, FLT those that faulted.
(DEDUCED, log entry 78) -/
def State.parkOn (s : State) (ks done : List Nat) (src kind va ipa acc : Nat) (prog : Nat) : State :=
  match ks with
  | [] => s
  | k :: _ =>
    let r := { s.recordOf k with
      src := src, kind := kind, va := va, ipa := ipa, acc := acc, prog := prog
      done := (laneMask done).toNat, flt := (laneMask ks).toNat }
    let (s', seq) := s.post (s.partOf (coreOf k)) r (some (.threads ks))
    ks.foldl (fun acc k => acc.modThr k fun t => { t with state := .parked seq, memo := [] }) s'

/-! ### Taking a trap and returning from one -/

/-- xstat.LEN of a unit's length in bytes (R33). -/
def lenCode (bytes : Nat) : Nat := match bytes with | 4 => 1 | 8 => 2 | 12 => 3 | _ => 0

/-- Bytes of a length code (R226). -/
def lenBytes (code : Nat) : Nat := 4 * code

/-- The latches that a trap inside a chain saves (R33): bk for the members that have issued; the others hold nothing
a program can have read, and xlat takes an undefined value for them (R8). (DESIGN CHOICE, log entry 75) -/
def savedLatches (s : State) (k : Nat) (t : Thread) : List Word :=
  (List.range 7).map fun i => t.latch.getD i (Config.freeWord s.fresh (k * 8 + i))

/-- A DOUBLE record for a trap at H, and the thread parked (R224, R319). -/
def State.doubleFault (s : State) (k cause info : Nat) : State :=
  let pc := (s.thr k).pc
  let r := { s.recordOf k with kind := 6, detail := cause, va := pc, xinfo := info % 2 ^ 32 }
  let (s', seq) := s.post (s.partOf (coreOf k)) r (some (.double k pc))
  s'.modThr k fun t => { t with state := .parked seq, memo := [] }

/-- The trap state of a trap at `t` (R33, R223): the PC, the cause, its detail, and LEN, CPOS and CHN with PPRV 0. -/
def State.trapState (s : State) (k : Nat) (t : Thread) (cause info len : Nat) (chn : Bool) : TrapState :=
  { t.trap with
    xpc := BitVec.ofNat 64 t.pc
    xcause := BitVec.ofNat 32 cause
    xinfo := BitVec.ofNat 64 info
    xstat := BitVec.ofNat 32 (len * 2 ^ 8 + (if chn then t.latch.length * 2 ^ 5 + 2 ^ 4 else 0))
    xlat := if chn then savedLatches s k t else t.trap.xlat }

/-- TAKING A TRAP (R33, R223, R224, R315): the one operation for every cause. `len` is the length code of the unit at
the PC, `chn` whether the trap strikes inside a chain. -/
def State.trap (s : State) (k cause info len : Nat) (chn : Bool) : State :=
  if (s.thr k).handler then s.doubleFault k cause info
  else
    let tvec := (s.slotOfThread k).tvec
    s.modThr k fun t =>
      { t with
        trap := s.trapState k t cause info len chn
        handler := true
        pc := addr48 (tvec + 64 * cause)
        state := .ready
        readyAt := s.time
        chain := false
        latch := []
        memo := []
        counted := false
        stepTrap := t.stepTrap && !t.stepDue
        stepDue := false }

/-- RETURNING FROM A TRAP (R226): privilege from PPRV, the PC given, the chain resumed at CPOS where CHN is 1. -/
def State.trapReturn (s : State) (k target : Nat) : State :=
  s.modThr k fun t =>
    let x := t.trap.xstat.toNat
    let pos := field x 5 3
    { t with
      handler := bit x 3
      pc := target
      chain := bit x 4 && pos != 0
      latch := if bit x 4 then t.trap.xlat.take pos else [] }

/-! ### Becoming Ready -/

/-- Every thread of the package that waits in a way a test accepts is released. -/
def State.wake (s : State) (p : Nat → Wait → Bool) : State :=
  { s with
    threads := s.threads.changeAll fun k t =>
      match t.state with
      | .waiting w => if p k w then t.release s.time else t
      | _ => t }

/-! ### Rejoin barriers (R29, R113) -/

/-- The release test of one rejoin barrier. The threads released form a bundle (R114). -/
def State.testRejoin (s : State) (g j : Nat) : State :=
  let G := s.grp g
  let e := G.enrolled.getD j 0
  if e != 0 && G.arrived.getD j 0 == e then
    let ks := s.threadsIn fun k => groupOf k == g && (s.thr k).state == .waiting (.rejoin j) && !(s.thr k).isStopped
    let s1 := (s.modGrp g fun G => { G with enrolled := G.enrolled.set j 0, arrived := G.arrived.set j 0 }).wake
      fun k w => groupOf k == g && w == .rejoin j
    if ks.isEmpty then s1 else s1.modQuad (g / 16) fun Q => { Q with formed := Q.formed ++ [⟨ks, 0, none, none, false, []⟩] }
  else s

/-! ### Block barriers (R109) -/

/-- The expected count of a phase: the live threads of the block where it is implicit. -/
def State.expected (s : State) (b : Nat) (bar : Barrier) : Nat :=
  if bar.implicit then (s.liveOfBlock b).length else bar.expected

def State.modBar (s : State) (b id : Nat) (f : Barrier → Barrier) : State :=
  s.modBlk b fun B => { B with bars := B.bars.modify id f }

/-- The release test of one block barrier. -/
def State.testBar (s : State) (b id : Nat) : State :=
  let bar := (s.blk b).bars.getD id .idle
  if bar.opened && bar.count ≥ s.expected b bar then
    (s.modBar b id fun _ => .idle).wake fun k w => (s.grpOf k).block == b && w == .bar id
  else s

/-! ### Ends of threads (R12, R107, R178) -/

/-- A group is resident under an owner slot of a core. -/
def State.slotUsed (s : State) (core o : Nat) : Bool := s.groups.any fun g => g.1 / 64 == core && g.2.oslot == o

/-- The group leaves its slot (R12): its registers and its threads' with it. An owner slot without a group notes when
it lost the last (R307). (DESIGN CHOICE, log entry 9) -/
def State.endGroup (s : State) (g : Nat) : State :=
  let b := (s.grp g).block
  let o := (s.grp g).oslot
  let s1 : State := { (s.modBlk b fun B => { B with groups := B.groups.filter (· != g) }) with
    groups := s.groups.del g
    threads := s.threads.filter fun kt => groupOf kt.1 != g }
  if s1.slotUsed (g / 64) o then s1 else s1.modSlot (g / 64) o fun sl => { sl with idleSince := s.time }

/-- A child of a block has not completed. -/
def State.childrenOut (s : State) (b : Nat) : Bool :=
  (s.blk b).children.any (fun c => !s.childDone c.2) || s.launches.any (fun l => match l.2.parent with
      | some (_, b') => b' == b && !l.2.complete
      | none => false)
    || s.childQs.any fun q => q.2.waiting.any fun c => c.block == b

/-- A block that has a retire record (R16): it has ended with children outstanding and its slots are free. -/
def State.hasRecord (s : State) (b : Nat) : Bool :=
  (s.blk b).retired || ((s.blk b).groups.isEmpty && s.childrenOut b)

/-- Retire records in use on a core (R16). -/
def State.retireRecords (s : State) (c : Nat) : Nat := (s.blocks.filter fun b => b.2.core == c && s.hasRecord b.1).length

/-- A block that has ended with children outstanding keeps its registers and slots while no retire record is free (R16). -/
def State.keepsBlock (s : State) (g : Nat) : Bool :=
  let b := (s.grp g).block
  (s.liveOfBlock b).isEmpty && s.childrenOut b && decide (256 ≤ s.retireRecords (g / 64))

/-- EXIT's steps for one thread (R107): its capsule (R347), rejoin barriers, implicit block barriers, leader record, and the
group when its live set is empty. -/
def State.endThread (s : State) (k : Nat) : State :=
  let g := groupOf k
  let b := (s.grp g).block
  let mask := ~~~ laneBit k
  let s0 : State := match (s.thr k).capsule with | some c => (s.capsuleEnds c).dropWaiter k | none => s
  let s1 := (s0.modGrp g fun G =>
      { G with
        enrolled := G.enrolled.map (· &&& mask)
        arrived := G.arrived.map (· &&& mask)
        live := G.live &&& mask
        leader := if G.leader = some (laneOf k) then none else G.leader }).modThr k
    fun t => { t with state := .ended, chain := false, latch := [], capsule := none }
  let s2 := (List.range 8).foldl (fun (acc : State) j => acc.testRejoin g j) s1
  let s3 := (List.range 16).foldl (fun (acc : State) id => if ((s.blk b).bars.getD id .idle).implicit then acc.testBar b id else acc) s2
  if (s3.grp g).live = 0 && !s3.keepsBlock g then s3.endGroup g else s3

/-! ### Fetch -/

/-- The word of the instruction cache whose unit starts at an address (R77, R257). -/
def Core.word (c : Core) (owner part pc : Nat) : Option ICWord :=
  match c.icache.find? fun f => f.owner == owner && f.part == part && f.line == pc / 128 with
  | some f => f.words.find pc
  | none => none

/-- The word at a thread's PC. (DEDUCED, log entry 49) -/
def State.fetchFor (s : State) (k : Nat) : Option ICWord :=
  (s.coreAt (coreOf k)).word (s.slotOfThread k).owner (s.partOf (coreOf k)) (s.thr k).pc

/-- The core without the word whose unit starts at an address (R84). -/
def Core.dropWord (c : Core) (owner part pc : Nat) : Core :=
  { c with
    icache := c.icache.map fun f =>
      if f.owner == owner && f.part == part && f.line == pc / 128 then { f with words := f.words.del pc } else f }

/-- Bytes of code of an owner at an address, page by page (R82, R84); none where a page has no translation. -/
def State.codeBytes (s : State) (k pc n : Nat) : Option (List Byte) :=
  let c := coreOf k
  let o := s.slotOfThread k
  let read (va m : Nat) : Option (List Byte) :=
    match s.translate c none (s.partOf c) o.owner o.s1root va .fetch with
    | .ok x => some (s.homeBytes x.pa m)
    | .error _ => none
  let m := min n (65536 - pc % 65536)
  if m = n then read pc n
  else do
    let xs ← read pc m
    let ys ← read (addr48 (pc + m)) (n - m)
    pure (xs ++ ys)

/-- The bytes of the unit at an address as memory holds them: its length is in its first byte (R65). -/
def State.unitBytes (s : State) (k pc : Nat) : Option (List Byte) :=
  (s.codeBytes k pc 1).bind fun b => s.codeBytes k pc (unitLength (b.headD 0))

/-- The word of a unit that a thread's core would fetch at an address (R77): the cache's, otherwise memory's. -/
def State.unitAt (s : State) (k pc : Nat) : Option ICWord :=
  match (s.coreAt (coreOf k)).word (s.slotOfThread k).owner (s.partOf (coreOf k)) pc with
  | some w => some w
  | none => (s.unitBytes k pc).map fun bs => .unit bs bs.length

/-- The length code of the unit at a thread's PC (R223): of the word in the cache, otherwise of the unit in memory. A
fill-fault word has none; where the PC has no translation the length is not known and free. (DESIGN CHOICE, log entry 85) -/
def State.lenCodeAt (s : State) (k : Nat) : Nat :=
  match s.unitAt k (s.thr k).pc with
  | some (.unit _ n) => lenCode n
  | some (.fillFault ..) => 0
  | none => s.free (k * 8 + 6) % 3 + 1

/-! ### What the end of an instruction brings (R328, R403) -/

/-- The retired-instruction counts of the contexts of the threads that passed an instruction (R328). -/
def State.retire (s : State) (core : Nat) (ctxs : List Nat) : State :=
  ctxs.foldl (fun acc x => acc.modCtx x fun c => { c with timers := c.timers.change core fun n => (n.1, n.2 + 1) }) s

/-- A thread passes one instruction. -/
def State.retireOne (s : State) (k : Nat) : State := s.retire (coreOf k) [s.ctxOfGrid (s.blkOf k).grid]

/-- The trap STEP of a thread whose instruction has now ended and did not end it, where it is due (R403); it is not taken where the instruction
trapped. -/
def State.endStep (s : State) (k : Nat) (trapped : Bool) : State :=
  if !(s.thr k).stepDue then s
  else
    let s1 := s.modThr k fun t => { t with stepDue := false, stepTrap := false }
    if trapped then s1 else s1.trap k 18 0 (s1.lenCodeAt k) false

/-! ### Pending requests of a thread (R159, R237, R239, R240) -/

/-- A request that counts as a load or store of its thread. -/
def ReqKind.access : ReqKind → Bool
  | .pref _ => false
  | .own .. => false
  | _ => true

/-- A request whose write returns a GWCT to its thread. -/
def ReqKind.writes : ReqKind → Bool
  | .store _ => true
  | .writeBack .. => true
  | .atomic .. => true
  | .commit .. => true
  | _ => false

def ReqState.isPerformed : ReqState → Bool
  | .performed .. => true
  | _ => false

/-- A request belongs to the thread now in its lane: an earlier thread of the lane was of another block. -/
def State.isOf (s : State) (k : Nat) (q : Req) : Bool := q.thread == k && q.block == (s.grpOf k).block

/-- The requests of a thread. -/
def State.reqsOf (s : State) (k : Nat) : List (Nat × Req) := s.reqs.filter fun r => s.isOf k r.2

/-- The bytes that a request touches: its own, and a CLD's or CST's in a commit. -/
def Req.spans (q : Req) : List (Space × Nat × Nat) :=
  (q.space, q.pa, q.size) :: (match q.kind with
    | .commit _ _ _ (some (a, _)) _ => [(a.space, a.pa, 4)]
    | .commit _ _ _ _ (some (a, _)) => [(a.space, a.pa, 4)]
    | _ => [])

/-- Two requests touch a common byte. -/
def Req.touches (e q : Req) : Bool :=
  e.spans.any fun x => q.spans.any fun y => x.1 == y.1 && overlaps x.2.1 x.2.2 y.2.1 y.2.2

/-- An earlier request of the thread keeps a later one from being performed (R239): it touches a byte of it or stands
before an ordering point and has not been performed, or it is an acquire that has not returned. So does the request of
a lower lane of the same bundle to a common byte (R154). -/
def Req.blocks (e q : Req) : Bool :=
  (e.block == q.block && e.thread == q.thread && decide (e.seq < q.seq)
      && (e.acquire || (!e.state.isPerformed && (e.epoch != q.epoch || e.touches q))))
    || (e.issuedAt == q.issuedAt && quadKeyOf e.thread == quadKeyOf q.thread && decide (laneOf e.thread < laneOf q.thread)
      && !e.state.isPerformed && e.touches q)

/-- The key from which on a read that an instruction sends only holds the translation of an access to come (R153). -/
def holdKey : Nat := 2000

/-- The request holds a translation. -/
def ReqKind.holds : ReqKind → Bool
  | .memo _ key => decide (holdKey ≤ key)
  | _ => false

/-- R239: the request may be performed now. -/
def State.mayPerform (s : State) (q : Req) : Bool := !(q.kind.holds && s.isOf q.thread q) && !s.reqs.any fun r => r.2.blocks q

/-- Every earlier load and store of the thread has been performed. -/
def State.allPerformed (s : State) (k : Nat) : Bool :=
  (s.reqsOf k).all fun r => !r.2.kind.access || r.2.state.isPerformed || r.2.kind.holds

/-- Every GWCT that enters the thread's wct has returned (R159, stage 1); `sys` counts the host path's too. -/
def State.gwctsIn (s : State) (k : Nat) (sys : Bool) : Bool :=
  (s.reqsOf k).all fun r => !(r.2.kind.writes && r.2.space != .spad && (sys || r.2.space != .hostPath))

/-- A value that the thread's registers wait for has not returned. -/
def State.awaiting (s : State) (k : Nat) : Bool :=
  (s.reqsOf k).any fun r => match r.2.kind with
    | .load .. => true
    | .memo .. => true
    | .query _ => true
    | .atomic _ _ _ _ (some _) _ => true
    | .arm .. => true
    | _ => false

/-- T > wct of a scope: 2 .die and 3 .pkg alike, 4 .sys; the narrower scopes do not wait (R177). -/
def State.pastWct (s : State) (k sc : Nat) : Bool :=
  match sc with
  | 0 | 1 => true
  | 4 => s.gwctsIn k true && decide (s.time > (s.thr k).wctSys) && decide (s.time > (s.thr k).wctPkg)
  | _ => s.gwctsIn k false && decide (s.time > (s.thr k).wctPkg)

/-- An ordering point of the thread (R240): requests issued later stand behind it. -/
def State.orderPoint (s : State) (k : Nat) : State := s.modThr k fun t => { t with epoch := t.epoch + 1 }

/-- A GWCT enters the thread's wct and its block's account (R159, R107); a host-path store enters wct.sys alone. -/
def State.enterWct (s : State) (k : Nat) (hostPath : Bool) (g : Nat) : State :=
  let s1 := s.modThr k fun t =>
    { t with wctPkg := if hostPath then t.wctPkg else max t.wctPkg g, wctSys := max t.wctSys g }
  s1.modBlk (s.grpOf k).block fun B => { B with wctMax := max B.wctMax g }

end Sys2Proof.Machine
end

