-- ==== Sys2Proof/Machine/Operands.lean ====
section
/-! DEFINITION. Operand forms: the classes that positions accept (R92, R151, R192, R215), the check of an operand code
(R71, R72, R22, R76), LATCH and INDEX (R24, R25), reads and writes of operands (R90), pending destinations. -/

namespace Sys2Proof.Machine

/-- The operand classes of R92, R151, R192 and R215; `srw`: a special register that MTS may write (R30); `target` is the
code of MFS.t and MTS.t, which is not checked. -/
inductive Cls where
  | none
  | v
  | w
  | p
  | x2
  | x4
  | c
  | c2
  | x3
  | x6
  | t16
  | t32
  | run (n : Nat)
  | s2
  | s3
  | sr
  | srw
  | target
deriving DecidableEq, Repr

/-- Registers that an operand of a class names. -/
def Cls.words : Cls → Nat
  | .x2 | .c2 | .s2 => 2
  | .x3 | .s3 => 3
  | .x4 => 4
  | .x6 => 6
  | .t16 => 16
  | .t32 => 32
  | .run n => n
  | _ => 1

/-- Whether a position accepts a code, for an allocation of `a` registers (R71, R72, R22). -/
def Cls.accepts (a : Nat) (cls : Cls) (code : Nat) : Bool :=
  match cls with
  | .none | .target => true
  | .v => decide (code < 224 ∧ code < a) || (225 ≤ code && code ≤ 231) || code == 240 || (256 ≤ code && code < 332) || 512 ≤ code
  | .w => decide (code < 224 ∧ code < a) || code == 240 || (256 ≤ code && code < 332) || 512 ≤ code
  | .p => 320 ≤ code && code < 328
  | .x2 | .x4 => decide (code < 224 ∧ code + cls.words ≤ a) || code == 240 || 512 ≤ code
  | .x3 | .x6 | .run _ => decide (code < 224 ∧ code + cls.words ≤ a) || 512 ≤ code
  | .t16 | .t32 => decide (code < 224 ∧ code + cls.words ≤ a)
  | .c => decide (216 ≤ code ∧ code < 224 ∧ code < a)
  | .c2 => decide (216 ≤ code ∧ code < 223 ∧ code + 1 < a)
  | .s2 => 256 ≤ code && code ≤ 318
  | .s3 => 256 ≤ code && code ≤ 317
  | .sr => 332 ≤ code && code < 378
  | .srw => 349 ≤ code && code < 373

/-- What an instruction does with its operand fields: the class of each position, whether D is read, whether it is
written, the predicates read beside the guard, and whether the instruction may stand in a chain (R75). -/
structure Form where
  d : Cls
  a : Cls
  b : Cls
  dRead : Bool
  dWrite : Bool
  preds : List Nat
  chainable : Bool
deriving DecidableEq, Repr

/-- xinfo of ILLOPD (R222). -/
def illopdInfo (pos code : Nat) : Nat := pos * 2 ^ 10 + code

/-- Check 4 of R76 for one header: the first position, D then A then B, whose code is not accepted.
(DESIGN CHOICE, log entry 86) -/
def operandFault (alloc : Nat) (h : Hdr) (fm : Form) : Option Nat :=
  if !fm.d.accepts alloc h.d.toNat then some (illopdInfo 0 h.d.toNat)
  else if !fm.a.accepts alloc h.a.toNat then some (illopdInfo 1 h.a.toNat)
  else if h.imm.isNone && !fm.b.accepts alloc h.b.toNat then some (illopdInfo 2 h.b.toNat)
  else none

/-! ### Names of registers after indexing

A resolved code names a register without an index: 0–223 x, 225–231 b, 240 zero, 256–319 s, 320–327 p, 328–331 k. -/

/-- An indexed operand resolved (R24), or the xinfo of INDEX (R222). -/
def resolve (t : Thread) (pos : Nat) (cls : Cls) (code : Nat) : Except Nat Nat :=
  if code < 512 then .ok code
  else
    let n := (t.ks.getD (field code 7 2) 0).toNat
    let idx := field n 0 8
    let lim := field n 8 8
    let i := field code 0 7 + idx
    let past := match cls with
      | .run m => decide (idx + m > lim)
      | _ => decide (idx ≥ lim)
    if past || i + cls.words > t.regs.length then
      .error (pos * 2 ^ 26 + field code 7 2 * 2 ^ 24 + field code 0 7 * 2 ^ 16 + lim * 2 ^ 8 + idx)
    else .ok i

/-- A latch operand that may not be read (R25): the k of xinfo. -/
def latchFault (t : Thread) (code : Nat) : Option Nat :=
  if 225 ≤ code && code ≤ 231 then
    let k := code - 224
    if !t.chain || t.latch.length < k then some k else none
  else none

/-- Whether a matrix operation that MWAIT has not yet covered makes a register's content undefined (R200). -/
def Thread.hazardous (t : Thread) (i : Nat) : Bool := t.hazards.any fun z => z.base ≤ i && i < z.base + z.count

/-- An x register as a source. (DESIGN CHOICE, log entry 15) -/
def State.readX (s : State) (k i : Nat) : Word :=
  let t := s.thr k
  if t.hazardous i then Config.freeWord s.fresh (k * 256 + i) else t.regs.getD i 0

/-- A register by its resolved code, as a 32-bit source (R90). -/
def State.readReg (s : State) (k code : Nat) : Word :=
  let t := s.thr k
  if code < 224 then s.readX k code
  else if code < 232 then t.latch.getD (code - 225) 0
  else if code < 256 then 0
  else if code < 320 then (s.grpOf k).s.getD (code - 256) 0
  else if code < 327 then BitVec.ofNat 32 (b2n (t.preds.getLsbD (code - 320)))
  else if code = 327 then 1
  else (t.ks.getD (code - 328) 0).zeroExtend 32

/-- A run of registers as one number, lowest register lowest (R6, R151); the zero code reads 0. -/
def State.readRun (s : State) (k code : Nat) : Nat → Nat
  | 0 => 0
  | n + 1 => if code = 240 then 0 else (s.readReg k code).toNat + 2 ^ 32 * s.readRun k (code + 1) n

/-- A predicate as a source: p7 is 1. -/
def Thread.pred (t : Thread) (i : Nat) : Bool := i == 7 || t.preds.getLsbD i

/-- The guard of a thread (R68). -/
def Thread.guard (t : Thread) (h : Hdr) : Bool := t.pred h.gp.toNat != h.gn

/-- A predicate written; p7 discards (R25). -/
def Thread.setPred (t : Thread) (i : Nat) (v : Bool) : Thread :=
  if i < 7 then { t with preds := if v then t.preds ||| BitVec.ofNat 7 (2 ^ i) else t.preds &&& ~~~ BitVec.ofNat 7 (2 ^ i) }
  else t

/-- A write to a register of a matrix operation whose MWAIT has not come is noted (R200). -/
def Hazard.note (i : Nat) (z : Hazard) : Hazard :=
  if z.base ≤ i && i < z.base + z.count then { z with written := i :: z.written.filter (· != i) } else z

/-- An x register written. -/
def Thread.setX (i : Nat) (v : Word) (t : Thread) : Thread :=
  { t with regs := t.regs.set i v, hazards := t.hazards.map (Hazard.note i), bad := t.bad.filter (· != i) }

/-- An s register written. -/
def Group.setS (i : Nat) (v : Word) (G : Group) : Group := { G with s := G.s.set i v, badS := G.badS.filter (· != i) }

/-- A register written by its resolved code (R90); 240 and p7 discard. -/
def State.writeReg (s : State) (k code : Nat) (v : Word) : State :=
  if code < 224 then s.modThr k (Thread.setX code v)
  else if code < 256 then s
  else if code < 320 then s.modGrp (groupOf k) (Group.setS (code - 256) v)
  else if code < 328 then s.modThr k fun t => t.setPred (code - 320) (v.getLsbD 0)
  else if code < 332 then s.modThr k fun t => { t with ks := t.ks.set (code - 328) (v.truncate 16) }
  else s

/-- A run of registers written from one number. -/
def State.writeRun (s : State) (k code v : Nat) : Nat → State
  | 0 => s
  | n + 1 =>
    if code = 240 then s
    else (s.writeReg k code (BitVec.ofNat 32 v)).writeRun k (code + 1) (v / 2 ^ 32) n

/-- The source values of a lane and the resolved code of its D. -/
structure Vals where
  d : Nat
  a : Nat
  b : Nat
  dst : Nat
deriving DecidableEq, Repr

/-- The B operand: the immediate, sign-extended where a 64-bit value is read (R69), or the register. -/
def State.readB (s : State) (k : Nat) (h : Hdr) (cls : Cls) (code : Nat) : Nat :=
  match h.imm with
  | some v => if cls.words = 2 then (v.signExtend 64).toNat else v.toNat
  | none => s.readRun k code cls.words

/-- A class that names registers of the issuing thread. -/
def Cls.isReg : Cls → Bool
  | .none | .sr | .srw | .target => false
  | _ => true

/-- The thread reads a register of a run that an uncorrectable error has struck: one of its own or of its group's s
registers (R276). -/
def State.readsBad (s : State) (k code n : Nat) : Bool :=
  ((s.thr k).bad.any fun r => decide (code ≤ r) && decide (r < code + n))
    || (s.grpOf k).badS.any fun i => decide (code ≤ 256 + i) && decide (256 + i < code + n)

/-- LATCH, then INDEX, on every operand of a lane in the order A, B, D (R76), then INTEGRITY of its registers (R276),
and the values. The error is the cause and xinfo. (DEDUCED, log entry 69; DESIGN CHOICE, log entries 86, 87) -/
def State.operands (s : State) (k : Nat) (h : Hdr) (fm : Form) : Except (Nat × Nat) Vals :=
  let t := s.thr k
  let bReg := fm.b.isReg && h.imm.isNone
  match (if fm.a.isReg then latchFault t h.a.toNat else none) <|> (if bReg then latchFault t h.b.toNat else none)
      <|> (if fm.d.isReg then latchFault t h.d.toNat else none) with
  | some n => .error (4, n)
  | none =>
    match (if fm.a.isReg then resolve t 1 fm.a h.a.toNat else .ok h.a.toNat) with
    | .error i => .error (6, i)
    | .ok ca =>
      match (if bReg then resolve t 2 fm.b h.b.toNat else .ok h.b.toNat) with
      | .error i => .error (6, i)
      | .ok cb =>
        match (if fm.d.isReg then resolve t 0 fm.d h.d.toNat else .ok h.d.toNat) with
        | .error i => .error (6, i)
        | .ok cd =>
          if (fm.a.isReg && s.readsBad k ca fm.a.words) || (bReg && s.readsBad k cb fm.b.words)
              || (fm.dRead && fm.d.isReg && s.readsBad k cd fm.d.words) then .error (16, 0)
          else
            .ok { d := if fm.d.isReg then s.readRun k cd fm.d.words else 0
                  a := if fm.a.isReg then s.readRun k ca fm.a.words else ca
                  b := if fm.b.isReg then s.readB k h fm.b cb else cb
                  dst := cd }

/-! ### Pending destinations -/

/-- The resolved codes that a request will write (R27, R158). -/
def ReqKind.dests : ReqKind → List (Nat × Nat)
  | .load _ _ _ d => [(d.code.toNat, d.words)]
  | .query d => [(d.code.toNat, d.words)]
  | .atomic _ _ _ _ (some d) _ => [(d.code.toNat, d.words)]
  | .arm _ d => [(d.code.toNat, d.words)]
  | .commit _ _ ws _ cld => (ws.map fun w => (w.1.toNat, 1)) ++ (match cld with | some (_, c) => [(c.toNat, 1)] | none => [])
  | _ => []

/-- A WAITG of a bundle that the thread was in still waits to write an s register (R27). -/
def State.waitsInto (s : State) (k code n : Nat) : Bool :=
  s.threads.any fun kt => groupOf kt.1 == groupOf k && (match kt.2.state with
    | .waiting (.waitg _ _ d (some (_, _, bundle))) => bundle.getLsbD (laneOf k) && overlaps d.toNat 1 code n
    | _ => false)

/-- Whether a thread waits on a pending value before it may use a register: its own, or an s register that a bundle it
was in writes (R27). -/
def State.busyReg (s : State) (k code n : Nat) : Bool :=
  code != 240 && ((s.reqs.any fun r =>
    let q := r.2
    q.block == (s.grpOf k).block
      && (q.thread == k || (256 ≤ code && code < 320 && groupOf q.thread == groupOf k && q.bundle.getLsbD (laneOf k)))
      && q.kind.dests.any fun d => d.1 != 240 && overlaps d.1 d.2 code n)
    || (256 ≤ code && code < 320 && s.waitsInto k code n))

/-- Whether an operand code is used by an instruction before it is ready; an indexed operand whose index register is
awaited is not ready either. -/
def State.busyOperand (s : State) (k : Nat) (cls : Cls) (code : Nat) : Bool :=
  cls.isReg &&
    (if code < 512 then s.busyReg k code cls.words
     else s.busyReg k (328 + field code 7 2) 1
      || (match resolve (s.thr k) 0 cls code with
          | .ok c => s.busyReg k c cls.words
          | .error _ => false))

/-- A thread that cannot read or write its operands yet. -/
def State.busy (s : State) (k : Nat) (h : Hdr) (fm : Form) : Bool :=
  (h.gp.toNat < 7 && s.busyReg k (320 + h.gp.toNat) 1)
    || s.busyOperand k fm.d h.d.toNat || s.busyOperand k fm.a h.a.toNat
    || (h.imm.isNone && s.busyOperand k fm.b h.b.toNat)
    || fm.preds.any fun p => p < 7 && s.busyReg k (320 + p) 1

/-- An operand position that names an s register as a source (R28); an s pair at A is HNEXT's, which is written. -/
def readsS (h : Hdr) (fm : Form) : Bool :=
  let isS (code : Nat) : Bool := 256 ≤ code && code < 320
  (fm.a.isReg && fm.a != .s2 && isS h.a.toNat) || (fm.b.isReg && h.imm.isNone && isS h.b.toNat)
    || (fm.dRead && fm.d.isReg && isS h.d.toNat)

end Sys2Proof.Machine
end

