-- ==== Sys2Proof/Machine/Flags.lean ====
section
/-! DEFINITION. The flags: fps and the NONFINITE trap (R32, R55, R56), fpc (R31) and %gstat.UDIV (R27, R28). -/

namespace Sys2Proof.Machine

/-- FTZ of a thread (R31). -/
def Thread.ftz (t : Thread) : Bool := t.fpc.getLsbD 7

/-- DPH of a thread (R31). -/
def Thread.phase (t : Thread) : Nat := field t.fpc.toNat 8 5

/-- The enabled events of a thread: TIV, TDZ, TOF and TNF stand at fpc[3], [5], [4] and [6]; an event mask has IV,
DZ, OF, NF at bits 0 to 3 as Fp keeps them, which is not the order of fps. -/
def enabledEvents (fpc : Word) : Events :=
  (if fpc.getLsbD 3 then evIV else 0) ||| (if fpc.getLsbD 5 then evDZ else 0)
    ||| (if fpc.getLsbD 4 then evOF else 0) ||| (if fpc.getLsbD 6 then evNF else 0)

/-- Events in the order of fps (R32): IV 0, OF 1, DZ 2, NF 3. -/
def fpsBits (e : Events) : BitVec 4 :=
  (if e &&& evIV != 0 then 1 else 0) ||| (if e &&& evOF != 0 then 2 else 0)
    ||| (if e &&& evDZ != 0 then 4 else 0) ||| (if e &&& evNF != 0 then 8 else 0)

/-- The union of the events of a lane's elements. -/
def allEvents (es : List Events) : Events := es.foldl (· ||| ·) 0

/-- The events set in fps; an instruction never clears one (R32). -/
def Thread.orFps (t : Thread) (e : Events) : Thread := { t with fps := t.fps ||| fpsBits e }

/-- The trap of a lane's events (R56, R222): the lowest element with an enabled event; of its enabled events IV before
DZ before OF before NF is reported. The element numbers are the positions in the list unless `base` shifts them. -/
def nonfinite (fpc : Word) (es : List Events) (base : Nat) : Option Nat :=
  let en := enabledEvents fpc
  match es.findIdx? fun e => e &&& en != 0 with
  | none => none
  | some i =>
    let e := es.getD i 0 &&& en
    let code := if e &&& evIV != 0 then 1 else if e &&& evDZ != 0 then 2 else if e &&& evOF != 0 then 3 else 4
    some ((fpsBits (allEvents es)).toNat * 2 ^ 16 + code * 2 ^ 8 + (base + i))

/-- UDIV of the groups that a bundle writes an s register of (R27): set where the passing threads of a group are not all
of its live threads and at least one commits. -/
def State.markUdiv (s : State) (passing committed : List Nat) : State :=
  committed.foldl (fun acc k =>
    let g := groupOf k
    let mask := laneMask (passing.filter fun j => groupOf j == g)
    if mask == (s.grp g).live then acc else acc.modGrp g fun G => { G with udiv := true }) s

/-- A group whose sticky bit traps the next reader (R28). -/
def State.udivTraps (s : State) (g : Nat) : Bool :=
  (s.grp g).udiv && (s.slotAt (g / 64) (s.grp g).oslot).udivt

end Sys2Proof.Machine
end

