-- ==== Sys2Proof/Machine/Driver.lean ====
section
/-! DEFINITION. How an instruction runs over its bundle: the decode checks (R76), guards (R68), chains and latches (R75),
operands, UDIV, the lanes in ascending order (R91, R155), steps of a capsule (R185), and the three shapes of entry: one
result per lane, once per bundle (R91), and capsule commits. -/

namespace Sys2Proof

/-! ### The hint field (R73) -/

def Hdr.chain (h : Hdr) : Bool := h.hint.getLsbD 9
def Hdr.nowb (h : Hdr) : Bool := h.hint.getLsbD 8
def Hdr.stall (h : Hdr) : Nat := field h.hint.toNat 5 3
def Hdr.yields (h : Hdr) : Bool := h.hint.getLsbD 4
def Hdr.defers (h : Hdr) : Bool := h.hint.getLsbD 3
def Hdr.bytes (h : Hdr) : Nat := match h.len with | .compact => 4 | .medium => 8 | .full => 12

end Sys2Proof

namespace Sys2Proof.Machine

/-- The header to which a compact form expands (R78), with the operand codes given. -/
def cHdr (d a b : Nat) : Hdr := ⟨.compact, 7, false, 0, BitVec.ofNat 10 d, BitVec.ofNat 10 a, BitVec.ofNat 10 b, none⟩

/-- The code of an operand byte that a compact entry uses. -/
def cOp (b : Byte) : Nat := b.toNat

/-! ### What a lane does -/

/-- The outcome of an entry's pseudo-code for one lane (R90, R155). -/
inductive Lane where
  /-- Commits; the thread goes on past the unit. -/
  | ok (s : State)
  /-- Commits; the thread goes on at an address. -/
  | okAt (s : State) (pc : Nat)
  /-- Commits; the thread waits, at the PC past the unit. -/
  | wait (s : State) (w : Wait)
  /-- Commits; the lane has set its thread's PC and state itself. -/
  | left (s : State)
  /-- Traps; the state carries fps alone (R56). -/
  | trap (s : State) (cause info : Nat)
  /-- Raises a replayable fault: kind, virtual and intermediate address, ACC. -/
  | fault (kind va ipa acc : Nat)
  /-- Cannot take effect yet. -/
  | stall (why : Stall)
  /-- Waits for memory that it reads itself; the state carries its requests. -/
  | asks (s : State)
deriving DecidableEq, Repr

/-- Whether the thread's instruction stands in a chain (R75). -/
def inChain (t : Thread) (h : Hdr) (fm : Form) : Bool := fm.chainable && (t.chain || h.chain)

/-- The translation of an access that trapped ALIAS stays in the TLB, through which the address keeps trapping (R274, R379). -/
def State.keepAlias (s : State) (k va : Nat) : State := [.load, .store, .atomic].foldl (fun acc a => acc.tlbFillFor k va a) s

/-- A trap at the thread's instruction. (DEDUCED, log entry 52) -/
def State.trapLane (s : State) (k : Nat) (h : Hdr) (fm : Form) (cause info : Nat) : State :=
  s.trap k cause info (lenCode h.bytes) ((s.thr k).chain || h.chain)

/-- WriteD (R90): the latch first, then the register unless NOWB. `v` has the width of D's class. -/
def State.writeD (s : State) (k : Nat) (h : Hdr) (fm : Form) (dst v : Nat) : State :=
  let s1 := if inChain (s.thr k) h fm then s.modThr k fun t => { t with latch := BitVec.ofNat 32 v :: t.latch } else s
  if h.nowb then s1 else s1.writeRun k dst v fm.d.words

/-- T before which the STALL hint of an instruction that ends no chain's member keeps its thread from issuing (R73). -/
def Thread.heldTill (now : Nat) (h : Hdr) (t : Thread) : Nat := if h.chain || h.stall = 0 then t.holdTill else now + h.stall + 1

/-- The STALL hint of an instruction that sets its thread's PC itself (R73). -/
def Thread.hold (now : Nat) (h : Hdr) (t : Thread) : Thread := { t with holdTill := t.heldTill now h }

/-- The thread past its instruction: its PC, its chain, and the STALL hint of a last member (R73, R75). -/
def Thread.pass (now : Nat) (h : Hdr) (pc : Nat) (t : Thread) : Thread :=
  { t with
    pc := addr48 pc
    chain := h.chain
    latch := if h.chain then t.latch else []
    state := .ready
    memo := []
    readyAt := now
    holdTill := t.heldTill now h }

/-- A lane whose guard fails: only the latch rule and the PC (R68, R75 rule 3). The latch takes D as it stood before the
instruction, in `s0`; the spec gives no content of a D that INDEX would refuse. (DESIGN CHOICE, log entry 88) -/
def State.failLane (s0 s : State) (k : Nat) (h : Hdr) (fm : Form) : State :=
  let t := s.thr k
  let cur := match resolve t 0 fm.d h.d.toNat with
    | .ok c => s0.readReg k c
    | .error _ => Config.freeWord s.fresh (k * 8)
  let s1 := if inChain t h fm then s.modThr k fun t => { t with latch := cur :: t.latch } else s
  s1.modThr k fun t => t.pass s.time h (t.pc + h.bytes)

/-! ### Requests -/

/-- A new request of a thread (R237), issued now. -/
def State.newReq (s : State) (k : Nat) (space : Space) (va pa size : Nat) (kind : ReqKind) (acquire : Bool) : Req :=
  let t := s.thr k
  let G := s.grpOf k
  { thread := k
    tag := (s.slotTags.find (groupOf k)).getD 0
    ctx := s.ctxOfGrid (s.blk G.block).grid
    grid := (s.blk G.block).grid
    seq := t.seq
    epoch := t.epoch
    core := coreOf k
    oslot := G.oslot
    part := s.partOf (coreOf k)
    block := G.block
    space := space
    va := va
    pa := pa
    size := size
    kind := kind
    acquire := acquire
    joined := none
    dropFill := false
    pc := t.pc
    issuedAt := s.fresh
    sentAt := s.time
    keySlot := s.sendSlot (s.partOf (coreOf k)) pa
    link := s.linkFor (s.partOf (coreOf k)) pa
    lost := false
    live := laneBit k
    bundle := laneBit k
    state := .pending }

/-- A request joins the pending ones; a scratchpad request also its core's queue (R160). -/
def State.addReq (s : State) (r : Req) : State :=
  let s1 := { s with reqs := s.reqs.put s.nextReq r, nextReq := s.nextReq + 1 }
  let s2 := s1.modThr r.thread fun t => { t with seq := t.seq + 1 }
  if r.space = .spad then s2.modCore r.core fun c => { c with spadQueue := c.spadQueue ++ [s.nextReq] } else s2

/-- Sends a capsule step's commit to the record's Sluice, with the committer's identity and ESTEP (R185, R348); the thread
is Stalled until it is acknowledged. -/
def State.sendCommit (s : State) (k : Nat) (c : Capsule) (pa : Nat) (writes : List (BitVec 10 × Word))
    (cst : Option (StepAccess × Word)) (cld : Option (StepAccess × BitVec 10)) : State :=
  let r := s.newReq k .sluice c.capr pa 64 (.commit c.ident c.estep writes cst cld) false
  (s.addReq r).modThr k fun t => { t with state := .stalled .sluice }

/-- A commit of the thread that Sluice has not acknowledged. -/
def State.committing (s : State) (k : Nat) : Bool :=
  s.reqs.any fun r => s.isOf k r.2 && (match r.2.kind with | .commit .. => true | _ => false)

/-! ### Capsule steps (R185, R347) -/

/-- The thread runs a capsule at user privilege. -/
def Thread.inCapsule (t : Thread) : Bool := t.capsule.isSome && !t.handler

/-- xinfo of a CAPSULE trap (R191). -/
def capsuleInfo (addr why : Nat) : Nat := addr48 addr * 256 + why

/-- A register operand that a step may name: c0–c7, pairs within the window, p0–p7, zero. -/
def stepOperandOk (cls : Cls) (code : Nat) : Bool :=
  !cls.isReg || code == 240 || (320 ≤ code && code < 328) || (216 ≤ code && code + cls.words ≤ 224)

/-- An instruction that R185 permits as a step, by its opcode, header and form. -/
def stepOk (opc : Nat) (h : Hdr) (fm : Form) : Bool :=
  (opc < 0x080 || (0x080 ≤ opc && opc ≤ 0x093)) && fm.chainable && !h.chain
    && stepOperandOk fm.d h.d.toNat && stepOperandOk fm.a h.a.toNat && (h.imm.isSome || stepOperandOk fm.b h.b.toNat)

/-- The thread stands at its expected step (R185). -/
def atStep (t : Thread) (c : Capsule) (h : Hdr) : Bool :=
  t.pc == addr48 (c.code + 12 + 12 * c.estep) && c.estep < c.n && h.len == .full

/-- The registers in which a step changed its thread: c0–c7, then predicates. -/
def stepWrites (after : State) (k : Nat) (dst : Nat) (words : Nat) (preds : List Nat) : List (BitVec 10 × Word) :=
  let codes := ((List.range words).map (· + dst)).filter (fun c => dst != 240 && c != 327) ++ (preds.filter (· < 7)).map (· + 320)
  codes.map fun c => (BitVec.ofNat 10 c, after.readReg k c)

/-! ### The bundle -/

/-- A chain rule of R75 that the instruction breaks for a thread. -/
def chainBroken (t : Thread) (h : Hdr) (fm : Form) : Bool :=
  (h.chain && !fm.chainable) || (t.chain && !fm.chainable) || (t.chain && t.latch.length ≥ 7 && h.chain) || (h.nowb && !h.chain)

/-- A special register that a thread at handler privilege alone may name (R30). -/
def hOnlyCode (code : Nat) : Bool := 352 ≤ code && code < 378

/-- An operand of the instruction names an H-only register (R30). -/
def namesHOnly (h : Hdr) (fm : Form) : Bool :=
  (fm.d.isReg && hOnlyCode h.d.toNat) || (fm.a.isReg && hOnlyCode h.a.toNat) || (fm.b.isReg && h.imm.isNone && hOnlyCode h.b.toNat)

/-- The trap that decode checks 2 to 4 give a thread, after the word's own (R76): chain, privilege, operand codes. An
operand that names an H-only register traps PROT at user privilege, in every instruction, before ILLOPD (R30).
(DEDUCED, log entries 51, 103) -/
def decodeTrap (s : State) (opc : Nat) (h : Hdr) (fm : Form) (prot : State → Nat → Bool) (k : Nat) : Option (Nat × Nat) :=
  let t := s.thr k
  if chainBroken t h fm then some (1, 4 * 2 ^ 12 + opc)
  else if prot s k then some (14, 1 * 2 ^ 48)
  else (operandFault t.regs.length h fm).map fun i => if !t.handler && namesHOnly h fm then (14, 1 * 2 ^ 48) else (2, i)

/-- The fold's account of a bundle: the running state, the threads that committed, those that faulted. -/
structure Run where
  s : State
  done : List Nat
  faults : List (Nat × Nat × Nat × Nat × Nat)
deriving DecidableEq, Repr

/-- A lane's outcome enters the account. -/
def Run.lane (r : Run) (h : Hdr) (fm : Form) (k : Nat) : Lane → Run
  | .ok s => { r with s := s.modThr k fun t => t.pass s.time h (t.pc + h.bytes), done := r.done ++ [k] }
  | .okAt s pc => { r with s := s.modThr k fun t => t.pass s.time h pc, done := r.done ++ [k] }
  | .wait s w =>
    { r with s := s.modThr k fun t => { t.pass s.time h (t.pc + h.bytes) with state := .waiting w }, done := r.done ++ [k] }
  | .left s => { r with s := s.modThr k (Thread.hold s.time h), done := r.done ++ [k] }
  | .trap s c i => { r with s := (if c = 15 then s.keepAlias k i else s).trapLane k h fm c i }
  | .fault kind va ipa acc => { r with faults := r.faults ++ [(k, kind, va, ipa, acc)] }
  | .stall why => { r with s := r.s.modThr k fun t => { t with state := .stalled why } }
  | .asks s => { r with s := s.modThr k fun t => { t with state := .stalled .memory } }

/-- A WAITG's wait with the committed lanes and the bundle's lanes of its group (R27). -/
def Wait.withMates (live bundle : BitVec 32) : Wait → Wait
  | .waitg off gen d (some (a, _, _)) => .waitg off gen d (some (a, live, bundle))
  | w => w

/-- A WAITG that waits to write an s register. -/
def TState.hasMates : TState → Bool
  | .waiting (.waitg _ _ _ (some _)) => true
  | _ => false

/-- The end of a bundle: one fault record for the lanes that faulted (R155), UDIV where D is an s register (R27), and
the committed lanes of each group and those of the bundle noted in the requests just issued. (DEDUCED, log entry 78) -/
def Run.finish (r : Run) (before : State) (h : Hdr) (fm : Form) (passing : List Nat) : State :=
  let s1 := if fm.dWrite && !h.nowb && 256 ≤ h.d.toNat && h.d.toNat < 320 then r.s.markUdiv passing r.done else r.s
  let s2 := if s1.nextReq = before.nextReq then s1 else
    { s1 with
      reqs := s1.reqs.changeAll fun _ q =>
        if q.issuedAt == before.fresh then
          { q with
            live := laneMask (r.done.filter fun k => groupOf k == groupOf q.thread)
            bundle := laneMask (before.cur.threads.filter fun k => groupOf k == groupOf q.thread) }
        else q }
  let inGroup (k : Nat) (ks : List Nat) : BitVec 32 := laneMask (ks.filter fun j => groupOf j == groupOf k)
  let s3 := if !r.done.any fun k => (s2.thr k).state.hasMates then s2
    else r.done.foldl (fun (acc : State) k => acc.modThr k fun t =>
      match t.state with
      | .waiting w => { t with state := .waiting (w.withMates (inGroup k r.done) (inGroup k before.cur.threads)) }
      | _ => t) s2
  match r.faults with
  | [] => s3
  | (_, kind, va, ipa, acc) :: _ => s3.parkOn (r.faults.map (·.1)) r.done 0 kind va ipa acc 0

/-- A step's commit to its record, found as CAPR translates now: the state's `send` with the record's physical address. -/
def State.commitAt (s : State) (k : Nat) (c : Capsule) (send : Nat → State) : Lane :=
  match s.translateFor k c.capr .atomic with
  | .ok x => .left (send x.pa)
  | .error (.fault kind ipa w) => .fault kind c.capr ipa (accBits .atomic w)
  | .error (.perm _) => .trap s 14 (2 * 2 ^ 48 + c.capr)
  | .error .aliased => .trap s 15 c.capr

/-- The step of a thread that runs a capsule: its commit in place of its writes (R185). -/
def stepLane (s0 : State) (opc : Nat) (fm : Form) (k : Nat) (s : State) (dst : Nat) (l : Lane) : Lane :=
  match (s0.thr k).capsule, l with
  | some c, .ok s' =>
    s.commitAt k c fun pa => (s.modThr k fun u => { u with fps := (s'.thr k).fps }).sendCommit k c pa
      (stepWrites s' k dst fm.d.words (if opc = 0x005 then fm.preds else [])) none none
  | _, _ => l

/-- The instruction is a permitted step of the capsule, by its operands too (R185). -/
def isStepOf (opc : Nat) (h : Hdr) (fm : Form) : Bool := stepOk opc h fm || opc == 0x206 || opc == 0x207

/-- A lane whose guard fails in a capsule: a step commits with no destination (R68, R185), CLD and CST too; where it does
not stand at the expected step it is BADSTEP. -/
def stepFail (s0 : State) (h : Hdr) (k : Nat) (s : State) : Lane :=
  let t := s0.thr k
  match t.capsule with
  | none => .ok s
  | some c => if !atStep t c h then .trap s 9 (capsuleInfo t.pc 4) else s.commitAt k c fun pa => s.sendCommit k c pa [] none none

/-- The bundle after decode checks: the state with the traps taken, the threads that stay. -/
def decoded (s : State) (opc : Nat) (h : Hdr) (fm : Form) (prot : State → Nat → Bool) : State × List Nat :=
  let ks := s.cur.threads
  (ks.foldl (fun acc k => match decodeTrap s opc h fm prot k with
      | some (c, i) => acc.trapLane k h fm c i
      | none => acc) s,
   ks.filter fun k => (decodeTrap s opc h fm prot k).isNone)

/-- UDIV (R28): where a group of the bundle traps, its UDIV is cleared and every passing thread of the bundle traps.
(DEDUCED, log entry 79) -/
def udivStep (s : State) (h : Hdr) (fm : Form) (passing : List Nat) : State × List Nat :=
  if !readsS h fm then (s, passing)
  else
    let gs := ((passing.map groupOf).eraseDups).filter s.udivTraps
    if gs.isEmpty then (s, passing)
    else
      let s1 := gs.foldl (fun acc g => acc.modGrp g fun G => { G with udiv := false }) s
      (passing.foldl (fun acc k => acc.trapLane k h fm 8 0) s1, [])

/-- Whether the entry of an instruction judges the capsule state itself: CAPS, CLD, CST, CEND, CADOPT. -/
def ownCapsule (opc : Nat) : Bool := 0x205 ≤ opc && opc ≤ 0x209

/-- The values of a passing lane; a thread that runs a capsule traps BADSTEP where the instruction is no permitted step or
does not stand at the expected one, and takes no further part (R185, R191). -/
def State.laneValue (s : State) (opc : Nat) (h : Hdr) (fm : Form) (k : Nat) : Except (Nat × Nat) Vals :=
  let t := s.thr k
  match s.operands k h fm, t.capsule with
  | .ok v, some c =>
    if !t.handler && !ownCapsule opc && (!atStep t c h || !stepOk opc h fm) then .error (9, capsuleInfo t.pc 4) else .ok v
  | r, _ => r

/-- A lane after its operands were read: the entry's outcome, as a step where the thread runs a capsule. -/
def laneOutcome (s0 : State) (opc : Nat) (fm : Form) (k : Nat) (s : State) (v : Vals) (l : Lane) : Lane :=
  if (s0.thr k).inCapsule && !ownCapsule opc then stepLane s0 opc fm k s v.dst l else l

/-- An entry: the snapshot, the participating lanes with their values, the lane, its values, the running state. -/
abbrev Entry := State → List (Nat × Vals) → Nat → Vals → State → Lane

/-- The lanes whose operands cleared LATCH and INDEX and whose step is permitted, with their values. -/
def participants (vals : List (Nat × Except (Nat × Nat) Vals)) : List (Nat × Vals) :=
  vals.filterMap fun kv => match kv.2 with | .ok v => some (kv.1, v) | .error _ => none

/-- A passing lane's turn: the trap of its operands or of its step, or the entry's outcome. -/
def passStep (s0 : State) (opc : Nat) (h : Hdr) (fm : Form) (f : Entry) (part : List (Nat × Vals)) (r : Run)
    (kv : Nat × Except (Nat × Nat) Vals) : Run :=
  match kv.2 with
  | .error e => r.lane h fm kv.1 (.trap r.s e.1 e.2)
  | .ok v => r.lane h fm kv.1 (laneOutcome s0 opc fm kv.1 r.s v (f s0 part kv.1 v r.s))

/-- The turn of a lane whose guard fails: in a capsule the step is committed; an instruction that is no permitted step has
no effect there either (R68). (DEDUCED, log entry 105) -/
def failStep (s0 : State) (opc : Nat) (h : Hdr) (fm : Form) (r : Run) (k : Nat) : Run :=
  if (s0.thr k).inCapsule && isStepOf opc h fm then { (r.lane h fm k (stepFail s0 h k r.s)) with done := r.done }
  else { r with s := s0.failLane r.s k h fm }

/-- The lanes of a bundle in ascending order (R91). `f` is the entry. (DEDUCED, log entry 79) -/
def runLanes (opc : Nat) (h : Hdr) (fm : Form) (prot : State → Nat → Bool) (f : Entry) (s : State) : State :=
  let (s1, ks) := decoded s opc h fm prot
  if ks.any fun k => s1.busy k h fm then
    ks.foldl (fun acc k => acc.modThr k fun t => { t with state := .stalled .operand }) s1
  else
    let passing := ks.filter fun k => (s1.thr k).guard h
    let failing := ks.filter fun k => !(s1.thr k).guard h
    let (s0, left) := udivStep s1 h fm passing
    let vals := left.map fun k => (k, s0.laneValue opc h fm k)
    let r := vals.foldl (passStep s0 opc h fm f (participants vals)) ⟨s0, [], []⟩
    (failing.foldl (failStep s0 opc h fm) r).finish s h fm passing

/-- No privilege is needed. -/
def anyone (_ : State) (_ : Nat) : Bool := false

/-- The privileged instructions (R34, R216): a thread at user privilege fails check 3. -/
def needsH (s : State) (k : Nat) : Bool := !(s.thr k).handler

/-- Once per bundle, by its lowest passing lane that clears LATCH and INDEX (R91). `f` has the snapshot, the running
state, the cleared lanes and the values of that lane; a trap, fault, stall or wait of it is every cleared lane's. -/
def runOnce (opc : Nat) (h : Hdr) (fm : Form) (prot : State → Nat → Bool)
    (f : State → State → List Nat → Nat → Vals → Lane) (s : State) : State :=
  runLanes opc h fm prot (fun s0 part k _ run =>
    match part with
    | [] => .ok run
    | (l0, v0) :: _ =>
      let ks := part.map (·.1)
      if k = l0 then f s0 run ks l0 v0
      else match f s0 s0 ks l0 v0 with
        | .trap _ c i => .trap run c i
        | .fault kind va ipa acc => .fault kind va ipa acc
        | .stall w => .stall w
        | .asks _ => .stall .memory
        | .wait _ w => .wait run w
        | .okAt _ pc => .okAt run pc
        | _ => .ok run) s

/-- An instruction whose lanes each write D with a value and raise no event. -/
def runValue (opc : Nat) (h : Hdr) (fm : Form) (f : State → Nat → Vals → Nat) (s : State) : State :=
  runLanes opc h fm anyone (fun s0 _ k v run => .ok (run.writeD k h fm v.dst (f s0 k v))) s

/-- An instruction whose lanes each write D with a value whose elements raise events (R55, R56): fps takes the events,
and an enabled one traps NONFINITE and writes nothing. `base` is the number of the first element. -/
def runEvents (opc : Nat) (h : Hdr) (fm : Form) (base : Nat) (f : State → Nat → Vals → Nat × List Events) (s : State) : State :=
  runLanes opc h fm anyone (fun s0 _ k v run =>
    let (x, es) := f s0 k v
    let s1 := run.modThr k fun t => t.orFps (allEvents es)
    match nonfinite (s0.thr k).fpc es base with
    | some i => .trap s1 7 i
    | none => .ok (s1.writeD k h fm v.dst x)) s

/-- The outcome of a meaning: the machine goes on. -/
abbrev Result := Host.Outcome State Fault Refusal

def go (s : State) : Result := .next s

end Sys2Proof.Machine
end

