-- ==== Sys2Proof/Machine/History.lean ====
section
/-! DEFINITION. The history banks: the image (01 R37–R42) and the learning rules (11 R277–R286). -/

namespace Sys2Proof.Machine

/-! ### The image -/

/-- Two-bit counters packed four to a byte (R38). -/
def packCounters : List Nat → List Byte
  | a :: b :: c :: d :: t => BitVec.ofNat 8 (a + 4 * b + 16 * c + 64 * d) :: packCounters t
  | _ => []

/-- The two-bit counters of bytes. -/
def unpackCounters (bs : List Byte) : List Nat :=
  bs.flatMap fun b => [field b.toNat 0 2, field b.toNat 2 2, field b.toNat 4 2, field b.toNat 6 2]

/-- An SPT entry as a number of 128 bits (R40). -/
def SptEntry.bits (e : SptEntry) : Nat :=
  e.age * 2 ^ 91 + b2n e.valid * 2 ^ 90 + e.conf * 2 ^ 88 + wrapTo 24 e.stride * 2 ^ 64 + e.last * 2 ^ 16 + e.tag

def SptEntry.ofBits (n : Nat) : SptEntry :=
  ⟨field n 91 5, bit n 90, field n 88 2, sgn 24 (field n 64 24), field n 16 48, field n 0 16⟩

/-- A CHT entry as 16 bits (R40). -/
def ChtEntry.bits (e : ChtEntry) : Nat := b2n e.valid * 2 ^ 14 + e.cnt * 2 ^ 12 + e.tag

def ChtEntry.ofBits (n : Nat) : ChtEntry := ⟨bit n 14, field n 12 2, field n 0 12⟩

/-- The configuration word's bits that are not reserved (R39). -/
def confMask : Nat := 0xF0F3

/-- The 1,536-byte image (R37). -/
def Bank.image (b : Bank) : List Byte :=
  (b.bot.flatMap packCounters) ++ (b.ghr.flatMap (leBytes 2)) ++ leBytes 8 b.conf.toNat ++ packCounters b.rip
    ++ List.replicate 208 0 ++ (b.spt.flatMap fun e => leBytes 16 e.bits)
    ++ (b.cht.flatMap fun t => t.flatMap fun e => leBytes 2 e.bits)

/-- Number of the entries that R41 orders before entry `i`: larger age first, then lower number. -/
def ageRank (ages : List Nat) (i : Nat) : Nat :=
  ((List.range ages.length).filter fun j =>
    decide (ages.getD j 0 > ages.getD i 0) || (ages.getD j 0 == ages.getD i 0 && decide (j < i))).length

/-- The ages renumbered (R41): a permutation of 0 to 31 stays as it is. -/
def renumber (spt : List SptEntry) : List SptEntry :=
  let ages := spt.map (·.age)
  (List.range spt.length).map fun i => { spt.getD i ⟨0, false, 0, 0, 0, 0⟩ with age := 31 - ageRank ages i }

/-- The bank that an image installs (R218, R41, R7). -/
def Bank.ofImage (bs : List Byte) : Bank :=
  let at' (o n : Nat) : List Byte := (bs.drop o).take n
  { bot := (List.range 4).map fun q => unpackCounters (at' (64 * q) 64)
    ghr := (List.range 4).map fun q => leNat (at' (0x100 + 2 * q) 2)
    conf := BitVec.ofNat 64 (leNat (at' 0x108 2) &&& confMask)
    rip := unpackCounters (at' 0x110 32)
    spt := renumber ((List.range 32).map fun e => .ofBits (leNat (at' (0x200 + 16 * e) 16)))
    cht := (List.range 4).map fun q => (List.range 64).map fun i => .ofBits (leNat (at' (0x400 + 128 * q + 2 * i) 2)) }

/-- The word at an offset of the image (R220). -/
def Bank.word (b : Bank) (o : Nat) : Word := BitVec.ofNat 32 (leNat ((b.image.drop o).take 4))

/-- The bank with a word of its image stored (R220); the ages are renumbered where the word holds an AGE field. -/
def Bank.setWord (b : Bank) (o : Nat) (w : Word) : Bank :=
  Bank.ofImage (b.image.take o ++ leBytes 4 w.toNat ++ b.image.drop (o + 4))

/-! ### Enables (R39) -/

def Bank.eBot (b : Bank) : Bool := b.conf.getLsbD 4
def Bank.eSpt (b : Bank) : Bool := b.conf.getLsbD 5
def Bank.eRip (b : Bank) : Bool := b.conf.getLsbD 6
def Bank.eCht (b : Bank) : Bool := b.conf.getLsbD 7

/-- A counter of the owner slot raised (R231), modulo 2^64. -/
def State.count (s : State) (core o n by' : Nat) : State :=
  s.modSlot core o fun sl => { sl with counters := sl.counters.modify n fun c => (c + by') % 2 ^ 64 }

/-- A change of the bank of an owner slot. -/
def State.modBank (s : State) (core o : Nat) (f : Bank → Bank) : State := s.modSlot core o fun sl => { sl with bank := f sl.bank }

/-! ### Branch outcome tables (R279, R280) -/

/-- The counter that a conditional branch at a PC reads in a quadrant. -/
def Bank.botIndex (b : Bank) (q pc : Nat) : Nat := field pc 2 8 ^^^ field (b.ghr.getD q 0) 0 8

/-- The prediction of a conditional branch: taken? -/
def Bank.predicts (b : Bank) (q pc : Nat) : Bool := b.eBot && decide ((b.bot.getD q []).getD (b.botIndex q pc) 0 ≥ 2)

/-- The training of a conditional branch: quadrant of the core, PC and the threads' outcomes; none leaves the bank
unchanged. Answers the bank and whether it missed. -/
def Bank.branch (b : Bank) (q pc : Nat) (outcomes : List Bool) : Bank × Bool :=
  let g := b.ghr.getD q 0
  let i := b.botIndex q pc
  let c := (b.bot.getD q []).getD i 0
  let pred := b.predicts q pc
  match outcomes with
  | [] => (b, false)
  | o :: os =>
    if os.all (· == o) then
      let b' := if b.eBot then
          { b with
            bot := b.bot.modify q fun t => t.set i (if o then min (c + 1) 3 else c - 1)
            ghr := b.ghr.set q ((g * 2 + b2n o) % 2 ^ 16) }
        else b
      (b', o != pred)
    else (if b.eBot then { b with ghr := b.ghr.set q ((g * 2 + 1) % 2 ^ 16) } else b, true)

/-- A conditional branch of a bundle trains its owner's bank and is counted (R277, R279); a busy bank predicts not
taken and learns nothing (R217). -/
def State.trainBranch (s : State) (k : Nat) (outcomes : List Bool) (pc : Nat) : State :=
  if outcomes.isEmpty then s
  else
    let c := coreOf k
    let o := (s.grpOf k).oslot
    let sl := s.slotAt c o
    let (b, miss) := if sl.busy then (sl.bank, outcomes.any id) else sl.bank.branch (quadOf k) pc outcomes
    let s1 := (s.modBank c o fun _ => b).count c o 2 1
    if miss then s1.count c o 3 1 else s1

/-- The threads of a conditional branch whose outcome was not the predicted one are delayed by 6 cycles (R279). -/
def State.redirect (s before : State) (pc : Nat) (outcomes : List (Nat × Bool)) : State :=
  outcomes.foldl (fun acc x =>
    let sl := before.slotAt (coreOf x.1) (before.grpOf x.1).oslot
    if x.2 == (!sl.busy && sl.bank.predicts (quadOf x.1) pc) then acc
    else acc.modThr x.1 fun t => { t with holdTill := max t.holdTill (before.time + 7) }) s

/-! ### Stride prefetch table (R281) -/

/-- touch(e): entries younger than e age by one and e becomes the newest. -/
def touch (spt : List SptEntry) (i : Nat) : List SptEntry :=
  let a := (spt.getD i ⟨0, false, 0, 0, 0, 0⟩).age
  (spt.map fun e => if e.age < a then { e with age := e.age + 1 } else e).modify i fun e => { e with age := 0 }

/-- The index of the valid entry with a tag and the lowest age. -/
def sptFind (spt : List SptEntry) (t : Nat) : Option Nat :=
  (List.range spt.length).foldl (fun best i =>
    let e := spt.getD i ⟨0, false, 0, 0, 0, 0⟩
    if e.valid && e.tag == t then
      match best with
      | some j => if e.age < (spt.getD j ⟨0, false, 0, 0, 0, 0⟩).age then some i else best
      | none => some i
    else best) none

/-- A training load (R281): PC and the effective addresses of its participating lanes, lowest lane first. Answers the
bank and the prefetch addresses. -/
def Bank.load (b : Bank) (pc : Nat) (eas : List Nat) : Bank × List Nat :=
  match eas with
  | [] => (b, [])
  | a :: _ =>
    if !b.eSpt then (b, [])
    else
      let t := field pc 2 16
      match sptFind b.spt t with
      | some i =>
        let e := b.spt.getD i ⟨0, false, 0, 0, 0, 0⟩
        let delta : Int := (a : Int) - e.last
        let e' := if delta = e.stride then { e with conf := min (e.conf + 1) 3 }
          else if -(2 ^ 23) ≤ delta && delta < 2 ^ 23 then { e with stride := delta, conf := 0 }
          else { e with valid := false }
        let e' := { e' with last := a }
        let d : Int := (field b.conf.toNat 0 2 + 1 : Nat)
        let pf := if e'.valid && e'.conf ≥ 2 then eas.map (fun (ea : Nat) => wrapTo 48 (Int.ofNat ea + d * e'.stride)) else []
        ({ b with spt := touch (b.spt.set i e') i }, pf)
      | none =>
        match b.spt.findIdx? (·.age == 31) with
        | some i => ({ b with spt := touch (b.spt.modify i fun e => ⟨e.age, true, 0, 0, a, t⟩) i }, [])
        | none => (b, [])

/-! ### Reuse insertion predictor (R283, R284) -/

/-- A RIP counter moved by ±1, saturating. -/
def Bank.rip1 (b : Bank) (sig : Nat) (up : Bool) : Bank :=
  if b.eRip then { b with rip := b.rip.modify sig fun c => if up then min (c + 1) 3 else c - 1 } else b

/-- The re-reference value of a fill (R283, R284, R217). -/
def Bank.fillRrv (b : Bank) (busy : Bool) (sig : Nat) : Nat :=
  if b.eRip && !busy && b.rip.getD sig 0 == 0 then 3 else 2

/-- L1 sets of a carve-out (R249). -/
def l1Sets (carve : Nat) : Nat := match carve with | 0 => 64 | 1 => 128 | _ => 256

/-- The ways of an owner slot (R253): first way and number, among the slots that hold an owner. -/
def waysOf (c : Core) (o : Nat) : Nat × Nat :=
  let held := (List.range 4).filter fun i => (c.oslots.getD i .empty).valid
  let n := held.length
  let idx := (held.findIdx? (· == o)).getD 0
  match n with
  | 0 | 1 => (0, 16)
  | 2 => (8 * idx, 8)
  | 3 => if idx = 0 then (0, 6) else (6 + 5 * (idx - 1), 5)
  | _ => (4 * idx, 4)

/-- The victim of a set's ways (R284): after at most four passes every RRV is 3. -/
def victim (lines : List L1Line) : Nat → List L1Line × Option Nat
  | 0 => (lines, none)
  | n + 1 =>
    match lines.find? (·.rrv ≥ 3) with
    | some l => (lines, some l.way)
    | none => victim (lines.map fun l => { l with rrv := l.rrv + 1 }) n

/-- The owner's ways move, or one of them goes to another slot, when the slots change from `c` to `d` (R253, R284). -/
def waysLost (c d : Core) (o : Nat) : Bool :=
  let (a, n) := waysOf c o
  let (b, m) := waysOf d o
  decide (a < b) || decide (b + m < a + n)

/-- An L1 line written: an error that struck it is gone (R276). -/
def Core.healL1 (c : Core) (o line : Nat) : Core := { c with badL1 := c.badL1.filter (· != (o, line)) }

/-- A fill of the owner's ways (R283, R284): the L1 and the bank after it. A line whose tag stands there with its lease
expired is filled in its way. -/
def Core.fillL1 (c : Core) (o pa sig : Nat) (data : List Byte) (expiry : Nat) : Core :=
  let set := pa % l1Sets c.carve
  let (w0, wn) := waysOf c o
  let mine := c.l1.filter fun l => l.oslot == o && l.set == set
  let sl := c.oslots.getD o .empty
  let line (way : Nat) : L1Line := ⟨o, set, way, pa, data, expiry, sl.bank.fillRrv sl.busy sig, sig, false⟩
  let c := c.healL1 o pa
  match (mine.find? (·.pa == pa)).map (·.way) <|> ((List.range wn).map (· + w0)).find? fun w => mine.all (·.way != w) with
  | some w => { c with l1 := line w :: c.l1.filter fun l => !(l.oslot == o && l.pa == pa) }
  | none =>
    let (aged, v) := victim (mine.mergeSort fun a b => a.way ≤ b.way) 5
    match v with
    | none => c
    | some w =>
      let out := aged.find? (·.way == w)
      let bank' := match out with
        | some l => if l.reused || sl.busy then sl.bank else sl.bank.rip1 l.sig false
        | none => sl.bank
      { c with
        l1 := line w :: (aged.filter (·.way != w) ++ c.l1.filter fun l => !(l.oslot == o && l.set == set))
        oslots := c.oslots.modify o fun s => { s with bank := bank' } }

/-- The line of an owner's ways, valid or expired (R254). -/
def Core.l1Find (c : Core) (o pa : Nat) : Option L1Line := c.l1.find? fun l => l.oslot == o && l.pa == pa

/-- A hit of the owner's ways by a load with NL = 0 (R283). -/
def Core.hitL1 (c : Core) (o pa : Nat) : Core :=
  match c.l1Find o pa with
  | none => c
  | some l =>
    { c with
      l1 := c.l1.map fun m => if m.oslot == o && m.pa == pa then { m with rrv := 0, reused := true } else m
      oslots := c.oslots.modify o fun s => if s.busy then s else { s with bank := s.bank.rip1 l.sig true } }

/-- A refill in place of a line whose lease had expired (R283): not a fill. -/
def Core.refillL1 (c : Core) (o pa : Nat) (data : List Byte) (expiry : Nat) : Core :=
  let c := c.healL1 o pa
  { c with l1 := c.l1.map fun m => if m.oslot == o && m.pa == pa then { m with data := data, expiry := expiry } else m }

/-! ### Convergence hint tables (R285, R286) -/

/-- The entry of a PC, and whether it matches (R285). -/
def Bank.chtAt (b : Bank) (q pc : Nat) : ChtEntry × Bool :=
  let e := (b.cht.getD q []).getD (field pc 2 6) ⟨false, 0, 0⟩
  (e, e.valid && e.tag == field pc 2 12)

/-- The CHT asks for a deferral (R285). -/
def Bank.defers (b : Bank) (q pc : Nat) : Bool :=
  let (e, m) := b.chtAt q pc
  b.eCht && m && decide (e.cnt ≥ 2)

/-- A deferred bundle issued (R286). -/
def Bank.learnDeferred (b : Bank) (q pc : Nat) (joined : Bool) : Bank :=
  if b.eCht && (b.chtAt q pc).2 then
    { b with cht := b.cht.modify q fun t => t.modify (field pc 2 6) fun e =>
        { e with cnt := if joined then min (e.cnt + 1) 3 else e.cnt - 1 } }
  else b

/-- An undeferred short bundle was followed in time (R286). -/
def Bank.learnUndeferred (b : Bank) (q pc : Nat) : Bank :=
  if !b.eCht then b
  else
    let m := (b.chtAt q pc).2
    { b with cht := b.cht.modify q fun t => t.modify (field pc 2 6) fun e =>
        if m then { e with cnt := min (e.cnt + 1) 3 } else ⟨true, 1, field pc 2 12⟩ }

end Sys2Proof.Machine
end

