-- ==== Sys2Proof/Machine/Memory.lean ====
section
/-! DEFINITION. Loads, stores, prefetch and invalidation at issue (06 R151–R164): effective addresses, the checks of
R153, the requests they send, and what a load does for the history bank (11 R281, R282; 12 R291). -/

namespace Sys2Proof.Machine

/-! ### Addresses and checks (R152, R153) -/

/-- An effective address (R152): b is a signed 32-bit value. -/
def effAddr (a b : Nat) : Nat := wrapTo 48 ((addr48 a : Nat) + sgn 32 b)

/-- A scratchpad or constant-store offset (R152). -/
def spadOff (a b : Nat) : Nat := (a + b) % 2 ^ 32

def windowBase : Nat := 0xFF0000000000

/-- The scratchpad window (R152). -/
def inWindow (ea : Nat) : Bool := windowBase ≤ ea && ea ≤ 0xFF00000FFFFF

/-- A check that fails: a trap, or a replayable fault. -/
inductive Bad where
  | trap (cause info : Nat)
  | fault (kind va ipa acc : Nat)
deriving DecidableEq, Repr

def Bad.lane (run : State) : Bad → Lane
  | .trap c i => .trap run c i
  | .fault k va ipa a => .fault k va ipa a

def protInfo (why addr : Nat) : Nat := why * 2 ^ 48 + addr48 addr

/-- Where a cleared access goes: the memory that performs it, and its address there. -/
structure Place where
  space : Space
  pa : Nat
  va : Nat
deriving DecidableEq, Repr

/-- A translated global access (R153, R156, R272, R274, R275). (DEDUCED, log entry 24) -/
def State.placeGlobal (s : State) (k va size : Nat) (acc : Acc) : Except Bad Place :=
  match s.translateFor k va acc with
  | .error (.perm _) => .error (.trap 14 (protInfo 2 va))
  | .error (.fault kind ipa w) => .error (.fault kind va ipa (accBits acc w))
  | .error .aliased => .error (.trap 15 va)
  | .ok x =>
    if acc != .store && s.isPoisoned x.pa size then .error (.trap 16 va)
    else .ok ⟨if x.sync then .sluice else if onHostPath s x.pa then .hostPath else .home, x.pa, va⟩

/-- The checks of R153 on a scratchpad access, and of a read that an uncorrectable error has struck (R276). -/
def State.placeSpad (s : State) (k off size info : Nat) (acc : Acc) : Except Bad Place :=
  if off + size > (s.blkOf k).scratch then .error (.trap 14 (protInfo 3 info))
  else if acc != .store && (s.blkOf k).spadBad off size then .error (.trap 16 info)
  else .ok ⟨.spad, off, info⟩

/-- The checks of R153 on a global or generic access; `window`: the instruction accepts the scratchpad window. -/
def State.place (s : State) (k va size : Nat) (acc : Acc) (window : Bool) : Except Bad Place :=
  if va % size != 0 then .error (.trap 5 va)
  else if inWindow va then
    (if window then s.placeSpad k (va - windowBase) size va acc else .error (.trap 14 (protInfo 4 va)))
  else s.placeGlobal k va size acc

/-- A scratchpad operand, aligned to its size. -/
def State.placeOff (s : State) (k off size : Nat) (acc : Acc) : Except Bad Place :=
  if off % size != 0 then .error (.trap 5 off) else s.placeSpad k off size off acc

/-! ### Sizes (R157) -/

def szBytes (sz : Nat) : Nat :=
  match sz with
  | 0 => 4 | 1 => 8 | 2 => 16 | 3 => 1 | 4 => 1 | _ => 2

def szSigned (sz : Nat) : Bool := sz == 4 || sz == 6

def szCls (c : Cls) (sz : Nat) : Cls :=
  match sz with
  | 1 => .x2
  | 2 => .x4
  | _ => c

/-! ### Waits of a release (R159, R240) -/

/-- A release may not be performed yet. (DEDUCED, log entry 81) -/
def State.releaseBlocked (s : State) (k sc : Nat) : Bool := !s.allPerformed k || !s.pastWct k sc

/-- An access request of a lane sent, the TLB filled. -/
def State.send (s : State) (k : Nat) (p : Place) (size : Nat) (kind : ReqKind) (acq : Bool) (acc : Acc) : State :=
  let s1 := if p.space = .spad then s else s.tlbFillFor k p.va acc
  s1.addReq (s1.newReq k p.space p.va p.pa size kind acq)

/-! ### Words that an instruction reads itself (R150, R218, R360) -/

/-- The read of a word is on its way. -/
def State.asked (s : State) (k key : Nat) : Bool :=
  (s.reqsOf k).any fun r => match r.2.kind with | .memo _ i => i == key | _ => false

/-- An instruction that reads memory itself is at work for the thread. -/
def State.engaged (s : State) (k : Nat) : Bool :=
  !(s.thr k).memo.isEmpty || (s.reqsOf k).any fun r => match r.2.kind with | .memo .. => true | _ => false

/-- The reads of some words sent, each a key with an address, but for those made or on their way; each is checked and
translated as it is sent. -/
def State.askWords (s0 run : State) (k : Nat) (lease : Bool) (size : Nat) (ws : List (Nat × Nat)) : Except Bad State :=
  ws.foldlM (fun (acc : State) w =>
    if ((s0.thr k).memo.find w.1).isSome || s0.asked k w.1 then .ok acc
    else (s0.place k w.2 size .load true).map fun p =>
      acc.send k p size (.memo (lease && p.space == .home) w.1) false .load) run

/-- The words, once all have been read. -/
def State.words (s : State) (k : Nat) (keys : List Nat) : Option (List Nat) := keys.mapM fun i => (s.thr k).memo.find i

/-! ### What loads do for the bank (R281, R282, R283, R291) -/

/-- A request that takes a lease and fills the owner's L1 ways. -/
def ReqKind.leases : ReqKind → Bool
  | .load _ true _ _ => true
  | .memo true _ => true
  | .pref true => true
  | _ => false

/-- A load with NL = 0. -/
def ReqKind.leasedLoad : ReqKind → Bool
  | .load _ true _ _ => true
  | .memo true _ => true
  | _ => false

/-- The fill that a request waits for has not arrived. -/
def State.following (s : State) (q : Req) : Bool :=
  match q.joined with
  | some (l, _) => ((s.reqs.find l).map (·.state == .pending)).getD false
  | none => false

/-- A request that will fill the owner's L1 ways; one that waits for another's fill will do so only where that has
arrived. -/
def State.fills (s : State) (q : Req) : Bool :=
  q.space == .home && q.kind.leases && q.state == .pending && !q.dropFill && !s.following q

/-- A fill of a line in flight for an owner slot's ways, sent by another instruction than that of step `now`. -/
def State.fillOf (s : State) (core o la now : Nat) : Option Nat :=
  (s.reqs.find? fun r => s.fills r.2 && r.2.core == core && r.2.oslot == o && r.2.pa / 128 == la && r.2.issuedAt != now).map (·.1)

/-- A fill of a line in flight for an owner slot's ways, of whatever instruction. -/
def State.fillInFlight (s : State) (core o la : Nat) : Bool := (s.fillOf core o la (s.fresh + 1)).isSome

/-- A line valid in an owner slot's ways. -/
def State.l1Valid (s : State) (core o la : Nat) : Bool :=
  match (s.coreAt core).l1Find o la with
  | some l => decide (l.expiry > s.time)
  | none => false

/-- The leased loads of an instruction, in lane order: a miss per line counts, a load joins a fill in flight, and the
later lanes on a line take what the first brings. -/
def State.lookUp (s : State) (now : Nat) (ids : List Nat) : State :=
  (ids.foldl (fun (acc : State × Tbl Nat) i =>
    match acc.1.reqs.find i with
    | none => acc
    | some q =>
      let la := q.pa / 128
      match acc.2.find la with
      | some l => (acc.1.modReq i fun q => { q with joined := some (l, true) }, acc.2)
      | none =>
        let s1 := acc.1
        if s1.l1Valid q.core q.oslot la then (s1, acc.2.put la i)
        else
          let s2 := s1.count q.core q.oslot 5 1
          match s1.fillOf q.core q.oslot la now with
          | some l => (s2.modReq i fun q => { q with joined := some (l, false) }, acc.2.put la l)
          | none => (s2, acc.2.put la i))
    (s, [])).1

/-- One prefetch of the SPT (R282), as a PREF.l1 of the training load's thread: it takes a lease. (DEDUCED, log entry 96) -/
def State.sptPrefetch (s : State) (k pc va : Nat) : State :=
  let c := coreOf k
  let o := (s.grpOf k).oslot
  let va := va / 128 * 128
  if inWindow va then s
  else match s.translateFor k va .load with
    | .error _ => s
    | .ok x =>
      if x.sync || prange s x.pa != .hbm || s.l1Valid c o (x.pa / 128) || s.fillInFlight c o (x.pa / 128) then s
      else
        let s1 := s.tlbFillFor k va .load
        (s1.addReq { s1.newReq k .home va x.pa 128 (.pref true) false with pc := pc }).count c o 4 1

/-- Training by the loads that an instruction sent (R281). -/
def State.trainLoad (s : State) (k pc : Nat) (eas : List Nat) : State :=
  let c := coreOf k
  let o := (s.grpOf k).oslot
  if eas.isEmpty || (s.slotAt c o).busy then s
  else
    let (b, pf) := (s.slotAt c o).bank.load pc eas
    ((pf.map (· / 128)).eraseDups).foldl (fun acc l => acc.sptPrefetch k pc (l * 128)) (s.modBank c o fun _ => b)

/-- The requests of an instruction that was executed at `before`. -/
def State.sentSince (before s : State) : Tbl Req := s.reqs.filter fun r => r.1 ≥ before.nextReq

/-- The loads that an instruction sent looked up in the L1. -/
def State.lookUpSince (before s : State) : State :=
  s.lookUp before.fresh (((before.sentSince s).filter fun r => r.2.space == .home && r.2.kind.leases).map (·.1))

/-- After an LD: its requests looked up in L1 and its training. -/
def afterLoads (before s : State) : State :=
  let part := (before.sentSince s).filter fun r => r.2.space == .home || r.2.space == .hostPath
  let s1 := before.lookUpSince s
  match part with
  | [] => s1
  | (_, q) :: _ => s1.trainLoad q.thread q.pc (part.map (·.2.va))

/-! ### LD, ST, LDS, STS, LDC, LDF -/

/-- The checks of an LD; one that would hit an L1 line which an uncorrectable error has struck is INTEGRITY (R276). -/
def State.placeLoad (s : State) (k va size : Nat) (nl : Bool) : Except Bad Place :=
  match s.place k va size .load true with
  | .ok p =>
    let o := (s.grpOf k).oslot
    if !nl && p.space == .home && (s.coreAt (coreOf k)).badL1.contains (o, p.pa / 128) && s.l1Valid (coreOf k) o (p.pa / 128)
    then .error (.trap 16 va) else .ok p
  | .error b => .error b

/-- LD (R158). -/
def ldOp (h : Hdr) (sz : BitVec 3) (acq : Bool) (_sc : BitVec 3) (nl : Bool) (s : State) : State :=
  let z := sz.toNat
  let fm : Form := ⟨szCls .w z, .x2, .v, false, true, [], false⟩
  afterLoads s (runLanes 0x180 h fm anyone (fun s0 _ k v run =>
    match s0.placeLoad k (effAddr v.a v.b) (szBytes z) nl with
    | .error b => b.lane run
    | .ok p =>
      let lease := !nl && p.space == .home
      .ok (run.send k p (szBytes z) (.load (szSigned z) lease false ⟨BitVec.ofNat 10 v.dst, fm.d.words⟩) acq .load)) s)

/-- ST (R159). -/
def stOp (h : Hdr) (sz : BitVec 3) (rel : Bool) (sc : BitVec 3) : State → State :=
  let z := sz.toNat
  runLanes 0x181 h ⟨szCls .v z, .x2, .v, true, false, [], false⟩ anyone fun s0 _ k v run =>
    match s0.place k (effAddr v.a v.b) (szBytes z) .store true with
    | .error b => b.lane run
    | .ok p =>
      if rel && s0.releaseBlocked k sc.toNat then .stall .wct
      else
        let run1 := if rel then run.orderPoint k else run
        .ok (run1.send k p (szBytes z) (.store (leBytes (szBytes z) v.d)) false .store)

/-- LDS (R160). -/
def ldsOp (h : Hdr) (sz : BitVec 3) : State → State :=
  let z := sz.toNat
  let fm : Form := ⟨szCls .w z, .v, .v, false, true, [], false⟩
  runLanes 0x182 h fm anyone fun s0 _ k v run =>
    match s0.placeOff k (spadOff v.a v.b) (szBytes z) .load with
    | .error b => b.lane run
    | .ok p => .ok (run.send k p (szBytes z) (.load (szSigned z) false false ⟨BitVec.ofNat 10 v.dst, fm.d.words⟩) false .load)

/-- STS (R160). -/
def stsOp (h : Hdr) (sz : BitVec 3) : State → State :=
  let z := sz.toNat
  runLanes 0x183 h ⟨szCls .v z, .v, .v, true, false, [], false⟩ anyone fun s0 _ k v run =>
    match s0.placeOff k (spadOff v.a v.b) (szBytes z) .store with
    | .error b => b.lane run
    | .ok p => .ok (run.send k p (szBytes z) (.store (leBytes (szBytes z) v.d)) false .store)

/-- The constant image of a thread's kernel on its core (R161, R255). -/
def State.constBytes (s : State) (k off n : Nat) : List Byte :=
  let b := s.blkOf k
  match (s.coreAt (coreOf k)).images.find? fun i => i.owner == b.ident.owner && i.cbase == b.cbase && i.cunits == b.cunits with
  | some i => Memory.read i.bytes off n
  | none => List.replicate n 0

/-- LDC (R161): the value is that of the block's image, which never changes while it is resident. -/
def ldcOp (h : Hdr) (sz : BitVec 2) : State → State :=
  let z := sz.toNat
  let fm : Form := ⟨szCls .w z, .v, .v, false, true, [], false⟩
  runLanes 0x184 h fm anyone fun s0 _ k v run =>
    let off := spadOff v.a v.b
    if off % szBytes z != 0 then .trap run 5 off
    else if off + szBytes z > 0x40000 then .trap run 14 (protInfo 3 off)
    else .ok (run.writeD k h fm v.dst (leNat (s0.constBytes k off (szBytes z))))

/-- LDF (R162): an LD.nl of its size, fine-grain (R261). -/
def ldfOp (h : Hdr) (w16 : Bool) : State → State :=
  let n := if w16 then 16 else 8
  let fm : Form := ⟨if w16 then .x4 else .x2, .x2, .v, false, true, [], false⟩
  runLanes 0x185 h fm anyone fun s0 _ k v run =>
    match s0.place k (effAddr v.a v.b) n .load false with
    | .error b => b.lane run
    | .ok p => .ok (run.send k p n (.load false false true ⟨BitVec.ofNat 10 v.dst, fm.d.words⟩) false .load)

/-! ### PREF and CINV -/

/-- PREF (R163). -/
def prefOp (h : Hdr) (l2 : Bool) : State → State :=
  runLanes 0x186 h ⟨.none, .x2, .v, false, false, [], false⟩ anyone fun s0 _ k v run =>
    let va := effAddr v.a v.b / 128 * 128
    if inWindow va then .ok run
    else match s0.translateFor k va .load with
      | .error _ => .ok run
      | .ok x =>
        let c := coreOf k
        let o := (s0.grpOf k).oslot
        let la := x.pa / 128
        let present := if l2 then s0.residentL2 la else s0.l1Valid c o la
        let flying := run.fillInFlight c o la
          || (l2 && run.reqs.any fun r => r.2.kind == .pref false && r.2.pa / 128 == la)
        if x.sync || onHostPath s0 x.pa || present || flying then .ok run
        else
          let p : Place := ⟨.home, x.pa, va⟩
          .ok (run.send k p 128 (.pref (!l2)) false .load)

/-- Fills in flight of a core that meet a test install nothing (R284, R291), for any lane of their instruction; `followers`:
nor does a load that waits for one of them. -/
def State.dropFills (s : State) (core : Nat) (followers : Bool) (p : Req → Bool) : State :=
  let falls (q : Req) : Bool := q.core == core && p q && q.kind.leases && q.state == .pending && (s.fills q || (match q.joined with
    | some (l, same) => followers || (same && ((s.reqs.find l).map s.fills).getD false)
    | _ => false))
  { s with reqs := s.reqs.changeAll fun _ q => if falls q then { q with dropFill := true } else q }

/-- CINV (R164). (DEDUCED, log entry 25) -/
def cinvOp (h : Hdr) (op : BitVec 2) : State → State :=
  let line := op == 0 || op == 2
  runLanes 0x187 h ⟨.none, if line then .x2 else .none, if line then .v else .none, false, false, [], false⟩ anyone
    fun s0 _ k v run =>
      let c := coreOf k
      let ea := effAddr v.a v.b
      let part := s0.partOf c
      let cores := run.cores.keys.filter fun x => (run.coreAt x).part == (run.coreAt c).part
      match op.toNat with
      | 0 =>
        if inWindow ea then .ok run
        else match s0.translateFor k ea .load with
          | .error _ => .ok run
          | .ok x =>
            .ok ((run.modCore c fun C => { C with l1 := C.l1.filter fun l => l.pa != x.pa / 128 }).dropFills c false
              fun q => q.pa / 128 == x.pa / 128)
      | 1 => .ok ((run.modCore c fun C => { C with l1 := [] }).dropFills c false fun _ => true)
      | 2 =>
        if inWindow ea then .ok run
        else .ok (cores.foldl (fun acc x => acc.modCore x fun C =>
          { C with
            icache := C.icache.filter fun f => !(f.part == part && f.line == ea / 128)
            aheads := C.aheads.filter fun a => a.line != ea / 128 }) run)
      | _ => .ok (cores.foldl (fun acc x => acc.modCore x fun C => { C with icache := [], aheads := [] }) run)

/-! ### The arms -/

/-- `LD` (R158). -/
def execLd (h : Hdr) (sz : BitVec 3) (acq : Bool) (sc : BitVec 3) (nl : Bool) (s : State) : Result := go (ldOp h sz acq sc nl s)

/-- `ST` (R159). -/
def execSt (h : Hdr) (sz : BitVec 3) (rel : Bool) (sc : BitVec 3) (s : State) : Result := go (stOp h sz rel sc s)

/-- `LDS` (R160). -/
def execLds (h : Hdr) (sz : BitVec 3) (s : State) : Result := go (ldsOp h sz s)

/-- `STS` (R160). -/
def execSts (h : Hdr) (sz : BitVec 3) (s : State) : Result := go (stsOp h sz s)

/-- `LDC` (R161). -/
def execLdc (h : Hdr) (sz : BitVec 2) (s : State) : Result := go (ldcOp h sz s)

/-- `LDF` (R162). -/
def execLdf (h : Hdr) (w16 : Bool) (s : State) : Result := go (ldfOp h w16 s)

/-- `PREF` (R163). -/
def execPref (h : Hdr) (l2 : Bool) (s : State) : Result := go (prefOp h l2 s)

/-- `CINV` (R164). -/
def execCinv (h : Hdr) (op : BitVec 2) (s : State) : Result := go (cinvOp h op s)

/-- `LD_B32_COMPACT` (R78, R79). -/
def execLdB32Compact (d a _b : Byte) (s : State) : Result :=
  go (ldOp (cHdr (cOp d) (cOp a) 240) 0 false 0 false s)

/-- `LD_B64_COMPACT` (R78, R79). -/
def execLdB64Compact (d a _b : Byte) (s : State) : Result :=
  go (ldOp (cHdr (cOp d) (cOp a) 240) 1 false 0 false s)

/-- `ST_B32_COMPACT` (R78, R79). -/
def execStB32Compact (d a _b : Byte) (s : State) : Result :=
  go (stOp (cHdr (cOp d) (cOp a) 240) 0 false 0 s)

/-- `ST_B64_COMPACT` (R78, R79). -/
def execStB64Compact (d a _b : Byte) (s : State) : Result :=
  go (stOp (cHdr (cOp d) (cOp a) 240) 1 false 0 s)

/-- `LDS_COMPACT` (R78, R79). -/
def execLdsCompact (d a _b : Byte) (s : State) : Result :=
  go (ldsOp (cHdr (cOp d) (cOp a) 240) 0 s)

/-- `STS_COMPACT` (R78, R79). -/
def execStsCompact (d a _b : Byte) (s : State) : Result :=
  go (stsOp (cHdr (cOp d) (cOp a) 240) 0 s)

/-- `LDC_COMPACT` (R78, R79). -/
def execLdcCompact (d a _b : Byte) (s : State) : Result :=
  go (ldcOp (cHdr (cOp d) (cOp a) 240) 0 s)

end Sys2Proof.Machine
end

