-- ==== Sys2Proof/Machine/Atomics.lean ====
section
/-! DEFINITION. Atomics (06 R169–R175): the operations, and what an atomic instruction sends. -/

namespace Sys2Proof.Machine

/-- Bits of an atomic's type: 0 s32, 1 u32, 2 f32, 3 u64. -/
def atomBits (ty : Nat) : Nat := if ty = 3 then 64 else 32

def atomCls (c : Cls) (ty : Nat) : Cls := if ty = 3 then .x2 else c

/-- The value stored (R170): old, operand b, comparand d of `.cas`. -/
def atomNew (op ty old b d : Nat) : Nat :=
  let w := atomBits ty
  match op with
  | 0 => if ty = 2 then (resultF .f32 .rn 0 0 false false (sumF false [decodeF .f32 old, decodeF .f32 b])).1 else (old + b) % 2 ^ w
  | 1 => if ty = 2 then minMaxF32 false false old b else if intOfTy ty w b < intOfTy ty w old then b else old
  | 2 => if ty = 2 then minMaxF32 true false old b else if intOfTy ty w old < intOfTy ty w b then b else old
  | 3 => old &&& b
  | 4 => old ||| b
  | 5 => old ^^^ b
  | 6 => b
  | 7 => if old ≥ b then 0 else old + 1
  | 8 => if old = 0 || old > b then b else old - 1
  | _ => if old = d then b else old
where
  /-- A value as the type reads it. -/
  intOfTy (ty w n : Nat) : Int := if ty = 0 then sgn w n else (n : Int)

/-- ORD: 1 acq, 2 rel, 3 ar. -/
def ordAcq (ord : Nat) : Bool := ord == 1 || ord == 3
def ordRel (ord : Nat) : Bool := ord ≥ 2

/-- One lane of ATOM, ATOMC and RED: the checks, the wait of a release, the request. -/
def atomLane (s0 run : State) (k va size sc : Nat) (rel acq : Bool) (kind : ReqKind) : Lane :=
  match s0.place k va size .atomic false with
  | .error b => b.lane run
  | .ok p =>
    if rel && s0.releaseBlocked k sc then .stall .wct
    else .ok ((if rel then run.orderPoint k else run).send k p size kind acq .atomic)

/-- ATOM (R171). -/
def atomOp (h : Hdr) (op : BitVec 4) (ty ord : BitVec 2) (sc : BitVec 3) : State → State :=
  let t := ty.toNat
  let fm : Form := ⟨atomCls .w t, .x2, atomCls .v t, false, true, [], false⟩
  runLanes 0x18B h fm anyone fun s0 _ k v run =>
    atomLane s0 run k (addr48 v.a) (atomBits t / 8) sc.toNat (ordRel ord.toNat) (ordAcq ord.toNat)
      (.atomic op.toNat t v.b 0 (some ⟨BitVec.ofNat 10 v.dst, fm.d.words⟩) false)

/-- ATOMC (R172): compare-and-swap with the comparand in D. -/
def atomcOp (h : Hdr) (w64 : Bool) (ord : BitVec 2) (sc : BitVec 3) : State → State :=
  let t := if w64 then 3 else 1
  let fm : Form := ⟨atomCls .w t, .x2, atomCls .v t, true, true, [], false⟩
  runLanes 0x18C h fm anyone fun s0 _ k v run =>
    atomLane s0 run k (addr48 v.a) (atomBits t / 8) sc.toNat (ordRel ord.toNat) (ordAcq ord.toNat)
      (.atomic 9 t v.b v.d (some ⟨BitVec.ofNat 10 v.dst, fm.d.words⟩) false)

/-- RED (R173): returns nothing. -/
def redOp (h : Hdr) (op : BitVec 4) (ty : BitVec 2) (rel : Bool) (sc : BitVec 3) : State → State :=
  let t := ty.toNat
  runLanes 0x18D h ⟨.none, .x2, atomCls .v t, false, false, [], false⟩ anyone fun s0 _ k v run =>
    atomLane s0 run k (addr48 v.a) (atomBits t / 8) sc.toNat rel false (.atomic op.toNat t v.b 0 none false)

/-- An ATOMSC of the thread that has not returned (R174). -/
def State.scPending (s : State) (k : Nat) : Bool :=
  (s.reqsOf k).any fun r => match r.2.kind with | .atomic _ _ _ _ _ true => true | _ => false

/-- ATOMSC (R174): its ticket comes after it has been sent. -/
def atomscOp (h : Hdr) (op : BitVec 4) (ty : BitVec 2) : State → State :=
  let t := ty.toNat
  let fm : Form := ⟨atomCls .w t, .x2, atomCls .v t, op == 9, true, [], false⟩
  runLanes 0x18E h fm anyone fun s0 _ k v run =>
    match s0.place k (addr48 v.a) (atomBits t / 8) .atomic false with
    | .error b => b.lane run
    | .ok p =>
      if s0.releaseBlocked k 3 || s0.scPending k then .stall .wct
      else .ok ((run.orderPoint k).send k p (atomBits t / 8)
        (.atomic op.toNat t v.b v.d (some ⟨BitVec.ofNat 10 v.dst, fm.d.words⟩) true) true .atomic)

/-- ATOMS (R175). -/
def atomsOp (h : Hdr) (op : BitVec 4) (ty : BitVec 2) : State → State :=
  let t := ty.toNat
  let fm : Form := ⟨atomCls .w t, .v, atomCls .v t, op == 9, true, [], false⟩
  runLanes 0x18F h fm anyone fun s0 _ k v run =>
    match s0.placeOff k (v.a % 2 ^ 32) (atomBits t / 8) .atomic with
    | .error b => b.lane run
    | .ok p => .ok (run.send k p (atomBits t / 8)
        (.atomic op.toNat t v.b v.d (some ⟨BitVec.ofNat 10 v.dst, fm.d.words⟩) false) false .atomic)

/-! ### The arms -/

/-- `ATOM` (R171). -/
def execAtom (h : Hdr) (op : BitVec 4) (ty : BitVec 2) (ord : BitVec 2) (sc : BitVec 3) (s : State) : Result := go (atomOp h op ty ord sc s)

/-- `ATOMC` (R172). -/
def execAtomc (h : Hdr) (w64 : Bool) (ord : BitVec 2) (sc : BitVec 3) (s : State) : Result := go (atomcOp h w64 ord sc s)

/-- `RED` (R173). -/
def execRed (h : Hdr) (op : BitVec 4) (ty : BitVec 2) (rel : Bool) (sc : BitVec 3) (s : State) : Result := go (redOp h op ty rel sc s)

/-- `ATOMSC` (R174). -/
def execAtomsc (h : Hdr) (op : BitVec 4) (ty : BitVec 2) (s : State) : Result := go (atomscOp h op ty s)

/-- `ATOMS` (R175). -/
def execAtoms (h : Hdr) (op : BitVec 4) (ty : BitVec 2) (s : State) : Result := go (atomsOp h op ty s)

/-- `ATOM_COMPACT` (R78, R79). -/
def execAtomCompact (d a b : Byte) (s : State) : Result :=
  go (atomOp (cHdr (cOp d) (cOp a) (cOp b)) 0 0 0 0 s)

/-- `RED_COMPACT` (R78, R79). -/
def execRedCompact (_d a b : Byte) (s : State) : Result :=
  go (redOp (cHdr 240 (cOp a) (cOp b)) 0 2 false 0 s)

end Sys2Proof.Machine
end

