-- ==== Sys2Proof/Machine/RingSet.lean ====
section
/-! DEFINITION. Ring-sets (02 R60–R66, 05 R142–R150). A set is a 32-bit number with one bit for each element of the
ring. Tables are not stored: an entry is computed from the seven values, exactly. -/

namespace Sys2Proof.Machine

/-! ### Exact points -/

/-- A point of the closed number line: −∞, +∞ or a rational in units of 2^E, E the ring's unit. -/
inductive Pt where
  | neg
  | pos
  | q (num : Int) (den : Nat)
deriving DecidableEq, Repr

def Pt.lt : Pt → Pt → Bool
  | .neg, .neg => false
  | .neg, _ => true
  | _, .neg => false
  | .pos, _ => false
  | .q .., .pos => true
  | .q a b, .q c d => decide (a * (d : Int) < c * (b : Int))

def Pt.eq (a b : Pt) : Bool := !a.lt b && !b.lt a
def Pt.max (a b : Pt) : Pt := if a.lt b then b else a
def Pt.min (a b : Pt) : Pt := if b.lt a then b else a
def Pt.negate : Pt → Pt
  | .neg => .pos
  | .pos => .neg
  | .q a b => .q (-a) b

/-- A ring as naturals V1 … V7 and the exponent −E ≥ 0 of its unit: vk = Vk · 2^E. -/
structure RingPts where
  vs : List Nat
  down : Nat
deriving DecidableEq, Repr

/-- A finite positive FP32 value as mantissa and exponent. -/
def posF32 (w : Word) : Option (Nat × Int) :=
  match decodeF .f32 w.toNat with
  | .fin false m e _ => if m = 0 then none else some (m, e)
  | _ => none

/-- The ring of seven words (R60): none where they are not finite, positive and strictly increasing. -/
def ringOf (ws : List Word) : Option RingPts :=
  match ws.mapM posF32 with
  | none => none
  | some l =>
    let e0 := l.foldl (fun acc x => min acc x.2) (0 : Int)
    let vs := l.map fun x => x.1 * 2 ^ (x.2 - e0).toNat
    if l.length == 7 && (List.range 6).all (fun i => vs.getD i 0 < vs.getD (i + 1) 0) then some ⟨vs, (-e0).toNat⟩ else none

/-- vk, counted from 1, as a point. -/
def RingPts.v (r : RingPts) (k : Nat) : Nat := r.vs.getD (k - 1) 0

/-- The exact point of an even element other than 16 (R61). -/
def RingPts.point (r : RingPts) (e : Nat) : Pt :=
  if e = 0 then .q 0 1
  else if e < 16 then .q (r.v (e / 2)) 1
  else .q (-(r.v (16 - e / 2) : Int)) 1

/-- The ends of an element's closure (R61, R147): a point twice, an interval's two ends. -/
def RingPts.ends (r : RingPts) (e : Nat) : Pt × Pt :=
  if e % 2 = 0 then (r.point e, r.point e)
  else
    (if e = 17 then .neg else r.point (e - 1), if e = 15 then .pos else r.point ((e + 1) % 32))

/-- A set of exact values: everything, ∞ alone, a point or an open interval. -/
inductive Reach where
  | whole
  | infty
  | pt (p : Pt)
  | opn (lo hi : Pt)
deriving DecidableEq, Repr

/-- An element as a set of values. -/
def RingPts.reach (r : RingPts) (e : Nat) : Reach :=
  if e = 16 then .infty else if e % 2 = 0 then .pt (r.point e) else .opn (r.ends e).1 (r.ends e).2

/-- Whether a set meets element e. -/
def RingPts.meets (r : RingPts) (x : Reach) (e : Nat) : Bool :=
  match x with
  | .whole => true
  | .infty => e == 16
  | .pt p =>
    if e = 16 then false
    else if e % 2 = 0 then p.eq (r.point e) else (r.ends e).1.lt p && p.lt (r.ends e).2
  | .opn lo hi =>
    if e = 16 then false
    else if e % 2 = 0 then lo.lt (r.point e) && (r.point e).lt hi
    else (lo.max (r.ends e).1).lt (hi.min (r.ends e).2)

def wholeRing : Nat := 2 ^ 32 - 1

/-- The elements of a set as a mask, by a test. -/
def maskOf (p : Nat → Bool) : Nat := (List.range 32).foldl (fun m e => if p e then m + 2 ^ e else m) 0

/-- The union of the elements that a set meets; an entry with all 31 finite elements takes ∞ too (R62). -/
def RingPts.cover (r : RingPts) (x : Reach) : Nat :=
  let m := maskOf (r.meets x)
  if m ||| 2 ^ 16 = wholeRing then wholeRing else m

/-! ### Table entries (R62) -/

/-- The sum of two points in the reals; with an infinite end the end is infinite. -/
def Pt.add : Pt → Pt → Pt
  | .neg, _ => .neg
  | _, .neg => .neg
  | .pos, _ => .pos
  | _, .pos => .pos
  | .q a b, .q c d => .q (a * d + c * b) (b * d)

def sumReach : Reach → Reach → Reach
  | .infty, .infty => .whole
  | .infty, _ => .infty
  | _, .infty => .infty
  | .pt a, .pt b => .pt (a.add b)
  | .pt a, .opn lo hi => .opn (a.add lo) (a.add hi)
  | .opn lo hi, .pt a => .opn (lo.add a) (hi.add a)
  | .opn lo hi, .opn lo' hi' => .opn (lo.add lo') (hi.add hi')
  | .whole, _ => .whole
  | _, .whole => .whole

/-- Sign of a point: −1, 0 or 1. -/
def Pt.sgn : Pt → Int
  | .neg => -1
  | .pos => 1
  | .q a _ => a.sign

def Pt.abs (p : Pt) : Pt := if p.sgn < 0 then p.negate else p

/-- The product of two magnitudes, in the unit of the ring: 2^−E appears once below. Where an end is infinite so is the
product, 0 times an infinite end apart, which no open interval of a ring gives. -/
def Pt.mulAbs (down : Nat) : Pt → Pt → Pt
  | .q a b, .q c d => .q (a * c) (b * d * 2 ^ down)
  | _, _ => .pos

/-- The ends of a set by magnitude, and its sign. -/
def Reach.mags : Reach → Option (Int × Pt × Pt × Bool)
  | .pt p => some (p.sgn, p.abs, p.abs, true)
  | .opn lo hi => if lo.sgn < 0 || hi.sgn < 0 then some (-1, hi.abs, lo.abs, false) else some (1, lo, hi, false)
  | _ => none

def signedReach (neg point : Bool) (lo hi : Pt) : Reach :=
  if point then .pt (if neg then lo.negate else lo)
  else if neg then .opn hi.negate lo.negate else .opn lo hi

def Reach.isZero : Reach → Bool
  | .pt p => p.sgn == 0
  | _ => false

def mulReach (down : Nat) (x y : Reach) : Reach :=
  match x, y with
  | .infty, .infty => .infty
  | .infty, y => if y.isZero then .whole else .infty
  | x, .infty => if x.isZero then .whole else .infty
  | x, y =>
    if x.isZero || y.isZero then .pt (.q 0 1)
    else match x.mags, y.mags with
      | some (s, lo, hi, p), some (t, lo', hi', p') =>
        signedReach (s != t) (p && p') (Pt.mulAbs down lo lo') (Pt.mulAbs down hi hi')
      | _, _ => .whole

/-- Tadd[e][f] (R62). -/
def RingPts.addEntry (r : RingPts) (e f : Nat) : Nat := r.cover (sumReach (r.reach e) (r.reach f))
/-- Tmul[e][f] (R62). -/
def RingPts.mulEntry (r : RingPts) (e f : Nat) : Nat := r.cover (mulReach r.down (r.reach e) (r.reach f))

/-- 1/p of a positive point, in the unit of the ring. -/
def Pt.rcp (down : Nat) : Pt → Pt
  | .pos => .q 0 1
  | .neg => .q 0 1
  | .q a b => if a = 0 then .pos else .q (b * 2 ^ (2 * down)) a.natAbs

/-- The reciprocal image of an element (R64). -/
def RingPts.rcpEntry (r : RingPts) (e : Nat) : Nat :=
  if e = 0 then 2 ^ 16
  else if e = 16 then 1
  else match (r.reach e).mags with
    | some (s, lo, hi, p) => maskOf (r.meets (signedReach (s == -1) p (hi.rcp r.down) (lo.rcp r.down)))
    | none => wholeRing

/-- Reciprocal-closed (R64): v4 = 1 and vk · v(8 − k) = 1. -/
def RingPts.closed (r : RingPts) : Bool :=
  r.v 4 == 2 ^ r.down && [1, 2, 3].all fun k => r.v k * r.v (8 - k) == 2 ^ (2 * r.down)

/-! ### Operations on sets (R63–R66, R144–R149) -/

/-- The union of the images of the members of a set. -/
def unionOf (a : Nat) (f : Nat → Nat) : Nat := (List.range 32).foldl (fun m e => if bit a e then m ||| f e else m) 0

def binaryRs (t : Nat → Nat → Nat) (a b : Nat) : Nat := unionOf a fun e => unionOf b (t e)
def valRsneg (a : Nat) : Nat := unionOf a fun e => 2 ^ ((32 - e) % 32)
def valRsrcp (r : RingPts) (a : Nat) : Nat := unionOf a r.rcpEntry
def valRsadd (r : RingPts) (a b : Nat) : Nat := binaryRs r.addEntry a b
def valRssub (r : RingPts) (a b : Nat) : Nat := binaryRs r.addEntry a (valRsneg b)
def valRsmul (r : RingPts) (a b : Nat) : Nat := binaryRs r.mulEntry a b
def valRsdiv (r : RingPts) (a b : Nat) : Nat := binaryRs r.mulEntry a (valRsrcp r b)
def valRssqr (r : RingPts) (a : Nat) : Nat := unionOf a fun e => r.mulEntry e e

/-- An FP32 value as a point in the ring's unit; none is NaN. -/
def RingPts.ptOf (r : RingPts) (w : Nat) : Option Pt :=
  match decodeF .f32 w with
  | .nan | .indet => none
  | .inf n => some (if n then .neg else .pos)
  | .fin n m e _ =>
    let k := e + r.down
    let num := if k ≥ 0 then m * 2 ^ k.toNat else m
    let den := if k ≥ 0 then 1 else 2 ^ (-k).toNat
    some (.q (if n then -(num : Int) else num) den)

/-- RSFROM without IV (R146): the element of a value. -/
def valRsfrom (r : RingPts) (a : Nat) : Nat :=
  match r.ptOf a with
  | none => wholeRing
  | some .neg | some .pos => 2 ^ 16
  | some p => maskOf (r.meets (.pt p))

/-- RSFROM.iv (R146): the elements that meet a closed interval. -/
def valRsfromIv (r : RingPts) (a b : Nat) : Nat :=
  match r.ptOf a, r.ptOf b with
  | some x, some y =>
    let lo := x.min y
    let hi := x.max y
    maskOf fun e =>
      if e = 16 then lo == .neg || lo == .pos || hi == .neg || hi == .pos
      else if e % 2 = 0 then !(r.point e).lt lo && !hi.lt (r.point e)
      else lo.lt (r.ends e).2 && (r.ends e).1.lt hi
  | _, _ => wholeRing

/-- The FP32 bits of a finite end of an element: ring values and +0. -/
def ringWord (ws : List Word) (e : Nat) : Nat :=
  if e = 0 then 0
  else if e < 16 then (ws.getD (e / 2 - 1) 0).toNat
  else 2 ^ 31 + (ws.getD (15 - e / 2) 0).toNat

/-- The elements in real order: (−∞, −v7) … (v7, ∞). -/
def realOrder : List Nat := ((List.range 15).map (· + 17)) ++ List.range 16

/-- RSLO (R147) on a loaded ring. -/
def valRslo (ws : List Word) (a : Nat) : Nat :=
  if a = 0 then 0x7FC00000
  else if bit a 16 || bit a 17 then 0xFF800000
  else match realOrder.find? (bit a ·) with
    | some e => ringWord ws (if e % 2 = 0 then e else e - 1)
    | none => 0x7FC00000

/-- RSHI (R147) on a loaded ring. -/
def valRshi (ws : List Word) (a : Nat) : Nat :=
  if a = 0 then 0x7FC00000
  else if bit a 16 || bit a 15 then 0x7F800000
  else match realOrder.reverse.find? (bit a ·) with
    | some e => ringWord ws (if e % 2 = 0 then e else (e + 1) % 32)
    | none => 0x7FC00000

/-- The elements s, s + 1, … of an arc of n elements. -/
def arcMask (st n : Nat) : Nat := maskOf fun e => (e + 32 - st) % 32 < n

/-- The shortest arc that holds every member, the lowest start on a tie (R66): start and length. -/
def hull (a : Nat) : Nat × Nat :=
  let len (st : Nat) : Nat := (List.range 32).foldl (fun m e => if bit a e then max m ((e + 32 - st) % 32 + 1) else m) 0
  (List.range 32).foldl (fun best st => if bit a st && len st < best.2 then (st, len st) else best) (0, 33)

/-- RSPACK (R149): the RS16 form and whether the set is not connected. -/
def valRspack (a : Nat) : Nat × Bool :=
  if a = 0 then (0x8000, false)
  else
    let (st, n) := hull a
    ((n - 1) * 32 + st, arcMask st n != a)

/-- RSUNPK (R66, R149). -/
def valRsunpk (a : Nat) : Nat :=
  if bit a 15 then 0
  else if field a 5 5 = 31 then wholeRing
  else arcMask (field a 0 5) (field a 5 5 + 1)

def valRstest (mode a b : Nat) : Nat :=
  b2n (match mode with
    | 0 => a &&& b == a
    | 1 => a &&& b != 0
    | 2 => a == 0
    | _ => a == wholeRing)

/-! ### Ring slots (R65, R143) -/

def State.ringAt (s : State) (c rs : Nat) : Ring := (s.coreAt c).rings.getD rs .none

/-- The RSRINGs of a slot that are still to end: those whose words have arrived, and those whose lane L0 still stands at the
instruction, its reads made or on their way. -/
def State.ringQueue (s : State) (r : Ring) : List RingLoad :=
  r.queue.filter fun e => e.words.isSome || (s.engaged e.thread && (s.thr e.thread).pc == e.pc)

/-- The last ring loaded: its values and its tag. -/
def Ring.last (r : Ring) : Option (List Word × Nat) :=
  match r.queue.reverse.findSome? fun e => e.words.map fun ws => (ws, e.owner) with
  | some b => some b
  | none => r.tag.map fun t => (r.values, t)

/-- The owner slot whose group last loaded the slot: its tag (R143). -/
def Ring.loader (r : Ring) : Option Nat := r.last.map (·.2)

/-- The slot cleared (R143): no ring, and the builds in progress aborted. -/
def Ring.clear (r : Ring) : Ring := { Ring.none with queue := r.queue.filter (·.words.isNone), issued := r.issued }

/-- The newest ring of a slot built by an RSRING of at most this number. -/
def Ring.upTo (r : Ring) (n : Nat) : Option (List Word × Nat) :=
  if r.number ≤ n then r.tag.map fun t => (r.values, t) else (r.past.find? (·.1 ≤ n)).map (·.2)

/-- An RSRING put last in a slot's queue. -/
def Ring.load (r : Ring) (owner thread pc : Nat) (words : Option (List Word)) : Ring :=
  { r with queue := r.queue ++ [⟨r.issued + 1, owner, thread, pc, words⟩], issued := r.issued + 1 }

/-- What a consulting instruction of a thread meets: no ring, a ring, or a wait for the RSRINGs that issued before it. -/
inductive Consult where
  | none
  | ring (ws : List Word)
  | wait (n : Nat)
deriving DecidableEq, Repr

/-- The key under which a waiter that is Ready again keeps its number. -/
def ringKey : Nat := 1000

/-- The last RSRING of the slot that issued before the instruction of a consuming thread. -/
def State.ringBefore (s : State) (k : Nat) (r : Ring) : Nat :=
  match (s.thr k).state with
  | .stalled (.ring n) => n
  | _ => ((s.thr k).memo.find ringKey).getD r.issued

/-- A thread of a core has issued a consulting instruction that has not ended. -/
def State.ringWaited (s : State) (c : Nat) : Bool :=
  s.threads.any fun t => coreOf t.1 == c && ((match t.2.state with | .stalled (.ring _) => true | _ => false) || (t.2.memo.find ringKey).isSome)

/-- The consultation of ring slot `rs` by a thread: it uses the last ring issued before it issued (R65). -/
def State.consult (s : State) (k rs : Nat) : Consult :=
  let r := s.ringAt (coreOf k) rs
  let o := (s.grpOf k).oslot
  let n := s.ringBefore k r
  match ((s.ringQueue r).filter (·.number ≤ n)).getLast? with
  | some e => if e.words.isSome && e.owner != o then .none else .wait n
  | none =>
    match r.upTo n with
    | some (ws, t) => if t == o then .ring ws else .none
    | none => .none

/-- A consulting instruction (R143): `empty` says whether some set operand is empty, `bare` gives its result without a
ring. -/
def runRing (opc : Nat) (h : Hdr) (fm : Form) (rs : Nat) (f : RingPts → List Word → Vals → Nat) (bare : Vals → Nat)
    (s : State) : State :=
  runLanes opc h fm anyone (fun s0 _ k v run =>
    match s0.consult k rs with
    | .wait n => .stall (.ring n)
    | .none => .ok (run.writeD k h fm v.dst (bare v))
    | .ring ws =>
      match ringOf ws with
      | some r => .ok (run.writeD k h fm v.dst (f r ws v))
      | none => .ok (run.writeD k h fm v.dst (bare v))) s

def fmRs2 : Form := ⟨.w, .v, .v, false, true, [], false⟩
def fmRs1 : Form := ⟨.w, .v, .none, false, true, [], false⟩

/-- The result of R143 for a binary and a unary set operation without a ring. -/
def bare2 (v : Vals) : Nat := if v.a = 0 || v.b = 0 then 0 else wholeRing
def bare1 (v : Vals) : Nat := if v.a = 0 then 0 else wholeRing

def rsaddOp (h : Hdr) (rs : BitVec 2) : State → State := runRing 0x100 h fmRs2 rs.toNat (fun r _ v => valRsadd r v.a v.b) bare2
def rssubOp (h : Hdr) (rs : BitVec 2) : State → State := runRing 0x101 h fmRs2 rs.toNat (fun r _ v => valRssub r v.a v.b) bare2
def rsmulOp (h : Hdr) (rs : BitVec 2) : State → State := runRing 0x102 h fmRs2 rs.toNat (fun r _ v => valRsmul r v.a v.b) bare2
def rsdivOp (h : Hdr) (rs : BitVec 2) : State → State := runRing 0x103 h fmRs2 rs.toNat (fun r _ v => valRsdiv r v.a v.b) bare2
def rsnegOp (h : Hdr) : State → State := runValue 0x104 h fmRs1 fun _ _ v => valRsneg v.a
def rsrcpOp (h : Hdr) (rs : BitVec 2) : State → State := runRing 0x105 h fmRs1 rs.toNat (fun r _ v => valRsrcp r v.a) bare1
def rssqrOp (h : Hdr) (rs : BitVec 2) : State → State := runRing 0x106 h fmRs1 rs.toNat (fun r _ v => valRssqr r v.a) bare1
def rsfromOp (h : Hdr) (rs : BitVec 2) (iv : Bool) : State → State :=
  runRing 0x107 h (if iv then fmRs2 else fmRs1) rs.toNat
    (fun r _ v => if iv then valRsfromIv r v.a v.b else valRsfrom r v.a) fun _ => wholeRing
def rsloOp (h : Hdr) (rs : BitVec 2) : State → State :=
  runRing 0x108 h fmRs1 rs.toNat (fun _ ws v => valRslo ws v.a) fun v => if v.a = 0 then 0x7FC00000 else 0xFF800000
def rshiOp (h : Hdr) (rs : BitVec 2) : State → State :=
  runRing 0x109 h fmRs1 rs.toNat (fun _ ws v => valRshi ws v.a) fun v => if v.a = 0 then 0x7FC00000 else 0x7F800000
def rsuniOp (h : Hdr) : State → State := runValue 0x10A h fmRs2 fun _ _ v => v.a ||| v.b
def rsintOp (h : Hdr) : State → State := runValue 0x10B h fmRs2 fun _ _ v => v.a &&& v.b

/-- RSTEST (R148): B is unused in `.empty` and `.whole`. -/
def rstestOp (h : Hdr) (mode : BitVec 2) : State → State :=
  runValue 0x10C h ⟨.w, .v, if mode.toNat < 2 then .v else .none, false, true, [], false⟩ fun _ _ v => valRstest mode.toNat v.a v.b

/-- RSPACK (R149): PW names p(PW − 1). -/
def rspackOp (h : Hdr) (pw : BitVec 3) : State → State :=
  let fm : Form := ⟨.w, .v, .none, false, true, if pw = 0 then [] else [pw.toNat - 1], false⟩
  runLanes 0x10D h fm anyone fun _ _ k v run =>
    let (x, split) := valRspack v.a
    let s1 := run.writeD k h fm v.dst x
    .ok (if pw = 0 then s1 else s1.modThr k fun t => t.setPred (pw.toNat - 1) split)

def rsunpkOp (h : Hdr) : State → State := runValue 0x10E h fmRs1 fun _ _ v => valRsunpk v.a

/-! ### RSRING (R150) -/

/-- A ring slot of a thread's core changed. -/
def State.modRing (s : State) (c rs : Nat) (f : Ring → Ring) : State :=
  s.modCore c fun C => { C with rings := C.rings.modify rs f }

/-- The RSRING of a thread enters the slot's queue as it issues; one of the thread that did not end leaves it. -/
def State.queueRing (s : State) (k rs : Nat) : State :=
  s.modRing (coreOf k) rs fun r =>
    ({ r with queue := r.queue.filter fun e => e.thread != k || e.words.isSome }).load (s.grpOf k).oslot k (s.thr k).pc none

/-- The RSRING of lane L0 has its words: a ring is loaded, its build to come in its turn; another leaves the slot as it
was. One that never waited is queued now. -/
def State.loadRing (s : State) (k rs : Nat) (ws : List Word) : State :=
  s.modRing (coreOf k) rs fun r =>
    let mine (e : RingLoad) : Bool := e.thread == k && e.words.isNone
    if (ringOf ws).isNone then { r with queue := r.queue.filter fun e => !mine e }
    else if r.queue.any mine then
      { r with queue := r.queue.map fun e => if mine e then { e with owner := (s.grpOf k).oslot, words := some ws } else e }
    else r.load (s.grpOf k).oslot k (s.thr k).pc (some ws)

/-- What RSRING writes to D (R149): bit 0 for a ring, bit 1 for a closed one. -/
def ringFlags (ws : List Word) : Nat := match ringOf ws with | some r => 1 + 2 * b2n r.closed | none => 0

/-- The seven words that RSRING reads as LD.b32 of lane L0 (R150): its checks, the wait for the words, the words. -/
def ringFound (s0 run : State) (l0 va : Nat) : Except Lane (List Word) :=
  if va % 32 != 0 then .error (.trap run 5 va)
  else
    match s0.words l0 (List.range 7) with
    | some ws => .ok (ws.map fun w => BitVec.ofNat 32 w)
    | none =>
      match s0.askWords run l0 true 4 ((List.range 7).map fun i => (i, va + 4 * i)) with
      | .error b => .error (b.lane run)
      | .ok s1 => .error (.asks s1)

/-- RSRING: the lowest lane L0 decides for every passing lane. Its place among the RSRINGs of the slot is that of its issue,
also while its words are on their way (R65). (DEDUCED, log entry 11) -/
def rsringOp (h : Hdr) (rs : BitVec 2) (s : State) : State :=
  let fm : Form := ⟨.w, .x2, .none, false, true, [], false⟩
  s.lookUpSince (runLanes 0x10F h fm anyone (fun s0 part k v run =>
    match part with
    | [] => .ok run
    | (l0, v0) :: _ =>
      match ringFound s0 run l0 (addr48 v0.a) with
      | .error (.asks s1) =>
        if k ≠ l0 then .stall .memory else .asks (if s0.engaged l0 then s1 else s1.queueRing l0 rs.toNat)
      | .error l => l
      | .ok ws =>
        let run1 := if k = l0 then run.loadRing l0 rs.toNat ws else run
        .ok (run1.writeD k h fm v.dst (ringFlags ws))) s)

/-! ### The arms -/

/-- `RSADD` (R144). -/
def execRsadd (h : Hdr) (rs : BitVec 2) (s : State) : Result := go (rsaddOp h rs s)

/-- `RSSUB` (R144). -/
def execRssub (h : Hdr) (rs : BitVec 2) (s : State) : Result := go (rssubOp h rs s)

/-- `RSMUL` (R144). -/
def execRsmul (h : Hdr) (rs : BitVec 2) (s : State) : Result := go (rsmulOp h rs s)

/-- `RSDIV` (R144). -/
def execRsdiv (h : Hdr) (rs : BitVec 2) (s : State) : Result := go (rsdivOp h rs s)

/-- `RSNEG` (R145). -/
def execRsneg (h : Hdr) (s : State) : Result := go (rsnegOp h s)

/-- `RSRCP` (R145). -/
def execRsrcp (h : Hdr) (rs : BitVec 2) (s : State) : Result := go (rsrcpOp h rs s)

/-- `RSSQR` (R145). -/
def execRssqr (h : Hdr) (rs : BitVec 2) (s : State) : Result := go (rssqrOp h rs s)

/-- `RSFROM` (R146). -/
def execRsfrom (h : Hdr) (rs : BitVec 2) (iv : Bool) (s : State) : Result := go (rsfromOp h rs iv s)

/-- `RSLO` (R147). -/
def execRslo (h : Hdr) (rs : BitVec 2) (s : State) : Result := go (rsloOp h rs s)

/-- `RSHI` (R147). -/
def execRshi (h : Hdr) (rs : BitVec 2) (s : State) : Result := go (rshiOp h rs s)

/-- `RSUNI` (R148). -/
def execRsuni (h : Hdr) (s : State) : Result := go (rsuniOp h s)

/-- `RSINT` (R148). -/
def execRsint (h : Hdr) (s : State) : Result := go (rsintOp h s)

/-- `RSTEST` (R148). -/
def execRstest (h : Hdr) (mode : BitVec 2) (s : State) : Result := go (rstestOp h mode s)

/-- `RSPACK` (R149). -/
def execRspack (h : Hdr) (pw : BitVec 3) (s : State) : Result := go (rspackOp h pw s)

/-- `RSUNPK` (R149). -/
def execRsunpk (h : Hdr) (s : State) : Result := go (rsunpkOp h s)

/-- `RSRING` (R150). -/
def execRsring (h : Hdr) (rs : BitVec 2) (s : State) : Result := go (rsringOp h rs s)

/-- `RSADD_COMPACT` (R78, R79). -/
def execRsaddCompact (d a b : Byte) (s : State) : Result :=
  go (rsaddOp (cHdr (cOp d) (cOp a) (cOp b)) 0 s)

/-- `RSSUB_COMPACT` (R78, R79). -/
def execRssubCompact (d a b : Byte) (s : State) : Result :=
  go (rssubOp (cHdr (cOp d) (cOp a) (cOp b)) 0 s)

/-- `RSMUL_COMPACT` (R78, R79). -/
def execRsmulCompact (d a b : Byte) (s : State) : Result :=
  go (rsmulOp (cHdr (cOp d) (cOp a) (cOp b)) 0 s)

/-- `RSDIV_COMPACT` (R78, R79). -/
def execRsdivCompact (d a b : Byte) (s : State) : Result :=
  go (rsdivOp (cHdr (cOp d) (cOp a) (cOp b)) 0 s)

/-- `RSUNI_COMPACT` (R78, R79). -/
def execRsuniCompact (d a b : Byte) (s : State) : Result :=
  go (rsuniOp (cHdr (cOp d) (cOp a) (cOp b)) s)

/-- `RSINT_COMPACT` (R78, R79). -/
def execRsintCompact (d a b : Byte) (s : State) : Result :=
  go (rsintOp (cHdr (cOp d) (cOp a) (cOp b)) s)

end Sys2Proof.Machine
end

