-- ==== Sys2Proof/Machine/Control.lean ====
section
/-! DEFINITION. Control, block barriers, child grids and rejoin barriers (04 R103–R114). -/

namespace Sys2Proof.Machine

def fmNone : Form := ⟨.none, .none, .none, false, false, [], false⟩
/-- B is a label, as an immediate. -/
def fmLabel : Form := ⟨.none, .none, .v, false, false, [], false⟩

/-- A branch target relative to the PC of the unit (R104). -/
def branchTo (pc : Nat) (imm : Nat) : Nat := wrapTo 48 ((pc : Nat) + sgn 32 imm)

/-- A transfer to a target, or MISALIGN (R104). -/
def transfer (run : State) (target : Nat) : Lane := if target % 4 != 0 then .trap run 5 target else .okAt run target

/-- The s register that a lane writes, marked by R27 where not every committing lane writes. -/
def State.markWriter (s0 run : State) (h : Hdr) (k dst : Nat) : State :=
  if 256 ≤ dst && dst < 320 then run.markUdiv (s0.cur.threads.filter fun j => (s0.thr j).guard h) [k] else run

/-! ### Branches (R104, R105, R279, R280) -/

/-- The outcomes of a conditional branch's threads; one that traps has none. -/
def branchOutcomes (s : State) (h : Hdr) : List (Nat × Bool) :=
  let (s1, ks) := decoded s 0x140 h fmLabel anyone
  if ks.any fun k => s1.busy k h fmLabel then []
  else ks.filterMap fun k =>
    let t := s1.thr k
    if t.inCapsule then none
    else if !t.guard h then some (k, false)
    else if branchTo t.pc (s1.readB k h .v 0) % 4 != 0 then none else some (k, true)

/-- BRA: a conditional branch trains its owner's bank at its issue. (DEDUCED, log entry 53) -/
def braOp (h : Hdr) (s : State) : State :=
  let os := if h.gp = 7 && !h.gn then [] else branchOutcomes s h
  let k0 := s.cur.threads.headD 0
  let s1 := s.trainBranch k0 (os.map (·.2)) (s.thr k0).pc
  (runLanes 0x140 h fmLabel anyone (fun s0 _ k v run => transfer run (branchTo (s0.thr k).pc v.b)) s1).redirect s (s.thr k0).pc os

def brxOp (h : Hdr) : State → State :=
  runLanes 0x141 h ⟨.none, .x2, .none, false, false, [], false⟩ anyone fun _ _ _ v run => transfer run (addr48 v.a)

/-- CALL: D takes the address of the next unit. -/
def callOp (h : Hdr) (ind : Bool) : State → State :=
  let fm : Form := ⟨.x2, if ind then .x2 else .none, if ind then .none else .v, false, true, [], false⟩
  runLanes 0x142 h fm anyone fun s0 _ k v run =>
    let pc := (s0.thr k).pc
    let target := if ind then addr48 v.a else branchTo pc v.b
    if target % 4 != 0 then .trap run 5 target
    else .okAt (run.writeD k h fm v.dst (addr48 (pc + h.bytes))) target

def retOp (h : Hdr) : State → State :=
  runLanes 0x143 h ⟨.none, .x2, .none, false, false, [], false⟩ anyone fun _ _ _ v run => transfer run (addr48 v.a)

/-- LOOP (R105): a lane with a count of 0 writes nothing. -/
def loopOp (h : Hdr) : State → State :=
  let fm : Form := ⟨.w, .none, .v, true, false, [], false⟩
  runLanes 0x144 h fm anyone fun s0 _ k v run =>
    let target := branchTo (s0.thr k).pc v.b
    if target % 4 != 0 then .trap run 5 target
    else if v.d = 0 then .ok run
    else
      let s1 := s0.markWriter (run.writeD k h fm v.dst (v.d - 1)) h k v.dst
      if v.d - 1 = 0 then .ok s1 else .okAt s1 target

/-! ### EXIT, YIELD, NOP, SLEEP (R107, R108) -/

def exitOp (h : Hdr) : State → State := runLanes 0x145 h fmNone anyone fun _ _ k _ run => .left (run.endThread k)

/-- YIELD: the scheduler's part is that of the YIELD hint (R73). -/
def yieldOp (h : Hdr) : State → State := runLanes 0x146 h fmNone anyone fun _ _ _ _ run => .ok run

def nopOp (h : Hdr) : State → State := runLanes 0x147 h fmNone anyone fun _ _ _ _ run => .ok run

def sleepOp (h : Hdr) : State → State :=
  runLanes 0x148 h ⟨.none, .none, .v, false, false, [], false⟩ anyone fun s0 _ _ v run =>
    if v.b = 0 then .ok run else .wait run (.sleep (s0.time + min v.b 1048575))

/-! ### Block barriers (R109, R110) -/

/-- One arrival at a block barrier; the first of a phase sets its count. -/
def State.arriveBar (s : State) (k id b : Nat) : State :=
  let blk := (s.grpOf k).block
  let ntid := (s.blk blk).ident.ntid
  s.modBar blk id fun bar =>
    let bar := if bar.opened then bar else { opened := true, expected := min b ntid, implicit := b == 0, count := 0 }
    { bar with count := bar.count + 1 }

/-- BAR and BARA: the arrival counts once the thread's earlier accesses have been performed (R110). -/
def barrierOp (opc : Nat) (h : Hdr) (id : BitVec 4) (waits : Bool) : State → State :=
  runLanes opc h ⟨.none, .none, .v, false, false, [], false⟩ anyone fun s0 _ k v run =>
    if !s0.allPerformed k then .stall .memory
    else
      let i := id.toNat
      let s1 := ((run.orderPoint k).arriveBar k i v.b).modThr k fun t =>
        let t := t.pass s0.time h (t.pc + h.bytes)
        if waits then { t with state := .waiting (.bar i) } else t
      .left (s1.testBar (s1.grpOf k).block i)

def barOp (h : Hdr) (id : BitVec 4) : State → State := barrierOp 0x149 h id true
def baraOp (h : Hdr) (id : BitVec 4) : State → State := barrierOp 0x14A h id false

/-! ### Child grids (R111, R112, R309) -/

/-- A handle for a new child: any non-zero 32-bit value that no unjoined child of the block has.
(DESIGN CHOICE, log entry 73) -/
def freeHandle (children : Tbl Nat) : Nat → Nat → Nat
  | 0, h => h
  | n + 1, h => if h = 0 || (children.find h).isSome then freeHandle children n ((h + 1) % 2 ^ 32) else h

/-- The key of an owner's child queue. -/
def childKey (part owner : Nat) : Nat := part * 65536 + owner

def State.childQ (s : State) (key : Nat) : ChildQ := (s.childQs.find key).getD ⟨0, []⟩

/-- A child grid launched by a single step starts Stopped where the monitor asks for it (R403). -/
def State.startsStopped (s : State) (k : Nat) : Bool :=
  (s.thr k).stepping && (match (s.partAt (s.partOf (coreOf k))).dbg with | some d => d.stopCh | none => false)

/-- The record appended to the child queue and to its ring; answers the state and the handle. -/
def State.launchChild (s : State) (k : Nat) (bytes : List Byte) : State × Nat :=
  let b := (s.grpOf k).block
  let B := s.blk b
  let sl := s.slotOfThread k
  let p := s.partOf (coreOf k)
  let key := childKey p sl.owner
  let q := s.childQ key
  let hnd := freeHandle B.children (B.children.length + 2) (Config.freeNat s.fresh k % 2 ^ 32)
  let l := s.nextLaunch
  let place := sl.cqBase + 64 * (q.prod % 2 ^ sl.cqLog2)
  let s1 := match s.ipaToPa p place .store with
    | .ok pa => s.deviceWrite pa bytes
    | .error _ => s
  ({ (s1.modBlk b fun B => { B with children := B.children.put hnd l }) with
      nextLaunch := l + 1
      childQs := s1.childQs.put key ⟨q.prod + 1, q.waiting ++ [⟨l, place, B.grid, b, B.ident.depth + 1, s.startsStopped k⟩]⟩ }, hnd)

/-- Bytes read in the step that executes an instruction, once the thread's earlier requests let a read be performed (R239). -/
def State.readAtIssue (s : State) (k : Nat) (p : Place) (n : Nat) : Option (List Byte) :=
  if s.mayPerform (s.newReq k p.space p.va p.pa n (.memo false 0) false) then some (s.homeBytes p.pa n) else none

/-- LAUNCH (R111). (DESIGN CHOICE, log entry 73) -/
def launchOp (h : Hdr) : State → State :=
  let fm : Form := ⟨.w, .x2, .none, false, true, [], false⟩
  runLanes 0x14B h fm anyone fun s0 _ k v run =>
    let va := addr48 v.a
    let sl := s0.slotOfThread k
    if (s0.grpOf k).leader ≠ some (laneOf k) then .trap run 14 (protInfo 5 0)
    else if (s0.blkOf k).ident.depth ≥ 10 then .trap run 10 0
    else if va % 64 != 0 then .trap run 5 va
    else if !s0.allPerformed k || !s0.pastWct k 3 then .stall .wct
    else if inWindow va then .trap run 14 (protInfo 4 va)
    else match s0.placeGlobal k va 64 .load with
      | .error b => b.lane run
      | .ok p =>
        match s0.readAtIssue k p 64 with
        | none => .stall .memory
        | some bs =>
          if (run.childQ (childKey (s0.partOf (coreOf k)) sl.owner)).waiting.length ≥ 2 ^ sl.cqLog2 then .stall .queue
          else
            let (s1, hnd) := (run.orderPoint k).launchChild k bs
            .ok (s1.writeD k h fm v.dst hnd)

/-- A CJOIN waits on a child: the one of its handle, or with handle 0 every one launched before its bound. -/
def joins (hnd bound : Nat) (c : Nat × Nat) : Bool := if hnd = 0 then decide (c.2 < bound) else c.1 == hnd

/-- Another thread of the block waits on a child in CJOIN (R112). -/
def State.awaitsChild (s : State) (k : Nat) (c : Nat × Nat) : Bool :=
  s.threads.any fun kt => kt.1 != k && (s.grpOf kt.1).block == (s.grpOf k).block && (match kt.2.state with
    | .waiting (.cjoin h b) => joins h b c
    | _ => false)

/-- A thread returns from CJOIN: the handles of completed children that no other thread waits on are freed (R112). -/
def State.joinChildren (s : State) (k hnd bound : Nat) : State :=
  s.modBlk (s.grpOf k).block fun B =>
    { B with children := B.children.filter fun c => !(s.childDone c.2 && joins hnd bound c && !s.awaitsChild k c) }

/-- Whether a CJOIN has nothing to wait for. -/
def State.joined (s : State) (k hnd bound : Nat) : Bool :=
  (s.blkOf k).children.all fun c => !joins hnd bound c || s.childDone c.2

/-- CJOIN (R112). -/
def cjoinOp (h : Hdr) : State → State :=
  runLanes 0x14C h ⟨.none, .v, .none, false, false, [], false⟩ anyone fun s0 _ k v run =>
    let bound := s0.nextLaunch
    if run.joined k v.a bound then .ok (run.joinChildren k v.a bound) else .wait run (.cjoin v.a bound)

/-! ### Rejoin barriers (R113) -/

/-- A change of one rejoin barrier's masks. -/
def State.modRejoin (s : State) (g j : Nat) (f : BitVec 32 × BitVec 32 → BitVec 32 × BitVec 32) : State :=
  s.modGrp g fun G =>
    let m := f (G.enrolled.getD j 0, G.arrived.getD j 0)
    { G with enrolled := G.enrolled.set j m.1, arrived := G.arrived.set j m.2 }

def rjenOp (h : Hdr) (j : BitVec 3) : State → State :=
  runLanes 0x14D h fmNone anyone fun _ _ k _ run =>
    let g := groupOf k
    .ok ((run.modRejoin g j.toNat fun m => (m.1 ||| laneBit k, m.2 &&& ~~~ laneBit k)).testRejoin g j.toNat)

def rjwaitOp (h : Hdr) (j : BitVec 3) : State → State :=
  runLanes 0x14E h fmNone anyone fun s0 _ k _ run =>
    let g := groupOf k
    if !((run.grp g).enrolled.getD j.toNat 0).getLsbD (laneOf k) then .ok run
    else
      let s1 := (run.modRejoin g j.toNat fun m => (m.1, m.2 ||| laneBit k)).modThr k fun t =>
        { t.pass s0.time h (t.pc + h.bytes) with state := .waiting (.rejoin j.toNat) }
      .left (s1.testRejoin g j.toNat)

def rjleaveOp (h : Hdr) (j : BitVec 3) : State → State :=
  runLanes 0x14F h fmNone anyone fun _ _ k _ run =>
    let g := groupOf k
    .ok ((run.modRejoin g j.toNat fun m => (m.1 &&& ~~~ laneBit k, m.2 &&& ~~~ laneBit k)).testRejoin g j.toNat)

/-! ### The arms -/

/-- `BRA` (R104). -/
def execBra (h : Hdr) (s : State) : Result := go (braOp h s)

/-- `BRX` (R104). -/
def execBrx (h : Hdr) (s : State) : Result := go (brxOp h s)

/-- `CALL` (R104). -/
def execCall (h : Hdr) (ind : Bool) (s : State) : Result := go (callOp h ind s)

/-- `RET` (R104). -/
def execRet (h : Hdr) (s : State) : Result := go (retOp h s)

/-- `LOOP` (R105). -/
def execLoop (h : Hdr) (s : State) : Result := go (loopOp h s)

/-- `EXIT` (R107). -/
def execExit (h : Hdr) (s : State) : Result := go (exitOp h s)

/-- `YIELD` (R108). -/
def execYieldI (h : Hdr) (s : State) : Result := go (yieldOp h s)

/-- `NOP` (R108). -/
def execNop (h : Hdr) (s : State) : Result := go (nopOp h s)

/-- `SLEEP` (R108). -/
def execSleep (h : Hdr) (s : State) : Result := go (sleepOp h s)

/-- `BAR` (R109). -/
def execBar (h : Hdr) (id : BitVec 4) (s : State) : Result := go (barOp h id s)

/-- `BARA` (R109). -/
def execBara (h : Hdr) (id : BitVec 4) (s : State) : Result := go (baraOp h id s)

/-- `LAUNCH` (R111). -/
def execLaunch (h : Hdr) (s : State) : Result := go (launchOp h s)

/-- `CJOIN` (R112). -/
def execCjoin (h : Hdr) (s : State) : Result := go (cjoinOp h s)

/-- `RJEN` (R113). -/
def execRjen (h : Hdr) (j : BitVec 3) (s : State) : Result := go (rjenOp h j s)

/-- `RJWAIT` (R113). -/
def execRjwait (h : Hdr) (j : BitVec 3) (s : State) : Result := go (rjwaitOp h j s)

/-- `RJLEAVE` (R113). -/
def execRjleave (h : Hdr) (j : BitVec 3) (s : State) : Result := go (rjleaveOp h j s)

end Sys2Proof.Machine
end

