-- ==== Sys2Proof/Machine/Sync.lean ====
section
/-! DEFINITION. Fences, continuations and arrival words (06 R176–R182). -/

namespace Sys2Proof.Machine

/-- FENCE (R177): the wide scopes wait for their wct. -/
def fenceOp (h : Hdr) (sc : BitVec 3) : State → State :=
  runLanes 0x200 h fmNone anyone fun s0 _ k _ run =>
    if s0.pastWct k sc.toNat then .ok (run.orderPoint k) else .stall .wct

/-! ### WAITC (R178, R179) -/

/-- What a continuation of a thread carries. -/
def State.carry (s : State) (k live pc : Nat) : Carried :=
  let t := s.thr k
  ⟨t.ident, t.regs.take (8 * live), t.preds, t.ks, t.fpc, t.fps, pc, (s.blkOf k).grid⟩

/-- A monitor registered (R178, steps 6 and 7): one whose condition already holds fires at once, with start time GWCT + 1
of the write that left the word as it stands (R238). -/
def State.register (s : State) (m : Monitor) : State :=
  let w : Word := BitVec.ofNat 32 (leNat (s.homeBytes m.pa 4))
  if condHolds m.cond w m.value then s.fire m ((s.wrote.find (m.pa / 128)).getD 0 + 1) else { s with monitors := s.monitors ++ [m] }

/-- WAITC (R178). The spec gives ILLOPD no operand code here: xinfo's position and code are free. A word of host or Pritch
memory takes a monitor as any other. The label's alignment is checked after ea's and before the access.
(DESIGN CHOICE, log entries 16, 91, 112) -/
def waitcOp (h : Hdr) (live : BitVec 5) (cnd : BitVec 2) : State → State :=
  runLanes 0x201 h ⟨.v, .x2, .v, true, false, [], false⟩ anyone fun s0 _ k v run =>
    let t := s0.thr k
    let va := addr48 v.a
    let target := branchTo t.pc v.b
    if t.handler then .trap run 1 (6 * 2 ^ 12 + 0x201)
    else if (s0.blkOf k).scratch ≠ 0 then .trap run 13 0
    else if 8 * live.toNat > t.regs.length then .trap run 2 (s0.free k % 2 ^ 12)
    else if va % 4 != 0 then .trap run 5 va
    else if target % 4 != 0 then .trap run 5 target
    else match s0.place k va 4 .load false with
      | .error b => b.lane run
      | .ok p =>
        if s0.releaseBlocked k 3 || s0.awaiting k then .stall .wct
        else match run.monitorRoom (s0.partOf (coreOf k)) p.pa (p.space == .sluice) with
          | none => .stall .sluice
          | some (inS, ovf) =>
            let m : Monitor := ⟨p.pa, cnd.toNat, BitVec.ofNat 32 v.d, s0.carry k live.toNat target, s0.partOf (coreOf k), inS, ovf⟩
            let run := if p.space == .sluice then run.touchLine p.pa else run
            .left (((run.orderPoint k).register m).endThread k)

/-! ### Arrival words (R181, R182) -/

/-- The 64-bit arrival word at an offset of a block's scratchpad. -/
def Block.arrival (b : Block) (off : Nat) : Nat := leNat (Memory.read b.spad off 8)

/-- The generation of an arrival word. -/
def genOf (w : Nat) : Nat := field w 56 8

/-- The test of R181, run after an update: `fuel` bounds its loop, whose count falls at each turn. -/
def arrivalTest : Nat → Nat → Nat
  | 0, w => w
  | fuel + 1, w =>
    let target := field w 28 28
    let count := field w 0 28
    if target ≠ 0 && count ≥ target then
      let turns := count / target
      arrivalTest fuel (setField (setField w 0 28 (count - turns * target)) 56 8 (genOf w + turns))
    else w

/-- A thread's WAITG into an s register that a higher lane of its bundle has written already (R27): that lane committed
then and waits no more. -/
def State.waitgOutranked (s : State) (k : Nat) (d : BitVec 10) (mates : Option (Nat × BitVec 32 × BitVec 32)) : Bool :=
  match mates with
  | none => false
  | some (at', live, _) => (List.range 32).any fun l => laneOf k < l && live.getLsbD l &&
      (match (s.thr (threadKey (groupOf k) l)).state with
       | .waiting (.waitg _ _ d' (some (a, _, _))) => !(d' == d && a == at')
       | _ => true)

/-- The waiters of an arrival word whose generation has changed take it and become Ready (R182), but for Stopped ones (R400). -/
def State.releaseWaitg (s : State) (b off : Nat) : State :=
  let g := genOf ((s.blk b).arrival off)
  s.threads.foldl (fun (acc : State) kt =>
    match kt.2.state with
    | .waiting (.waitg o gen d mates) =>
      if o = off && (s.grpOf kt.1).block == b && g ≠ gen && !kt.2.isStopped then
        let s1 := acc.modThr kt.1 fun t => t.ready s.time
        if acc.waitgOutranked kt.1 d mates then s1 else s1.writeReg kt.1 d.toNat (BitVec.ofNat 32 g)
      else acc
    | _ => acc) s

/-- An arrival word updated; `test` runs the test of R181. -/
def State.updateArrival (s : State) (b off : Nat) (f : Nat → Nat) (test : Bool) : State :=
  let w := f ((s.blk b).arrival off)
  (s.writeSpad b off (leBytes 8 (if test then arrivalTest 2 w else w))).releaseWaitg b off

/-- Bytes counted into an arrival word (R181, R210, R211). -/
def State.countArrival (s : State) (b off n : Nat) : State :=
  s.updateArrival b off (fun w => setField w 0 28 (field w 0 28 + n)) true

/-- WAITG (R182): evaluated once the thread's earlier scratchpad requests have been performed. -/
def waitgOp (h : Hdr) : State → State :=
  let fm : Form := ⟨.w, .v, .v, false, true, [], false⟩
  runLanes 0x202 h fm anyone fun s0 _ k v run =>
    match s0.placeOff k (v.a % 2 ^ 32) 8 .load with
    | .error b => b.lane run
    | .ok p =>
      let b := (s0.grpOf k).block
      if !s0.mayPerform (s0.newReq k .spad p.va p.pa 8 (.load false false false ⟨240, 1⟩) false) then .stall .memory
      else if !s0.linesFilled b p.pa 8 then .asks (run.touchSpad b p.pa 8)
      else
        let g := genOf ((run.blkOf k).arrival p.pa)
        if g ≠ v.b % 256 then .ok (run.writeD k h fm v.dst g)
        else
          .wait run (.waitg p.pa (v.b % 256) (BitVec.ofNat 10 v.dst)
            (if 256 ≤ v.dst && v.dst < 320 then some (s0.fresh, 0, 0) else none))

/-- ARMW (R182). -/
def armwOp (h : Hdr) : State → State :=
  let fm : Form := ⟨.w, .v, .v, false, true, [], false⟩
  runLanes 0x203 h fm anyone fun s0 _ k v run =>
    match s0.placeOff k (v.a % 2 ^ 32) 8 .atomic with
    | .error b => b.lane run
    | .ok p => .ok (run.send k p 8 (.arm (v.b % 2 ^ 28) ⟨BitVec.ofNat 10 v.dst, 1⟩) false .atomic)

/-- ARRV (R182): its update comes after the thread's earlier accesses. -/
def arrvOp (h : Hdr) : State → State :=
  runLanes 0x204 h ⟨.none, .v, .v, false, false, [], false⟩ anyone fun s0 _ k v run =>
    match s0.placeOff k (v.a % 2 ^ 32) 8 .atomic with
    | .error b => b.lane run
    | .ok p =>
      if !s0.allPerformed k then .stall .memory
      else .ok ((run.orderPoint k).send k p 8 (.arrive (v.b % 2 ^ 28)) false .atomic)

/-! ### The arms -/

/-- `FENCE` (R177). -/
def execFence (h : Hdr) (sc : BitVec 3) (s : State) : Result := go (fenceOp h sc s)

/-- `WAITC` (R178). -/
def execWaitc (h : Hdr) (live : BitVec 5) (cnd : BitVec 2) (s : State) : Result := go (waitcOp h live cnd s)

/-- `WAITG` (R182). -/
def execWaitg (h : Hdr) (s : State) : Result := go (waitgOp h s)

/-- `ARMW` (R182). -/
def execArmw (h : Hdr) (s : State) : Result := go (armwOp h s)

/-- `ARRV` (R182). -/
def execArrv (h : Hdr) (s : State) : Result := go (arrvOp h s)

end Sys2Proof.Machine
end

