-- ==== Sys2Proof/Machine/Capsules.lean ====
section
/-! DEFINITION. Capsules (06 R183–R191; 16 R343–R351; 17 R352). -/

namespace Sys2Proof.Machine

/-- xinfo of a CAPSULE trap with the PC of the thread. -/
def capsTrap (run : State) (t : Thread) (why : Nat) : Lane := .trap run 9 (capsuleInfo t.pc why)

/-- A record address found: its physical address, or the outcome of the check that fails (R184, R188, R190). -/
def recordPlace (s0 run : State) (k va : Nat) (acc : Acc) : Except Lane Nat :=
  let notSync : Lane := .trap run 9 (capsuleInfo va 1)
  if va % 64 != 0 then .error (.trap run 5 va)
  else if inWindow va then .error notSync
  else
    match s0.translateFor k va acc with
    | .ok x =>
      if !x.sync then .error notSync
      else if s0.isPoisoned x.pa 64 then .error (.trap run 16 va)
      else .ok x.pa
    | .error (.perm sync) => if sync then .error (.trap run 14 (protInfo 2 va)) else .error notSync
    | .error (.fault kind ipa w) => .error (.fault kind va ipa (accBits acc w))
    | .error .aliased => .error (.trap run 15 va)

/-- Sluice may perform an act of the thread on a record now (R239, R246). -/
def State.sluiceReady (s : State) (k pa : Nat) : Bool :=
  s.mayPerform (s.newReq k .sluice pa pa 64 (.load false false false ⟨240, 1⟩) false)

/-- The next identity of a context (R343): the serial goes up by 1, past 0 and past those in use. -/
def nextSerial (used : List Nat) : Nat → Nat → Nat
  | 0, n => n
  | fuel + 1, n =>
    let m := (n + 1) % 2 ^ 20
    if m = 0 || used.contains m then nextSerial used fuel m else m

/-- The serials of a context that threads with capsule state hold, the saved ones too (R343). -/
def State.serialsUsed (s : State) (x : Nat) : List Nat :=
  (s.threads ++ ((s.ctxAt x).frames.flatMap fun f => f.2.threads)).filterMap fun kt =>
    match kt.2.capsule with
    | some c => if c.ident / 2 ^ 20 = x % 4096 then some (c.ident % 2 ^ 20) else none
    | none => none

/-- An identity assigned to a thread; a reused identity is dead no more. -/
def State.newIdent (s : State) (k : Nat) : State × Nat :=
  let x := s.ctxOfGrid (s.blkOf k).grid
  let used := s.serialsUsed x
  let n := nextSerial used (used.length + 2) (s.ctxAt x).serial
  let id := x % 4096 * 2 ^ 20 + n
  ({ s with
      ctxs := s.ctxs.put x { s.ctxAt x with part := s.partOf (coreOf k), serial := n }
      sluices := s.sluices.map fun d => { d with dead := d.dead.filter (· != id) } }, id)

/-- c0–c7 of a thread. -/
def State.cRegs (s : State) (k : Nat) : List Word := (List.range 8).map fun i => s.readX k (cReg i)

/-- CAPS (R184). -/
def capsOp (h : Hdr) (ns : BitVec 5) : State → State :=
  let fm : Form := ⟨.p, .x2, .none, false, true, [], false⟩
  runLanes 0x205 h fm anyone fun s0 _ k v run =>
    let t := s0.thr k
    let va := addr48 v.a
    if t.regs.length ≠ 224 then capsTrap run t 3
    else if t.capsule.isSome then capsTrap run t 2
    else match recordPlace s0 run k va .atomic with
      | .error l => l
      | .ok pa =>
        if !s0.sluiceReady k pa || s0.busyReg k (cReg 0) 8 || s0.busyReg k 320 7 then .stall .sluice
        else
          let r := run.record pa
          let run := (run.nameRecord pa).touchLine pa
          let n := ns.toNat + 1
          if !r.held then
            let (s1, id) := run.newIdent k
            let s2 := s1.setRecord pa ⟨id, 0, 0, ns.toNat, t.pc, t.preds, true, false, false, false, true, 0, s0.cRegs k⟩
            let s3 := s2.modThr k fun t => { t with capsule := some ⟨false, va, 0, t.pc, n, 0, id⟩ }
            .okAt (s3.writeD k h fm v.dst 0) (t.pc + 12)
          else if r.desched then .okAt (run.writeD k h fm v.dst 1) (t.pc + 12 + 12 * n + 12)
          else .left (run.waitRecord k pa va)

/-- The checks of CLD and CST (R185, R186, R191): the lane's outcome, or the access as translated now (R153), the capsule
and the record. -/
def stepAccess (s0 run : State) (h : Hdr) (k va : Nat) (acc : Acc) : Except Lane (StepAccess × Capsule × Nat) :=
  let t := s0.thr k
  match t.capsule with
  | none => .error (capsTrap run t 5)
  | some c =>
    if t.handler then .error (capsTrap run t 5)
    else if !atStep t c h then .error (capsTrap run t 4)
    else match s0.place k va 4 acc false with
      | .error b => .error (b.lane run)
      | .ok p =>
        match s0.translateFor k c.capr .atomic with
        | .ok x => .ok (⟨p.pa, p.va, p.space⟩, c, x.pa)
        | .error (.fault kind ipa w) => .error (.fault kind c.capr ipa (accBits .atomic w))
        | .error (.perm _) => .error (.trap run 14 (protInfo 2 c.capr))
        | .error .aliased => .error (.trap run 15 c.capr)

/-- CLD (R186). (DEDUCED, log entry 80) -/
def cldOp (h : Hdr) : State → State :=
  runLanes 0x206 h ⟨.c, .c2, .c, false, false, [], false⟩ anyone fun s0 _ k v run =>
    match stepAccess s0 run h k (effAddr v.a v.b) .load with
    | .error l => l
    | .ok (x, c, rec) =>
      .left (((run.tlbFillFor k x.va .load).tlbFillFor k c.capr .atomic).sendCommit k c rec [] none (some (x, BitVec.ofNat 10 v.dst)))

/-- CST (R186). (DEDUCED, log entry 80) -/
def cstOp (h : Hdr) : State → State :=
  runLanes 0x207 h ⟨.c, .c2, .c, true, false, [], false⟩ anyone fun s0 _ k v run =>
    match stepAccess s0 run h k (effAddr v.a v.b) .store with
    | .error l => l
    | .ok (x, c, rec) =>
      .left (((run.tlbFillFor k x.va .store).tlbFillFor k c.capr .atomic).sendCommit k c rec [] (some (x, BitVec.ofNat 32 v.d)) none)

/-- A refused commit or CEND (R189): a holder waits for its result or collects it; a superseded adopter leaves with
c0–c7 and p0–p6 undefined. (DESIGN CHOICE, log entry 74) -/
def State.refused (s : State) (k pa : Nat) (c : Capsule) : State :=
  if c.adopter then
    s.modThr k fun t =>
      { t with
        regs := (List.range 8).foldl (fun rs i => rs.set (cReg i) (Config.freeWord s.fresh (k * 256 + cReg i))) t.regs
        preds := BitVec.ofNat 7 (Config.freeNat s.fresh k) }.heal (cReg 0) 8 |>.leaveCapsule s.time c.ret
  else
    match s.findDisplaced pa c.ident with
    | some d => (s.dropDisplaced pa c.ident).modThr k fun t => t.collect s.time c d
    | none => s.modThr k fun t => { t with state := .waiting (.displaced c.capr pa), chain := false, latch := [] }

/-- CEND (R187): a thread that has reached it with a step not committed traps BADSTEP (R349).
(DEDUCED, log entries 22, 105) -/
def cendOp (h : Hdr) : State → State :=
  runLanes 0x208 h fmNone anyone fun s0 _ k _ run =>
    let t := s0.thr k
    match t.capsule with
    | none => capsTrap run t 5
    | some c =>
      if t.handler || t.pc ≠ addr48 (c.code + 12 + 12 * c.n) then capsTrap run t 5
      else if c.estep ≠ c.n then capsTrap run t 4
      else match s0.translateFor k c.capr .atomic with
        | .error (.fault kind ipa w) => .fault kind c.capr ipa (accBits .atomic w)
        | .error (.perm _) => .trap run 14 (protInfo 2 c.capr)
        | .error .aliased => .trap run 15 c.capr
        | .ok x =>
          if s0.releaseBlocked k 3 then .stall .wct
          else if s0.isPoisoned x.pa 64 then .trap run 16 c.capr
          else
            let run := run.touchLine x.pa
            let r := run.record x.pa
            if r.runner ≠ some c.ident then .left (run.refused k x.pa c)
            else if r.adopted && !run.displacedRoom (s0.partOf (coreOf k)) (sluiceOf run x.pa) then .stall .sluice
            else
              let s1 := if r.adopted then run.postDisplaced x.pa (s0.partOf (coreOf k)) r.holder ((s0.cRegs k).take 4) else run
              let s2 := s1.setRecord x.pa { r with
                adopter := 0, step := 0, held := false, complete := true, adopted := false, desched := false, running := false
                cwct := 0 }
              let s3 := (s2.wakeRecord x.pa).orderPoint k
              .left (s3.modThr k fun t => t.leaveCapsule s0.time (if c.adopter then c.ret else c.past))

/-- CADOPT (R188, R246). The label's alignment is checked after the record's and before all else, also where the adoption
would fail. (DESIGN CHOICE, log entry 112) -/
def cadoptOp (h : Hdr) : State → State :=
  runLanes 0x209 h ⟨.none, .x2, .v, false, false, [], false⟩ anyone fun s0 _ k v run =>
    let t := s0.thr k
    let va := addr48 v.a
    let target := branchTo t.pc v.b
    if t.regs.length ≠ 224 then capsTrap run t 3
    else if t.capsule.isSome then capsTrap run t 2
    else if va % 64 = 0 && target % 4 ≠ 0 then .trap run 5 target
    else match recordPlace s0 run k va .atomic with
      | .error l => l
      | .ok pa =>
        if !s0.sluiceReady k pa || s0.busyReg k (cReg 0) 8 || s0.busyReg k 320 7 then .stall .sluice
        else
          let r := run.record pa
          let run := (run.nameRecord pa).touchLine pa
          if !(r.held && r.desched) then .okAt run (t.pc + 12)
          else
            let (s1, id) := run.newIdent k
            let s2 := s1.setRecord pa { r with adopter := id, adopted := true, desched := false, running := true }
            let pc := r.code + 12 + 12 * r.step
            .okAt (s2.modThr k fun t =>
              { t with
                regs := (List.range 8).foldl (fun rs i => rs.set (cReg i) (r.ck.getD i 0)) t.regs
                preds := r.pck
                wctPkg := max t.wctPkg r.cwct
                wctSys := max t.wctSys r.cwct
                capsule := some ⟨true, va, r.step, r.code, r.nm1 + 1, target, id⟩ }.heal (cReg 0) 8) pc

/-- The snapshot of CQRY (R190). -/
def CapRec.snapshot (r : CapRec) : Nat :=
  b2n r.held * 2 ^ 12 + b2n r.complete * 2 ^ 11 + b2n r.adopted * 2 ^ 10 + b2n r.desched * 2 ^ 9 + b2n r.running * 2 ^ 8 + r.step

/-- CQRY (R190): a load of the record that Sluice performs in its thread's program order (R246). -/
def cqryOp (h : Hdr) : State → State :=
  let fm : Form := ⟨.w, .x2, .none, false, true, [], false⟩
  runLanes 0x20A h fm anyone fun s0 _ k v run =>
    match recordPlace s0 run k (addr48 v.a) .load with
    | .error l => l
    | .ok pa =>
      let s1 := run.tlbFillFor k (addr48 v.a) .load
      .ok (s1.addReq (s1.newReq k .sluice (addr48 v.a) pa 64 (.query ⟨BitVec.ofNat 10 v.dst, 1⟩) false))

/-! ### Requests that end in INTEGRITY (R275, R384) -/

/-- The thread of a request still is the one that sent it (R324). -/
def State.tagOk (s : State) (q : Req) : Bool :=
  (s.slotTags.find (groupOf q.thread)).getD 0 == q.tag && (s.grpOf q.thread).block == q.block
    && (s.threads.find q.thread).isSome

/-- The thread can take a trap between its instructions: it neither waits, is parked, occupies a bank nor has a commit at
Sluice. -/
def State.canTrap (s : State) (k : Nat) : Bool :=
  !(s.thr k).stopped && !s.committing k && (match (s.thr k).state with
    | .ready => true
    | .stalled w => w != .bank
    | _ => false)

/-- A trap of a thread between its instructions; what its instruction was reading itself is given up.
(DEDUCED, log entries 13, 24) -/
def State.trapBetween (s : State) (k cause info : Nat) : State :=
  let mine (q : Req) : Bool := s.isOf k q && (match q.kind with | .memo .. => true | _ => false)
  ({ s with reqs := s.reqs.filter fun r => !mine r.2 } : State).trap k cause info (s.lenCodeAt k) (s.thr k).chain

/-- A GWCT enters the wct of the thread that made the write, where it still runs, and its block's account. -/
def State.enterFor (s : State) (q : Req) (g : Nat) : State :=
  if s.isOf q.thread q && (s.threads.find q.thread).isSome then s.enterWct q.thread (q.space == .hostPath) g
  else s.modBlk q.block fun B => { B with wctMax := max B.wctMax g }

/-- A request ends in INTEGRITY with its address, once its thread can take the trap; `acked`: it counts as acknowledged. Its
lane then does not commit: the instruction's other lanes write a common destination without it (R27). -/
def State.failReq (s : State) (r : Nat) (q : Req) (acked : Bool) : State :=
  let mates (x : Req) : Bool := x.issuedAt == q.issuedAt && groupOf x.thread == groupOf q.thread
  let s0 : State := { s with
    reqs := Tbl.changeAll (fun _ x => if mates x then { x with live := x.live &&& ~~~ laneBit q.thread } else x) (s.reqs.del r) }
  let alive := s.tagOk q && (s.thr q.thread).state != .ended
  if alive && !s.canTrap q.thread then s
  else
    let s1 := if acked then s0.enterFor q s.time else s0
    if alive then s1.trapBetween q.thread 16 (addr48 q.va) else s1

/-- A read whose block fails its check (R275, R340). -/
def State.failRead (s : State) (r : Nat) (q : Req) : State := s.failReq r q false

/-- A request that takes a value at its home. -/
def ReqKind.reads : ReqKind → Bool
  | .load .. => true
  | .memo .. => true
  | _ => false

/-- A request that reads before all else it does. -/
def ReqKind.readsFirst : ReqKind → Bool
  | .load .. => true
  | .memo .. => true
  | .query _ => true
  | .atomic .. => true
  | .arm .. => true
  | .arrive _ => true
  | _ => false

/-- A request that takes bytes when it is performed, a step's CLD too. -/
def ReqKind.readsNow (kind : ReqKind) : Bool :=
  kind.readsFirst || (match kind with | .commit .. => true | _ => false)

/-! ### Commits (R348) -/

/-- The index of a checkpointed register: c0–c7, then p0–p6. -/
def CapRec.checkpoint (r : CapRec) (w : BitVec 10 × Word) : CapRec :=
  let c := w.1.toNat
  if 216 ≤ c && c < 224 then { r with ck := r.ck.set (c - 216) w.2 }
  else if 320 ≤ c && c < 327 then
    let b : BitVec 7 := BitVec.ofNat 7 (2 ^ (c - 320))
    { r with pck := if w.2.getLsbD 0 then r.pck ||| b else r.pck &&& ~~~ b }
  else r

/-- A write to a synchronisation page or a home (R345, R186): answers the state and the GWCT. A page's line stands in the
line store (R340). -/
def State.sluiceWrite (s : State) (core : Option Nat) (sync : Bool) (pa : Nat) (bs : List Byte) : State × Nat :=
  if sync then
    let s1 := (s.touchLine pa).putBytes pa bs
    (if s.dropsAll pa bs then s1 else s1.afterPut pa bs.length, s.time + 1)
  else s.writeHome core pa bs

/-- A CST's store (R186): in the line store, at the home, or by the host in order with the thread's earlier stores (R248),
where it enters wct.sys alone. (DESIGN CHOICE, log entry 92) -/
def State.cstStore (s : State) (core : Nat) (a : StepAccess) (w : Word) : State × Nat :=
  match a.space with
  | .hostPath => (s.storeBytes a.pa (leBytes 4 w.toNat), s.time)
  | sp => s.sluiceWrite (some core) (sp == .sluice) a.pa (leBytes 4 w.toNat)

/-- A host-memory write of the request's thread that the host has yet to perform, before it in order (R248). -/
def State.hostBehind (s : State) (q : Req) : Bool :=
  s.reqs.any fun r => r.2.thread == q.thread && r.2.block == q.block && r.2.space == .hostPath
    && r.2.kind.writes && !r.2.state.isPerformed && r.2.seq < q.seq

/-- The commit's thread still runs the capsule under the identity that sent it (R343, R348). -/
def State.commits (s : State) (q : Req) (ident : Nat) : Bool :=
  s.isOf q.thread q && ((s.thr q.thread).capsule.map (·.ident)) == some ident

/-- The line of a CLD's or CST's word on a synchronisation page stands in the line store (R340). -/
def State.touchWords (s : State) : ReqKind → State
  | .commit _ _ _ cst cld =>
    match cld.map (·.1) <|> cst.map (·.1) with
    | some a => if a.space == .sluice then s.touchLine a.pa else s
    | none => s
  | _ => s

/-- CAPSULE_COMMIT (R185, R348): Sluice tests and performs the commit `r` and acknowledges it. The act on the record asks
for the identity and ESTEP that the request carries; the thread is changed only while it is still the one that sent it.
A failed check of the record's block, or of a CLD's word, is the committer's trap, and nothing is committed (R275, R340). -/
def commitOp (r : Nat) (s : State) : State :=
  match s.reqs.find r with
  | none => s
  | some q =>
    match q.kind with
    | .commit ident estep writes cst cld =>
      let k := q.thread
      let toHost := match cst with | some (a, _) => a.space == .hostPath | none => false
      if !s.mayPerform q || (toHost && s.hostBehind q) then s
      else
        let mine := s.commits q ident
        let s0 : State := (({ s with reqs := s.reqs.del r } : State).touchLine q.pa).touchWords q.kind
        let rc := s.record q.pa
        let failed (va : Nat) : State := if mine then ((s0.retireOne k).trapBetween k 16 va).endStep k true else s0
        if s.isPoisoned q.pa 64 then failed q.va
        else if rc.runner ≠ some ident || rc.step ≠ estep then
          match (s.thr k).capsule with
          | some c => if mine then ((s0.retireOne k).refused k q.pa c).endStep k true else s0
          | none => s0
        else match cld.filter fun x => s.isPoisoned x.1.pa 4 with
        | some (a, _) => failed a.va
        | none =>
          let ws := match cld with
            | some (a, code) => [(code, (BitVec.ofNat 32 (leNat (s.homeBytes a.pa 4)) : Word))]
            | none => writes
          let (s1, g) := match cst with
            | some (a, w) => s0.cstStore q.core a w
            | none => (s0, 0)
          let s2 := s1.setRecord q.pa (ws.foldl CapRec.checkpoint { rc with step := rc.step + 1, cwct := max rc.cwct g })
          if !mine then s2
          else
            let s3 := ws.foldl (fun (acc : State) w => acc.writeReg k w.1.toNat w.2) s2
            (((if g = 0 then s3 else s3.enterWct k toHost g).retireOne k).modThr k fun t =>
              { t with
                capsule := t.capsule.map fun c => { c with estep := c.estep + 1 }
                pc := addr48 (t.pc + 12)
                state := .ready
                readyAt := s.time }).endStep k false
    | _ => s

/-- CAPSULE_COMMIT (R348). (DEDUCED, log entries 21, 26) -/
def execCapsuleCommit (r : Nat) (s : State) : Result := go (commitOp r s)

/-- A CAPS that its core retries. -/
def Wait.retriesCaps : Wait → Bool
  | .caps _ retried => retried
  | _ => false

/-- CAPS_RETRY_TIMER (R350): every 64 cycles a core retries the CAPS whose threads no waiter list took.
(DESIGN CHOICE, log entry 29) -/
def execCapsRetryTimer (c : Nat) (s : State) : Result :=
  if s.time % 64 ≠ 0 then go s else go (s.wake fun k w => coreOf k == c && w.retriesCaps)

/-! ### The arms -/

/-- `CAPS` (R184). -/
def execCaps (h : Hdr) (ns : BitVec 5) (s : State) : Result := go (capsOp h ns s)

/-- `CLD` (R186). -/
def execCld (h : Hdr) (s : State) : Result := go (cldOp h s)

/-- `CST` (R186). -/
def execCst (h : Hdr) (s : State) : Result := go (cstOp h s)

/-- `CEND` (R187). -/
def execCend (h : Hdr) (s : State) : Result := go (cendOp h s)

/-- `CADOPT` (R188). -/
def execCadopt (h : Hdr) (s : State) : Result := go (cadoptOp h s)

/-- `CQRY` (R190). -/
def execCqry (h : Hdr) (s : State) : Result := go (cqryOp h s)

end Sys2Proof.Machine
end

