-- ==== Sys2Proof/Machine/Power.lean ====
section
/-! DEFINITION. Power tokens (20 R391, R392): balances, the pool, the draws of one cycle in smooth weighted round-robin
order, and the clock stretch of throttled cores. -/

namespace Sys2Proof.Machine

/-- A partition holds a resident block, a retire record, a continuation or an engine operation (R391). -/
def State.hasWork (s : State) (p : Nat) : Bool :=
  s.blocks.any (fun b => (s.coreAt b.2.core).part == some p) || s.engOps.any (fun o => o.2.part == p && !o.2.complete)
    || s.launches.any (fun l => l.2.part == p && !l.2.pool.isEmpty) || s.monitors.any fun m => m.part == p

/-- The tokens of a partition to the pool, but for `keep` of them. -/
def State.toPool (s : State) (p keep : Nat) : State :=
  let b := (s.partAt p).balance
  (s.modPart p fun P => { P with balance := min b keep }).modPkg fun g => { g with pool := g.pool + (b - keep) }

/-- The balance of every partition without work flows to the pool at once (R391). -/
def State.flowIdle (s : State) : State :=
  s.parts.keys.foldl (fun (acc : State) p => if (acc.partAt p).balance == 0 || acc.hasWork p then acc else acc.toPool p 0) s

/-- Whether a partition holds a core. -/
def State.holdsCore (s : State) (p : Nat) : Bool := s.cores.any fun c => c.2.part == some p

/-- The start of an interval (R391): the weights that take effect, the balances and the pool, the spend of the interval
that ended. Tokens left are discarded. -/
def State.startInterval (s : State) : State :=
  let ps := s.parts.changeAll fun _ P => { P with weight := P.nextWeight }
  let total := ((ps.filter fun p => s.holdsCore p.1).map (·.2.weight)).sum
  let share (p : Nat) (P : Part) : Nat := if s.holdsCore p then 180 * P.weight / total else 0
  let shares := (ps.map fun p => share p.1 p.2).sum
  { s with
    parts := ps.changeAll fun p P => { P with balance := share p P, previous := P.spent, spent := 0 }
    pkg := { s.pkg with
      pool := 180 - shares, intervalAt := s.pkg.intervalAt + 42500, midpoint := false, drawers := [], robin := [], idleRobin := [] } }

/-- The midpoint (R391): each partition keeps the lesser of its balance and what it has spent. -/
def State.midInterval (s : State) : State :=
  (s.parts.keys.foldl (fun (acc : State) p => acc.toPool p (acc.partAt p).spent) s).modPkg fun g => { g with midpoint := true }

/-- The partition that smooth weighted round-robin picks among those that draw, and the state after it. -/
def robinPick (robin : Tbl Int) (ws : List (Nat × Nat)) : Option Nat × Tbl Int :=
  let raised := ws.map fun w => (w.1, (robin.find w.1).getD 0 + (w.2 : Int))
  match raised with
  | [] => (none, robin)
  | x :: xs =>
    let best := xs.foldl (fun (b : Nat × Int) y => if b.2 < y.2 || (b.2 == y.2 && y.1 < b.1) then y else b) x
    let all := raised.foldl (fun (t : Tbl Int) y => t.put y.1 y.2) robin
    (some best.1, all.put best.1 (best.2 - ((ws.map (·.2)).sum : Int)))

/-- Tokens drawn by the partitions that draw in this cycle, one at a time, while the pool has any.
(DESIGN CHOICE, log entry 65) -/
def State.drawTokens : Nat → State → State
  | 0, s => s
  | n + 1, s =>
    if s.pkg.pool == 0 then s
    else match robinPick s.pkg.robin (s.pkg.drawers.eraseDups.map fun p => (p, (s.partAt p).weight)) with
      | (none, _) => s
      | (some p, r) =>
        ((s.modPart p fun P => { P with spent := P.spent + 1 }).modPkg fun g =>
          { g with pool := g.pool - 1, robin := r, drawers := g.drawers.erase p }).drawTokens n

/-- 1 mJ accrues to a partition: it pays from its balance, or draws from the pool as the cycle ends. -/
def State.accrue (s : State) (p : Nat) : State :=
  if (s.partAt p).balance != 0 then s.modPart p fun P => { P with balance := P.balance - 1, spent := P.spent + 1 }
  else if (s.parts.find p).isSome && s.hasWork p then s.modPkg fun g => { g with drawers := g.drawers ++ [p] }
  else s

/-- 1 mJ that no partition caused is charged to the partitions that hold a core, in proportion to weight (R391): whom the
next one strikes is kept as the draws keep it. (DEDUCED, log entry 65) -/
def State.accrueIdle (s : State) : State :=
  match robinPick s.pkg.idleRobin ((s.parts.filter fun p => s.holdsCore p.1).map fun p => (p.1, p.2.weight)) with
  | (none, _) => s
  | (some p, r) => (s.modPkg fun g => { g with idleRobin := r }).accrue p

/-- An interval's start or its midpoint is due at this T (R391). -/
def State.powerDue (s : State) : Bool :=
  decide (s.pkg.intervalAt + 42500 ≤ s.time) || (!s.pkg.midpoint && decide (s.pkg.intervalAt + 21250 ≤ s.time))

/-- Cycles that throttled cores skip (R392). -/
def State.stretchCores (s : State) : State :=
  if s.pkg.pool != 0 || s.time % 4 == 0 then s
  else { s with cores := s.cores.map fun c => if s.throttled c.1 then (c.1, { c.2 with stretch := c.2.stretch + 1 }) else c }

end Sys2Proof.Machine
end

