-- ==== Sys2Proof/Machine/Stash.lean ====
section
/-! DEFINITION. Stash windows (06 R165–R168; 09 R238 Grant, R245). -/

namespace Sys2Proof.Machine

/-- A write performed whose GWCT is still to return to the thread. -/
def State.oweGwct (s : State) (k pa g : Nat) : State :=
  s.addReq { s.newReq k .home pa pa 128 (.store []) false with state := .performed 0 g }

/-- The lowest-numbered live thread of a block (R245). -/
def State.lowestLive (s : State) (b : Nat) : Option Nat :=
  (s.liveOfBlock b).foldl (fun best k => match best with
    | some j => if (s.thr k).ident.tid < (s.thr j).ident.tid then some k else some j
    | none => some k) none

/-- The physical line address of a window's line. -/
def Stash.line (w : Stash) (i : Nat) : Nat := w.pas.getD i 0 / 128

/-- A block that leaves an uncorrectable error of the scratchpad at its home is poisoned there (R275, R276). -/
def State.carryBad (s : State) (b w line : Nat) (la : Nat) : State :=
  match (s.blk b).windows.find w with
  | some W =>
    let bad := ([0, 64].filter fun o => (s.blk b).spadBad (W.off + 128 * line + o) 64).map (la * 128 + ·)
    { s with poisoned := s.poisoned.filter (fun x => !bad.contains x) ++ bad }
  | none => s

/-- A dirty line of a window written home (R168, R245), its GWCT owed to a thread; `keep`: the window stays its owner. -/
def State.writeBackLine (s : State) (b w line : Nat) (k : Option Nat) (keep : Bool) : State :=
  match (s.blk b).windows.find w with
  | none => s
  | some W =>
    let st := W.lines.getD line .lost
    if !(st.owned && st.dirty) then s
    else
      let la := W.line line
      let data := s.stashBytes (b, w, line) la
      let (s1, g) := (s.modHome la fun h => { h with stash := none }).writeHome none (la * 128) data
      let s2 := if keep then s1.modHome la fun h => { h with stash := some (b, w, line) } else s1
      let s3 := (s2.carryBad b w line la).modStashLine (b, w, line) fun l => { l with dirty := false }
      match k with
      | some k => s3.oweGwct k (la * 128) g
      | none => s3.modBlk b fun B => { B with wctMax := max B.wctMax g }

/-- A line of a window is dirty and owned. -/
def Stash.unsaved (W : Stash) (i : Nat) : Bool := (W.lines.getD i .lost).owned && (W.lines.getD i .lost).dirty

/-- The dirty lines of a window. -/
def State.unsavedLines (s : State) (b w : Nat) : List Nat :=
  match (s.blk b).windows.find w with
  | none => []
  | some W => (List.range W.lines.length).filter W.unsaved

/-- The virtual and the physical address of a window's line. -/
def State.lineAddr (s : State) (b w i : Nat) : Nat × Nat :=
  (((s.blk b).windows.find w).map fun W => (addr48 (W.va + 128 * i), 128 * W.line i)).getD (0, 0)

/-- Every dirty line of a window written home. -/
def State.writeBack (s : State) (b w : Nat) (k : Option Nat) : State :=
  match (s.blk b).windows.find w with
  | none => s
  | some W => (List.range W.lines.length).foldl (fun (acc : State) i => acc.writeBackLine b w i k true) s

/-- A window unmapped: every line it owns is released; dirty data is discarded unless written back before. -/
def State.unmap (s : State) (b w : Nat) : State :=
  match (s.blk b).windows.find w with
  | none => s
  | some W =>
    let s1 := (List.range W.lines.length).foldl (fun (acc : State) i =>
      if acc.stashOf (W.line i) = some (b, w, i) then acc.modHome (W.line i) fun h => { h with stash := none } else acc) s
    { (s1.modBlk b fun B => { B with windows := B.windows.del w }) with
      reqs := s1.reqs.filter fun r => match r.2.kind with | .own b' w' _ => !(b' == b && w' == w) | _ => true }

/-- A window written back and unmapped at once. -/
def State.releaseWindow (s : State) (b w : Nat) (k : Option Nat) : State := (s.writeBack b w k).unmap b w

/-- Every window of a block released, as a completion and a pre-emption do (R168). -/
def State.releaseWindows (s : State) (b : Nat) : State :=
  let k := s.lowestLive b
  ((s.blk b).windows.keys).foldl (fun (acc : State) w => acc.releaseWindow b w k) s

/-- The thread's earlier scratchpad requests have been performed (R154). -/
def State.spadPerformed (s : State) (k : Nat) : Bool := (s.reqsOf k).all fun r => r.2.space != .spad || r.2.state.isPerformed

/-- The checks of SMAP (R166): the physical lines, or the check that fails. A page of host or Pritch memory passes them.
(DEDUCED, log entry 23; DESIGN CHOICE, log entry 93) -/
def State.smapCheck (s : State) (k w o g n : Nat) : Except Bad (List Nat) :=
  let B := s.blkOf k
  if o % 128 ≠ 0 then .error (.trap 5 o)
  else if g % 128 ≠ 0 then .error (.trap 5 g)
  else if n % 128 ≠ 0 || n < 128 || n > 65536 then .error (.trap 5 (addr48 (s.free k)))
  else if o + n > B.scratch then .error (.trap 14 (protInfo 3 o))
  else if B.windows.any fun x => x.1 != w && x.2.parting.isNone && overlaps x.2.off x.2.len o n then .error (.trap 14 (protInfo 8 o))
  else (List.range (n / 128)).mapM fun i =>
    let va := addr48 (g + 128 * i)
    if inWindow va then .error (.trap 14 (protInfo 4 va))
    else match s.translateFor k va .store with
      | .error (.perm _) => .error (.trap 14 (protInfo 2 va))
      | .error (.fault kind ipa x) => .error (.fault kind va ipa (accBits .store x))
      | .error .aliased => .error (.trap 15 va)
      | .ok x => if x.sync then .error (.trap 14 (protInfo 8 va)) else .ok x.pa

/-- The requests for the lines of a window just mapped at `va`. -/
def State.askLines (s : State) (k b w va : Nat) (pas : List Nat) : State :=
  (List.range pas.length).foldl (fun (acc : State) i =>
    acc.addReq (acc.newReq k .home (addr48 (va + 128 * i)) (pas.getD i 0) 128 (.own b w i) false)) s

/-- The write-backs of a window's dirty lines sent, as stores of a thread (R168). -/
def State.sendBack (s : State) (k b w : Nat) : State :=
  (s.unsavedLines b w).foldl (fun (acc : State) i =>
    let a := acc.lineAddr b w i
    acc.addReq (acc.newReq k .home a.1 a.2 128 (.writeBack b w i) false)) s

/-- A write-back of a window, or of one line of it, has been sent and not performed. -/
def State.saving (s : State) (b w : Nat) (line : Option Nat) : Bool :=
  s.reqs.any fun r => !r.2.state.isPerformed && (match r.2.kind with
    | .writeBack b' w' i => b' == b && w' == w && line.all (· == i)
    | _ => false)

/-- SINV of a window (R168): its dirty lines are written back as SWB writes them, or discarded, and it is unmapped. Lines
whose write-backs are still to be performed stay its own until then, under a number that no instruction names and with the
bytes that they have now. -/
def State.partWindow (s : State) (k b w : Nat) (wb : Bool) : State :=
  match (s.blk b).windows.find w with
  | none => s
  | some W =>
    let s1 := if wb then s.sendBack k b w else s
    let keeps (i : Nat) : Bool := W.unsaved i && s1.saving b w (some i)
    let lines := List.range W.lines.length
    if !lines.any keeps then s1.unmap b w
    else
      let n := 8 * (s.fresh + 1) + w
      let W' : Stash := { W with
        parting := some (Memory.read (s.blk b).spad W.off W.len)
        lines := lines.map fun i => if keeps i then W.lines.getD i .lost else .lost }
      let s2 := (s1.unmap b w).modBlk b fun B => { B with windows := B.windows.put n W' }
      let s3 := (lines.filter keeps).foldl (fun (acc : State) i => acc.modHome (W.line i) fun h => { h with stash := some (b, n, i) }) s2
      { s3 with reqs := s3.reqs.changeAll fun _ q => match q.kind with
          | .writeBack b' w' i => if b' == b && w' == w then { q with kind := .writeBack b n i } else q
          | _ => q }

/-- A window that SINV has unmapped goes once its write-backs have been performed. -/
def State.endParting (s : State) (b w : Nat) : State :=
  match (s.blk b).windows.find w with
  | some W => if W.parting.isSome && !s.saving b w none then s.unmap b w else s
  | none => s

/-- A window still waits for a line of its SMAP. -/
def State.mapping (s : State) (b w : Nat) : Bool :=
  s.reqs.any fun r => match r.2.kind with | .own b' w' _ => b' == b && w' == w | _ => false

/-- SMAP (R166): lane L0 maps the window; every passing lane stays Stalled until its lines have been granted. -/
def smapOp (h : Hdr) (w : BitVec 3) : State → State :=
  runLanes 0x188 h ⟨.v, .x2, .v, true, false, [], false⟩ anyone fun s0 part k _ run =>
    match part with
    | [] => .ok run
    | (l0, v0) :: _ =>
      let b := (s0.grpOf l0).block
      let w := w.toNat
      if (s0.thr k).state = .stalled .stash then (if run.mapping b w then .stall .stash else .ok run)
      else match s0.smapCheck l0 w v0.d (addr48 v0.a) v0.b with
        | .error e => e.lane run
        | .ok pas =>
          if !s0.spadPerformed l0 then .stall .memory
          else if k ≠ l0 then .stall .stash
          else
            let s1 := run.partWindow l0 b w true
            let W : Stash := ⟨v0.d, addr48 v0.a, v0.b, pas, pas.map fun _ => .lost, l0, none⟩
            let s2 := (s1.modBlk b fun B => { B with windows := B.windows.put w W }).askLines l0 b w W.va pas
            .left (s2.modThr k fun t => { t with state := .stalled .stash })

/-- SWB (R168). -/
def swbOp (h : Hdr) (w : BitVec 3) : State → State :=
  runLanes 0x189 h ⟨.none, .none, .none, false, false, [], false⟩ anyone fun s0 _ k _ run =>
    if !s0.spadPerformed k then .stall .memory else .ok (run.sendBack k (s0.grpOf k).block w.toNat)

/-- SINV (R168): the thread does not wait for the stores it makes (R236). -/
def sinvOp (h : Hdr) (w : BitVec 3) (wb : Bool) : State → State :=
  runLanes 0x18A h ⟨.none, .none, .none, false, false, [], false⟩ anyone fun s0 _ k _ run =>
    if !s0.spadPerformed k then .stall .memory else .ok (run.partWindow k (s0.grpOf k).block w.toNat wb)

/-! ### Events -/

/-- A window's line recalled to its home, which ends its ownership (R166): the home then holds the window's bytes. -/
def State.recallLine (s : State) (la : Nat) (own : Nat × Nat × Nat) : State :=
  ((s.putBytes (la * 128) (s.stashBytes own la)).endOwnership la).afterPut (la * 128) 128

/-- A window takes a line (R166, R167): its leases have expired, and another window loses it after a recall. -/
def State.takeLine (s : State) (b w i la : Nat) : Option State :=
  if s.time ≤ s.maxExpOf la then none
  else
    let s1 : State := match s.stashOf la with
      | some own =>
        if own = (b, w, i) then s else s.recallLine la own
      | none => s
    some ((s1.modHome la fun h => { h with stash := some (b, w, i) }).modStashLine (b, w, i) fun l => { l with owned := true })

/-- GRANT (R238, R239): a home slice grants a line to the window that asked for it. -/
def execGrant (r : Nat) (s : State) : Result :=
  match s.reqs.find r with
  | some q =>
    match q.kind with
    | .own b w i =>
      if !s.mayPerform q then go s
      else (match ({ s with reqs := s.reqs.del r } : State).takeLine b w i (q.pa / 128) with
       | some s' => go s'
       | none => go s)
    | _ => go s
  | none => go s

/-- The bytes of a line that a window takes from its home; threads that wait on an arrival word in it are tested. -/
def State.fillLine (s : State) (b w line : Nat) (W : Stash) : State :=
  let data := s.bytesAt (128 * W.line line) 128
  let s1 := (s.modBlk b fun B => { B with spad := Memory.write B.spad (W.off + 128 * line) data }).modStashLine (b, w, line)
    fun _ => ⟨true, true, false, false⟩
  (List.range 16).foldl (fun (acc : State) i => acc.releaseWaitg b (W.off + 128 * line + 8 * i)) s1

/-- STASH_LINE_FILL (R167): a line that the block has touched is taken again where it was lost, and filled from its home. -/
def execStashLineFill (b w line : Nat) (s : State) : Result :=
  match (s.blk b).windows.find w with
  | none => go s
  | some W =>
    let st := W.lines.getD line .lost
    if s.mapping b w || !st.touched || st.filled then go s
    else if st.owned then go (s.fillLine b w line W)
    else match s.takeLine b w line (W.line line) with
      | some s1 => go (s1.fillLine b w line W)
      | none => go s

/-- STASH_EVICT (R168): a window loses a line, written back first where it is dirty. -/
def execStashEvict (b w line : Nat) (s : State) : Result :=
  match (s.blk b).windows.find w with
  | none => go s
  | some W =>
    if !(W.lines.getD line .lost).owned then go s
    else
      let s1 := s.writeBackLine b w line (s.lowestLive b) true
      go (s1.endOwnership (W.line line))

/-! ### The arms -/

/-- `SMAP` (R166). -/
def execSmap (h : Hdr) (w : BitVec 3) (s : State) : Result := go (smapOp h w s)

/-- `SWB` (R168). -/
def execSwb (h : Hdr) (w : BitVec 3) (s : State) : Result := go (swbOp h w s)

/-- `SINV` (R168). -/
def execSinv (h : Hdr) (w : BitVec 3) (wb : Bool) (s : State) : Result := go (sinvOp h w wb s)

end Sys2Proof.Machine
end

