-- ==== Sys2Proof/Machine/Lease.lean ====
section
/-! DEFINITION. The steps of the lease machine that perform a thread's requests and return their values (09 R237–R248):
at the L1, at the home slices, at Sluice, on the host path and in the scratchpad. A step whose condition does not hold
changes nothing. -/

namespace Sys2Proof.Machine

/-! ### Values -/

/-- The registers of a returned value (R158): sizes below 4 are extended. -/
def extend (signed : Bool) (size v : Nat) : Nat :=
  if signed && size < 4 then wrapTo 32 (sgn (8 * size) v) else v

/-- A request performed with a value and a GWCT. -/
def State.perform (s : State) (r v g : Nat) : State := s.modReq r fun q => { q with state := .performed v g }

/-- The value that an atomic stores, by its old value. -/
def ReqKind.stored (kind : ReqKind) (old : Nat) : Nat :=
  match kind with
  | .atomic op ty b cmp _ _ => atomNew op ty old b cmp
  | _ => old

/-- An SC atomic (R174). -/
def ReqKind.isSc : ReqKind → Bool
  | .atomic _ _ _ _ _ sc => sc
  | _ => false

/-- The home of a request, for the order of tickets (R174, R247): a slice, a Sluice or the host path. -/
def State.homeId (s : State) (q : Req) : Nat :=
  match q.space with
  | .home => s.sliceOf q.pa
  | .sluice => 128 + sluiceOf s q.pa
  | .hostPath => 256
  | .spad => 257

def ReqState.ticket : ReqState → Option Nat
  | .ticketed t => some t
  | _ => none

/-- The ticket rule: an SC atomic holds a ticket, and no lower one is outstanding at its home. -/
def State.ticketOk (s : State) (q : Req) : Bool :=
  if !q.kind.isSc then true
  else match q.state.ticket with
    | none => false
    | some t => !s.reqs.any fun r => s.homeId r.2 == s.homeId q && (match r.2.state.ticket with | some u => u < t | none => false)

/-- A request that has not been performed and may be performed now. -/
def State.open (s : State) (q : Req) : Bool := !q.state.isPerformed && s.mayPerform q && s.ticketOk q

/-- A request by its number, if it may be performed in a space now. -/
def State.openReq (s : State) (r : Nat) (sp : Space) : Option Req :=
  match s.reqs.find r with
  | some q => if q.space == sp && s.open q then some q else none
  | none => none

/-! ### L1 and home (R238) -/

/-- EVICT: the copies of a line in the ways of an owner slot become invalid. -/
def evictOp (c o la : Nat) (s : State) : State :=
  s.modCore c fun C =>
    { C with l1 := C.l1.map fun l => if l.oslot == o && l.pa == la then { l with expiry := min l.expiry s.time } else l }

/-- READ_L1. -/
def readL1Op (r : Nat) (s : State) : State :=
  match s.openReq r .home with
  | none => s
  | some q =>
    match (s.coreAt q.core).l1Find q.oslot (q.pa / 128) with
    | some l =>
      if q.kind.leasedLoad && s.time < l.expiry && (s.stashOf (q.pa / 128)).isNone then
        let s1 := if q.joined.isSome then s else s.modCore q.core fun c => c.hitL1 q.oslot (q.pa / 128)
        if (s.coreAt q.core).badL1.contains (q.oslot, q.pa / 128) then s.failRead r q
        else s1.perform r (leNat ((l.data.drop (q.pa % 128)).take q.size)) 0
      else s
    | none => s

/-- A load that finds its tag in its owner's ways makes a hit, but for the lanes of an instruction that has made it (R283). -/
def Req.hits (q : Req) (c : Core) : Core :=
  match q.joined with
  | some (_, true) => c
  | _ => if q.kind.leasedLoad then c.hitL1 q.oslot (q.pa / 128) else c

/-- The lease that a read for an owner slot is granted on a line: MAXEXP rises and the L1 takes the line (R238, R283). A
load's refill of an expired line is a hit and no fill. -/
def State.grantLease (s : State) (q : Req) : State :=
  let la := q.pa / 128
  let e := s.time + leaseLen (s.slotAt q.core q.oslot).bank.conf
  let data := s.bytesAt (la * 128) 128
  let s1 := s.useL2 la fun h => { h with maxExp := max h.maxExp e, valid := BitVec.allOnes 4 }
  if q.dropFill then s1
  else s1.modCore q.core fun c =>
    if q.kind.leasedLoad && (c.l1Find q.oslot la).isSome then (q.hits c).refillL1 q.oslot la data e
    else c.fillL1 q.oslot la (field q.pc 2 7) data e

/-- A line's sectors read into L2 (R260). -/
def State.fillL2 (s : State) (q : Req) : State :=
  s.useL2 (q.pa / 128) fun h => { h with valid := h.valid ||| sectorMask (q.pa % 128) q.size }

/-- A fine-grain read changes no L2 line: one whose sectors stand in L2 is used there (R162, R261). -/
def State.readFine (s : State) (q : Req) : State :=
  let h := s.homeOf (q.pa / 128)
  if h.resident && h.valid &&& sectorMask (q.pa % 128) q.size == sectorMask (q.pa % 128) q.size then s.fillL2 q else s

/-- A load waits for the fill that it joined, and then takes Read-L1; where that fill installed nothing it is served as one
that has just missed (R291). -/
def State.waitsFill (s : State) (q : Req) : Bool := q.joined.isSome && (s.l1Valid q.core q.oslot (q.pa / 128) || s.following q)

/-- Another fill in flight that a load joins whose own awaited fill installed nothing, as one that has just missed (R291). -/
def State.rejoins (s : State) (q : Req) : Option Nat :=
  if q.joined.isSome && q.kind.leases then s.fillOf q.core q.oslot (q.pa / 128) q.issuedAt else none

/-- READ_HOME. A prefetch of an owned line is dropped. -/
def readHomeOp (r : Nat) (s : State) : State :=
  match s.openReq r .home with
  | none => s
  | some q =>
    let owned := (s.stashOf (q.pa / 128)).isSome
    let v := leNat (s.bytesAt q.pa q.size)
    if q.kind.reads && (owned || s.waitsFill q) then s
    else if let some l := s.rejoins q then s.modReq r fun q => { q with joined := some (l, false) }
    else if q.kind.reads && s.isPoisoned q.pa q.size then s.failRead r q
    else match q.kind with
      | .load _ true _ _ => (s.grantLease q).perform r v 0
      | .load _ false true _ => (s.readFine q).perform r v 0
      | .load .. => (s.fillL2 q).perform r v 0
      | .memo true _ => (s.grantLease q).perform r v 0
      | .memo false _ => (s.fillL2 q).perform r v 0
      | .pref true => let s1 := if owned then s else s.grantLease q; { s1 with reqs := s1.reqs.del r }
      | .pref false => let s1 := if owned then s else s.fillL2 q; { s1 with reqs := s1.reqs.del r }
      | _ => s

/-- RECALL: a load of an owned line takes the window's bytes. -/
def recallOp (r : Nat) (s : State) : State :=
  match s.openReq r .home with
  | none => s
  | some q =>
    if q.kind.reads && (s.stashOf (q.pa / 128)).isSome then
      if s.isPoisoned q.pa q.size then s.failRead r q else (s.modCore q.core q.hits).perform r (leNat (s.homeBytes q.pa q.size)) 0
    else s

/-- WRITE_HOME. -/
def writeHomeOp (r : Nat) (s : State) : State :=
  match s.openReq r .home with
  | none => s
  | some q =>
    match q.kind with
    | .store data =>
      let (s1, g) := s.writeHome (some q.core) q.pa data
      s1.perform r 0 g
    | .writeBack b w i =>
      (({ s with reqs := s.reqs.del r } : State).writeBackLine b w i (if s.isOf q.thread q then some q.thread else none) true).endParting b w
    | _ => s

/-- RMW_HOME. -/
def rmwHomeOp (r : Nat) (s : State) : State :=
  match s.openReq r .home with
  | none => s
  | some q =>
    match q.kind with
    | .atomic .. =>
      let old := leNat (s.homeBytes q.pa q.size)
      if s.isPoisoned q.pa q.size then s.failRead r q else
      let (s1, g) := s.writeHome (some q.core) q.pa (leBytes q.size (q.kind.stored old))
      s1.perform r old g
    | _ => s

/-- TICKET (R174): the lanes of a bundle in ascending order. -/
def ticketOp (r : Nat) (s : State) : State :=
  match s.reqs.find r with
  | none => s
  | some q =>
    let first := !s.reqs.any fun x => x.2.issuedAt == q.issuedAt && x.2.kind.isSc && x.2.state == .pending
      && quadKeyOf x.2.thread == quadKeyOf q.thread && laneOf x.2.thread < laneOf q.thread
    if q.kind.isSc && q.state == .pending && first then
      { s.modReq r (fun q => { q with state := .ticketed s.pkg.ticket }) with pkg := { s.pkg with ticket := s.pkg.ticket + 1 } }
    else s

/-! ### Sluice (R339–R345) -/

/-- SLUICE_OP: a plain request to a synchronisation page, or a CQRY. -/
def sluiceOpOp (r : Nat) (s : State) : State :=
  match s.openReq r .sluice with
  | none => s
  | some q =>
    let s0 := s.touchLine q.pa
    let old := leNat (s.homeBytes q.pa q.size)
    if q.kind.readsFirst && s.isPoisoned q.pa q.size then s.failRead r q
    else match q.kind with
    | .load .. => s0.perform r old 0
    | .memo .. => s0.perform r old 0
    | .query _ => (s0.nameRecord q.pa).perform r (s.record q.pa).snapshot 0
    | .store data =>
      let (s1, g) := s0.sluiceWrite none true q.pa data
      s1.perform r 0 g
    | .atomic .. =>
      let (s1, g) := s0.sluiceWrite none true q.pa (leBytes q.size (q.kind.stored old))
      s1.perform r old g
    | _ => s

/-- LINE_STORE_EVICT (R340): the least recently used line of a full store leaves it, which changes no value. -/
def lineStoreEvictOp (la : Nat) (s : State) : State :=
  s.modSluice (sluiceOf s (la * 128)) fun d =>
    if d.lines.length = 28160 && d.lines.getLast? == some la then { d with lines := d.lines.dropLast } else d

/-- L2_EVICT (R260): the least recently used line of a full set leaves it. -/
def l2EvictOp (la : Nat) (s : State) : State :=
  if (s.setLines la).length = 16 && lruLine (s.setLines la) == some la then s.evictL2 la else s

/-! ### Returns -/

/-- The lanes above a lane in a mask. -/
def lanesAbove (m : BitVec 32) (l : Nat) : List Nat := (List.range 32).filter fun i => l < i && m.getLsbD i

/-- A value whose destination is an s register that a higher lane of its bundle has written (R27). -/
def State.outranked (s : State) (q : Req) (code : Nat) : Bool :=
  256 ≤ code && code < 320 && (lanesAbove q.live (laneOf q.thread)).any fun l =>
    !s.reqs.any fun x => x.2.issuedAt == q.issuedAt && x.2.thread == threadKey (groupOf q.thread) l && !x.2.kind.dests.isEmpty

/-- A returned value written. -/
def State.deliver (s : State) (q : Req) (d : Dest) (v : Nat) : State :=
  if s.tagOk q && !s.outranked q d.code.toNat then s.writeRun q.thread d.code.toNat v d.words else s

/-- A word that an instruction reads itself returned to its thread, which still stands there. -/
def State.remember (s : State) (q : Req) (key v : Nat) : State :=
  if s.tagOk q && (s.thr q.thread).pc == q.pc then s.modThr q.thread fun t => { t with memo := t.memo.put key v } else s

/-- LOAD_RETURN. -/
def loadReturnOp (r : Nat) (s : State) : State :=
  match s.reqs.find r with
  | none => s
  | some q =>
    match q.state, q.kind with
    | .performed v _, .load signed _ _ d => ({ s with reqs := s.reqs.del r } : State).deliver q d (extend signed q.size v)
    | .performed v _, .memo _ key => ({ s with reqs := s.reqs.del r } : State).remember q key v
    | .performed v _, .query d => ({ s with reqs := s.reqs.del r } : State).deliver q d v
    | .performed v _, .arm _ d => ({ s with reqs := s.reqs.del r } : State).deliver q d v
    | .performed v _, .atomic op ty b cmp (some d) sc =>
      let s1 : State := if q.space = .spad then { s with reqs := s.reqs.del r }
        else s.modReq r fun q => { q with kind := .atomic op ty b cmp none sc, acquire := false }
      s1.deliver q d v
    | _, _ => s

/-- GWCT_RETURN (R159). -/
def gwctReturnOp (r : Nat) (s : State) : State :=
  match s.reqs.find r with
  | none => s
  | some q =>
    match q.state with
    | .performed _ g =>
      if q.kind.writes && q.kind.dests.isEmpty then ({ s with reqs := s.reqs.del r } : State).enterFor q g else s
    | _ => s

/-! ### The host path (R248, R383, R384) -/

/-- A host-path request performed at the far end: its value, the state after it. (DESIGN CHOICE, log entry 12) -/
def State.hostPerform (s : State) (q : Req) : State × Nat :=
  let old := s.stored q.pa q.size
  match q.kind with
  | .store data => (s.storeBytes q.pa data, 0)
  | .atomic .. => (s.storeBytes q.pa (leBytes q.size (q.kind.stored old)), old)
  | _ => (s, old)

/-- A completion dropped and counted (R384); whether the far end performed the request is then open.
(DESIGN CHOICE, log entry 12) -/
def State.dropCompletion (s : State) (r : Nat) (q : Req) : State :=
  (if s.free r % 2 = 0 then s else (s.hostPerform q).1).modPart q.part fun p => { p with linkDrops := p.linkDrops + 1 }

/-- HOST_PATH_COMPLETION. A completion that fails its authentication, or comes when the request has timed out, is dropped and
counted. -/
def hostPathCompletionOp (r : Nat) (ok : Bool) (s : State) : State :=
  match s.openReq r .hostPath, s.late.find r with
  | none, none => s
  | none, some q => { s.dropCompletion r q with late := s.late.del r }
  | some q, _ =>
    if q.lost || q.kind.holds || (q.kind.writes && s.hostBehind q) || !s.reaches q.part q.pa then s
    else if ok && !timedOut s.time q.sentAt then
      let (s1, v) := s.hostPerform q
      s1.perform r v s.time
    else (s.dropCompletion r q).modReq r fun q => { q with lost := true }

/-- REQUEST_TIMEOUT (R384): the lane traps INTEGRITY before its next instruction; a write counts as acknowledged. The
completion may still come.
(DEDUCED, log entry 13) -/
def requestTimeoutOp (r : Nat) (s : State) : State :=
  match s.reqs.find r with
  | none => s
  | some q =>
    if q.space ≠ .hostPath || q.state.isPerformed || q.kind.holds || (!timedOut s.time q.sentAt && s.reaches q.part q.pa) then s
    else if s.tagOk q && (s.thr q.thread).state != .ended && !s.canTrap q.thread then s
    else
      let s1 := s.failReq r q q.kind.writes
      if q.lost || !s.reaches q.part q.pa then s1 else { s1 with late := s1.late.put r q }

/-! ### The scratchpad (R160, R167, R181, R182) -/

/-- A scratchpad range written: an arrival word's waiters are tested. -/
def State.writeScratch (s : State) (b off : Nat) (bs : List Byte) : State :=
  let s2 := s.writeSpad b off bs
  ((List.range (bs.length / 8 + 2)).map fun i => off / 8 * 8 + 8 * i).foldl (fun (acc : State) o =>
    if o < off + bs.length then acc.releaseWaitg b o else acc) s2

/-- One scratchpad request performed. -/
def State.spadPerform (s : State) (r : Nat) (q : Req) : State :=
  let b := q.block
  let old := leNat (Memory.read (s.blk b).spad q.pa q.size)
  match q.kind with
  | .load .. => s.perform r old 0
  | .memo .. => s.perform r old 0
  | .store data => ({ s with reqs := s.reqs.del r } : State).writeScratch b q.pa data
  | .atomic .. =>
    (s.writeScratch b q.pa (leBytes q.size (q.kind.stored old))).perform r old 0
  | .arm target _ =>
    (s.updateArrival b q.pa (fun w => setField w 28 28 target) true).perform r (genOf old) 0
  | .arrive n => ({ s with reqs := s.reqs.del r } : State).countArrival b q.pa n
  | _ => s

/-- The core performs its oldest scratchpad request, once the window lines that it touches are filled; a frozen core performs
none (R333). -/
def spadMove (core : Nat) (s : State) : State :=
  match (s.coreAt core).spadQueue with
  | [] => s
  | r :: rs =>
    let popped := s.modCore core fun c => { c with spadQueue := rs }
    match s.reqs.find r with
    | none => popped
    | some q =>
      if (s.coreAt core).frozen.isSome || !s.mayPerform q then s
      else if !s.linesFilled q.block q.pa q.size then s.touchSpad q.block q.pa q.size
      else if q.kind.readsFirst && (s.blk q.block).spadBad q.pa q.size then s.failRead r q
      else popped.spadPerform r q

/-! ### The arms -/

/-- `EVICT` (R238). -/
def execEvict (c o la : Nat) (s : State) : Result := go (evictOp c o la s)

/-- `READ_L1` (R238). -/
def execReadL1 (r : Nat) (s : State) : Result := go (readL1Op r s)

/-- `READ_HOME` (R238). -/
def execReadHome (r : Nat) (s : State) : Result := go (readHomeOp r s)

/-- `RECALL` (R238). -/
def execRecall (r : Nat) (s : State) : Result := go (recallOp r s)

/-- `WRITE_HOME` (R238). -/
def execWriteHome (r : Nat) (s : State) : Result := go (writeHomeOp r s)

/-- `RMW_HOME` (R238). -/
def execRmwHome (r : Nat) (s : State) : Result := go (rmwHomeOp r s)

/-- `TICKET` (R174). -/
def execTicket (r : Nat) (s : State) : Result := go (ticketOp r s)

/-- `SLUICE_OP` (R238). -/
def execSluiceOp (r : Nat) (s : State) : Result := go (sluiceOpOp r s)

/-- `LOAD_RETURN` (R324). -/
def execLoadReturn (r : Nat) (s : State) : Result := go (loadReturnOp r s)

/-- `GWCT_RETURN` (R159). -/
def execGwctReturn (r : Nat) (s : State) : Result := go (gwctReturnOp r s)

/-- `HOST_PATH_COMPLETION` (R383). -/
def execHostPathCompletion (r : Nat) (ok : Bool) (s : State) : Result := go (hostPathCompletionOp r ok s)

/-- `REQUEST_TIMEOUT` (R384). -/
def execRequestTimeout (r : Nat) (s : State) : Result := go (requestTimeoutOp r s)

/-- `L2_EVICT` (R260). -/
def execL2Evict (la : Nat) (s : State) : Result := go (l2EvictOp la s)

/-- `LINE_STORE_EVICT` (R340). -/
def execLineStoreEvict (la : Nat) (s : State) : Result := go (lineStoreEvictOp la s)

end Sys2Proof.Machine
end

