-- ==== Sys2Proof/Machine/Int.lean ====
section
/-! DEFINITION. Integer, logic and address instructions (04 R93–R102). -/

namespace Sys2Proof.Machine

/-! ### Forms (R93) -/

def fmWVV : Form := ⟨.w, .v, .v, false, true, [], true⟩
def fmWV : Form := ⟨.w, .v, .none, false, true, [], true⟩
/-- D is read as well. -/
def fmWdVV : Form := ⟨.w, .v, .v, true, true, [], true⟩

/-! ### Values (R94–R102): operands are numbers below 2^32, or 2^64 for pairs -/

/-- An operand of `w` bits as the type reads it: signed unless U. -/
def intOf (u : Bool) (w n : Nat) : Int := if u then (n : Int) else sgn w n

/-- The range of an N-bit type (R94). -/
def intTypeRange (u : Bool) (w : Nat) : Int × Int :=
  if u then (0, 2 ^ w - 1) else (-(2 ^ (w - 1)), 2 ^ (w - 1) - 1)

/-- The exact result written (R94): wrapped, or clamped with SAT. -/
def intResult (u sat : Bool) (w : Nat) (v : Int) : Nat :=
  if sat then wrapTo w (clampTo (intTypeRange u w) v) else wrapTo w v

def valIadd (u sat : Bool) (a b : Nat) : Nat := intResult u sat 32 (intOf u 32 a + intOf u 32 b)
def valIsub (u sat : Bool) (a b : Nat) : Nat := intResult u sat 32 (intOf u 32 a - intOf u 32 b)
def valImul (u sat wide : Bool) (a b : Nat) : Nat :=
  intResult u sat (if wide then 64 else 32) (intOf u 32 a * intOf u 32 b)
def valImulh (u : Bool) (a b : Nat) : Nat := wrapTo 32 (intOf u 32 a * intOf u 32 b / 2 ^ 32)
def valImad (u sat wide : Bool) (a b d : Nat) : Nat :=
  let w := if wide then 64 else 32
  intResult u sat w (intOf u 32 a * intOf u 32 b + intOf u w d)
def valImin (u : Bool) (a b : Nat) : Nat := if intOf u 32 b < intOf u 32 a then b else a
def valImax (u : Bool) (a b : Nat) : Nat := if intOf u 32 a < intOf u 32 b then b else a
def valIabs (sat : Bool) (a : Nat) : Nat := intResult false sat 32 ((sgn 32 a).natAbs : Int)
def valIneg (sat : Bool) (a : Nat) : Nat := intResult false sat 32 (-(sgn 32 a))
def valNot (a : Nat) : Nat := 2 ^ 32 - 1 - a
def valAndn (a b : Nat) : Nat := a &&& valNot b
def valShl (a b : Nat) : Nat := if b < 32 then a * 2 ^ b % 2 ^ 32 else 0
def valShr (a b : Nat) : Nat := if b < 32 then a / 2 ^ b else 0
def valSar (a b : Nat) : Nat := wrapTo 32 (sgn 32 a / 2 ^ (min b 31))
def valRotl (a b : Nat) : Nat := let n := b % 32; (a * 2 ^ n + a / 2 ^ (32 - n)) % 2 ^ 32

/-- The bounds of the field that b names (R97): first bit and the bit past the last. -/
def fieldBounds (b : Nat) : Nat × Nat :=
  let pos := field b 0 8
  (pos, min (pos + field b 8 8) 32)

def valBfx (sx : Bool) (a b : Nat) : Nat :=
  let (pos, e) := fieldBounds b
  if pos ≥ e then 0
  else if sx then wrapTo 32 (sgn (e - pos) (field a pos (e - pos))) else field a pos (e - pos)

def valBfi (d a b : Nat) : Nat :=
  let (pos, e) := fieldBounds b
  if pos ≥ e then d else setField d pos (e - pos) a

def valPopc (a : Nat) : Nat := ((List.range 32).filter fun i => bit a i).length
def valClz (a : Nat) : Nat := if a = 0 then 32 else 31 - Nat.log2 a
def valCtz (a : Nat) : Nat := ((List.range 32).find? fun i => bit a i).getD 32
def valBrev (a : Nat) : Nat := (List.range 32).foldl (fun acc i => if bit a i then acc + 2 ^ (31 - i) else acc) 0

/-- COND of R93 on two integers. -/
def condOf (cond : Nat) (a b : Int) : Bool :=
  match cond with
  | 0 => a == b
  | 1 => a != b
  | 2 => decide (a < b)
  | 3 => decide (a ≤ b)
  | 4 => decide (a > b)
  | _ => decide (a ≥ b)

def valIcmp (w cond : Nat) (u : Bool) (a b : Nat) : Nat := b2n (condOf cond (intOf u w a) (intOf u w b))
def valPlop (lut a b : Nat) : Nat := b2n (bit lut (2 * (a % 2) + b % 2))
def valLea (sc : Nat) (u : Bool) (a b : Nat) : Nat := wrapTo 64 ((a : Int) + intOf u 32 b * 2 ^ sc)
def valAdd64 (neg : Bool) (a b : Nat) : Nat := wrapTo 64 (if neg then (a : Int) - b else (a : Int) + b)

/-- CVTI (R101). -/
def valCvti (sty dty : Nat) (sat : Bool) (a : Nat) : Nat :=
  let v := readInt sty a
  let r := if sat then clampTo (intRange dty) v else readInt dty (wrapTo (intWidth dty) v)
  wrapTo 32 r

/-- BSEL (R102): one result byte by its control byte. -/
def bselByte (a b c : Nat) : Nat :=
  let src := field c 0 3
  let x := if src < 4 then field a (8 * src) 8 else field b (8 * (src - 4)) 8
  match field c 3 2 with
  | 0 => x
  | 1 => 0
  | 2 => if bit x 7 then 255 else 0
  | _ => 255 - x

def valBsel (d a b : Nat) : Nat :=
  bselByte a b (field d 0 8) + 2 ^ 8 * bselByte a b (field d 8 8) + 2 ^ 16 * bselByte a b (field d 16 8)
    + 2 ^ 24 * bselByte a b (field d 24 8)

/-! ### The instructions -/

def movOp (h : Hdr) (w64 : Bool) : State → State :=
  runValue 0x000 h (if w64 then ⟨.x2, .x2, .none, false, true, [], true⟩ else fmWV) fun _ _ v => v.a
def moviOp (h : Hdr) (w64 : Bool) : State → State :=
  runValue 0x001 h ⟨if w64 then .x2 else .w, .none, if w64 then .x2 else .v, false, true, [], true⟩ fun _ _ v => v.b
def selOp (h : Hdr) (sp : BitVec 3) (sn : Bool) : State → State :=
  runValue 0x002 h ⟨.w, .v, .v, false, true, [sp.toNat], true⟩ fun s k v =>
    if (s.thr k).pred sp.toNat != sn then v.a else v.b
def iaddOp (h : Hdr) (u sat : Bool) : State → State := runValue 0x003 h fmWVV fun _ _ v => valIadd u sat v.a v.b
def isubOp (h : Hdr) (u sat : Bool) : State → State := runValue 0x004 h fmWVV fun _ _ v => valIsub u sat v.a v.b

/-- IADC (R95): the carry predicate is read, D written, then the carry out. -/
def iadcOp (h : Hdr) (cp : BitVec 3) (sub : Bool) : State → State :=
  runLanes 0x005 h ⟨.w, .v, .v, false, true, [cp.toNat], true⟩ anyone fun s0 _ k v run =>
    let t := (if sub then 2 ^ 32 - 1 - v.b else v.b) + v.a + b2n ((s0.thr k).pred cp.toNat)
    .ok ((run.writeD k h ⟨.w, .v, .v, false, true, [cp.toNat], true⟩ v.dst (t % 2 ^ 32)).modThr k
      fun th => th.setPred cp.toNat (decide (t ≥ 2 ^ 32)))

def imulOp (h : Hdr) (u sat wide : Bool) : State → State :=
  runValue 0x006 h ⟨if wide then .x2 else .w, .v, .v, false, true, [], true⟩ fun _ _ v => valImul u sat wide v.a v.b
def imulhOp (h : Hdr) (u : Bool) : State → State := runValue 0x007 h fmWVV fun _ _ v => valImulh u v.a v.b
def imadOp (h : Hdr) (u sat wide : Bool) : State → State :=
  runValue 0x008 h ⟨if wide then .x2 else .w, .v, .v, true, true, [], true⟩ fun _ _ v => valImad u sat wide v.a v.b v.d
def iminOp (h : Hdr) (u : Bool) : State → State := runValue 0x009 h fmWVV fun _ _ v => valImin u v.a v.b
def imaxOp (h : Hdr) (u : Bool) : State → State := runValue 0x00A h fmWVV fun _ _ v => valImax u v.a v.b
def iabsOp (h : Hdr) (sat : Bool) : State → State := runValue 0x00B h fmWV fun _ _ v => valIabs sat v.a
def inegOp (h : Hdr) (sat : Bool) : State → State := runValue 0x00C h fmWV fun _ _ v => valIneg sat v.a
def andOp (h : Hdr) : State → State := runValue 0x00D h fmWVV fun _ _ v => v.a &&& v.b
def orOp (h : Hdr) : State → State := runValue 0x00E h fmWVV fun _ _ v => v.a ||| v.b
def xorOp (h : Hdr) : State → State := runValue 0x00F h fmWVV fun _ _ v => v.a ^^^ v.b
def andnOp (h : Hdr) : State → State := runValue 0x010 h fmWVV fun _ _ v => valAndn v.a v.b
def notOp (h : Hdr) : State → State := runValue 0x011 h fmWV fun _ _ v => valNot v.a
def shlOp (h : Hdr) : State → State := runValue 0x012 h fmWVV fun _ _ v => valShl v.a v.b
def shrOp (h : Hdr) : State → State := runValue 0x013 h fmWVV fun _ _ v => valShr v.a v.b
def sarOp (h : Hdr) : State → State := runValue 0x014 h fmWVV fun _ _ v => valSar v.a v.b
def rotlOp (h : Hdr) : State → State := runValue 0x015 h fmWVV fun _ _ v => valRotl v.a v.b
def bfxOp (h : Hdr) (sx : Bool) : State → State := runValue 0x016 h fmWVV fun _ _ v => valBfx sx v.a v.b
def bfiOp (h : Hdr) : State → State := runValue 0x017 h fmWdVV fun _ _ v => valBfi v.d v.a v.b
def popcOp (h : Hdr) : State → State := runValue 0x018 h fmWV fun _ _ v => valPopc v.a
def clzOp (h : Hdr) : State → State := runValue 0x019 h fmWV fun _ _ v => valClz v.a
def ctzOp (h : Hdr) : State → State := runValue 0x01A h fmWV fun _ _ v => valCtz v.a
def brevOp (h : Hdr) : State → State := runValue 0x01B h fmWV fun _ _ v => valBrev v.a
def icmpOp (h : Hdr) (cond : BitVec 3) (u : Bool) : State → State :=
  runValue 0x01C h fmWVV fun _ _ v => valIcmp 32 cond.toNat u v.a v.b
def plopOp (h : Hdr) (lut : BitVec 4) : State → State :=
  runValue 0x01D h ⟨.p, .p, .p, false, true, [], true⟩ fun _ _ v => valPlop lut.toNat v.a v.b
def leaOp (h : Hdr) (sc : BitVec 3) (u : Bool) : State → State :=
  runValue 0x01E h ⟨.x2, .x2, .v, false, true, [], true⟩ fun _ _ v => valLea sc.toNat u v.a v.b
def add64Op (h : Hdr) (neg : Bool) : State → State :=
  runValue 0x01F h ⟨.x2, .x2, .x2, false, true, [], true⟩ fun _ _ v => valAdd64 neg v.a v.b
def cmp64Op (h : Hdr) (cond : BitVec 3) (u : Bool) : State → State :=
  runValue 0x020 h ⟨.w, .x2, .x2, false, true, [], true⟩ fun _ _ v => valIcmp 64 cond.toNat u v.a v.b
def cvtiOp (h : Hdr) (sty dty : BitVec 3) (sat : Bool) : State → State :=
  runValue 0x021 h fmWV fun _ _ v => valCvti sty.toNat dty.toNat sat v.a
def bselOp (h : Hdr) : State → State := runValue 0x022 h fmWdVV fun _ _ v => valBsel v.d v.a v.b

/-! ### The arms -/

/-- `MOV` (R96). -/
def execMov (h : Hdr) (w64 : Bool) (s : State) : Result := go (movOp h w64 s)

/-- `MOVI` (R96). -/
def execMovi (h : Hdr) (w64 : Bool) (s : State) : Result := go (moviOp h w64 s)

/-- `SEL` (R96). -/
def execSel (h : Hdr) (sp : BitVec 3) (sn : Bool) (s : State) : Result := go (selOp h sp sn s)

/-- `IADD` (R94). -/
def execIadd (h : Hdr) (u : Bool) (sat : Bool) (s : State) : Result := go (iaddOp h u sat s)

/-- `ISUB` (R94). -/
def execIsub (h : Hdr) (u : Bool) (sat : Bool) (s : State) : Result := go (isubOp h u sat s)

/-- `IADC` (R95). -/
def execIadc (h : Hdr) (cp : BitVec 3) (sub : Bool) (s : State) : Result := go (iadcOp h cp sub s)

/-- `IMUL` (R94). -/
def execImul (h : Hdr) (u : Bool) (sat : Bool) (wide : Bool) (s : State) : Result := go (imulOp h u sat wide s)

/-- `IMULH` (R94). -/
def execImulh (h : Hdr) (u : Bool) (s : State) : Result := go (imulhOp h u s)

/-- `IMAD` (R94). -/
def execImad (h : Hdr) (u : Bool) (sat : Bool) (wide : Bool) (s : State) : Result := go (imadOp h u sat wide s)

/-- `IMIN` (R94). -/
def execImin (h : Hdr) (u : Bool) (s : State) : Result := go (iminOp h u s)

/-- `IMAX` (R94). -/
def execImax (h : Hdr) (u : Bool) (s : State) : Result := go (imaxOp h u s)

/-- `IABS` (R94). -/
def execIabs (h : Hdr) (sat : Bool) (s : State) : Result := go (iabsOp h sat s)

/-- `INEG` (R94). -/
def execIneg (h : Hdr) (sat : Bool) (s : State) : Result := go (inegOp h sat s)

/-- `AND` (R96). -/
def execAndw (h : Hdr) (s : State) : Result := go (andOp h s)

/-- `OR` (R96). -/
def execOrw (h : Hdr) (s : State) : Result := go (orOp h s)

/-- `XOR` (R96). -/
def execXorw (h : Hdr) (s : State) : Result := go (xorOp h s)

/-- `ANDN` (R96). -/
def execAndn (h : Hdr) (s : State) : Result := go (andnOp h s)

/-- `NOT` (R96). -/
def execNotw (h : Hdr) (s : State) : Result := go (notOp h s)

/-- `SHL` (R96). -/
def execShl (h : Hdr) (s : State) : Result := go (shlOp h s)

/-- `SHR` (R96). -/
def execShr (h : Hdr) (s : State) : Result := go (shrOp h s)

/-- `SAR` (R96). -/
def execSar (h : Hdr) (s : State) : Result := go (sarOp h s)

/-- `ROTL` (R96). -/
def execRotl (h : Hdr) (s : State) : Result := go (rotlOp h s)

/-- `BFX` (R97). -/
def execBfx (h : Hdr) (sx : Bool) (s : State) : Result := go (bfxOp h sx s)

/-- `BFI` (R97). -/
def execBfi (h : Hdr) (s : State) : Result := go (bfiOp h s)

/-- `POPC` (R98). -/
def execPopc (h : Hdr) (s : State) : Result := go (popcOp h s)

/-- `CLZ` (R98). -/
def execClz (h : Hdr) (s : State) : Result := go (clzOp h s)

/-- `CTZ` (R98). -/
def execCtz (h : Hdr) (s : State) : Result := go (ctzOp h s)

/-- `BREV` (R98). -/
def execBrev (h : Hdr) (s : State) : Result := go (brevOp h s)

/-- `ICMP` (R99). -/
def execIcmp (h : Hdr) (cond : BitVec 3) (u : Bool) (s : State) : Result := go (icmpOp h cond u s)

/-- `PLOP` (R99). -/
def execPlop (h : Hdr) (lut : BitVec 4) (s : State) : Result := go (plopOp h lut s)

/-- `LEA` (R100). -/
def execLea (h : Hdr) (sc : BitVec 3) (u : Bool) (s : State) : Result := go (leaOp h sc u s)

/-- `ADD64` (R100). -/
def execAdd64 (h : Hdr) (neg : Bool) (s : State) : Result := go (add64Op h neg s)

/-- `CMP64` (R99). -/
def execCmp64 (h : Hdr) (cond : BitVec 3) (u : Bool) (s : State) : Result := go (cmp64Op h cond u s)

/-- `CVTI` (R101). -/
def execCvti (h : Hdr) (sty : BitVec 3) (dty : BitVec 3) (sat : Bool) (s : State) : Result := go (cvtiOp h sty dty sat s)

/-- `BSEL` (R102). -/
def execBsel (h : Hdr) (s : State) : Result := go (bselOp h s)

/-- `MOV_COMPACT` (R78, R79). -/
def execMovCompact (d a _b : Byte) (s : State) : Result :=
  go (movOp (cHdr (cOp d) (cOp a) 240) false s)

/-- `IADD_COMPACT` (R78, R79). -/
def execIaddCompact (d a b : Byte) (s : State) : Result :=
  go (iaddOp (cHdr (cOp d) (cOp a) (cOp b)) false false s)

/-- `ISUB_COMPACT` (R78, R79). -/
def execIsubCompact (d a b : Byte) (s : State) : Result :=
  go (isubOp (cHdr (cOp d) (cOp a) (cOp b)) false false s)

/-- `IMUL_COMPACT` (R78, R79). -/
def execImulCompact (d a b : Byte) (s : State) : Result :=
  go (imulOp (cHdr (cOp d) (cOp a) (cOp b)) false false false s)

/-- `IMAD_COMPACT` (R78, R79). -/
def execImadCompact (d a b : Byte) (s : State) : Result :=
  go (imadOp (cHdr (cOp d) (cOp a) (cOp b)) false false false s)

/-- `IMIN_COMPACT` (R78, R79). -/
def execIminCompact (d a b : Byte) (s : State) : Result :=
  go (iminOp (cHdr (cOp d) (cOp a) (cOp b)) false s)

/-- `IMAX_COMPACT` (R78, R79). -/
def execImaxCompact (d a b : Byte) (s : State) : Result :=
  go (imaxOp (cHdr (cOp d) (cOp a) (cOp b)) false s)

/-- `AND_COMPACT` (R78, R79). -/
def execAndwCompact (d a b : Byte) (s : State) : Result :=
  go (andOp (cHdr (cOp d) (cOp a) (cOp b)) s)

/-- `OR_COMPACT` (R78, R79). -/
def execOrwCompact (d a b : Byte) (s : State) : Result :=
  go (orOp (cHdr (cOp d) (cOp a) (cOp b)) s)

/-- `XOR_COMPACT` (R78, R79). -/
def execXorwCompact (d a b : Byte) (s : State) : Result :=
  go (xorOp (cHdr (cOp d) (cOp a) (cOp b)) s)

/-- `ANDN_COMPACT` (R78, R79). -/
def execAndnCompact (d a b : Byte) (s : State) : Result :=
  go (andnOp (cHdr (cOp d) (cOp a) (cOp b)) s)

/-- `NOT_COMPACT` (R78, R79). -/
def execNotwCompact (d a _b : Byte) (s : State) : Result :=
  go (notOp (cHdr (cOp d) (cOp a) 240) s)

/-- `SHL_COMPACT` (R78, R79). -/
def execShlCompact (d a b : Byte) (s : State) : Result :=
  go (shlOp (cHdr (cOp d) (cOp a) (cOp b)) s)

/-- `SHR_COMPACT` (R78, R79). -/
def execShrCompact (d a b : Byte) (s : State) : Result :=
  go (shrOp (cHdr (cOp d) (cOp a) (cOp b)) s)

/-- `SAR_COMPACT` (R78, R79). -/
def execSarCompact (d a b : Byte) (s : State) : Result :=
  go (sarOp (cHdr (cOp d) (cOp a) (cOp b)) s)

/-- `POPC_COMPACT` (R78, R79). -/
def execPopcCompact (d a _b : Byte) (s : State) : Result :=
  go (popcOp (cHdr (cOp d) (cOp a) 240) s)

/-- `CLZ_COMPACT` (R78, R79). -/
def execClzCompact (d a _b : Byte) (s : State) : Result :=
  go (clzOp (cHdr (cOp d) (cOp a) 240) s)

/-- `ADD64_COMPACT` (R78, R79). -/
def execAdd64Compact (d a b : Byte) (s : State) : Result :=
  go (add64Op (cHdr (cOp d) (cOp a) (cOp b)) false s)

/-- `LEA_COMPACT` (R78, R79). -/
def execLeaCompact (d a b : Byte) (s : State) : Result :=
  go (leaOp (cHdr (cOp d) (cOp a) (cOp b)) 0 false s)

/-- `BFX_COMPACT` (R78, R79). -/
def execBfxCompact (d a b : Byte) (s : State) : Result :=
  go (bfxOp (cHdr (cOp d) (cOp a) (cOp b)) false s)

/-- `BFI_COMPACT` (R78, R79). -/
def execBfiCompact (d a b : Byte) (s : State) : Result :=
  go (bfiOp (cHdr (cOp d) (cOp a) (cOp b)) s)

/-- `BSEL_COMPACT` (R78, R79). -/
def execBselCompact (d a b : Byte) (s : State) : Result :=
  go (bselOp (cHdr (cOp d) (cOp a) (cOp b)) s)

/-- `CVTI_COMPACT` (R78, R79). -/
def execCvtiCompact (d a _b : Byte) (s : State) : Result :=
  go (cvtiOp (cHdr (cOp d) (cOp a) 240) 2 0 false s)

end Sys2Proof.Machine
end

