-- ==== Sys2Proof/Machine/Float.lean ====
section
/-! DEFINITION. FP32 arithmetic and conversions (05 R123–R135). Elements are exact values, rounded once by Result. -/

namespace Sys2Proof.Machine

/-- What an element's rounding takes from its thread: the mode of RND (R123), position and phase of the dither (R53),
FTZ (R31). -/
structure RCtx where
  mode : RMode
  pos : Nat
  phase : Nat
  ftz : Bool
deriving DecidableEq, Repr

/-- The rounding context of a lane; `k` is the element's index. -/
def Thread.rctx (t : Thread) (lane rnd el : Nat) : RCtx := ⟨modeOfRnd rnd t.fpc, (lane + el) % 32, t.phase, t.ftz⟩

/-- The sign of an exact zero is − toward −∞ (R48). (DEDUCED, log entry 77) -/
def RCtx.down (c : RCtx) : Bool := c.mode == .rd

/-- Result(v, F) (R124) for the operand elements on which v depends. -/
def RCtx.result (c : RCtx) (F : Fmt) (ops : List FVal) (v : FVal) : Nat × Events :=
  resultF F c.mode c.pos c.phase c.ftz (ops.all FVal.isFin) v

/-- Result of a value that depends on operand elements: an indeterminate form first, then NaN (R124). -/
def valAdd (F : Fmt) (c : RCtx) (a b : FVal) : Nat × Events := c.result F [a, b] (sumF c.down [a, b])
def valMul (F : Fmt) (c : RCtx) (a b : FVal) : Nat × Events := c.result F [a, b] (mulF a b)
def valFma (F : Fmt) (c : RCtx) (a b d : FVal) : Nat × Events := c.result F [a, b, d] (sumF c.down [mulF a b, d])

/-- An FP32 operand of a lane. -/
def RCtx.f32 (c : RCtx) (n : Nat) : FVal := readF .f32 c.ftz n

/-- FCMP (R128). -/
def valFcmp (cond : Nat) (ftz : Bool) (a b : Nat) : Nat :=
  let x := readF .f32 ftz a
  let y := readF .f32 ftz b
  let nan := x.isNan || y.isNan
  b2n (match cond with
    | 0 => !nan && eqF x y
    | 1 => nan || !eqF x y
    | 2 => !nan && ltF x y
    | 3 => !nan && !ltF y x
    | 4 => !nan && ltF y x
    | 5 => !nan && !ltF x y
    | 6 => !nan
    | _ => nan)

/-- FRND (R130). -/
def valFrnd (c : RCtx) (a : Nat) : Nat :=
  match c.f32 a with
  | .fin n m e _ =>
    (roundFin .f32 .rn 0 n (roundInt c.mode (dither32 c.pos c.phase) n m e) 0 false).1
  | .nan | .indet => Fmt.f32.nanBits
  | .inf n => Fmt.f32.signed n Fmt.f32.infBits

/-- The functions of R131. -/
def valFun (fn : FFun) (c : RCtx) (a : Nat) : Nat × Events :=
  let x := c.f32 a
  let (v, ev) := funF fn c.down x
  let (w, es) := c.result .f32 [x] v
  (w, ev ||| es)

/-- F2F (R133). -/
def valF2f (st dt : Fmt) (c : RCtx) (a : Nat) : Nat × Events :=
  let x := readF st c.ftz (a % 2 ^ st.width)
  c.result dt [x] x

/-- I2F (R134): the zero of mode toward −∞ is −0 (R48). -/
def valI2f (st : Nat) (dt : Fmt) (c : RCtx) (a : Nat) : Nat × Events :=
  c.result dt [] (if readInt st a = 0 then .fin c.down 0 0 false else .ofInt (readInt st a))

/-- F2I (R135). -/
def valF2i (st : Fmt) (dt : Nat) (c : RCtx) (a : Nat) : Nat × Events :=
  let r := intRange dt
  match readF st c.ftz (a % 2 ^ st.width) with
  | .nan | .indet => (0, evIV)
  | .inf n => (wrapTo 32 (if n then r.1 else r.2), evIV)
  | .fin n m e _ =>
    let q := roundInt c.mode (dither32 c.pos c.phase) n m e
    let v : Int := if n then -(q : Int) else q
    (wrapTo 32 (clampTo r v), if r.1 ≤ v && v ≤ r.2 then 0 else evIV)

/-! ### The instructions -/

/-- An instruction with one floating result per lane. -/
def runFloat (opc : Nat) (h : Hdr) (fm : Form) (rnd : Nat) (f : RCtx → Vals → Nat × Events) (s : State) : State :=
  runEvents opc h fm 0 (fun s0 k v =>
    let (w, e) := f ((s0.thr k).rctx (laneOf k) rnd 0) v
    (w, [e])) s

def faddOp (h : Hdr) (rnd : BitVec 3) : State → State :=
  runFloat 0x080 h fmWVV rnd.toNat fun c v => valAdd .f32 c (c.f32 v.a) (c.f32 v.b)
def fsubOp (h : Hdr) (rnd : BitVec 3) : State → State :=
  runFloat 0x081 h fmWVV rnd.toNat fun c v => valAdd .f32 c (c.f32 v.a) (c.f32 v.b).negate
def fmulOp (h : Hdr) (rnd : BitVec 3) : State → State :=
  runFloat 0x082 h fmWVV rnd.toNat fun c v => valMul .f32 c (c.f32 v.a) (c.f32 v.b)
def ffmaOp (h : Hdr) (rnd : BitVec 3) : State → State :=
  runFloat 0x083 h fmWdVV rnd.toNat fun c v => valFma .f32 c (c.f32 v.a) (c.f32 v.b) (c.f32 v.d)
def fminOp (h : Hdr) : State → State :=
  runValue 0x084 h fmWVV fun s k v => minMaxF32 false (s.thr k).ftz v.a v.b
def fmaxOp (h : Hdr) : State → State :=
  runValue 0x085 h fmWVV fun s k v => minMaxF32 true (s.thr k).ftz v.a v.b
def fcmpOp (h : Hdr) (cond : BitVec 3) : State → State :=
  runValue 0x086 h fmWVV fun s k v => valFcmp cond.toNat (s.thr k).ftz v.a v.b
def fclassOp (h : Hdr) (fmt : BitVec 3) : State → State :=
  runValue 0x087 h fmWV fun _ _ v => classMask (fmtOf fmt.toNat) v.a
def frndOp (h : Hdr) (rnd : BitVec 3) : State → State :=
  runValue 0x088 h fmWV fun s k v => valFrnd ((s.thr k).rctx (laneOf k) rnd.toNat 0) v.a
def frcpOp (h : Hdr) (rnd : BitVec 3) : State → State :=
  runFloat 0x089 h fmWV rnd.toNat fun c v => valFun .rcp c v.a
def frsqOp (h : Hdr) (rnd : BitVec 3) : State → State :=
  runFloat 0x08A h fmWV rnd.toNat fun c v => valFun .rsq c v.a
def fsqrtOp (h : Hdr) (rnd : BitVec 3) : State → State :=
  runFloat 0x08B h fmWV rnd.toNat fun c v => valFun .sqrt c v.a
def fex2Op (h : Hdr) (rnd : BitVec 3) : State → State :=
  runFloat 0x08C h fmWV rnd.toNat fun c v => valFun .ex2 c v.a
def flg2Op (h : Hdr) (rnd : BitVec 3) : State → State :=
  runFloat 0x08D h fmWV rnd.toNat fun c v => valFun .lg2 c v.a
def fsinOp (h : Hdr) (rnd : BitVec 3) : State → State :=
  runFloat 0x08E h fmWV rnd.toNat fun c v => valFun .sin c v.a
def fcosOp (h : Hdr) (rnd : BitVec 3) : State → State :=
  runFloat 0x08F h fmWV rnd.toNat fun c v => valFun .cos c v.a
def ftanhOp (h : Hdr) (rnd : BitVec 3) : State → State :=
  runFloat 0x090 h fmWV rnd.toNat fun c v => valFun .tanh c v.a
def f2fOp (h : Hdr) (rnd dty sty : BitVec 3) : State → State :=
  runFloat 0x091 h fmWV rnd.toNat fun c v => valF2f (fmtOf sty.toNat) (fmtOf dty.toNat) c v.a
def i2fOp (h : Hdr) (rnd sty : BitVec 3) (dty : BitVec 2) : State → State :=
  runFloat 0x092 h fmWV rnd.toNat fun c v => valI2f sty.toNat (fmtOf dty.toNat) c v.a
def f2iOp (h : Hdr) (rnd dty : BitVec 3) (sty : BitVec 2) : State → State :=
  runFloat 0x093 h fmWV rnd.toNat fun c v => valF2i (fmtOf sty.toNat) dty.toNat c v.a

/-! ### The arms -/

/-- `FADD` (R126). -/
def execFadd (h : Hdr) (rnd : BitVec 3) (s : State) : Result := go (faddOp h rnd s)

/-- `FSUB` (R126). -/
def execFsub (h : Hdr) (rnd : BitVec 3) (s : State) : Result := go (fsubOp h rnd s)

/-- `FMUL` (R126). -/
def execFmul (h : Hdr) (rnd : BitVec 3) (s : State) : Result := go (fmulOp h rnd s)

/-- `FFMA` (R126). -/
def execFfma (h : Hdr) (rnd : BitVec 3) (s : State) : Result := go (ffmaOp h rnd s)

/-- `FMIN` (R127). -/
def execFmin (h : Hdr) (s : State) : Result := go (fminOp h s)

/-- `FMAX` (R127). -/
def execFmax (h : Hdr) (s : State) : Result := go (fmaxOp h s)

/-- `FCMP` (R128). -/
def execFcmp (h : Hdr) (cond : BitVec 3) (s : State) : Result := go (fcmpOp h cond s)

/-- `FCLASS` (R129). -/
def execFclass (h : Hdr) (fmt : BitVec 3) (s : State) : Result := go (fclassOp h fmt s)

/-- `FRND` (R130). -/
def execFrnd (h : Hdr) (rnd : BitVec 3) (s : State) : Result := go (frndOp h rnd s)

/-- `FRCP` (R131). -/
def execFrcp (h : Hdr) (rnd : BitVec 3) (s : State) : Result := go (frcpOp h rnd s)

/-- `FRSQ` (R131). -/
def execFrsq (h : Hdr) (rnd : BitVec 3) (s : State) : Result := go (frsqOp h rnd s)

/-- `FSQRT` (R131). -/
def execFsqrt (h : Hdr) (rnd : BitVec 3) (s : State) : Result := go (fsqrtOp h rnd s)

/-- `FEX2` (R131). -/
def execFex2 (h : Hdr) (rnd : BitVec 3) (s : State) : Result := go (fex2Op h rnd s)

/-- `FLG2` (R131). -/
def execFlg2 (h : Hdr) (rnd : BitVec 3) (s : State) : Result := go (flg2Op h rnd s)

/-- `FSIN` (R131). -/
def execFsin (h : Hdr) (rnd : BitVec 3) (s : State) : Result := go (fsinOp h rnd s)

/-- `FCOS` (R131). -/
def execFcos (h : Hdr) (rnd : BitVec 3) (s : State) : Result := go (fcosOp h rnd s)

/-- `FTANH` (R131). -/
def execFtanh (h : Hdr) (rnd : BitVec 3) (s : State) : Result := go (ftanhOp h rnd s)

/-- `F2F` (R133). -/
def execF2f (h : Hdr) (rnd : BitVec 3) (dty : BitVec 3) (sty : BitVec 3) (s : State) : Result := go (f2fOp h rnd dty sty s)

/-- `I2F` (R134). -/
def execI2f (h : Hdr) (rnd : BitVec 3) (sty : BitVec 3) (dty : BitVec 2) (s : State) : Result := go (i2fOp h rnd sty dty s)

/-- `F2I` (R135). -/
def execF2i (h : Hdr) (rnd : BitVec 3) (dty : BitVec 3) (sty : BitVec 2) (s : State) : Result := go (f2iOp h rnd dty sty s)

/-- `FADD_COMPACT` (R78, R79). -/
def execFaddCompact (d a b : Byte) (s : State) : Result :=
  go (faddOp (cHdr (cOp d) (cOp a) (cOp b)) 0 s)

/-- `FSUB_COMPACT` (R78, R79). -/
def execFsubCompact (d a b : Byte) (s : State) : Result :=
  go (fsubOp (cHdr (cOp d) (cOp a) (cOp b)) 0 s)

/-- `FMUL_COMPACT` (R78, R79). -/
def execFmulCompact (d a b : Byte) (s : State) : Result :=
  go (fmulOp (cHdr (cOp d) (cOp a) (cOp b)) 0 s)

/-- `FFMA_COMPACT` (R78, R79). -/
def execFfmaCompact (d a b : Byte) (s : State) : Result :=
  go (ffmaOp (cHdr (cOp d) (cOp a) (cOp b)) 0 s)

/-- `FMIN_COMPACT` (R78, R79). -/
def execFminCompact (d a b : Byte) (s : State) : Result :=
  go (fminOp (cHdr (cOp d) (cOp a) (cOp b)) s)

/-- `FMAX_COMPACT` (R78, R79). -/
def execFmaxCompact (d a b : Byte) (s : State) : Result :=
  go (fmaxOp (cHdr (cOp d) (cOp a) (cOp b)) s)

/-- `FRCP_COMPACT` (R78, R79). -/
def execFrcpCompact (d a _b : Byte) (s : State) : Result :=
  go (frcpOp (cHdr (cOp d) (cOp a) 240) 0 s)

/-- `FRSQ_COMPACT` (R78, R79). -/
def execFrsqCompact (d a _b : Byte) (s : State) : Result :=
  go (frsqOp (cHdr (cOp d) (cOp a) 240) 0 s)

/-- `FSQRT_COMPACT` (R78, R79). -/
def execFsqrtCompact (d a _b : Byte) (s : State) : Result :=
  go (fsqrtOp (cHdr (cOp d) (cOp a) 240) 0 s)

/-- `FEX2_COMPACT` (R78, R79). -/
def execFex2Compact (d a _b : Byte) (s : State) : Result :=
  go (fex2Op (cHdr (cOp d) (cOp a) 240) 0 s)

/-- `FLG2_COMPACT` (R78, R79). -/
def execFlg2Compact (d a _b : Byte) (s : State) : Result :=
  go (flg2Op (cHdr (cOp d) (cOp a) 240) 0 s)

/-- `FTANH_COMPACT` (R78, R79). -/
def execFtanhCompact (d a _b : Byte) (s : State) : Result :=
  go (ftanhOp (cHdr (cOp d) (cOp a) 240) 0 s)

/-- `I2F_COMPACT` (R78, R79). -/
def execI2fCompact (d a _b : Byte) (s : State) : Result :=
  go (i2fOp (cHdr (cOp d) (cOp a) 240) 0 0 0 s)

/-- `F2I_COMPACT` (R78, R79). -/
def execF2iCompact (d a _b : Byte) (s : State) : Result :=
  go (f2iOp (cHdr (cOp d) (cOp a) 240) 2 0 0 s)

/-- `F2F_COMPACT` (R78, R79). -/
def execF2fCompact (d a _b : Byte) (s : State) : Result :=
  go (f2fOp (cHdr (cOp d) (cOp a) 240) 1 2 0 s)

end Sys2Proof.Machine
end

