-- ==== Sys2Proof/Machine/Packed.lean ====
section
/-! DEFINITION. Packed, dot-product and scale instructions (05 R136–R141). -/

namespace Sys2Proof.Machine

/-- Element `i` of a packed register, `w` bits wide (R49). -/
def elemOf (w n i : Nat) : Nat := field n (w * i) w

/-- Words of `w` bits packed, first lowest (R49). -/
def packWords (w : Nat) : List Nat → Nat
  | [] => 0
  | x :: xs => x % 2 ^ w + 2 ^ w * packWords w xs

/-- HADD2, HMUL2, HFMA2 (R137): one element with its own dither position. -/
def runHalf (opc : Nat) (h : Hdr) (fm : Form) (rnd : Nat) (bf : Bool)
    (f : Fmt → RCtx → FVal → FVal → FVal → Nat × Events) (s : State) : State :=
  let F : Fmt := if bf then .bf16 else .f16
  runEvents opc h fm 0 (fun s0 k v =>
    let rs := (List.range 2).map fun i =>
      let c := (s0.thr k).rctx (laneOf k) rnd i
      let el (n : Nat) : FVal := readF F c.ftz (elemOf 16 n i)
      f F c (el v.a) (el v.b) (el v.d)
    (packWords 16 (rs.map (·.1)), rs.map (·.2))) s

def hadd2Op (h : Hdr) (rnd : BitVec 3) (bf : Bool) : State → State :=
  runHalf 0x094 h fmWVV rnd.toNat bf fun F c a b _ => valAdd F c a b
def hmul2Op (h : Hdr) (rnd : BitVec 3) (bf : Bool) : State → State :=
  runHalf 0x095 h fmWVV rnd.toNat bf fun F c a b _ => valMul F c a b
def hfma2Op (h : Hdr) (rnd : BitVec 3) (bf : Bool) : State → State :=
  runHalf 0x096 h fmWdVV rnd.toNat bf fun F c a b d => valFma F c a b d

/-- The exact sum of d and the products of `n` element pairs of a floating format (R57, R138). -/
def valDot (F : Fmt) (n : Nat) (c : RCtx) (v : Vals) : Nat × Events :=
  let as := (List.range n).map fun i => decodeF F (elemOf F.width v.a i)
  let bs := (List.range n).map fun i => decodeF F (elemOf F.width v.b i)
  let d := c.f32 v.d
  c.result .f32 (d :: as ++ bs) (sumF c.down (d :: List.zipWith mulF as bs))

/-- The integer form (R58, R138): d is s32 for every type. -/
def valDotInt (w n : Nat) (uns sat : Bool) (v : Vals) : Nat :=
  let prods := (List.range n).map fun i => intOf uns w (elemOf w v.a i) * intOf uns w (elemOf w v.b i)
  intResult false sat 32 (prods.foldl (· + ·) (sgn 32 v.d))

def dp2Op (h : Hdr) (rnd : BitVec 3) (hf : Bool) : State → State :=
  runFloat 0x097 h fmWdVV rnd.toNat fun c v => valDot (if hf then .f16 else .bf16) 2 c v

/-- DP4 (R138): TY 0 s8, 1 u8, 2 e4m3, 3 e5m2. -/
def dp4Op (h : Hdr) (ty : BitVec 3) (sat : Bool) (rnd : BitVec 3) : State → State :=
  if ty.toNat < 2 then runValue 0x098 h fmWdVV fun _ _ v => valDotInt 8 4 (ty == 1) sat v
  else runFloat 0x098 h fmWdVV rnd.toNat fun c v => valDot (if ty == 2 then .e4m3 else .e5m2) 4 c v

/-- DP8 (R138): TY 0 s4, 1 u4, 2 e2m1. -/
def dp8Op (h : Hdr) (ty : BitVec 3) (sat : Bool) (rnd : BitVec 3) : State → State :=
  if ty.toNat < 2 then runValue 0x099 h fmWdVV fun _ _ v => valDotInt 4 8 (ty == 1) sat v
  else runFloat 0x099 h fmWdVV rnd.toNat fun c v => valDot .e2m1 8 c v

/-- SCLF (R139). An infinite a meets the scales from left to right: its product with a first scale of 0 is invalid, whatever
the second, and a first scale that is NaN makes it NaN. (DESIGN CHOICE, log entry 90) -/
def valSclf (one : Bool) (c : RCtx) (v : Vals) : Nat × Events :=
  let a := c.f32 v.a
  let d := c.f32 v.d
  let sa := scaleOf (field v.b 0 16)
  let sb : FVal := if one then .fin false 1 0 false else scaleOf (field v.b 16 16)
  c.result .f32 [a, sa, sb, d] (sumF c.down [mulF (mulF a sa) sb, d])

def sclfOp (h : Hdr) (rnd : BitVec 3) (one : Bool) : State → State :=
  runFloat 0x09A h fmWdVV rnd.toNat fun c v => valSclf one c v

/-- The width of an element by the format codes of R123: 6 is s8 and 7 is s4. -/
def fmtWidth (fmt : Nat) : Nat :=
  match fmt with
  | 6 => 8
  | 7 => 4
  | n => (fmtOf n).width

/-- One element of PACK (R140). -/
def packElem (fmt : Nat) (c : RCtx) (a : Nat) : Nat × Events :=
  if fmt = 6 then (wrapTo 8 (clampTo (-128, 127) (sgn 32 a)), 0)
  else if fmt = 7 then (wrapTo 4 (clampTo (-8, 7) (sgn 32 a)), 0)
  else
    let x := c.f32 a
    c.result (fmtOf fmt) [x] x

/-- PACK (R140): elements 2·POS and 2·POS + 1 of D. -/
def packOp (h : Hdr) (fmt : BitVec 3) (pos : BitVec 2) (rnd : BitVec 3) : State → State :=
  runEvents 0x09B h fmWdVV (2 * pos.toNat) fun s k v =>
    let w := fmtWidth fmt.toNat
    let e := 2 * pos.toNat
    let (x, ex) := packElem fmt.toNat ((s.thr k).rctx (laneOf k) rnd.toNat e) v.a
    let (y, ey) := packElem fmt.toNat ((s.thr k).rctx (laneOf k) rnd.toNat (e + 1)) v.b
    (setField (setField v.d (w * e) w x) (w * (e + 1)) w y, [ex, ey])

/-- UNPK (R141). -/
def valUnpk (fmt : Nat) (ftz : Bool) (a b : Nat) : Nat :=
  let w := fmtWidth fmt
  let x := elemOf w a (b % (32 / w))
  if fmt ≥ 6 then wrapTo 32 (sgn w x)
  else match readF (fmtOf fmt) ftz x with
    | .nan | .indet => Fmt.f32.nanBits
    | .inf n => Fmt.f32.signed n Fmt.f32.infBits
    | .fin n m e _ => (roundFin .f32 .rn 0 n m e false).1

def unpkOp (h : Hdr) (fmt : BitVec 3) : State → State :=
  runValue 0x09C h fmWVV fun s k v => valUnpk fmt.toNat (s.thr k).ftz v.a v.b

/-! ### The arms -/

/-- `HADD2` (R137). -/
def execHadd2 (h : Hdr) (rnd : BitVec 3) (bf : Bool) (s : State) : Result := go (hadd2Op h rnd bf s)

/-- `HMUL2` (R137). -/
def execHmul2 (h : Hdr) (rnd : BitVec 3) (bf : Bool) (s : State) : Result := go (hmul2Op h rnd bf s)

/-- `HFMA2` (R137). -/
def execHfma2 (h : Hdr) (rnd : BitVec 3) (bf : Bool) (s : State) : Result := go (hfma2Op h rnd bf s)

/-- `DP2` (R138). -/
def execDp2 (h : Hdr) (rnd : BitVec 3) (hf : Bool) (s : State) : Result := go (dp2Op h rnd hf s)

/-- `DP4` (R138). -/
def execDp4 (h : Hdr) (ty : BitVec 3) (sat : Bool) (rnd : BitVec 3) (s : State) : Result := go (dp4Op h ty sat rnd s)

/-- `DP8` (R138). -/
def execDp8 (h : Hdr) (ty : BitVec 3) (sat : Bool) (rnd : BitVec 3) (s : State) : Result := go (dp8Op h ty sat rnd s)

/-- `SCLF` (R139). -/
def execSclf (h : Hdr) (rnd : BitVec 3) (one : Bool) (s : State) : Result := go (sclfOp h rnd one s)

/-- `PACK` (R140). -/
def execPack (h : Hdr) (fmt : BitVec 3) (pos : BitVec 2) (rnd : BitVec 3) (s : State) : Result := go (packOp h fmt pos rnd s)

/-- `UNPK` (R141). -/
def execUnpk (h : Hdr) (fmt : BitVec 3) (s : State) : Result := go (unpkOp h fmt s)

/-- `HADD2_COMPACT` (R78, R79). -/
def execHadd2Compact (d a b : Byte) (s : State) : Result :=
  go (hadd2Op (cHdr (cOp d) (cOp a) (cOp b)) 0 false s)

/-- `HMUL2_COMPACT` (R78, R79). -/
def execHmul2Compact (d a b : Byte) (s : State) : Result :=
  go (hmul2Op (cHdr (cOp d) (cOp a) (cOp b)) 0 false s)

/-- `HFMA2_COMPACT` (R78, R79). -/
def execHfma2Compact (d a b : Byte) (s : State) : Result :=
  go (hfma2Op (cHdr (cOp d) (cOp a) (cOp b)) 0 false s)

/-- `DP2_COMPACT` (R78, R79). -/
def execDp2Compact (d a b : Byte) (s : State) : Result :=
  go (dp2Op (cHdr (cOp d) (cOp a) (cOp b)) 0 false s)

/-- `DP4_S8_COMPACT` (R78, R79). -/
def execDp4S8Compact (d a b : Byte) (s : State) : Result :=
  go (dp4Op (cHdr (cOp d) (cOp a) (cOp b)) 0 false 0 s)

/-- `DP4_E4M3_COMPACT` (R78, R79). -/
def execDp4E4m3Compact (d a b : Byte) (s : State) : Result :=
  go (dp4Op (cHdr (cOp d) (cOp a) (cOp b)) 2 false 0 s)

/-- `DP8_S4_COMPACT` (R78, R79). -/
def execDp8S4Compact (d a b : Byte) (s : State) : Result :=
  go (dp8Op (cHdr (cOp d) (cOp a) (cOp b)) 0 false 0 s)

/-- `DP8_E2M1_COMPACT` (R78, R79). -/
def execDp8E2m1Compact (d a b : Byte) (s : State) : Result :=
  go (dp8Op (cHdr (cOp d) (cOp a) (cOp b)) 2 false 0 s)

end Sys2Proof.Machine
end

