-- ==== Sys2Proof/Machine/Matrix.lean ====
section
/-! DEFINITION. Matrix operations (07 R192–R204). A matrix operation is accepted, reads its operand words and writes its
rows at any time from its start (09 R244), and completes. The parts of an operation are numbered: C(i, j) is the word
32·i + j, A word w of row i is 1,024 + 16·i + w, and the words of the B panel, of the panel at sN+1 and of the panel at
sN+2 follow from 2,048, 4,096 and 8,192; the write of row i is 16,384 + i. -/

namespace Sys2Proof.Machine

/-! ### Shapes (R193, R197, R198) -/

/-- The element type of a matrix operation. -/
inductive MxType where
  | float (F : Fmt)
  | int (w : Nat) (uns : Bool)
deriving DecidableEq, Repr

def MxType.bits : MxType → Nat
  | .float F => F.width
  | .int w _ => w

/-- The floating types by TY (R194). -/
def mxFloat (ty : Nat) : MxType :=
  .float (match ty with | 0 => .bf16 | 1 => .f16 | 2 => .e4m3 | 3 => .e5m2 | _ => .e2m1)

def MxKind.type : MxKind → MxType
  | .mma ty _ => mxFloat ty
  | .mmai ty _ => .int (if ty < 2 then 8 else 4) (ty % 2 == 1)
  | .mmab ty _ => .float (if ty = 0 then .e4m3 else .e2m1)
  | .mmas ty _ _ => if ty < 5 then mxFloat ty else .int (if ty = 5 then 8 else 4) false
  | .mzero => .int 8 false

/-- K of R193. -/
def MxKind.k (m : MxKind) : Nat := 512 / m.type.bits

def MxKind.sparse : MxKind → Bool
  | .mmas .. => true
  | _ => false

def MxKind.scaled : MxKind → Bool
  | .mmab .. => true
  | _ => false

/-- Bytes of a B column. -/
def MxKind.colBytes (m : MxKind) : Nat := if m.sparse then 128 else 64

/-- The panels that an operation reads: offset, bytes, alignment. -/
def mxPanels (m : MxKind) (aPanel : Bool) (aOff bOff metaOff scaleOff : Nat) : List (Nat × Nat × Nat) :=
  (if aPanel then [(aOff, 2048, 64)] else [])
    ++ (match m with | .mzero => [] | _ => [(bOff, 32 * m.colBytes, 64)])
    ++ (if m.scaled then [(metaOff, 256, 8), (scaleOff, 256, 8)] else [])
    ++ (if m.sparse then [(metaOff, 1024, 32)] else [])

/-! ### Operand words (R200) -/

/-- A word of an operation as it stands now. -/
def State.mxWord (s : State) (o : MxOp) (n : Nat) : Word :=
  let spad (off : Nat) : Word := BitVec.ofNat 32 (leNat (Memory.read (s.blk o.block).spad off 4))
  if n < 1024 then (s.thr (threadKey o.group (n / 32))).regs.getD (o.d + n % 32) 0
  else if n < 2048 then
    (match o.aReg with
     | some a => (s.thr (threadKey o.group ((n - 1024) / 16))).regs.getD (a + n % 16) 0
     | none => spad (o.aOff + 4 * (n - 1024)))
  else if n < 4096 then spad (o.bOff + 4 * (n - 2048))
  else if n < 8192 then spad (o.metaOff + 4 * (n - 4096))
  else spad (o.scaleOff + 4 * (n - 8192))

/-- A word of an operation: the one read already, or the one that stands now. -/
def State.mxRead (s : State) (o : MxOp) (n : Nat) : Nat := ((o.latched.find n).getD (s.mxWord o n)).toNat

/-- The words of an operation. -/
def mxWordExists (o : MxOp) (n : Nat) : Bool :=
  match o.kind with
  | .mzero => false
  | m =>
    (decide (n < 2048) && o.lanes.any fun k => laneOf k == (if n < 1024 then n / 32 else (n - 1024) / 16))
      || (2048 ≤ n && n < 2048 + 8 * m.colBytes)
      || (m.scaled && ((4096 ≤ n && n < 4160) || (8192 ≤ n && n < 8256)))
      || (m.sparse && 4096 ≤ n && n < 4352)

/-- The scratchpad word that a word of an operation is read from. -/
def MxOp.spadAt (o : MxOp) (n : Nat) : Option Nat :=
  if n < 1024 then none
  else if n < 2048 then (match o.aReg with | some _ => none | none => some (o.aOff + 4 * (n - 1024)))
  else if n < 4096 then some (o.bOff + 4 * (n - 2048))
  else if n < 8192 then some (o.metaOff + 4 * (n - 4096))
  else some (o.scaleOff + 4 * (n - 8192))

/-- An operation starts when every earlier one of its group and stream has completed (R201). -/
def State.mxStarted (s : State) (e : Nat) (o : MxOp) : Bool :=
  !s.mxOps.any fun p => p.1 < e && p.2.group == o.group && p.2.stream == o.stream

/-- An operand read (R200, R244): the word is taken as it stands now; a panel in a window waits for its lines (R167). -/
def State.mxLatch (s : State) (e part : Nat) (o : MxOp) : State :=
  if mxWordExists o part && (o.latched.find part).isNone then
    match o.spadAt part with
    | some off =>
      if s.linesFilled o.block off 4 then
        { s with mxOps := s.mxOps.change e fun o' => { o' with latched := o'.latched.put part (s.mxWord o part) } }
      else s.touchSpad o.block off 4
    | none => { s with mxOps := s.mxOps.change e fun o' => { o' with latched := o'.latched.put part (s.mxWord o part) } }
  else s

/-- The scratchpad ranges that an operation reads. -/
def MxOp.ranges (o : MxOp) : List (Nat × Nat) :=
  match o.kind with
  | .mzero => []
  | m => (if o.aReg.isNone then [(o.aOff, 2048)] else []) ++ [(o.bOff, 32 * m.colBytes)]
      ++ (if m.scaled then [(o.metaOff, 256), (o.scaleOff, 256)] else []) ++ (if m.sparse then [(o.metaOff, 1024)] else [])

/-- Its panels hold their bytes. -/
def State.mxFilled (s : State) (o : MxOp) : Bool := o.ranges.all fun x => s.linesFilled o.block x.1 x.2

/-- The window lines of its panels touched. -/
def State.mxTouch (s : State) (o : MxOp) : State := o.ranges.foldl (fun (acc : State) x => acc.touchSpad o.block x.1 x.2) s

/-- The elements of consecutive words. -/
def State.mxElems (s : State) (o : MxOp) (first words : Nat) : List Nat :=
  let b := o.kind.type.bits
  (List.range words).flatMap fun w =>
    let x := s.mxRead o (first + w)
    (List.range (32 / b)).map fun i => field x (b * i) b

/-- Row i of A. -/
def State.mxRow (s : State) (o : MxOp) (i : Nat) : List Nat := s.mxElems o (1024 + 16 * i) 16

/-- Column j of B. -/
def State.mxCol (s : State) (o : MxOp) (j : Nat) : List Nat :=
  s.mxElems o (2048 + o.kind.colBytes / 4 * j) (o.kind.colBytes / 4)

/-- The scale of block q of row or column i, in the panel whose words start at `first` (R198). -/
def State.mxScale (s : State) (o : MxOp) (first i q : Nat) : FVal :=
  scaleOf (field (s.mxRead o (first + 2 * i + q / 2)) (16 * (q % 2)) 16)

/-- The place along 2K of kept value n of row i (R197). -/
def State.mxPlace (s : State) (o : MxOp) (i n : Nat) : Nat :=
  let g := n / 2
  let nib := field (s.mxRead o (4096 + 8 * i + g / 8)) (4 * (g % 8)) 4
  4 * g + (if n % 2 = 0 then nib % 4 else nib / 4)

/-- The pairs of elements whose products make element (i, j). -/
def State.mxPairs (s : State) (o : MxOp) (row col : List Nat) (i : Nat) : List (Nat × Nat) :=
  if o.kind.sparse then (List.range row.length).map fun n => (row.getD n 0, col.getD (s.mxPlace o i n) 0) else row.zip col

/-! ### Results (R196) -/

/-- Element (i, j) of a floating operation: bits and events. -/
def State.mxFloatElem (s : State) (o : MxOp) (F : Fmt) (rnd : Nat) (fpc : Word) (row col : List Nat) (i j : Nat) : Nat × Events :=
  let c : RCtx := ⟨modeOfRnd rnd fpc, j % 32, field fpc.toNat 8 5, fpc.getLsbD 7⟩
  let d := c.f32 (s.mxRead o (32 * i + j))
  let ps := (s.mxPairs o row col i).map fun p => (decodeF F p.1, decodeF F p.2)
  let scales := if o.kind.scaled then
      (List.range (o.kind.k / 32)).map fun q => (s.mxScale o 4096 i q, s.mxScale o 8192 j q)
    else []
  let terms := (List.range ps.length).map fun k =>
    let p := ps.getD k (.zero, .zero)
    let t := mulF p.1 p.2
    match scales[k / 32]? with
    | some q => mulF (mulF q.1 q.2) t
    | none => t
  let ops := d :: ps.flatMap (fun p => [p.1, p.2]) ++ scales.flatMap fun q => [q.1, q.2]
  c.result .f32 ops (sumF c.down (d :: terms))

/-- Element (i, j) of an integer operation (R58). -/
def State.mxIntElem (s : State) (o : MxOp) (w : Nat) (uns sat : Bool) (row col : List Nat) (i j : Nat) : Nat :=
  let prods := (s.mxPairs o row col i).map fun p => intOf uns w p.1 * intOf uns w p.2
  intResult false sat 32 (prods.foldl (· + ·) (sgn 32 (s.mxRead o (32 * i + j))))

/-- Row i of an operation: the 32 elements with their events. -/
def State.mxResult (s : State) (o : MxOp) (i : Nat) : List (Nat × Events) :=
  match o.kind with
  | .mzero => List.replicate 32 (0, 0)
  | m =>
    let row := s.mxRow o i
    let fpc := (o.fpcs.find i).getD 0
    (List.range 32).map fun j =>
      let col := s.mxCol o j
      match m, m.type with
      | .mma _ rnd, .float F => s.mxFloatElem o F rnd fpc row col i j
      | .mmab _ rnd, .float F => s.mxFloatElem o F rnd fpc row col i j
      | .mmas _ rnd _, .float F => s.mxFloatElem o F rnd fpc row col i j
      | .mmai _ sat, .int w u => (s.mxIntElem o w u sat row col i j, 0)
      | .mmas _ _ sat, .int w u => (s.mxIntElem o w u sat row col i j, 0)
      | _, _ => (0, 0)

/-- An element of a row is undefined where the thread wrote its register meanwhile or an operation of another stream
names it, and the whole row is where the thread wrote a register of A (R200, R201). -/
def Thread.rowUndef (op d : Nat) (undef : List Nat) (t : Thread) (j : Nat) : Bool :=
  undef.contains j || t.hazards.any fun z => z.op == op && (z.written.contains (d + j) || (z.count == 16 && !z.written.isEmpty))

/-- A row written to the registers of its lane. -/
def Thread.takeRow (fresh op d : Nat) (undef : List Nat) (row : List (Nat × Events)) (t : Thread) : Thread :=
  let val (j : Nat) : Word :=
    if t.rowUndef op d undef j then Config.freeWord fresh (op * 1024 + j) else BitVec.ofNat 32 (row.getD j (0, 0)).1
  { t with regs := (List.range 32).foldl (fun rs j => rs.set (d + j) (val j)) t.regs }.heal d 32

/-- The lane of an operation still holds the thread that issued it (R195). -/
def State.mxLive (s : State) (o : MxOp) (k : Nat) : Bool :=
  ((s.threads.find k).map (·.state != .ended)).getD false && (s.grp o.group).block == o.block

/-- One row of an operation (R196, R199). An undefined element raises no event (R8). (DESIGN CHOICE, log entry 15) -/
def State.mxFinishRow (s0 : State) (e : Nat) (o : MxOp) (s : State) (k : Nat) : State :=
  let i := laneOf k
  let t := s0.thr k
  if (t.poison.find o.stream).isSome || o.rows.contains k || !s0.mxLive o k then s
  else
    let undef := (o.undef.filter fun u => u.1 == i).map (·.2)
    let row := (s0.mxResult o i).mapIdx fun j x => if t.rowUndef e o.d undef j then (x.1, 0) else x
    let fpc := (o.fpcs.find i).getD 0
    s.modThr k fun t =>
      let t1 := t.orFps (allEvents (row.map (·.2)))
      match nonfinite fpc (row.map (·.2)) 0 with
      | some info => { t1 with poison := t1.poison.put o.stream (info % 256, info) }
      | none => t1.takeRow s0.fresh e o.d undef row

/-- The operation's core does not stand frozen (R333). -/
def State.mxRuns (s : State) (o : MxOp) : Bool := (s.coreAt (o.group / 64)).frozen.isNone

/-- A part of an operation (R244): a read of A, of a panel, of scales or of metadata at any time from its acceptance; a read of
C or the write of a row from its start (R196, R201). -/
def State.mxPart (s : State) (e part : Nat) (o : MxOp) : State :=
  if !s.mxRuns o then s
  else if 1024 ≤ part && part < 16384 then s.mxLatch e part o
  else if !s.mxStarted e o then s
  else if part < 1024 then s.mxLatch e part o
  else
    let k := threadKey o.group (part - 16384)
    if !o.lanes.contains k || o.rows.contains k then s
    else if !s.mxFilled o then s.mxTouch o
    else
      let s1 := s.mxFinishRow e o s k
      { s1 with mxOps := s1.mxOps.change e fun o => { o with rows := k :: o.rows } }

/-! ### MWAIT (R199, R203) -/

/-- An operation of the group in a stream of the mask, issued before a bound, has not completed. -/
def State.mxPending (s : State) (g mask bound : Nat) : Bool :=
  s.mxOps.any fun o => o.1 < bound && o.2.group == g && bit mask o.2.stream

/-- MWAIT without a mask waits on all four streams (R194). -/
def waitMask (m : Nat) : Nat := if m = 0 then 15 else m

/-- The lowest stream of a mask in which a thread is poisoned: the one that an MWAIT delivers, the others stay.
(DESIGN CHOICE, log entry 94) -/
def Thread.poisoned (t : Thread) (mask : Nat) : Option (Nat × Nat) :=
  (t.poison.find? fun p => bit mask p.1).map fun p => (p.1, p.2.2)

/-- The results are readable: the ranges of the operations covered are ordinary registers again, and those that the
thread wrote are undefined (R200). -/
def Thread.cover (fresh k mask bound : Nat) (t : Thread) : Thread :=
  let (done, rest) := t.hazards.partition fun z => bit mask z.stream && z.op < bound
  { t with
    hazards := rest
    regs := (done.flatMap (·.written)).foldl (fun rs i => rs.set i (Config.freeWord fresh (k * 256 + i))) t.regs }

/-- A waiting MWAIT whose operations have completed ends: poison is delivered, or the thread goes on (R203). -/
def State.endMwait (s : State) (k mask len bound : Nat) : State :=
  match (s.thr k).poisoned mask with
  | some (st, info) =>
    (s.modThr k fun t => { t.cover s.fresh k mask bound with poison := t.poison.del st }).trap k 7 info (lenCode len) false
  | none => s.modThr k fun t => ({ t.cover s.fresh k mask bound with pc := addr48 (t.pc + len) }).ready s.time

/-- The waiters of a group tested, but for Stopped ones (R400). (DEDUCED, log entry 30) -/
def State.testMwait (s : State) (g : Nat) : State :=
  s.threads.foldl (fun (acc : State) kt =>
    match kt.2.state with
    | .waiting (.mwait mask len bound) =>
      if groupOf kt.1 = g && !kt.2.isStopped && !acc.mxPending g mask bound then acc.endMwait kt.1 mask len bound else acc
    | _ => acc) s

/-- MXU_OP_COMPLETE (R196, R201): operations of one group in one stream complete in issue order; the rows not yet written
are written. -/
def mxuOpCompleteOp (e : Nat) (s : State) : State :=
  match s.mxOps.find e with
  | none => s
  | some o =>
    if !s.mxRuns o || !s.mxStarted e o then s
    else if !s.mxFilled o then s.mxTouch o
    else
      let s1 := o.lanes.foldl (s.mxFinishRow e o) s
      let cycles := match o.kind with | .mzero => 1 | _ => 4
      (({ s1 with mxOps := s1.mxOps.del e } : State).count (o.group / 64) o.oslot 9 cycles).testMwait o.group

/-! ### Acceptance (R195) -/

/-- What acceptance needs of a matrix instruction. -/
structure MxReq where
  kind : MxKind
  pm : Bool
  stream : Nat
  d : Nat
  aReg : Option Nat
  aOff : Nat
  bOff : Nat
  metaOff : Nat
  scaleOff : Nat
deriving DecidableEq, Repr

/-- Operations that a quadrant's MXU holds. -/
def State.mxHeld (s : State) (q : Nat) : Nat := (s.mxOps.filter fun o => o.2.group / 16 == q).length

/-- Columns of a range that another stream's operation of the lane names too (R201). -/
def clash (d : Nat) (z : Nat) : List Nat := (List.range 32).filter fun j => z ≤ d + j && d + j < z + 32

/-- The operation accepted. -/
def State.accept (s : State) (q : MxReq) (ks : List Nat) : State :=
  let l0 := ks.headD 0
  let g := groupOf l0
  let e := s.nextOp
  let others := s.mxOps.filter fun o => o.2.group == g && o.2.stream != q.stream
  let mine := ks.flatMap fun k =>
    ((s.thr k).hazards.filter fun z => z.stream != q.stream && z.count == 32).flatMap fun z => (clash q.d z.base).map fun j => (laneOf k, j)
  let o : MxOp :=
    { group := g, block := (s.grp g).block, oslot := (s.grp g).oslot, stream := q.stream, kind := q.kind, lanes := ks
      d := q.d, aReg := q.aReg, aOff := q.aOff, bOff := q.bOff, metaOff := q.metaOff, scaleOff := q.scaleOff
      fpcs := ks.map fun k => (laneOf k, (s.thr k).fpc)
      latched := [], undef := mine, rows := [], acceptedAt := s.time }
  let s1 : State := others.foldl (fun (acc : State) p =>
    { acc with mxOps := acc.mxOps.change p.1 fun x =>
      { x with undef := x.undef ++ (x.lanes.filter ks.contains).flatMap fun k => (clash x.d q.d).map fun j => (laneOf k, j) } }) s
  let s2 := { s1 with mxOps := s1.mxOps.put e o, nextOp := e + 1 }
  ks.foldl (fun (acc : State) k => acc.modThr k fun t =>
    { t with hazards := t.hazards ++ ⟨q.stream, e, q.d, 32, []⟩ :: (match q.aReg with | some a => [⟨q.stream, e, a, 16, []⟩] | none => []) }) s2

/-- The checks of R195 in order, then INTEGRITY of a panel that an uncorrectable error has struck (R276), then the queue, then
acceptance. Of several offsets that fail a check, xinfo holds the first in the order A, B, sN+1, sN+2.
(DESIGN CHOICE, log entry 108) -/
def mxIssue (q : MxReq) (s0 run : State) (ks : List Nat) (l0 : Nat) : Lane :=
  let g := groupOf l0
  let missing := (s0.grp g).live &&& ~~~ laneMask ks
  let panels := mxPanels q.kind (q.kind != .mzero && q.aReg.isNone) q.aOff q.bOff q.metaOff q.scaleOff
  if (match q.aReg with | some a => overlaps q.d 32 a 16 | none => false) then .trap run 2 (s0.free l0 % 2 ^ 12)
  else if !q.pm && missing != 0 then .trap run 12 missing.toNat
  else match panels.find? fun p => p.1 % p.2.2 != 0 with
    | some p => .trap run 5 p.1
    | none =>
      match panels.find? fun p => p.1 + p.2.1 > (s0.blkOf l0).scratch with
      | some p => .trap run 14 (protInfo 3 p.1)
      | none =>
        match panels.find? fun p => (s0.blkOf l0).spadBad p.1 p.2.1 with
        | some p => .trap run 16 p.1
        | none => if s0.mxHeld (g / 16) ≥ 12 then .stall .mxu else .ok (run.accept q ks)

/-- The form of a matrix instruction with A in registers or in scratchpad. -/
def mxForm (asp : Bool) (b : Cls) : Form := ⟨.t32, if asp then .v else .t16, b, true, false, [], false⟩

/-- MMA, MMAI, MMAB, MMAS. (DESIGN CHOICE, log entry 16) -/
def mxOp (opc : Nat) (h : Hdr) (kind : MxKind) (asp pm : Bool) (str : BitVec 2) (b : Cls) : State → State :=
  runOnce opc h (mxForm asp b) anyone fun s0 run ks l0 v =>
    mxIssue ⟨kind, pm, str.toNat, h.d.toNat, if asp then none else some h.a.toNat, v.a % 2 ^ 32, field v.b 0 32,
      field v.b 32 32, field v.b 64 32⟩ s0 run ks l0

def mmaOp (h : Hdr) (ty : BitVec 3) (asp pm : Bool) (str : BitVec 2) (rnd : BitVec 3) : State → State :=
  mxOp 0x240 h (.mma ty.toNat rnd.toNat) asp pm str .v
def mmaiOp (h : Hdr) (ty : BitVec 3) (asp pm : Bool) (str : BitVec 2) (sat : Bool) : State → State :=
  mxOp 0x241 h (.mmai ty.toNat sat) asp pm str .v
def mmabOp (h : Hdr) (ty : BitVec 3) (asp pm : Bool) (str : BitVec 2) (rnd : BitVec 3) : State → State :=
  mxOp 0x242 h (.mmab ty.toNat rnd.toNat) asp pm str .s3
def mmasOp (h : Hdr) (ty : BitVec 3) (asp pm : Bool) (str : BitVec 2) (rnd : BitVec 3) (sat : Bool) : State → State :=
  mxOp 0x243 h (.mmas ty.toNat rnd.toNat sat) asp pm str .s2

/-- MZERO (R202): check 2 and the queue. -/
def mzeroOp (h : Hdr) (pm : Bool) (str : BitVec 2) : State → State :=
  runOnce 0x245 h ⟨.t32, .none, .none, false, false, [], false⟩ anyone fun s0 run ks l0 _ =>
    mxIssue ⟨.mzero, pm, str.toNat, h.d.toNat, none, 0, 0, 0, 0⟩ s0 run ks l0

/-- MOPR (R203): an ordering point (R240). (DEDUCED, log entry 17) -/
def moprOp (h : Hdr) : State → State :=
  runLanes 0x246 h ⟨.none, .none, .none, false, false, [], false⟩ anyone fun s0 part k _ run =>
    if part.any fun p => s0.awaiting p.1 || !s0.spadPerformed p.1 then .stall .mxu else .ok (run.orderPoint k)

/-- MWAIT (R203). -/
def mwaitOp (h : Hdr) (smask : BitVec 4) : State → State :=
  runLanes 0x247 h ⟨.none, .none, .none, false, false, [], false⟩ anyone fun s0 _ k _ run =>
    let mask := waitMask smask.toNat
    if s0.mxPending (groupOf k) mask s0.nextOp then
      .left (run.modThr k fun t => { t with state := .waiting (.mwait mask h.bytes s0.nextOp), chain := false, latch := [] })
    else match (s0.thr k).poisoned mask with
      | some (st, info) =>
        .trap (run.modThr k fun t => { t.cover s0.fresh k mask s0.nextOp with poison := t.poison.del st }) 7 info
      | none => .ok (run.modThr k (Thread.cover s0.fresh k mask s0.nextOp))

/-! ### TMV (R204) -/

/-- One element of TMV: the row of weights with the vector, and y. -/
def tmvElem (c : RCtx) (bf : Bool) (ws : List Nat) (us : List Nat) (y : Nat) : Nat × Events :=
  let wv := ws.map fun w => if bf then decodeF .bf16 w else c.f32 w
  let uv := us.map c.f32
  let d := c.f32 y
  c.result .f32 (d :: wv ++ uv) (sumF c.down (d :: List.zipWith mulF wv uv))

def tmvOp (h : Hdr) (m1 n1 : BitVec 3) (bf : Bool) : State → State :=
  let m := m1.toNat + 1
  let n := n1.toNat + 1
  let fm : Form := ⟨.run m, .run n, .v, true, true, [], false⟩
  runLanes 0x244 h fm anyone fun s0 _ k v run =>
    let o := v.b % 2 ^ 32
    let es := if bf then 2 else 4
    if o % 4 != 0 then .trap run 5 o
    else if o + m * n * es > 0x40000 then .trap run 14 (protInfo 3 o)
    else
      let us := (List.range n).map fun i => field v.a (32 * i) 32
      let rs := (List.range m).map fun q =>
        let ws := (List.range n).map fun i => leNat (s0.constBytes k (o + (q * n + i) * es) es)
        tmvElem ((s0.thr k).rctx (laneOf k) 0 q) bf ws us (field v.d (32 * q) 32)
      let s1 := run.modThr k fun t => t.orFps (allEvents (rs.map (·.2)))
      match nonfinite (s0.thr k).fpc (rs.map (·.2)) 0 with
      | some i => .trap s1 7 i
      | none => .ok (s1.writeD k h fm v.dst (packWords 32 (rs.map (·.1))))

/-- `MXU_OP_COMPLETE` (R196). (DEDUCED, log entry 14) -/
def execMxuOpComplete (e : Nat) (s : State) : Result := go (mxuOpCompleteOp e s)

/-! ### The arms -/

/-- `MMA` (R196). -/
def execMma (h : Hdr) (ty : BitVec 3) (asp : Bool) (pm : Bool) (str : BitVec 2) (rnd : BitVec 3) (s : State) : Result := go (mmaOp h ty asp pm str rnd s)

/-- `MMAI` (R196). -/
def execMmai (h : Hdr) (ty : BitVec 3) (asp : Bool) (pm : Bool) (str : BitVec 2) (sat : Bool) (s : State) : Result := go (mmaiOp h ty asp pm str sat s)

/-- `MMAB` (R196). -/
def execMmab (h : Hdr) (ty : BitVec 3) (asp : Bool) (pm : Bool) (str : BitVec 2) (rnd : BitVec 3) (s : State) : Result := go (mmabOp h ty asp pm str rnd s)

/-- `MMAS` (R196). -/
def execMmas (h : Hdr) (ty : BitVec 3) (asp : Bool) (pm : Bool) (str : BitVec 2) (rnd : BitVec 3) (sat : Bool) (s : State) : Result := go (mmasOp h ty asp pm str rnd sat s)

/-- `TMV` (R204). -/
def execTmv (h : Hdr) (m1 : BitVec 3) (n1 : BitVec 3) (bf : Bool) (s : State) : Result := go (tmvOp h m1 n1 bf s)

/-- `MZERO` (R202). -/
def execMzero (h : Hdr) (pm : Bool) (str : BitVec 2) (s : State) : Result := go (mzeroOp h pm str s)

/-- `MOPR` (R203). -/
def execMopr (h : Hdr) (s : State) : Result := go (moprOp h s)

/-- `MWAIT` (R203). -/
def execMwait (h : Hdr) (smask : BitVec 4) (s : State) : Result := go (mwaitOp h smask s)

end Sys2Proof.Machine
end

