-- ==== Sys2Proof/Machine/Engines.lean ====
section
/-! DEFINITION. The copy, gather and scatter engines (07 R205–R211; 09 R243): starting an operation, its parts, chunks
and windows, completion, and CPWAIT. -/

namespace Sys2Proof.Machine

/-! ### Shape records (R208) -/

/-- A tensor shape record, from its 64 bytes. -/
structure Shape where
  base : Nat
  ssh : Nat
  p0 : Nat
  split : Bool
  rank : Nat
  fmt : Nat
  ext : List Nat
  str : List Nat
  box : List Nat
  sbase : Nat
deriving DecidableEq, Repr

def Shape.ofBytes (bs : List Byte) : Shape :=
  let at' (o n : Nat) : Nat := leNat ((bs.drop o).take n)
  let w := at' 8 4
  { base := addr48 (at' 0 8)
    ssh := field w 16 4
    p0 := field w 8 5
    split := bit w 7
    rank := field w 4 3
    fmt := field w 0 4
    ext := (List.range 5).map fun d => at' (0x0C + 4 * d) 4
    str := 0 :: (List.range 4).map fun d => at' (0x20 + 4 * d) 4
    box := (List.range 5).map fun d => at' (0x30 + d) 1 + 1
    sbase := addr48 (at' 0x38 8) }

/-- A block-scaled format. -/
def Shape.nb (r : Shape) : Bool := r.fmt == 8 || r.fmt == 9

/-- Bits of an element in memory and in scratchpad; SF 0 keeps the record's format. -/
def Shape.memBits (r : Shape) : Nat := fmtBits r.fmt
def Shape.spadFmt (r : Shape) (sf : Nat) : Nat := if sf = 0 then r.fmt else sf - 1
def Shape.spadBits (r : Shape) (sf : Nat) : Nat := fmtBits (r.spadFmt sf)

/-- Elements of the box. -/
def Shape.count (r : Shape) : Nat := (r.box.take r.rank).foldl (· * ·) 1

/-- Scales of the box. -/
def Shape.scales (r : Shape) : Nat := if r.nb then r.count / 32 else 0

/-- nb of R210: bytes of the box in scratchpad. -/
def Shape.bytes (r : Shape) (sf : Nat) : Nat := r.count * r.spadBits sf / 8 + 2 * r.scales

/-- The record names a copy that R210 allows, for an origin o_0. -/
def Shape.ok (r : Shape) (sf : Nat) (o0 : Int) : Bool :=
  r.fmt ≤ 9 && 1 ≤ r.rank && r.rank ≤ 5 && (r.ext.take r.rank).all (1 ≤ ·)
    && (sf == 0 || (r.fmt ≤ 5 && 1 ≤ sf && sf ≤ 6))
    && (!(r.memBits == 4 || r.spadBits sf == 4) || (o0 % 2 == 0 && r.box.headD 1 % 2 == 0))
    && (!r.nb || (o0 % 32 == 0 && r.box.headD 1 % 32 == 0))

/-- The coordinates of flat element f. -/
def coords : List Nat → List Int → Nat → List Int
  | b :: bs, o :: os, f => (o + f % b) :: coords bs os (f / b)
  | _, _, _ => []

def Shape.coord (r : Shape) (origin : List Int) (f : Nat) : List Int := coords (r.box.take r.rank) origin f

/-- Within the tensor. -/
def Shape.inside (r : Shape) (c : List Int) : Bool := (c.zip r.ext).all fun p => decide (0 ≤ p.1 ∧ p.1 < p.2)

/-- The row offset: Σ c_k × STR_k × 2^SSH over k ≥ 1. -/
def Shape.row (r : Shape) (c : List Int) : Int :=
  ((c.zip r.str).drop 1).foldl (fun acc p => acc + p.1 * p.2 * 2 ^ r.ssh) 0

/-- Where an element inside the tensor lies: its byte address and the bit within it. -/
def Shape.elemPlace (r : Shape) (c : List Int) : Nat × Nat :=
  let c0 := (c.headD 0).toNat
  let b := r.memBits
  let off : Nat :=
    if r.nb && !r.split then c0 / 32 * (if b = 8 then 34 else 18) + c0 % 32 * b / 8 else c0 * b / 8
  (wrapTo 48 (r.base + off + r.row c), if b = 4 then 4 * (c0 % 2) else 0)

/-- Where the scale of the block of an element lies. -/
def Shape.scalePlace (r : Shape) (c : List Int) : Nat :=
  let c0 := (c.headD 0).toNat
  let bytes := 4 * r.memBits
  if r.split then wrapTo 48 (r.sbase + 2 * ((c0 / 32 * bytes + r.row c) / bytes))
  else wrapTo 48 (r.base + c0 / 32 * (bytes + 2) + bytes + r.row c)

/-- Conv of R210. -/
def convElem (src dst : Nat) (sr : Bool) (p0 f bits : Nat) : Nat :=
  match fmtFloat src, fmtFloat dst with
  | some S, some D =>
    (resultF D (if sr then .sr else .rn) (f % 32) ((p0 + f / 32) % 32) false false (decodeF S bits)).1
  | _, _ => bits

/-! ### Engine accesses (R206) -/

/-- An access that an operation could not make. -/
inductive EngBad where
  | error (cause why va : Nat)
  | fault (kind va ipa : Nat) (walk : Bool)
deriving DecidableEq, Repr

/-- Where an engine access goes: a physical address and whether the page is a synchronisation page. -/
def State.engPlace (s : State) (o : EngOp) (acc : Acc) (va n : Nat) : Except EngBad Xlat :=
  if inWindow va then .error (.error 14 4 va)
  else match s.translate o.core none o.part o.owner o.s1root va acc with
    | .error (.perm _) => .error (.error 14 2 va)
    | .error .aliased => .error (.error 15 0 va)
    | .error (.fault kind ipa w) => .error (.fault kind va ipa w)
    | .ok x => if acc == .load && s.isPoisoned x.pa n then .error (.error 16 0 va) else .ok x

/-- An access cut at a page boundary: addresses and lengths. -/
def pagePieces (va n : Nat) : List (Nat × Nat) :=
  let m := min n (65536 - va % 65536)
  if m < n then [(va, m), (addr48 (va + m), n - m)] else [(va, n)]

/-- Bytes read by an engine at the home, with no lease (R206). -/
def State.engRead (s : State) (o : EngOp) (va n : Nat) : Except EngBad (List Byte) := do
  let ps ← (pagePieces va n).mapM fun p => do
    let x ← s.engPlace o .load p.1 p.2
    pure ((List.range p.2).flatMap fun i => s.homeBytes (x.pa + i) 1)
  pure ps.flatten

/-- Bytes written by an engine at the home; the GWCT goes to the operation. -/
def State.engWrite (s : State) (o : EngOp) (va : Nat) (bs : List Byte) : Except EngBad (State × Nat) := do
  let ps ← (pagePieces va bs.length).mapM fun p => do
    let x ← s.engPlace o .store p.1 p.2
    pure (x, (bs.drop (if p.1 = va then 0 else bs.length - p.2)).take p.2)
  pure (ps.foldl (fun (acc : State × Nat) p =>
    let (s', g) :=
      if p.1.sync then acc.1.sluiceWrite none true p.1.pa p.2
      else if onHostPath s p.1.pa then (acc.1.storeBytes p.1.pa p.2, s.time)
      else acc.1.writeLines (some o.core) p.1.pa p.2
    (s', max acc.2 g)) (s, 0))

/-! ### Parts -/

/-- Parts of a copy: its elements are numbered from 0, its scales from 2^32; of a gather or scatter: its elements. -/
def EngOp.counts (o : EngOp) : Nat × Nat :=
  match o.kind with
  | .tcopy image .. => let r := Shape.ofBytes image; (r.count, r.scales)
  | .gather _ _ _ _ _ _ n => (n, 0)

def EngOp.hasPart (o : EngOp) (part : Nat) : Bool := part < o.counts.1 || (2 ^ 32 ≤ part && part < 2 ^ 32 + o.counts.2)

/-- The chunk or window of a part (R210, R211). -/
def EngOp.unitOf (o : EngOp) (part : Nat) : Nat :=
  match o.kind with
  | .tcopy image _ sf _ _ _ =>
    let r := Shape.ofBytes image
    if part < 2 ^ 32 then part * r.spadBits sf / 32768 else (r.count * r.spadBits sf / 8 + 2 * (part - 2 ^ 32)) / 4096
  | .gather .. => part / 32

/-- Chunks or windows of an operation. -/
def EngOp.units (o : EngOp) : Nat :=
  match o.kind with
  | .tcopy image _ sf _ _ _ => ((Shape.ofBytes image).bytes sf + 4095) / 4096
  | .gather _ _ _ _ _ _ n => (n + 31) / 32

/-- Parts of a chunk or window. -/
def EngOp.unitSize (o : EngOp) (u : Nat) : Nat :=
  match o.kind with
  | .tcopy image _ sf _ _ _ =>
    let r := Shape.ofBytes image
    let b := r.spadBits sf
    let e := r.count * b / 8
    (min r.count ((u + 1) * 32768 / b) - u * 32768 / b) + (min r.scales ((4096 * (u + 1) - e) / 2) - (4096 * u - e) / 2)
  | .gather _ _ _ _ _ _ n => min n (32 * u + 32) - 32 * u

/-- Bytes of a chunk or window, as they count into an arrival word. -/
def EngOp.unitBytes (o : EngOp) (u : Nat) : Nat :=
  match o.kind with
  | .tcopy image _ sf _ _ _ => min 4096 ((Shape.ofBytes image).bytes sf - 4096 * u)
  | .gather _ size _ _ _ _ n => min 32 (n - 32 * u) * size

/-- The parts of a chunk or window that have been performed. -/
def EngOp.unitParts (o : EngOp) (u : Nat) : Tbl Nat := o.parts.filter fun p => o.unitOf p.1 == u

/-- Every part of a chunk or window has been performed. -/
def EngOp.unitDone (o : EngOp) (u : Nat) : Bool := decide (o.unitSize u ≤ (o.unitParts u).length)

/-- Some part of a chunk or window has been performed or is on its way, and some has not been performed. -/
def EngOp.unitOpen (o : EngOp) (u : Nat) : Bool :=
  (!(o.unitParts u).isEmpty || o.sent.any fun x => o.unitOf x.1 == u) && !o.unitDone u

/-- The first chunk or window with a part to come. -/
def EngOp.front (o : EngOp) : Nat := ((List.range o.units).find? fun u => !o.unitDone u).getD o.units

def EngKind.toGlobal : EngKind → Bool
  | .tcopy _ g .. => g
  | .gather g .. => g

/-- A part may be next: a copy takes its chunks in order (R210), a gather or scatter its elements in any (R211). -/
def EngOp.inTurn (o : EngOp) (part : Nat) : Bool :=
  match o.kind with
  | .tcopy .. => o.unitOf part == o.front
  | .gather .. => true

/-- A nibble or a whole number of bytes within bytes read. -/
def takeBits (bs : List Byte) (sh b : Nat) : Nat := field (leNat bs) sh b

/-- The scratchpad bytes of a block. -/
def State.spadBytes (s : State) (b off n : Nat) : List Byte := Memory.read (s.blk b).spad off n

/-- One element moved: memory place, scratchpad place, formats. Answers the state and the GWCT of its global write. -/
def State.moveElem (s : State) (o : EngOp) (toGlobal : Bool) (place : Option (Nat × Nat)) (mb : Nat) (off sh sb : Nat)
    (conv : Nat → Nat) : Except EngBad (State × Nat) :=
  let sn := (sb + 7) / 8
  let mn := (mb + 7) / 8
  if toGlobal then
    match place with
    | none => .ok (s, 0)
    | some (va, msh) => do
      let v := conv (takeBits (s.spadBytes o.block off sn) sh sb)
      if mb = 4 then
        let x ← s.engPlace o .store va 1
        s.engWrite o va [BitVec.ofNat 8 (setField (leNat (s.homeBytes x.pa 1)) msh 4 v)]
      else s.engWrite o va (leBytes mn v)
  else do
    let v ← match place with
      | none => pure 0
      | some (va, msh) => do
        let bs ← s.engRead o va mn
        pure (conv (takeBits bs msh mb))
    let bs := if sb = 4 then [BitVec.ofNat 8 (setField (leNat (s.spadBytes o.block off 1)) sh 4 v)] else leBytes sn v
    pure (s.writeScratch o.block off bs, 0)

/-- The index of a gather's element (R211). -/
def State.gatherIndex (s : State) (o : EngOp) (idx e : Nat) (uns : Bool) : Int :=
  let w := leNat (s.spadBytes o.block (idx + 4 * e) 4)
  if uns then (w : Int) else sgn 32 w

/-- The address of a gather's element. -/
def State.gatherAddr (s : State) (o : EngOp) (size : Nat) (uns : Bool) (base idx e : Nat) : Nat :=
  wrapTo 48 (base + s.gatherIndex o idx e uns * size)

/-- The scratchpad ranges that a part touches. -/
def EngOp.spadRange (o : EngOp) (part : Nat) : Nat × Nat :=
  match o.kind with
  | .tcopy image _ sf _ off _ =>
    let r := Shape.ofBytes image
    let b := r.spadBits sf
    if part < 2 ^ 32 then (off + part * b / 8, (b + 7) / 8) else (off + r.count * b / 8 + 2 * (part - 2 ^ 32), 2)
  | .gather _ size _ _ off _ _ => (off + part * size, size)

/-- One part performed. -/
def State.doPart (s : State) (o : EngOp) (part : Nat) : Except EngBad (State × Nat) :=
  let (off, n) := o.spadRange part
  match o.kind with
  | .tcopy image toGlobal sf sr _ origin =>
    let r := Shape.ofBytes image
    if part < 2 ^ 32 then
      let c := r.coord origin part
      let (src, dst) := if toGlobal then (r.spadFmt sf, r.fmt) else (r.fmt, r.spadFmt sf)
      let conv (v : Nat) : Nat := if sf = 0 then v else convElem src dst sr r.p0 part v
      s.moveElem o toGlobal (if r.inside c then some (r.elemPlace c) else none) r.memBits off
        (if r.spadBits sf = 4 then 4 * (part % 2) else 0) (r.spadBits sf) conv
    else
      let c := r.coord origin (32 * (part - 2 ^ 32))
      s.moveElem o toGlobal (if r.inside c then some (r.scalePlace c, 0) else none) 16 off 0 16 id
  | .gather toGlobal size uns base _ idx _ =>
    s.moveElem o toGlobal (some (s.gatherAddr o size uns base idx part, 0)) (8 * size) off 0 (8 * n) id

/-- The global address that a part reads or writes, if it does. -/
def State.globalOf (s : State) (o : EngOp) (part : Nat) : Option Nat :=
  match o.kind with
  | .tcopy image _ _ _ _ origin =>
    let r := Shape.ofBytes image
    let c := r.coord origin (if part < 2 ^ 32 then part else 32 * (part - 2 ^ 32))
    if r.inside c then some (if part < 2 ^ 32 then (r.elemPlace c).1 else r.scalePlace c) else none
  | .gather _ size uns base _ idx _ => some (s.gatherAddr o size uns base idx part)

/-- The host or Pritch address that a part reads or writes, if it does: virtual and physical (R362). -/
def State.farOf (s : State) (o : EngOp) (part : Nat) : Option (Nat × Nat) :=
  (s.globalOf o part).bind fun va =>
    if inWindow va then none
    else match s.translate o.core none o.part o.owner o.s1root va (if o.kind.toGlobal then .store else .load) with
      | .ok x => if onHostPath s x.pa then some (va, x.pa) else none
      | .error _ => none

/-- A scatter element waits for the earlier elements with its address (R211). -/
def State.scatterBehind (s : State) (o : EngOp) (part : Nat) : Bool :=
  match o.kind with
  | .gather true size uns base _ idx _ =>
    (List.range part).any fun e => (o.parts.find e).isNone
      && overlaps (s.gatherAddr o size uns base idx e) size (s.gatherAddr o size uns base idx part) size
  | _ => false

/-- An operation has started (R206): every load and store that its thread issued before it has been performed. -/
def State.engStarted (s : State) (o : EngOp) : Bool :=
  !s.reqs.any fun r => r.2.thread == o.thread && r.2.block == o.block && r.2.kind.access && r.2.seq < o.startSeq
    && !r.2.state.isPerformed

/-- PROG of an operation's record (R321): bytes completed, or the first element of the window below which every element is
done. -/
def EngOp.progress (o : EngOp) : Nat :=
  match o.kind with
  | .tcopy .. => 4096 * o.front
  | .gather .. => 32 * o.front

/-- DONE of an operation's record: the elements done of the current window. -/
def EngOp.doneMask (o : EngOp) : Nat :=
  match o.kind with
  | .tcopy .. => 0
  | .gather .. => ((o.unitParts o.front).map fun p => 2 ^ (p.1 % 32)).foldl (· + ·) 0

/-- An operation held on a translation fault (R206): a record, and no park. -/
def State.hold (s : State) (e : Nat) (o : EngOp) (toGlobal : Bool) (kind va ipa : Nat) (walk : Bool) : State :=
  let src := match o.kind with | .tcopy .. => 2 | .gather .. => 3
  let r := { FaultRec.blank with
    owner := o.owner, ctx := o.ctx, src := src, kind := kind, va := va, ipa := ipa
    acc := accBits (if toGlobal then .store else .load) walk, done := o.doneMask, prog := o.progress
    quad := quadOf o.thread, slot := slotOf o.thread, core := o.core }
  let (s1, seq) := s.post o.part r (some (.engine e))
  s1.modEng e fun o => { o with held := some seq }

/-- The context of an operation is not being pre-empted, or the chunk or window of the part has begun (R325). -/
def State.engRuns (s : State) (o : EngOp) (part : Nat) : Bool :=
  match s.ctxs.find o.ctx with
  | some c => c.preemption.isNone || o.unitOpen (o.unitOf part)
  | none => true

/-- The scratchpad ranges that a part touches: its own, and the index words that give its address and tell whether an
earlier element of a scatter has it. -/
def EngOp.touched (o : EngOp) (part : Nat) : List (Nat × Nat) :=
  o.spadRange part :: (match o.kind with
    | .gather toGlobal _ _ _ _ idx _ => [if toGlobal then (idx, 4 * part + 4) else (idx + 4 * part, 4)]
    | _ => [])

/-- The scratchpad ranges that a part reads as its data and its index. -/
def EngOp.reads (o : EngOp) (part : Nat) : List (Nat × Nat) :=
  (if o.kind.toGlobal then [o.spadRange part] else [])
    ++ (match o.kind with | .gather _ _ _ _ _ idx _ => [(idx + 4 * part, 4)] | _ => [])

/-- A part may be performed now; a frozen core's operations stand still (R333). -/
def State.engOpen (s : State) (o : EngOp) (part : Nat) : Bool :=
  (s.coreAt o.core).frozen.isNone && !o.complete && o.error.isNone && o.held.isNone && o.hasPart part && (o.parts.find part).isNone && o.inTurn part
    && s.engStarted o && s.engRuns o part

/-- A part performed at its home: it is done with its GWCT, or the operation errs or is held. -/
def State.engPerform (s : State) (e part : Nat) (o : EngOp) : State :=
  match s.doPart o part with
  | .ok (s1, g) => s1.modEng e fun o => { o with parts := o.parts.put part g, sent := o.sent.del part, gwct := max o.gwct g }
  | .error (.error cause why va) => s.modEng e fun o => { o with error := some ⟨cause, why, va⟩, sent := [] }
  | .error (.fault kind va ipa w) => (s.hold e o o.kind.toGlobal kind va ipa w).modEng e fun o => { o with sent := o.sent.del part }

/-- A part on the host path (R362, R383, R384): sent first, and performed when its completion comes; one that fails its
authentication is dropped and counted, and can then only time out, as can one that takes too long.
(DESIGN CHOICE, log entry 12) -/
def State.engFar (s : State) (e part va pa : Nat) (o : EngOp) : State :=
  let late : State := s.modEng e fun o => { o with error := some ⟨16, 0, va⟩, sent := [] }
  match o.sent.find part with
  | none => if s.reaches o.part pa then s.modEng e fun o' => { o' with sent := o'.sent.put part (s.farReq o.part pa) } else late
  | some x =>
    if timedOut s.time x.sentAt then late
    else if x.lost then s
    else if s.free part % 2 = 1 then
      (s.modEng e fun o => { o with sent := o.sent.change part fun x => { x with lost := true } }).modPart o.part
        fun p => { p with linkDrops := p.linkDrops + 1 }
    else s.engPerform e part o

/-- ENGINE_PART of a copy, gather or scatter; a part that meets window lines without their bytes waits for them (R167). -/
def State.engPart (s : State) (e part : Nat) (o : EngOp) : State :=
  if !s.engOpen o part then s
  else if !(o.touched part).all fun x => s.linesFilled o.block x.1 x.2 then
    (o.touched part).foldl (fun (acc : State) x => acc.touchSpad o.block x.1 x.2) s
  else if s.scatterBehind o part then s
  else match (o.reads part).find? fun x => (s.blk o.block).spadBad x.1 x.2 with
  | some x => s.modEng e fun o => { o with error := some ⟨16, 0, windowBase + x.1⟩, sent := [] }
  | none =>
    match s.farOf o part with
    | some (va, pa) => s.engFar e part va pa o
    | none => s.engPerform e part o

/-- ENGINE_PART (R243, R244). -/
def enginePartOp (e part : Nat) (s : State) : State :=
  match s.engOps.find e, s.mxOps.find e with
  | some o, _ => s.engPart e part o
  | none, some o => s.mxPart e part o
  | none, none => s

/-- T exceeds every GWCT of some parts. -/
def pastParts (now : Nat) (ps : Tbl Nat) : Bool := ps.all fun p => p.2 == 0 || decide (p.2 < now)

/-- The first chunk or window that may be counted (R210, R211): every part of it and of those before it performed, and T
past the GWCTs of its global writes. One that was performed before an error counts; what stands after the one that erred
does not. (DEDUCED, log entry 107) -/
def EngOp.toCount (now : Nat) (o : EngOp) : Option Nat :=
  if o.complete then none
  else (List.range o.front).find? fun u => !o.counted.contains u && pastParts now (o.unitParts u)

/-- A chunk or window ends: its bytes are counted (R210, R211). -/
def State.endUnit (s : State) (e : Nat) (o : EngOp) : State :=
  match o.toCount s.time with
  | none => s
  | some u =>
    match o.arrival with
    | some off =>
      if !s.linesFilled o.block off 8 then s.touchSpad o.block off 8
      else (s.modEng e fun o => { o with counted := u :: o.counted }).countArrival o.block off (o.unitBytes u)
    | none => s.modEng e fun o => { o with counted := u :: o.counted }

/-- COPY_CHUNK_DONE (R210). -/
def copyChunkDoneOp (e : Nat) (s : State) : State :=
  match s.engOps.find e with
  | some o => (match o.kind with | .tcopy .. => s.endUnit e o | _ => s)
  | none => s

/-- GATHER_WINDOW_DONE (R211). -/
def gatherWindowDoneOp (e : Nat) (s : State) : State :=
  match s.engOps.find e with
  | some o => (match o.kind with | .gather .. => s.endUnit e o | _ => s)
  | none => s

/-! ### CPWAIT (R207) -/

/-- The operations of a thread, in order. -/
def State.opsOf (s : State) (k : Nat) : Tbl EngOp := s.engOps.filter fun o => o.2.thread == k && o.2.block == (s.grpOf k).block

/-- The operations of a thread that count as incomplete: from its first incomplete one on. -/
def State.openOps (s : State) (k : Nat) : Nat := ((s.opsOf k).dropWhile fun o => o.2.complete).length

/-- The oldest undelivered error among the operations that count as complete. -/
def State.owedError (s : State) (k : Nat) : Option (Nat × EngErr) :=
  ((s.opsOf k).takeWhile fun o => o.2.complete).findSome? fun o => if o.2.delivered then none else o.2.error.map fun e => (o.1, e)

/-- xinfo of an engine error (R207). -/
def EngErr.info (e : EngErr) : Nat := e.why * 2 ^ 48 + addr48 e.va

/-- Operations of a thread that no CPWAIT can tell any more are forgotten. -/
def State.purgeOps (s : State) (k : Nat) : State :=
  let gone := ((s.opsOf k).takeWhile fun o => o.2.complete && (o.2.error.isNone || o.2.delivered)).map (·.1)
  { s with engOps := s.engOps.filter fun o => !gone.contains o.1 }

/-- An error delivered: the operation's and the state after it. -/
def State.deliverError (s : State) (k e : Nat) : State := (s.modEng e fun o => { o with delivered := true }).purgeOps k

/-- A waiting CPWAIT tested; a Stopped thread's wait is kept (R400). (DEDUCED, log entry 30) -/
def State.testCpwait (s : State) (k : Nat) : State :=
  if (s.thr k).isStopped then s else match (s.thr k).state with
  | .waiting (.cpwait n len) =>
    if s.openOps k > n then s
    else match s.owedError k with
      | some (e, err) => (s.deliverError k e).trap k err.cause err.info (lenCode len) false
      | none => (s.modThr k fun t => ({ t with pc := addr48 (t.pc + len) } : Thread).ready s.time).purgeOps k
  | _ => s

/-- An operation may complete (R206, R243): in error, or with every part performed; every count due has been made, and T
exceeds every GWCT that it received. -/
def EngOp.ended (now : Nat) (o : EngOp) : Bool :=
  pastParts now o.parts && (o.error.isSome || o.front == o.units)
    && (o.arrival.isNone || (List.range o.front).all o.counted.contains)

/-- ENGINE_OP_COMPLETE (R206, R243). -/
def engineOpCompleteOp (e : Nat) (s : State) : State :=
  match s.engOps.find e with
  | none => s
  | some o =>
    if o.complete || !o.ended s.time then s
    else
      let s1 := (s.modEng e fun o => { o with complete := true }).flowIdle.testCpwait o.thread
      if (s1.threads.find o.thread).isSome then s1.purgeOps o.thread else { s1 with engOps := s1.engOps.del e }

/-- CPWAIT (R207). -/
def cpwaitOp (h : Hdr) : State → State :=
  runLanes 0x282 h ⟨.none, .none, .v, false, false, [], false⟩ anyone fun s0 _ k v run =>
    let n := v.b % 2 ^ 32
    if s0.openOps k > n then
      .left (run.modThr k fun t => { t with state := .waiting (.cpwait n h.bytes), chain := false, latch := [] })
    else match s0.owedError k with
      | some (e, err) => .trap (run.deliverError k e) err.cause err.info
      | none => .ok (run.purgeOps k)

/-! ### Starting operations (R206, R209–R211) -/

/-- Operations in flight on a core. -/
def State.inFlight (s : State) (core : Nat) : Nat := (s.engOps.filter fun o => o.2.core == core && !o.2.complete).length

/-- An operation started for a lane. -/
def State.startEng (s : State) (k : Nat) (kind : EngKind) (arrival : Option Nat) : State :=
  let G := s.grpOf k
  let o : EngOp :=
    { thread := k, order := s.nextOp, ctx := s.ctxOfGrid (s.blk G.block).grid, grid := (s.blk G.block).grid, core := coreOf k
      block := G.block, oslot := G.oslot, part := s.partOf (coreOf k), owner := (s.slotOfThread k).owner
      s1root := (s.slotOfThread k).s1root, kind := kind, arrival := arrival
      sent := [], parts := [], counted := [], gwct := 0, held := none, error := none, delivered := false, complete := false
      startSeq := (s.thr k).seq }
  { s with engOps := s.engOps.put s.nextOp o, nextOp := s.nextOp + 1 }

/-- The check of an arrival word's offset (R210, R211). -/
def arrivalBad (run : State) (scratch off : Nat) : Option Lane :=
  if off % 8 != 0 then some (.trap run 5 off)
  else if off + 8 > scratch then some (.trap run 14 (protInfo 3 off))
  else none

/-- An operation started after its arrival check and its wait for room. -/
def startLane (s0 run : State) (k : Nat) (kind : EngKind) (arv : Bool) (off : Nat) : Lane :=
  match (if arv then arrivalBad run (s0.blkOf k).scratch off else none) with
  | some l => l
  | none => if run.inFlight (coreOf k) ≥ 32 then .stall .engine else .ok (run.startEng k kind (if arv then some off else none))

/-- The key of a shape record in the record cache: the owner's address (R209). (DEDUCED, log entry 18) -/
def State.recordKey (s : State) (k va : Nat) : Nat := (s.slotOfThread k).owner * 2 ^ 48 + va

/-- The record cache with an entry used or filled, least recently used dropped (R209). -/
def Core.useRecord (c : Core) (key : Nat) (image : List Byte) : Core :=
  { c with records := ((key, image) :: c.records.filter fun r => r.1 != key).take 32 }

/-- The shape record that a copy reads (R209): the core's copy of it, or its 64 bytes in memory. -/
def shapeFound (s0 run : State) (k r : Nat) : Except Lane (List Byte) :=
  match (run.coreAt (coreOf k)).records.find (s0.recordKey k r) with
  | some im => .ok im
  | none =>
    match s0.place k r 64 .load false with
    | .error b => .error (b.lane run)
    | .ok p => if !s0.allPerformed k then .error (.stall .engine) else .ok (run.homeBytes p.pa 64)

/-- TCOPY (R210). (DEDUCED, log entry 18) -/
def tcopyOp (h : Hdr) (dir : Bool) (sf : BitVec 3) (sr arv : Bool) : State → State :=
  runLanes 0x280 h ⟨.v, .x2, .x6, true, false, [], false⟩ anyone fun s0 _ k v run =>
    let r := addr48 v.a
    let off := v.d % 2 ^ 32
    if r % 64 != 0 then .trap run 5 r
    else
      match shapeFound s0 run k r with
      | .error l => l
      | .ok im =>
        let run := run.modCore (coreOf k) fun C => C.useRecord (s0.recordKey k r) im
        let sh := Shape.ofBytes im
        let origin := (List.range 5).map fun i => sgn 32 (field v.b (32 * i) 32)
        let z := sf.toNat
        if !sh.ok z (origin.headD 0) then .trap run 14 (protInfo 6 r)
        else if off % 16 != 0 then .trap run 5 off
        else if off + sh.bytes z > (s0.blkOf k).scratch then .trap run 14 (protInfo 3 off)
        else startLane s0 run k (.tcopy im dir z sr off origin) arv (field v.b 160 32)

/-- RCFENCE (R209). (DEDUCED, log entry 17) -/
def rcfenceOp (h : Hdr) (all : Bool) : State → State :=
  runOnce 0x281 h ⟨.none, if all then .none else .x2, .none, false, false, [], false⟩ anyone fun s0 run _ k v =>
    let r := addr48 v.a
    if !all && r % 64 != 0 then .trap run 5 r
    else if !s0.allPerformed k then .stall .memory
    else .ok (run.modCore (coreOf k) fun C =>
      { C with records := if all then [] else C.records.filter fun x => x.1 != s0.recordKey k r })

/-- Bytes of an element of a gather or scatter (R211). -/
def gatherSize (sz : Nat) : Nat := match sz with | 0 => 4 | 1 => 8 | 2 => 2 | _ => 16

/-- GATH and SCAT (R211). The PROT of more than 8,192 elements names no address: xinfo is WHY 3 with address 0.
(DESIGN CHOICE, log entry 113) -/
def gatherOp (opc : Nat) (toGlobal : Bool) (h : Hdr) (sz : BitVec 2) (u arv : Bool) : State → State :=
  runLanes opc h ⟨.v, .x2, .x3, true, false, [], false⟩ anyone fun s0 _ k v run =>
    let size := gatherSize sz.toNat
    let base := addr48 v.a
    let off := v.d % 2 ^ 32
    let idx := field v.b 0 32
    let n := field v.b 32 32
    let scratch := (s0.blkOf k).scratch
    if base % size != 0 then .trap run 5 base
    else if off % size != 0 then .trap run 5 off
    else if idx % 4 != 0 then .trap run 5 idx
    else if inWindow base then .trap run 14 (protInfo 4 base)
    else if n > 8192 then .trap run 14 (protInfo 3 0)
    else if off + n * size > scratch then .trap run 14 (protInfo 3 off)
    else if idx + 4 * n > scratch then .trap run 14 (protInfo 3 idx)
    else startLane s0 run k (.gather toGlobal size u base off idx n) arv (field v.b 64 32)

def gathOp (h : Hdr) (sz : BitVec 2) (u arv : Bool) : State → State := gatherOp 0x283 false h sz u arv
def scatOp (h : Hdr) (sz : BitVec 2) (u arv : Bool) : State → State := gatherOp 0x284 true h sz u arv

/-- `ENGINE_PART` (R243). (DEDUCED, log entry 14) -/
def execEnginePart (e part : Nat) (s : State) : Result := go (enginePartOp e part s)

/-- `COPY_CHUNK_DONE` (R210). -/
def execCopyChunkDone (e : Nat) (s : State) : Result := go (copyChunkDoneOp e s)

/-- `GATHER_WINDOW_DONE` (R211). -/
def execGatherWindowDone (e : Nat) (s : State) : Result := go (gatherWindowDoneOp e s)

/-- `ENGINE_OP_COMPLETE` (R206). -/
def execEngineOpComplete (e : Nat) (s : State) : Result := go (engineOpCompleteOp e s)

/-! ### The arms -/

/-- `TCOPY` (R210). -/
def execTcopy (h : Hdr) (dir : Bool) (sf : BitVec 3) (sr : Bool) (arv : Bool) (s : State) : Result := go (tcopyOp h dir sf sr arv s)

/-- `RCFENCE` (R209). -/
def execRcfence (h : Hdr) (all : Bool) (s : State) : Result := go (rcfenceOp h all s)

/-- `CPWAIT` (R207). -/
def execCpwait (h : Hdr) (s : State) : Result := go (cpwaitOp h s)

/-- `GATH` (R211). -/
def execGath (h : Hdr) (sz : BitVec 2) (u : Bool) (arv : Bool) (s : State) : Result := go (gathOp h sz u arv s)

/-- `SCAT` (R211). -/
def execScat (h : Hdr) (sz : BitVec 2) (u : Bool) (arv : Bool) (s : State) : Result := go (scatOp h sz u arv s)

end Sys2Proof.Machine
end

