-- ==== Sys2Proof/Machine/Harrow.lean ====
section
/-! DEFINITION. Harrow cursors (07 R212–R214; 18 R354–R361): the image, the draw, and the five instructions. -/

namespace Sys2Proof.Machine

/-! ### The image (R212) -/

/-- The encoding of a stream; in EXPAND the streams are row pointers and a column list (R354). -/
def Cursor.enc (c : Cursor) (st : Nat) : Nat :=
  if c.mode = 2 then (if st = 0 then 2 else 1) else if st = 0 then c.enc0 else c.enc1

/-- A base as the image holds it: DENSE keeps start and step, an address its 48 bits. -/
def Cursor.baseField (c : Cursor) (st b : Nat) : Nat := if c.enc st = 0 then b % 2 ^ 64 else addr48 b

/-- The 64-byte image. -/
def Cursor.image (c : Cursor) : List Byte :=
  leBytes 8 (c.baseField 0 c.base0) ++ leBytes 8 (c.baseField 1 c.base1) ++ leBytes 4 c.len0 ++ leBytes 4 c.len1
    ++ leBytes 4 (c.spl * 2 ^ 8 + c.enc1 * 2 ^ 4 + c.enc0 * 2 ^ 2 + c.mode) ++ leBytes 4 0
    ++ leBytes 4 c.pos0 ++ leBytes 4 c.pos1 ++ leBytes 4 c.segc ++ leBytes 4 c.drawn ++ leBytes 4 (b2n c.done) ++ leBytes 12 0

/-- A cursor from an image; HSET takes the configuration alone (R213). -/
def Cursor.ofImage (bs : List Byte) (full : Bool) (tag : Nat) : Cursor :=
  let at' (o n : Nat) : Nat := leNat ((bs.drop o).take n)
  let w := at' 0x18 4
  let pos (o : Nat) : Nat := if full then at' o 4 else 0
  { valid := true, tag := tag, base0 := at' 0 8, base1 := at' 8 8, len0 := at' 0x10 4, len1 := at' 0x14 4
    spl := field w 8 6, enc0 := field w 2 2, enc1 := field w 4 2, mode := field w 0 2
    pos0 := pos 0x20, pos1 := pos 0x24, segc := pos 0x28, drawn := pos 0x2C, done := full && bit (at' 0x30 4) 0 }

/-- A configuration that HSET and HLOAD refuse (R213, R354). -/
def Cursor.bad (c : Cursor) : Bool :=
  let misaligned (st b : Nat) : Bool :=
    match c.enc st with | 0 => false | 3 => addr48 b % 8 != 0 | _ => addr48 b % 4 != 0
  c.mode == 3 || (c.mode == 2 && c.enc0 != 2) || (c.mode != 2 && (c.enc0 == 2 || c.enc1 == 2))
    || misaligned 0 c.base0 || misaligned 1 c.base1
    || (c.enc 0 == 3 && c.len0 > 2 ^ 26) || (c.enc 1 == 3 && c.len1 > 2 ^ 26)

/-! ### The draw (R355–R358) -/

/-- Why a draw stops before it has its survivors: 1,024 entries met, an unsorted entry, or an entry still to be read: its
key, address and size. -/
inductive DrawEnd where
  | full
  | unsorted (st pos : Nat)
  | ask (key va size : Nat)
deriving DecidableEq, Repr

/-- A draw in progress: the cursor, the entries met with their values, how many, the survivors and the head mask. -/
structure Draw where
  c : Cursor
  memo : List ((Nat × Nat) × Nat)
  met : Nat
  out : List (Nat × Nat × Nat)
  heads : Nat
deriving DecidableEq, Repr

abbrev DrawM := ExceptT DrawEnd (StateM Draw)

/-- The entries read so far, by key. -/
abbrev Reads := Nat → Option Nat

def Cursor.pos (c : Cursor) (st : Nat) : Nat := if st = 0 then c.pos0 else c.pos1
def Cursor.setPos (c : Cursor) (st v : Nat) : Cursor := if st = 0 then { c with pos0 := v } else { c with pos1 := v }

/-- The end of a stream (R356). -/
def Cursor.endOf (c : Cursor) (st : Nat) : Nat :=
  let n := if st = 0 then c.len0 else c.len1
  if c.enc st = 3 then 64 * n else n

/-- An entry read: met the first time, kept for the rest of the draw. An entry of memory has the key 2n + stream. -/
def drawRead (rd : Reads) (st n a size : Nat) (counts : Bool) : DrawM Nat := do
  let d ← get
  match d.memo.find? fun e => e.1 == (st, n) with
  | some e => pure e.2
  | none =>
    if counts && d.met ≥ 1024 then throw .full
    let v ← (if d.c.enc st = 0 then pure a else
      match rd (2 * n + st) with
      | some v => pure v
      | none => throw (.ask (2 * n + st) (addr48 a) size))
    set { d with memo := ((st, n), v) :: d.memo, met := if counts then d.met + 1 else d.met }
    pure v

/-- A DENSE entry, or a 32-bit one. -/
def drawEntry (rd : Reads) (st n : Nat) (counts : Bool) : DrawM Nat := do
  let c := (← get).c
  let b := if st = 0 then c.base0 else c.base1
  if c.enc st = 0 then drawRead rd st n ((field b 0 32 + n * field b 32 32) % 2 ^ 32) 4 counts
  else drawRead rd st n (b + 4 * n) 4 counts

/-- An entry checked against the one before it (R355). -/
def drawChecked (rd : Reads) (st n floor : Nat) (strict : Bool) : DrawM Nat := do
  let v ← drawEntry rd st n true
  if n ≥ floor + 1 then
    let p ← drawEntry rd st (n - 1) false
    if v < p || (strict && v == p) then throw (.unsorted st n)
  pure v

/-- The lowest set bit at or above a position of a word. -/
def firstBit (w from' : Nat) : Option Nat := (List.range 64).find? fun i => from' ≤ i && bit w i

/-- The next present value of a bitmap, the cursor moved to it; none at the end. -/
def drawBitmap (rd : Reads) (st : Nat) : Nat → DrawM (Option (Nat × Nat))
  | 0 => throw .full
  | fuel + 1 => do
    let d ← get
    let pos := d.c.pos st
    if pos ≥ d.c.endOf st then pure none
    else
      let b := if st = 0 then d.c.base0 else d.c.base1
      let w ← drawRead rd st (pos / 64) (b + 8 * (pos / 64)) 8 true
      match firstBit w (pos % 64) with
      | some i =>
        let p := pos / 64 * 64 + i
        modify fun d => { d with c := d.c.setPos st p }
        pure (some (p, p))
      | none =>
        modify fun d => { d with c := d.c.setPos st (pos / 64 * 64 + 64) }
        drawBitmap rd st fuel

/-- The lowest unconsumed value of a stream with its position. -/
def drawHead (rd : Reads) (st : Nat) : DrawM (Option (Nat × Nat)) := do
  let c := (← get).c
  if c.enc st = 3 then drawBitmap rd st 1100
  else if c.pos st < c.endOf st then do
    let v ← drawChecked rd st (c.pos st) 0 true
    pure (some (v, c.pos st))
  else pure none

/-- A survivor taken. -/
def drawTake (x : Nat × Nat × Nat) (head : Bool) : DrawM Unit :=
  modify fun d =>
    { d with
      out := d.out ++ [x]
      heads := if head || d.out.isEmpty then d.heads + 2 ^ d.out.length else d.heads
      c := { d.c with drawn := (d.c.drawn + 1) % 2 ^ 32 } }

/-- A stream advances past a position. -/
def drawPast (st p : Nat) : DrawM Unit := modify fun d => { d with c := d.c.setPos st (p + 1) }

/-- The cursor stands at its end (R356). -/
def Cursor.atEnd (c : Cursor) : Bool :=
  match c.mode with
  | 2 => c.pos0 ≥ c.len0
  | 1 => c.pos0 ≥ c.endOf 0 && c.pos1 ≥ c.endOf 1
  | _ => c.pos0 ≥ c.endOf 0 || c.pos1 ≥ c.endOf 1

/-- INTERSECT and MERGE (R356), until `m` survivors have been taken or the cursor has reached its end (R358). -/
def drawPair (rd : Reads) (m : Nat) : Nat → DrawM Unit
  | 0 => throw .full
  | fuel + 1 => do
    let d ← get
    if d.out.length ≥ m || d.c.atEnd then pure ()
    else
      let h0 ← drawHead rd 0
      if h0.isNone && d.c.mode = 0 then pure ()
      else
        let h1 ← drawHead rd 1
        match h0, h1 with
        | none, none => pure ()
        | some (v, p), none =>
          if d.c.mode = 0 then pure () else
            drawPast 0 p
            drawTake (v, p, 0xFFFFFFFF) false
            drawPair rd m fuel
        | none, some (w, q) =>
          drawPast 1 q
          drawTake (w, 0xFFFFFFFF, q) false
          drawPair rd m fuel
        | some (v, p), some (w, q) =>
          if v ≤ w then drawPast 0 p
          if w ≤ v then drawPast 1 q
          if v = w then drawTake (v, p, q) false
          else if d.c.mode = 1 then
            (if v < w then drawTake (v, p, 0xFFFFFFFF) false else drawTake (w, 0xFFFFFFFF, q) false)
          drawPair rd m fuel

/-- EXPAND (R356, R357): rows that have no column left are passed, then a survivor is taken. -/
def drawExpand (rd : Reads) (m : Nat) : Nat → DrawM Unit
  | 0 => throw .full
  | fuel + 1 => do
    let c := (← get).c
    if c.pos0 ≥ c.len0 then pure ()
    else
      let lo ← drawChecked rd 0 c.pos0 0 false
      if c.pos1 < lo then modify fun d => { d with c := { d.c with pos1 := lo } }
      let hi ← drawChecked rd 0 (c.pos0 + 1) 0 false
      let d ← get
      if d.c.pos1 ≥ hi then
        modify fun d => { d with c := { d.c with pos0 := d.c.pos0 + 1, segc := 0 } }
        drawExpand rd m fuel
      else if d.out.length ≥ m then pure ()
      else
        let p := d.c.pos1
        let col ← drawChecked rd 1 p lo true
        let split := c.spl ≠ 0 && d.c.segc = c.spl
        modify fun d => { d with c := { d.c with pos1 := p + 1, segc := if split then 1 else d.c.segc + 1 } }
        drawTake (c.pos0, col, p) (p == lo || split)
        drawExpand rd m fuel

/-- A whole draw of up to `m` survivors: the cursor after it, the survivors and the head mask, or why it fails. -/
def Cursor.draw (c : Cursor) (rd : Reads) (m : Nat) : Except (DrawEnd × Cursor) Draw :=
  let start : Draw := ⟨c, [], 0, [], 0⟩
  if !c.valid then .ok start
  else
    let (r, d) := if m = 0 then (.ok (), start)
      else (if c.mode = 2 then drawExpand rd m 4096 else drawPair rd m 200000).run.run start
    match r with
    | .ok _ | .error .full => .ok { d with c := { d.c with done := d.c.done || d.c.atEnd } }
    | .error e => .error (e, d.c)

/-! ### Instructions -/

def State.cursor (s : State) (q n : Nat) : Cursor := (s.quadAt q).cursors.getD n .invalid
def State.setCursor (s : State) (q n : Nat) (c : Cursor) : State := s.modQuad q fun Q => { Q with cursors := Q.cursors.set n c }

/-- A cursor that another block has tagged (R212). -/
def State.cursorTaken (s : State) (k n : Nat) : Bool :=
  let c := s.cursor (quadKeyOf k) n
  c.valid && c.tag != (s.grpOf k).block

/-- A cursor that another resident block holds (R212, R16). -/
def State.cursorHeld (s : State) (k n : Nat) : Bool :=
  s.cursorTaken k n && (match s.blocks.find (s.cursor (quadKeyOf k) n).tag with
    | some b => !b.retired
    | none => false)

/-- Another instruction of the quadrant that reads for the cursor, issued before this one, has not completed (R359). -/
def State.drawnBy (s : State) (k n : Nat) : Bool :=
  match (s.quadAt (quadKeyOf k)).drawing.find n with
  | some (j, pc) => s.engaged j && (s.thr j).pc == pc && !s.cur.threads.contains j
  | none => false

/-- The reads of an instruction on a cursor sent, the cursor its own until it completes (R359). -/
def State.askFor (s0 run : State) (k n size key va : Nat) : Lane :=
  match s0.askWords run k false size [(key, va)] with
  | .error b => b.lane run
  | .ok s1 => .asks (s1.modQuad (quadKeyOf k) fun Q => { Q with drawing := Q.drawing.put n (k, (s0.thr k).pc) })

/-- An instruction on a cursor completes. -/
def State.endDraw (s : State) (q n : Nat) : State := s.modQuad q fun Q => { Q with drawing := Q.drawing.del n }

/-- HSET and HLOAD (R213): the image is one LD.nl of 64 bytes. An A not 64-aligned is MISALIGN before the tag's PROT.
(DEDUCED, log entry 11; DESIGN CHOICE, log entry 109) -/
def hsetLoad (opc : Nat) (full : Bool) (h : Hdr) (hc : BitVec 2) : State → State :=
  runOnce opc h ⟨.none, .x2, .none, false, false, [], false⟩ anyone fun s0 run _ k v =>
    let a := addr48 v.a
    if a % 64 != 0 then .trap run 5 a
    else if s0.drawnBy k hc.toNat then .stall .engine
    else if s0.cursorHeld k hc.toNat then .trap run 14 (protInfo 7 0)
    else match (s0.thr k).memo.find 0 with
      | none => s0.askFor run k hc.toNat 64 0 a
      | some w =>
        let c := Cursor.ofImage (leBytes 64 w) full (s0.grpOf k).block
        let run1 := run.endDraw (quadKeyOf k) hc.toNat
        if c.bad then .trap run1 14 (protInfo 6 a) else .ok (run1.setCursor (quadKeyOf k) hc.toNat c)

def hsetOp (h : Hdr) (hc : BitVec 2) : State → State := hsetLoad 0x285 false h hc
def hloadOp (h : Hdr) (hc : BitVec 2) : State → State := hsetLoad 0x288 true h hc

/-- HSAVE (R213): four ST.b128. MISALIGN comes before the tag's PROT. (DESIGN CHOICE, log entry 109) -/
def hsaveOp (h : Hdr) (hc : BitVec 2) : State → State :=
  runOnce 0x287 h ⟨.none, .x2, .none, false, false, [], false⟩ anyone fun s0 run _ k v =>
    let a := addr48 v.a
    if a % 64 != 0 then .trap run 5 a
    else if s0.drawnBy k hc.toNat then .stall .engine
    else if s0.cursorTaken k hc.toNat then .trap run 14 (protInfo 7 0)
    else match s0.place k a 64 .store true with
      | .error b => b.lane run
      | .ok p =>
        let c := s0.cursor (quadKeyOf k) hc.toNat
        let bs := if c.valid then c.image else List.replicate 64 0
        .ok ((List.range 4).foldl (fun (acc : State) i =>
          acc.send k ⟨p.space, p.pa + 16 * i, a + 16 * i⟩ 16 (.store ((bs.drop (16 * i)).take 16)) false .store) run)

/-- HSTAT (R213). -/
def hstatOp (h : Hdr) (hc : BitVec 2) : State → State :=
  let fm : Form := ⟨.w, .none, .none, false, true, [], false⟩
  runLanes 0x289 h fm anyone fun s0 _ k v run =>
    let c := s0.cursor (quadKeyOf k) hc.toNat
    if s0.drawnBy k hc.toNat then .stall .engine
    else if s0.cursorTaken k hc.toNat then .trap run 14 (protInfo 7 0)
    else .ok (run.writeD k h fm v.dst (if c.valid then 2 ^ 31 + b2n c.done * 2 ^ 30 + c.drawn % 2 ^ 30 else 0))

/-- The consecutive lanes from 0 on in a list of threads. -/
def leadingLanes (ks : List Nat) : Nat → Nat
  | 0 => 0
  | n + 1 => let r := leadingLanes ks n; if r = n && ks.any (fun k => laneOf k == n) then n + 1 else r

/-- The passing threads of a bundle, by one that takes part: those that the decode checks have not trapped and whose guard
holds (R68). -/
def State.passingWith (s : State) (h : Hdr) (l0 : Nat) : List Nat :=
  s.cur.threads.filter fun k =>
    (s.thr k).guard h && (s.thr k).pc == (s.thr l0).pc && (s.thr k).handler == (s.thr l0).handler
      && (match (s.thr k).state with | .parked _ => false | _ => true)

/-- The results of a draw for one lane (R214). -/
def State.takeSurvivor (s : State) (k dst pv : Nat) (d : Draw) : State :=
  let i := laneOf k
  let s1 := match d.out[i]? with
    | some (x, y, z) => s.writeRun k dst (x % 2 ^ 32 + 2 ^ 32 * (y % 2 ^ 32) + 2 ^ 64 * (z % 2 ^ 32)) 3
    | none => s
  if pv = 0 then s1 else s1.modThr k fun t => t.setPred (pv - 1) (i ≥ d.out.length)

/-- HNEXT (R214): the draw runs as far as the entries read so far take it, and asks for the next it meets (R360); with the
last it commits in one step. (DEDUCED, log entries 11, 19, 20) -/
def hnextOp (h : Hdr) (hc : BitVec 2) (pv : BitVec 3) : State → State :=
  runLanes 0x286 h ⟨.x3, .s2, .none, false, true, if pv = 0 then [] else [pv.toNat - 1], false⟩ anyone fun s0 part k v run =>
    let ks := part.map (·.1)
    let l0 := ks.headD k
    let q := quadKeyOf k
    let first := l0 = k
    if s0.drawnBy l0 hc.toNat then .stall .engine
    else if s0.cursorTaken k hc.toNat then .trap run 14 (protInfo 7 0)
    else
      match (s0.cursor q hc.toNat).draw (s0.thr l0).memo.find (leadingLanes ks 32) with
      | .error (.unsorted st n, _) => .trap (run.endDraw q hc.toNat) 11 (st * 2 ^ 32 + n % 2 ^ 32)
      | .error (.ask key va size, c) =>
        match s0.askFor run l0 hc.toNat size key va with
        | .fault kind va ipa acc =>
          .left (if first then (run.endDraw q hc.toNat).parkOn ks [] 4 kind va ipa acc (c.pos (key % 2)) else run)
        | .asks s1 => if first then .asks s1 else .stall .memory
        | .trap _ c i => .trap (run.endDraw q hc.toNat) c i
        | l => l
      | .error (.full, _) => .ok run
      | .ok d =>
        let s1 := run.takeSurvivor k v.dst pv.toNat d
        if !first then .ok s1
        else
          let n := d.out.length
          let s2 := (s1.writeReg k h.a.toNat (BitVec.ofNat 32 n)).writeReg k (h.a.toNat + 1) (BitVec.ofNat 32 d.heads)
          .ok (((s2.setCursor q hc.toNat d.c).endDraw q hc.toNat).markUdiv (s0.passingWith h l0) ks)

/-! ### The arms -/

/-- `HSET` (R213). -/
def execHset (h : Hdr) (hc : BitVec 2) (s : State) : Result := go (hsetOp h hc s)

/-- `HNEXT` (R214). -/
def execHnext (h : Hdr) (hc : BitVec 2) (pv : BitVec 3) (s : State) : Result := go (hnextOp h hc pv s)

/-- `HSAVE` (R213). -/
def execHsave (h : Hdr) (hc : BitVec 2) (s : State) : Result := go (hsaveOp h hc s)

/-- `HLOAD` (R213). -/
def execHload (h : Hdr) (hc : BitVec 2) (s : State) : Result := go (hloadOp h hc s)

/-- `HSTAT` (R213). -/
def execHstat (h : Hdr) (hc : BitVec 2) (s : State) : Result := go (hstatOp h hc s)

end Sys2Proof.Machine
end

