-- ==== Sys2Proof/Machine/Fetch.lean ====
section
/-! DEFINITION. Filling the instruction cache (03 R77, R82–R84; 10 R257, R274, R275). -/

namespace Sys2Proof.Machine

/-- The page of a code byte: physical address, whether it may be executed, whether its page record agrees. A cached
translation is used where the shared TLB has one (R270). -/
def State.codePage (s : State) (c p owner root va : Nat) : Except WalkErr (Nat × Bool × Bool) :=
  match s.tlbFind c none p owner va with
  | some e => .ok (e.ppage * 65536 + va % 2 ^ e.bits, e.ex1 && e.ex2, !e.aliased)
  | none =>
    match s.walk1 (s.coreAt c).walks p owner root va with
    | .error e => .error e
    | .ok (l1, _) =>
      match s.walk2 (s.coreAt c).walks p l1.oa with
      | .error e => .error e
      | .ok (l2, _) => .ok (l2.oa, l1.ex && l2.ex, s.recordOk l2.oa l2.pcl l2.key)

/-- What a fetch of the unit at an address gives: a word and the unit's length, a translation fault of its first page,
or a refusal by the page record or by a failed check. -/
inductive Fetched where
  | word (w : ICWord) (len : Nat)
  | fault (kind ipa : Nat) (walk : Bool)
  | aliased
  | integrity
deriving DecidableEq, Repr

/-- The expansion of the unit at an address (R82, R83): the lowest kind of fill fault wins. -/
def State.fetchUnit (s : State) (c p owner root pc : Nat) : Fetched :=
  match s.codePage c p owner root pc with
  | .error (kind, ipa, w) => .fault kind ipa w
  | .ok (pa, ex, ok) =>
    if !ok then .aliased
    else if s.isPoisoned pa 1 then .integrity
    else
      let len := unitLength ((s.homeBytes pa 1).headD 0)
      if len = 0 then .word (.fillFault 1 pc) 0
      else
        let here := min len (65536 - pc % 65536)
        let next := addr48 (pc + here)
        let second : Except Nat (Option (Nat × Bool × Bool)) :=
          if here = len then .ok none
          else match s.codePage c p owner root next with
            | .error _ => .error next
            | .ok x => .ok (some x)
        match second with
        | .error a => .word (.fillFault 3 a) len
        | .ok x =>
          let tail := match x with | some (pa2, _, _) => s.homeBytes pa2 (len - here) | none => []
          let bad2 := match x with | some (pa2, _, ok2) => if !ok2 then 1 else if s.isPoisoned pa2 (len - here) then 2 else 0 | none => 0
          if bad2 = 1 then .aliased
          else if bad2 = 2 || s.isPoisoned pa here then .integrity
          else
            let bytes := s.homeBytes pa here ++ tail
            let ex2 := match x with | some (_, e, _) => e | none => true
            match decodeBytes bytes with
            | .fill 2 _ => .word (.fillFault 2 pc) len
            | .fill kind _ =>
              if !ex then .word (.fillFault 4 pc) len
              else if !ex2 then .word (.fillFault 4 next) len
              else .word (.fillFault kind pc) len
            | _ =>
              if !ex then .word (.fillFault 4 pc) len
              else if !ex2 then .word (.fillFault 4 next) len
              else .word (.unit bytes len) len

/-- The words that a fill makes from an address on, within its line (R82). -/
def State.fetchLine (s : State) (c p owner root line : Nat) : Nat → Nat → Tbl ICWord
  | 0, _ => []
  | fuel + 1, pc =>
    if pc / 128 != line then []
    else match s.fetchUnit c p owner root pc with
      | .word w len => (pc, w) :: (if len = 0 then [] else s.fetchLine c p owner root line fuel (pc + len))
      | _ => []

/-- A frame with words added: those present are kept. -/
def ICFrame.add (f : ICFrame) (ws : Tbl ICWord) : ICFrame :=
  { f with words := ws.foldl (fun t w => if (t.find w.1).isSome then t else t.put w.1 w.2) f.words }

/-- The frames of a core with one most recently used, at most 16 in its set (R257). -/
def useFrame (fs : List ICFrame) (f : ICFrame) : List ICFrame :=
  let rest := fs.filter fun g => !(g.owner == f.owner && g.part == f.part && g.line == f.line)
  let kept := (rest.filter fun g => g.line % 20 == f.line % 20).take 15
  f :: kept ++ rest.filter fun g => g.line % 20 != f.line % 20

/-- A fill for an owner slot of a core from an address on: the line's frame takes the words. One that IPREF asked for
makes no word of kind 3: it skips a page without a translation (R233). -/
def State.fillCode (s : State) (c o pc : Nat) (ipref : Bool) : State :=
  let sl := s.slotAt c o
  let p := s.partOf c
  let ws := (s.fetchLine c p sl.owner sl.s1root (pc / 128) 32 pc).filter fun w =>
    !(ipref && (match w.2 with | .fillFault 3 _ => true | _ => false))
  let page (va : Nat) : List Nat := match s.codePage c p sl.owner sl.s1root va with | .ok (pa, _, _) => [pa / 65536] | .error _ => []
  if ws.isEmpty then s
  else (s.tlbFill c none p sl.owner sl.s1root pc .fetch).modCore c fun C =>
    let old := (C.icache.find? fun f => f.owner == sl.owner && f.part == p && f.line == pc / 128).getD ⟨sl.owner, p, pc / 128, [], []⟩
    { C with icache := useFrame C.icache { old.add ws with pages := (page pc ++ page (addr48 (pc / 128 * 128 + 139)) ++ old.pages).eraseDups } }

/-- A fetch of a word uses its frame (R257). -/
def State.touchCode (s : State) (c o pc : Nat) : State :=
  let sl := s.slotAt c o
  s.modCore c fun C =>
    match C.icache.find? fun f => f.owner == sl.owner && f.part == s.partOf c && f.line == pc / 128 with
    | some f => { C with icache := useFrame C.icache f }
    | none => C

/-- The place from which a fill ahead of demand expands a line (R82). A preceding line that ends with a fill-fault word
has no unit that ends it; of overlapping units that reach the line's end, the one of the lowest start counts.
(DESIGN CHOICE, log entries 89, 111) -/
def State.aheadStart (s : State) (c o line : Nat) : Nat :=
  let sl := s.slotAt c o
  let prev := (s.coreAt c).icache.find? fun f => f.owner == sl.owner && f.part == s.partOf c && f.line + 1 == line
  let ends := match prev with
    | some f => f.words.filterMap fun (w : Nat × ICWord) => match w.2 with | .unit _ n => some (w.1 + n) | .fillFault .. => none
    | none => []
  match ends.find? fun e => line * 128 ≤ e with
  | some e => e
  | none => line * 128

/-- The threads that wait for a demand fill at a PC key (R313). -/
def State.parkedAt (s : State) (c o pc : Nat) : List Nat :=
  s.threadsIn fun k => coreOf k == c && (s.grpOf k).oslot == o && (s.thr k).pc == pc && (s.thr k).state == .stalled .fetch

/-- A fill of a line for an owner slot is in flight, for demand or ahead of it. -/
def State.lineInFlight (s : State) (c o line : Nat) : Bool :=
  ((s.coreAt c).aheads.any fun a => a.oslot == o && a.line == line)
    || s.threads.any fun t => coreOf t.1 == c && (s.grpOf t.1).oslot == o && t.2.pc / 128 == line && t.2.state == .stalled .fetch

/-- A fill ahead of demand starts, where none of the line is in flight (R82, R233). -/
def State.askAhead (s : State) (c o line : Nat) (ipref : Bool) : State :=
  if s.lineInFlight c o line then s
  else s.modCore c fun C => { C with aheads := C.aheads ++ [⟨o, (s.slotAt c o).owner, line, ipref⟩] }

/-- The lines that the FETCH hint of an instruction names (R73): the line after its own, the line of its branch target. -/
def hintLines (i : Instr) (pc : Nat) : List Nat :=
  match i.hdr? with
  | none => []
  | some h =>
    let f := field h.hint.toNat 1 2
    let target : Option Nat :=
      match i with
      | .bra _ | .call _ false | .loop _ => h.imm.map fun m => wrapTo 48 ((pc : Nat) + sgn 32 m.toNat) / 128
      | _ => none
    (if f % 2 = 1 then [(pc / 128 + 1) % 2 ^ 41] else []) ++ (if f / 2 = 1 then target.toList else [])

/-- The fills ahead that a FETCH hint starts (R73, R82). (DEDUCED, log entry 46) -/
def State.hintFills (s : State) (c o : Nat) (i : Instr) (pc : Nat) : State :=
  (hintLines i pc).foldl (fun acc l => acc.askAhead c o l false) s

/-- ICACHE_FILL (R82, R313): a demand fill for the threads parked at a PC key, which become Ready; or the end of a fill
ahead of the PC's line. -/
def icacheFillOp (c o pc : Nat) (s : State) : State :=
  match s.parkedAt c o pc with
  | [] =>
    (match (s.coreAt c).aheads.find? fun a => a.oslot == o && a.line == pc / 128 with
    | none => s
    | some a =>
      let s1 := s.modCore c fun C => { C with aheads := C.aheads.filter (· != a) }
      if (s.slotAt c o).valid && (s.slotAt c o).owner == a.owner then s1.fillCode c o (s1.aheadStart c o a.line) a.ipref else s1)
  | ks => ks.foldl (fun acc k => acc.modThr k fun t => t.ready s.time) (s.fillCode c o pc false)

/-- `ICACHE_FILL` (R82). (DESIGN CHOICE, log entry 10) -/
def execIcacheFill (c o pc : Nat) (s : State) : Result := go (icacheFillOp c o pc s)

end Sys2Proof.Machine
end

