-- ==== Sys2Proof/Machine/Select.lean ====
section
/-! DEFINITION. Which bundle a quadrant may issue: bundles and formed bundles (01 R17, R18; 04 R114, R115), selection
(13 R311, R312), deferral and the learning of the CHT (11 R285, R286), and the order of quadrants (11 R278). -/

namespace Sys2Proof.Machine

/-- The instructions that issue only in bundles of one group (R18). -/
def isCollective : Instr → Bool
  | .lxch .. | .vote .. | .segred .. | .scan .. | .matchL .. | .lead _ | .bcast _ => true
  | .mma .. | .mmai .. | .mmab .. | .mmas .. | .mzero .. | .mopr _ | .mwait .. | .hnext .. => true
  | .lxchFromCompact .. | .lxchFlipCompact .. | .lxchFwdCompact .. => true
  | _ => false

/-! ### Threads that may issue -/

/-- The retired-instruction timer of a context has expired on a core (R328). -/
def Ctx.timerDue (c : Ctx) (core : Nat) : Bool :=
  match c.timers.find core with
  | some (n, count) => n != 0 && decide (count ≥ n)
  | none => false

/-- The thread takes part in a draw, or another use of a cursor, that is in progress (R359). -/
def State.draws (s : State) (k : Nat) : Bool :=
  (s.quadAt (quadKeyOf k)).drawing.any fun d =>
    groupOf d.2.1 == groupOf k && d.2.2 == (s.thr k).pc && (s.thr d.2.1).pc == d.2.2 && s.engaged d.2.1

/-- A packet of the thread is still to be reissued, before its next instruction (R334). -/
def State.owesPacket (s : State) (k : Nat) : Bool :=
  match s.ctxs.find (s.ctxOfGrid (s.blkOf k).grid) with
  | some c => c.packets.any fun q => q.thread == k
  | none => false

/-- No pre-emption of the thread's context has begun and no timer of it has expired on the core (R323, R328); an open
chain and a draw in progress still run (R75, R361). -/
def State.ctxRuns (s : State) (k : Nat) : Bool :=
  match s.ctxs.find (s.ctxOfGrid (s.blkOf k).grid) with
  | some c => ((c.preemption.isNone && !c.timerDue (coreOf k)) || (s.thr k).chain || s.draws k) && !s.owesPacket k
  | none => true

/-- A thread that may issue now: Ready, or Stalled and to be tested again. -/
def State.mayIssue (s : State) (k : Nat) : Bool :=
  match s.threads.find k with
  | none => false
  | some t =>
    !t.stopped && t.holdTill ≤ s.time && t.startTill ≤ s.time && !s.committing k && s.ctxRuns k && (s.coreAt (coreOf k)).frozen.isNone
      && (match t.state with
          | .ready => true
          | .stalled why => why != .bank
          | _ => false)

def State.isReady (s : State) (k : Nat) : Bool := (s.thr k).state == .ready

/-- The instruction at a thread's PC, where its word is present. -/
def State.instrAt (s : State) (k : Nat) : Option Instr :=
  match s.fetchFor k with
  | some (.unit bytes _) => (match decodeBytes bytes with | .instr i _ => some i | _ => none)
  | _ => none

/-! ### Bundles (R17, R18, R114, R115) -/

/-- A list of threads in strictly ascending lane order. -/
def ascending : List Nat → Bool
  | a :: b :: t => decide (laneOf a < laneOf b) && ascending (b :: t)
  | _ => true

/-- Two threads stand at one PC and one chain position. -/
def State.together (s : State) (j k : Nat) : Bool :=
  (s.thr j).pc == (s.thr k).pc && (s.thr j).chain == (s.thr k).chain && (s.thr j).latch.length == (s.thr k).latch.length

/-- A bundle by R17: one block, one PC, one chain position, at most one thread per lane, in the quadrant; all Ready, or
all Stalled and to be tested again. -/
def State.isBundle (s : State) (b : Bundle) : Bool :=
  match b.threads with
  | [] => false
  | k0 :: _ =>
    ascending b.threads && b.threads.all fun k =>
      quadKeyOf k == b.quad && s.mayIssue k && (s.grpOf k).block == (s.grpOf k0).block && s.together k k0
        && s.isReady k == s.isReady k0

/-- The thread keeps its formed bundle together: Ready, or Stalled for at most 8 cycles (R17). -/
def State.staysIn (s : State) (k : Nat) : Bool :=
  match s.threads.find k with
  | none => false
  | some t => !t.stopped && (match t.state with
      | .ready => true
      | .stalled _ => decide (s.time ≤ t.stalledAt + 8)
      | _ => false)

/-- Threads at one PC and one chain position. -/
def State.alike (s : State) (ks : List Nat) : Bool := ks.all fun k => s.together k (ks.headD 0)

/-- The threads of a formed bundle that have passed the instruction which the others have still to pass. -/
def Formed.ahead (f : Formed) : List Nat := f.threads.filter fun k => !f.behind.contains k

/-- A formed bundle still binds its threads (R17): at one PC but for those behind at an instruction, none stalled for more
than 8 cycles, and fewer than 16 instructions issued. An instruction that is at work ends for the whole bundle.
(DEDUCED, log entry 33) -/
def State.binds (s : State) (f : Formed) : Bool :=
  !f.threads.isEmpty && s.alike f.ahead && s.alike f.behind
    && (f.threads.any s.engaged || (f.reform.isNone && f.issued < 16 && f.threads.all s.staysIn))

/-- A formed bundle re-forms at its next instruction (R17, R115): at RJWAIT, and at a collective, whose bundle takes in
every Ready thread of one group. -/
def State.reforms (s : State) (f : Formed) : Bool :=
  !f.chosen && (match s.instrAt (f.threads.headD 0) with
    | some (.rjwait ..) => true
    | some i => isCollective i
    | none => false)

/-- A formed bundle that issues its next instruction as one. -/
def State.holds (s : State) (f : Formed) : Bool := s.binds f && !s.reforms f

/-- The bundle is a formed one, or threads of one that are behind, or takes no thread from one that still binds.
(DEDUCED, log entry 33) -/
def State.respectsFormed (s : State) (b : Bundle) : Bool :=
  (s.quadAt b.quad).formed.all fun f => !s.holds f || !b.threads.any (f.threads.contains ·) ||
    (if f.behind.isEmpty then f.threads == b.threads else b.threads.all (f.behind.contains ·))

/-- Threads of formed bundles that are tested again: all of such a bundle that are Stalled. -/
def State.retestsFormed (s : State) (b : Bundle) : Bool :=
  (s.quadAt b.quad).formed.all fun f => !s.holds f || !b.threads.any (f.threads.contains ·) ||
    b.threads == f.threads.filter fun k => !s.isReady k

/-- The thread is in a bundle that has been selected for the instruction at its PC. -/
def State.chosen (s : State) (q k : Nat) : Bool :=
  (s.quadAt q).formed.any fun f => f.chosen && s.holds f && f.threads.contains k

/-- The thread issues one step at a time, and stands in no chain (R402). -/
def State.stepped (s : State) (k : Nat) : Bool := (s.thr k).stepping && !(s.thr k).chain

/-- The threads of a group that the bundle of a collective takes in (R115): those Ready at its PC, whether or not a hint
still holds them, but for those of a bundle selected there before; a single step sees only the stepped ones (R402). -/
def State.gathered (s : State) (k0 : Nat) : List Nat :=
  s.threadsIn fun k => groupOf k == groupOf k0 && s.isReady k && !(s.thr k).stopped && (s.thr k).startTill ≤ s.time
    && s.ctxRuns k && s.together k k0 && s.stepped k == s.stepped k0 && !s.chosen (quadKeyOf k) k

/-- What a collective asks of its bundle (R18, R115, 19 R365). (DEDUCED, log entry 33) -/
def State.collectiveOk (s : State) (b : Bundle) (i : Instr) : Bool :=
  let k0 := b.threads.headD 0
  !isCollective i || (b.threads.all (fun k => groupOf k == groupOf k0)
    && (s.chosen b.quad k0 || (s.gathered k0).all (b.threads.contains ·)))

/-! ### Selection (R311, R312) -/

/-- A deferral holds a thread (R285): it is in the bundle, or waits at its PC to join it. -/
def State.deferred (s : State) (q k : Nat) : Bool :=
  (s.quadAt q).deferred.any fun d =>
    let k0 := d.1.threads.headD 0
    d.1.threads.contains k || (d.1.threads.any (fun j => groupOf j == groupOf k) && (s.thr k).pc == (s.thr k0).pc
      && (s.thr k).chain == (s.thr k0).chain && d.1.threads.all fun j => laneOf j != laneOf k)

/-- The rank of a thread for selection (R311): class, then the time it became Ready, slot and lane. -/
def State.rank (s : State) (aged : Bool) (k : Nat) : Nat × Nat × Nat × Nat :=
  let t := s.thr k
  let cls := if aged then 0 else if t.handler then 0 else if t.capsule.isSome then 1
    else 9 - ((s.launchOf k).map (·.record.prio)).getD 0
  (cls, t.readyAt, slotOf k, laneOf k)

/-- Lexicographic order of ranks. -/
def rankLt (a b : Nat × Nat × Nat × Nat) : Bool :=
  decide (a.1 < b.1) || (a.1 == b.1 && (decide (a.2.1 < b.2.1) || (a.2.1 == b.2.1 &&
    (decide (a.2.2.1 < b.2.2.1) || (a.2.2.1 == b.2.2.1 && decide (a.2.2.2 < b.2.2.2))))))

/-- The thread yielded in the cycle before (R73). -/
def State.yieldedNow (s : State) (q k : Nat) : Bool := (s.quadAt q).yielded.any fun y => y.1.contains k && s.time ≤ y.2 + 1

/-- Ready threads of a quadrant that take part in selection: their word is present, they did not yield in the cycle before,
their formed bundle can issue, and, unless `held`, no deferral holds them. -/
def State.candidates (s : State) (q : Nat) (held : Bool) : List Nat :=
  let waits (k : Nat) : Bool := (s.quadAt q).formed.any fun f =>
    f.threads.contains k && s.holds f &&
      (if f.behind.isEmpty then !f.threads.all fun j => s.mayIssue j && s.isReady j else !f.behind.contains k)
  s.threadsIn fun k =>
    quadKeyOf k == q && s.mayIssue k && s.isReady k && (s.fetchFor k).isSome && (held || !s.deferred q k)
      && !s.yieldedNow q k && !waits k

/-- The next selection that continues no chain is an aged one (R312). -/
def State.agedNext (s : State) (q : Nat) : Bool := decide ((s.quadAt q).selections ≥ 8)

/-- The thread that ranks first. -/
def State.topOf (s : State) (aged : Bool) : List Nat → Option Nat
  | [] => none
  | k0 :: ks => some (ks.foldl (fun best k => if rankLt (s.rank aged k) (s.rank aged best) then k else best) k0)

/-- The open chain of a quadrant (R75): its threads that still stand at the next member. -/
def State.chainNow (s : State) (q : Nat) : Option (List Nat) :=
  match (s.quadAt q).openChain with
  | none => none
  | some b =>
    let cs := b.threads.filter fun k => (s.threads.find k).isSome && (s.thr k).chain
    if cs.isEmpty then none else some (cs.filter fun k => s.together k (cs.headD 0))

/-- Selection (R311, R312): the bundle holds the thread that ranks first, and none that yields to another Ready bundle
(R73). One whose word is absent is not selected: it misses. -/
def State.selected (s : State) (b : Bundle) : Bool :=
  if (s.fetchFor (b.threads.headD 0)).isNone then true
  else
    match s.topOf (s.agedNext b.quad) (s.candidates b.quad false) with
    | none => true
    | some top => b.threads.contains top && !b.threads.any (s.yieldedNow b.quad)

/-- A single step issues the stepped threads at a PC as one bundle, and nothing with them (R402). -/
def State.stepsWhole (s : State) (b : Bundle) : Bool :=
  let k0 := b.threads.headD 0
  !b.threads.any s.stepped ||
    (b.threads.all (fun k => s.stepped k && groupOf k == groupOf k0) && (s.threadsIn fun k => groupOf k == groupOf k0
      && s.stepped k && s.mayIssue k && (s.thr k).pc == (s.thr k0).pc).all (b.threads.contains ·))

/-- Every thread of the bundle is Ready. -/
def State.allReady (s : State) (b : Bundle) : Bool := b.threads.all s.isReady

/-- A bundle of Ready threads whose quadrant has neither selected in this cycle nor been sampled. -/
def State.bundleFree (s : State) (b : Bundle) : Bool :=
  s.isBundle b && s.allReady b && s.stepsWhole b && (s.quadAt b.quad).lastSelect != some s.time
    && (s.quadAt b.quad).sampledAt != some s.time && (!s.throttled (b.quad / 4) || s.time % 4 == 0)

/-- A bundle of Ready threads may issue now. An open chain of the quadrant goes first (R75). (DEDUCED, log entry 33) -/
def State.bundleOk (s : State) (b : Bundle) : Bool :=
  s.bundleFree b && (match s.chainNow b.quad with
        | some ks => ks == b.threads
        | none => s.respectsFormed b && s.selected b && !b.threads.any (s.deferred b.quad))

/-- A bundle of Stalled threads may be tested again (R13). -/
def State.retestOk (s : State) (b : Bundle) : Bool :=
  s.isBundle b && !s.allReady b && (match s.chainNow b.quad with
    | some ks => ks == b.threads || (s.retestsFormed b && !b.threads.any (ks.contains ·))
    | none => s.retestsFormed b)

/-! ### Deferral (R285) -/

/-- Groups that have a thread in a bundle. -/
def Bundle.groups (b : Bundle) : List Nat := (b.threads.map groupOf).eraseDups

/-- A short bundle (R285). -/
def State.short (s : State) (b : Bundle) : Bool :=
  b.groups.any fun g => (s.grp g).live != laneMask (b.threads.filter fun k => groupOf k == g)

/-- Bundles that are neither deferred nor counted (R286). -/
def State.chtExempt (s : State) (b : Bundle) (i : Instr) : Bool :=
  b.threads.any (fun k => (s.thr k).handler || (s.thr k).capsule.isSome || (s.thr k).chain)
    || (match i with | .caps .. | .cend _ => true | _ => false)

/-- The owner slot of a bundle's threads. -/
def State.slotOfBundle (s : State) (b : Bundle) : OSlot := s.slotOfThread (b.threads.headD 0)

/-- A short bundle is deferred at an instruction or a word that traps (R285), `hint` being its DEFER bit, unless its deferral
here has ended, an aged selection takes it (R312) or a bank operation occupies the bank (R217). A bundle that stays formed
counts as forming at each instruction that it comes to. (DEDUCED, log entry 33; DESIGN CHOICE, log entry 104) -/
def State.defersAt (s : State) (b : Bundle) (exempt hint : Bool) : Bool :=
  let k0 := b.threads.headD 0
  let sl := s.slotOfBundle b
  !((s.quadAt b.quad).formed.any fun f => (f.threads == b.threads && f.deferral.isSome) || (f.chosen && b.threads.all (f.threads.contains ·))) && s.short b && !exempt
    && !sl.busy && !s.agedNext b.quad && (sl.bank.defers (quadOf k0) (s.thr k0).pc || hint)

/-- A bundle that forms at an instruction is deferred (R285). -/
def State.deferralDue (s : State) (b : Bundle) (i : Instr) : Bool :=
  s.defersAt b (s.chtExempt b i) (((i.hdr?).map Hdr.defers).getD false)

/-- A thread that may stand in a bundle at a PC. -/
def State.readyAtPc (s : State) (k pc : Nat) : Bool :=
  let t := s.thr k
  !t.stopped && t.state == .ready && t.pc == pc && !t.chain

/-- Threads added to a bundle where their lane is free, those first Ready first (R285); in ascending lane order. -/
def State.joinLanes (s : State) (ks : List Nat) (js : List Nat) : List Nat :=
  ((js.mergeSort fun a b => (s.thr a).readyAt ≤ (s.thr b).readyAt).foldl
    (fun acc j => if acc.any fun k => laneOf k == laneOf j then acc else acc ++ [j]) ks).mergeSort fun a b => laneOf a ≤ laneOf b

/-- The threads of a deferred bundle that still stand in it, and those with the ones that have joined it (R285). -/
def State.deferral (s : State) (b : Bundle) : List Nat × List Nat :=
  let ks := b.threads.filter fun k => (s.threads.find k).isSome && s.readyAtPc k (s.thr k).pc
  let pc := (s.thr (ks.headD 0)).pc
  let gs := (ks.map groupOf).eraseDups
  (ks, s.joinLanes ks (s.threadsIn fun k => gs.contains (groupOf k) && (s.grpOf k).block == (s.grpOf (ks.headD 0)).block && s.readyAtPc k pc))

/-- Every live thread of the groups of a deferred bundle is in it. -/
def State.allPresent (s : State) (d : List Nat × List Nat) : Bool :=
  ((d.1.map groupOf).eraseDups).all fun g => (s.grp g).live == laneMask (d.2.filter fun k => groupOf k == g)

/-- An aged selection would take a thread of the bundle (R312). -/
def State.agedTakes (s : State) (q : Nat) (all : List Nat) : Bool :=
  s.agedNext q && (s.chainNow q).isNone
    && ((s.topOf true (s.candidates q true)).map all.contains).getD false

/-- A deferral ends at a selection (R285, R312): from the cycle after the bundle formed, when every live thread of its
groups is present, in the eighth cycle, or where an aged selection takes it. -/
def State.deferralOver (s : State) (q : Nat) (d : Bundle × Nat) : Bool :=
  let x := s.deferral d.1
  decide (d.2 < s.time) && (s.allPresent x || decide (d.2 + 8 ≤ s.time) || s.agedTakes q x.2)

/-- The bundle of a deferral that has ended, with the threads that joined it. -/
def State.endDeferral (s : State) (q : Nat) (d : Bundle × Nat) : State :=
  let x := s.deferral d.1
  s.modQuad q fun Q =>
    { Q with
      deferred := Q.deferred.filter (· != d)
      formed := if x.2.isEmpty then Q.formed
        else Q.formed.filter (fun f => !f.threads.any (x.2.contains ·)) ++ [⟨x.2, 0, some (decide (x.2.length > x.1.length)), none, false, []⟩] }

/-- The deferrals of a quadrant that a selection ends. -/
def State.endDeferrals (s : State) (q : Nat) : State :=
  (s.quadAt q).deferred.foldl (fun acc d => if s.deferralOver q d then acc.endDeferral q d else acc) s

/-! ### The quadrant as the cycle ends -/

/-- A formed bundle as the cycle ends: one that no longer binds re-forms; inside a chain at the chain's end, at an
instruction in progress after it (R17, R75). -/
def State.keepFormed (s : State) (q : Nat) (f : Formed) : Option Formed :=
  if s.chainNow q == some f.threads || s.binds f then
    some (if f.threads.all s.staysIn then f else { f with reform := some (f.reform.getD false) })
  else none

/-- A quadrant as the cycle ends: deferrals in their eighth cycle end (R285), and bundles re-form. -/
def State.endCycle (s : State) (q : Nat) : State :=
  let s1 := ((s.quadAt q).deferred.filter fun d => d.2 + 8 ≤ s.time).foldl (fun acc d => acc.endDeferral q d) s
  s1.modQuad q fun Q => { Q with formed := Q.formed.filterMap (s1.keepFormed q) }

/-! ### What the CHT learns, and the order of training events (R286, R278) -/

/-- The CHT's learning at an issue (R286): a bundle whose deferral has ended, a short bundle that issues undeferred, a
bundle that follows one in time. The bundle stands as it did in `before`. -/
def State.learnCht (before s : State) (b : Bundle) (i : Instr) : State :=
  if before.chtExempt b i then s
  else
    let k0 := b.threads.headD 0
    let q := b.quad
    let pc := (before.thr k0).pc
    let c := coreOf k0
    let o := (before.grpOf k0).oslot
    let Q := before.quadAt q
    let learn (f : Bank → Bank) (s : State) : State := if (before.slotAt c o).busy then s else s.modBank c o f
    let fresh := Q.recentShort.filter fun r => s.time ≤ r.1 + 8
    let met := fresh.filter fun r => r.2.1 == pc && r.1 < s.time && r.2.2.any (b.groups.contains ·)
    let s1 := met.foldl (fun acc _ => learn (fun bk => bk.learnUndeferred (quadOf k0) pc) acc) s
    let rest := fresh.filter fun r => !met.contains r
    let ended := (Q.formed.find? fun f => f.threads == b.threads).bind (·.deferral)
    match ended with
    | some joined => (learn (fun bk => bk.learnDeferred (quadOf k0) pc joined) s1).modQuad q fun Q => { Q with recentShort := rest }
    | none => s1.modQuad q fun Q => { Q with recentShort := if before.short b then rest ++ [(s.time, pc, b.groups)] else rest }

/-- An issue that may read or change its owner's bank, or loads a ring. -/
def State.trains (s : State) (b : Bundle) (i : Instr) : Bool :=
  (match i with
   | .hxst _ | .hxld _ | .hxclr .. | .hxrd _ | .hxwr _ | .hxcfg _ | .rsring .. | .bra _ | .ld .. | .ldB32Compact .. | .ldB64Compact .. => true
   | _ => false)
    || ((s.slotOfBundle b).bank.eCht && !s.chtExempt b i && (s.short b || !(s.quadAt b.quad).recentShort.isEmpty))

/-- The training events of the quadrants of a core in one cycle come in ascending quadrant order (R278, R217, R65). -/
def State.trainsInOrder (s : State) (b : Bundle) (i : Instr) : Bool :=
  !s.trains b i || (List.range 4).all fun j =>
    decide (j ≤ b.quad % 4) || (s.quadAt (b.quad / 4 * 4 + j)).trained != some s.time

/-! ### The eighth cycle of a deferral (R285) -/

/-- The bundle of a deferral in its eighth cycle, which issues in this cycle where it can. -/
def State.dueBundle (s : State) (q : Nat) : Option Bundle :=
  match (s.quadAt q).deferred.find? fun d => d.2 + 8 ≤ s.time with
  | none => none
  | some d =>
    let b : Bundle := ⟨q, (s.deferral d.1).2⟩
    let k0 := b.threads.headD 0
    let can := s.bundleFree b && (s.chainNow q).isNone && (match s.fetchFor k0 with
      | none => false
      | some _ => match s.instrAt k0 with
        | some i => s.collectiveOk b i && s.trainsInOrder b i
        | none => true)
    if can then some b else none

/-- The rules of selection let a bundle issue now, a deferred one in its eighth cycle before all else. -/
def State.allows (s : State) (b : Bundle) : Bool :=
  match s.dueBundle b.quad with
  | some d => d == b
  | none => (s.endDeferrals b.quad).bundleOk b

/-- A bundle of some quadrant has to issue before the cycle ends. -/
def State.issueDue (s : State) : Bool := s.quads.any fun Q => (s.dueBundle Q.1).isSome

end Sys2Proof.Machine
end

