-- ==== Sys2Proof/Machine/Preempt.lean ====
section
/-! DEFINITION. What the dispatcher, the context engine and the command queues share: structures read and written at
intermediate addresses (13 R295, 14 R329), the request of a pre-emption (14 R323, R325) and the end of a saved
context's wait (14 R334). -/

namespace Sys2Proof.Machine

/-! ### Intermediate addresses -/

/-- Bytes read through stage 2 alone, within a page. -/
def State.readIpa (s : State) (p ipa n : Nat) : Option (List Byte) :=
  match s.ipaToPa p ipa .load with
  | .ok pa => if s.isPoisoned pa n then none else some ((List.range n).flatMap fun i => s.homeBytes (pa + i) 1)
  | .error _ => none

/-- A fault on an area at intermediate addresses: its address, the address at which stage 2 failed, and ACC (R319, R333). -/
structure AreaFault where
  va : Nat
  ipa : Nat
  acc : Nat
deriving DecidableEq, Repr

/-- The first page of a run of bytes at intermediate addresses that cannot be accessed. -/
def State.ipaFault (s : State) (p ipa n : Nat) (acc : Acc) : Option AreaFault :=
  (List.range ((ipa % 65536 + n + 65535) / 65536)).findSome? fun i =>
    let a := if i = 0 then ipa else (ipa / 65536 + i) * 65536
    match s.ipaToPa p a acc with
    | .ok _ => none
    | .error (.fault _ _ w) => some ⟨a, a, accBits acc w⟩
    | .error _ => some ⟨a, 0, accBits acc false⟩

/-- Bytes written through stage 2 alone; a byte whose page is not mapped is not written. The largest GWCT. -/
def State.writeIpaRun (s : State) (p ipa : Nat) (bs : List Byte) : State × Nat :=
  (List.range ((ipa % 65536 + bs.length + 65535) / 65536)).foldl (fun (acc : State × Nat) i =>
    let a := if i = 0 then ipa else (ipa / 65536 + i) * 65536
    match s.ipaToPa p a .store with
    | .ok pa =>
      let w := acc.1.writeLines none pa ((bs.drop (a - ipa)).take (65536 - a % 65536))
      (w.1, max acc.2 w.2)
    | .error _ => acc) (s, 0)

def State.writeIpa (s : State) (p ipa : Nat) (bs : List Byte) : State := (s.writeIpaRun p ipa bs).1

/-- Bytes read through stage 2 alone, over pages that are all mapped. -/
def State.readIpaRun (s : State) (p ipa n : Nat) : List Byte :=
  (List.range n).map fun i => match s.ipaToPa p (ipa + i) .load with
    | .ok pa => (s.homeBytes pa 1).headD 0
    | .error _ => 0

/-! ### Contexts -/

/-- A context's entry, made when the partition first uses it; a serial counter runs on across partitions (R343).
(DEDUCED, log entry 63) -/
def State.ensureCtx (s : State) (p x : Nat) : State :=
  match s.ctxs.find x with
  | some c => if c.part == p then s else { s with ctxs := s.ctxs.put x { Ctx.blank p with serial := c.serial } }
  | none => { s with ctxs := s.ctxs.put x (.blank p) }

/-- Blocks and retire records of a context. -/
def State.ctxBlocks (s : State) (x : Nat) : List Nat := (s.blocks.filter fun b => s.ctxOfGrid b.2.grid == x).map (·.1)

/-- The threads of a context, in key order. -/
def State.ctxThreads (s : State) (x : Nat) : List Nat := s.threadsIn fun k => s.ctxOfGrid (s.blkOf k).grid == x

/-- Cores where a context has a resident block, an engine operation or a retire record (R323). -/
def State.ctxCores (s : State) (x : Nat) : List Nat :=
  (((s.ctxBlocks x).map fun b => (s.blk b).core) ++ (s.engOps.filter fun o => o.2.ctx == x && !o.2.complete).map (·.2.core)).eraseDups

/-- The engine classes that acknowledge (R325, R327); monitors never do. -/
def ackClasses : List Nat := [0, 1, 2, 3, 4, 5, 6, 7, 9]

/-- A saved context without a frame has nothing to restore. -/
def Ctx.settle (c : Ctx) : Ctx := if c.suspended == some .eligible && c.frames.isEmpty then { c with suspended := none } else c

/-- Of two reasons to stay saved, the one that lasts. -/
def Held.max : Held → Held → Held
  | .software, _ => .software
  | _, .software => .software
  | .dispatcher, _ => .dispatcher
  | _, h => h

/-- The owner slots of a core whose resident groups are all of a context, and at least one. -/
def State.ctxSlots (s : State) (c x : Nat) : List Nat :=
  (List.range 4).filter fun o =>
    let gs := s.groups.filter fun g => g.1 / 64 == c && g.2.oslot == o
    !gs.isEmpty && gs.all fun g => s.ctxOfGrid (s.blk g.2.block).grid == x

/-- The ring slots of a core whose builds a pre-emption aborts (R325), with their last loads.
(DEDUCED, log entry 38) -/
def State.buildsOf (s : State) (c x : Nat) : List SavedRing :=
  let C := s.coreAt c
  (List.range 4).filterMap fun n =>
    let r := C.rings.getD n .none
    match r.last with
    | some (ws, o) => if r.queue.any (·.words.isSome) && (s.ctxSlots c x).contains o then some ⟨(C.oslots.getD o .empty).owner, o, n, ws⟩ else none
    | none => none

/-- The builds of a context on a core aborted, their ring slots cleared. -/
def State.abortBuilds (s : State) (c x : Nat) : State :=
  (s.buildsOf c x).foldl (fun (acc : State) r => acc.modCore c fun C => { C with rings := C.rings.modify r.slot Ring.clear }) s

/-- The request of a pre-emption (R323). A context in pre-emption or saved already only takes the longer hold. -/
def State.beginPreempt (s : State) (x : Nat) (kind : Held) : State :=
  match s.ctxs.find x with
  | none => s
  | some c =>
    match c.preemption, c.suspended with
    | some q, _ => s.modCtx x fun c => { c with preemption := some { q with kind := q.kind.max kind } }
    | none, some h => s.modCtx x fun c => { c with suspended := some (h.max kind) }
    | none, none =>
      let cores := s.ctxCores x
      (cores.foldl (fun (acc : State) i => acc.abortBuilds i x) s).modCtx x fun c =>
        { c with
          preemption := some
            { since := s.time, kind := kind, missing := cores.flatMap fun i => ackClasses.map fun cls => (i, cls)
              framesDue := cores, latePosted := false, parked := [], packets := []
              rings := cores.flatMap fun i => (s.buildsOf i x).map fun r => (i, r), written := [] } }

/-! ### Packets (R323, R324) -/

/-- A pending load that is saved as a packet. -/
def Req.isPacket (q : Req) : Bool := match q.kind with | .load .. => true | _ => false

/-- Requests that a pre-emption awaits (R323): all but loads, the reads of an instruction that then has not been executed,
prefetches and the requests of an SMAP. -/
def Req.awaited (q : Req) : Bool :=
  match q.kind with
  | .load .. | .memo .. | .pref _ | .own .. => false
  | _ => true

/-- The block number of requests whose thread has been saved: no block has it, so that their returns are dropped. -/
def staleBlock : Nat := 2 ^ 64

/-- The tag that a slot moves to. -/
def State.nextTag (s : State) (g : Nat) : Nat := ((s.slotTags.find g).getD 0 + 1) % 16

/-- Requests bear the tag that a saved slot would move to (R324). -/
def State.tagWaits (s : State) (g : Nat) : Bool := s.reqs.any fun r => groupOf r.2.thread == g && r.2.tag == s.nextTag g

/-- No thread of the group runs on inside a chain or a draw: one that is Stopped or Parked there does not. -/
def State.groupQuiet (s : State) (g : Nat) : Bool :=
  (s.threadsIn fun k => groupOf k == g).all fun k =>
    let t := s.thr k
    (!t.chain || t.isStopped || (match t.state with | .parked _ => true | _ => false)) && !s.draws k

/-- The outstanding loads of a stopped group become packets and its slot takes the next tag (R323, R324): what was asked for
returns to no one, but for what the pre-emption awaits. -/
def State.parkGroup (s : State) (x g : Nat) : State :=
  let mine (q : Req) : Bool := groupOf q.thread == g && s.isOf q.thread q
  let loads := (s.reqs.filter fun r => mine r.2 && r.2.isPacket).map (·.2)
  let owed := (s.ctxAt x).packets.filter fun q => groupOf q.thread == g
  let s1 : State := { s with
    slotTags := s.slotTags.put g (s.nextTag g)
    reqs := Tbl.changeAll (fun _ q =>
        if !mine q then q else if q.awaited then { q with tag := s.nextTag g } else { q with block := staleBlock })
      (s.reqs.filter fun r => !(mine r.2 && r.2.kind.holds))
    threads := s.threads.changeAll fun k t => if groupOf k == g then { t with memo := [] } else t }
  s1.modCtx x fun c =>
    { c with
      packets := c.packets.filter fun q => groupOf q.thread != g
      preemption := c.preemption.map fun q => { q with parked := g :: q.parked, packets := q.packets ++ owed ++ loads } }

/-- The groups of a context whose loads are still to become packets. -/
def State.unparked (s : State) (x : Nat) (q : Preemption) : List Nat :=
  ((s.ctxBlocks x).flatMap fun b => (s.blk b).groups).filter fun g => !q.parked.contains g

/-- The groups stopped by pre-emptions, as the cycle ends: a return that arrives in the cycle of the capture comes first
(R324). (DEDUCED, log entry 38) -/
def State.parkStopped (s : State) : State :=
  s.ctxs.foldl (fun (acc : State) (c : Nat × Ctx) =>
    match c.2.preemption with
    | none => acc
    | some q => ((acc.unparked c.1 q).filter fun g => acc.groupQuiet g && !acc.tagWaits g).foldl (fun a g => a.parkGroup c.1 g) acc) s

/-- The wait of a saved context ends: it may be restored (R334). -/
def State.release (s : State) (x : Nat) (from' : Held) : State :=
  s.modCtx x fun c =>
    match c.preemption, c.suspended with
    | some q, _ => if q.kind == from' then { c with preemption := some { q with kind := .eligible } } else c
    | none, some h => if h == from' then ({ c with suspended := some .eligible } : Ctx).settle else c
    | none, none => c

/-- A context that neither is being pre-empted nor has anything saved: its continuations may be placed (R310, R323). -/
def State.ctxRestored (s : State) (x : Nat) : Bool :=
  match s.ctxs.find x with
  | some c => c.preemption.isNone && c.suspended.isNone
  | none => true

/-- The dispatcher places no block of a context that is being pre-empted or held (R323). -/
def State.ctxPlaces (s : State) (x : Nat) : Bool :=
  match s.ctxs.find x with
  | some c => c.preemption.isNone && (match c.suspended with | none => true | some h => h == .eligible)
  | none => true

/-! ### The history save of a reassignment or a pre-emption (R287, R325) -/

/-- The owner descriptor's address (R295). -/
def State.ownerDescAt (s : State) (p o : Nat) : Nat := (s.partAt p).ownerTable + 128 * o

/-- Bit `core` of an owner's history-present map set. -/
def State.setHpmap (s : State) (p o core : Nat) : State × Nat :=
  let a := s.ownerDescAt p o + 0x40 + core / 8
  match s.readIpa p a 1 with
  | some bs => s.writeIpaRun p a [BitVec.ofNat 8 (leNat bs ||| 2 ^ (core % 8))]
  | none => (s, 0)

/-- The save step: the bank of a slot that holds an owner goes to its save area and the map is marked. The largest GWCT. -/
def State.saveBankRun (s : State) (c o : Nat) : State × Nat :=
  let sl := s.slotAt c o
  if !sl.valid then (s, 0)
  else
    let w := s.writeIpaRun (s.partOf c) (sl.hsave + 1536 * c) sl.bank.image
    let v := w.1.setHpmap (s.partOf c) sl.owner c
    (v.1, max w.2 v.2)

def State.saveBank (s : State) (c o : Nat) : State := (s.saveBankRun c o).1

/-- The fault that the save of a slot's bank would meet. -/
def State.saveFault (s : State) (c o : Nat) : Option AreaFault :=
  let sl := s.slotAt c o
  if !sl.valid then none
  else s.ipaFault (s.partOf c) (sl.hsave + 1536 * c) 1536 .store <|> s.ipaFault (s.partOf c) (s.ownerDescAt (s.partOf c) sl.owner) 128 .store

/-- A save or restore of a context that met a fault (R333): its record, and the core frozen until the replay.
(DEDUCED, log entry 36) -/
def State.stallArea (s : State) (kind c x : Nat) (f : AreaFault) : State :=
  let p := s.partOf c
  let r := { FaultRec.blank with ctx := x, src := 6, kind := kind, va := f.va, ipa := f.ipa, acc := f.acc, core := c }
  let (s1, seq) := s.post p r (some (if kind = 10 then .saving c x else .restoring c x))
  s1.modCore c fun C => { C with frozen := some seq }

end Sys2Proof.Machine
end

