-- ==== Sys2Proof/Machine/Mailbox.lean ====
section
/-! DEFINITION. The debug monitor's message ring (21 R404) and the messages of DBGMSG and of stops. -/

namespace Sys2Proof.Machine

/-- The 32 bytes of a message entry. -/
def MailEntry.bytes (m : MailEntry) : List Byte :=
  leBytes 8 (m.kind * 2 ^ 56 + addr48 m.pc) ++ leBytes 8 (m.owner * 2 ^ 48 + m.tid % 2 ^ 32)
    ++ leBytes 8 (m.b % 2 ^ 32 * 2 ^ 32 + m.a % 2 ^ 32) ++ leBytes 8 (m.core * 2 ^ 40 + m.quad * 2 ^ 38 + m.slot * 2 ^ 34)

/-- A count in a ring's header, at an offset. -/
def State.ringCount (s : State) (p ring o : Nat) : Option Nat := (s.readIpa p (ring + o) 8).map leNat

/-- PROD of a ring with room for one more entry of 2^n; none where it is full or cannot be read. -/
def State.ringRoom (s : State) (p ring log2n : Nat) : Option Nat :=
  match s.ringCount p ring 0, s.ringCount p ring 8 with
  | some prod, some cons => if ahead 64 prod cons < 2 ^ log2n then some prod else none
  | _, _ => none

/-- An entry written into a ring and PROD raised. -/
def State.ringWrite (s : State) (p ring log2n size prod : Nat) (bs : List Byte) : State :=
  (s.writeIpa p (ring + 64 + size * (prod % 2 ^ log2n)) bs).writeIpa p ring (leBytes 8 ((prod + 1) % 2 ^ 64))

def State.modDbg (s : State) (p : Nat) (f : Dbg → Dbg) : State := s.modPart p fun P => { P with dbg := P.dbg.map f }

/-- A message written into MRING at a count; the engine's later STATUS waits for its GWCT (R399). -/
def State.mailWrite (s : State) (p : Nat) (d : Dbg) (prod : Nat) (m : MailEntry) : State :=
  let w := s.writeIpaRun p (d.mring + 64 + 32 * (prod % 2 ^ d.mlog2)) m.bytes
  let c := w.1.writeIpaRun p d.mring (leBytes 8 ((prod + 1) % 2 ^ 64))
  c.1.modDbg p fun d => { d with wct := max d.wct (max w.2 c.2) }

/-- The first of the messages that wait for room is written where there is room (R404). -/
def State.mailboxPost (s : State) (p : Nat) : State :=
  match (s.partAt p).dbg with
  | none => s
  | some d =>
    match d.held, s.ringRoom p d.mring d.mlog2 with
    | m :: ms, some prod => (s.modDbg p fun d => { d with held := ms }).mailWrite p d prod m
    | _, _ => s

/-- The messages that wait for room go first. -/
def State.mailboxFlush (s : State) (p : Nat) : State :=
  match (s.partAt p).dbg with
  | none => s
  | some d => d.held.foldl (fun (acc : State) _ => acc.mailboxPost p) s

/-- The attached monitor and PROD of its message ring, where no message waits and there is room. -/
def State.mailRoom (s : State) (p : Nat) : Option (Dbg × Nat) :=
  (s.partAt p).dbg.bind fun d => if d.held.isEmpty then (s.ringRoom p d.mring d.mlog2).map fun n => (d, n) else none

/-- An entry that waits for room: STOP and STEPDONE. -/
def State.postStop (s : State) (p : Nat) (m : MailEntry) : State :=
  let s1 := s.mailboxFlush p
  match s1.mailRoom p with
  | some (d, prod) => s1.mailWrite p d prod m
  | none => s1.modDbg p fun d => { d with held := d.held ++ [m] }

/-- A message about a thread. -/
def State.mailOf (s : State) (k kind b a : Nat) : MailEntry :=
  ⟨kind, (s.thr k).pc, (s.slotOfThread k).owner, (s.thr k).ident.tid, b, a, coreOf k, quadOf k, slotOf k⟩

/-- A STOP entry for the lanes of one group: cause 1 command, 2 BKPT, 3 child start, 4 step. -/
def State.stopMail (s : State) (ks : List Nat) (cause : Nat) : State :=
  match ks with
  | [] => s
  | k :: _ => s.postStop (s.partOf (coreOf k)) (s.mailOf k 2 cause (laneMask ks).toNat)

/-- DBGMSG of a lane (R229): to the mailbox of an attached monitor, otherwise to the trace fabric, whose buffer may or
may not have room. A message of a protected world, or one without room, is dropped and counted.
(DESIGN CHOICE, log entry 45) -/
def State.dbgMessage (s : State) (k a b : Nat) : State :=
  let p := s.partOf (coreOf k)
  let P := s.partAt p
  let drop (u : State) : State := u.modPart p fun P => { P with drops := P.drops + 1 }
  if P.world then drop s
  else if P.dbg.isSome then
    let s1 := s.mailboxFlush p
    match s1.mailRoom p with
    | some (d, prod) => s1.mailWrite p d prod (s.mailOf k 1 b a)
    | none => drop s1
  else if s.free (k * 4 + 1) % 2 = 0 then s else drop s

end Sys2Proof.Machine
end

