-- ==== Sys2Proof/Machine/Dispatcher.lean ====
section
/-! DEFINITION. The dispatcher (13 R295–R310, R314): descriptors and records, notify and the hardware queue slots,
launches, owner slots and their reassignment (11 R287–R289), placement, carve-outs, completion. -/

namespace Sys2Proof.Machine

/-! ### Descriptors and records (R295–R298) -/

/-- A little-endian field of a structure in memory: offset and bytes. -/
def at' (bs : List Byte) (o n : Nat) : Nat := leNat ((bs.drop o).take n)

/-- A context descriptor (R295). -/
structure OwnerDesc where
  udivt : Bool
  valid : Bool
  owner : Nat
  s1root : Nat
  tvec : Nat
  hsave : Nat
  cqBase : Nat
  cqLog2 : Nat
  hpmap : Nat
deriving DecidableEq, Repr

def OwnerDesc.ofBytes (bs : List Byte) : OwnerDesc where
  udivt := bit (at' bs 0 8) 17
  valid := bit (at' bs 0 8) 16
  owner := at' bs 0 2
  s1root := addr48 (at' bs 8 8)
  tvec := addr48 (at' bs 0x10 8)
  hsave := addr48 (at' bs 0x18 8)
  cqBase := addr48 (at' bs 0x20 8)
  cqLog2 := field (at' bs 0x28 8) 0 5
  hpmap := at' bs 0x40 32

/-- The valid context descriptor of an owner in a partition. -/
def State.ownerDesc (s : State) (p o : Nat) : Option OwnerDesc :=
  if o = 0 then none
  else match s.readIpa p (s.ownerDescAt p o) 128 with
    | some bs => let d := OwnerDesc.ofBytes bs; if d.valid && d.owner == o then some d else none
    | none => none

/-- A queue descriptor (R297). -/
structure QueueDesc where
  ring : Nat
  maskp : Nat
  ctx : Nat
  prio : Nat
  valid : Bool
  log2n : Nat
deriving DecidableEq, Repr

def QueueDesc.ofBytes (bs : List Byte) : QueueDesc where
  ring := addr48 (at' bs 0 8)
  maskp := addr48 (at' bs 8 8)
  ctx := field (at' bs 0x10 4) 16 12
  prio := field (at' bs 0x10 4) 9 3
  valid := bit (at' bs 0x10 4) 8
  log2n := field (at' bs 0x10 4) 0 5

/-- The descriptor of a queue; one that cannot be read is not valid. -/
def State.queueDesc (s : State) (p q : Nat) : QueueDesc :=
  match s.readIpa p ((s.partAt p).queueTable + 64 * q) 64 with
  | some bs => .ofBytes bs
  | none => ⟨0, 0, 0, 0, false, 0⟩

/-- A partition's queues and slots (R367). -/
def Part.hasQueue (p : Part) (q : Nat) : Bool := p.qBase ≤ q && q ≤ p.qBase + p.qCnt1
def Part.hasSlot (p : Part) (sl : Nat) : Bool := p.slBase ≤ sl && sl ≤ p.slBase + p.slCnt1

/-- The partition that a queue belongs to. -/
def State.queuePart (s : State) (q : Nat) : Option Nat := (s.parts.find? fun p => p.2.hasQueue q).map (·.1)

/-- A kernel descriptor (R296). -/
def KernelDesc.ofBytes (bs : List Byte) : KernelDesc :=
  let w := at' bs 0x14 4
  { entry := addr48 (at' bs 0 8)
    cbase := addr48 (at' bs 8 8)
    scratch := field (at' bs 0x10 4) 0 20
    carve := field w 14 2
    cunits := field w 7 7
    rg := field w 0 5
    reservedOk := at' bs 6 2 == 0 && at' bs 14 2 == 0 && field (at' bs 0x10 4) 20 12 == 0 && field w 16 16 == 0
      && field w 5 2 == 0 && at' bs 0x18 8 == 0 }

/-- Every field of a kernel descriptor within its range. -/
def KernelDesc.ok (k : KernelDesc) : Bool :=
  k.reservedOk && k.entry % 4 == 0 && k.cbase % 4096 == 0 && k.cunits ≤ 64 && 2 ≤ k.rg && k.rg ≤ 28

/-- A launch record (R298). -/
def LaunchRec.ofBytes (bs : List Byte) : LaunchRec :=
  let w := at' bs 0x10 4
  let x := at' bs 0x14 4
  { kdesc := addr48 (at' bs 0 8)
    gx := at' bs 8 4
    gy := at' bs 0x0C 2
    gz := at' bs 0x0E 2
    owner := field w 16 16
    ntid := field w 0 12
    pre := bit x 7
    prio := field x 4 3
    ovl := bit x 3
    nwait := field x 0 3
    maskp := addr48 (at' bs 0x18 8)
    waitp := addr48 (at' bs 0x20 8)
    donew := addr48 (at' bs 0x28 8)
    paramp := addr48 (at' bs 0x30 8)
    reservedOk := at' bs 6 2 == 0 && field w 12 4 == 0 && field x 8 24 == 0 && at' bs 0x1E 2 == 0 && at' bs 0x26 2 == 0
      && at' bs 0x2E 2 == 0 && at' bs 0x36 2 == 0 && at' bs 0x38 8 == 0 }

/-! ### Slots and notify (R299–R301, R303) -/

/-- The grids of a queue that have not completed. -/
def State.queueGrids (s : State) (q : Nat) : Tbl Launch := s.launches.filter fun l => l.2.queue == some q && !l.2.complete

/-- A queue is idle (R299); a halted one whatever PROD holds (R303). -/
def State.queueIdle (s : State) (q : Nat) : Bool :=
  let Q := s.queueAt q
  (Q.halted || Q.prod == Q.cons) && (s.queueGrids q).isEmpty

def State.qslotAt (s : State) (sl : Nat) : QSlot := (s.qslots.find sl).getD ⟨none, 0⟩

/-- A slot is releasable for a queue (R299). -/
def State.releasable (s : State) (p sl q : Nat) : Bool :=
  match (s.qslotAt sl).queue with
  | none => true
  | some o => s.queueIdle o ||
      ((s.queueGrids o).all (·.2.record.pre) && decide ((s.queueDesc p o).prio < (s.queueDesc p q).prio))

/-- The slot that a notify takes (R300, step 2): among the releasable, idle before not, then the longest idle or the lowest QPRIO,
then the lowest number. -/
def State.bestSlot (s : State) (p q : Nat) : Option Nat :=
  let P := s.partAt p
  let slots := (List.range (P.slCnt1 + 1)).map (· + P.slBase)
  let rank (sl : Nat) : Nat × Nat :=
    match (s.qslotAt sl).queue with
    | none => (0, (s.qslotAt sl).idleSince)
    | some o => if s.queueIdle o then (0, (s.qslotAt sl).idleSince) else (1, (s.queueDesc p o).prio)
  (slots.filter fun sl => s.releasable p sl q).foldl (fun best sl =>
    match best with
    | none => some sl
    | some b =>
      let x := rank sl
      let y := rank b
      if x.1 < y.1 || (x.1 == y.1 && x.2 < y.2) then some sl else best) none

/-- A queue mapped to a slot; the queue it held, if not idle, is pre-empted and becomes pending unless halted. -/
def State.mapSlot (s : State) (p q sl : Nat) : State :=
  let s1 := match (s.qslotAt sl).queue with
    | none => s
    | some o =>
      let s' := s.modQueue o fun Q => { Q with slot := none, pending := !s.queueIdle o && !Q.halted }
      if s.queueIdle o then s' else (s'.ensureCtx p (s.queueDesc p o).ctx).beginPreempt (s.queueDesc p o).ctx .dispatcher
  let s2 := s1.modQueue q fun Q => { Q with slot := some sl, pending := false }
  ({ s2 with qslots := s2.qslots.put sl ⟨some q, s.time⟩ } : State).release (s.queueDesc p q).ctx .dispatcher

/-- A record that concerns a queue. -/
def queueRec (x q kind : Nat) : FaultRec := { FaultRec.blank with ctx := x, src := 5, kind := kind, queue := q }

/-- Steps 1 to 3 of a valid notify (R300). -/
def State.serveQueue (s : State) (p q : Nat) : State :=
  if (s.queueAt q).slot.isSome then s
  else match s.bestSlot p q with
    | some sl => s.mapSlot p q sl
    | none =>
      if (s.queueAt q).pending then s
      else (((s.modQueue q fun Q => { Q with pending := true }).post p (queueRec (s.queueDesc p q).ctx q 7) none)).1

/-- The pending queue that a slot takes (R301): the search starts after the queue last mapped from the pending map. -/
def State.pendingFor (s : State) (p sl : Nat) : Option Nat :=
  let P := s.partAt p
  let start := match P.lastMapped with | some q => q + 1 - P.qBase | none => 0
  let n := P.qCnt1 + 1
  ((List.range n).map fun i => P.qBase + (start + i) % n).find? fun q => (s.queueAt q).pending && s.releasable p sl q

/-- PENDING_MAP (R301). -/
def State.pendingMap (s : State) (sl : Nat) : State :=
  match s.parts.find? fun p => p.2.hasSlot sl with
  | none => s
  | some (p, _) =>
    match s.pendingFor p sl with
    | some q => (s.mapSlot p q sl).modPart p fun P => { P with lastMapped := some q }
    | none => s

/-- Every slot of a partition that is releasable for a pending queue takes it (R301). -/
def State.mapPending (s : State) (p : Nat) : State :=
  let P := s.partAt p
  ((List.range (P.slCnt1 + 1)).map (· + P.slBase)).foldl (fun acc sl => acc.pendingMap sl) s

/-- A slot whose queue has gone idle notes when, and one that has become releasable for a pending queue takes it at once
(R300, R301). -/
def State.noteIdle (s : State) (q : Nat) : State :=
  match (s.queueAt q).slot with
  | some sl => (if s.queueIdle q then { s with qslots := s.qslots.put sl ⟨some q, s.time⟩ } else s).pendingMap sl
  | none => s

/-- A queue that was not idle before may have gone idle. -/
def State.idleFrom (before s : State) (q : Nat) : State := if before.queueIdle q then s else s.noteIdle q

/-- Every partition's pending queues for which a slot is releasable are mapped, whatever made it so: a change of QPRIO in the
queue table too (R301). -/
def State.mapAll (s : State) : State :=
  if s.queues.any fun q => q.2.pending then s.parts.foldl (fun acc p => acc.mapPending p.1) s else s

/-- A notify: PROD written (R300). A mapped queue that it leaves idle is idle from then on. -/
def State.notifyQueue (s : State) (q prod : Nat) : State :=
  match s.queuePart q with
  | none => s
  | some p =>
    let d := s.queueDesc p q
    if !d.valid then s.modPart p fun P => { P with notifyErrors := P.notifyErrors + 1 }
    else
      let s1 := s.modQueue q fun Q => { Q with prod := prod % 2 ^ 32 }
      let Q := s1.queueAt q
      if Q.halted then s1
      else if ahead 32 Q.prod Q.cons > 2 ^ d.log2n then
        s.idleFrom (((s1.modQueue q fun Q => { Q with halted := true }).post p (queueRec d.ctx q 9) none).1) q
      else s.idleFrom (s1.serveQueue p q) q

/-! ### Records checked (R302) -/

/-- A physical address through an owner's translation, as the dispatcher reads records. -/
def State.ownerPa (s : State) (p : Nat) (d : OwnerDesc) (va n : Nat) (acc : Acc) : Option Nat :=
  if inWindow va then none
  else match s.walk p d.owner d.s1root va acc with
    | .ok x => if s.isPoisoned x.pa n then none else some x.pa
    | .error _ => none

/-- Bytes of the home through an owner's translation. -/
def State.ownerRead (s : State) (p : Nat) (d : OwnerDesc) (va n : Nat) : Option (List Byte) :=
  (s.ownerPa p d va n .load).map fun pa => (List.range n).flatMap fun i => s.homeBytes (pa + i) 1

/-- The cores that a mask of 32 bytes names. -/
def maskCores (bs : List Byte) : List Nat := (List.range 256).filter fun c => bit (leNat bs) c

/-- The cores of a partition. -/
def State.partCores (s : State) (p : Nat) : List Nat := (s.cores.filter fun c => c.2.part == some p && !c.2.leaving).map (·.1)

/-- Slots per lane for an allocation of 8 × RG registers (R21), and the largest block. -/
def largestBlock (rg : Nat) : Nat := min 16 (1024 / (8 * rg)) * 128

/-- Bytes of scratchpad under a carve-out (R249). -/
def spadArea (carve : Nat) : Nat := match carve with | 0 => 896 * 1024 | 1 => 768 * 1024 | _ => 512 * 1024

/-- A carve-out satisfies CARVE (R296). -/
def carveOk (want carve : Nat) : Bool := want == 0 || want == carve + 1

/-- What a checked record gives its launch. -/
structure Checked where
  kd : KernelDesc
  waits : List (Nat × Nat)
  params : List Word
  mask : List Nat
deriving DecidableEq, Repr

/-- The wait entries of a launch: physical addresses and targets; none where an entry cannot be used. -/
def State.waitEntries (s : State) (p : Nat) (d : OwnerDesc) (r : LaunchRec) : Option (List (Nat × Nat)) :=
  match s.ownerRead p d r.waitp 64 with
  | none => if r.nwait = 0 then some [] else none
  | some bs => (List.range (min r.nwait 4)).mapM fun i =>
      let va := addr48 (at' bs (16 * i) 8)
      if va % 8 ≠ 0 then none else (s.ownerPa p d va 8 .load).map fun pa => (pa, at' bs (16 * i + 8) 8)

/-- Every address of the record aligned. -/
def LaunchRec.aligned (r : LaunchRec) : Bool :=
  r.kdesc % 32 == 0 && r.maskp % 32 == 0 && (r.nwait == 0 || r.waitp % 64 == 0) && r.donew % 8 == 0 && r.paramp % 64 == 0

/-- The checks of R302 in their order: the reason, or the launch's data. `base` is the mask it is cut from.
Whether reason 2 takes in the reserved fields of the launch record is not said: it does here, before all that asks for
the owner's descriptor. (DEDUCED, log entry 27; DESIGN CHOICE, log entry 95) -/
def State.checkRecord (s : State) (p : Nat) (r : LaunchRec) (owner : Nat) (base : List Nat) : Except Nat Checked :=
  if !r.aligned then .error 1
  else
    let shape := 1 ≤ r.gx && r.gx < 2 ^ 31 && 1 ≤ r.gy && 1 ≤ r.gz && 1 ≤ r.ntid && r.ntid ≤ 2048 && r.nwait ≤ 4
    match s.ownerDesc p owner with
    | none => if !r.reservedOk then .error 2 else if shape then .error 4 else .error 3
    | some d =>
      match s.ownerRead p d r.kdesc 32, (if r.maskp = 0 then some [] else s.ownerRead p d r.maskp 32), s.waitEntries p d r,
          (if r.paramp = 0 then some [] else s.ownerRead p d r.paramp 64) with
      | some kb, some mb, some ws, some pb =>
        if r.donew ≠ 0 && (s.ownerPa p d r.donew 8 .atomic).isNone then .error 1
        else
          let kd := KernelDesc.ofBytes kb
          if !kd.ok || !r.reservedOk then .error 2
          else if !shape then .error 3
          else if r.ntid > largestBlock kd.rg then .error 5
          else if !((List.range 3).any fun c => carveOk kd.carve c && kd.scratch ≤ spadArea c) then .error 6
          else
            let mask := base.filter fun c => r.maskp == 0 || (maskCores mb).contains c
            if mask.isEmpty then .error 7
            else .ok ⟨kd, ws, (List.range 16).map fun k => BitVec.ofNat 32 (at' pb (4 * k) 4), mask⟩
      | _, _, _, _ => .error 1

/-! ### Completion words and children (R314, R112) -/

/-- 1 added to a completion word as an RMW at its home. -/
def State.addDone (s : State) (p owner va : Nat) : State :=
  if va = 0 then s
  else match s.ownerDesc p owner with
    | none => s
    | some d =>
      match s.walk p d.owner d.s1root va .atomic with
      | .error _ => s
      | .ok x =>
        let bs := leBytes 8 ((leNat (s.homeBytes x.pa 8) + 1) % 2 ^ 64)
        if x.sync then (s.sluiceWrite none true x.pa bs).1
        else if onHostPath s x.pa then s.storeBytes x.pa bs
        else (s.writeHome none x.pa bs).1

/-- The threads whose CJOIN has nothing more to wait for return from it (R112), but for Stopped ones (R400). -/
def State.wakeJoins (s : State) : State :=
  let hit := s.threads.filterMap fun kt =>
    match kt.2.state with
    | .waiting (.cjoin h b) => if s.joined kt.1 h b && !kt.2.isStopped then some (kt.1, h, b) else none
    | _ => none
  hit.foldl (fun acc x => acc.joinChildren x.1 x.2.1 x.2.2)
    (hit.foldl (fun acc x => acc.modThr x.1 fun t => t.ready s.time) s)

/-! ### Records consumed (R301, R302, R309) -/

/-- A launch made of a checked record. -/
def mkLaunch (s : State) (queue : Option Nat) (index p x : Nat) (r : LaunchRec) (c : Checked) (depth : Nat) (pred : Option Nat)
    (parent : Option (Nat × Nat)) : Launch :=
  { queue := queue, index := index, part := p, ctx := x, record := r, kd := c.kd, depth := depth, mask := c.mask
    waits := c.waits, params := c.params, pred := pred, consumedAt := s.fresh, readyAt := none, boosts := 0, boostedAt := 0
    nextBlock := 0, live := 0, complete := false, parent := parent, gwct := 0, startStopped := false, pool := []
    markedCore := none }

/-- A rejected launch (R302): its DONEW and its event. (DEDUCED, log entry 27) -/
def State.rejectLaunch (s : State) (p x q index : Nat) (r : LaunchRec) (owner reason : Nat) : State :=
  let rec' := { queueRec x q 8 with owner := owner, detail := reason, prog := index }
  ((s.addDone p owner r.donew).post p rec' none).1

/-- The record at a queue's CONS. -/
def State.queueRecord (s : State) (p : Nat) (d : QueueDesc) (cons : Nat) : Option (List Byte) :=
  s.readIpa p (d.ring + 64 * (cons % 2 ^ d.log2n)) 64

/-- The launch before the next of a queue (R304); a rejected one has completed. -/
def State.lastOf (s : State) (q : Nat) : Option Nat := (s.queueAt q).last

/-- The cores that a queue's mask leaves of its partition's; MASKP is the mask's address, 0 too (R297). -/
def State.queueMask (s : State) (p : Nat) (d : QueueDesc) : Option (List Nat) :=
  (s.readIpa p d.maskp 32).map fun mb => (s.partCores p).filter ((maskCores mb).contains ·)

/-- The launch record at a queue's CONS; what cannot be read reads as nothing. -/
def State.nextRecord (s : State) (p q : Nat) : LaunchRec :=
  .ofBytes ((s.queueRecord p (s.queueDesc p q) (s.queueAt q).cons).getD [])

/-- The record at a queue's CONS checked: a record or a mask that cannot be read is reason 1 (R302). -/
def State.checkQueue (s : State) (p q : Nat) : Except Nat Checked :=
  let d := s.queueDesc p q
  if (s.queueRecord p d (s.queueAt q).cons).isNone then .error 1
  else match s.queueMask p d with
    | some m => s.checkRecord p (s.nextRecord p q) (s.nextRecord p q).owner m
    | none => .error 1

/-- A hardware queue slot reads a record. -/
def State.consumeQueue (s : State) (p q : Nat) : State :=
  let Q := s.queueAt q
  if Q.halted || Q.prod == Q.cons then s
  else
    let d := s.queueDesc p q
    let r := s.nextRecord p q
    let s1 := (s.ensureCtx p d.ctx).modQueue q fun Q => { Q with cons := (Q.cons + 1) % 2 ^ 32 }
    match s.checkQueue p q with
    | .error reason =>
      ((s1.rejectLaunch p d.ctx q Q.cons r r.owner reason).modQueue q fun Q => { Q with halted := true, last := none }).noteIdle q
    | .ok c =>
      { s1.modQueue q fun Q => { Q with last := some s.nextLaunch } with
        launches := s1.launches.put s.nextLaunch (mkLaunch s (some q) Q.cons p d.ctx r c 1 (s.lastOf q) none)
        nextLaunch := s.nextLaunch + 1 }

/-- The record of a child launch: owner, priority and pre-emption are its parent's (R309). -/
def childRecord (P : Launch) (bytes : List Byte) : LaunchRec :=
  { LaunchRec.ofBytes bytes with owner := P.record.owner, prio := P.record.prio, pre := P.record.pre }

/-- The dispatcher reads the oldest record of a child queue from its ring (R301, R309); one that cannot be read is
rejected with reason 1 (R302). -/
def State.consumeChild (s : State) (key : Nat) : State :=
  let q := s.childQ key
  match q.waiting with
  | [] => s
  | c :: cs =>
    let s1 : State := { s with childQs := s.childQs.put key { q with waiting := cs } }
    match s.launches.find c.parent with
    | none => s1
    | some P =>
      let bytes := s.readIpa P.part c.place 64
      let r := childRecord P (bytes.getD [])
      match (if bytes.isNone then .error 1 else s.checkRecord P.part r P.record.owner P.mask) with
      | .error reason => (s1.rejectLaunch P.part P.ctx 0 (q.prod - q.waiting.length) r P.record.owner reason).wakeJoins
      | .ok x =>
        { s1 with
          launches := s1.launches.put c.launch
            { mkLaunch s none 0 P.part P.ctx r x c.depth none (some (c.parent, c.block)) with startStopped := c.stopped } }

/-- RECORD_CONSUME: sources 0 to 255 are the hardware queue slots, the others child queues. -/
def State.recordConsume (s : State) (src : Nat) : State :=
  if src < 256 then
    match (s.qslotAt src).queue, s.parts.find? fun p => p.2.hasSlot src with
    | some q, some (p, _) => s.consumeQueue p q
    | _, _ => s
  else s.consumeChild (src - 256)

/-! ### Readiness and priority (R304, R305) -/

/-- Blocks of a launch. -/
def Launch.total (l : Launch) : Nat := l.record.gx * l.record.gy * l.record.gz

/-- A launch with a block still to place. -/
def Launch.unplaced (l : Launch) : Bool := decide (l.nextBlock < l.total)

/-- The launch before it in its queue allows it (R304). -/
def State.predOk (s : State) (l : Launch) : Bool :=
  match l.pred with
  | none => true
  | some q => match s.launches.find q with
    | none => true
    | some P => P.complete || (l.record.ovl && P.readyAt.isSome && !P.unplaced)

/-- LAUNCH_READY. The wait words are read when the launch is consumed and after every write performed there: at the end of
every step. (DEDUCED, log entry 39) -/
def State.launchReady (s : State) (i : Nat) : State :=
  match s.launches.find i with
  | none => s
  | some l =>
    if l.readyAt.isNone && s.predOk l && l.waits.all fun w => decide (leNat (s.homeBytes w.1 8) ≥ w.2) then
      s.modLaunch i fun l => { l with readyAt := some s.time, boostedAt := s.time }
    else s

/-- Every launch that has become ready (R304). -/
def State.readyAll (s : State) : State :=
  s.launches.foldl (fun acc l => if l.2.readyAt.isNone then acc.launchReady l.1 else acc) s

/-- The traps STEP of threads whose instruction waited and has ended (R403). -/
def State.stepTraps (s : State) : State :=
  (s.threads.filter fun t => t.2.stepDue && t.2.state == .ready).foldl (fun acc t => acc.endStep t.1 false) s

/-- What happens at once, whatever step gave cause: pending queues are mapped (R301), launches become ready (R304), traps STEP
are taken (R403). -/
def State.settled (s : State) : State := s.mapAll.readyAll.stepTraps

/-- Effective priority. -/
def State.effPrio (s : State) (l : Launch) : Nat :=
  if l.unplaced then min 7 (l.record.prio + max l.boosts ((s.time - l.readyAt.getD s.time) / 65536)) else l.record.prio

/-- PRIORITY_AGE. -/
def State.priorityAge (s : State) (i : Nat) : State :=
  match s.launches.find i with
  | none => s
  | some l =>
    if l.readyAt.isSome && l.unplaced && s.time ≥ l.boostedAt + 65536 && l.record.prio + l.boosts < 7 then
      s.modLaunch i fun l => { l with boosts := l.boosts + 1, boostedAt := l.boostedAt + 65536 }
    else s

/-- R305's order among ready launches: effective priority, readiness, consumption. -/
def State.before (s : State) (a b : Nat × Launch) : Bool :=
  let x := s.effPrio a.2
  let y := s.effPrio b.2
  let ta := a.2.readyAt.getD 0
  let tb := b.2.readyAt.getD 0
  decide (x > y) || (x == y && (decide (ta < tb) || (ta == tb && decide (a.2.consumedAt < b.2.consumedAt))))

/-! ### Owner slots (R307, R287–R289) -/

/-- The slot that a placement of an owner uses on a core, and whether it must be reassigned. -/
def State.ownerSlot (s : State) (c owner : Nat) : Option (Nat × Bool) :=
  let C := s.coreAt c
  let held (i : Nat) : Bool := (C.oslots.getD i .empty).valid
  match (List.range 4).find? fun i => held i && (C.oslots.getD i .empty).owner == owner with
  | some i => some (i, false)
  | none =>
    match (List.range 4).find? fun i => !held i with
    | some i => some (i, true)
    | none =>
      ((List.range 4).filter fun i => !s.slotUsed c i).foldl (fun best i =>
        match best with
        | none => some (i, true)
        | some (b, _) =>
          if (C.oslots.getD i .empty).idleSince < (C.oslots.getD b .empty).idleSince then some (i, true) else best) none

/-- The owner slot of a way (R253). -/
def wayOwner (c : Core) (w : Nat) : Option Nat :=
  (List.range 4).find? fun i => (c.oslots.getD i .empty).valid && (waysOf c i).1 ≤ w && w < (waysOf c i).1 + (waysOf c i).2

/-- The core with its owner slots changed: the ways whose slot changes are emptied (R253). -/
def Core.withSlots (c : Core) (f : List OSlot → List OSlot) : Core :=
  let c1 := { c with oslots := f c.oslots }
  { c1 with l1 := c.l1.filter fun l => wayOwner c1 l.way == some l.oslot && wayOwner c l.way == some l.oslot }

/-- A slot with its owner changed (R43, R253, R284): its own lines and those of the ways that move are emptied, and the
fills in flight for them dropped. (DEDUCED, log entry 97) -/
def State.setSlot (s : State) (c o : Nat) (sl : OSlot) : State :=
  let C := s.coreAt c
  let D := C.withSlots fun l => l.set o sl
  (s.modCore c fun _ => { D with l1 := D.l1.filter fun l => l.oslot != o }).dropFills c true fun q =>
    q.oslot == o || waysLost C D q.oslot

/-- Every ring slot that a group of an owner slot last loaded, cleared (R143). -/
def Core.clearRings (c : Core) (o : Nat) : Core :=
  { c with rings := c.rings.map fun r => if r.loader == some o then r.clear else r }

/-- The fault that the load step of a reassignment would meet. -/
def State.loadFault (s : State) (p c : Nat) (d : OwnerDesc) : Option AreaFault :=
  if bit d.hpmap c then s.ipaFault p (d.hsave + 1536 * c) 1536 .load else none

/-- The history cycles of a reassignment (R288). -/
def moveCycles (save load : Bool) : Nat := (if save then 24 else 0) + (if load then 24 else 8)

/-- Reassignment of an owner slot: save, clear, load (R287), the slot's registers (R36) and counters (R231, R289), and T
from which its owner issues (R288). (DEDUCED, log entry 43) -/
def State.reassign (s : State) (p c o : Nat) (d : OwnerDesc) : State :=
  let old := s.slotAt c o
  let s1 := s.saveBank c o
  let load := bit d.hpmap c
  let bank := if load then Bank.ofImage (s1.readIpaRun p (d.hsave + 1536 * c) 1536) else .cleared
  let sl : OSlot :=
    { valid := true, udivt := d.udivt, owner := d.owner, tvec := d.tvec, hsave := d.hsave, s1root := d.s1root
      cqBase := d.cqBase, cqLog2 := d.cqLog2, bank := bank, busy := false
      counters := (List.replicate 10 0).set 7 (moveCycles old.valid load), idleSince := s.time
      readyAt := s.time + moveCycles old.valid load + 8 }
  (s1.setSlot c o sl).modCore c fun C => C.clearRings o

/-! ### Room on a core (R306) -/

/-- Groups in a quadrant: slot, register offset, registers. -/
def State.quadUse (s : State) (c q : Nat) : List (Nat × Nat × Nat) :=
  (s.groups.filter fun g => g.1 / 16 == c * 4 + q).map fun g => (g.1 % 16, g.2.regBase, g.2.alloc)

/-- The lowest free slot index and the lowest offset of a run of A registers. -/
def findRoom (use : List (Nat × Nat × Nat)) (a : Nat) : Option (Nat × Nat) :=
  match (List.range 16).find? fun i => use.all fun u => u.1 != i with
  | none => none
  | some sl =>
    match ((List.range 128).map (8 * ·)).find? fun b => b + a ≤ 1024 && use.all fun u => !overlaps b a u.2.1 u.2.2 with
    | some b => some (sl, b)
    | none => none

/-- Room for groups of A registers in the quadrants of a list, in turn: quadrant, slot and offset of each. -/
def findRooms (use : Nat → List (Nat × Nat × Nat)) (a : Nat) : List Nat → Option (List (Nat × Nat × Nat))
  | [] => some []
  | q :: qs =>
    match findRoom (use q) a with
    | none => none
    | some (sl, b) =>
      (findRooms (fun x => if x = q then (sl, b, a) :: use q else use x) a qs).map fun r => (q, sl, b) :: r

/-- Free registers per lane of a quadrant. -/
def State.freeRegs (s : State) (c q : Nat) : Nat := 1024 - ((s.quadUse c q).map (·.2.2)).sum

/-- The rooms of a block by its offsets from q0: the starting quadrant and the groups' places. -/
def State.findQ0 (s : State) (c a : Nat) (offsets : List Nat) (ok : Nat → Bool) : Option (Nat × List (Nat × Nat × Nat)) :=
  (List.range 4).foldl (fun best q0 =>
    if !ok q0 then best
    else match findRooms (s.quadUse c) a (offsets.map fun g => (q0 + g) % 4) with
      | none => best
      | some r => match best with
        | none => some (q0, r)
        | some (b, _) => if s.freeRegs c q0 > s.freeRegs c b then some (q0, r) else best) none

/-- A size rounded up to 1,024. -/
def roundSpad (n : Nat) : Nat := (n + 1023) / 1024 * 1024

/-- The lowest free run of scratchpad within an area. -/
def State.findSpad (s : State) (c size area : Nat) : Option Nat :=
  let use := (s.blocks.filter fun b => b.2.core == c && !b.2.retired).map fun b => (b.2.spadBase, roundSpad b.2.scratch)
  ((List.range (area / 1024 + 1)).map (1024 * ·)).find? fun b =>
    b + roundSpad size ≤ area && use.all fun u => !overlaps b (roundSpad size) u.1 u.2

/-- Images that resident blocks use, and whether one fits beside them (R255). -/
def State.imageFits (s : State) (c owner cbase cunits : Nat) : Bool :=
  let used := ((s.blocks.filter fun b => b.2.core == c && !b.2.retired && b.2.cunits != 0).map fun b =>
    (b.2.ident.owner, b.2.cbase, b.2.cunits)).eraseDups
  used.contains (owner, cbase, cunits) || (used.map (·.2.2)).sum + cunits ≤ 64

/-- What a block needs of its core. -/
structure Need where
  part : Nat
  owner : Nat
  carve : Nat
  scratch : Nat
  cbase : Nat
  cunits : Nat
  a : Nat
  offsets : List Nat
deriving DecidableEq, Repr

/-- Where a block goes on a core: owner slot and whether it is reassigned, scratchpad base, q0, groups. -/
structure Spot where
  oslot : Nat
  fresh : Bool
  spad : Nat
  q0 : Nat
  groups : List (Nat × Nat × Nat)
deriving DecidableEq, Repr

/-- The core can hold the block (R306, R307); `ok` is a further test of q0. -/
def State.spot (s : State) (c : Nat) (n : Need) (ok : Nat → Bool) : Option Spot :=
  let C := s.coreAt c
  let area := min (spadArea C.carve) (match C.carveTo with | some t => spadArea t | none => spadArea C.carve)
  let carves := carveOk n.carve C.carve && (match C.carveTo with | some t => carveOk n.carve t | none => true)
  if C.part != some n.part || C.frozen.isSome || !carves || !s.imageFits c n.owner n.cbase n.cunits then none
  else match s.ownerSlot c n.owner, s.findSpad c n.scratch area, s.findQ0 c n.a n.offsets ok with
    | some (o, f), some b, some (q0, gs) => some ⟨o, f, b, q0, gs⟩
    | _, _, _ => none

/-- Resident threads of a core. -/
def State.resident (s : State) (c : Nat) : Nat := (s.threads.filter fun kt => coreOf kt.1 == c && kt.2.state != .ended).length

/-- The core of a list with the fewest resident threads, then the lowest number (R306). -/
def State.leastResident (s : State) (cs : List Nat) : Option Nat :=
  cs.foldl (fun best c => match best with
    | none => some c
    | some b => if s.resident c < s.resident b || (s.resident c == s.resident b && c < b) then some c else some b) none

/-- The core for a block, of those that can hold it. -/
def State.chooseCore (s : State) (mask : List Nat) (n : Need) : Option (Nat × Spot) :=
  (s.leastResident (mask.filter fun c => (s.spot c n fun _ => true).isSome)).bind fun c => (s.spot c n fun _ => true).map fun x => (c, x)

/-- What the next block of a launch needs. -/
def Launch.need (l : Launch) : Need :=
  ⟨l.part, l.record.owner, l.kd.carve, l.kd.scratch, l.kd.cbase, l.kd.cunits, 8 * l.kd.rg, List.range ((l.record.ntid + 31) / 32)⟩

/-! ### Placement -/

/-- Images dropped, of those that no block uses, until there is room for another. -/
def dropImages (room : Nat) (used : ConstImage → Bool) : List ConstImage → List ConstImage
  | [] => []
  | i :: is =>
    if ((i :: is).map (·.cunits)).sum ≤ room then i :: is
    else if used i then i :: dropImages (room - i.cunits) used is
    else dropImages room used is

/-- The constant image loaded where it is missing; images that no block uses are dropped when space is needed (R255). A
byte that the owner's translation does not reach is undefined. (DESIGN CHOICE, log entry 42) -/
def State.loadImage (s : State) (p c owner cbase cunits : Nat) : State :=
  let C := s.coreAt c
  if cunits = 0 || C.images.any (fun i => i.owner == owner && i.cbase == cbase && i.cunits == cunits) then s
  else
    let kept := dropImages (64 - cunits) (fun i => s.blocks.any fun b =>
      b.2.core == c && !b.2.retired && b.2.ident.owner == i.owner && b.2.cbase == i.cbase && b.2.cunits == i.cunits) C.images
    let d := s.ownerDesc p owner
    let byte (i : Nat) : Byte := match d.bind fun d => s.ownerPa p d (addr48 (cbase + i)) 1 .load with
      | some pa => (s.homeBytes pa 1).headD 0
      | none => Config.freeByte s.fresh i
    let img : ConstImage := ⟨owner, cbase, cunits, Memory.write [] 0 ((List.range (4096 * cunits)).map byte)⟩
    s.modCore c fun C => { C with images := kept ++ [img] }

/-- The owner slot made ready for a block of a context: after the bank operation in progress (R287); a fault of its history
move freezes the core (R333). -/
def State.takeSlot (s : State) (p c owner ctx : Nat) (x : Spot) : Except State State :=
  if !x.fresh then .ok s
  else if (s.slotAt c x.oslot).busy then .error s
  else match s.ownerDesc p owner with
    | none => .error s
    | some d =>
      match s.saveFault c x.oslot, s.loadFault p c d with
      | some va, _ => .error (s.stallArea 10 c ctx va)
      | none, some va => .error (s.stallArea 11 c ctx va)
      | none, none => .ok (s.reassign p c x.oslot d)

/-- T before which the groups of a slot do not issue (R288, R307). -/
def State.slotReady (s : State) (c : Nat) (x : Spot) : Nat := (s.slotAt c x.oslot).readyAt

/-- A thread of a block as it starts (R20). -/
def startThread (s : State) (id : Ident) (a entry hold : Nat) (stopped : Bool) : Thread :=
  { Thread.start id a entry with readyAt := s.time, startTill := hold, stopped := stopped }

/-- The uniform registers of a group as it starts (R26). -/
def startS (params : List Word) : List Word := (List.range 64).map fun i => if i < 16 then params.getD i 0 else 0

/-- The identity of block `i` of a launch: x fastest (R305). -/
def Launch.identOf (l : Launch) (i tid : Nat) : Ident :=
  { tid := tid
    ntid := l.record.ntid
    bidX := i % l.record.gx
    bidY := i / l.record.gx % l.record.gy
    bidZ := i / l.record.gx / l.record.gy
    nbidX := l.record.gx
    nbidY := l.record.gy
    nbidZ := l.record.gz
    depth := l.depth
    owner := l.record.owner }

/-- A group placed with its threads: lane and thread. -/
def State.startGroup (s : State) (key : Nat) (G : Group) (ts : List (Nat × Thread)) : State :=
  { s with
    groups := s.groups.put key { G with live := laneMask (ts.map (·.1)) }
    threads := ts.foldl (fun t x => t.put (threadKey key x.1) x.2) s.threads }

/-- The next block of a launch starts at a spot of a core. -/
def State.placeBlock (s : State) (i : Nat) (l : Launch) (c : Nat) (x : Spot) : State :=
  match s.takeSlot l.part c l.record.owner l.ctx x with
  | .error s' => s'
  | .ok s1 =>
    let hold := s1.slotReady c x
    let b := s.nextBlock
    let keys := x.groups.map fun g => groupKey c g.1 g.2.1
    let s2 := s1.loadImage l.part c l.record.owner l.kd.cbase l.kd.cunits
    let B : Block := { Block.blank with
      core := c, grid := i, ident := l.identOf l.nextBlock 0, alloc := 8 * l.kd.rg, scratch := l.kd.scratch
      spadBase := x.spad, kernel := l.record.kdesc, cbase := l.kd.cbase, cunits := l.kd.cunits, oslot := x.oslot, q0 := x.q0,
      groups := keys }
    let s3 : State := { s2 with blocks := s2.blocks.put b B, nextBlock := b + 1 }
    let s4 := (List.range keys.length).foldl (fun (acc : State) g =>
      let G : Group := { Group.blank with
        block := b, grp := g, alloc := 8 * l.kd.rg, oslot := x.oslot, regBase := (x.groups.getD g (0, 0, 0)).2.2
        s := startS l.params }
      acc.startGroup (keys.getD g 0) G (((List.range 32).filter fun n => 32 * g + n < l.record.ntid).map fun n =>
        (n, startThread s (l.identOf l.nextBlock (32 * g + n)) (8 * l.kd.rg) l.kd.entry hold l.startStopped))) s3
    let s5 := if l.startStopped then keys.foldl (fun (acc : State) g => acc.stopMail (s4.threadsIn fun k => groupOf k == g) 3) s4 else s4
    s5.modLaunch i fun l =>
      let l := { l with nextBlock := l.nextBlock + 1, live := l.live + 1 }
      if l.unplaced then l else { l with boosts := 0, markedCore := none }

/-- A mark withdrawn or carried out (R308). -/
def State.unmark (s : State) (c : Option Nat) : State :=
  match c with
  | some c => s.modCore c fun C => { C with carveTo := none }
  | none => s

/-- The core that a launch without room marks for a change of its carve-out (R308). -/
def State.markCore (s : State) (i : Nat) (l : Launch) : State :=
  if l.markedCore.isSome || l.kd.carve = 0 then s
  else match (l.mask.filter fun c => (s.coreAt c).part == some l.part && !carveOk l.kd.carve (s.coreAt c).carve
      && (s.coreAt c).carveTo.isNone).min? with
    | none => s
    | some c => (s.modCore c fun C => { C with carveTo := some (l.kd.carve - 1) }).modLaunch i fun l => { l with markedCore := some c }

/-- A launch whose next block may be placed, room apart. -/
def State.placeable (s : State) (l : Launch) : Bool := l.readyAt.isSome && l.unplaced && s.ctxPlaces l.ctx

/-- Whether a continuation waits that the core could hold (R310). -/
def Launch.contNeed (l : Launch) : Need := ⟨l.part, l.record.owner, l.kd.carve, 0, l.kd.cbase, l.kd.cunits, 8 * l.kd.rg, [0]⟩

def State.contWaits (s : State) (c : Nat) : Bool :=
  s.launches.any fun l => !l.2.pool.isEmpty && s.ctxRestored l.2.ctx && l.2.mask.contains c
    && (s.spot c l.2.contNeed fun _ => true).isSome

/-- What a saved block needs (R334): its launch's, at the offsets of its groups. -/
def State.savedNeed (s : State) (f : Frame) (b : Nat) (B : Block) : Need :=
  let l := s.launches.find B.grid
  ⟨(l.map (·.part)).getD 0, B.ident.owner, (l.map (·.kd.carve)).getD 0, B.scratch, B.cbase, B.cunits, B.alloc,
    (f.groups.filter fun g => g.2.block == b).map fun g => (g.1 / 16 % 4 + 4 - B.q0) % 4⟩

/-- A saved block waits that the core could hold (R334). -/
def State.savedWaits (s : State) (c : Nat) : Bool :=
  s.ctxs.any fun x => x.2.suspended == some .eligible && x.2.frames.any fun f => f.2.blocks.any fun b =>
    !b.2.retired && (((s.launches.find b.2.grid).map (·.mask)).getD []).contains c
      && (s.spot c (s.savedNeed f.2 b.1 b.2) fun _ => true).isSome

/-- BLOCK_PLACEMENT (R305, R306, R308): no ready launch that ranks before this one has a block that could be placed, and
no continuation or saved block could take the core. (DEDUCED, log entry 41) -/
def State.blockPlacement (s : State) (i : Nat) : State :=
  match s.launches.find i with
  | none => s
  | some l =>
    if !s.placeable l || s.launches.any (fun o => o.1 != i && s.placeable o.2 && s.before o (i, l)
        && (s.chooseCore o.2.mask o.2.need).isSome) then s
    else match s.chooseCore l.mask l.need with
      | none => s.markCore i l
      | some (c, x) =>
        if s.contWaits c || s.savedWaits c then s
        else
          let s1 := s.placeBlock i l c x
          match s1.launches.find i with
          | some l1 => if l1.unplaced then s1 else s1.unmark l.markedCore
          | none => s1

/-- A continuation as a thread of its group (R180, R310): what it carried, the other registers 0. -/
def Continuation.thread (s : State) (a hold : Nat) (m : Continuation) : Thread :=
  { startThread s m.carried.ident a m.carried.pc hold false with
    regs := m.carried.regs ++ List.replicate (a - m.carried.regs.length) 0
    preds := m.carried.preds, ks := m.carried.ks, fpc := m.carried.fpc, fps := m.carried.fps }

/-- The oldest continuations of a launch, at most 32, start at a spot of a core whose owner slot is ready; `now` is the
state before that slot was made ready. -/
def State.placeCont (s now : State) (i : Nat) (l : Launch) (c : Nat) (x : Spot) : State :=
  let ms := l.pool.take 32
  let b := now.nextBlock
  let g := x.groups.headD (0, 0, 0)
  let key := groupKey c g.1 g.2.1
  let a := 8 * l.kd.rg
  let hold := max (s.slotReady c x) ((ms.map (·.start)).foldl max 0)
  let B : Block := { Block.blank with
    core := c, grid := i, ident := (ms.map (·.carried.ident)).headD .blank, alloc := a, spadBase := x.spad
    kernel := l.record.kdesc, cbase := l.kd.cbase, cunits := l.kd.cunits, oslot := x.oslot, q0 := x.q0, groups := [key], cont := true }
  let G : Group := { Group.blank with
    block := b, grp := 0xFFFFFFFF, cont := true, alloc := a, oslot := x.oslot, regBase := g.2.2, s := startS l.params }
  let s2 := s.loadImage l.part c l.record.owner l.kd.cbase l.kd.cunits
  let s3 : State := { s2 with blocks := s2.blocks.put b B, nextBlock := b + 1 }
  (s3.startGroup key G ((List.range ms.length).map fun n => (n, (ms.getD n ⟨⟨.blank, [], 0, [], 0, 0, 0, 0⟩, 0⟩).thread now a hold))).modLaunch
    i fun l => { l with pool := l.pool.drop 32, live := l.live + 1 }

/-- CONTINUATION_PLACEMENT (R310): a continuation group of a grid on a core. -/
def State.continuationPlacement (s : State) (i c : Nat) : State :=
  match s.launches.find i with
  | none => s
  | some l =>
    if l.pool.isEmpty || !s.ctxRestored l.ctx || !l.mask.contains c then s
    else match s.spot c l.contNeed fun _ => true with
      | none => s
      | some x =>
        match s.takeSlot l.part c l.record.owner l.ctx x with
        | .error s' => s'
        | .ok s1 => s1.placeCont s i l c x

/-- CARVE_CHANGE (R308). -/
def State.carveChange (s : State) (c : Nat) : State :=
  match (s.coreAt c).carveTo with
  | none => s
  | some t =>
    let ok := s.blocks.all fun b => b.2.core != c || b.2.retired || (b.2.spadBase + roundSpad b.2.scratch ≤ spadArea t
      && carveOk (((s.launches.find b.2.grid).map (·.kd.carve)).getD 0) t)
    if !ok then s
    else
      let s1 := s.modCore c fun C => { C with carve := t, carveTo := none, l1 := [] }
      { s1 with launches := s1.launches.changeAll fun _ l => if l.markedCore = some c then { l with markedCore := none } else l }

/-! ### Completion (R107, R16, R314) -/

/-- The block has ended for its grid. -/
def State.finishBlock (s : State) (b : Nat) : State :=
  let B := s.blk b
  let s1 := s.modLaunch B.grid fun l => { l with live := l.live - 1, gwct := max l.gwct B.wctMax }
  State.flowIdle { s1 with
    blocks := s1.blocks.del b
    quads := s1.quads.changeAll fun _ Q => { Q with cursors := Q.cursors.map fun c => if c.valid && c.tag == b then .invalid else c } }

/-- Everything that a block issued has ended (R107). -/
def State.blockQuiet (s : State) (b : Nat) : Bool :=
  let B := s.blk b
  (s.liveOfBlock b).isEmpty && B.groups.all (fun g => (s.grp g).live == 0) && !s.engOps.any (fun o => o.2.block == b && !o.2.complete)
    && !s.mxOps.any (fun o => o.2.block == b) && !s.reqs.any fun r => r.2.block == b && (r.2.kind.writes || r.2.space == .spad)

/-- BLOCK_COMPLETE (R107, R168): the windows are released first; with children outstanding the block becomes a retire
record where one is free (R16). (DEDUCED, log entry 40) -/
def State.blockComplete (s : State) (b : Nat) : State :=
  match s.blocks.find b with
  | none => s
  | some B =>
    if B.retired || !s.blockQuiet b then s
    else
      let s1 := s.releaseWindows b
      if s1.time ≤ (s1.blk b).wctMax then s1
      else if s1.childrenOut b && !s1.hasRecord b && s1.retireRecords B.core ≥ 256 then s1
      else
        let s2 := (s1.blk b).groups.foldl State.endGroup s1
        if !s1.childrenOut b then s2.finishBlock b
        else s2.modBlk b fun B => { B with retired := true, scratch := 0, spad := [] }

/-- BLOCK_RETIRE (R16). -/
def State.blockRetire (s : State) (b : Nat) : State :=
  match s.blocks.find b with
  | none => s
  | some B => if B.retired && !s.childrenOut b then s.finishBlock b else s

/-- A child grid of a launch is outstanding. -/
def State.gridChildren (s : State) (i : Nat) : Bool :=
  s.launches.any (fun l => match l.2.parent with | some (g, _) => g == i && !l.2.complete | none => false)
    || s.childQs.any fun q => q.2.waiting.any fun c => c.parent == i

/-- Blocks of a grid that stand saved. -/
def State.gridSaved (s : State) (i : Nat) : Bool :=
  s.ctxs.any fun x => x.2.frames.any fun f => f.2.blocks.any fun b => b.2.grid == i

/-- GRID_COMPLETE (R314). -/
def State.gridComplete (s : State) (i : Nat) : State :=
  match s.launches.find i with
  | none => s
  | some l =>
    if l.readyAt.isNone || l.unplaced || l.live != 0 || !l.pool.isEmpty || s.gridSaved i
        || s.monitors.any (fun m => m.carried.grid == i) || s.gridChildren i || s.time ≤ l.gwct then s
    else
      let s1 := s.addDone l.part l.record.owner l.record.donew
      let s2 : State := { s1 with launches := s1.launches.del i }
      let s3 := s2.wakeJoins
      match l.queue with
      | some q => s3.noteIdle q
      | none => s3

/-! ### Events -/

/-- `NOTIFY` (R300). -/
def execNotify (q prod : Nat) (s : State) : Result := go (s.notifyQueue q prod)

/-- `PENDING_MAP` (R301). -/
def execPendingMap (sl : Nat) (s : State) : Result := go (s.pendingMap sl)

/-- `RECORD_CONSUME` (R301, R302). -/
def execRecordConsume (src : Nat) (s : State) : Result := go (s.recordConsume src)

/-- `LAUNCH_READY` (R304). -/
def execLaunchReady (l : Nat) (s : State) : Result := go (s.launchReady l)

/-- `PRIORITY_AGE` (R305). -/
def execPriorityAge (l : Nat) (s : State) : Result := go (s.priorityAge l)

/-- `BLOCK_PLACEMENT` (R306). -/
def execBlockPlacement (l : Nat) (s : State) : Result := go (s.blockPlacement l)

/-- `CONTINUATION_PLACEMENT` (R310). -/
def execContinuationPlacement (g c : Nat) (s : State) : Result := go (s.continuationPlacement g c)

/-- `CARVE_CHANGE` (R308). -/
def execCarveChange (c : Nat) (s : State) : Result := go (s.carveChange c)

/-- `BLOCK_COMPLETE` (R107). -/
def execBlockComplete (b : Nat) (s : State) : Result := go (s.blockComplete b)

/-- `BLOCK_RETIRE` (R16). -/
def execBlockRetire (b : Nat) (s : State) : Result := go (s.blockRetire b)

/-- `GRID_COMPLETE` (R314). -/
def execGridComplete (g : Nat) (s : State) : Result := go (s.gridComplete g)

end Sys2Proof.Machine
end

