-- ==== Sys2Proof/Machine/Context.lean ====
section
/-! DEFINITION. The context engine (14 R318–R335): the fault queue's counts, replay, pre-emption, frames, restore,
destruction and the retired-instruction timer. A context's frame is kept as structures, from which a restore reads, and
its bytes are written to the save area. -/

namespace Sys2Proof.Machine

/-! ### The fault queue (R318) -/

/-- FAULT_RECORD_POST: the oldest held record, once the ring has room. -/
def State.postHeld (s : State) (p : Nat) : State :=
  match (s.partAt p).held with
  | [] => s
  | r :: rs =>
    if (s.partAt p).fqRoom then (s.modPart p fun q => { q with held := rs }).writeRecord p r else s

/-- FAULTQ_CONS_WRITE: CONS as software writes it, mod 2^32; a write beyond PROD is ignored. -/
def State.faultqCons (s : State) (p v : Nat) : State :=
  s.modPart p fun q =>
    let d := ahead 32 v q.fqCons
    if q.fqCons + d ≤ q.fqProd then { q with fqCons := q.fqCons + d } else q

/-! ### Acknowledgements (R323, R325) -/

/-- The threads of a context on a core. -/
def State.ctxThreadsOn (s : State) (c x : Nat) : List Nat := (s.ctxThreads x).filter fun k => coreOf k == c

def ReqKind.isCommit : ReqKind → Bool
  | .commit .. => true
  | _ => false

def EngKind.isCopy : EngKind → Bool
  | .tcopy .. => true
  | .gather .. => false

/-- An operation stands at its unit: no chunk or window of it has begun and not ended. -/
def EngOp.atUnit (o : EngOp) : Bool :=
  o.complete || o.error.isSome || o.held.isSome || !(List.range o.units).any o.unitOpen

/-- A class of a core still has to acknowledge. -/
def State.missingAck (s : State) (c x cls : Nat) : Bool :=
  match (s.ctxAt x).preemption with
  | some q => q.missing.contains (c, cls)
  | none => false

/-- An engine class of a core has stopped at its unit. Stash windows wait for what writes scratchpad, and quadrant
execution for the stash windows' write-backs. (DEDUCED, log entry 38) -/
def State.ackReady (s : State) (c x cls : Nat) : Bool :=
  let reqs := s.reqs.filter fun r => r.2.core == c && r.2.ctx == x && r.2.awaited
  let ops := s.engOps.filter fun o => o.2.core == c && o.2.ctx == x
  match cls with
  | 0 => !s.missingAck c x 7 && reqs.all (fun r => r.2.kind.isCommit) && (match (s.ctxAt x).preemption with
      | some q => (s.unparked x q).all fun g => g / 64 != c
      | none => true)
  | 1 => s.mxOps.all fun o => !(o.2.group / 64 == c && s.ctxOfGrid (s.blk o.2.block).grid == x)
  | 2 => ops.all fun o => !o.2.kind.isCopy || o.2.atUnit
  | 3 => ops.all fun o => o.2.kind.isCopy || o.2.atUnit
  | 4 => (s.ctxThreadsOn c x).all fun k => !s.draws k
  | 5 => reqs.all fun r => !r.2.kind.isCommit
  | 7 => !s.missingAck c x 2 && !s.missingAck c x 3 && reqs.all fun r => r.2.space != .spad
  | 9 => (List.range 4).all fun o => !((s.slotAt c o).busy && s.groups.any fun g => g.1 / 64 == c && g.2.oslot == o
      && s.ctxOfGrid (s.blk g.2.block).grid == x)
  | _ => true

/-- A window written back and its lines released; its mapping stays, unless SINV has ended it (R323, step 5). -/
def State.parkWindow (s : State) (b w : Nat) : State :=
  match (s.blk b).windows.find w with
  | none => s
  | some W =>
    if W.parting.isSome then s.releaseWindow b w (s.lowestLive b) else
    let s1 := s.writeBack b w (s.lowestLive b)
    let s2 := (List.range W.lines.length).foldl (fun (acc : State) i =>
      if acc.stashOf (W.line i) = some (b, w, i) then acc.endOwnership (W.line i) else acc) s1
    { s2 with reqs := s2.reqs.filter fun r => match r.2.kind with | .own b' w' _ => !(b' == b && w' == w) | _ => true }

/-- What an acknowledgement does beside being counted; none where the history save met a fault. A history save is charged
to its slot (R336). (DEDUCED, log entry 54) -/
def State.ackEffect (s : State) (c x cls : Nat) : Except State State :=
  match cls with
  | 5 => .ok ((s.ctxThreadsOn c x).foldl (fun (acc : State) k =>
      match (s.thr k).capsule with
      | some cap => (acc.deschedule cap.ident).dropWaiter k
      | none => acc.dropWaiter k) s)
  | 7 => .ok (((s.ctxBlocks x).filter fun b => (s.blk b).core == c).foldl (fun (acc : State) b =>
      (acc.blk b).windows.keys.foldl (fun (a : State) w => a.parkWindow b w) acc) s)
  | 9 =>
    let os := s.ctxSlots c x
    match os.findSome? (s.saveFault c) with
    | some f => .error (s.stallArea 10 c x f)
    | none => .ok (os.foldl (fun (acc : State) o => if (s.slotAt c o).valid then (acc.saveBank c o).count c o 7 24 else acc) s)
  | _ => .ok s

/-- ENGINE_ACK. -/
def State.engineAck (s : State) (c x cls : Nat) : State :=
  if !s.missingAck c x cls || (s.coreAt c).frozen.isSome || !s.ackReady c x cls then s
  else match s.ackEffect c x cls with
    | .error s' => s'
    | .ok s1 => s1.modCtx x fun C =>
      { C with preemption := C.preemption.map fun q => { q with missing := q.missing.filter (· != (c, cls)) } }

/-! ### Frames (R329–R332) -/

/-- A record: its header and its body, cut or filled with zeros to its length. -/
def record (typ idx len : Nat) (body : List Byte) : List Byte :=
  let b := body.take (len - 8)
  leBytes 8 (len * 2 ^ 32 + idx % 2 ^ 16 * 2 ^ 16 + typ) ++ b ++ List.replicate (len - 8 - b.length) 0

/-- A record whose contents the spec lists without giving their places: a body of them that the implementation lays out.
(DESIGN CHOICE, log entry 35) -/
def openRecord (typ idx len : Nat) (contents : List (List Byte)) : List Byte := record typ idx len (Config.frameBody typ contents)

/-- WKIND, WID and WARG of a wait (R331). -/
def waitCode : Wait → Nat × Nat × Nat
  | .none => (0, 0, 0)
  | .bar id => (1, id, 0)
  | .rejoin j => (2, j, 0)
  | .waitg off gen _ _ => (3, 0, gen * 2 ^ 32 + off)
  | .cpwait n _ => (4, 0, n)
  | .mwait mask _ _ => (5, 0, mask)
  | .sleep d => (6, 0, d)
  | .cjoin h _ => (7, 0, h)
  | .caps .. => (8, 0, 0)
  | .displaced .. => (8, 0, 0)

/-- The fixed part of a THREAD record and its registers (R331). -/
def threadRecord (k : Nat) (t : Thread) : List Byte :=
  let w := match t.state with | .waiting w => waitCode w | .parked seq => (0, 0, seq) | _ => (0, 0, 0)
  let parked := match t.state with | .parked _ => true | _ => false
  let st := if t.isStopped then 4 else match t.state with | .waiting _ => 2 | .parked _ => 3 | _ => 0
  let poison := t.poison.foldl (fun m p => m ||| 2 ^ (p.1 % 4)) 0
  record 3 (laneOf k) (64 + 4 * t.regs.length)
    (leBytes 8 (addr48 t.pc)
      ++ leBytes 4 (w.1 * 2 ^ 24 + w.2.1 * 2 ^ 20 + poison * 2 ^ 16 + b2n parked * 16 + b2n t.handler * 8 + st)
      ++ leBytes 4 t.fpc.toNat ++ leBytes 4 t.fps.toNat ++ leBytes 4 t.preds.toNat
      ++ (t.ks.flatMap fun k => leBytes 2 k.toNat) ++ leBytes 8 w.2.2 ++ leBytes 8 t.wctPkg ++ leBytes 8 t.wctSys
      ++ t.regs.flatMap fun r => leBytes 4 r.toNat)

/-- A wait from WKIND, WID and WARG (R331); what the record does not hold is as it was saved, in `old`. -/
def waitOf (kind id arg : Nat) (old : Wait) : Wait :=
  match kind, old with
  | 1, _ => .bar id
  | 2, _ => .rejoin (id % 8)
  | 3, .waitg _ _ d m => .waitg (arg % 2 ^ 32) (field arg 32 8) d m
  | 3, _ => .waitg (arg % 2 ^ 32) (field arg 32 8) 240 none
  | 4, .cpwait _ len => .cpwait arg len
  | 5, .mwait _ len bound => .mwait arg len bound
  | 6, _ => .sleep arg
  | 7, .cjoin _ bound => .cjoin arg bound
  | _, w => w

/-- The state of a thread from its record's words at 0x10 and WARG (R331): Ready, Waiting, Parked, or Stopped with the wait
that it had entered. A code that R331 reserves leaves the state that was saved. -/
def stateOf (w arg : Nat) (old : TState) : TState :=
  let was : Wait := match old with | .waiting x => x | _ => .none
  let kind := field w 24 4
  if bit w 4 then .parked arg
  else if w % 8 = 0 || (w % 8 = 4 && kind = 0) then .ready
  else if (w % 8 = 2 || w % 8 = 4) && kind ≠ 0 && kind < 9 then .waiting (waitOf kind (field w 20 4) arg was)
  else old

/-- A thread with what its THREAD record holds (R331, R334). -/
def Thread.ofRecord (bs : List Byte) (t : Thread) : Thread :=
  let w (o : Nat) : Nat := at' bs o 4
  let state := stateOf (w 0x10) (at' bs 0x28 8) t.state
  { t with
    pc := addr48 (at' bs 8 8)
    handler := bit (w 0x10) 3
    state := state
    stopped := if w 0x10 % 8 = 4 then true else if w 0x10 % 8 ∈ [0, 2, 3] then t.stopped && !t.isStopped else t.stopped
    poison := t.poison.filter fun p => bit (w 0x10) (16 + p.1 % 4)
    fpc := BitVec.ofNat 32 (w 0x14 % 2 ^ 13)
    fps := BitVec.ofNat 4 (w 0x18)
    preds := BitVec.ofNat 7 (w 0x1C)
    ks := (List.range 4).map fun i => BitVec.ofNat 16 (at' bs (0x20 + 2 * i) 2)
    wctPkg := at' bs 0x30 8
    wctSys := at' bs 0x38 8
    regs := (List.range t.regs.length).map fun i => BitVec.ofNat 32 (w (64 + 4 * i)) }

/-- The trap state is not all zero, or the thread is at H (R330, TRAPX). -/
def Thread.hasTrapx (t : Thread) : Bool := t.handler || t.trap != .clear

def words4 (ws : List Word) : List (List Byte) := ws.map fun w => leBytes 4 w.toNat

/-- The contents of BLOCK, GROUP, TRAPX, CAPX, LATX, POISX, PKT, ENGOP and RING records (R330). -/
def Block.contents (b : Nat) (B : Block) : List (List Byte) :=
  [leBytes 8 b, leBytes 8 B.grid, leBytes 4 B.ident.bidX, leBytes 4 B.ident.bidY, leBytes 4 B.ident.bidZ, leBytes 4 B.ident.ntid,
    leBytes 8 B.kernel, [BitVec.ofNat 8 B.q0], [BitVec.ofNat 8 (b2n B.retired)], leBytes 2 B.children.length]
    ++ (B.bars.map fun x => leBytes 4 (b2n x.implicit * 2 ^ 24 + x.count % 2 ^ 12 * 2 ^ 12 + x.expected % 2 ^ 12))
    ++ (B.windows.flatMap fun w => [leBytes 4 w.2.off, leBytes 8 w.2.va, leBytes 4 w.2.len])
    ++ (B.children.map fun c => leBytes 4 c.1)

def Group.contents (q0 g : Nat) (G : Group) : List (List Byte) :=
  [[BitVec.ofNat 8 ((g / 16 % 4 + 4 - q0) % 4)], [BitVec.ofNat 8 (g % 16)], leBytes 4 G.live.toNat] ++ words4 G.s
    ++ (G.enrolled.map fun m => leBytes 4 m.toNat) ++ (G.arrived.map fun m => leBytes 4 m.toNat)
    ++ [leBytes 4 (b2n G.udiv), leBytes 4 ((G.leader.map (· + 1)).getD 0), leBytes 2 G.mark.toNat]

def TrapState.contents (x : TrapState) : List (List Byte) :=
  [leBytes 8 x.xpc.toNat, leBytes 4 x.xcause.toNat, leBytes 8 x.xinfo.toNat, leBytes 4 x.xstat.toNat] ++ words4 x.z ++ words4 x.xlat

def Capsule.contents (c : Capsule) : List (List Byte) :=
  [[BitVec.ofNat 8 (1 + b2n c.adopter)], leBytes 8 c.capr, leBytes 4 c.estep, leBytes 8 c.code, leBytes 4 c.n, leBytes 8 c.ret,
    leBytes 4 c.ident]

def Req.contents (q : Req) : List (List Byte) :=
  match q.kind with
  | .load signed lease fine d =>
    [leBytes 4 (if q.space == .spad then 0x182 else if fine then 0x185 else 0x180), leBytes 4 q.size,
      [BitVec.ofNat 8 (b2n signed)], [BitVec.ofNat 8 (b2n lease)], [BitVec.ofNat 8 (b2n q.acquire)],
      [BitVec.ofNat 8 (laneOf q.thread)], leBytes 8 q.va, leBytes 2 d.code.toNat, leBytes 8 q.seq]
  | _ => []

def EngOp.contents (o : EngOp) : List (List Byte) :=
  leBytes 4 o.thread ::
    (match o.kind with
     | .tcopy image toG sf sr off origin =>
       [[BitVec.ofNat 8 (b2n toG)], [BitVec.ofNat 8 sf], [BitVec.ofNat 8 (b2n sr)], leBytes 4 off] ++ origin.map (fun x => leBytes 4 (x % 2 ^ 32).toNat) ++ [image]
     | .gather toG size uns base off idx n =>
       [[BitVec.ofNat 8 (b2n toG)], [BitVec.ofNat 8 size], [BitVec.ofNat 8 (b2n uns)], leBytes 8 base, leBytes 4 off, leBytes 4 idx, leBytes 4 n])
    ++ [leBytes 4 ((o.arrival.map (· + 1)).getD 0), leBytes 4 o.progress, leBytes 4 o.doneMask, leBytes 8 ((o.held.map (· + 1)).getD 0)]
    ++ (match o.error with | some e => [leBytes 4 e.cause, leBytes 4 e.why, leBytes 8 e.va] | none => [])

/-- What a record of a frame describes: a thread, a block's scratchpad, or something that only the frame's owner reads. -/
inductive RecTag where
  | other
  | thread (k : Nat)
  | spad (b : Nat)
deriving DecidableEq, Repr

abbrev Rec := RecTag × List Byte

/-- The records of a thread. -/
def Frame.threadRecs (f : Frame) (k : Nat) (t : Thread) : List Rec :=
  let l := laneOf k
  let pkts := f.packets.filter fun q => q.thread == k
  [(.thread k, threadRecord k t)]
    ++ (if t.hasTrapx then [(.other, openRecord 4 l 96 t.trap.contents)] else [])
    ++ (match t.capsule with | some c => [(.other, openRecord 5 l 48 c.contents)] | none => [])
    ++ (if t.chain then [(.other, openRecord 6 l 32 (words4 t.latch))] else [])
    ++ (if t.poison.isEmpty then [] else [(.other, openRecord 7 l 16 (t.poison.map fun p => [BitVec.ofNat 8 p.1, BitVec.ofNat 8 p.2.1, BitVec.ofNat 8 p.2.2]))])
    ++ ((List.range pkts.length).map fun i => (.other, openRecord 8 i 32 ((pkts[i]?.map Req.contents).getD [])))

/-- The records of a block, the `i`th of its core. -/
def Frame.blockRecs (f : Frame) (i b : Nat) (B : Block) : List Rec :=
  [(.other, openRecord 1 i 256 (B.contents b))]
    ++ ((f.groups.filter fun g => g.2.block == b).flatMap fun g =>
      [(RecTag.other, openRecord 2 g.2.grp 384 (g.2.contents B.q0 g.1))]
        ++ (f.threads.filter fun kt => groupOf kt.1 == g.1).flatMap fun kt => f.threadRecs kt.1 kt.2)
    ++ (if B.retired then [] else [(.spad b, record 9 i (8 + B.scratch) (Memory.read B.spad 0 B.scratch))])

/-- The records that follow the blocks: cursors, whose places the image of R212 leaves no doubt about, operations, rings. -/
def Frame.tailRecs (f : Frame) : List Rec :=
  (f.cursors.map fun c =>
      (.other, record 10 c.2.1 80 (leBytes 4 ((c.1 + 4 - ((f.blocks.find c.2.2.tag).map (·.q0)).getD 0) % 4) ++ leBytes 4 c.2.1 ++ c.2.2.image)))
    ++ (f.engines.map fun e => (.other, openRecord 11 0 128 e.2.contents))
    ++ (f.rings.map fun r => (.other, openRecord 12 r.slot 48 ([BitVec.ofNat 8 r.slot] :: words4 r.words ++ [[BitVec.ofNat 8 r.oslot]])))
    ++ [(.other, record 13 0 16 [])]

/-- A record filled up to an 8-byte boundary. -/
def Rec.padded (r : Rec) : Rec := (r.1, r.2 ++ List.replicate ((8 - r.2.length % 8) % 8) 0)

/-- The records of a frame after HDR (R330). -/
def Frame.recs (f : Frame) : List Rec :=
  (((List.range f.blocks.length).flatMap fun i => match f.blocks[i]? with | some b => f.blockRecs i b.1 b.2 | none => [])
    ++ f.tailRecs).map Rec.padded

/-- Records with their offsets, from one on. -/
def placed (off : Nat) : List Rec → List (Nat × Rec)
  | [] => []
  | r :: rs => (off, r) :: placed (off + r.2.length) rs

def recBytes (rs : List Rec) : Nat := (rs.map (·.2.length)).sum

/-- The HDR record (R330). -/
def frameHdr (f : Frame) (x c status : Nat) : List Byte :=
  record 0 0 64 (leBytes 8 f.savedAt ++ leBytes 8 (f.recs.length + 1) ++ leBytes 8 (64 + recBytes f.recs)
    ++ leBytes 4 (x * 2 ^ 16 + status) ++ leBytes 4 c)

/-- The intermediate address of a context's frame for a core (R329). (DESIGN CHOICE, log entry 34) -/
def frameAt (x c : Nat) : Nat := addr48 ((Config.saveArea x).1 + (Config.saveArea x).2 / 65536 * 65536 * c)

/-! ### Capture (R324, R326) -/

/-- A thread as it is saved (R326); a redirect that it is owed is not carried over (R337). -/
def Thread.saved (t : Thread) : Thread :=
  let t := { t with holdTill := 0, memo := [] }
  match t.state with
  | .stalled _ => { t with state := .ready }
  | _ => t

/-- The frame of a context on a core, as it stands. (DEDUCED, log entry 54) -/
def State.capture (s : State) (c x savedAt : Nat) : Frame :=
  let blocks := s.blocks.filter fun b => b.2.core == c && s.ctxOfGrid b.2.grid == x
  let mine (b : Nat) : Bool := blocks.any (·.1 == b)
  let groups := s.groups.filter fun g => mine g.2.block
  let slots := (groups.map (·.2.oslot)).eraseDups
  let C := s.coreAt c
  let q := (s.ctxAt x).preemption
  let f : Frame :=
    { status := 2
      blocks := blocks
      groups := groups
      threads := Tbl.changeAll (fun _ t => t.saved) (s.threads.filter fun t => groups.any (·.1 == groupOf t.1) && t.2.state != .ended)
      packets := ((q.map (·.packets)).getD []).filter fun r => mine r.block
      engines := s.engOps.filter fun o => mine o.2.block
      cursors := (List.range 4).flatMap fun q => (List.range 4).filterMap fun n =>
        let cu := s.cursor (c * 4 + q) n
        if cu.valid && mine cu.tag then some (q, n, cu) else none
      rings := ((((q.map (·.rings)).getD []).filter fun r => r.1 == c).map (·.2)) ++ (List.range 4).filterMap fun n =>
        match (C.rings.getD n .none).last with
        | some (ws, o) => if slots.contains o then some ⟨(C.oslots.getD o .empty).owner, o, n, ws⟩ else none
        | none => none
      savedAt := savedAt
      places := []
      tail := 0
      bytes := 0
      ringsOn := [] }
  let sizes := (List.range blocks.length).filterMap fun i => (blocks[i]?).map fun b => (b.1, recBytes ((f.blockRecs i b.1 b.2).map Rec.padded))
  let ends := sizes.foldl (fun (acc : Tbl Nat × Nat) x => (acc.1.put x.1 acc.2, acc.2 + x.2)) ([], 64)
  { f with places := ends.1, tail := ends.2, bytes := 64 + recBytes f.recs }

/-- The core without the context: its blocks, groups, threads, operations and cursors gone, the returns of their loads
stale. -/
def State.vacate (s : State) (f : Frame) : State :=
  let b := f.blocks.map (·.1)
  let gs := f.groups.map (·.1)
  let s1 := gs.foldl (fun (acc : State) g => acc.endGroup g) s
  let gone (k : Nat) : Bool := gs.contains (groupOf k)
  { s1 with
    blocks := s1.blocks.filter fun x => !b.contains x.1
    engOps := s1.engOps.filter fun o => !b.contains o.2.block
    reqs := s1.reqs.changeAll fun _ q => if b.contains q.block then { q with block := staleBlock } else q
    quads := s1.quads.changeAll fun _ Q =>
      { Q with
        openChain := match Q.openChain with | some x => if x.threads.any gone then none else some x | none => none
        formed := Q.formed.filter fun x => !x.threads.any gone
        deferred := Q.deferred.filter fun x => !x.1.threads.any gone
        yielded := Q.yielded.filter fun x => !x.1.any gone
        recentShort := Q.recentShort.filter fun x => !x.2.2.any gs.contains
        drawing := Q.drawing.filter fun x => !gone x.2.1
        cursors := Q.cursors.map fun c => if c.valid && b.contains c.tag then .invalid else c } }

/-- A core's frame may be written: every class of the core has acknowledged, and nothing that is awaited is out (R323). -/
def State.frameOpen (s : State) (c x : Nat) (q : Preemption) : Bool :=
  q.framesDue.contains c && !q.missing.any (·.1 == c) && (s.coreAt c).frozen.isNone
    && !s.reqs.any fun r => r.2.core == c && r.2.ctx == x && r.2.awaited

/-- What follows where an operation on the save area has met no fault. -/
def orStop {α : Type} (e : Except State α) (f : α → State) : State :=
  match e with
  | .error s => s
  | .ok a => f a

/-- Bytes of a frame written, or the fault that they meet (R332, R333). -/
def State.frameBytes (s : State) (c x off : Nat) (bs : List Byte) : Except State State :=
  let p := (s.ctxAt x).part
  match s.ipaFault p (frameAt x c + off) bs.length .store with
  | some f => .error (s.stallArea 10 c x f)
  | none => .ok (s.writeIpa p (frameAt x c + off) bs)

/-- The words of HDR that a complete frame holds at 0x20 (R330): STATUS 2. -/
def frameDone (x : Nat) : List Byte := leBytes 4 (x * 2 ^ 16 + 2)

/-- The records of a core's save of a context written so far, HDR among them, and the time of the capture. -/
def State.savesDone (s : State) (c : Nat) (q : Preemption) : Nat × Nat := (q.written.find c).getD (0, s.time)

/-- What a core's save of a context writes next: place and bytes of HDR or a record, nothing after the last (R332). -/
def State.nextRecordOf (s : State) (c x : Nat) (q : Preemption) : Option (Nat × List Byte) :=
  let w := s.savesDone c q
  let f := s.capture c x w.2
  if w.1 = 0 then some (0, frameHdr f x c 1) else ((placed 64 f.recs)[w.1 - 1]?).map fun r => (r.1, r.2.2)

/-- FRAME_WRITE (R332, R333): one record, HDR with STATUS 1 first; after the last, STATUS 2, and the context leaves the
core. (DEDUCED, log entry 54) -/
def State.frameWrite (s : State) (c x : Nat) : State :=
  match (s.ctxAt x).preemption with
  | none => s
  | some q =>
    if !s.frameOpen c x q then s
    else
      let w := s.savesDone c q
      match s.nextRecordOf c x q with
      | some r =>
        orStop (s.frameBytes c x r.1 r.2) fun s1 => s1.modCtx x fun C =>
          { C with preemption := C.preemption.map fun q => { q with written := q.written.put c (w.1 + 1, w.2) } }
      | none =>
        let f := s.capture c x w.2
        orStop (s.frameBytes c x 0x20 (frameDone x)) fun s1 => (s1.vacate f).flowIdle.modCtx x fun C =>
          { C with
            frames := C.frames.put c f
            preemption := C.preemption.map fun q => { q with framesDue := q.framesDue.filter (· != c), written := q.written.del c } }

/-! ### Packets reissued (R324, R334) -/

/-- A packet reissued as a load of its thread, performed afresh where its address now leads (R324). -/
def State.reissue (s : State) (q : Req) : Except (Nat × Nat × Nat) State :=
  let k := q.thread
  let x : Except (Nat × Nat × Nat) (Nat × Space) :=
    if q.space = .spad then .ok (q.pa, .spad)
    else match s.translateFor k q.va .load with
      | .ok x => .ok (x.pa, if x.sync then .sluice else if onHostPath s x.pa then .hostPath else .home)
      | .error (.fault kind ipa w) => .error (kind, ipa, accBits .load w)
      | .error _ => .error (5, 0, accBits .load false)
  match x with
  | .error e => .error e
  | .ok (pa, space) =>
    let r := { q with
      tag := (s.slotTags.find (groupOf k)).getD 0, core := coreOf k, oslot := (s.grpOf k).oslot, pa := pa, space := space
      joined := none, dropFill := false, sentAt := s.time, keySlot := s.sendSlot q.part pa, link := s.linkFor q.part pa, lost := false, state := .pending }
    let s1 : State := { s with reqs := s.reqs.put s.nextReq r, nextReq := s.nextReq + 1 }
    .ok (if r.space = .spad then s1.modCore r.core fun c => { c with spadQueue := c.spadQueue ++ [s.nextReq] } else s1)

/-- The packets of a thread reissued in program order. One whose page cannot be read any more waits, with those after it, for
the replay of a fault record; the spec says nothing of it. (DESIGN CHOICE, log entry 99) -/
def State.reissueFor (s : State) (x k : Nat) : State :=
  let out := ((s.ctxAt x).packets.filter fun q => q.thread == k).foldl (fun (acc : State × List Req) q =>
    if !acc.2.isEmpty then (acc.1, acc.2 ++ [q])
    else match acc.1.reissue q with
      | .ok s1 => (s1, [])
      | .error (kind, ipa, a) =>
        ((acc.1.post (acc.1.partOf (coreOf k)) { acc.1.recordOf k with kind := kind, va := q.va, ipa := ipa, acc := a, flt := (laneBit k).toNat }
          (some (.threads [k]))).1, [q])) (s, [])
  out.1.modCtx x fun C => { C with packets := (C.packets.filter fun q => q.thread != k) ++ out.2 }

/-! ### Replay (R320, R326, R333) -/

def Thread.unpark (now seq : Nat) (t : Thread) : Thread := if t.state = .parked seq then t.ready now else t

/-- A frame in which the threads parked on a record are Ready and its held operations go on. -/
def Frame.replay (now seq : Nat) (f : Frame) : Frame :=
  { f with
    threads := f.threads.changeAll fun _ t => t.unpark now seq
    engines := f.engines.changeAll fun _ o => if o.held = some seq then { o with held := none } else o }

/-- The places of the THREAD records of a frame's blocks. -/
def Frame.threadPlaces (f : Frame) : Tbl Nat :=
  f.blocks.flatMap fun b =>
    (placed ((f.places.find b.1).getD 0) ((f.blockRecs 0 b.1 b.2).map Rec.padded)).filterMap fun r =>
      match r.2.1 with | .thread k => some (k, r.1) | _ => none

/-- The THREAD records of a frame that a replay marks Ready (R326): `written` of its records stand in memory. -/
def State.markReady (s : State) (c x : Nat) (written : Nat) (old new : Frame) : State :=
  old.threadPlaces.foldl (fun (acc : State) kp =>
    match old.threads.find kp.1, new.threads.find kp.1 with
    | some t, some t' =>
      if t = t' || !(((placed 64 old.recs).take written).any fun r => r.1 == kp.2) then acc
      else acc.writeIpa (s.ctxAt x).part (frameAt x c + kp.2) (threadRecord kp.1 t')
    | _, _ => acc) s

/-- A replay reaches the frames of a context, written or in writing. (DEDUCED, log entry 36) -/
def State.replayFrames (s : State) (p seq : Nat) : State :=
  s.ctxs.foldl (fun (acc : State) (cx : Nat × Ctx) =>
    if cx.2.part != p then acc
    else
      let acc1 := cx.2.frames.foldl (fun (a : State) (cf : Nat × Frame) =>
        let f := cf.2.replay s.time seq
        (a.markReady cf.1 cx.1 (cf.2.recs.length) cf.2 f).modCtx cx.1 fun C => { C with frames := C.frames.put cf.1 f }) acc
      ((cx.2.preemption.map (·.written)).getD []).foldl (fun (a : State) (w : Nat × Nat × Nat) =>
        let f := s.capture w.1 cx.1 w.2.2
        a.markReady w.1 cx.1 (w.2.1 - 1) f (f.replay s.time seq)) acc1) s

/-- REPLAY of a record of a partition: once, and without effect where its party is gone. (DEDUCED, log entry 36) -/
def State.replaySeq (s : State) (p seq : Nat) : State :=
  match (s.partAt p).parked.find seq with
  | none => s
  | some party =>
    let s1 := (match party with
      | .threads _ | .double .. => s.replayFrames p seq
      | .engine _ => s.replayFrames p seq
      | _ => s).modPart p fun q => { q with parked := q.parked.del seq }
    match party with
    | .threads ks =>
      let s2 : State := { s1 with threads := s1.threads.changeAll fun k t => if s.partOf (coreOf k) = p then t.unpark s.time seq else t }
      ks.foldl (fun (acc : State) k => acc.reissueFor (acc.ctxOfGrid (acc.blkOf k).grid) k) s2
    | .double .. => { s1 with threads := s1.threads.changeAll fun k t => if s.partOf (coreOf k) = p then t.unpark s.time seq else t }
    | .engine _ => { s1 with engOps := s1.engOps.changeAll fun _ o => if o.part = p && o.held = some seq then { o with held := none } else o }
    | .saving c _ | .restoring c _ =>
      s1.modCore c fun C => if C.frozen = some seq then { C with frozen := none } else C

/-! ### The collector (R327) -/

/-- A record that the collector or the context engine posts about a context. -/
def ctxRec (x kind done : Nat) : FaultRec := { FaultRec.blank with ctx := x, src := 6, kind := kind, done := done }

/-- PREEMPT_DONE. -/
def State.preemptDone (s : State) (x : Nat) : State :=
  match s.ctxs.find x with
  | none => s
  | some C =>
    match C.preemption with
    | none => s
    | some q =>
      if !q.missing.isEmpty || !q.framesDue.isEmpty then s
      else ((s.modCtx x fun C => ({ C with preemption := none, suspended := some q.kind } : Ctx).settle).post C.part (ctxRec x 12 0) none).1

/-- The save of a context on a core is itself paused on a fault, which is no lateness (R327, R333). -/
def State.paused (s : State) (x c : Nat) : Bool :=
  match (s.coreAt c).frozen with
  | none => false
  | some seq => match (s.partAt (s.ctxAt x).part).parked.find seq with
    | some (.saving _ y) => y == x
    | _ => false

/-- The mask of the engine classes still missing; bit 0 also stands for frames not yet written. -/
def State.lateMask (s : State) (x : Nat) (q : Preemption) : Nat :=
  (List.range 10).foldl (fun m i =>
    if q.missing.any (fun m => m.2 == i && !s.paused x m.1) || (i == 0 && q.framesDue.any fun c => !s.paused x c) then m + 2 ^ i else m) 0

/-- PREEMPT_LATE. -/
def State.preemptLate (s : State) (x : Nat) : State :=
  match s.ctxs.find x with
  | none => s
  | some C =>
    match C.preemption with
    | none => s
    | some q =>
      if q.latePosted || s.time < q.since + 42500 || s.lateMask x q = 0 then s
      else ((s.modCtx x fun C => { C with preemption := some { q with latePosted := true } }).post C.part (ctxRec x 13 (s.lateMask x q)) none).1

/-- RETIRED_TIMER_EXPIRE (R328). -/
def State.timerExpire (s : State) (c x : Nat) : State :=
  match (s.ctxAt x).timers.find c with
  | some (n, count) =>
    if n ≠ 0 && count ≥ n then (s.modCtx x fun C => { C with timers := C.timers.put c (0, count) }).beginPreempt x .software else s
  | none => s

/-! ### Restore (R334) -/

/-- A waiting thread retests its release condition (R326). -/
def State.retest (s : State) (k : Nat) : State :=
  let t := s.thr k
  let b := (s.grpOf k).block
  match t.state with
  | .waiting w =>
    match w with
    | .bar id => s.testBar b id
    | .rejoin j => s.testRejoin (groupOf k) j
    | .waitg off .. => s.releaseWaitg b off
    | .cpwait .. => s.testCpwait k
    | .mwait .. => s.testMwait (groupOf k)
    | .sleep d => if s.time ≥ d && !t.isStopped then s.modThr k fun t => t.ready s.time else s
    | .cjoin .. => s.wakeJoins
    | .caps .. => s.modThr k fun t => t.release s.time
    | .displaced _ pa =>
      match (if t.isStopped then none else t.capsule) with
      | some c =>
        (match s.findDisplaced pa c.ident with
         | some d => (s.dropDisplaced pa c.ident).modThr k fun t => t.collect s.time c d
         | none => s)
      | none => s
    | .none => s.modThr k fun t => t.release s.time
  | _ => s

/-- A list of cursors free in the quadrants that a block's q0 gives them (R334). -/
def State.cursorsFree (s : State) (c : Nat) (f : Frame) (b : Nat) (q0 q1 : Nat) : Bool :=
  f.cursors.all fun cu => cu.2.2.tag != b || !(s.cursor (c * 4 + (cu.1 + 4 - q0 + q1) % 4) cu.2.1).valid

/-- The spot of a saved block: its core first, otherwise the core that R306 gives. -/
def State.savedSpot (s : State) (f : Frame) (c b : Nat) (B : Block) : Option (Nat × Spot) :=
  let n := s.savedNeed f b B
  let mask := ((s.launches.find B.grid).map (·.mask)).getD []
  let at'' (i : Nat) : Option Spot := s.spot i n fun q => s.cursorsFree i f b B.q0 q
  match (if mask.contains c then at'' c else none) with
  | some x => some (c, x)
  | none => (s.leastResident (mask.filter fun i => (at'' i).isSome)).bind fun i => (at'' i).map fun x => (i, x)

/-- The rings of a frame loaded again into their slots, once for each core and owner that it comes back to (R334, step 3). -/
def State.restoreRings (s : State) (c o : Nat) (f : Frame) : State :=
  let owner := (s.slotAt c o).owner
  if f.ringsOn.contains (c, owner) then s
  else f.rings.foldl (fun (acc : State) r =>
    if r.owner = owner then acc.modRing c r.slot fun x => x.load o 0 0 (some r.words)
    else acc) s

/-- The physical lines of a saved window, looked up again as SMAP looks them up (R334, step 2), or the fault met.
(DEDUCED, log entry 37) -/
def State.windowLines2 (s : State) (p : Nat) (d : OwnerDesc) (w : Stash) : Except (Nat × AreaFault) (List Nat) :=
  (List.range (w.len / 128)).mapM fun i =>
    let va := addr48 (w.va + 128 * i)
    match s.walk p d.owner d.s1root va .store with
    | .ok x => if x.sync then .error (5, ⟨va, 0, accBits .store false⟩) else .ok x.pa
    | .error (.fault kind ipa wk) => .error (kind, ⟨va, ipa, accBits .store wk⟩)
    | .error _ => .error (5, ⟨va, 0, accBits .store false⟩)

/-- The windows of a saved block with their lines looked up. -/
def State.windowsAgain (s : State) (p : Nat) (B : Block) : Except (Nat × AreaFault) (Tbl Stash) :=
  if B.windows.isEmpty then .ok []
  else match s.ownerDesc p B.ident.owner with
    | none => .ok B.windows
    | some d => B.windows.mapM fun w => (s.windowLines2 p d w.2).map fun pas => (w.1, { w.2 with pas := pas, lines := pas.map fun _ => .lost })

/-- A frame with what its bytes hold for a block: registers, scratchpad, cursor images (R334, step 1, R361). -/
def State.readFrame (s : State) (p base : Nat) (f : Frame) (b : Nat) (B : Block) : Frame × Block :=
  let recs := placed ((f.places.find b).getD 0) ((f.blockRecs 0 b B).map Rec.padded)
  let bytes (r : Nat × Rec) : List Byte := s.readIpaRun p (base + r.1) r.2.2.length
  let threads := recs.foldl (fun (t : Tbl Thread) r =>
    match r.2.1 with | .thread k => t.change k (Thread.ofRecord (bytes r)) | _ => t) f.threads
  let spad := recs.foldl (fun (m : List Host.Cell) r =>
    match r.2.1 with | .spad _ => Memory.write [] 0 (((bytes r).drop 8).take B.scratch) | _ => m) B.spad
  let cursors := (List.range f.cursors.length).filterMap fun i => (f.cursors[i]?).map fun c =>
    (c.1, c.2.1, Cursor.ofImage (s.readIpaRun p (base + f.tail + 80 * i + 16) 64) true c.2.2.tag)
  ({ f with threads := threads, cursors := cursors }, { B with spad := spad })

/-- A saved block back on a core (R334, steps 1 to 6), after its owner slot was made ready. (DEDUCED, log entry 37) -/
def State.restoreBlock (s : State) (y : Nat) (f : Frame) (c b : Nat) (B : Block) (x : Spot) : State :=
  let old := f.groups.filter fun g => g.2.block == b
  let key (g : Nat) : Nat :=
    match (old.map (·.1)).findIdx? (· == g) with
    | some i => let r := x.groups.getD i (0, 0, 0); groupKey c r.1 r.2.1
    | none => g
  let tkey (k : Nat) : Nat := threadKey (key (groupOf k)) (laneOf k)
  let hold := s.slotReady c x
  let sl := s.slotAt c x.oslot
  let s1 := s.loadImage (s.partOf c) c B.ident.owner B.cbase B.cunits
  let s2 : State := { s1 with
    blocks := s1.blocks.put b { B with core := c, spadBase := x.spad, oslot := x.oslot, q0 := x.q0, groups := old.map fun g => key g.1
                                       windows := B.windows.changeAll fun _ w => { w with byThread := tkey w.byThread } }
    groups := (List.range old.length).foldl (fun t i =>
      match old[i]? with
      | some g => t.put (key g.1) { g.2 with oslot := x.oslot, regBase := (x.groups.getD i (0, 0, 0)).2.2 }
      | none => t) s1.groups
    threads := (f.threads.filter fun t => old.any (·.1 == groupOf t.1)).foldl (fun t kt =>
      t.put (tkey kt.1) { kt.2 with readyAt := s.time, startTill := max kt.2.startTill hold }) s1.threads }
  let s2 := B.windows.foldl (fun (acc : State) w => acc.askLines (tkey w.2.byThread) b w.1 w.2.va w.2.pas) s2
  let s3 := s2.restoreRings c x.oslot f
  let s4 := f.cursors.foldl (fun (acc : State) cu =>
    if cu.2.2.tag = b then acc.setCursor (c * 4 + (cu.1 + 4 - B.q0 + x.q0) % 4) cu.2.1 cu.2.2 else acc) s3
  let s5 := (f.engines.filter fun e => e.2.block == b).foldl (fun (acc : State) e =>
    { acc with engOps := acc.engOps.put e.1 { e.2 with thread := tkey e.2.thread, core := c, oslot := x.oslot, s1root := sl.s1root } }) s4
  let s6 := s5.modCtx y fun C => { C with packets := C.packets ++ (f.packets.filter fun q => q.block == b).map fun q => { q with thread := tkey q.thread } }
  let ks := (f.threads.keys.filter fun k => old.any (·.1 == groupOf k)).map tkey
  let s7 := ks.foldl (fun (acc : State) k => acc.reissueFor y k) s6
  let s8 := ks.foldl (fun (acc : State) k => match (acc.thr k).capsule with | some cap => acc.reschedule cap.ident | none => acc) s7
  ks.foldl (fun (acc : State) k => acc.retest k) s8

/-- A frame without a block that has been restored to a core. -/
def Frame.drop (f : Frame) (b c owner : Nat) : Frame :=
  let gs := (f.groups.filter fun g => g.2.block == b).map (·.1)
  { f with
    blocks := f.blocks.del b
    groups := f.groups.filter fun g => g.2.block != b
    threads := f.threads.filter fun t => !gs.contains (groupOf t.1)
    packets := f.packets.filter fun q => q.block != b
    ringsOn := (c, owner) :: f.ringsOn }

/-- The frame with a block restored to core `i`; its STATUS becomes 3 with the last (R334). -/
def State.dropSaved (s : State) (x c b i owner : Nat) : State :=
  match (s.ctxAt x).frames.find c with
  | none => s
  | some f =>
    let f1 := f.drop b i owner
    if f1.blocks.isEmpty then
      (s.writeIpa (s.ctxAt x).part (frameAt x c + 0x20) (leBytes 4 (x * 2 ^ 16 + 3))).modCtx x fun C =>
        ({ C with frames := C.frames.del c } : Ctx).settle
    else s.modCtx x fun C => { C with frames := C.frames.put c f1 }

/-- The fault that the reading of a block's part of a frame meets (R333): HDR, the block's records, those after the blocks. -/
def State.readFault (s : State) (p base : Nat) (f : Frame) (b : Nat) (B : Block) : Option AreaFault :=
  s.ipaFault p base 64 .load
    <|> s.ipaFault p (base + (f.places.find b).getD 0) (recBytes ((f.blockRecs 0 b B).map Rec.padded)) .load
    <|> s.ipaFault p (base + f.tail) (f.bytes - f.tail) .load

/-- The windows of a saved block with their lines looked up again, where its frame and its windows can be read; otherwise
core `i` waits on a fault record (R333, R334). -/
def State.restoreReads (s : State) (x c : Nat) (f : Frame) (i b : Nat) (B : Block) : Except State (Tbl Stash) :=
  let p := (s.ctxAt x).part
  match s.readFault p (frameAt x c) f b B with
  | some e => .error (s.stallArea 11 i x e)
  | none =>
    match s.windowsAgain p B with
    | .error e => .error (s.stallArea e.1 i x e.2)
    | .ok ws => .ok ws

/-- The core that a saved retire record goes to (R16, R334): its own first, otherwise the one with fewest resident threads,
in the effective mask, of the partition, with a record free. -/
def State.recordSpot (s : State) (x c : Nat) (B : Block) : Option Nat :=
  let ok (i : Nat) : Bool := decide ((s.coreAt i).part = some (s.ctxAt x).part) && decide (s.retireRecords i < 256)
  let mask := (((s.launches.find B.grid).map (·.mask)).getD []).filter ok
  if mask.contains c then some c else s.leastResident mask

/-- The next block of a frame restored: a retired one as its record, any other at its place (R334). -/
def State.restoreNext (s : State) (x c : Nat) (f : Frame) (b : Nat) (B : Block) : State :=
  if B.retired then
    (s.recordSpot x c B).elim s fun i => ({ s with blocks := s.blocks.put b { B with core := i } } : State).dropSaved x c b i 0
  else (s.savedSpot f c b B).elim s fun i =>
    if s.contWaits i.1 then s
    else orStop (s.restoreReads x c f i.1 b B) fun ws =>
      orStop (s.takeSlot (s.ctxAt x).part i.1 B.ident.owner x i.2) fun u =>
        let r := s.readFrame (s.ctxAt x).part (frameAt x c) f b { B with windows := ws }
        (u.restoreBlock x r.1 i.1 b r.2 i.2).dropSaved x c b i.1 B.ident.owner

/-- CONTEXT_RESTORE: the next block of the frame of a core. -/
def State.contextRestore (s : State) (x c : Nat) : State :=
  let C := s.ctxAt x
  if C.preemption.isSome || C.suspended ≠ some .eligible then s
  else match C.frames.find c with
    | none => s.modCtx x (·.settle)
    | some f =>
      match f.blocks with
      | [] => s.modCtx x fun C => ({ C with frames := C.frames.del c } : Ctx).settle
      | (b, B) :: _ => s.restoreNext x c f b B

/-! ### Destruction (R335) -/

/-- ABORT of a context. -/
def State.abortCtx (s : State) (x : Nat) : State :=
  let C := s.ctxAt x
  let ofCtx (g : Nat) : Bool := s.ctxOfGrid g == x && (s.launches.find g).isSome
  let idents := (s.threads.filterMap fun kt => if s.ctxOfGrid (s.blkOf kt.1).grid == x then kt.2.capsule.map (·.ident) else none)
    ++ C.frames.flatMap fun f => f.2.threads.filterMap fun t => t.2.capsule.map (·.ident)
  let here := s.blocks.filter fun b => ofCtx b.2.grid
  let bs := here.map (·.1)
  let s0 := bs.foldl (fun (acc : State) b => (acc.blk b).windows.keys.foldl (fun (a : State) w => a.unmap b w) acc) s
  let s1 := idents.foldl (fun (acc : State) i => acc.deschedule i) s0
  let f : Frame := { status := 4, blocks := here, groups := s.groups.filter fun g => bs.contains g.2.block, threads := [], packets := []
                     engines := [], cursors := [], rings := [], savedAt := 0, places := [], tail := 0, bytes := 0, ringsOn := [] }
  let s2 := (s.ctxThreads x).foldl (fun (acc : State) k => acc.dropWaiter k) s1
  let s3 := s2.vacate f
  let cores := C.frames.keys ++ ((C.preemption.map fun q => q.framesDue.filter fun c => (q.written.find c).isSome || s.paused x c).getD [])
  let s4 := cores.foldl (fun (acc : State) c => acc.writeIpa C.part (frameAt x c + 0x20) (leBytes 4 (x * 2 ^ 16 + 4))) s3
  let mine (l : Nat) : Bool := s.ctxOfGrid l == x
  let s5 : State := { s4 with
    mxOps := s4.mxOps.filter fun o => !bs.contains o.2.block
    monitors := s4.monitors.filter fun m => !mine m.carried.grid
    childQs := s4.childQs.changeAll fun _ q => { q with waiting := q.waiting.filter fun c => !mine c.parent }
    launches := s4.launches.filter fun l => l.2.ctx != x
    sluices := s4.sluices.map fun d =>
      { d with displaced := d.displaced.filter fun e => e.holder / 2 ^ 20 != x, dead := idents ++ d.dead }
    cores := s4.cores.changeAll fun _ K =>
      { K with frozen := match K.frozen with
          | some seq => (match (s.partAt C.part).parked.find seq with
              | some (.saving _ y) | some (.restoring _ y) => if y = x then none else some seq
              | _ => some seq)
          | none => none } }
  let s6 := (s.launches.filterMap fun l => if l.2.ctx = x then l.2.queue else none).foldl (fun (acc : State) q => acc.noteIdle q)
    (s5.modCtx x fun C => { C with preemption := none, suspended := none, frames := [], timers := [], packets := [] })
  (s6.post C.part (ctxRec x 14 0) none).1.flowIdle

/-! ### Commands of the context engine (R322) -/

/-- A context belongs to a partition: it has run there, or a queue of it names it (R371). (DEDUCED, log entry 50) -/
def State.ownsCtx (s : State) (p x : Nat) : Bool :=
  match s.ctxs.find x with
  | some C => C.part == p
  | none =>
    let P := s.partAt p
    (List.range (P.qCnt1 + 1)).any fun i => let d := s.queueDesc p (P.qBase + i); d.valid && d.ctx == x

/-- PREEMPT: a context that has run nothing yet is only held. (DEDUCED, log entry 50) -/
def State.cmdPreempt (s : State) (p x : Nat) (hold : Bool) : State :=
  (s.ensureCtx p x).beginPreempt x (if hold then .software else .eligible)

/-- RESTORE: whoever held the context, it may be restored. -/
def State.cmdRestore (s : State) (x : Nat) : State := (s.release x .software).release x .dispatcher

/-- PTIMER. -/
def State.cmdPtimer (s : State) (p x c n : Nat) : State :=
  (s.ensureCtx p x).modCtx x fun C => { C with timers := C.timers.put c (n, 0) }

/-! ### Events -/

/-- `FAULT_RECORD_POST` (R318). -/
def execFaultRecordPost (p : Nat) (s : State) : Result := go (s.postHeld p)

/-- `FAULTQ_CONS_WRITE` (R318). -/
def execFaultqConsWrite (p v : Nat) (s : State) : Result := go (s.faultqCons p v)

/-- `RETIRED_TIMER_EXPIRE` (R328). -/
def execRetiredTimerExpire (c ctx : Nat) (s : State) : Result := go (s.timerExpire c ctx)

/-- `ENGINE_ACK` (R325). -/
def execEngineAck (c ctx cls : Nat) (s : State) : Result := go (s.engineAck c ctx cls)

/-- `FRAME_WRITE` (R332). -/
def execFrameWrite (c ctx : Nat) (s : State) : Result := go (s.frameWrite c ctx)

/-- `PREEMPT_DONE` (R327). -/
def execPreemptDone (ctx : Nat) (s : State) : Result := go (s.preemptDone ctx)

/-- `PREEMPT_LATE` (R327). -/
def execPreemptLate (ctx : Nat) (s : State) : Result := go (s.preemptLate ctx)

/-- `CONTEXT_RESTORE` (R334). -/
def execContextRestore (ctx c : Nat) (s : State) : Result := go (s.contextRestore ctx c)

end Sys2Proof.Machine
end

