-- ==== Sys2Proof/Machine/Commands.lean ====
section
/-! DEFINITION. The partition's command ring (20 R369–R372, R377–R382; 10 R271; 13 R303; 14 R318, R322; 16 R341): what
each command checks, its effect and the STATUS it answers. A command that has to wait changes nothing of its ring; it is
tried again. -/

namespace Sys2Proof.Machine

/-! ### Records and STATUS (R369) -/

/-- The number that stands for the package management ring. -/
def mgmtRing : Nat := 16

/-- STATUS codes. -/
def stDone : Nat := 1
def stBadCmd : Nat := 2
def stBadArg : Nat := 3
def stBusy : Nat := 4
def stDenied : Nat := 5

/-- A ring is there: the management ring, or that of a partition that exists. -/
def State.hasRing (s : State) (ring : Nat) : Bool := ring == mgmtRing || (decide (ring < 16) && (s.parts.find ring).isSome)

/-- Base, log2 of the size, PROD and CONS of a ring. -/
def State.ringOf (s : State) (ring : Nat) : Nat × Nat × Nat × Nat :=
  if ring = mgmtRing then (s.pkg.mgmtBase, s.pkg.mgmtLog2, s.pkg.mgmtProd, s.pkg.mgmtCons)
  else let p := s.partAt ring; (p.ctlBase, p.ctlLog2, p.ctlProd, p.ctlCons)

/-- The address of the record at CONS. -/
def State.recordAt (s : State) (ring : Nat) : Nat := let r := s.ringOf ring; r.1 + 64 * (r.2.2.2 % 2 ^ r.2.1)

/-- CONS raised. -/
def State.raiseCons (s : State) (ring : Nat) : State :=
  if ring = mgmtRing then s.modPkg fun g => { g with mgmtCons := (g.mgmtCons + 1) % 2 ^ 32 }
  else s.modPart ring fun p => { p with ctlCons := (p.ctlCons + 1) % 2 ^ 32 }

/-- What the STATUS of a ring's command waits for: the largest GWCT of the ring's writes, and a STATUS that waits. -/
def State.ringWait (s : State) (ring : Nat) : Nat × Option Nat :=
  if ring = mgmtRing then (s.pkg.mgmtWct, s.pkg.mgmtDue) else let p := s.partAt ring; (p.ctlWct, p.ctlDue)

def State.setDue (s : State) (ring : Nat) (st : Option Nat) : State :=
  if ring = mgmtRing then s.modPkg fun g => { g with mgmtDue := st } else s.modPart ring fun p => { p with ctlDue := st }

/-- The ring's next STATUS waits until T exceeds a GWCT or a MAXEXP. -/
def State.ringAfter (s : State) (ring g : Nat) : State :=
  if ring = mgmtRing then s.modPkg fun k => { k with mgmtWct := max k.mgmtWct g }
  else s.modPart ring fun p => { p with ctlWct := max p.ctlWct g }

/-- Bytes written by a command of a ring. -/
def State.ringStore (s : State) (ring pa : Nat) (bs : List Byte) : State :=
  let w := s.writeLines none pa bs
  w.1.ringAfter ring w.2

/-- STATUS in [39:32] of the record at CONS, then CONS. -/
def State.sayStatus (s : State) (ring status : Nat) : State :=
  (s.deviceWrite (s.recordAt ring + 4) [BitVec.ofNat 8 status]).raiseCons ring

/-- The answer to the command at CONS: its STATUS, with the wait of a .sys release for what the ring's commands
wrote (R240). (DEDUCED, log entry 102) -/
def State.answer (s : State) (ring status : Nat) : State :=
  if !s.hasRing ring then s
  else if (s.ringWait ring).1 < s.time then s.sayStatus ring status
  else s.setDue ring (some status)

/-- A STATUS that waits is written once T exceeds what it waits for. -/
def State.ringDue (s : State) (ring st : Nat) : State :=
  if (s.ringWait ring).1 < s.time then (s.setDue ring none).sayStatus ring st else s

/-- PROD of a ring raised by the host (R367). -/
def State.ringProd (s : State) (ring prod : Nat) : State :=
  if ring = mgmtRing then s.modPkg fun g => { g with mgmtProd := prod % 2 ^ 32 }
  else s.modPart ring fun p => { p with ctlProd := prod % 2 ^ 32 }

/-! ### Operands (R371) -/

/-- The bits [lo + w − 1 : lo] as a mask. -/
def fieldMask (lo w : Nat) : Nat := 2 ^ lo * (2 ^ w - 1)

/-- A physical, intermediate or virtual address in [47:0]. -/
def mAddr : Nat := fieldMask 0 48

/-- A physical range (R370). -/
def mRange : Nat := fieldMask 16 32 + fieldMask 48 16

end Sys2Proof.Machine

namespace Sys2Proof

/-- The operands. -/
def CmdOps.list (o : CmdOps) : List (BitVec 64) := [o.a0, o.a1, o.a2, o.a3, o.a4, o.a5, o.a6]

/-- No bit outside the masks of the operands that the command names; an operand beyond the list is reserved whole. -/
def CmdOps.fits (o : CmdOps) (masks : List Nat) : Bool :=
  (List.range 7).all fun i => let a := (o.list.getD i 0).toNat; a &&& masks.getD i 0 == a

/-- A field of an operand. -/
def CmdOps.f (o : CmdOps) (i lo w : Nat) : Nat := field (o.list.getD i 0).toNat lo w

/-- The first page and the number of pages of a range. -/
def CmdOps.pages (o : CmdOps) (i : Nat) : List Nat := (List.range (o.f i 48 16 + 1)).map (· + o.f i 16 32)

/-- The target of a key command: a channel, or a key id. -/
def CmdOps.keyTarget (o : CmdOps) : Nat ⊕ Nat := if o.f 0 15 1 = 1 then .inl (o.f 0 0 6) else .inr (o.f 0 0 13)

/-- Reserved bits of A0 of a key command. -/
def CmdOps.keyFits (o : CmdOps) : Bool := o.f 0 15 1 == 0 || o.f 0 6 7 == 0

end Sys2Proof

namespace Sys2Proof.Machine

/-- The result of a command: the state, and its STATUS unless it waits. -/
abbrev CmdEnd := State × Option Nat

/-- A partition command. (DEDUCED, log entries 55, 56) -/
def runCmd (p : Nat) (o : CmdOps) (masks : List Nat) (body : State → CmdEnd) (s : State) : State :=
  if !(decide (p < 16) && (s.parts.find p).isSome) then s.answer p stBadCmd
  else if !o.fits masks then s.answer p stBadArg
  else match body s with
    | (s', some st) => s'.answer p st
    | (s', none) => s'

/-- A management command. (DEDUCED, log entry 55) -/
def runMgmt (p : Nat) (o : CmdOps) (masks : List Nat) (body : State → CmdEnd) (s : State) : State :=
  if p ≠ mgmtRing then s.answer p stBadCmd
  else if !o.fits masks then s.answer p stBadArg
  else match body s with
    | (s', some st) => s'.answer p st
    | (s', none) => s'

/-- A page that a partition's commands may name by its physical address: an HBM page of it, or host memory for an open
partition (R367, R376). -/
def State.ownsPage (s : State) (p pg : Nat) : Bool :=
  match prange s (65536 * pg) with
  | .hbm => s.pageParts.find pg == some p
  | .host => !(s.partAt p).world
  | _ => false

/-- Every page of a run of bytes is the partition's. (DEDUCED, log entry 56) -/
def State.ownsBytes (s : State) (p pa n : Nat) : Bool :=
  (List.range ((pa % 65536 + n + 65535) / 65536)).all fun i => s.ownsPage p (pa / 65536 + i)

/-- A run of bytes of the partition that its commands may read and write: none of its pages has the record NONE, which
cannot be read at all (R274, R377). (DEDUCED, log entry 106) -/
def State.reachesBytes (s : State) (p pa n : Nat) : Bool :=
  s.ownsBytes p pa n && (List.range ((pa % 65536 + n + 65535) / 65536)).all fun i => s.tableHeld (pa / 65536 * 65536 + 65536 * i)

/-- Bytes read at a physical address. -/
def State.physRead (s : State) (pa n : Nat) : List Byte := (List.range n).flatMap fun i => s.homeBytes (pa + i) 1

/-! ### The context engine's commands (R322) -/

/-- The owner of a slot in progress, once its header has been read. -/
def BrineStage.owner : BrineStage → Option Nat
  | .fetch _ => none
  | .write o .. => some o
  | .publish o _ => some o
  | .send o .. => some o

/-- The slots in progress of brine channels whose owner runs in a context are broken by its pre-emption (R387).
(DEDUCED, log entry 66) -/
def State.breakBrine (s : State) (p x : Nat) : State :=
  let runs (o : Nat) : Bool := s.launches.any fun l => l.2.part == p && l.2.ctx == x && l.2.record.owner == o
  s.modPart p fun P => { P with
    brine := P.brine.changeAll fun _ b => match b.busy with
      | some st => if st.owner.any runs then { b with busy := none, desync := true } else b
      | none => b }

/-- PREEMPT (R322, R323). -/
def preemptOp (p : Nat) (o : CmdOps) : State → State :=
  runCmd p o [fieldMask 0 12 + fieldMask 16 1] fun s =>
    let x := o.f 0 0 12
    if !s.ownsCtx p x then (s, some stDenied)
    else ((s.breakBrine p x).cmdPreempt p x (o.f 0 16 1 == 1), some stDone)

/-- RESTORE (R334). -/
def restoreOp (p : Nat) (o : CmdOps) : State → State :=
  runCmd p o [fieldMask 0 12] fun s =>
    if !s.ownsCtx p (o.f 0 0 12) then (s, some stDenied) else (s.cmdRestore (o.f 0 0 12), some stDone)

/-- REPLAY (R320). -/
def replayOp (p : Nat) (o : CmdOps) : State → State :=
  runCmd p o [fieldMask 0 64] fun s => (s.replaySeq p o.a0.toNat, some stDone)

/-- ABORT (R335). -/
def abortOp (p : Nat) (o : CmdOps) : State → State :=
  runCmd p o [fieldMask 0 12] fun s =>
    let x := o.f 0 0 12
    if !s.ownsCtx p x then (s, some stDenied)
    else (((s.breakBrine p x).ensureCtx p x).abortCtx x, some stDone)

/-- PTIMER (R328). -/
def ptimerOp (p : Nat) (o : CmdOps) : State → State :=
  runCmd p o [fieldMask 0 12 + fieldMask 16 8, fieldMask 0 64] fun s =>
    let x := o.f 0 0 12
    let c := o.f 0 16 8
    if !s.ownsCtx p x || (s.coreAt c).part != some p then (s, some stDenied)
    else (s.cmdPtimer p x c o.a1.toNat, some stDone)

/-! ### Invalidations (R271) -/

/-- What an invalidation covers: translations, table entries of the walk caches, instruction-cache frames, and addresses of
an owner that requests were translated at. -/
structure Covers where
  tlb : TlbEntry → Bool
  walk : WalkEntry → Bool
  frame : ICFrame → Bool
  addr : Nat → Nat → Bool

/-- Two runs of pages, each its first page and its length, meet. -/
def pagesMeet (a n b m : Nat) : Bool := decide (a < b + m) && decide (b < a + n)

/-- The pages of a cached translation, virtual and intermediate, meet a run of pages. -/
def TlbEntry.vmeets (e : TlbEntry) (lo n : Nat) : Bool := pagesMeet e.vpage (2 ^ (e.bits - 16)) lo n
def TlbEntry.imeets (e : TlbEntry) (lo n : Nat) : Bool := pagesMeet e.ipage (2 ^ (e.bits - 16)) lo n

/-- 64 KiB pages that a table entry of a level translates. -/
def levelPages (level : Nat) : Nat := 2 ^ (match level with | 1 => 26 | 2 => 13 | _ => 0)

def WalkEntry.meets (w : WalkEntry) (lo n : Nat) : Bool := pagesMeet (w.index * levelPages w.level) (levelPages w.level) lo n

/-- A partition without what an invalidation covers: its quadrants' and cores' translations and table entries, and the
instruction-cache frames that were filled through them (R270, R271). (DESIGN CHOICE, log entry 31; DEDUCED, log entry 57) -/
def State.dropXlat (s : State) (p : Nat) (v : Covers) : State :=
  { s with
    cores := s.cores.changeAll fun _ C =>
      if C.part == some p then
        { C with
          tlb := C.tlb.filter fun e => !(e.part == p && v.tlb e)
          walks := C.walks.filter fun w => !(w.part == p && v.walk w)
          icache := C.icache.filter fun f => !(f.part == p && v.frame f) }
      else C
    quads := s.quads.changeAll fun _ Q => { Q with tlb := Q.tlb.filter fun e => !(e.part == p && v.tlb e) } }

/-- A request of a partition that was translated and has not been performed. -/
def Req.inFlight (q : Req) (p : Nat) : Bool := q.part == p && q.space != .spad && !q.state.isPerformed

/-- The addresses that a request was translated at: its own, and those of a step's memory access (R348). -/
def Req.vas (q : Req) : List Nat :=
  match q.kind with
  | .commit _ _ _ cst cld => q.va :: ((cst.map (·.1.va)).toList ++ (cld.map (·.1.va)).toList)
  | _ => [q.va]

/-- The owner of a request's thread. -/
def State.reqOwner (s : State) (q : Req) : Nat := (s.slotAt q.core q.oslot).owner

/-- A request was translated through an entry that an invalidation covers: it names an address covered, or one that a
covered translation maps. -/
def State.reqCovered (s : State) (p : Nat) (v : Covers) (q : Req) : Bool :=
  let o := s.reqOwner q
  let es := (s.coreAt q.core).tlb ++ s.quads.flatMap fun Q => Q.2.tlb
  q.vas.any fun va => v.addr o va || es.any fun e => TlbEntry.maps p o va e && v.tlb e

/-- An invalidation: the entries go; it completes when the requests that were translated through them, noted as the entries
go, have been performed. (DEDUCED, log entry 57) -/
def invalidate (p : Nat) (v : Covers) (s : State) : CmdEnd :=
  let wait (s : State) (ids : List Nat) : CmdEnd :=
    if ids.any fun i => (s.reqs.find i).any (Req.inFlight · p) then (s.modPart p fun P => { P with invWait := some ids }, none)
    else (s.modPart p fun P => { P with invWait := none }, some stDone)
  match (s.partAt p).invWait with
  | some ids => wait s ids
  | none => wait (s.dropXlat p v) ((s.reqs.filter fun r => r.2.inFlight p && s.reqCovered p v r.2).map (·.1))

/-- INV_VA. A frame does not keep the translation that it was filled through, and a large page maps more than the range: every
frame of the owner is dropped. (DEDUCED, log entry 57) -/
def invVaOp (p : Nat) (o : CmdOps) : State → State :=
  runCmd p o [fieldMask 0 16, fieldMask 16 32, fieldMask 0 32] fun s =>
    let ow := o.f 0 0 16
    let lo := o.f 1 16 32
    let n := o.f 2 0 32
    if n = 0 then (s, some stBadArg)
    else
      let inRange (pg : Nat) : Bool := lo ≤ pg && pg < lo + n
      invalidate p
        { tlb := fun e => e.owner == ow && e.vmeets lo n
          walk := fun w => w.owner == some ow && w.meets lo n
          frame := (·.owner == ow)
          addr := fun o va => o == ow && inRange (va / 65536) } s

/-- INV_OWNER. -/
def invOwnerOp (p : Nat) (o : CmdOps) : State → State :=
  runCmd p o [fieldMask 0 16] fun s =>
    let ow := o.f 0 0 16
    invalidate p
      { tlb := (·.owner == ow), walk := (·.owner == some ow), frame := (·.owner == ow), addr := fun o _ => o == ow } s

/-- INV_IPA: a request does not keep its intermediate address, so the command waits for every request of the partition;
a frame is dropped unless none of its pages can be one of the range. (DEDUCED, log entry 57) -/
def invIpaOp (p : Nat) (o : CmdOps) : State → State :=
  runCmd p o [fieldMask 16 32, fieldMask 0 32] fun s =>
    let lo := o.f 0 16 32
    let n := o.f 1 0 32
    if n = 0 then (s, some stBadArg)
    else
      invalidate p
        { tlb := (·.imeets lo n)
          walk := fun w => if w.owner.isSome then pagesMeet w.ipage 1 lo n else w.meets lo n
          frame := fun _ => true
          addr := fun _ _ => true } s

/-- INV_ALL. -/
def invAllOp (p : Nat) (o : CmdOps) : State → State :=
  runCmd p o [] (invalidate p ⟨fun _ => true, fun _ => true, fun _ => true, fun _ _ => true⟩)

/-! ### Tables and areas (R318, R370, R341) -/

/-- SET_FAULTQ (R318). -/
def setFaultqOp (p : Nat) (o : CmdOps) : State → State :=
  runCmd p o [mAddr, fieldMask 0 5] fun s =>
    let b := o.f 0 0 48
    let m := o.f 1 0 5
    if b % 64 ≠ 0 || m < 6 || 16 < m then (s, some stBadArg)
    else if !s.ownsBytes p b (64 * 2 ^ m) then (s, some stDenied)
    else (s.modPart p fun P => { P with fqBase := b, fqLog2 := m, fqProd := 0, fqCons := 0, fqDue := [] }, some stDone)

/-- SET_TABLES (R370). -/
def setTablesOp (p : Nat) (o : CmdOps) : State → State :=
  runCmd p o [mAddr, mAddr] fun s =>
    if o.f 0 0 7 ≠ 0 || o.f 1 0 6 ≠ 0 then (s, some stBadArg)
    else (s.modPart p fun P => { P with ownerTable := o.f 0 0 48, queueTable := o.f 1 0 48 }, some stDone)

/-- SET_SLUICE_OVF (R341). -/
def setSluiceOvfOp (p : Nat) (o : CmdOps) : State → State :=
  runCmd p o [fieldMask 0 2, mAddr, fieldMask 0 21] fun s =>
    let b := o.f 1 0 48
    let n := o.f 2 0 21
    if b % 65536 ≠ 0 || 2 ^ 20 < n then (s, some stBadArg)
    else if !s.ownsBytes p b (32 * n) then (s, some stDenied)
    else (s.modPart p fun P => { P with overflow := P.overflow.put (o.f 0 0 2) (b, n) }, some stDone)

/-! ### Format regions (R264, R266, R372) -/

/-- A descriptor; addresses are taken aligned. (DEDUCED, log entry 61) -/
def Region.ofBytes (p : Option Nat) (bs : List Byte) : Region :=
  let w := at' bs 0x18 4
  { part := p
    en := bit w 0
    ro := bit w 1
    vbase := addr48 (at' bs 0 8) / 65536 * 65536
    sbase := addr48 (at' bs 8 8) / 65536 * 65536
    xbase := addr48 (at' bs 0x10 8) / 2 * 2
    vpages := at' bs 0x1C 4
    p0 := field w 13 5
    dither := bit w 12
    sfmt := field w 8 4
    vfmt := field w 5 3
    stale := [] }

/-- The descriptor is valid for region `n` (R264). (DEDUCED, log entry 61) -/
def Region.valid (r : Region) (n : Nat) : Bool :=
  let lo := 0xC00000000000 + n * 2 ^ 36
  1 ≤ r.vpages && lo ≤ r.vbase && r.vbase + 65536 * r.vpages ≤ lo + 2 ^ 36 && r.vfmt ≤ 2 && r.sfmt ≤ 9
    && fmtBits r.sfmt ≤ r.viewFmt.width && !((r.sfmt == 6 || r.sfmt == 7) && r.vfmt != 0)
    && !((r.sfmt == 8 || r.sfmt == 9) && (!r.ro || r.vfmt != 0))

/-- The stored pages of a region are the partition's HBM pages. -/
def State.regionHeld (s : State) (p : Nat) (r : Region) : Bool :=
  let span (b n : Nat) : Bool := (List.range ((b % 65536 + n + 65535) / 65536)).all fun i => s.pageParts.find (b / 65536 + i) == some p
  span r.dataSpan.1 r.dataSpan.2 && (r.scaleSpan.2 == 0 || span r.scaleSpan.1 r.scaleSpan.2)

/-- The largest MAXEXP of the view lines of a region, those that have left L2 included: a descriptor write completes when T
exceeds it (R266). (DEDUCED, log entry 61) -/
def State.viewTill (s : State) (n : Nat) : Nat :=
  let r := s.regions.getD n .empty
  (List.range (512 * r.vpages)).foldl (fun m i => max m (s.maxExpOf (r.vbase / 128 + i))) 0

/-- A region written at every controller, its view lines dropped. -/
def State.writeRegion (s : State) (n : Nat) (r : Region) : State :=
  let s1 := (s.homes.keys.filter fun la => prange s (la * 128) == .view n).foldl State.evictL2 s
  { s1 with regions := s1.regions.set n r }

/-- A descriptor written by a command, whose STATUS waits for the leases on the view (R266). -/
def State.setRegion (s : State) (ring n : Nat) (r : Region) : State := (s.writeRegion n r).ringAfter ring (s.viewTill n)

/-- SET_REGION (R372). -/
def setRegionOp (p : Nat) (o : CmdOps) : State → State :=
  runCmd p o [fieldMask 0 4, mAddr] fun s =>
    let n := o.f 0 0 4
    let d := o.f 1 0 48
    if d % 32 ≠ 0 then (s, some stBadArg)
    else if (s.regions.getD n .empty).part != some p || !s.reachesBytes p d 32 then (s, some stDenied)
    else
      let r := Region.ofBytes (some p) (s.physRead d 32)
      if r.valid n && !s.regionHeld p r then (s, some stDenied)
      else if r.valid n then (s.setRegion p n r, some stDone)
      else (s.setRegion p n { r with en := false }, some stBadArg)

/-! ### Pages (R275, R379) -/

/-- A line leaves L2 and Sluice without a write-back: what its dirty sectors, or Sluice's copy, held is lost, and HBM
holds an older value that is not known. -/
def State.dropLine (s : State) (la : Nat) : State :=
  let h := s.homeOf la
  let lost := (List.range 128).filter fun i => h.dirty.getLsbD (i / 32) || (s.sluiceAt (sluiceOf s (la * 128))).lines.contains la
  let s1 := lost.foldl (fun (acc : State) i => acc.storeByte (la * 128 + i) (Config.freeByte s.fresh (la * 128 + i))) s
  (s1.evictL2 la).modSluice (sluiceOf s (la * 128)) fun d => { d with lines := d.lines.filter (· != la) }

/-- The lines of a page that L2 or Sluice holds. -/
def State.heldLines (s : State) (pg : Nat) : List Nat :=
  ((s.homes.keys ++ s.sluices.flatMap (·.lines)).filter fun la => la * 128 / 65536 == pg).eraseDups

/-- The view lines in L2 that are derived from a page's data or scales (R379). -/
def State.viewLines (s : State) (pg : Nat) : List Nat :=
  s.homes.keys.filter fun la => (match prange s (la * 128) with | .view _ => true | _ => false)
    && (s.sourceSpans (la * 128) 128).any fun x => overlaps x.1 x.2 (65536 * pg) 65536

/-- The view elements of a page's bytes are decoded afresh. -/
def State.freshViews (s : State) (pg : Nat) : State :=
  { s with regions := s.regions.map fun r => { r with stale := r.stale.filter fun e => (elemAt r.sbase r.sfmt e).1 / 65536 != pg } }

/-- A page of zeros, written at its home line by line; none of its bytes is undefined unless it has no key.
(DEDUCED, log entry 59) -/
def State.zeroPage (s : State) (ring pg : Nat) : State :=
  let s1 := (s.forgetRecords pg).ringStore ring (65536 * pg) (List.replicate 65536 0)
  { s1 with undef := s1.undef.filter fun u => !(u.1 == pg && !u.2.keyless) }

/-- A read that has been issued and not been performed takes its bytes from a range. -/
def State.reading (s : State) (sp : Space) (hit : Nat → Nat → Bool) : Bool :=
  s.reqs.any fun r => r.2.kind.readsNow && !r.2.state.isPerformed && r.2.spans.any fun x =>
    x.1 == sp && (if sp == .spad then hit x.2.1 x.2.2 else (s.sourceSpans x.2.1 x.2.2).any fun y => hit y.1 y.2)

/-- A block of memory that no read on its way takes (R275): what such a read would meet is met by the next one, at its issue. -/
def State.unread (s : State) (hit : Nat → Nat → Bool) : Bool := !s.reading .home hit && !s.reading .sluice hit

/-- No read on its way takes bytes of some pages. -/
def State.pagesUnread (s : State) (hit : Nat → Bool) : Bool :=
  s.unread fun a n => hit (a / 65536) || hit ((a + n - 1) / 65536)

/-- A page whose bytes become undefined. -/
def State.blurPage (s : State) (pg : Nat) (keyless : Bool) : State :=
  { s.forgetRecords pg with undef := s.undef.put pg ⟨s.fresh, [], keyless⟩ }

/-- The blocks of a page that fail their check. -/
def State.poisonPage (s : State) (pg : Nat) : State :=
  { s with poisoned := s.poisoned.filter (fun b => b / 65536 != pg) ++ (List.range 1024).map fun i => 65536 * pg + 64 * i }

def State.curePage (s : State) (pg : Nat) : State := { s with poisoned := s.poisoned.filter fun b => b / 65536 != pg }

/-- A class-2 page whose key id has no key: it traps INTEGRITY (R380). -/
def State.unkeyed2 (s : State) (pg : Nat) : Bool :=
  match s.pageRecs.find pg with
  | some r => r.cls == 2 && r.key != 0 && (s.pkg.keys.find r.key).isNone
  | none => false

/-- The poison of a page ends, unless the page cannot pass a check at all (R275, R380). -/
def State.cureChecked (s : State) (pg : Nat) : State := if s.unkeyed2 pg then s else s.curePage pg

/-- A key id has no key loaded. -/
def State.keyMissing (s : State) (id : Nat) : Bool := id != 0 && (s.pkg.keys.find id).isNone

/-- The record of one page set (R379). (DESIGN CHOICE, log entry 58) -/
def State.setRecord' (s : State) (ring cls key pg : Nat) : State :=
  let old := s.pageRecs.find pg
  let s1 := (s.viewLines pg).foldl State.evictL2 ((s.heldLines pg).foldl (fun (acc : State) la => acc.dropLine la) s)
  let s2 := ({ s1 with pageRecs := s1.pageRecs.put pg ⟨cls, key⟩ } : State).freshViews pg
  if cls = 1 then
    if old = some ⟨1, key⟩ then s2 else (s2.curePage pg).blurPage pg (s.keyMissing key)
  else
    let s3 := ({ s2 with undef := s2.undef.del pg } : State).zeroPage ring pg
    if s3.unkeyed2 pg then (s3.blurPage pg true).poisonPage pg else s3.curePage pg

/-- PAGE_REC (R379). -/
def pageRecOp (p : Nat) (o : CmdOps) : State → State :=
  runCmd p o [mRange, fieldMask 0 2, fieldMask 0 13] fun s =>
    let cls := o.f 1 0 2
    let key := o.f 2 0 13
    let P := s.partAt p
    let keyOk := if key = 0 then cls == 0 else P.keyBase ≤ key && key < P.keyBase + P.keyCnt
    if cls = 3 then (s, some stBadArg)
    else if !keyOk || !(o.pages 0).all (fun pg => s.pageParts.find pg == some p) then (s, some stDenied)
    else if cls == 2 && !s.pagesUnread (o.pages 0).contains then (s, none)
    else (((o.pages 0).foldl (fun (acc : State) pg => acc.setRecord' p cls key pg) s).aliasEntries, some stDone)

/-- SCRUB (R275, R370). -/
def scrubOp (p : Nat) (o : CmdOps) : State → State :=
  runCmd p o [mRange] fun s =>
    if !(o.pages 0).all (fun pg => s.pageParts.find pg == some p) then (s, some stDenied)
    else ((o.pages 0).foldl (fun (acc : State) pg => (acc.zeroPage p pg).cureChecked pg) s, some stDone)

/-! ### Keys and attestation (R380–R382) -/

/-- The pages recorded with a key id after its slot has changed: class 1 reads undefined, class 2 fails its check.
(DEDUCED, log entry 60) -/
def State.rekey (s : State) (id : Nat) (keyless : Bool) : State :=
  (s.pageRecs.filter fun r => r.2.key == id && r.2.cls != 0).foldl (fun (acc : State) r =>
    if r.2.cls = 2 then (acc.blurPage r.1 keyless).poisonPage r.1 else acc.blurPage r.1 keyless) s

/-- A channel that nothing has opened. -/
def Brine.blank : Brine := ⟨false, 0, 0, 0, 0, false, 0, 0, 0, 0, false, [], none⟩

def Part.channel (P : Part) (ch : Nat) : Brine := (P.brine.find ch).getD .blank

def State.modBrine (s : State) (p ch : Nat) (f : Brine → Brine) : State :=
  s.modPart p fun P => { P with brine := P.brine.put ch (f (P.channel ch)) }

/-- A key id of the partition. -/
def Part.hasKey (P : Part) (id : Nat) : Bool := id != 0 && P.keyBase ≤ id && id < P.keyBase + P.keyCnt

/-- A byte string cut or filled with zeros to a length. -/
def fitBytes (n : Nat) (bs : List Byte) : List Byte := bs.take n ++ List.replicate (n - bs.length) 0

/-- A key of `n` bytes drawn at random. -/
def State.drawKey (s : State) (n use : Nat) : List Byte := fitBytes n (Config.freeBytes s.fresh use)

/-- A change of a key waits for the reads on their way to the pages recorded with it, which would fail their check no more at
the instruction that made them (R275). (DEDUCED, log entry 60) -/
def State.keyBusy (s : State) (t : Nat ⊕ Nat) : Bool :=
  match t with
  | .inl _ => false
  | .inr id => !s.pagesUnread fun pg => (s.pageRecs.find pg).any fun r => r.key == id && r.cls == 2

/-- A key slot or a channel's key filled: 64 bytes for AES-256-XTS, 32 for AES-256 (R381). -/
def State.setKey (s : State) (p : Nat) (t : Nat ⊕ Nat) (k : List Byte) : State :=
  match t with
  | .inl ch => s.modBrine p ch fun b => { b with key := fitBytes 32 k }
  | .inr id => (s.modPkg fun g => { g with keys := g.keys.put id (fitBytes 64 k) }).rekey id false

/-- The target lies outside the partition. -/
def State.keyDenied (s : State) (p : Nat) (t : Nat ⊕ Nat) : Bool :=
  match t with
  | .inl _ => false
  | .inr id => !(s.partAt p).hasKey id

/-- KEYGEN (R380). -/
def keygenOp (p : Nat) (o : CmdOps) : State → State :=
  runCmd p o [fieldMask 0 13 + fieldMask 15 1] fun s =>
    if !o.keyFits then (s, some stBadArg)
    else if s.keyDenied p o.keyTarget then (s, some stDenied)
    else if s.keyBusy o.keyTarget then (s, none)
    else (s.setKey p o.keyTarget (Config.freeBytes s.fresh 1), some stDone)

/-- Bytes of the wrapped key that a KEYLOAD brings (R381): a channel's key is shorter. -/
def wrapLen (o : CmdOps) : Nat := if o.f 0 15 1 = 1 then 40 else 72

/-- The key that a KEYLOAD unwraps from its record. -/
def State.unwrapped (s : State) (p : Nat) (o : CmdOps) : Option (List Byte) :=
  let n := wrapLen o
  let bs := s.physRead (o.f 1 0 48) (0x68 + n)
  if (s.partAt p).attestKey.isEmpty || at' bs 0x60 8 ≠ n then none
  else Config.unwrapKey (s.partAt p).attestKey (s.partAt p).reportDigest bs n

/-- KEYLOAD (R381). -/
def keyloadOp (p : Nat) (o : CmdOps) : State → State :=
  runCmd p o [fieldMask 0 13 + fieldMask 15 1, mAddr] fun s =>
    if !o.keyFits || o.f 1 0 48 % 8 ≠ 0 then (s, some stBadArg)
    else if s.keyDenied p o.keyTarget || !s.reachesBytes p (o.f 1 0 48) (0x68 + wrapLen o) then (s, some stDenied)
    else match s.unwrapped p o with
      | none => (s, some stDenied)
      | some k => if s.keyBusy o.keyTarget then (s, none) else (s.setKey p o.keyTarget k, some stDone)

/-- KEYDROP (R380). -/
def keydropOp (p : Nat) (o : CmdOps) : State → State :=
  runCmd p o [fieldMask 0 13 + fieldMask 15 1] fun s =>
    if !o.keyFits then (s, some stBadArg)
    else if s.keyDenied p o.keyTarget then (s, some stDenied)
    else if s.keyBusy o.keyTarget then (s, none)
    else match o.keyTarget with
      | .inl ch => (s.modBrine p ch fun b => { b with key := [] }, some stDone)
      | .inr id => ((s.modPkg fun g => { g with keys := g.keys.del id }).rekey id true, some stDone)

/-- The signed part of a report (R382), bytes 0x000–0x13F. -/
def State.reportBody (s : State) (p : Nat) (nonce key : List Byte) : List Byte :=
  let P := s.partAt p
  leBytes 8 (1 + b2n s.pkg.confidential * 2 ^ 16 + b2n P.world * 2 ^ 17 + p * 2 ^ 20)
    ++ leBytes 8 Config.serialNumber.toNat ++ fitBytes 48 s.pkg.fwDigest ++ fitBytes 48 (Config.sha384 P.descBytes)
    ++ fitBytes 64 nonce ++ fitBytes 96 (Config.publicPoint key) ++ List.replicate 48 0

/-- ATTEST (R382). -/
def attestOp (p : Nat) (o : CmdOps) : State → State :=
  runCmd p o [mAddr, mAddr] fun s =>
    let n := o.f 0 0 48
    let r := o.f 1 0 48
    if n % 64 ≠ 0 || r % 64 ≠ 0 then (s, some stBadArg)
    else if !s.reachesBytes p n 64 || !s.reachesBytes p r 512 then (s, some stDenied)
    else
      let key := s.drawKey 48 2
      let body := s.reportBody p (s.physRead n 64) key
      let digest := fitBytes 48 (Config.sha384 body)
      let sig := fitBytes 96 (Config.signReport digest s.fresh)
      ((s.modPart p fun P => { P with attestKey := key, reportDigest := digest }).ringStore p r (body ++ sig ++ List.replicate 96 0),
        some stDone)

/-- IDCERT (R370). -/
def idcertOp (p : Nat) (o : CmdOps) : State → State :=
  runCmd p o [mAddr, fieldMask 0 32] fun s =>
    let a := o.f 0 0 48
    let chain := Config.identityChain
    if a % 64 ≠ 0 || o.f 1 0 32 < chain.length then (s, some stBadArg)
    else if !s.reachesBytes p a chain.length then (s, some stDenied)
    else (s.ringStore p a chain, some stDone)

/-! ### Halted queues (R303) -/

/-- QRESUME. -/
def qresumeOp (p : Nat) (o : CmdOps) : State → State :=
  runCmd p o [fieldMask 0 12, fieldMask 0 33] fun s =>
    let q := o.f 0 0 12
    let d := s.queueDesc p q
    let serve (s : State) : State :=
      if d.valid then s.serveQueue p q else s.modPart p fun P => { P with notifyErrors := P.notifyErrors + 1 }
    if !(s.partAt p).hasQueue q then (s, some stDenied)
    else if !(s.queueAt q).halted then (serve s, some stDone)
    else
      let s1 := if o.f 1 32 1 = 1 then s.modQueue q fun Q => { Q with prod := o.f 1 0 32 } else s
      let Q := s1.queueAt q
      if ahead 32 Q.prod Q.cons > 2 ^ d.log2n then (s1, some stBadArg)
      else (serve (s1.modQueue q fun Q => { Q with halted := false }), some stDone)

/-! ### The arms -/

/-- `PREEMPT` (R323). -/
def execPreempt (p : Nat) (ops : CmdOps) (s : State) : Result := go (preemptOp p ops s)

/-- `RESTORE` (R334). -/
def execRestore (p : Nat) (ops : CmdOps) (s : State) : Result := go (restoreOp p ops s)

/-- `REPLAY` (R320). -/
def execReplay (p : Nat) (ops : CmdOps) (s : State) : Result := go (replayOp p ops s)

/-- `ABORT` (R335). -/
def execAbort (p : Nat) (ops : CmdOps) (s : State) : Result := go (abortOp p ops s)

/-- `PTIMER` (R328). -/
def execPtimer (p : Nat) (ops : CmdOps) (s : State) : Result := go (ptimerOp p ops s)

/-- `INV_VA` (R271). -/
def execInvVa (p : Nat) (ops : CmdOps) (s : State) : Result := go (invVaOp p ops s)

/-- `INV_OWNER` (R271). -/
def execInvOwner (p : Nat) (ops : CmdOps) (s : State) : Result := go (invOwnerOp p ops s)

/-- `INV_IPA` (R271). -/
def execInvIpa (p : Nat) (ops : CmdOps) (s : State) : Result := go (invIpaOp p ops s)

/-- `INV_ALL` (R271). -/
def execInvAll (p : Nat) (ops : CmdOps) (s : State) : Result := go (invAllOp p ops s)

/-- `SET_FAULTQ` (R318). -/
def execSetFaultq (p : Nat) (ops : CmdOps) (s : State) : Result := go (setFaultqOp p ops s)

/-- `SET_TABLES` (R370). -/
def execSetTables (p : Nat) (ops : CmdOps) (s : State) : Result := go (setTablesOp p ops s)

/-- `SET_SLUICE_OVF` (R341). -/
def execSetSluiceOvf (p : Nat) (ops : CmdOps) (s : State) : Result := go (setSluiceOvfOp p ops s)

/-- `SET_REGION` (R372). -/
def execSetRegion (p : Nat) (ops : CmdOps) (s : State) : Result := go (setRegionOp p ops s)

/-- `PAGE_REC` (R379). -/
def execPageRec (p : Nat) (ops : CmdOps) (s : State) : Result := go (pageRecOp p ops s)

/-- `SCRUB` (R370). -/
def execScrub (p : Nat) (ops : CmdOps) (s : State) : Result := go (scrubOp p ops s)

/-- `KEYGEN` (R380). -/
def execKeygen (p : Nat) (ops : CmdOps) (s : State) : Result := go (keygenOp p ops s)

/-- `KEYLOAD` (R381). -/
def execKeyload (p : Nat) (ops : CmdOps) (s : State) : Result := go (keyloadOp p ops s)

/-- `KEYDROP` (R380). -/
def execKeydrop (p : Nat) (ops : CmdOps) (s : State) : Result := go (keydropOp p ops s)

/-- `ATTEST` (R382). -/
def execAttest (p : Nat) (ops : CmdOps) (s : State) : Result := go (attestOp p ops s)

/-- `IDCERT` (R370). -/
def execIdcert (p : Nat) (ops : CmdOps) (s : State) : Result := go (idcertOp p ops s)

/-- `QRESUME` (R303). -/
def execQresume (p : Nat) (ops : CmdOps) (s : State) : Result := go (qresumeOp p ops s)

end Sys2Proof.Machine
end

