-- ==== Sys2Proof/Machine/Brine.lean ====
section
/-! DEFINITION. Brine channels (20 R385–R389): opening and closing, slots from the host, slots to the host, loss of
synchronisation. -/

namespace Sys2Proof.Machine

/-- The physical address of a host address (R258). -/
def hostPa (h : Nat) : Nat := 0x400000000000 + h % 2 ^ 46

/-- A channel from its descriptor (R385), over what it held before. -/
def Brine.ofBytes (old : Brine) (bs : List Byte) : Brine :=
  { old with
    opened := true
    hbase := addr48 (at' bs 0 8)
    dbase := addr48 (at' bs 8 8)
    ccaddr := addr48 (at' bs 0x10 8)
    devcnt := addr48 (at' bs 0x18 8)
    toHost := bit (at' bs 0x20 4) 8
    log2n := field (at' bs 0x20 4) 0 4 }

/-- A descriptor's addresses are aligned and its ring is within its limit; its reserved bits are ignored (R7). -/
def brineDescOk (bs : List Byte) : Bool :=
  at' bs 0 8 % 64 == 0 && at' bs 8 8 % 4096 == 0 && at' bs 0x10 8 % 8 == 0 && at' bs 0x18 8 % 8 == 0 && field (at' bs 0x20 4) 0 4 ≤ 12

/-- BRINE_SET (R385): the counts, the epoch and the key of a channel that was open before go on, so that no pair of a
key and an IV is used twice (R388). -/
def brineSetOp (p : Nat) (o : CmdOps) : State → State :=
  runCmd p o [fieldMask 0 6, mAddr] fun s =>
    let ch := o.f 0 0 6
    let d := o.f 1 0 48
    if d % 64 ≠ 0 then (s, some stBadArg)
    else if !s.reachesBytes p d 64 then (s, some stDenied)
    else if ((s.partAt p).channel ch).opened then (s, some stBusy)
    else
      let bs := s.physRead d 64
      if !brineDescOk bs then (s, some stBadArg) else (s.modBrine p ch fun b => b.ofBytes bs, some stDone)

/-- BRINE_CLOSE (R385): no slot is taken any more, and the command ends with the slot in progress. (DEDUCED, log entry 66) -/
def brineCloseOp (p : Nat) (o : CmdOps) : State → State :=
  runCmd p o [fieldMask 0 6] fun s =>
    let ch := o.f 0 0 6
    let b := (s.partAt p).channel ch
    (if b.opened then s.modBrine p ch fun b => { b with opened := false } else s, if b.busy.isSome then none else some stDone)

/-- The channel word of R386 at +8. -/
def Brine.word (b : Brine) : Nat :=
  b.cons % 2 ^ 32 * 2 ^ 32 + b.epoch % 2 ^ 16 * 2 ^ 16 + b2n b.opened * 2 + b2n b.desync

/-- The header and the payload of slot k. -/
def Brine.header (b : Brine) (k : Nat) : Nat := hostPa (b.hbase + 64 * (k % 2 ^ b.log2n))
def Brine.payload (b : Brine) (k : Nat) : Nat := hostPa (b.dbase + 4096 * (k % 2 ^ b.log2n))

/-- The IV of a slot (R385). -/
def Brine.iv (b : Brine) (ch k : Nat) : Nat := ch * 2 ^ 80 + b.epoch % 2 ^ 16 * 2 ^ 64 + k % 2 ^ 64

/-- The pieces of a run of bytes within 64 KiB pages: address, offset and length. -/
def brinePieces (va n : Nat) : List (Nat × Nat × Nat) :=
  (List.range ((va % 65536 + n + 65535) / 65536)).map fun i =>
    let lo := if i = 0 then 0 else 65536 * i - va % 65536
    let hi := min n (65536 * (i + 1) - va % 65536)
    (addr48 (va + lo), lo, hi - lo)

/-- The physical pieces of a run of an owner's bytes, through both stages; none where one does not translate. -/
def State.ownerPieces (s : State) (p : Nat) (d : OwnerDesc) (va n : Nat) (acc : Acc) : Option (List (Nat × Nat × Nat)) :=
  (brinePieces va n).mapM fun x =>
    if inWindow x.1 then none
    else match s.walk p d.owner d.s1root x.1 acc with
      | .ok y => if acc == .load && s.isPoisoned y.pa x.2.2 then none else some (y.pa, x.2.1, x.2.2)
      | .error _ => none

/-- The slot passes its checks (R387): its target, its data and its owner. -/
def State.brineOpen (s : State) (p ch k : Nat) (b : Brine) : Option (Nat × List Byte × Nat) :=
  let hd := s.physRead (b.header k) 64
  let len := field (at' hd 8 8) 0 12 + 1
  let owner := at' hd 14 2
  if b.key.isEmpty || at' hd 0x10 8 ≠ k % 2 ^ 64 then none
  else match Config.gcmOpen b.key (b.iv ch k) (hd.take 0x30) (s.physRead (b.payload k) len) (hd.drop 0x30), s.ownerDesc p owner with
    | some data, some d =>
      let va := addr48 (at' hd 0 8)
      (s.ownerPieces p d va len .store).map fun _ => (va, fitBytes len data, owner)
    | _, _ => none

/-- A slot finished (R387): CONS, DEVCNT and the published word in one step, with the GWCT of DEVCNT; none where DEVCNT
cannot be reached. -/
def State.brineFinish (s : State) (p ch : Nat) : Option (State × Nat) :=
  let b := (s.partAt p).channel ch
  match s.ipaToPa p b.devcnt .atomic with
  | .error _ => none
  | .ok pa =>
    let w := s.writeLines none pa (leBytes 8 ((leNat (s.homeBytes pa 8) + 1) % 2 ^ 64))
    let s2 := w.1.modBrine p ch fun b => { b with cons := b.cons + 1, busy := none }
    some (s2.storeBytes (hostPa b.ccaddr) (leBytes 8 ((s2.partAt p).channel ch).word), w.2)

/-- The channel loses synchronisation; what was written stays written, and CONS stays. -/
def State.brineFail (s : State) (p ch : Nat) : State := s.modBrine p ch fun b => { b with desync := true, busy := none }

def State.brineStage (s : State) (p ch : Nat) (st : BrineStage) : State := s.modBrine p ch fun b => { b with busy := some st }

/-- A request of a channel to the host. -/
def State.brineReq (s : State) (p : Nat) (b : Brine) : FarReq := s.farReq p (b.header b.cons)

/-- One part of a slot written, whichever is next, as a Write-home step at this T (R387, R243); none where its target does
not translate. -/
def State.brineWrite (s : State) (p ch owner : Nat) (todo : List (Nat × List Byte)) (g : Nat) : Option State :=
  let i := s.free (p * 64 + ch) % todo.length
  match todo[i]? with
  | none => some s
  | some (va, bs) =>
    ((s.ownerDesc p owner).bind fun d => s.ownerPieces p d va bs.length .store).map fun ps =>
      let r := ps.foldl (fun (acc : State × Nat) x =>
        let w := acc.1.writeLines none x.1 ((bs.drop x.2.1).take x.2.2)
        (w.1, max acc.2 w.2)) (s, g)
      r.1.brineStage p ch (.write owner (todo.eraseIdx i) r.2)

/-- The next step of the slot in progress (R387): the host's answer to what was asked of it, a part written, or the end of the
slot once T exceeds every GWCT. What the host has not answered in time, and every check or part that fails, breaks the
channel. (DEDUCED, log entry 66) -/
def State.brineNext (s : State) (p ch : Nat) (b : Brine) (st : BrineStage) : State :=
  let orFail (o : Option State) : State := o.getD (s.brineFail p ch)
  match st with
  | .fetch r =>
    if timedOut s.time r.sentAt then s.brineFail p ch
    else orFail ((s.brineOpen p ch b.cons b).map fun (va, data, owner) =>
      s.brineStage p ch (.write owner ((linePieces va data).map fun x => (addr48 x.1, x.2)) s.time))
  | .write owner (x :: todo) g => orFail (s.brineWrite p ch owner (x :: todo) g)
  | .write owner [] g => if s.time ≤ g then s else s.brineStage p ch (.publish owner (s.brineReq p b))
  | .publish _ r => if timedOut s.time r.sentAt then s.brineFail p ch else orFail ((s.brineFinish p ch).map (·.1))
  | .send .. => s

/-- BRINE_SLOT_FINISH (R387): the next step of a channel from the host. A slot is taken where PROD is ahead. -/
def State.brineSlot (s : State) (p ch : Nat) : State :=
  let b := (s.partAt p).channel ch
  match b.busy with
  | some st => s.brineNext p ch b st
  | none =>
    if !b.opened || b.toHost || b.desync || b.cons % 2 ^ 32 == b.prod then s
    else s.brineStage p ch (.fetch (s.brineReq p b))

/-- The header of a slot to the host, without its tag (R385, R389). -/
def sendHeader (va owner len k : Nat) : List Byte :=
  leBytes 8 (addr48 va) ++ leBytes 8 (owner * 2 ^ 48 + (len - 1)) ++ leBytes 8 (k % 2 ^ 64) ++ List.replicate 24 0

/-- The first step of a send: the source read, and the slot sealed and sent to the host; none where a check fails. -/
def State.brineSeal (s : State) (p ch owner va len : Nat) (b : Brine) : Option State :=
  if b.key.isEmpty then none
  else (s.ownerDesc p owner).bind fun d => (s.ownerPieces p d va len .load).map fun ps =>
    let hd := sendHeader va owner len b.cons
    let (c, tag) := Config.gcmSeal b.key (b.iv ch b.cons) hd (ps.flatMap fun x => s.physRead x.1 x.2.2)
    s.brineStage p ch (.send owner (s.brineReq p b) (hd ++ fitBytes 16 tag) (fitBytes len c))

/-- The end of a send: the host has stored payload and header, and the slot finishes; none where it fails, or the host does
not answer in time (R384). -/
def State.brineSent (s : State) (p ch : Nat) (b : Brine) (r : FarReq) (header payload : List Byte) : Option (State × Nat) :=
  if timedOut s.time r.sentAt then none
  else ((s.storeBytes (b.payload b.cons) payload).storeBytes (b.header b.cons) header).brineFinish p ch

/-- BRINE_SEND (R389). The STATUS of a send that fails into DESYNC is not stated. (DEDUCED, log entry 66) -/
def brineSendOp (p : Nat) (o : CmdOps) : State → State :=
  runCmd p o [fieldMask 0 6, fieldMask 0 16, mAddr, fieldMask 0 32] fun s =>
    let ch := o.f 0 0 6
    let len := o.f 3 0 32
    let b := (s.partAt p).channel ch
    let failed : CmdEnd := (s.brineFail p ch, some (1 + s.free (p * 64 + ch) % 5))
    match b.busy with
    | some (.send _ r hd c) =>
      match s.brineSent p ch b r hd c with
      | some x => (x.1.ringAfter p x.2, some stDone)
      | none => failed
    | _ =>
      if len = 0 || 4096 < len || !b.opened || !b.toHost then (s, some stBadArg)
      else if b.desync || ahead 32 b.cons b.prod ≥ 2 ^ b.log2n then (s, some stBusy)
      else match s.brineSeal p ch (o.f 1 0 16) (o.f 2 0 48) len b with
        | some s' => (s', none)
        | none => failed

/-- BRINE_PROD_WRITE (R386, R388): recorded whatever the channel's state. -/
def State.brineProd (s : State) (p ch v : Nat) : State := s.modBrine p ch fun b => { b with prod := v % 2 ^ 32 }

/-- BRINE_DESYNC_CLEAR (R388). -/
def State.brineClear (s : State) (p ch : Nat) : State :=
  let b := (s.partAt p).channel ch
  if b.desync && b.prod == b.cons % 2 ^ 32 then s.modBrine p ch fun b => { b with desync := false, epoch := b.epoch + 1 } else s

/-! ### The arms -/

/-- `BRINE_SET` (R385). -/
def execBrineSet (p : Nat) (ops : CmdOps) (s : State) : Result := go (brineSetOp p ops s)

/-- `BRINE_CLOSE` (R385). -/
def execBrineClose (p : Nat) (ops : CmdOps) (s : State) : Result := go (brineCloseOp p ops s)

/-- `BRINE_SEND` (R389). -/
def execBrineSend (p : Nat) (ops : CmdOps) (s : State) : Result := go (brineSendOp p ops s)

/-- `BRINE_PROD_WRITE` (R386). -/
def execBrineProdWrite (p ch v : Nat) (s : State) : Result := go (s.brineProd p ch v)

/-- `BRINE_SLOT_FINISH` (R387). -/
def execBrineSlotFinish (p ch : Nat) (s : State) : Result := go (s.brineSlot p ch)

/-- `BRINE_DESYNC_CLEAR` (R388). -/
def execBrineDesyncClear (p ch : Nat) (s : State) : Result := go (s.brineClear p ch)

end Sys2Proof.Machine
end

