-- ==== Sys2Proof/Machine/Collectives.lean ====
section
/-! DEFINITION. Collectives (04 R115–R122). The participating set P is the passing lanes that read their operands. -/

namespace Sys2Proof.Machine

/-- The lanes of P with their values, in ascending lane order. -/
abbrev Lanes := List (Nat × Vals)

/-- The values of a lane of P. -/
def Lanes.lane (p : Lanes) (l : Nat) : Option Vals := (p.find? fun kv => laneOf kv.1 == l).map (·.2)

/-- The mask of the lanes of P that meet a test. -/
def Lanes.mask (p : Lanes) (f : Vals → Bool) : Nat := (laneMask ((p.filter fun kv => f kv.2).map (·.1))).toNat

/-- The source lane of LXCH, where in range (R117). -/
def lxchSource (mode seg l b : Nat) : Option Nat :=
  let w := 32 / 2 ^ seg
  let base := l - l % w
  match mode with
  | 0 => some (base + b % w)
  | 1 => if b ≤ l - base then some (l - b) else none
  | 2 => if l + b < base + w then some (l + b) else none
  | _ =>
    let x := l ^^^ (b % 32)
    if x / w = l / w then some x else none

/-- LXCH (R117): a lane whose source is absent keeps D. -/
def lxchOp (h : Hdr) (mode seg : BitVec 2) (vp : BitVec 3) : State → State :=
  let fm : Form := ⟨.w, .v, .v, false, false, if vp = 0 then [] else [vp.toNat - 1], false⟩
  runLanes 0x150 h fm anyone fun s0 part k v run =>
    let src := (lxchSource mode.toNat seg.toNat (laneOf k) v.b).bind (Lanes.lane part)
    let s1 := match src with
      | some x => s0.markWriter (run.writeD k h fm v.dst x.a) h k v.dst
      | none => run
    .ok (if vp = 0 then s1 else s1.modThr k fun t => t.setPred (vp.toNat - 1) src.isSome)

/-- The value of a collective that every lane computes from P. -/
def runPart (opc : Nat) (h : Hdr) (fm : Form) (f : Lanes → Nat → Vals → Nat) : State → State :=
  runLanes opc h fm anyone fun _ part k v run => .ok (run.writeD k h fm v.dst (f part k v))

/-- VOTE (R118). -/
def valVote (mode : Nat) (p : Lanes) : Nat :=
  match mode with
  | 0 => p.mask fun v => v.a != 0
  | 1 => b2n (p.any fun kv => kv.2.a != 0)
  | 2 => b2n (p.all fun kv => kv.2.a != 0)
  | _ => b2n ((p.all fun kv => kv.2.a != 0) || p.all fun kv => kv.2.a == 0)

def voteOp (h : Hdr) (mode : BitVec 2) : State → State :=
  runPart 0x151 h ⟨.w, .v, .none, false, true, [], false⟩ fun p _ _ => valVote mode.toNat p

/-- The segment of a lane under a head mask (R119): its first lane. -/
def segHead (heads l : Nat) : Nat :=
  ((List.range (l + 1)).filter fun i => i == 0 || bit heads i).getLastD 0

/-- The head mask: B of the lowest lane of P. -/
def Lanes.heads (p : Lanes) : Nat := (p.head?.map (·.2.b)).getD 0

/-- The values of P in the segment of lane l, up to the lanes that `upTo` accepts. -/
def Lanes.segment (p : Lanes) (l : Nat) (upTo : Nat → Bool) : List Nat :=
  (p.filter fun kv => segHead p.heads (laneOf kv.1) == segHead p.heads l && upTo (laneOf kv.1)).map (·.2.a)

/-- The identity of an operation and type (R120). -/
def redIdentity (op ty : Nat) : Nat :=
  match op with
  | 1 => match ty with | 0 => 0x7F800000 | 1 => 0x7FFFFFFF | _ => 0xFFFFFFFF
  | 2 => match ty with | 0 => 0xFF800000 | 1 => 0x80000000 | _ => 0
  | 3 => 0xFFFFFFFF
  | _ => 0

/-- The reduction of a list of values (R119, R120); TY 0 f32, 1 s32, 2 u32. -/
def reduceVals (op ty : Nat) (c : RCtx) (xs : List Nat) : Nat × Events :=
  match xs with
  | [] => (redIdentity op ty, 0)
  | x :: rest =>
    match op with
    | 0 =>
      if ty = 0 then
        let vs := xs.map c.f32
        c.result .f32 vs (sumF c.down vs)
      else (xs.foldl (· + ·) 0 % 2 ^ 32, 0)
    | 1 => (if ty = 0 then rest.foldl (minMaxF32 false c.ftz) (canonF32 c.ftz x) else rest.foldl (valImin (ty == 2)) x, 0)
    | 2 => (if ty = 0 then rest.foldl (minMaxF32 true c.ftz) (canonF32 c.ftz x) else rest.foldl (valImax (ty == 2)) x, 0)
    | 3 => (rest.foldl (· &&& ·) x, 0)
    | 4 => (rest.foldl (· ||| ·) x, 0)
    | _ => (rest.foldl (· ^^^ ·) x, 0)

/-- SEGRED and SCAN: the receiving lane's fpc rounds, and its NONFINITE is its own. -/
def runReduce (opc : Nat) (h : Hdr) (op : BitVec 3) (ty : BitVec 2) (upTo : Nat → Nat → Bool) : State → State :=
  let fm : Form := ⟨.w, .v, .v, false, true, [], false⟩
  runLanes opc h fm anyone fun s0 part k v run =>
    let t := s0.thr k
    let (x, e) := reduceVals op.toNat ty.toNat (t.rctx (laneOf k) 0 0) (Lanes.segment part (laneOf k) (upTo (laneOf k)))
    let s1 := run.modThr k fun t => t.orFps e
    match nonfinite t.fpc [e] 0 with
    | some i => .trap s1 7 i
    | none => .ok (s1.writeD k h fm v.dst x)

def segredOp (h : Hdr) (op : BitVec 3) (ty : BitVec 2) : State → State := runReduce 0x152 h op ty fun _ _ => true

def scanOp (h : Hdr) (op : BitVec 3) (ty : BitVec 2) (excl : Bool) : State → State :=
  runReduce 0x153 h op ty fun l i => if excl then i < l else i ≤ l

/-- MATCH (R121). -/
def matchOp (h : Hdr) (w64 : Bool) : State → State :=
  runPart 0x154 h ⟨.w, if w64 then .x2 else .v, .none, false, true, [], false⟩ fun p _ v => p.mask fun x => x.a == v.a

/-- LEAD (R121): the lowest lane of P becomes the group's leader. -/
def leadOp (h : Hdr) : State → State :=
  let fm : Form := ⟨.w, .none, .none, false, true, [], false⟩
  runLanes 0x155 h fm anyone fun _ part k v run =>
    let first := (part.head?.map (·.1)) == some k
    let s1 := if first then run.modGrp (groupOf k) fun G => { G with leader := some (laneOf k) } else run
    .ok (s1.writeD k h fm v.dst (b2n first))

/-- BCAST (R122). -/
def valBcast (p : Lanes) : Nat :=
  match p with
  | [] => 0
  | (_, v0) :: _ => ((p.lane (v0.b % 32)).getD v0).a

def bcastOp (h : Hdr) : State → State := runPart 0x156 h ⟨.w, .v, .v, false, true, [], false⟩ fun p _ _ => valBcast p

/-! ### The arms -/

/-- `LXCH` (R117). -/
def execLxch (h : Hdr) (mode : BitVec 2) (seg : BitVec 2) (vp : BitVec 3) (s : State) : Result := go (lxchOp h mode seg vp s)

/-- `VOTE` (R118). -/
def execVote (h : Hdr) (mode : BitVec 2) (s : State) : Result := go (voteOp h mode s)

/-- `SEGRED` (R119). -/
def execSegred (h : Hdr) (op : BitVec 3) (ty : BitVec 2) (s : State) : Result := go (segredOp h op ty s)

/-- `SCAN` (R120). -/
def execScan (h : Hdr) (op : BitVec 3) (ty : BitVec 2) (excl : Bool) (s : State) : Result := go (scanOp h op ty excl s)

/-- `MATCH` (R121). -/
def execMatchL (h : Hdr) (w64 : Bool) (s : State) : Result := go (matchOp h w64 s)

/-- `LEAD` (R121). -/
def execLead (h : Hdr) (s : State) : Result := go (leadOp h s)

/-- `BCAST` (R122). -/
def execBcast (h : Hdr) (s : State) : Result := go (bcastOp h s)

/-- `LXCH_FROM_COMPACT` (R78, R79). -/
def execLxchFromCompact (d a b : Byte) (s : State) : Result :=
  go (lxchOp (cHdr (cOp d) (cOp a) (cOp b)) 0 0 0 s)

/-- `LXCH_FLIP_COMPACT` (R78, R79). -/
def execLxchFlipCompact (d a b : Byte) (s : State) : Result :=
  go (lxchOp (cHdr (cOp d) (cOp a) (cOp b)) 3 0 0 s)

/-- `LXCH_FWD_COMPACT` (R78, R79). -/
def execLxchFwdCompact (d a b : Byte) (s : State) : Result :=
  go (lxchOp (cHdr (cOp d) (cOp a) (cOp b)) 2 0 0 s)

end Sys2Proof.Machine
end

