-- ==== Sys2Proof/Machine/Partition.lean ====
section
/-! DEFINITION. The management ring (20 R367, R368, R370, R372–R374, R383, R390, R394, R395), reset and bring-up, the
Pritch link, memory errors (10 R276), what the host writes (06 R180), and the capability and status blocks (R393). -/

namespace Sys2Proof.Machine

/-! ### Creating a partition (R368) -/

/-- A range of numbers meets that of a partition; an empty one meets none. -/
def State.rangeTaken (s : State) (f : Part → Nat × Nat) (b n : Nat) : Bool :=
  s.parts.any fun q => let r := f q.2; n != 0 && r.2 != 0 && overlaps b n r.1 r.2

/-- A partition from its descriptor. -/
def Part.ofBytes (bs : List Byte) : Part :=
  let w10 := at' bs 0x10 4
  let w14 := at' bs 0x14 4
  let w18 := at' bs 0x18 4
  let w1C := at' bs 0x1C 4
  { Part.blank with
    s2root := addr48 (at' bs 0 8)
    ctlBase := addr48 (at' bs 8 8)
    keyCnt := field w10 16 13
    keyBase := field w10 0 13
    weight := field w14 24 8
    nextWeight := field w14 24 8
    world := bit w14 16
    ctlLog2 := field w14 0 5
    qCnt1 := field w18 16 12
    qBase := field w18 0 12
    slCnt1 := field w1C 8 8
    slBase := field w1C 0 8
    descBytes := bs }

/-- No reserved bit of a partition descriptor is set. -/
def partReservedOk (bs : List Byte) : Bool :=
  at' bs 6 2 == 0 && at' bs 14 2 == 0 && field (at' bs 0x10 4) 29 3 == 0 && field (at' bs 0x10 4) 13 3 == 0
    && field (at' bs 0x14 4) 17 7 == 0 && field (at' bs 0x14 4) 5 11 == 0 && field (at' bs 0x18 4) 28 4 == 0
    && field (at' bs 0x18 4) 12 4 == 0 && at' bs 0x1E 2 == 0 && (bs.drop 0x20).all (· == 0)

/-- The descriptor's fields lie within their limits and meet no other partition's (R368). -/
def State.partOk (s : State) (P : Part) : Bool :=
  P.s2root % 512 == 0 && P.ctlBase % 64 == 0 && 4 ≤ P.ctlLog2 && P.ctlLog2 ≤ 12 && 1 ≤ P.weight && 1 ≤ P.keyBase
    && P.keyBase + P.keyCnt ≤ 8192 && P.qBase + P.qCnt1 < 4096 && P.slBase + P.slCnt1 < 256
    && !(P.world && !s.pkg.confidential)
    && !s.rangeTaken (fun q => (q.keyBase, q.keyCnt)) P.keyBase P.keyCnt
    && !s.rangeTaken (fun q => (q.qBase, q.qCnt1 + 1)) P.qBase (P.qCnt1 + 1)
    && !s.rangeTaken (fun q => (q.slBase, q.slCnt1 + 1)) P.slBase (P.slCnt1 + 1)

/-- A physical address that a device can read: a page with the record NONE cannot be read at all (R377). -/
def State.readable (s : State) (pa : Nat) : Bool :=
  match prange s pa with
  | .noMemory => false
  | .hbm => (s.pageRecs.find (pa / 65536)).isSome
  | _ => true

/-- PART_CREATE (R368). (DEDUCED, log entry 56) -/
def partCreateOp (p : Nat) (o : CmdOps) : State → State :=
  runMgmt p o [fieldMask 0 4, mAddr] fun s =>
    let n := o.f 0 0 4
    let d := o.f 1 0 48
    if d % 64 ≠ 0 || !s.readable d || (s.parts.find n).isSome then (s, some stBadArg)
    else
      let bs := s.physRead d 64
      let P := Part.ofBytes bs
      if !partReservedOk bs || !s.partOk P then (s, some stBadArg)
      else ({ s with parts := s.parts.put n P }, some stDone)

/-! ### Cores (R373) -/

/-- The core is taken from every effective mask (step 1). -/
def State.withdrawCore (s : State) (c p : Nat) : State :=
  ({ s with launches := s.launches.changeAll fun _ l => if l.part = p then { l with mask := l.mask.filter (· != c) } else l } : State).modCore
    c fun C => { C with leaving := true }

/-- The core holds nothing of its partition (step 2). -/
def State.coreEmpty (s : State) (c : Nat) : Bool :=
  s.blocks.all (fun b => b.2.core != c) && s.engOps.all (fun o => o.2.core != c || o.2.complete)
    && s.groups.all (fun g => g.1 / 64 != c) && (s.coreAt c).oslots.all fun o => !o.busy

/-- The scrub (step 4): every store of the core zero; prefetches on their way fill nothing. -/
def State.scrubCore (s : State) (c : Nat) (p : Option Nat) : State :=
  { s with
    cores := s.cores.put c { Core.scrubbed with part := p, oslots := List.replicate 4 { OSlot.empty with bank := .zero } }
    quads := s.quads.filter fun q => q.1 / 4 != c
    engOps := s.engOps.filter fun o => o.2.core != c
    reqs := s.reqs.changeAll fun _ q => if q.core = c then { q with dropFill := true, block := staleBlock } else q }

/-- The save of every owner slot of a core (step 3), whose writes the STATUS waits for (R369), or the fault that one would
meet. -/
def State.saveCore (s : State) (c : Nat) : Except AreaFault State :=
  match (List.range 4).findSome? (s.saveFault c) with
  | some va => .error va
  | none => .ok ((List.range 4).foldl (fun (acc : State) o =>
      let w := acc.saveBankRun c o
      w.1.ringAfter mgmtRing w.2) s)

/-- A core given to a partition or to none; none of a state that has to wait. (DEDUCED, log entry 62) -/
def State.moveCore (s : State) (c : Nat) (dst : Option Nat) : State × Bool :=
  match (s.coreAt c).part with
  | none => (s.scrubCore c dst, true)
  | some p =>
    let s1 := s.withdrawCore c p
    if (s.coreAt c).frozen.isSome || !s.coreEmpty c then (s1, false)
    else match s1.saveCore c with
      | .error va => (s1.stallArea 10 c 0 va, false)
      | .ok s2 => (s2.scrubCore c dst, true)

/-- A partition operand: 0xFF is none. -/
def State.partArg (s : State) (n : Nat) : Option (Option Nat) :=
  if n = 0xFF then some none else if n < 16 && (s.parts.find n).isSome then some (some n) else none

/-- CORE_ASSIGN (R373). -/
def coreAssignOp (p : Nat) (o : CmdOps) : State → State :=
  runMgmt p o [fieldMask 0 8, fieldMask 0 8] fun s =>
    let c := o.f 0 0 8
    match s.partArg (o.f 1 0 8) with
    | none => (s, some stBadArg)
    | some dst =>
      if 4 * s.pkg.coresPerDie ≤ c then (s, some stBadArg)
      else if dst.isSome && (s.coreAt c).part == dst then (s, some stDone)
      else match s.moveCore c dst with
        | (s', true) => (s'.flowIdle, some stDone)
        | (s', false) => (s', none)

/-! ### Pages, weights, regions (R367, R370, R372) -/

/-- MEM_ASSIGN: the records become NONE, and every access to the page traps ALIAS (R376). -/
def State.assignPage (s : State) (dst : Option Nat) (pg : Nat) : State :=
  { s.forgetRecords pg with
    pageRecs := s.pageRecs.del pg
    pageParts := match dst with | some n => s.pageParts.put pg n | none => s.pageParts.del pg }

def memAssignOp (p : Nat) (o : CmdOps) : State → State :=
  runMgmt p o [mRange, fieldMask 0 8] fun s =>
    match s.partArg (o.f 1 0 8) with
    | none => (s, some stBadArg)
    | some dst =>
      if !(o.pages 0).all (fun pg => prange s (65536 * pg) == .hbm) then (s, some stBadArg)
      else (((o.pages 0).foldl (fun (acc : State) pg => acc.assignPage dst pg) s).aliasEntries, some stDone)

/-- POWER_WEIGHT (R370). -/
def powerWeightOp (p : Nat) (o : CmdOps) : State → State :=
  runMgmt p o [fieldMask 0 4, fieldMask 0 8] fun s =>
    let n := o.f 0 0 4
    if (s.parts.find n).isNone || o.f 1 0 8 = 0 then (s, some stBadArg)
    else (s.modPart n fun P => { P with nextWeight := o.f 1 0 8 }, some stDone)

/-- REGION_ASSIGN (R372). -/
def regionAssignOp (p : Nat) (o : CmdOps) : State → State :=
  runMgmt p o [fieldMask 0 4, fieldMask 0 8] fun s =>
    let n := o.f 0 0 4
    match s.partArg (o.f 1 0 8) with
    | none => (s, some stBadArg)
    | some dst => (s.setRegion mgmtRing n { Region.empty with part := dst }, some stDone)

/-! ### Links (R383, R390) -/

/-- The request of a brine channel's slot in progress. -/
def BrineStage.far : BrineStage → Option FarReq
  | .fetch r => some r
  | .write .. => none
  | .publish _ r => some r
  | .send _ r _ _ => some r

/-- The non-posted requests of the package that have neither completed nor timed out (R383, R384): those of threads, of
engines and of brine channels. -/
def State.farReqs (s : State) : List FarReq :=
  let ofLane (q : Req) : Option FarReq :=
    if q.space == .hostPath && !q.state.isPerformed then some ⟨q.sentAt, q.pa, q.keySlot, q.link, q.lost⟩ else none
  ((s.reqs.filterMap fun r => ofLane r.2) ++ (s.engOps.flatMap fun o => o.2.sent.map (·.2))
    ++ s.parts.flatMap fun P => P.2.brine.filterMap fun b => b.2.busy.bind BrineStage.far).filter fun r => !timedOut s.time r.sentAt

/-- An outstanding request under a key slot of the host link. -/
def State.hostHolds (s : State) (slot : Nat) : Bool := s.farReqs.any fun r => r.link.isNone && r.keySlot == slot

/-- A request that a sub-link of a port carries. -/
def viaPort (port : Nat) (link : Option Nat) : Bool := link.any (· / 4 == port)

def State.portHolds (s : State) (port slot : Nat) : Bool := s.farReqs.any fun r => viaPort port r.link && r.keySlot == slot

/-- A request of the host under a key slot may still be outstanding: the spec does not say when the host has its completion
(R383). (DESIGN CHOICE, log entry 64) -/
def State.hostInHolds (s : State) (slot : Nat) : Bool :=
  (s.pkg.hostInAt.find slot).any fun t => !timedOut s.time t && s.free (slot + 7) % 2 == 1

/-- The slot that is not in use. -/
def LinkDir.other (d : LinkDir) : Nat := 1 - d.current

/-- A direction switched to its other slot, under a key agreed anew. -/
def LinkDir.switch (d : LinkDir) (key : List Byte) : LinkDir := ⟨d.other, d.keys.set d.other key⟩

/-- LINK_KEY (R383). -/
def linkKeyOp (p : Nat) (o : CmdOps) : State → State :=
  runMgmt p o [fieldMask 0 2, fieldMask 0 8] fun s =>
    let out := o.f 0 0 1 == 1
    let ports := (List.range 8).filter fun i => bit (o.f 1 0 8) i
    let portAt (i : Nat) : LinkDir := s.pkg.ports.getD i ⟨0, []⟩
    if (out && s.hostHolds s.pkg.hostOut.other) || (o.f 0 1 1 == 1 && s.hostInHolds s.pkg.hostIn.other) || ports.any (fun i => s.portHolds i (portAt i).other) then (s, some stBusy)
    else (s.modPkg fun g =>
      { g with
        hostOut := if out then g.hostOut.switch (s.drawKey 32 3) else g.hostOut
        hostIn := if o.f 0 1 1 = 1 then g.hostIn.switch (s.drawKey 32 4) else g.hostIn
        ports := (List.range 8).map fun i => if ports.contains i then (portAt i).switch (s.drawKey 32 (5 + i)) else portAt i },
      some stDone)

/-- Sub-links of a split. -/
def splitLinks (split : Nat) : Nat := match split with | 0 => 1 | 1 => 2 | 2 => 3 | 3 => 3 | _ => 4

/-- The sub-links of a port end; requests on their way over them are lost, and time out (R384, R390). -/
def State.dropPort (s : State) (port : Nat) : State :=
  { s with
    reqs := s.reqs.changeAll fun _ q => if viaPort port q.link && !q.state.isPerformed then { q with lost := true } else q
    engOps := s.engOps.changeAll fun _ o =>
      { o with sent := o.sent.changeAll fun _ x => if viaPort port x.link then { x with lost := true } else x }
    pkg := { s.pkg with sublinks := s.pkg.sublinks.filter fun l => l.1 / 4 != port } }

/-- SUBLINK_ASSIGN (R390). -/
def sublinkAssignOp (p : Nat) (o : CmdOps) : State → State :=
  runMgmt p o [fieldMask 0 3, fieldMask 0 3, fieldMask 0 2, fieldMask 0 8, fieldMask 0 6] fun s =>
    let port := o.f 0 0 3
    let split := o.f 1 0 3
    let sl := o.f 2 0 2
    match s.partArg (o.f 3 0 8) with
    | none => (s, some stBadArg)
    | some dst =>
      if 4 < split || splitLinks split ≤ sl then (s, some stBadArg)
      else
        let s1 := if s.pkg.splits.getD port 0 = split then s else s.dropPort port
        (s1.modPkg fun g =>
          { g with splits := g.splits.set port split, sublinks := g.sublinks.put (port * 4 + sl) ⟨dst, o.f 4 0 6, false⟩ }, some stDone)

/-- SUBLINK_TRAIN (R390). -/
def State.sublinkTrain (s : State) (port sl : Nat) : State :=
  s.modPkg fun g => { g with sublinks := g.sublinks.change (port * 4 + sl) fun l => { l with trained := l.part.isSome } }

/-- PRITCH_REMOTE_REQUEST (R390): translated by stage 2, checked against the page record and served at its home; one that
fails is not served. -/
def State.remoteRequest (s : State) (port sl ipa : Nat) (acc : RemoteAcc) : State :=
  match s.pkg.sublinks.find (port * 4 + sl) with
  | some ⟨some p, _, true⟩ =>
    let a := ipa % 2 ^ 40
    let kind : Acc := match acc with | .read _ => .load | .write _ => .store | .atomic .. => .atomic
    match s.ipaToPa p a kind with
    | .error _ => s
    | .ok pa =>
      match acc with
      | .read _ => s
      | .write data => s.deviceWrite pa (data.take (128 - pa % 128))
      | .atomic op ty b cmp =>
        let n := atomBits (ty % 4) / 8
        if pa % n ≠ 0 || s.isPoisoned pa n then s
        else s.deviceWrite pa (leBytes n (atomNew (op % 10) (ty % 4) (leNat (s.homeBytes pa n)) (b % 2 ^ (8 * n)) (cmp % 2 ^ (8 * n))))
  | _ => s

/-! ### Destruction (R395) -/

/-- Every region of a partition returned, as REGION_ASSIGN does (R372). -/
def State.freeRegions (s : State) (n : Nat) : State :=
  (List.range 16).foldl (fun (acc : State) i =>
    if (s.regions.getD i .empty).part = some n then acc.setRegion mgmtRing i .empty else acc) s

/-- The key slots and the attestation key of a partition cleared, its pages' records NONE, its queues, slots and sub-links
released. -/
def State.freePart (s : State) (n : Nat) : State :=
  let P := s.partAt n
  let mine (pg : Nat) : Bool := s.pageParts.find pg == some n
  { s with
    pageRecs := s.pageRecs.filter fun r => !mine r.1
    pageParts := s.pageParts.filter fun r => r.2 != n
    queues := s.queues.filter fun q => !P.hasQueue q.1
    qslots := s.qslots.filter fun q => !P.hasSlot q.1
    childQs := s.childQs.filter fun q => q.1 / 65536 != n
    ctxs := s.ctxs.changeAll fun _ c => if c.part = n then { Ctx.blank mgmtRing with serial := c.serial } else c
    parts := s.parts.del n
    pkg := { s.pkg with
      keys := s.pkg.keys.filter fun k => !P.hasKey k.1
      sublinks := s.pkg.sublinks.filter fun l => l.2.part != some n } }

/-- PART_DESTROY (R395): every context aborted, the cores scrubbed, then the rest; its STATUS waits for the leases on the
views of its regions. (DEDUCED, log entry 63) -/
def partDestroyOp (p : Nat) (o : CmdOps) : State → State :=
  runMgmt p o [fieldMask 0 4] fun s =>
    let n := o.f 0 0 4
    if (s.parts.find n).isNone then (s, some stBadArg)
    else
      let xs := s.ctxs.filterMap fun c => if c.2.part = n then some c.1 else none
      let s1 := xs.foldl (fun (acc : State) x => acc.abortCtx x) s
      let s2 := match (s1.partAt n).dbg with
        | some d => s1.endGroup d.group
        | none => s1
      let cs := s2.cores.filterMap fun c => if c.2.part = some n then some c.1 else none
      let s3 : State := { s2 with blocks := s2.blocks.filter fun b => !cs.contains b.2.core }
      ((((cs.foldl (fun (acc : State) c => acc.scrubCore c none) s3).freeRegions n).freePart n).aliasEntries, some stDone)

/-! ### Reset (R374, R378, R394) -/

/-- The package after a reset in a mode: HBM zero, everything cleared, the time base from 0. Host memory is the host's,
and what stands on the other end of a link stays there. (DESIGN CHOICE, log entry 3; DEDUCED, log entry 68) -/
def State.bringUp (s : State) (confidential : Bool) : State :=
  { State.reset with
    fresh := s.fresh
    agenda := s.agenda
    mem := s.mem.filter fun c => 0x400000000000 ≤ c.1
    pkg := { Package.reset with
      coresPerDie := s.pkg.coresPerDie
      stackCount := s.pkg.stackCount
      hbmBytes := s.pkg.hbmBytes
      class2Bytes := s.pkg.class2Bytes
      channels := s.pkg.channels
      lanes := s.pkg.lanes
      confidential := confidential
      fwDigest := Config.freeBytes s.fresh 0 } }

/-- RESET (R394): its STATUS is never written. -/
def resetOp (p : Nat) (o : CmdOps) (s : State) : State :=
  if p ≠ mgmtRing then s.answer p stBadCmd
  else if !o.fits [1] then s.answer p stBadArg
  else s.bringUp (o.f 0 0 1 == 1)

/-- POWER_ON_RESET (R394): open mode. -/
def State.powerOn (s : State) : State := s.bringUp false

/-! ### The host's writes (R180) and memory errors (R276) -/

/-- HOST_WRITE: to device memory at its home; to the host's own memory as it stands. -/
def State.hostWrite (s : State) (pa : Nat) (data : List Byte) : State :=
  let noted : State := s.modPkg fun g => { g with hostInAt := g.hostInAt.put g.hostIn.current s.time }
  match prange s pa with
  | .hbm => noted.deviceWrite pa data
  | .view _ => noted.deviceWrite pa data
  | .host => s.storeBytes pa data
  | _ => s

/-- The 64-byte block of an address stands whole in L2: it is not read from HBM (R273). -/
def State.wholeInL2 (s : State) (pa : Nat) : Bool :=
  match s.homes.find (pa / 128) with
  | some h => h.resident && sectorMask (pa % 128 / 64 * 64) 64 &&& ~~~ h.valid == 0
  | none => false

/-- A scratchpad range of a block that nothing on its way reads. -/
def State.spadUnread (s : State) (b off : Nat) : Bool :=
  let hit (o n : Nat) : Bool := overlaps off 64 o n
  !(s.reqs.any fun r => r.2.block == b && r.2.space == .spad && r.2.kind.readsNow && !r.2.state.isPerformed && hit r.2.pa r.2.size)
    && !(s.mxOps.any fun o => o.2.block == b && o.2.ranges.any fun x => hit x.1 x.2)
    && !(s.threads.any fun kt => (s.grpOf kt.1).block == b && match kt.2.state with | .waiting (.waitg o ..) => hit o 8 | _ => false)

/-- A register of a thread that no matrix operation is still to read. -/
def State.regUnread (s : State) (k r : Nat) : Bool :=
  !s.mxOps.any fun o => o.2.lanes.contains k
    && ((o.2.d ≤ r && r < o.2.d + 32) || o.2.aReg.any fun a => a ≤ r && r < a + 16)

/-- What a memory error strikes is there, and nothing that has issued is still to read it: INTEGRITY is delivered precisely, at
the instruction that reads (R275, R276). (DEDUCED, log entry 24) A block is checked when it is read from HBM, not while it stands in L2 (R273). -/
def State.strikes (s : State) (kind : MemErr) : Bool :=
  match kind with
  | .corrected => true
  | .block pa => s.unread fun a n => overlaps (pa / 64 * 64) 64 a n
  | .spad b off => (s.blocks.find b).isSome && decide (off < (s.blk b).scratch) && s.spadUnread b (off / 64 * 64)
  | .l1 c o la => ((s.coreAt c).l1Find o la).isSome && !s.reqs.any fun r =>
      r.2.core == c && r.2.oslot == o && r.2.pa / 128 == la && r.2.kind.leasedLoad && !r.2.state.isPerformed
  | .regs k r => (s.threads.find k).isSome && (s.thr k).state != .ended && decide (r < (s.thr k).regs.length) && s.regUnread k r
  | .sregs g i => (s.groups.find g).isSome && decide (i < 64)
  | .check pa => (s.pageRecs.find (pa / 65536)).any (·.cls == 2) && !s.wholeInL2 pa
      && s.unread fun a n => overlaps (pa / 64 * 64) 64 a n

/-- An uncorrectable error, or a failed check of a class-2 block, marks what it struck: who reads it meets INTEGRITY. -/
def State.strike (s : State) (kind : MemErr) : State :=
  match kind with
  | .corrected => s
  | .block pa | .check pa => { s with poisoned := s.poisoned.filter (· != pa / 64 * 64) ++ [pa / 64 * 64] }
  | .spad b off => s.modBlk b fun B => { B with badSpad := off / 64 * 64 :: B.badSpad.filter (· != off / 64 * 64) }
  | .l1 c o la => s.modCore c fun C => { C with badL1 := (o, la) :: C.badL1.filter (· != (o, la)) }
  | .regs k r => s.modThr k fun t => { t with bad := r :: t.bad.filter (· != r) }
  | .sregs g i => s.modGrp g fun G => { G with badS := i :: G.badS.filter (· != i) }

/-- MEMORY_ERROR: a corrected error is counted; an uncorrectable one is counted and marks what it struck. A failed check of
a class-2 block (R273, R275) is no soft error and is not counted. -/
def State.memoryError (s : State) (kind : MemErr) : State :=
  if kind = .corrected then s.modPkg fun g => { g with corrected := (g.corrected + 1) % 2 ^ 64 }
  else if !s.strikes kind then s
  else match kind with
    | .check _ => s.strike kind
    | _ => (s.modPkg fun g => { g with uncorrected := (g.uncorrected + 1) % 2 ^ 64 }).strike kind

/-! ### Power (R391) -/

/-- POWER_INTERVAL_START. -/
def State.powerStart (s : State) : State := if s.time < s.pkg.intervalAt + 42500 then s else s.startInterval.flowIdle

/-- POWER_MIDPOINT. -/
def State.powerMid (s : State) : State := if s.pkg.midpoint || s.time < s.pkg.intervalAt + 21250 then s else s.midInterval

/-! ### Capability and status blocks (R393) -/

/-- The 512 bytes of the capability block: what is enabled is what the package runs with (R3). -/
def State.capabilityBlock (s : State) : List Byte :=
  let g := s.pkg
  leBytes 8 (g.coresPerDie + 4 * 2 ^ 8 + g.stackCount * 2 ^ 16 + 128 * 2 ^ 24 + b2n g.confidential * 2 ^ 32)
    ++ ((List.range 4).flatMap fun d => leBytes 16 (unitMask (g.cores d)))
    ++ leBytes 8 (unitMask g.stacks) ++ leBytes 8 g.hbmBytes ++ leBytes 8 g.class2Bytes
    ++ ((List.range 12).flatMap fun k => leBytes 8 (if g.stacks.contains k then g.channels.getD k 0 % 2 ^ 32 else 0))
    ++ ((List.range 8).flatMap fun n => leBytes 2 (g.lanes.getD n 0 % 2 ^ 16))
    ++ leBytes 8 g.corrected ++ leBytes 8 g.uncorrected
    ++ ((List.range 4).flatMap fun d => leBytes 8 (s.sluiceAt d).errors) ++ leBytes 8 g.regionErrors ++ List.replicate 248 0

/-- The 64 bytes of a partition's status block. -/
def Part.statusBlock (p : Part) : List Byte :=
  leBytes 8 p.notifyErrors ++ leBytes 8 p.lostEvents ++ leBytes 8 p.drops ++ leBytes 8 p.linkDrops ++ List.replicate 32 0

/-! ### The arms -/

/-- `PART_CREATE` (R368). -/
def execPartCreate (p : Nat) (ops : CmdOps) (s : State) : Result := go (partCreateOp p ops s)

/-- `PART_DESTROY` (R395). -/
def execPartDestroy (p : Nat) (ops : CmdOps) (s : State) : Result := go (partDestroyOp p ops s)

/-- `CORE_ASSIGN` (R373). -/
def execCoreAssign (p : Nat) (ops : CmdOps) (s : State) : Result := go (coreAssignOp p ops s)

/-- `MEM_ASSIGN` (R370). -/
def execMemAssign (p : Nat) (ops : CmdOps) (s : State) : Result := go (memAssignOp p ops s)

/-- `LINK_KEY` (R383). -/
def execLinkKey (p : Nat) (ops : CmdOps) (s : State) : Result := go (linkKeyOp p ops s)

/-- `SUBLINK_ASSIGN` (R390). -/
def execSublinkAssign (p : Nat) (ops : CmdOps) (s : State) : Result := go (sublinkAssignOp p ops s)

/-- `POWER_WEIGHT` (R370). -/
def execPowerWeight (p : Nat) (ops : CmdOps) (s : State) : Result := go (powerWeightOp p ops s)

/-- `RESET` (R394). -/
def execReset (p : Nat) (ops : CmdOps) (s : State) : Result := go (resetOp p ops s)

/-- `REGION_ASSIGN` (R372). -/
def execRegionAssign (p : Nat) (ops : CmdOps) (s : State) : Result := go (regionAssignOp p ops s)

/-- `POWER_ON_RESET` (R394). -/
def execPowerOnReset (s : State) : Result := go s.powerOn

/-- `POWER_INTERVAL_START` (R391). -/
def execPowerIntervalStart (s : State) : Result := go s.powerStart

/-- `POWER_MIDPOINT` (R391). -/
def execPowerMidpoint (s : State) : Result := go s.powerMid

/-- `ENERGY_ACCRUE` (R391): to the partition whose work used it, or, for a number that no partition has, to those that share
what none of them caused. (DESIGN CHOICE, log entry 65) -/
def execEnergyAccrue (p : Nat) (s : State) : Result := go (if 16 ≤ p then s.accrueIdle else s.accrue p)

/-- `MEMORY_ERROR` (R276; R273, R275). (DEDUCED, log entries 69, 100) -/
def execMemoryError (kind : MemErr) (s : State) : Result := go (s.memoryError kind)

/-- `HOST_WRITE` (R180). -/
def execHostWrite (pa : Nat) (data : List Byte) (s : State) : Result := go (s.hostWrite pa data)

/-- `PRITCH_REMOTE_REQUEST` (R390). (DEDUCED, log entry 70) -/
def execPritchRemoteRequest (port sl ipa : Nat) (acc : RemoteAcc) (s : State) : Result := go (s.remoteRequest port sl ipa acc)

/-- `SUBLINK_TRAIN` (R390). -/
def execSublinkTrain (port sl : Nat) (s : State) : Result := go (s.sublinkTrain port sl)

end Sys2Proof.Machine
end

