-- ==== Sys2Proof/Machine/Debug.lean ====
section
/-! DEFINITION. The debug engine and stall sampling (21 R396–R406), and TICK, in which a cycle's samples, draws and
skipped cycles fall due (09 R238; 20 R391, R392). -/

namespace Sys2Proof.Machine

/-! ### The debug descriptor (R397) -/

/-- A debug descriptor's fields, with no group placed yet. -/
def Dbg.ofBytes (desc : Nat) (bs : List Byte) : Dbg :=
  let w := at' bs 0x20 8
  { desc := desc
    owner := at' bs 6 2
    entry := addr48 (at' bs 0 8)
    cring := addr48 (at' bs 8 8)
    mring := addr48 (at' bs 0x10 8)
    sring := addr48 (at' bs 0x18 8)
    period := field w 48 16
    stopCh := bit w 26
    claim := bit w 25
    slog2 := field w 20 5
    mlog2 := field w 15 5
    clog2 := field w 10 5
    quad := field w 8 2
    core := field w 0 8
    group := 0
    held := []
    pending := none
    wct := 0
    due := none }

/-- Every field within its range; reserved bits are ignored (R7). -/
def State.dbgOk (s : State) (p : Nat) (d : Dbg) : Bool :=
  let size (n : Nat) : Bool := 2 ≤ n && n ≤ 16
  d.entry % 4 == 0 && d.cring % 64 == 0 && d.mring % 64 == 0 && d.sring % 64 == 0 && size d.slog2 && size d.mlog2
    && size d.clog2 && (s.coreAt d.core).part == some p && (s.ownerDesc p d.owner).isSome

/-! ### Attaching (R396, R398) -/

/-- The grid number of the monitor's block: no launch has it. -/
def noGrid : Nat := 2 ^ 64

/-- STATUS of the debug doorbell. -/
def State.dbgSay (s : State) (p st : Nat) : State := s.modPart p fun P => { P with dbgStatus := st }

/-- The monitor group placed: 32 threads at H in slot 15, s0:s1 the descriptor's address; it starts when its owner slot is
ready (R288). (DEDUCED, log entry 71) -/
def State.placeMonitor (s : State) (p : Nat) (d : Dbg) (o off : Nat) : State :=
  let key := groupKey d.core d.quad 15
  let b := s.nextBlock
  let id (n : Nat) : Ident := { Ident.blank with tid := n, ntid := 32, owner := d.owner }
  let B : Block := { Block.blank with core := d.core, grid := noGrid, ident := id 0, alloc := 64, oslot := o, q0 := d.quad, groups := [key] }
  let G : Group := { Group.blank with
    block := b, alloc := 64, oslot := o, regBase := off
    s := startS [BitVec.ofNat 32 d.desc, BitVec.ofNat 32 (d.desc / 2 ^ 32)] }
  let s1 : State := { s with blocks := s.blocks.put b B, nextBlock := b + 1 }
  let s2 := s1.startGroup key G ((List.range 32).map fun n => (n, { startThread s (id n) 64 d.entry (s.slotAt d.core o).readyAt false with handler := true }))
  s2.modPart p fun P => { P with dbg := some { d with group := key }, dbgStatus := stDone }

/-- ATTACH. While the owner's bank is busy or cannot be read or written, STATUS is pending and the attach is tried again. A
non-zero reserved field [61:48] is ignored (R7). (DEDUCED, log entry 71) -/
def State.attach (s : State) (p desc : Nat) : State :=
  let s := s.modPart p fun P => { P with attaching := none }
  let desc := addr48 desc
  match s.parts.find p with
  | none => s
  | some P =>
    if P.world then s.dbgSay p stDenied
    else if P.dbg.isSome then s.dbgSay p stBusy
    else if desc % 64 ≠ 0 || !s.reachesBytes p desc 64 then s.dbgSay p stBadArg
    else
      let bs := s.physRead desc 64
      let d := Dbg.ofBytes desc bs
      let use := s.quadUse d.core d.quad
      let room := ((List.range 128).map (8 * ·)).find? fun b => b + 64 ≤ 1024 && use.all fun u => !overlaps b 64 u.2.1 u.2.2
      if !s.dbgOk p d then s.dbgSay p stBadArg
      else match (if use.any (fun u => u.1 == 15) then none else s.ownerSlot d.core d.owner), room with
        | some (o, fresh), some off =>
          (match s.takeSlot p d.core d.owner 0 ⟨o, fresh, 0, d.quad, []⟩ with
            | .ok s1 => s1.placeMonitor p d o off
            | .error s1 => s1.modPart p fun P => { P with attaching := some desc, dbgStatus := 0 })
        | _, _ => s.dbgSay p stBusy

/-- A thread that continues: as it was before it stopped. -/
def Thread.unstop (t : Thread) : Thread := { t with stopped := false, stepping := false }

/-- Threads that continue; a wait is tested again (R400). -/
def State.unstop (s : State) (ks : List Nat) : State :=
  ks.foldl (fun (acc : State) k => (acc.modThr k fun t => t.unstop).retest k) s

/-- The frames of a partition's contexts, their threads changed. -/
def State.frameThreads (s : State) (mine : Nat → Ctx → Bool) (f : Thread → Thread) : State :=
  { s with ctxs := s.ctxs.changeAll fun x c =>
      if mine x c then { c with frames := c.frames.changeAll fun _ fr => { fr with threads := fr.threads.changeAll fun _ t => f t } } else c }

/-- An attach that waits is tried again. -/
def State.attachAgain (s : State) (p : Nat) : State :=
  match (s.partAt p).attaching with
  | some desc => s.attach p desc
  | none => s

/-- The debug monitor gone: its group, slot and claim; every Stopped thread of the partition continues. -/
def State.detach (s : State) (p : Nat) : State :=
  let s := s.modPart p fun P => { P with attaching := none }
  match (s.partAt p).dbg with
  | none => s
  | some d =>
    let groups := s.groups.filter fun g => g.1 == d.group
    let bs := groups.map (·.2.block)
    let f : Frame := ⟨0, s.blocks.filter fun b => bs.contains b.1, groups, [], [], [], [], [], 0, [], 0, 0, []⟩
    let s1 := (s.vacate f).modPart p fun P => { P with dbg := none, dbgStatus := stDone }
    let ks := s1.threads.filterMap fun kt => if s1.partOf (coreOf kt.1) = p && (kt.2.stopped || kt.2.stepping) then some kt.1 else none
    (s1.unstop ks).frameThreads (fun _ c => c.part == p) Thread.unstop

/-- When the last monitor thread ends, the partition detaches. -/
def State.autoDetach (s : State) (p : Nat) : State :=
  match (s.partAt p).dbg with
  | some d => if (s.groups.find d.group).isNone then s.detach p else s
  | none => s

/-! ### Commands (R399) -/

/-- The address of the entry at CONS. -/
def State.entryAt (s : State) (p : Nat) (d : Dbg) : Nat :=
  d.cring + 64 + 64 * ((s.ringCount p d.cring 8).getD 0 % 2 ^ d.clog2)

/-- STATUS of the entry at CONS, then CONS. -/
def State.entryStatus (s : State) (p : Nat) (d : Dbg) (st : Nat) : State :=
  let cons := (s.ringCount p d.cring 8).getD 0
  let w := s.writeIpaRun p (s.entryAt p d + 4) [BitVec.ofNat 8 st]
  let c := w.1.writeIpaRun p (d.cring + 8) (leBytes 8 ((cons + 1) % 2 ^ 64))
  c.1.modDbg p fun d => { d with pending := none, due := none, wct := max d.wct (max w.2 c.2) }

/-- The answer to the entry at CONS: its STATUS, with the wait of a .sys release for what the engine wrote (R240, R399).
(DEDUCED, log entry 102) -/
def State.entrySay (s : State) (p st : Nat) : State :=
  match (s.partAt p).dbg with
  | none => s
  | some d => if d.wct < s.time then s.entryStatus p d st else s.modDbg p fun d => { d with pending := none, due := some st }

/-- A STATUS that waits is written once T exceeds what it waits for. -/
def State.entryDue (s : State) (p : Nat) : State :=
  match (s.partAt p).dbg with
  | none => s
  | some d => match d.due with
    | some st => if d.wct < s.time then s.entryStatus p d st else s
    | none => s

/-- The group that a target names. -/
def targetGroup (t : DbgTarget) : Nat := groupKey t.core (t.quad % 4) (t.slot % 16)

/-- The live threads of a target, in key order. -/
def State.targetThreads (s : State) (t : DbgTarget) : List Nat :=
  s.threads.filterMap fun kt =>
    if kt.2.state != .ended && (if t.whole then s.ctxOfGrid (s.blkOf kt.1).grid == t.ctx else groupOf kt.1 == targetGroup t) then some kt.1
    else none

/-- A target outside the partition, or the monitor group itself. -/
def State.targetDenied (s : State) (p : Nat) (t : DbgTarget) : Bool :=
  if t.whole then !s.ownsCtx p t.ctx
  else (s.coreAt t.core).part != some p || (match (s.partAt p).dbg with | some d => d.group == targetGroup t | none => false)

/-- A debug command: nothing without a monitor or while one is under way. -/
def runDebug (p : Nat) (t : DbgTarget) (body : State → State) (s : State) : State :=
  match (s.partAt p).dbg with
  | none => s
  | some d => if d.pending.isSome || d.due.isSome then s else if s.targetDenied p t then s.entrySay p stDenied else body s

def State.begin' (s : State) (p code : Nat) (t : DbgTarget) (todo : List Nat) : State :=
  s.modDbg p fun d => { d with pending := some ⟨code, t, todo, s.nextOp, s.nextLaunch⟩ }

/-- A thread told to stop: at once, or where its open chain ends. -/
def Thread.stop (t : Thread) : Thread := if t.chain then { t with stepping := true } else { t with stopped := true, stepping := false }

/-- STOP (R400). -/
def stopDbg (p : Nat) (t : DbgTarget) : State → State :=
  runDebug p t fun s =>
    let s1 := (s.targetThreads t).foldl (fun (acc : State) k => acc.modThr k Thread.stop) s
    (if t.whole then s1.frameThreads (fun x _ => x == t.ctx) Thread.stop else s1).begin' p 1 t []

/-- The Stopped threads of a target. -/
def State.stoppedOf (s : State) (t : DbgTarget) : List Nat := (s.targetThreads t).filter fun k => (s.thr k).isStopped

/-- RESUME (R400). -/
def resumeDbg (p : Nat) (t : DbgTarget) : State → State :=
  runDebug p t fun s =>
    let s1 := s.unstop ((s.targetThreads t).filter fun k => (s.thr k).stopped)
    (if t.whole then s1.frameThreads (fun x _ => x == t.ctx) Thread.unstop else s1).entrySay p stDone

/-- TRAPSTEP (R403). -/
def trapstepDbg (p : Nat) (t : DbgTarget) : State → State :=
  runDebug p t fun s =>
    let ks := s.stoppedOf t
    ((ks.foldl (fun (acc : State) k => acc.modThr k fun x => { x with stepTrap := true }) s).unstop ks).entrySay p stDone

/-- The threads of a list at its lowest PC. -/
def State.lowest (s : State) (ks : List Nat) : List Nat :=
  match ks.map fun k => (s.thr k).pc with
  | [] => []
  | x :: xs => let m := xs.foldl min x; ks.filter fun k => (s.thr k).pc == m

/-- The threads at the lowest PC let go for one instruction; one whose wait goes on is Waiting, and Stopped again when it is
released (R402). -/
def State.letStep (s : State) (ks : List Nat) : State :=
  ks.foldl (fun (acc : State) k =>
    ((acc.modThr k fun t => { t with stopped := false, stepping := true }).retest k).modThr k fun t =>
      match t.state with | .waiting _ => { t with stopped := true } | _ => t) s

/-- STEP, STEP.one and STEP.wait (R402, R403), by their codes 3, 4 and 5. -/
def stepDbg (code p : Nat) (t : DbgTarget) : State → State :=
  runDebug p t fun s =>
    if t.whole then s.entrySay p stBadArg
    else
      let ks := s.stoppedOf t
      let first := s.lowest ks
      (s.letStep first).begin' p code t (if code = 4 then [] else ks.filter fun k => !first.contains k)

/-- Every thread of a target stands: Stopped, or Waiting out of a single step. -/
def State.standing (s : State) (t : DbgTarget) : Bool := (s.targetThreads t).all fun k => (s.thr k).stopped || !(s.thr k).stepping

/-- What a STEP.wait waits for has completed: the operations and the child grids since it began. -/
def State.stepDone (s : State) (d : DbgPending) : Bool :=
  let g := targetGroup d.target
  !s.engOps.any (fun o => d.firstOp ≤ o.1 && groupOf o.2.thread == g && !o.2.complete)
    && !s.mxOps.any (fun o => d.firstOp ≤ o.1 && o.2.group == g)
    && (match s.groups.find g with
        | some G => (s.blk G.block).children.all fun c => c.2 < d.firstLaunch || s.childDone c.2
        | none => true)

/-- A message for each group of a list of threads. -/
def State.stopMails (s : State) (ks : List Nat) (cause : Nat) : State :=
  ((ks.map groupOf).eraseDups).foldl (fun (acc : State) g => acc.stopMail (ks.filter fun k => groupOf k == g) cause) s

/-- STEPDONE: its A and B are not stated. -/
def State.stepMail (s : State) (p : Nat) (ks : List Nat) : State :=
  match ks with
  | [] => s
  | k :: _ => s.postStop p (s.mailOf k 3 (s.free 1) (s.free 2))

/-- The end of a debug command under way, of the wait of its STATUS, or of an attach's. (DEDUCED, log entry 71) -/
def State.debugDone (s : State) (p : Nat) : State :=
  match (s.partAt p).dbg.bind (·.pending) with
  | none => (s.attachAgain p).entryDue p
  | some d =>
    let ks := s.targetThreads d.target
    if d.code = 1 then
      if ks.all fun k => (s.thr k).stopped then (s.stopMails ks 1).entrySay p stDone else s
    else if !s.standing d.target then s
    else
      let todo := d.todo.filter fun k => (s.threads.find k).isSome && (s.thr k).isStopped
      match todo with
      | _ :: _ =>
        let first := s.lowest todo
        (s.letStep first).modDbg p fun D => { D with pending := some { d with todo := todo.filter fun k => !first.contains k } }
      | [] =>
        if d.code = 5 && !s.stepDone d then s
        else ((s.stopMails (ks.filter fun k => (s.thr k).isStopped) 4).stepMail p ks).entrySay p stDone

/-- The target of an entry (R399). -/
def debugTarget (bs : List Byte) : DbgTarget :=
  let w := at' bs 8 8
  ⟨bit w 35, field w 36 12, field w 8 8, field w 6 2, field w 2 4⟩

/-- The entry at CONS of a partition's command ring, where one waits. -/
def State.nextEntry (s : State) (p : Nat) : Option (List Byte) :=
  match (s.partAt p).dbg with
  | none => none
  | some d =>
    match s.ringCount p d.cring 0, s.ringCount p d.cring 8 with
    | some prod, some cons => if d.pending.isSome || d.due.isSome || prod == cons then none else s.readIpa p (s.entryAt p d) 64
    | _, _ => none

/-! ### Stall sampling (R405, R406) -/

/-- STATE of a thread by the rows 2–13; a state that no row names is not stated. -/
def State.sampleState (s : State) (k : Nat) : Nat :=
  let t := s.thr k
  let open' := 2 + s.free (k * 8 + 3) % 12
  if t.isStopped then 12
  else match t.state with
    | .ready =>
      if s.deferred (quadKeyOf k) k then 10
      else if (s.fetchFor k).isNone then 4
      else if s.throttled (coreOf k) && s.time % 4 != 0 then 13
      else open'
    | .stalled .operand => 2
    | .stalled .memory => 3
    | .stalled .fetch => 4
    | .stalled .mxu => 5
    | .stalled .sluice => 8
    | .stalled _ => open'
    | .waiting (.bar _) => 6
    | .waiting (.rejoin _) => 6
    | .waiting (.cpwait ..) => 7
    | .waiting (.waitg ..) => 7
    | .waiting (.mwait ..) => 7
    | .waiting (.caps ..) => 8
    | .waiting (.displaced ..) => 8
    | .waiting (.sleep _) => 9
    | .waiting _ => open'
    | .parked _ => 11
    | .ended => open'

/-- The record of a group in this cycle. (DESIGN CHOICE, log entry 72) -/
def State.sampleOf (s : State) (q g : Nat) : Sample :=
  let Q := s.quadAt q
  let G := s.grp g
  let issues := Q.lastIssue == some s.time
  let ks := s.threadsIn fun k => groupOf k == g && G.live.getLsbD (laneOf k)
  let ready := ks.filter fun k => (s.thr k).state == .ready && !(s.thr k).stopped
  let (st, pc) :=
    if issues && Q.lastBundle.2.contains g then (0, Q.lastBundle.1)
    else match (if issues then ready else []), ks with
      | k :: _, _ => (1, (s.thr k).pc)
      | [], k :: _ => (s.sampleState k, (s.thr k).pc)
      | [], [] => (2 + s.free (g * 8 + 5) % 12, 0)
  { mark := G.mark.toNat
    pc := pc
    owner := (s.slotAt (q / 4) G.oslot).owner
    state := st
    grp := if G.cont then 0xFF else G.grp % 256
    quad := q % 4
    slot := g % 16
    tlow := s.time % 2 ^ 24 }

/-- The 16 bytes of a sample. -/
def Sample.bytes (x : Sample) : List Byte :=
  leBytes 8 (x.owner % 2 ^ 16 * 2 ^ 48 + x.state * 2 ^ 40 + x.grp * 2 ^ 32 + x.quad * 2 ^ 30 + x.slot * 2 ^ 26 + x.tlow)
    ++ leBytes 8 (x.mark * 2 ^ 48 + addr48 x.pc)

/-- The next resident group of a quadrant after the one last sampled; the monitor's is passed over. -/
def State.nextSampled (s : State) (q monitor : Nat) : Option Nat :=
  let p := (s.quadAt q).samplePtr
  ((List.range 16).map fun i => q * 16 + (p + 1 + i) % 16).find? fun g => g != monitor && (s.groups.find g).isSome

/-- STALL_SAMPLE (R405): at T mod PERIOD = 0, once for a quadrant. (DESIGN CHOICE, log entry 72) -/
def State.stallSample (s : State) (q : Nat) : State :=
  let c := q / 4
  let P := s.partAt (s.partOf c)
  match P.dbg with
  | none => s
  | some d =>
    if d.period = 0 || P.world || s.time % d.period ≠ 0 || (s.quadAt q).sampledAt = some s.time || (s.coreAt c).part.isNone then s
    else match s.nextSampled q d.group with
      | none => s
      | some g =>
        let x := s.sampleOf q g
        let s1 := s.modQuad q fun Q => { Q with samplePtr := g % 16, sampledAt := some s.time }
        s1.modCore c fun C =>
          if C.samples.length < 64 then { C with samples := C.samples ++ [x] } else { C with smpdrop := C.smpdrop + 1 }

/-- SAMPLE_DRAIN (R406). -/
def State.sampleDrain (s : State) (c : Nat) : State :=
  let p := s.partOf c
  match (s.partAt p).dbg, (s.coreAt c).samples with
  | some d, x :: xs =>
    match s.ringRoom p d.sring d.slog2 with
    | some prod => (s.modCore c fun C => { C with samples := xs }).ringWrite p d.sring d.slog2 16 prod x.bytes
    | none => s
  | _, _ => s

/-! ### The doorbell aperture as the host reads it (R367, R386, R393, R396; 13 R297; 14 R318) -/

/-- The debug word at +8. -/
def Part.dbgWord (P : Part) : Nat := b2n P.dbg.isSome * 2 ^ 8 + P.dbgStatus % 2 ^ 8

/-- A count that the host raises, and the count that the device answers. -/
def countsWord (prod cons : Nat) : Nat := cons % 2 ^ 32 * 2 ^ 32 + prod % 2 ^ 32

/-- The 64-bit word at an offset of a partition's doorbell page, or of the management page, 16. -/
def State.doorbellWord (s : State) (page off : Nat) : Nat :=
  let P := s.partAt page
  let ring := s.ringOf page
  if off = 0x8400 then countsWord ring.2.2.1 ring.2.2.2
  else if 0x9000 ≤ off && off < 0x9200 then at' s.capabilityBlock (off - 0x9000) 8
  else if page = mgmtRing then 0
  else if 0x9200 ≤ off && off < 0x9240 then at' P.statusBlock (off - 0x9200) 8
  else if off = 0x8600 then P.fqWord
  else if off = 0x8808 then P.dbgWord
  else if 0x8000 ≤ off && off < 0x8400 then
    let b := P.channel ((off - 0x8000) / 16)
    if off % 16 = 8 then b.word else b.prod % 2 ^ 32
  else if off < 0x8000 && P.hasQueue (off / 8) then let q := s.queueAt (off / 8); countsWord q.prod q.cons
  else 0

/-! ### TICK -/

/-- The end of a cycle: its samples are taken, its draws made, its skipped issues counted and its deferrals ended; the groups
that pre-emptions have stopped are captured; T advances, and fault queues show the records whose writes it has passed. -/
def State.nextCycle (s : State) : State :=
  let qs := ((s.groups.map fun g => g.1 / 16).eraseDups)
  let s1 := qs.foldl (fun (acc : State) q => acc.stallSample q) s
  let s2 := ((qs.foldl (fun (acc : State) q => acc.endCycle q) s1).drawTokens s1.pkg.drawers.length).stretchCores.parkStopped
  { s2 with time := s2.time + 1, parts := s2.parts.changeAll fun _ p => p.raiseProd (s2.time + 1) }

/-- TICK: the cycle ends, but not before a deferred bundle in its eighth cycle has issued (R285), nor before the start or the
midpoint of a power interval that falls in it (R391). -/
def tickOp (s : State) : State := if s.issueDue || s.powerDue then s else s.nextCycle

/-! ### The arms -/

/-- `TICK` (R238). (DESIGN CHOICE, log entry 10) -/
def execTick (s : State) : Result := go (tickOp s)

/-- `ATTACH` (R398). -/
def execAttach (p desc : Nat) (s : State) : Result := go (s.attach p desc)

/-- `DETACH` (R398). -/
def execDetach (p : Nat) (s : State) : Result := go (s.detach p)

/-- `STOP` (R400). -/
def execStop (p : Nat) (tgt : DbgTarget) (s : State) : Result := go (stopDbg p tgt s)

/-- `RESUME` (R400). -/
def execResume (p : Nat) (tgt : DbgTarget) (s : State) : Result := go (resumeDbg p tgt s)

/-- `STEP` (R402). -/
def execStep (p : Nat) (tgt : DbgTarget) (s : State) : Result := go (stepDbg 3 p tgt s)

/-- `STEP_ONE` (R402). -/
def execStepOne (p : Nat) (tgt : DbgTarget) (s : State) : Result := go (stepDbg 4 p tgt s)

/-- `STEP_WAIT` (R403). -/
def execStepWait (p : Nat) (tgt : DbgTarget) (s : State) : Result := go (stepDbg 5 p tgt s)

/-- `TRAPSTEP` (R403). -/
def execTrapstep (p : Nat) (tgt : DbgTarget) (s : State) : Result := go (trapstepDbg p tgt s)

/-- `MAILBOX_POST` (R404). -/
def execMailboxPost (p : Nat) (s : State) : Result := go (s.mailboxPost p)

/-- `STALL_SAMPLE` (R405). -/
def execStallSample (q : Nat) (s : State) : Result := go (s.stallSample q)

/-- `SAMPLE_DRAIN` (R406). -/
def execSampleDrain (c : Nat) (s : State) : Result := go (s.sampleDrain c)

/-- The debug engine takes the next entry (R399): an unknown code is refused by STATUS; reserved bits are ignored (R7).
(DEDUCED, log entry 82) -/
def debugMove (p : Nat) (s : State) : Result :=
  match s.nextEntry p with
  | none => go s
  | some bs =>
    let t := debugTarget bs
    if !(1 ≤ at' bs 0 2 && at' bs 0 2 ≤ 6) then go (s.entrySay p stBadCmd)
    else match at' bs 0 2 with
      | 1 => execStop p t s
      | 2 => execResume p t s
      | 3 => execStep p t s
      | 4 => execStepOne p t s
      | 5 => execStepWait p t s
      | _ => execTrapstep p t s

end Sys2Proof.Machine
end

