-- ==== Sys2Proof/Machine/System.lean ====
section
/-! DEFINITION. History, traps and system (08 R215–R235): the bank operations, TRAP and XRET, special registers, debug
and performance, queues and power; and the events that end a bank operation, a ring build, a sleep and a deferral. -/

namespace Sys2Proof.Machine

def fmB : Form := ⟨.none, .none, .v, false, false, [], false⟩
def fmA2 : Form := ⟨.none, .x2, .none, false, false, [], false⟩

/-! ### Bank operations (R217–R221, R292) -/

/-- The owner slot of a thread's group is occupied by a bank operation. -/
def State.bankBusy (s : State) (k : Nat) : Bool := (s.slotOfThread k).busy

/-- A bank operation of a thread's owner slot. -/
def State.bankOp (s : State) (k : Nat) (f : Bank → Bank) : State :=
  s.modSlot (coreOf k) (s.grpOf k).oslot fun sl => { sl with bank := f sl.bank, busy := true }

/-- A lane past its bank operation: Stalled until the operation ends (R292). -/
def bankLane (now : Nat) (h : Hdr) (run : State) (k : Nat) : Lane :=
  .left (run.modThr k fun t => { t.pass now h (t.pc + h.bytes) with state := .stalled .bank })

/-- The 24 blocks of 64 bytes of an image, placed (R218). -/
def State.imagePlaces (s : State) (k ea : Nat) (acc : Acc) : Except Bad (List Place) :=
  (List.range 24).mapM fun i => s.place k (addr48 (ea + 64 * i)) 64 acc false

/-- The 96 accesses of an image sent as it issues, behind the thread's earlier ones, each with its translation (R153, R218);
their keys count on from `key`. -/
def State.sendImage (s : State) (k : Nat) (ps : List Place) (acc : Acc) (key : Nat) : State :=
  (List.range 96).foldl (fun (u : State) i =>
    let p := ps.getD (i / 4) ⟨.home, 0, 0⟩
    u.send k ⟨p.space, p.pa + 16 * (i % 4), p.va + 16 * (i % 4)⟩ 16 (.memo false (key + i)) false acc) (s.orderPoint k)

/-- HXST and HXLD: lane L0 checks at its issue and sends the accesses from `key` on; once the image may move, `move` is
every lane's bank operation. -/
def imageOp (opc : Nat) (acc : Acc) (key : Nat) (h : Hdr) (ready : State → Nat → Bool) (move : State → Nat → State → State) :
    State → State :=
  runLanes opc h fmA2 anyone fun s0 part k _ run =>
    match part with
    | [] => .ok run
    | (l0, v0) :: _ =>
      let ea := addr48 v0.a
      let act (s1 : State) : Lane :=
        if !ready s0 l0 || s0.bankBusy l0 then (if k = l0 then .asks s1 else .stall .memory)
        else bankLane s0.time h (if k = l0 then (move s0 l0 s1).count (coreOf l0) (s0.grpOf l0).oslot 7 24 else run) k
      if s0.engaged l0 then act run
      else if ea % 64 != 0 then .trap run 5 ea
      else match s0.imagePlaces l0 ea acc with
        | .error b => b.lane run
        | .ok ps => act (if k = l0 then run.sendImage l0 ps acc key else run)

/-- The bytes of the bank's image in the stores that hold its places. (R218) -/
def State.storeImage (s : State) (k : Nat) (now : State) : State :=
  let im := (s.slotOfThread k).bank.image
  { s with
    reqs := s.reqs.changeAll fun _ q =>
      match q.kind with
      | .memo _ key =>
        if s.isOf k q && q.kind.holds then
          { q with kind := .store ((im.drop (16 * (key - holdKey))).take 16), issuedAt := now.fresh, sentAt := now.time }
        else q
      | _ => q }

/-- HXST (R218): 96 ST.b128 of the snapshot, once the thread's earlier accesses have been performed. -/
def hxstOp (h : Hdr) : State → State :=
  imageOp 0x2C0 .store holdKey h State.allPerformed fun s0 l0 u => (u.bankOp l0 id).storeImage l0 s0

/-- HXLD (R218): 96 LD.nl of 16 bytes, which follow the thread's earlier accesses, then the bank operation.
(DEDUCED, log entry 11) -/
def hxldOp (h : Hdr) : State → State :=
  imageOp 0x2C1 .load 0 h (fun s l0 => (s.words l0 (List.range 96)).isSome) fun s0 l0 u =>
    u.bankOp l0 fun _ => Bank.ofImage (((s0.words l0 (List.range 96)).getD []).flatMap (leBytes 16))

/-- The tables that HXCLR clears (R219). -/
def Bank.clear (tbl : BitVec 4) (b : Bank) : Bank :=
  let c := Bank.cleared
  if tbl = 0 then c
  else
    { bot := if tbl.getLsbD 0 then c.bot else b.bot
      ghr := if tbl.getLsbD 0 then c.ghr else b.ghr
      conf := b.conf
      rip := if tbl.getLsbD 2 then c.rip else b.rip
      spt := if tbl.getLsbD 1 then c.spt else b.spt
      cht := if tbl.getLsbD 3 then c.cht else b.cht }

/-- HXCLR (R219), once per bundle. -/
def hxclrOp (h : Hdr) (tbl : BitVec 4) : State → State :=
  runLanes 0x2C2 h ⟨.none, .none, .none, false, false, [], false⟩ anyone fun s0 part k _ run =>
    if s0.bankBusy k then .stall .slot
    else bankLane s0.time h (if part.head?.map (·.1) = some k then run.bankOp k (Bank.clear tbl) else run) k

/-- The check of an image offset (R220). -/
def imageOffset (run : State) (o : Nat) : Option Lane :=
  if o % 4 != 0 then some (.trap run 5 o) else if o ≥ 1536 then some (.trap run 14 (protInfo 3 o)) else none

/-- HXRD (R220): no bank operation. -/
def hxrdOp (h : Hdr) : State → State :=
  let fm : Form := ⟨.w, .none, .v, false, true, [], false⟩
  runLanes 0x2C3 h fm anyone fun s0 _ k v run =>
    match imageOffset run v.b with
    | some l => l
    | none => .ok (run.writeD k h fm v.dst ((s0.slotOfThread k).bank.word v.b).toNat)

/-- HXWR (R220). -/
def hxwrOp (h : Hdr) : State → State :=
  runLanes 0x2C4 h ⟨.none, .v, .v, false, false, [], false⟩ anyone fun s0 _ k v run =>
    match imageOffset run v.b with
    | some l => l
    | none =>
      if s0.bankBusy k then .stall .slot
      else bankLane s0.time h (run.bankOp k fun b => b.setWord v.b (BitVec.ofNat 32 v.a)) k

/-- The configuration word after HXCFG (R221). -/
def cfgUpdate (conf : DWord) (a b : Nat) : DWord :=
  let old := conf.toNat % 65536
  BitVec.ofNat 64 (conf.toNat / 65536 * 65536 + (((old &&& (65535 - b % 65536)) ||| (a &&& b % 65536)) &&& confMask))

/-- HXCFG (R221). -/
def hxcfgOp (h : Hdr) : State → State :=
  let fm : Form := ⟨.w, .v, .v, false, true, [], false⟩
  runLanes 0x2C5 h fm anyone fun s0 _ k v run =>
    if s0.bankBusy k then .stall .slot
    else
      let old := (run.slotOfThread k).bank.conf.toNat % 65536
      let s1 := run.bankOp k fun b => { b with conf := cfgUpdate b.conf v.a v.b }
      bankLane s0.time h (s1.writeD k h fm v.dst old) k

/-! ### Traps (R225, R226) -/

/-- TRAP. -/
def trapOp (h : Hdr) : State → State := runLanes 0x2C6 h fmB anyone fun _ _ _ v run => .trap run 19 (v.b % 2 ^ 32)

/-- The code of D in a unit's word and its CHAIN bit (R67, R80); a compact unit, which has no hint, ends its chain (R78). -/
def unitFields (bytes : List Byte) : Nat × Bool :=
  let w := leNat bytes
  if bytes.length = 12 then (field w 16 10, bit w 55)
  else if bytes.length = 8 then (field w 18 10, bit w 57)
  else (field w 8 8, false)

/-- The content of a skipped member's D, and whether it had a successor in its chain (R75, R226), by the fields of its word,
which a word that is no legal instruction has too. Unknown are the content of a D that INDEX would refuse, and both where
the unit cannot be read. (DESIGN CHOICE, log entry 48) -/
def State.skipped (s : State) (k pc : Nat) : Word × Bool :=
  match s.unitAt k pc with
  | some (.unit bytes _) =>
    let (d, more) := unitFields bytes
    (match resolve (s.thr k) 0 .w d with
     | .ok c => (s.readReg k c, more)
     | .error _ => (Config.freeWord s.fresh (k * 8), more))
  | _ => (Config.freeWord s.fresh (k * 8), s.free k % 2 == 1)

/-- XRET (R226). -/
def xretOp (h : Hdr) (skip : Bool) : State → State :=
  runLanes 0x2C7 h ⟨.none, .none, .none, false, false, [], false⟩ needsH fun s0 _ k _ run =>
    let x := (s0.thr k).trap
    let len := field x.xstat.toNat 8 2
    let t := addr48 (x.xpc.toNat + (if skip then lenBytes len else 0))
    if skip && len == 0 then .trap run 1 (6 * 2 ^ 12 + 0x2C7)
    else if t % 4 != 0 then .trap run 5 t
    else
      let s1 := (run.trapReturn k t).modThr k fun t => { t with readyAt := s0.time }
      if skip && bit x.xstat.toNat 4 then
        let (w, more) := s0.skipped k (addr48 x.xpc.toNat)
        .left (s1.modThr k fun t => if more then { t with chain := true, latch := w :: t.latch } else { t with chain := false, latch := [] })
      else .left s1

/-! ### Special registers (R30, R227) -/

/-- The low or the high half of a 64-bit register. -/
def half (v : Nat) (hi : Bool) : Word := BitVec.ofNat 32 (if hi then v / 2 ^ 32 else v)

/-- A special register of a thread by its code. -/
def State.readSpecial (s : State) (k code : Nat) : Word :=
  let t := s.thr k
  let G := s.grpOf k
  let sl := s.slotOfThread k
  match code with
  | 332 => BitVec.ofNat 32 t.ident.tid
  | 333 => BitVec.ofNat 32 t.ident.ntid
  | 334 => BitVec.ofNat 32 t.ident.bidX
  | 335 => BitVec.ofNat 32 t.ident.bidY
  | 336 => BitVec.ofNat 32 t.ident.bidZ
  | 337 => BitVec.ofNat 32 t.ident.nbidX
  | 338 => BitVec.ofNat 32 t.ident.nbidY
  | 339 => BitVec.ofNat 32 t.ident.nbidZ
  | 340 => BitVec.ofNat 32 (laneOf k)
  | 341 => BitVec.ofNat 32 (slotOf k)
  | 342 => BitVec.ofNat 32 G.grp
  | 343 => BitVec.ofNat 32 (quadOf k)
  | 344 => BitVec.ofNat 32 (coreOf k)
  | 345 => BitVec.ofNat 32 (sl.owner % 65536)
  | 346 => BitVec.ofNat 32 (s.partOf (coreOf k))
  | 347 => BitVec.ofNat 32 t.ident.depth
  | 348 => BitVec.ofNat 32 G.oslot
  | 349 => t.fpc
  | 350 => t.fps.zeroExtend 32
  | 351 => BitVec.ofNat 32 (b2n G.udiv)
  | 352 => half t.trap.xpc.toNat false
  | 353 => half t.trap.xpc.toNat true
  | 354 => t.trap.xcause
  | 355 => half t.trap.xinfo.toNat false
  | 356 => half t.trap.xinfo.toNat true
  | 357 => t.trap.xstat
  | 373 => BitVec.ofNat 32 (2 * b2n sl.udivt + b2n sl.valid)
  | 374 => half sl.tvec false
  | 375 => half sl.tvec true
  | 376 => half sl.hsave false
  | 377 => half sl.hsave true
  | c => if 358 ≤ c && c ≤ 365 then t.trap.z.getD (c - 358) 0 else if 366 ≤ c && c ≤ 372 then t.trap.xlat.getD (c - 366) 0 else 0

/-- A 64-bit register with one half replaced. -/
def setHalf (v : DWord) (w : Word) (hi : Bool) : DWord :=
  if hi then BitVec.ofNat 64 (w.toNat * 2 ^ 32 + v.toNat % 2 ^ 32) else BitVec.ofNat 64 (v.toNat / 2 ^ 32 * 2 ^ 32 + w.toNat)

/-- A special register of the trap state written; reserved bits read 0 (R227). -/
def TrapState.write (x : TrapState) (code : Nat) (w : Word) : TrapState :=
  match code with
  | 352 => { x with xpc := setHalf x.xpc w false }
  | 353 => { x with xpc := setHalf x.xpc w true }
  | 354 => { x with xcause := w &&& 0xFF }
  | 355 => { x with xinfo := setHalf x.xinfo w false }
  | 356 => { x with xinfo := setHalf x.xinfo w true }
  | 357 => { x with xstat := w &&& 0x3F8 }
  | c => if 358 ≤ c && c ≤ 365 then { x with z := x.z.set (c - 358) w }
    else if 366 ≤ c && c ≤ 372 then { x with xlat := x.xlat.set (c - 366) w } else x

/-- A special register written by MTS. -/
def State.writeSpecial (s : State) (k code : Nat) (w : Word) : State :=
  match code with
  | 349 => s.modThr k fun t => { t with fpc := w &&& 0x1FFF }
  | 350 => s.modThr k fun t => { t with fps := w.truncate 4 }
  | 351 => s.modGrp (groupOf k) fun G => { G with udiv := w.getLsbD 0 }
  | _ => s.modThr k fun t => { t with trap := t.trap.write code w }

/-- A value that would put a reserved mode into RM (R31). -/
def badRm (v : Nat) : Bool := decide (field v 0 3 ≥ 5)

/-- The privilege check of R30 on a code that names a special register. -/
def hOnly (code : Nat) (s : State) (k : Nat) : Bool := !(s.thr k).handler && 352 ≤ code && code < 378

/-- MFS. -/
def mfsOp (h : Hdr) : State → State :=
  let fm : Form := ⟨.w, .sr, .none, false, true, [], false⟩
  runLanes 0x2C8 h fm (hOnly h.a.toNat) fun s0 _ k v run => .ok (run.writeD k h fm v.dst (s0.readSpecial k v.a).toNat)

/-- MTS. -/
def mtsOp (h : Hdr) : State → State :=
  runLanes 0x2C9 h ⟨.srw, .none, .v, false, false, [], false⟩ (hOnly h.d.toNat) fun _ _ k v run =>
    if v.dst = 349 && badRm v.b then .trap run 2 (illopdInfo 0 349) else .ok (run.writeSpecial k v.dst (BitVec.ofNat 32 v.b))

/-! ### Access to stopped threads (R216, R228) -/

/-- Neither at H nor in the debug monitor's group. -/
def notMonitor (s : State) (k : Nat) : Bool :=
  !(s.thr k).handler || (match (s.partAt (s.partOf (coreOf k))).dbg with
    | some d => d.group != groupOf k
    | none => true)

/-- The thread that a selector names on the core, if it is live and Stopped. -/
def State.targetOf (s : State) (k sel : Nat) : Option Nat :=
  let j := threadKey (groupKey (coreOf k) (field sel 9 2) (field sel 5 4)) (field sel 0 5)
  if sel / 2 ^ 11 = 0 && (match s.threads.find j with
      | some t => t.isStopped && t.state != .ended && (s.grpOf j).live.getLsbD (laneOf j)
      | none => false) then some j else none

/-- The code of a thread's state (R13). -/
def Thread.stateCode (t : Thread) : Nat :=
  if t.isStopped then 4
  else match t.state with
    | .ready => 0 | .stalled _ => 1 | .waiting _ => 2 | .parked _ => 3 | .ended => 5

/-- A register of the target by its code. -/
def State.readTarget (s : State) (j code : Nat) : Option Word :=
  let t := s.thr j
  if code < 224 then (if code < t.regs.length then some (s.readX j code) else none)
  else if 256 ≤ code && code < 327 then some (s.readReg j code)
  else if 328 ≤ code && code < 332 then some (s.readReg j code)
  else if 332 ≤ code && code < 378 then some (s.readSpecial j code)
  else if code = 378 then some (half t.pc false)
  else if code = 379 then some (half t.pc true)
  else if code = 380 then some (BitVec.ofNat 32 (b2n t.handler * 256 + t.stateCode))
  else none

/-- A register of the target written; none where the form may not write it. -/
def State.writeTarget (s : State) (j code v : Nat) : Option State :=
  let t := s.thr j
  let w : Word := BitVec.ofNat 32 v
  if code < 224 then (if code < t.regs.length then some (s.writeReg j code w) else none)
  else if 256 ≤ code && code < 327 then some (s.writeReg j code w)
  else if 328 ≤ code && code < 332 then some (s.writeReg j code w)
  else if code = 349 && badRm v then none
  else if 349 ≤ code && code < 373 then some (s.writeSpecial j code w)
  else if code = 378 then
    (if v % 4 != 0 then none else some (s.modThr j fun t => { t with pc := addr48 (t.pc / 2 ^ 32 * 2 ^ 32 + v % 2 ^ 32) }))
  else if code = 379 then some (s.modThr j fun t => { t with pc := addr48 (v * 2 ^ 32 + t.pc % 2 ^ 32) })
  else none

/-- The predicate that a .t form writes (R228). -/
def State.writePv (s : State) (k : Nat) (pv : BitVec 3) (ok : Bool) : State :=
  if pv = 0 then s else s.modThr k fun t => t.setPred (pv.toNat - 1) ok

def pvPreds (pv : BitVec 3) : List Nat := if pv = 0 then [] else [pv.toNat - 1]

/-- MFS.t: D, then the success bit, which stays where both are one predicate. (DESIGN CHOICE, log entry 114) -/
def mfsTOp (h : Hdr) (pv : BitVec 3) : State → State :=
  let fm : Form := ⟨.w, .target, .v, false, true, pvPreds pv, false⟩
  runLanes 0x2C8 h fm notMonitor fun s0 _ k v run =>
    let r := (s0.targetOf k v.b).bind fun j => s0.readTarget j v.a
    .ok ((run.writeD k h fm v.dst (r.getD 0).toNat).writePv k pv r.isSome)

/-- MTS.t. -/
def mtsTOp (h : Hdr) (pv : BitVec 3) : State → State :=
  runLanes 0x2C9 h ⟨.target, .v, .v, false, false, pvPreds pv, false⟩ notMonitor fun s0 _ k v run =>
    match (s0.targetOf k v.a).bind fun j => run.writeTarget j v.dst v.b with
    | some s1 => .ok (s1.writePv k pv true)
    | none => .ok (run.writePv k pv false)

/-! ### Debug, performance, time, code, queues, power (R225, R229–R235) -/

/-- Breakpoints of the partition are claimed (R397). -/
def State.claimed (s : State) (k : Nat) : Bool :=
  match (s.partAt (s.partOf (coreOf k))).dbg with
  | some d => d.claim
  | none => false

/-- BKPT: a claimed one stops the lane at itself, and a STOP message names the lanes of its group (R401).
(DEDUCED, log entry 47) -/
def bkptOp (h : Hdr) : State → State :=
  runLanes 0x2CA h fmB anyone fun s0 part k v run =>
    if !s0.claimed k then .trap run 17 (v.b % 2 ^ 32)
    else
      let mine := (part.map (·.1)).filter fun j => groupOf j == groupOf k
      let s1 := run.modThr k fun t => { t with stopped := true, stepping := false, state := .ready }
      .left (if mine.head? = some k then s1.stopMail mine 2 else s1)

/-- DBGMSG. -/
def dbgmsgOp (h : Hdr) : State → State :=
  runLanes 0x2CB h ⟨.none, .v, .v, false, false, [], false⟩ anyone fun _ _ k v run => .ok (run.dbgMessage k v.a v.b)

/-- PMARK. -/
def pmarkOp (h : Hdr) : State → State :=
  runLanes 0x2CC h fmB anyone fun _ _ k v run => .ok (run.modGrp (groupOf k) fun G => { G with mark := BitVec.ofNat 16 v.b })

/-- A performance counter (R231). -/
def State.counter (s : State) (k n : Nat) : Nat :=
  if n < 10 then (s.slotOfThread k).counters.getD n 0 % 2 ^ 64
  else if n = 10 then (s.coreAt (coreOf k)).stretch % 2 ^ 64
  else if n = 11 then (s.coreAt (coreOf k)).smpdrop % 2 ^ 64
  else 0

/-- PMRD. -/
def pmrdOp (h : Hdr) : State → State :=
  let fm : Form := ⟨.x2, .none, .v, false, true, [], false⟩
  runLanes 0x2CD h fm anyone fun s0 _ k v run => .ok (run.writeD k h fm v.dst (s0.counter k v.b))

/-- CLKRD. -/
def clkrdOp (h : Hdr) : State → State :=
  let fm : Form := ⟨.x2, .none, .none, false, true, [], false⟩
  runLanes 0x2CE h fm anyone fun s0 _ k v run => .ok (run.writeD k h fm v.dst (s0.time % 2 ^ 64))

/-- The lines that IPREF asks for (R233). -/
def iprefLines (a b : Nat) : List Nat :=
  if b = 0 then [] else (List.range ((a + min b 2048 - 1) / 128 - a / 128 + 1)).map fun i => (a / 128 + i) % 2 ^ 41

/-- IPREF (R233): a line part of which the cache holds is filled up. (DEDUCED, log entry 46) -/
def iprefOp (h : Hdr) : State → State :=
  runOnce 0x2CF h ⟨.none, .x2, .v, false, false, [], false⟩ anyone fun _ run _ k v =>
    .ok ((iprefLines (addr48 v.a) v.b).foldl (fun (acc : State) l => acc.askAhead (coreOf k) (acc.grpOf k).oslot l true) run)

/-- QNTF: the value of PROD that it writes is not stated; it is a free value. (DESIGN CHOICE, log entry 44) -/
def qntfOp (h : Hdr) : State → State :=
  runLanes 0x2D0 h fmB anyone fun s0 _ k v run =>
    let q := v.b % 2 ^ 32
    if q ≥ 4096 || !(s0.partAt (s0.partOf (coreOf k))).hasQueue q then .trap run 14 (protInfo 9 0)
    else if s0.releaseBlocked k 3 then .stall .wct
    else .ok ((run.orderPoint k).notifyQueue q (s0.free (k * 4 + 2)))

/-- TOKRD (R235). -/
def tokrdOp (h : Hdr) (fig : BitVec 2) : State → State :=
  let fm : Form := ⟨.w, .none, .none, false, true, [], false⟩
  runLanes 0x2D1 h fm anyone fun s0 _ k v run =>
    let P := s0.partAt (s0.partOf (coreOf k))
    let n := match fig.toNat with | 0 => P.balance | 1 => s0.pkg.pool | 2 => P.previous | _ => P.weight
    .ok (run.writeD k h fm v.dst (n % 2 ^ 32))

/-! ### Events -/

/-- BANK_OP_DONE (R292): the bank is free and its waiting threads go on. -/
def bankOpDoneOp (c o : Nat) (s : State) : State :=
  if !(s.slotAt c o).busy then s
  else
    let s1 := s.modSlot c o fun sl => { sl with busy := false }
    (s.threadsIn fun k => coreOf k == c && (s.grpOf k).oslot == o && (s.thr k).state == .stalled .bank).foldl
      (fun acc k => (acc.modThr k fun t => t.ready s.time).endStep k false) s1

/-- A ring slot whose first build has ended; the ring before it is kept while a thread may still use it. -/
def Ring.built (r : Ring) (e : RingLoad) (ws : List Word) (rest : List RingLoad) (waited : Bool) : Ring :=
  { r with
    values := ws
    tag := some e.owner
    number := e.number
    queue := rest
    past := if !waited then [] else (r.tag.map fun t => (r.number, r.values, t)).toList ++ r.past }

/-- RING_BUILD_DONE (R65): the build of the first RSRING in issue order, once its words have arrived. -/
def ringBuildDoneOp (c rs : Nat) (s : State) : State :=
  match s.ringQueue (s.ringAt c rs) with
  | [] => s
  | e :: rest =>
    match e.words with
    | none => s
    | some ws => s.modRing c rs fun r => r.built e ws rest (s.ringWaited c)

/-- SLEEP_EXPIRE (R108). -/
def sleepExpireOp (k : Nat) (s : State) : State :=
  match (s.thr k).state with
  | .waiting (.sleep d) => if s.time ≥ d && !(s.thr k).isStopped then s.modThr k fun t => t.ready s.time else s
  | _ => s

/-- DEFER_END (R285): the deferrals of a quadrant that the next selection ends. -/
def deferEndOp (q : Nat) (s : State) : State := s.endDeferrals q

/-- `BANK_OP_DONE` (R292). (DESIGN CHOICE, log entry 10) -/
def execBankOpDone (c o : Nat) (s : State) : Result := go (bankOpDoneOp c o s)

/-- `RING_BUILD_DONE` (R65). (DESIGN CHOICE, log entry 10) -/
def execRingBuildDone (c rs : Nat) (s : State) : Result := go (ringBuildDoneOp c rs s)

/-- `SLEEP_EXPIRE` (R108). -/
def execSleepExpire (k : Nat) (s : State) : Result := go (sleepExpireOp k s)

/-- `DEFER_END` (R285). -/
def execDeferEnd (q : Nat) (s : State) : Result := go (deferEndOp q s)

/-! ### The arms -/

/-- `HXST` (R218). -/
def execHxst (h : Hdr) (s : State) : Result := go (hxstOp h s)

/-- `HXLD` (R218). -/
def execHxld (h : Hdr) (s : State) : Result := go (hxldOp h s)

/-- `HXCLR` (R219). -/
def execHxclr (h : Hdr) (tbl : BitVec 4) (s : State) : Result := go (hxclrOp h tbl s)

/-- `HXRD` (R220). -/
def execHxrd (h : Hdr) (s : State) : Result := go (hxrdOp h s)

/-- `HXWR` (R220). -/
def execHxwr (h : Hdr) (s : State) : Result := go (hxwrOp h s)

/-- `HXCFG` (R221). -/
def execHxcfg (h : Hdr) (s : State) : Result := go (hxcfgOp h s)

/-- `TRAP` (R225). -/
def execTrapI (h : Hdr) (s : State) : Result := go (trapOp h s)

/-- `XRET` (R226). -/
def execXret (h : Hdr) (skip : Bool) (s : State) : Result := go (xretOp h skip s)

/-- `MFS` (R227). -/
def execMfs (h : Hdr) (s : State) : Result := go (mfsOp h s)

/-- `MTS` (R227). -/
def execMts (h : Hdr) (s : State) : Result := go (mtsOp h s)

/-- `MFS_T` (R228). -/
def execMfsT (h : Hdr) (pv : BitVec 3) (s : State) : Result := go (mfsTOp h pv s)

/-- `MTS_T` (R228). -/
def execMtsT (h : Hdr) (pv : BitVec 3) (s : State) : Result := go (mtsTOp h pv s)

/-- `BKPT` (R225). -/
def execBkpt (h : Hdr) (s : State) : Result := go (bkptOp h s)

/-- `DBGMSG` (R229). -/
def execDbgmsg (h : Hdr) (s : State) : Result := go (dbgmsgOp h s)

/-- `PMARK` (R230). -/
def execPmark (h : Hdr) (s : State) : Result := go (pmarkOp h s)

/-- `PMRD` (R231). -/
def execPmrd (h : Hdr) (s : State) : Result := go (pmrdOp h s)

/-- `CLKRD` (R232). -/
def execClkrd (h : Hdr) (s : State) : Result := go (clkrdOp h s)

/-- `IPREF` (R233). -/
def execIpref (h : Hdr) (s : State) : Result := go (iprefOp h s)

/-- `QNTF` (R234). -/
def execQntf (h : Hdr) (s : State) : Result := go (qntfOp h s)

/-- `TOKRD` (R235). -/
def execTokrd (h : Hdr) (fig : BitVec 2) (s : State) : Result := go (tokrdOp h fig s)

end Sys2Proof.Machine
end

