-- ==== Sys2Proof/Machine/Dispatch.lean ====
section
/-! DEFINITION. The dispatcher: each constructor of `Instr` to the meaning of its instruction or step. -/

namespace Sys2Proof.Machine

def exec (i : Instr) (s : State) : Host.Outcome State Fault Refusal :=
  match i with
  | .mov h w64 => Sys2Proof.Machine.execMov h w64 s
  | .movi h w64 => Sys2Proof.Machine.execMovi h w64 s
  | .sel h sp sn => Sys2Proof.Machine.execSel h sp sn s
  | .iadd h u sat => Sys2Proof.Machine.execIadd h u sat s
  | .isub h u sat => Sys2Proof.Machine.execIsub h u sat s
  | .iadc h cp sub => Sys2Proof.Machine.execIadc h cp sub s
  | .imul h u sat wide => Sys2Proof.Machine.execImul h u sat wide s
  | .imulh h u => Sys2Proof.Machine.execImulh h u s
  | .imad h u sat wide => Sys2Proof.Machine.execImad h u sat wide s
  | .imin h u => Sys2Proof.Machine.execImin h u s
  | .imax h u => Sys2Proof.Machine.execImax h u s
  | .iabs h sat => Sys2Proof.Machine.execIabs h sat s
  | .ineg h sat => Sys2Proof.Machine.execIneg h sat s
  | .andw h => Sys2Proof.Machine.execAndw h s
  | .orw h => Sys2Proof.Machine.execOrw h s
  | .xorw h => Sys2Proof.Machine.execXorw h s
  | .andn h => Sys2Proof.Machine.execAndn h s
  | .notw h => Sys2Proof.Machine.execNotw h s
  | .shl h => Sys2Proof.Machine.execShl h s
  | .shr h => Sys2Proof.Machine.execShr h s
  | .sar h => Sys2Proof.Machine.execSar h s
  | .rotl h => Sys2Proof.Machine.execRotl h s
  | .bfx h sx => Sys2Proof.Machine.execBfx h sx s
  | .bfi h => Sys2Proof.Machine.execBfi h s
  | .popc h => Sys2Proof.Machine.execPopc h s
  | .clz h => Sys2Proof.Machine.execClz h s
  | .ctz h => Sys2Proof.Machine.execCtz h s
  | .brev h => Sys2Proof.Machine.execBrev h s
  | .icmp h cond u => Sys2Proof.Machine.execIcmp h cond u s
  | .plop h lut => Sys2Proof.Machine.execPlop h lut s
  | .lea h sc u => Sys2Proof.Machine.execLea h sc u s
  | .add64 h neg => Sys2Proof.Machine.execAdd64 h neg s
  | .cmp64 h cond u => Sys2Proof.Machine.execCmp64 h cond u s
  | .cvti h sty dty sat => Sys2Proof.Machine.execCvti h sty dty sat s
  | .bsel h => Sys2Proof.Machine.execBsel h s
  | .fadd h rnd => Sys2Proof.Machine.execFadd h rnd s
  | .fsub h rnd => Sys2Proof.Machine.execFsub h rnd s
  | .fmul h rnd => Sys2Proof.Machine.execFmul h rnd s
  | .ffma h rnd => Sys2Proof.Machine.execFfma h rnd s
  | .fmin h => Sys2Proof.Machine.execFmin h s
  | .fmax h => Sys2Proof.Machine.execFmax h s
  | .fcmp h cond => Sys2Proof.Machine.execFcmp h cond s
  | .fclass h fmt => Sys2Proof.Machine.execFclass h fmt s
  | .frnd h rnd => Sys2Proof.Machine.execFrnd h rnd s
  | .frcp h rnd => Sys2Proof.Machine.execFrcp h rnd s
  | .frsq h rnd => Sys2Proof.Machine.execFrsq h rnd s
  | .fsqrt h rnd => Sys2Proof.Machine.execFsqrt h rnd s
  | .fex2 h rnd => Sys2Proof.Machine.execFex2 h rnd s
  | .flg2 h rnd => Sys2Proof.Machine.execFlg2 h rnd s
  | .fsin h rnd => Sys2Proof.Machine.execFsin h rnd s
  | .fcos h rnd => Sys2Proof.Machine.execFcos h rnd s
  | .ftanh h rnd => Sys2Proof.Machine.execFtanh h rnd s
  | .f2f h rnd dty sty => Sys2Proof.Machine.execF2f h rnd dty sty s
  | .i2f h rnd sty dty => Sys2Proof.Machine.execI2f h rnd sty dty s
  | .f2i h rnd dty sty => Sys2Proof.Machine.execF2i h rnd dty sty s
  | .hadd2 h rnd bf => Sys2Proof.Machine.execHadd2 h rnd bf s
  | .hmul2 h rnd bf => Sys2Proof.Machine.execHmul2 h rnd bf s
  | .hfma2 h rnd bf => Sys2Proof.Machine.execHfma2 h rnd bf s
  | .dp2 h rnd hf => Sys2Proof.Machine.execDp2 h rnd hf s
  | .dp4 h ty sat rnd => Sys2Proof.Machine.execDp4 h ty sat rnd s
  | .dp8 h ty sat rnd => Sys2Proof.Machine.execDp8 h ty sat rnd s
  | .sclf h rnd one => Sys2Proof.Machine.execSclf h rnd one s
  | .pack h fmt pos rnd => Sys2Proof.Machine.execPack h fmt pos rnd s
  | .unpk h fmt => Sys2Proof.Machine.execUnpk h fmt s
  | .rsadd h rs => Sys2Proof.Machine.execRsadd h rs s
  | .rssub h rs => Sys2Proof.Machine.execRssub h rs s
  | .rsmul h rs => Sys2Proof.Machine.execRsmul h rs s
  | .rsdiv h rs => Sys2Proof.Machine.execRsdiv h rs s
  | .rsneg h => Sys2Proof.Machine.execRsneg h s
  | .rsrcp h rs => Sys2Proof.Machine.execRsrcp h rs s
  | .rssqr h rs => Sys2Proof.Machine.execRssqr h rs s
  | .rsfrom h rs iv => Sys2Proof.Machine.execRsfrom h rs iv s
  | .rslo h rs => Sys2Proof.Machine.execRslo h rs s
  | .rshi h rs => Sys2Proof.Machine.execRshi h rs s
  | .rsuni h => Sys2Proof.Machine.execRsuni h s
  | .rsint h => Sys2Proof.Machine.execRsint h s
  | .rstest h mode => Sys2Proof.Machine.execRstest h mode s
  | .rspack h pw => Sys2Proof.Machine.execRspack h pw s
  | .rsunpk h => Sys2Proof.Machine.execRsunpk h s
  | .rsring h rs => Sys2Proof.Machine.execRsring h rs s
  | .bra h => Sys2Proof.Machine.execBra h s
  | .brx h => Sys2Proof.Machine.execBrx h s
  | .call h ind => Sys2Proof.Machine.execCall h ind s
  | .ret h => Sys2Proof.Machine.execRet h s
  | .loop h => Sys2Proof.Machine.execLoop h s
  | .exit h => Sys2Proof.Machine.execExit h s
  | .yieldI h => Sys2Proof.Machine.execYieldI h s
  | .nop h => Sys2Proof.Machine.execNop h s
  | .sleep h => Sys2Proof.Machine.execSleep h s
  | .bar h id => Sys2Proof.Machine.execBar h id s
  | .bara h id => Sys2Proof.Machine.execBara h id s
  | .launch h => Sys2Proof.Machine.execLaunch h s
  | .cjoin h => Sys2Proof.Machine.execCjoin h s
  | .rjen h j => Sys2Proof.Machine.execRjen h j s
  | .rjwait h j => Sys2Proof.Machine.execRjwait h j s
  | .rjleave h j => Sys2Proof.Machine.execRjleave h j s
  | .lxch h mode seg vp => Sys2Proof.Machine.execLxch h mode seg vp s
  | .vote h mode => Sys2Proof.Machine.execVote h mode s
  | .segred h op ty => Sys2Proof.Machine.execSegred h op ty s
  | .scan h op ty excl => Sys2Proof.Machine.execScan h op ty excl s
  | .matchL h w64 => Sys2Proof.Machine.execMatchL h w64 s
  | .lead h => Sys2Proof.Machine.execLead h s
  | .bcast h => Sys2Proof.Machine.execBcast h s
  | .ld h sz acq sc nl => Sys2Proof.Machine.execLd h sz acq sc nl s
  | .st h sz rel sc => Sys2Proof.Machine.execSt h sz rel sc s
  | .lds h sz => Sys2Proof.Machine.execLds h sz s
  | .sts h sz => Sys2Proof.Machine.execSts h sz s
  | .ldc h sz => Sys2Proof.Machine.execLdc h sz s
  | .ldf h w16 => Sys2Proof.Machine.execLdf h w16 s
  | .pref h l2 => Sys2Proof.Machine.execPref h l2 s
  | .cinv h op => Sys2Proof.Machine.execCinv h op s
  | .smap h w => Sys2Proof.Machine.execSmap h w s
  | .swb h w => Sys2Proof.Machine.execSwb h w s
  | .sinv h w wb => Sys2Proof.Machine.execSinv h w wb s
  | .atom h op ty ord sc => Sys2Proof.Machine.execAtom h op ty ord sc s
  | .atomc h w64 ord sc => Sys2Proof.Machine.execAtomc h w64 ord sc s
  | .red h op ty rel sc => Sys2Proof.Machine.execRed h op ty rel sc s
  | .atomsc h op ty => Sys2Proof.Machine.execAtomsc h op ty s
  | .atoms h op ty => Sys2Proof.Machine.execAtoms h op ty s
  | .fence h sc => Sys2Proof.Machine.execFence h sc s
  | .waitc h live cnd => Sys2Proof.Machine.execWaitc h live cnd s
  | .waitg h => Sys2Proof.Machine.execWaitg h s
  | .armw h => Sys2Proof.Machine.execArmw h s
  | .arrv h => Sys2Proof.Machine.execArrv h s
  | .caps h ns => Sys2Proof.Machine.execCaps h ns s
  | .cld h => Sys2Proof.Machine.execCld h s
  | .cst h => Sys2Proof.Machine.execCst h s
  | .cend h => Sys2Proof.Machine.execCend h s
  | .cadopt h => Sys2Proof.Machine.execCadopt h s
  | .cqry h => Sys2Proof.Machine.execCqry h s
  | .mma h ty asp pm str rnd => Sys2Proof.Machine.execMma h ty asp pm str rnd s
  | .mmai h ty asp pm str sat => Sys2Proof.Machine.execMmai h ty asp pm str sat s
  | .mmab h ty asp pm str rnd => Sys2Proof.Machine.execMmab h ty asp pm str rnd s
  | .mmas h ty asp pm str rnd sat => Sys2Proof.Machine.execMmas h ty asp pm str rnd sat s
  | .tmv h m1 n1 bf => Sys2Proof.Machine.execTmv h m1 n1 bf s
  | .mzero h pm str => Sys2Proof.Machine.execMzero h pm str s
  | .mopr h => Sys2Proof.Machine.execMopr h s
  | .mwait h smask => Sys2Proof.Machine.execMwait h smask s
  | .tcopy h dir sf sr arv => Sys2Proof.Machine.execTcopy h dir sf sr arv s
  | .rcfence h all => Sys2Proof.Machine.execRcfence h all s
  | .cpwait h => Sys2Proof.Machine.execCpwait h s
  | .gath h sz u arv => Sys2Proof.Machine.execGath h sz u arv s
  | .scat h sz u arv => Sys2Proof.Machine.execScat h sz u arv s
  | .hset h hc => Sys2Proof.Machine.execHset h hc s
  | .hnext h hc pv => Sys2Proof.Machine.execHnext h hc pv s
  | .hsave h hc => Sys2Proof.Machine.execHsave h hc s
  | .hload h hc => Sys2Proof.Machine.execHload h hc s
  | .hstat h hc => Sys2Proof.Machine.execHstat h hc s
  | .hxst h => Sys2Proof.Machine.execHxst h s
  | .hxld h => Sys2Proof.Machine.execHxld h s
  | .hxclr h tbl => Sys2Proof.Machine.execHxclr h tbl s
  | .hxrd h => Sys2Proof.Machine.execHxrd h s
  | .hxwr h => Sys2Proof.Machine.execHxwr h s
  | .hxcfg h => Sys2Proof.Machine.execHxcfg h s
  | .trapI h => Sys2Proof.Machine.execTrapI h s
  | .xret h skip => Sys2Proof.Machine.execXret h skip s
  | .mfs h => Sys2Proof.Machine.execMfs h s
  | .mts h => Sys2Proof.Machine.execMts h s
  | .mfsT h pv => Sys2Proof.Machine.execMfsT h pv s
  | .mtsT h pv => Sys2Proof.Machine.execMtsT h pv s
  | .bkpt h => Sys2Proof.Machine.execBkpt h s
  | .dbgmsg h => Sys2Proof.Machine.execDbgmsg h s
  | .pmark h => Sys2Proof.Machine.execPmark h s
  | .pmrd h => Sys2Proof.Machine.execPmrd h s
  | .clkrd h => Sys2Proof.Machine.execClkrd h s
  | .ipref h => Sys2Proof.Machine.execIpref h s
  | .qntf h => Sys2Proof.Machine.execQntf h s
  | .tokrd h fig => Sys2Proof.Machine.execTokrd h fig s
  | .movCompact d a b => Sys2Proof.Machine.execMovCompact d a b s
  | .iaddCompact d a b => Sys2Proof.Machine.execIaddCompact d a b s
  | .isubCompact d a b => Sys2Proof.Machine.execIsubCompact d a b s
  | .imulCompact d a b => Sys2Proof.Machine.execImulCompact d a b s
  | .imadCompact d a b => Sys2Proof.Machine.execImadCompact d a b s
  | .iminCompact d a b => Sys2Proof.Machine.execIminCompact d a b s
  | .imaxCompact d a b => Sys2Proof.Machine.execImaxCompact d a b s
  | .andwCompact d a b => Sys2Proof.Machine.execAndwCompact d a b s
  | .orwCompact d a b => Sys2Proof.Machine.execOrwCompact d a b s
  | .xorwCompact d a b => Sys2Proof.Machine.execXorwCompact d a b s
  | .andnCompact d a b => Sys2Proof.Machine.execAndnCompact d a b s
  | .notwCompact d a b => Sys2Proof.Machine.execNotwCompact d a b s
  | .shlCompact d a b => Sys2Proof.Machine.execShlCompact d a b s
  | .shrCompact d a b => Sys2Proof.Machine.execShrCompact d a b s
  | .sarCompact d a b => Sys2Proof.Machine.execSarCompact d a b s
  | .popcCompact d a b => Sys2Proof.Machine.execPopcCompact d a b s
  | .clzCompact d a b => Sys2Proof.Machine.execClzCompact d a b s
  | .add64Compact d a b => Sys2Proof.Machine.execAdd64Compact d a b s
  | .leaCompact d a b => Sys2Proof.Machine.execLeaCompact d a b s
  | .faddCompact d a b => Sys2Proof.Machine.execFaddCompact d a b s
  | .fsubCompact d a b => Sys2Proof.Machine.execFsubCompact d a b s
  | .fmulCompact d a b => Sys2Proof.Machine.execFmulCompact d a b s
  | .ffmaCompact d a b => Sys2Proof.Machine.execFfmaCompact d a b s
  | .fminCompact d a b => Sys2Proof.Machine.execFminCompact d a b s
  | .fmaxCompact d a b => Sys2Proof.Machine.execFmaxCompact d a b s
  | .frcpCompact d a b => Sys2Proof.Machine.execFrcpCompact d a b s
  | .frsqCompact d a b => Sys2Proof.Machine.execFrsqCompact d a b s
  | .fsqrtCompact d a b => Sys2Proof.Machine.execFsqrtCompact d a b s
  | .fex2Compact d a b => Sys2Proof.Machine.execFex2Compact d a b s
  | .flg2Compact d a b => Sys2Proof.Machine.execFlg2Compact d a b s
  | .ftanhCompact d a b => Sys2Proof.Machine.execFtanhCompact d a b s
  | .hadd2Compact d a b => Sys2Proof.Machine.execHadd2Compact d a b s
  | .hmul2Compact d a b => Sys2Proof.Machine.execHmul2Compact d a b s
  | .hfma2Compact d a b => Sys2Proof.Machine.execHfma2Compact d a b s
  | .dp2Compact d a b => Sys2Proof.Machine.execDp2Compact d a b s
  | .dp4S8Compact d a b => Sys2Proof.Machine.execDp4S8Compact d a b s
  | .dp4E4m3Compact d a b => Sys2Proof.Machine.execDp4E4m3Compact d a b s
  | .dp8S4Compact d a b => Sys2Proof.Machine.execDp8S4Compact d a b s
  | .dp8E2m1Compact d a b => Sys2Proof.Machine.execDp8E2m1Compact d a b s
  | .i2fCompact d a b => Sys2Proof.Machine.execI2fCompact d a b s
  | .f2iCompact d a b => Sys2Proof.Machine.execF2iCompact d a b s
  | .f2fCompact d a b => Sys2Proof.Machine.execF2fCompact d a b s
  | .ldB32Compact d a b => Sys2Proof.Machine.execLdB32Compact d a b s
  | .ldB64Compact d a b => Sys2Proof.Machine.execLdB64Compact d a b s
  | .stB32Compact d a b => Sys2Proof.Machine.execStB32Compact d a b s
  | .stB64Compact d a b => Sys2Proof.Machine.execStB64Compact d a b s
  | .ldsCompact d a b => Sys2Proof.Machine.execLdsCompact d a b s
  | .stsCompact d a b => Sys2Proof.Machine.execStsCompact d a b s
  | .ldcCompact d a b => Sys2Proof.Machine.execLdcCompact d a b s
  | .atomCompact d a b => Sys2Proof.Machine.execAtomCompact d a b s
  | .redCompact d a b => Sys2Proof.Machine.execRedCompact d a b s
  | .lxchFromCompact d a b => Sys2Proof.Machine.execLxchFromCompact d a b s
  | .lxchFlipCompact d a b => Sys2Proof.Machine.execLxchFlipCompact d a b s
  | .lxchFwdCompact d a b => Sys2Proof.Machine.execLxchFwdCompact d a b s
  | .rsaddCompact d a b => Sys2Proof.Machine.execRsaddCompact d a b s
  | .rssubCompact d a b => Sys2Proof.Machine.execRssubCompact d a b s
  | .rsmulCompact d a b => Sys2Proof.Machine.execRsmulCompact d a b s
  | .rsdivCompact d a b => Sys2Proof.Machine.execRsdivCompact d a b s
  | .rsuniCompact d a b => Sys2Proof.Machine.execRsuniCompact d a b s
  | .rsintCompact d a b => Sys2Proof.Machine.execRsintCompact d a b s
  | .bfxCompact d a b => Sys2Proof.Machine.execBfxCompact d a b s
  | .bfiCompact d a b => Sys2Proof.Machine.execBfiCompact d a b s
  | .bselCompact d a b => Sys2Proof.Machine.execBselCompact d a b s
  | .cvtiCompact d a b => Sys2Proof.Machine.execCvtiCompact d a b s
  | .tick => Sys2Proof.Machine.execTick s
  | .evict c o la => Sys2Proof.Machine.execEvict c o la s
  | .readL1 r => Sys2Proof.Machine.execReadL1 r s
  | .readHome r => Sys2Proof.Machine.execReadHome r s
  | .recall r => Sys2Proof.Machine.execRecall r s
  | .writeHome r => Sys2Proof.Machine.execWriteHome r s
  | .rmwHome r => Sys2Proof.Machine.execRmwHome r s
  | .ticket r => Sys2Proof.Machine.execTicket r s
  | .sluiceOp r => Sys2Proof.Machine.execSluiceOp r s
  | .grant r => Sys2Proof.Machine.execGrant r s
  | .enginePart e part => Sys2Proof.Machine.execEnginePart e part s
  | .loadReturn r => Sys2Proof.Machine.execLoadReturn r s
  | .gwctReturn r => Sys2Proof.Machine.execGwctReturn r s
  | .hostPathCompletion r ok => Sys2Proof.Machine.execHostPathCompletion r ok s
  | .requestTimeout r => Sys2Proof.Machine.execRequestTimeout r s
  | .l2Evict la => Sys2Proof.Machine.execL2Evict la s
  | .lineStoreEvict la => Sys2Proof.Machine.execLineStoreEvict la s
  | .stashLineFill b w line => Sys2Proof.Machine.execStashLineFill b w line s
  | .stashEvict b w line => Sys2Proof.Machine.execStashEvict b w line s
  | .icacheFill c o pc => Sys2Proof.Machine.execIcacheFill c o pc s
  | .bankOpDone c o => Sys2Proof.Machine.execBankOpDone c o s
  | .ringBuildDone c rs => Sys2Proof.Machine.execRingBuildDone c rs s
  | .mxuOpComplete e => Sys2Proof.Machine.execMxuOpComplete e s
  | .copyChunkDone e => Sys2Proof.Machine.execCopyChunkDone e s
  | .gatherWindowDone e => Sys2Proof.Machine.execGatherWindowDone e s
  | .engineOpComplete e => Sys2Proof.Machine.execEngineOpComplete e s
  | .capsuleCommit r => Sys2Proof.Machine.execCapsuleCommit r s
  | .capsRetryTimer c => Sys2Proof.Machine.execCapsRetryTimer c s
  | .sleepExpire k => Sys2Proof.Machine.execSleepExpire k s
  | .deferEnd q => Sys2Proof.Machine.execDeferEnd q s
  | .notify q prod => Sys2Proof.Machine.execNotify q prod s
  | .pendingMap sl => Sys2Proof.Machine.execPendingMap sl s
  | .recordConsume src => Sys2Proof.Machine.execRecordConsume src s
  | .launchReady l => Sys2Proof.Machine.execLaunchReady l s
  | .priorityAge l => Sys2Proof.Machine.execPriorityAge l s
  | .blockPlacement l => Sys2Proof.Machine.execBlockPlacement l s
  | .continuationPlacement g c => Sys2Proof.Machine.execContinuationPlacement g c s
  | .carveChange c => Sys2Proof.Machine.execCarveChange c s
  | .blockComplete b => Sys2Proof.Machine.execBlockComplete b s
  | .blockRetire b => Sys2Proof.Machine.execBlockRetire b s
  | .gridComplete g => Sys2Proof.Machine.execGridComplete g s
  | .faultRecordPost p => Sys2Proof.Machine.execFaultRecordPost p s
  | .faultqConsWrite p v => Sys2Proof.Machine.execFaultqConsWrite p v s
  | .retiredTimerExpire c ctx => Sys2Proof.Machine.execRetiredTimerExpire c ctx s
  | .engineAck c ctx cls => Sys2Proof.Machine.execEngineAck c ctx cls s
  | .frameWrite c ctx => Sys2Proof.Machine.execFrameWrite c ctx s
  | .preemptDone ctx => Sys2Proof.Machine.execPreemptDone ctx s
  | .preemptLate ctx => Sys2Proof.Machine.execPreemptLate ctx s
  | .contextRestore ctx c => Sys2Proof.Machine.execContextRestore ctx c s
  | .preempt p ops => Sys2Proof.Machine.execPreempt p ops s
  | .restore p ops => Sys2Proof.Machine.execRestore p ops s
  | .replay p ops => Sys2Proof.Machine.execReplay p ops s
  | .abort p ops => Sys2Proof.Machine.execAbort p ops s
  | .ptimer p ops => Sys2Proof.Machine.execPtimer p ops s
  | .invVa p ops => Sys2Proof.Machine.execInvVa p ops s
  | .invOwner p ops => Sys2Proof.Machine.execInvOwner p ops s
  | .invIpa p ops => Sys2Proof.Machine.execInvIpa p ops s
  | .invAll p ops => Sys2Proof.Machine.execInvAll p ops s
  | .setFaultq p ops => Sys2Proof.Machine.execSetFaultq p ops s
  | .setTables p ops => Sys2Proof.Machine.execSetTables p ops s
  | .setSluiceOvf p ops => Sys2Proof.Machine.execSetSluiceOvf p ops s
  | .setRegion p ops => Sys2Proof.Machine.execSetRegion p ops s
  | .pageRec p ops => Sys2Proof.Machine.execPageRec p ops s
  | .scrub p ops => Sys2Proof.Machine.execScrub p ops s
  | .keygen p ops => Sys2Proof.Machine.execKeygen p ops s
  | .keyload p ops => Sys2Proof.Machine.execKeyload p ops s
  | .keydrop p ops => Sys2Proof.Machine.execKeydrop p ops s
  | .attest p ops => Sys2Proof.Machine.execAttest p ops s
  | .idcert p ops => Sys2Proof.Machine.execIdcert p ops s
  | .brineSet p ops => Sys2Proof.Machine.execBrineSet p ops s
  | .brineClose p ops => Sys2Proof.Machine.execBrineClose p ops s
  | .brineSend p ops => Sys2Proof.Machine.execBrineSend p ops s
  | .qresume p ops => Sys2Proof.Machine.execQresume p ops s
  | .partCreate p ops => Sys2Proof.Machine.execPartCreate p ops s
  | .partDestroy p ops => Sys2Proof.Machine.execPartDestroy p ops s
  | .coreAssign p ops => Sys2Proof.Machine.execCoreAssign p ops s
  | .memAssign p ops => Sys2Proof.Machine.execMemAssign p ops s
  | .linkKey p ops => Sys2Proof.Machine.execLinkKey p ops s
  | .sublinkAssign p ops => Sys2Proof.Machine.execSublinkAssign p ops s
  | .powerWeight p ops => Sys2Proof.Machine.execPowerWeight p ops s
  | .reset p ops => Sys2Proof.Machine.execReset p ops s
  | .regionAssign p ops => Sys2Proof.Machine.execRegionAssign p ops s
  | .powerOnReset => Sys2Proof.Machine.execPowerOnReset s
  | .brineProdWrite p ch v => Sys2Proof.Machine.execBrineProdWrite p ch v s
  | .brineSlotFinish p ch => Sys2Proof.Machine.execBrineSlotFinish p ch s
  | .brineDesyncClear p ch => Sys2Proof.Machine.execBrineDesyncClear p ch s
  | .powerIntervalStart => Sys2Proof.Machine.execPowerIntervalStart s
  | .powerMidpoint => Sys2Proof.Machine.execPowerMidpoint s
  | .energyAccrue p => Sys2Proof.Machine.execEnergyAccrue p s
  | .memoryError kind => Sys2Proof.Machine.execMemoryError kind s
  | .attach p desc => Sys2Proof.Machine.execAttach p desc s
  | .detach p => Sys2Proof.Machine.execDetach p s
  | .stop p tgt => Sys2Proof.Machine.execStop p tgt s
  | .resume p tgt => Sys2Proof.Machine.execResume p tgt s
  | .step p tgt => Sys2Proof.Machine.execStep p tgt s
  | .stepOne p tgt => Sys2Proof.Machine.execStepOne p tgt s
  | .stepWait p tgt => Sys2Proof.Machine.execStepWait p tgt s
  | .trapstep p tgt => Sys2Proof.Machine.execTrapstep p tgt s
  | .mailboxPost p => Sys2Proof.Machine.execMailboxPost p s
  | .stallSample q => Sys2Proof.Machine.execStallSample q s
  | .sampleDrain c => Sys2Proof.Machine.execSampleDrain c s
  | .hostWrite pa data => Sys2Proof.Machine.execHostWrite pa data s
  | .pritchRemoteRequest port sl ipa acc => Sys2Proof.Machine.execPritchRemoteRequest port sl ipa acc s
  | .sublinkTrain port sl => Sys2Proof.Machine.execSublinkTrain port sl s

end Sys2Proof.Machine
end

