-- ==== Sys2Proof/Machine/Issue.lean ====
section
/-! DEFINITION. Issue: the fetch from the instruction cache (03 R77, R82–R84; 13 R313), a selected bundle's instruction,
the test of a Stalled one, and what an issue leaves behind: counters, the retired-instruction count (14 R328), formed
bundles (01 R17), the open chain (03 R75), a yield (R73), single steps (21 R402, R403). -/

namespace Sys2Proof.Machine

/-! ### After an issue -/

/-- Whether a thread of an issued bundle is past its instruction: it committed, trapped, waits, or has begun an operation
that ends without it; it neither stalls, parks on a replayable fault nor stops at a claimed BKPT. -/
def State.passed (s : State) (k : Nat) : Bool :=
  match s.threads.find k with
  | none => true
  | some t =>
    !t.stopped && match t.state with
    | .stalled w => w == .bank || (w == .sluice && s.committing k)
    | .parked seq => (match (s.partAt (s.partOf (coreOf k))).parked.find seq with | some (.double ..) => true | _ => false)
    | _ => true

/-- A capsule step takes effect when Sluice acknowledges it (R328). -/
def State.atSluice (s : State) (k : Nat) : Bool := (s.thr k).state == .stalled .sluice

/-- The thread waits at its instruction, which it will execute again (R184, R328). -/
def State.waitsThere (before s : State) (k : Nat) : Bool :=
  (s.thr k).pc == (before.thr k).pc && (match (s.thr k).state with | .waiting (.caps ..) => true | _ => false)

/-- What the threads that passed count (R328): each instruction once. -/
def State.countRetired (before s : State) (core : Nat) (ps : List Nat) : State :=
  let news := ps.filter fun k => !s.atSluice k && !(before.thr k).counted
  ps.foldl (fun (acc : State) k => acc.modThr k fun t => { t with counted := before.waitsThere s k })
    (s.retire core (news.map fun k => before.ctxOfGrid (before.blkOf k).grid))

/-- A single step ends (R402), or the trap STEP is taken (R403), at once or when the operation begun or the wait has ended; a
CAPS that waits is still to be executed, and EXIT has no following instruction. -/
def State.settleStep (s before : State) (k : Nat) : State :=
  let t := s.thr k
  if t.chain then s
  else if t.stepping then
    let waits := match t.state with | .waiting _ => true | _ => false
    s.modThr k fun t => { t with stepping := waits, stopped := true }
  else if t.stepTrap then
    let s1 := s.modThr k fun t => { t with stepDue := true }
    match t.state with
    | .waiting (.caps ..) => s
    | .stalled _ | .waiting _ => s1
    | .parked _ => s1.endStep k true
    | .ended => s
    | .ready => s1.endStep k (t.handler && !(before.thr k).handler)
  else s

/-- A stall that begins (R17). -/
def State.noteStalls (before s : State) (ks : List Nat) : State :=
  ks.foldl (fun (acc : State) k => acc.modThr k fun t =>
    match t.state with
    | .stalled _ => if before.isReady k then { t with stalledAt := s.time } else t
    | _ => t) s

/-- The chained threads that issue next (R75): those at one member. -/
def State.nextMember (s : State) (ks : List Nat) : List Nat :=
  let cs := ks.filter fun k => (s.thr k).chain
  cs.filter fun k => s.together k (cs.headD 0)

/-- A YIELD, where a thread passed its guard, or the YIELD hint (R73, R108). -/
def State.yieldsBy (before : State) (b : Bundle) (i : Instr) : Bool :=
  ((i.hdr?).map Hdr.yields).getD false || (match i with
    | .yieldI h => b.threads.any fun k => (before.thr k).guard h
    | _ => false)

/-- The selection counted (R312), one that continues a chain or not, and its cycle. -/
def Quad.select (now : Nat) (cont : Bool) (Q : Quad) : Quad :=
  { Q with
    selections := if !cont && Q.selections ≥ 8 then 0 else Q.selections + 1
    lastSelect := some now }

/-- The formed bundle that a bundle is, or whose threads behind it is of. -/
def Quad.formedOf (Q : Quad) (b : Bundle) : Formed :=
  (Q.formed.find? fun f => f.threads == b.threads || (!f.behind.isEmpty && b.threads.all (f.behind.contains ·))).getD
    ⟨b.threads, 0, none, none, false, []⟩

/-- The quadrant after a selection whose bundle has not issued: it stays formed, for this instruction. -/
def State.settleStall (before s : State) (b : Bundle) (i : Instr) : State :=
  s.modQuad b.quad fun Q =>
    let Q1 := Q.select s.time (before.chainNow b.quad).isSome
    { Q1 with
      trained := if before.trains b i then some s.time else Q.trained
      formed := Q.formed.filter (fun f => !f.threads.any (b.threads.contains ·))
        ++ [{ (before.quadAt b.quad).formedOf b with chosen := true }] }

/-- A thread that stays in its bundle after an instruction: it neither waits, is parked or stopped, nor has ended. -/
def State.goesWith (s : State) (k : Nat) : Bool :=
  match s.threads.find k with
  | none => false
  | some t => !t.stopped && (match t.state with
      | .ready => true
      | .stalled _ => true
      | _ => false)

/-- A formed bundle after an issue of it, or of its threads behind: those that stalled at the instruction are behind, and
the instruction counts once all have passed it (R17). Threads at different PCs have parted. -/
def State.formedAfter (s : State) (was : Formed) (b : Bundle) : List Formed :=
  let ks := was.threads.filter s.goesWith
  let behind := ks.filter fun k => if b.threads.contains k then !s.passed k else was.behind.contains k
  let f : Formed :=
    if behind.isEmpty then ⟨ks, was.issued + 1, none, none, false, []⟩
    else { was with threads := ks, chosen := true, behind := behind }
  if !ks.isEmpty && s.alike f.ahead && s.alike f.behind then [f] else []

/-- The quadrant after an issue: its selection count (R312), open chain, formed bundles (R17, R114), a yield (R73). A
cause to re-form that is met inside a chain takes effect at its end (R75). -/
def State.settleQuad (before s : State) (b : Bundle) (i : Instr) : State :=
  let chained := s.nextMember b.threads
  let was := (before.quadAt b.quad).formedOf b
  let yields := before.yieldsBy b i || was.reform == some true
  let causes := yields || was.reform.isSome || was.issued + 1 ≥ 16
  s.modQuad b.quad fun Q =>
    let new := Q.formed.filter fun f => !(before.quadAt b.quad).formed.contains f
    let others := (Q.formed.filter fun f => !new.contains f && !f.threads.any (b.threads.contains ·) && s.binds f) ++ new
    let ours : List Formed :=
      if !chained.isEmpty then [⟨chained, was.issued + 1, none, if causes then some yields else none, false, []⟩]
      else if causes || new.any (fun f => f.threads.any (b.threads.contains ·)) then []
      else s.formedAfter was b
    let Q1 := Q.select s.time (before.chainNow b.quad).isSome
    { Q1 with
      lastIssue := some s.time
      lastBundle := ((before.thr (b.threads.headD 0)).pc, (b.threads.map groupOf).eraseDups)
      trained := if before.trains b i then some s.time else Q.trained
      openChain := if chained.isEmpty then none else some ⟨b.quad, chained⟩
      formed := others ++ ours
      yielded := (Q.yielded.filter fun y => s.time ≤ y.2 + 1)
        ++ (if yields && chained.isEmpty then [(b.threads, s.time)] else []) }

/-- What an issue leaves behind. A bundle of which no thread passed has not issued. (DEDUCED, log entries 21, 46) -/
def afterIssue (before s : State) (b : Bundle) (i : Instr) : State :=
  let s0 := before.noteStalls s b.threads
  let ps := b.threads.filter s0.passed
  match ps, b.threads with
  | [], _ => before.settleStall s0 b i
  | _, [] => s0
  | _, k0 :: _ =>
    let c := coreOf k0
    let o := (before.grpOf k0).oslot
    let again := ((before.quadAt b.quad).formedOf b).behind != []
    let s1 := if again then s0.count c o 1 ps.length
      else before.learnCht ((s0.count c o 0 1).count c o 1 ps.length) b i
    let s2 := (before.countRetired s1 c ps).hintFills c o i (before.thr k0).pc
    (ps.foldl (fun acc k => acc.settleStep before k) (before.settleQuad s2 b i)).autoDetach (s2.partOf c)

/-- A step of the machine, which has no word. -/
def isStep (i : Instr) : Bool := i.hdr?.isNone && i.compact?.isNone

/-! ### The issue of a bundle -/

/-- A bit of HINT of a unit (R67, R68): medium from bit 48, full from bit 46; a compact unit has none. -/
def hintBit (bytes : List Byte) (i : Nat) : Bool :=
  bytes.length ≥ 8 && bit (leNat bytes) ((if bytes.length = 8 then 48 else 46) + i)

/-- The WHY of a word that ILLOP refuses (R75, R76): the chain rules come before an entry's own (5 and 6).
(DEDUCED, log entry 51) -/
def illopWhy (t : Thread) (bytes : List Byte) (why opc : Nat) : Nat :=
  let chain := hintBit bytes 9
  let outside := decide (0x100 ≤ opc)
  if 5 ≤ why && ((outside && (chain || t.chain)) || (t.chain && t.latch.length ≥ 7 && chain) || (hintBit bytes 8 && !chain)) then 4
  else why

/-- Every thread of the bundle takes a trap that its word alone decides (R76, R84). -/
def State.trapBundle (s : State) (b : Bundle) (cause info len : Nat) (chn : Bool) : State :=
  b.threads.foldl (fun acc k => acc.trap k cause info len (chn || (acc.thr k).chain)) s

/-- The threads at the PC key stall with the bundle that misses (R313); a key newly parked counts (R231, counter 6). -/
def State.stallFetch (s : State) (b : Bundle) : State :=
  match b.threads with
  | [] => s
  | k0 :: _ =>
    let c := coreOf k0
    let o := (s.grpOf k0).oslot
    let pc := (s.thr k0).pc
    let s1 := if (s.parkedAt c o pc).isEmpty then s.count c o 6 1 else s
    (s.threadsIn fun k => coreOf k == c && (s.grpOf k).oslot == o && (s.thr k).pc == pc && s.isReady k).foldl
      (fun acc k => acc.modThr k fun t => { t with state := .stalled .fetch, stalledAt := s.time }) s1

/-- A miss (R82, R313): the threads park on a translation fault of the PC's page, trap where its page record or a failed
check refuses the fetch (R274, R275), or stall until a fill ends. -/
def State.fetchMiss (s : State) (b : Bundle) : State :=
  match b.threads with
  | [] => s
  | k0 :: _ =>
    let o := s.slotOfThread k0
    let pc := (s.thr k0).pc
    match s.fetchUnit (coreOf k0) (s.partOf (coreOf k0)) o.owner o.s1root pc with
    | .fault kind ipa w => s.parkOn b.threads [] 1 kind pc ipa (accBits .fetch w) 0
    | .aliased => afterIssue s (s.trapBundle b 15 pc 0 false) b (.tick)
    | .integrity => afterIssue s (s.trapBundle b 16 pc 0 false) b (.tick)
    | .word _ _ => s.stallFetch b

/-- A thread Ready again: a consumer of a ring keeps the number of the RSRING that it waited for (R65). -/
def Thread.woken (now : Nat) (t : Thread) : Thread :=
  match t.state with
  | .stalled (.ring n) => { t.ready now with memo := t.memo.put ringKey n }
  | _ => t.ready now

/-- Threads that were Stalled become Ready: the cause of the stall is gone. -/
def State.wakeThreads (s : State) (ks : List Nat) : State := ks.foldl (fun acc k => acc.modThr k (Thread.woken s.time)) s

/-- The thread is Stalled still. -/
def State.stillStalled (s : State) (k : Nat) : Bool :=
  match (s.thr k).state with
  | .stalled w => w != .bank && !s.committing k
  | _ => false

/-- A Stalled bundle is tested again (R13): while its instruction can take no effect it stays as it is, its reads going
on; otherwise the threads that it holds no longer are Ready, and the next selection decides (R311).
(DEDUCED, log entry 33) -/
def retestBundle (b : Bundle) (s : State) : State :=
  match s.fetchFor (b.threads.headD 0) with
  | none => s
  | some _ =>
    match s.instrAt (b.threads.headD 0) with
    | none => s.wakeThreads b.threads
    | some i =>
      match exec i { s with cur := b } with
      | .next s' => if b.threads.all s'.stillStalled then s' else s.wakeThreads (b.threads.filter fun k => !s'.stillStalled k)
      | _ => s.wakeThreads b.threads

/-- A bundle that forms is deferred (R285). -/
def State.defer (s : State) (b : Bundle) : State :=
  let k0 := b.threads.headD 0
  (s.count (coreOf k0) (s.grpOf k0).oslot 8 1).modQuad b.quad fun Q => { Q with deferred := Q.deferred ++ [(b, s.time)] }

/-- A word that traps: its bundle is deferred where it forms short (R285), or every thread takes the trap. -/
def State.trapWord (s s1 : State) (b : Bundle) (hint : Bool) (cause info len : Nat) (chn : Bool) : State :=
  if s.defersAt b (s.chtExempt b .tick) hint then s.defer b else afterIssue s (s1.trapBundle b cause info len chn) b .tick

/-- A selected bundle issues its instruction. -/
def issueBundle (b : Bundle) (s : State) : Host.Outcome State Fault Refusal :=
  let k0 := b.threads.headD 0
  match s.fetchFor k0 with
  | none => .next (s.fetchMiss b)
  | some (.fillFault kind addr) =>
    let o := s.slotOfThread k0
    let s1 := s.modCore (coreOf k0) fun c => c.dropWord o.owner (s.partOf (coreOf k0)) (s.thr k0).pc
    .next (s.trapWord s1 b false 3 (addr48 addr * 256 + kind) 0 false)
  | some (.unit bytes _) =>
    match decodeBytes bytes with
    | .instr i _ =>
      if !s.collectiveOk b i || !s.trainsInOrder b i then .next s
      else if s.deferralDue b i then .next (s.defer b)
      else
        match exec i { (s.touchCode (coreOf k0) (s.grpOf k0).oslot (s.thr k0).pc) with cur := b } with
        | .next s' => .next (afterIssue s s' b i)
        | o => o
    | .illop why opc n =>
      .next (s.trapWord s b (hintBit bytes 3) 1 (illopWhy (s.thr k0) bytes why opc * 2 ^ 12 + opc) (lenCode n) (hintBit bytes 9))
    | .fill kind _ => .next (s.trapWord s b false 3 (addr48 (s.thr k0).pc * 256 + kind) 0 false)

/-- One bundle proposed: it issues where the rules select it, after the deferrals that a selection ends (R285), or is
tested again where it is Stalled; a deferred bundle in its eighth cycle goes before all else. A proposal that the rules do
not allow changes nothing. -/
def issue (b : Bundle) (s : State) : Host.Outcome State Fault Refusal :=
  if s.allows b then issueBundle b (s.endDeferrals b.quad)
  else if s.retestOk b then .next (retestBundle b s)
  else .next s

end Sys2Proof.Machine
end

