-- ==== Sys2Proof/Machine/Moves.lean ====
section
/-! DEFINITION. Moves: who acts next. The spec fixes no order among the agents (09 R238): the agenda of the state gives
it, and where the agenda is empty a free value does. -/

namespace Sys2Proof.Machine

/-- The move that chance makes, by the count of steps. (DESIGN CHOICE, log entry 1) -/
opaque freeMove : Nat → Move

/-- The operands of a command record (R369). -/
def recordOps (bs : List Byte) : CmdOps :=
  let a (i : Nat) : BitVec 64 := BitVec.ofNat 64 (at' bs (8 + 8 * i) 8)
  ⟨a 0, a 1, a 2, a 3, a 4, a 5, a 6⟩

/-- The commands of a partition's ring by their codes (R370). -/
def partitionCommand (code p : Nat) (o : CmdOps) (s : State) : Result :=
  match code with
  | 1 => execPreempt p o s
  | 2 => execRestore p o s
  | 3 => execReplay p o s
  | 4 => execAbort p o s
  | 5 => execPtimer p o s
  | 8 => execInvVa p o s
  | 9 => execInvOwner p o s
  | 10 => execInvIpa p o s
  | 11 => execInvAll p o s
  | 16 => execSetFaultq p o s
  | 17 => execSetTables p o s
  | 18 => execSetSluiceOvf p o s
  | 19 => execSetRegion p o s
  | 20 => execPageRec p o s
  | 21 => execScrub p o s
  | 22 => execKeygen p o s
  | 23 => execKeyload p o s
  | 24 => execKeydrop p o s
  | 25 => execAttest p o s
  | 26 => execIdcert p o s
  | 27 => execBrineSet p o s
  | 28 => execBrineClose p o s
  | 29 => execBrineSend p o s
  | 30 => execQresume p o s
  | _ => go (s.answer p stBadCmd)

/-- The commands of the management ring (R370). -/
def managementCommand (code : Nat) (o : CmdOps) (s : State) : Result :=
  match code with
  | 64 => execPartCreate mgmtRing o s
  | 65 => execPartDestroy mgmtRing o s
  | 66 => execCoreAssign mgmtRing o s
  | 67 => execMemAssign mgmtRing o s
  | 68 => execLinkKey mgmtRing o s
  | 69 => execSublinkAssign mgmtRing o s
  | 70 => execPowerWeight mgmtRing o s
  | 71 => execReset mgmtRing o s
  | 72 => execRegionAssign mgmtRing o s
  | _ => go (s.answer mgmtRing stBadCmd)

/-- The next command of a ring, in ring order, once the STATUS of the one before is written (R369). A record of a partition's
ring on a page with the record NONE cannot be read, and is not taken (R377). (DEDUCED, log entries 82, 106) -/
def commandMove (ring : Nat) (s : State) : Result :=
  let r := s.ringOf ring
  if !s.hasRing ring then go s
  else if let some st := (s.ringWait ring).2 then go (s.ringDue ring st)
  else if r.2.2.1 == r.2.2.2 then go s
  else if ring ≠ mgmtRing && !s.tableHeld (s.recordAt ring) then go s
  else
    let bs := s.physRead (s.recordAt ring) 64
    if ring = mgmtRing then managementCommand (at' bs 0 2) (recordOps bs) s
    else partitionCommand (at' bs 0 2) ring (recordOps bs) s

/-- Commands, which only a ring brings (R369, R399). (DEDUCED, log entry 82) -/
def isCommand : Instr → Bool
  | .preempt .. | .restore .. | .replay .. | .abort .. | .ptimer .. => true
  | .invVa .. | .invOwner .. | .invIpa .. | .invAll .. => true
  | .setFaultq .. | .setTables .. | .setSluiceOvf .. | .setRegion .. | .pageRec .. | .scrub .. => true
  | .keygen .. | .keyload .. | .keydrop .. | .attest .. | .idcert .. => true
  | .brineSet .. | .brineClose .. | .brineSend .. | .qresume .. => true
  | .partCreate .. | .partDestroy .. | .coreAssign .. | .memAssign .. | .linkKey .. | .sublinkAssign .. => true
  | .powerWeight .. | .reset .. | .regionAssign .. => true
  | .stop .. | .resume .. | .step .. | .stepOne .. | .stepWait .. | .trapstep .. => true
  | _ => false

/-- The host writes a word of a partition's doorbell page at an offset (R297, R318, R367, R386, R396); bits that a word
reserves or that are read only are ignored, and so is a queue of another partition.
(DEDUCED, log entries 71, 110) -/
def pageDoorbell (p off value : Nat) (s : State) : Result :=
  let low := value % 2 ^ 32
  if off < 0x8000 then
    if off % 8 = 0 && (s.partAt p).hasQueue (off / 8) then execNotify (off / 8) low s else go s
  else if off < 0x8400 then
    if off % 16 = 0 then execBrineProdWrite p ((off - 0x8000) / 16) low s
    else if off % 16 = 8 && bit value 0 then execBrineDesyncClear p ((off - 0x8000) / 16) s
    else go s
  else if off = 0x8400 then go (s.ringProd p low)
  else if off = 0x8600 then execFaultqConsWrite p low s
  else if off = 0x8800 then
    match field value 62 2 with
    | 1 => execAttach p (value % 2 ^ 48) s
    | 2 => execDetach p s
    | _ => go s
  else go s

/-- The host writes a word of the doorbell aperture (R367): page p is partition p's, page 16 the management doorbell's; a
page without a partition serves nothing. (DEDUCED, log entry 110) -/
def doorbellMove (off value : Nat) (s : State) : Result :=
  let page := off / 65536
  if page = mgmtRing then (if off % 65536 = 0x8400 then go (s.ringProd mgmtRing (value % 2 ^ 32)) else go s)
  else if s.hasRing page then pageDoorbell page (off % 65536) value s
  else go s

/-- One move made. -/
def makeMove (m : Move) (s : State) : Host.Outcome State Fault Refusal :=
  match m with
  | .issue b => issue b s
  | .act i => if isStep i && !isCommand i then exec i s else .next s
  | .spad c => .next (spadMove c s)
  | .command ring => commandMove ring s
  | .doorbell off value => doorbellMove off value s
  | .debug p => debugMove p s
  | .debugDone p => .next (s.debugDone p)

/-- The outcome of a move with what the dispatcher does at once. -/
def settle : Host.Outcome State Fault Refusal → Host.Outcome State Fault Refusal
  | .next s => .next s.settled
  | o => o

/-- The first move of the agenda, or a free one. (DESIGN CHOICE, log entry 1) -/
def takeMove (s : State) : Host.Outcome State Fault Refusal :=
  let s1 := { s with fresh := s.fresh + 1 }
  match s.agenda with
  | m :: ms => settle (makeMove m { s1 with agenda := ms })
  | [] => settle (makeMove (freeMove s.fresh) s1)

/-- The thread, group, block, core and cached unit that `withFetchWord` places. (DESIGN CHOICE, log entry 8) -/
def placeUnit (s : State) (bytes : List Byte) : State :=
  let pc := 0x10000
  let len := unitLength (bytes.headD 0)
  let word : ICWord :=
    match decodeBytes bytes with
    | .fill kind _ => .fillFault kind pc
    | _ => .unit (bytes.take len) len
  let c := s.coreAt 0
  { s with
    agenda := [.issue ⟨0, [0]⟩]
    threads := s.threads.put 0 (Thread.start .blank 224 pc)
    groups := s.groups.put 0 { Group.blank with alloc := 224, live := 1 }
    blocks := s.blocks.put 0 { Block.blank with alloc := 224, groups := [0] }
    cores := s.cores.put 0 { c with
      part := some 0
      oslots := c.oslots.set 0 { OSlot.empty with valid := true, owner := 1 }
      icache := [⟨1, 0, pc / 128, [(pc, word)], []⟩]
      frozen := none }
    quads := s.quads.put 0 { Quad.scrubbed with cursors := (s.quadAt 0).cursors }
    launches := s.launches.del 0
    reqs := s.reqs.filter fun r => r.2.thread != 0
    parts := s.parts.put 0 (s.partAt 0) }

end Sys2Proof.Machine
end

