-- ==== Sys2Proof/Machine/Step.lean ====
section
/-! DEFINITION. The step of the package, and where it fetches its next instruction. -/

namespace Sys2Proof.Machine

/-- One step: the first move of the agenda, or, where the agenda is empty, a move that the spec leaves to chance. -/
def step (s : State) : Host.Outcome State Fault Refusal := takeMove s

/-- `s` with an instruction stored where the step fetches its next one: a thread of owner 1 on core 0, lane 0, alone in
its group and block, at PC 0x0001_0000, whose instruction cache holds the unit, and its issue at the head of the
agenda. It stands for what a launch and an instruction-cache fill bring about (log entry 8). -/
def State.withFetchWord (s : State) (nbits w : Nat) : State := placeUnit s (leBytes 12 (w % 2 ^ nbits))

end Sys2Proof.Machine
end

