-- ==== Sys2Proof/Claims/Events.lean ====
section
/-! DEFINITION. What the claims say of the steps that the machine's agents make beside the instructions: the lease
machine, the engines and units, the dispatcher and the context engine. For each, when it takes place, and the state it
leaves. -/

namespace Sys2Proof.Machine

/-- When an event takes place, and what it leaves. -/
structure EventRow where
  ok : State → Bool
  out : State → State

/-- Wherever it may take place, it does. -/
def EventRow.Completes (r : EventRow) (i : Instr) : Prop := ∀ s, r.ok s = true → exec i s = .next (r.out s)

/-- An event of something that must be there. -/
def EventRow.on {α : Type} (get : State → Option α) (ok : State → α → Bool) (out : State → α → State) : EventRow where
  ok s := (get s).any (ok s)
  out s := (get s).elim s (out s)

/-- An event that always takes place. -/
def EventRow.always (out : State → State) : EventRow := ⟨fun _ => true, out⟩

/-! ### The lease machine (09 R238–R248; 06 R166–R168; 16 R340, R348) -/

/-- A request that takes a value at its home: whether it takes a lease, and whether it changes no L2 line. -/
def ReqKind.asRead : ReqKind → Option (Bool × Bool)
  | .load _ l f _ => some (l, f)
  | .memo l _ => some (l, false)
  | _ => none

/-- A prefetch, into L1 or L2. -/
def ReqKind.asPref : ReqKind → Option Bool
  | .pref l => some l
  | _ => none

def ReqKind.asStore : ReqKind → Option (List Byte)
  | .store bs => some bs
  | _ => none

/-- A line of a window that goes home. -/
def ReqKind.asWriteBack : ReqKind → Option (Nat × Nat × Nat)
  | .writeBack b w i => some (b, w, i)
  | _ => none

def ReqKind.isQuery : ReqKind → Bool
  | .query _ => true
  | _ => false

def ReqKind.isAtomic : ReqKind → Bool
  | .atomic .. => true
  | _ => false

/-- The window line that an SMAP's request asks for. -/
def ReqKind.asOwn : ReqKind → Option (Nat × Nat × Nat)
  | .own b w i => some (b, w, i)
  | _ => none

/-- What a capsule step's commit carries (R348). -/
structure Commit where
  ident : Nat
  estep : Nat
  writes : List (BitVec 10 × Word)
  cst : Option (StepAccess × Word)
  cld : Option (StepAccess × BitVec 10)

def ReqKind.asCommit : ReqKind → Option Commit
  | .commit i e ws cst cld => some ⟨i, e, ws, cst, cld⟩
  | _ => none

/-- A request gone from the table. -/
def State.without (s : State) (r : Nat) : State := { s with reqs := s.reqs.del r }

/-- A write performed: the state with the request's value and its GWCT. -/
def State.performedBy (r v : Nat) (w : State × Nat) : State := w.1.perform r v w.2

/-- A window owns the line of a request. -/
def State.owned (s : State) (q : Req) : Bool := (s.stashOf (q.pa / 128)).isSome

/-- The line that a load hits in its core's L1. -/
def State.l1Hit (s : State) (q : Req) : Option L1Line :=
  ((s.coreAt q.core).l1Find q.oslot (q.pa / 128)).filter fun l => decide (s.time < l.expiry)

/-- What a read at its home does to L2 and L1: a lease, a fine-grain access, or a read alone. -/
def State.served (s : State) (q : Req) (x : Bool × Bool) : State :=
  if x.1 then s.grantLease q else if x.2 then s.readFine q else s.fillL2 q

/-- The value of an atomic's place. -/
def State.oldValue (s : State) (q : Req) : Nat := leNat (s.homeBytes q.pa q.size)

/-- A thread's own SC atomics of the same bundle on lower lanes have their tickets. -/
def State.ticketTurn (s : State) (q : Req) : Bool :=
  s.reqs.all fun x => !(x.2.issuedAt == q.issuedAt && x.2.kind.isSc && x.2.state == .pending
    && quadKeyOf x.2.thread == quadKeyOf q.thread && decide (laneOf x.2.thread < laneOf q.thread))

/-- The value and the destination of a performed request that returns one. -/
def Req.returns (q : Req) : Option (Nat × Dest) :=
  match q.state, q.kind with
  | .performed v _, .load signed _ _ d => some (extend signed q.size v, d)
  | .performed v _, .query d => some (v, d)
  | .performed v _, .arm _ d => some (v, d)
  | .performed v _, .atomic _ _ _ _ (some d) _ => some (v, d)
  | _, _ => none

/-- The key and the value of a performed read that its instruction makes itself. -/
def Req.recalls (q : Req) : Option (Nat × Nat) :=
  match q.state, q.kind with
  | .performed v _, .memo _ key => some (key, v)
  | _, _ => none

/-- A request whose value has returned: an atomic of global memory still owes its GWCT. -/
def State.returned (s : State) (r : Nat) (q : Req) : State :=
  match q.kind with
  | .atomic op ty b cmp _ sc =>
    if q.space = .spad then s.without r else s.modReq r fun x => { x with kind := .atomic op ty b cmp none sc, acquire := false }
  | _ => s.without r

/-- A request that failed gone, its lane no longer among those that its instruction's other requests count as written (R27). -/
def State.laneFailed (s : State) (r : Nat) (q : Req) : State :=
  { s with reqs := (s.reqs.del r).changeAll fun _ x =>
      if x.issuedAt == q.issuedAt && groupOf x.thread == groupOf q.thread then { x with live := x.live &&& ~~~ laneBit q.thread } else x }

/-- The GWCT of a performed request. -/
def Req.gwct (q : Req) : Option Nat :=
  match q.state with
  | .performed _ g => some g
  | _ => none

/-- A CST to memory on the host path. -/
def Commit.toHost (m : Commit) : Bool := m.cst.any fun x => x.1.space == .hostPath

/-- A commit may be performed, and its record's runner and STEP are its identity and ESTEP (R348). -/
def State.commitOk (s : State) (q : Req) (m : Commit) : Bool :=
  s.mayPerform q && !(m.toHost && s.hostBehind q) && !s.isPoisoned q.pa 64 && s.commits q m.ident
    && m.cld.all (fun x => !s.isPoisoned x.1.pa 4)
    && (s.record q.pa).runner == some m.ident && (s.record q.pa).step == m.estep

/-- The values that a commit checkpoints: a CLD's is read now. -/
def State.commitWrites (s : State) (m : Commit) : List (BitVec 10 × Word) :=
  match m.cld with
  | some (a, code) => [(code, BitVec.ofNat 32 (leNat (s.homeBytes a.pa 4)))]
  | none => m.writes

/-- A commit accepted (R348): the store of a CST, the destinations in the record and in the thread, the step raised, the
thread past its instruction. -/
def State.accepts (s : State) (r : Nat) (q : Req) (m : Commit) : State :=
  let k := q.thread
  let u := ((s.without r).touchLine q.pa).touchWords q.kind
  let stored : State × Nat := m.cst.elim (u, 0) fun x => u.cstStore q.core x.1 x.2
  let rc := s.record q.pa
  let rc' := (s.commitWrites m).foldl CapRec.checkpoint { rc with step := rc.step + 1, cwct := max rc.cwct stored.2 }
  let v := (s.commitWrites m).foldl (fun (u : State) w => u.writeReg k w.1.toNat w.2) (stored.1.setRecord q.pa rc')
  (((if stored.2 = 0 then v else v.enterWct k m.toHost stored.2).retireOne k).modThr k fun t =>
    { t with
      capsule := t.capsule.map fun c => { c with estep := c.estep + 1 }
      pc := addr48 (t.pc + 12), state := .ready, readyAt := s.time }).endStep k false

def memoryEvent : Instr → Option EventRow
  | .evict c o la => some (.always fun s => s.modCore c fun C =>
      { C with l1 := C.l1.map fun l => if l.oslot == o && l.pa == la then { l with expiry := min l.expiry s.time } else l })
  | .readL1 r => some (.on (fun s => s.openReq r .home)
      (fun s q => q.kind.leasedLoad && (s.l1Hit q).isSome && !s.owned q && !(s.coreAt q.core).badL1.contains (q.oslot, q.pa / 128))
      fun s q =>
        (if q.joined.isSome then s else s.modCore q.core fun c => c.hitL1 q.oslot (q.pa / 128)).perform r
          (leNat (((((s.l1Hit q).map (·.data)).getD []).drop (q.pa % 128)).take q.size)) 0)
  | .readHome r => some (.on (fun s => s.openReq r .home)
      (fun s q => (s.rejoins q).isNone && (q.kind.asPref.isSome
        || (q.kind.asRead.isSome && !s.owned q && !s.waitsFill q && !s.isPoisoned q.pa q.size)))
      fun s q => match q.kind.asPref with
        | some l1 => (if s.owned q then s else if l1 then s.grantLease q else s.fillL2 q).without r
        | none => (s.served q (q.kind.asRead.getD (false, false))).perform r (leNat (s.bytesAt q.pa q.size)) 0)
  | .recall r => some (.on (fun s => s.openReq r .home)
      (fun s q => s.owned q && q.kind.asRead.isSome && !s.isPoisoned q.pa q.size)
      fun s q => (s.modCore q.core q.hits).perform r (leNat (s.homeBytes q.pa q.size)) 0)
  | .writeHome r => some (.on (fun s => s.openReq r .home) (fun _ q => q.kind.asStore.isSome || q.kind.asWriteBack.isSome)
      fun s q => match q.kind.asWriteBack with
        | some x => ((s.without r).writeBackLine x.1 x.2.1 x.2.2 (if s.isOf q.thread q then some q.thread else none) true).endParting
            x.1 x.2.1
        | none => .performedBy r 0 (s.writeHome (some q.core) q.pa (q.kind.asStore.getD [])))
  | .rmwHome r => some (.on (fun s => s.openReq r .home) (fun s q => q.kind.isAtomic && !s.isPoisoned q.pa q.size)
      fun s q => .performedBy r (s.oldValue q)
        (s.writeHome (some q.core) q.pa (leBytes q.size (q.kind.stored (s.oldValue q)))))
  | .ticket r => some (.on (fun s => s.reqs.find r) (fun s q => q.kind.isSc && q.state == .pending && s.ticketTurn q)
      fun s _ => { s.modReq r (fun q => { q with state := .ticketed s.pkg.ticket }) with
        pkg := { s.pkg with ticket := s.pkg.ticket + 1 } })
  | .sluiceOp r => some (.on (fun s => s.openReq r .sluice)
      (fun s q => (q.kind.asRead.isSome || q.kind.isQuery || q.kind.asStore.isSome || q.kind.isAtomic)
        && (q.kind.asStore.isSome || !s.isPoisoned q.pa q.size))
      fun s q =>
        let u := s.touchLine q.pa
        if q.kind.isQuery then (u.nameRecord q.pa).perform r (s.record q.pa).snapshot 0
        else if q.kind.asRead.isSome then u.perform r (s.oldValue q) 0
        else .performedBy r (if q.kind.isAtomic then s.oldValue q else 0) (u.sluiceWrite none true q.pa
          (if q.kind.isAtomic then leBytes q.size (q.kind.stored (s.oldValue q)) else q.kind.asStore.getD [])))
  | .grant r => some (.on (fun s => s.reqs.find r)
      (fun s q => s.mayPerform q && q.kind.asOwn.isSome && decide (s.maxExpOf (q.pa / 128) < s.time))
      fun s q =>
        let x := q.kind.asOwn.getD (0, 0, 0)
        ((s.without r).takeLine x.1 x.2.1 x.2.2 (q.pa / 128)).getD s)
  | .loadReturn r => some (.on (fun s => s.reqs.find r) (fun _ q => q.returns.isSome || q.recalls.isSome)
      fun s q => match q.recalls with
        | some x => (s.without r).remember q x.1 x.2
        | none => q.returns.elim s fun v => (s.returned r q).deliver q v.2 v.1)
  | .gwctReturn r => some (.on (fun s => s.reqs.find r) (fun _ q => q.gwct.isSome && q.kind.writes && q.kind.dests.isEmpty)
      fun s q => (s.without r).enterFor q (q.gwct.getD 0))
  | .hostPathCompletion r done => some {
      ok := fun s => match s.openReq r .hostPath with
        | some q => !q.lost && !q.kind.holds && !(q.kind.writes && s.hostBehind q) && s.reaches q.part q.pa
        | none => (s.late.find r).isSome
      out := fun s =>
        let drop (q : Req) : State := (if s.free r % 2 = 0 then s else (s.hostPerform q).1).modPart q.part
          fun p => { p with linkDrops := p.linkDrops + 1 }
        match s.openReq r .hostPath with
        | some q =>
          if done && decide (s.time < q.sentAt + 42500) then (s.hostPerform q).1.perform r (s.hostPerform q).2 s.time else (drop q).modReq r fun x => { x with lost := true }
        | none => (s.late.find r).elim s fun q => { drop q with late := s.late.del r } }
  | .requestTimeout r => some (.on (fun s => s.reqs.find r)
      (fun s q => q.space == .hostPath && !q.state.isPerformed && !q.kind.holds
        && (decide (q.sentAt + 42500 ≤ s.time) || !s.reaches q.part q.pa)
        && (s.canTrap q.thread || !(s.tagOk q && (s.thr q.thread).state != .ended)))
      fun s q =>
        let u := if q.kind.writes then (s.laneFailed r q).enterFor q s.time else s.laneFailed r q
        let v := if s.tagOk q && (s.thr q.thread).state != .ended then u.trapBetween q.thread 16 (addr48 q.va) else u
        if q.lost || !s.reaches q.part q.pa then v else { v with late := v.late.put r q })
  | .l2Evict la => some (.on (fun s => s.homes.find la)
      (fun s _ => decide ((s.setLines la).length = 16) && lruLine (s.setLines la) == some la)
      fun s h =>
        let k := setKey s la
        let u : State := { s with
          setMaxExp := s.setMaxExp.put k (max ((s.setMaxExp.find k).getD 0) h.maxExp)
          regions := s.regions.map fun r => { r with stale := r.stale.filter fun e => r.lineOf e != la } }
        if h.stash.isSome then u.modHome la fun h => { h with resident := false, valid := 0, dirty := 0 }
        else { u with homes := u.homes.del la })
  | .lineStoreEvict la => some {
      ok := fun s =>
        let ls := (s.sluiceAt (sluiceOf s (la * 128))).lines
        decide (ls.length = 28160) && ls.getLast? == some la
      out := fun s => s.modSluice (sluiceOf s (la * 128)) fun d => { d with lines := d.lines.dropLast } }
  | .stashLineFill b w line => some (.on (fun s => (s.blk b).windows.find w)
      (fun s W =>
        let st := W.lines.getD line .lost
        !s.mapping b w && st.touched && !st.filled && (st.owned || decide (s.maxExpOf (W.line line) < s.time)))
      fun s W =>
        let u := if (W.lines.getD line .lost).owned then s else (s.takeLine b w line (W.line line)).getD s
        (List.range 16).foldl (fun (v : State) i => v.releaseWaitg b (W.off + 128 * line + 8 * i))
          ((u.modBlk b fun B => { B with spad := Memory.write B.spad (W.off + 128 * line) (u.bytesAt (128 * W.line line) 128) }).modStashLine
            (b, w, line) fun _ => ⟨true, true, false, false⟩))
  | .stashEvict b w line => some (.on (fun s => (s.blk b).windows.find w)
      (fun _ W => (W.lines.getD line .lost).owned)
      fun s W => (s.writeBackLine b w line (s.lowestLive b) true).endOwnership (W.line line))
  | .capsuleCommit r => some (.on (fun s => (s.reqs.find r).bind fun q => q.kind.asCommit.map fun m => (q, m))
      (fun s x => s.commitOk x.1 x.2) fun s x => s.accepts r x.1 x.2)
  | _ => none

/-! ### Engines and units (02 R65; 03 R82; 07 R189; 08 R196–R211; 04 R108; 11 R285, R292; 20 R391, R392) -/

/-- A chunk or window is to be counted, and its arrival word's line is there. -/
def State.unitEnds (s : State) (o : EngOp) : Bool :=
  (o.toCount s.time).isSome && o.arrival.all fun off => s.linesFilled o.block off 8

/-- A chunk or window counted, its bytes into the arrival word. -/
def State.unitCounted (s : State) (e : Nat) (o : EngOp) : State :=
  (o.toCount s.time).elim s fun i =>
    let u := s.modEng e fun o => { o with counted := i :: o.counted }
    o.arrival.elim u fun off => u.countArrival o.block off (o.unitBytes i)

/-- A part of a copy, gather or scatter may be performed. -/
def State.partReady (s : State) (part : Nat) (o : EngOp) : Bool :=
  s.engOpen o part && ((o.touched part).all fun x => s.linesFilled o.block x.1 x.2) && !s.scatterBehind o part
    && (o.reads part).all fun x => !(s.blk o.block).spadBad x.1 x.2

/-- A part performed: counted, or the operation's error, or the operation held on a translation fault (R206). -/
def State.partDone (s : State) (e part : Nat) (o : EngOp) : State :=
  match s.doPart o part with
  | .ok (u, g) => u.modEng e fun o => { o with parts := o.parts.put part g, sent := o.sent.del part, gwct := max o.gwct g }
  | .error (.error cause why va) => s.modEng e fun o => { o with error := some ⟨cause, why, va⟩, sent := [] }
  | .error (.fault kind va ipa w) => (s.hold e o o.kind.toGlobal kind va ipa w).modEng e fun o => { o with sent := o.sent.del part }

/-- The answer of the host path to a part that has been sent, in time: performed, or dropped and counted (R362, R384). -/
def State.partAnswered (s : State) (e part : Nat) (o : EngOp) : State :=
  if s.free part % 2 = 0 then s.partDone e part o
  else (s.modEng e fun o => { o with sent := o.sent.change part fun x => { x with lost := true } }).modPart o.part
    fun p => { p with linkDrops := p.linkDrops + 1 }

/-- A part at its turn: one on the host path is sent first, or answered, or ends the operation in INTEGRITY where nothing
carries it or its time is out; any other is performed. -/
def State.partMade (s : State) (e part : Nat) (o : EngOp) : State :=
  match s.farOf o part with
  | none => s.partDone e part o
  | some x =>
    let failed : State := s.modEng e fun o => { o with error := some ⟨16, 0, x.1⟩, sent := [] }
    match o.sent.find part with
    | none => if s.reaches o.part x.2 then s.modEng e fun o' => { o' with sent := o'.sent.put part (s.farReq o.part x.2) } else failed
    | some y => if y.sentAt + 42500 ≤ s.time then failed else if y.lost then s else s.partAnswered e part o

/-- A word of a matrix operation may be read, or a row of it written (R200, R201, R244); a word of C and a row only once the
operations before it in its stream are complete. -/
def State.mxReady (s : State) (e part : Nat) (o : MxOp) : Bool :=
  s.mxRuns o && ((1024 ≤ part && part < 16384) || s.mxStarted e o)
    && if part < 16384 then mxWordExists o part && (o.latched.find part).isNone && (o.spadAt part).all fun off => s.linesFilled o.block off 4
      else o.lanes.contains (threadKey o.group (part - 16384)) && !o.rows.contains (threadKey o.group (part - 16384)) && s.mxFilled o

/-- The word taken, or the row written. -/
def State.mxDone (s : State) (e part : Nat) (o : MxOp) : State :=
  let k := threadKey o.group (part - 16384)
  let u := if part < 16384 then s else s.mxFinishRow e o s k
  { u with mxOps := u.mxOps.change e fun o' =>
    if part < 16384 then { o' with latched := o'.latched.put part (s.mxWord o part) } else { o' with rows := k :: o'.rows } }

/-- The fill ahead of demand of a PC's line. -/
def State.aheadOf (s : State) (c o pc : Nat) : Option Ahead :=
  (s.coreAt c).aheads.find? fun a => a.oslot == o && a.line == pc / 128

/-- The threads of an owner slot that wait for its bank. -/
def State.bankWaits (s : State) (c o : Nat) : List Nat :=
  s.threadsIn fun k => coreOf k == c && (s.grpOf k).oslot == o && (s.thr k).state == .stalled .bank

/-- Threads made Ready. -/
def State.readied (s : State) (now : Nat) (ks : List Nat) : State := ks.foldl (fun u k => u.modThr k fun t => t.ready now) s

/-- The first RSRING of a slot in issue order, where its words have arrived: its place, its words, those behind it (R65). -/
def State.ringToBuild (s : State) (c rs : Nat) : Option (RingLoad × List Word × List RingLoad) :=
  match s.ringQueue (s.ringAt c rs) with
  | [] => none
  | e :: rest => e.words.map fun ws => (e, ws, rest)

/-- The time at which a sleeping thread wakes. -/
def Thread.sleepsTill (t : Thread) : Option Nat :=
  match t.state with
  | .waiting (.sleep d) => some d
  | _ => none

def unitEvent : Instr → Option EventRow
  | .enginePart e part => some {
      ok := fun s => match s.engOps.find e with
        | some o => s.partReady part o
        | none => (s.mxOps.find e).any (s.mxReady e part)
      out := fun s => match s.engOps.find e with
        | some o => s.partMade e part o
        | none => (s.mxOps.find e).elim s (s.mxDone e part) }
  | .icacheFill c o pc => some {
      ok := fun s => !(s.parkedAt c o pc).isEmpty || (s.aheadOf c o pc).isSome
      out := fun s =>
        if !(s.parkedAt c o pc).isEmpty then (s.fillCode c o pc false).readied s.time (s.parkedAt c o pc)
        else (s.aheadOf c o pc).elim s fun a =>
          let u := s.modCore c fun C => { C with aheads := C.aheads.filter (· != a) }
          if (s.slotAt c o).valid && (s.slotAt c o).owner == a.owner then u.fillCode c o (u.aheadStart c o a.line) a.ipref else u }
  | .bankOpDone c o => some {
      ok := fun s => (s.slotAt c o).busy
      out := fun s => (s.bankWaits c o).foldl (fun u k => (u.modThr k fun t => t.ready s.time).endStep k false)
        (s.modSlot c o fun sl => { sl with busy := false }) }
  | .ringBuildDone c rs => some (.on (fun s => s.ringToBuild c rs) (fun _ _ => true)
      fun s x => s.modCore c fun C => { C with rings := C.rings.modify rs fun r =>
        { r with
          values := x.2.1, tag := some x.1.owner, number := x.1.number, queue := x.2.2
          past := if s.ringWaited c then (r.tag.map fun t => (r.number, r.values, t)).toList ++ r.past else [] } })
  | .mxuOpComplete e => some (.on (fun s => s.mxOps.find e) (fun s o => s.mxRuns o && s.mxStarted e o && s.mxFilled o)
      fun s o =>
        let u := o.lanes.foldl (s.mxFinishRow e o) s
        (({ u with mxOps := u.mxOps.del e } : State).count (o.group / 64) o.oslot 9 (if o.kind = .mzero then 1 else 4)).testMwait o.group)
  | .copyChunkDone e => some (.on (fun s => s.engOps.find e) (fun s o => o.kind.isCopy && s.unitEnds o) fun s o => s.unitCounted e o)
  | .gatherWindowDone e => some (.on (fun s => s.engOps.find e) (fun s o => !o.kind.isCopy && s.unitEnds o) fun s o => s.unitCounted e o)
  | .engineOpComplete e => some (.on (fun s => s.engOps.find e) (fun s o => !o.complete && o.ended s.time)
      fun s o =>
        let u := (s.modEng e fun o => { o with complete := true }).flowIdle.testCpwait o.thread
        if (u.threads.find o.thread).isSome then u.purgeOps o.thread else { u with engOps := u.engOps.del e })
  | .capsRetryTimer c => some {
      ok := fun s => s.time % 64 == 0
      out := fun s => s.wake fun k w => coreOf k == c && w.retriesCaps }
  | .sleepExpire k => some (.on (fun s => (s.thr k).sleepsTill) (fun s d => decide (d ≤ s.time) && !(s.thr k).isStopped)
      fun s _ => s.modThr k fun t => t.ready s.time)
  | .deferEnd q => some {
      ok := fun s => (s.quadAt q).deferred.any (s.deferralOver q)
      out := fun s => (s.quadAt q).deferred.foldl (fun u d => if s.deferralOver q d then u.endDeferral q d else u) s }
  | _ => none

/-! ### The dispatcher (13 R295–R314) -/

/-- The queue that a hardware slot holds, with its partition. -/
def State.slotQueue (s : State) (sl : Nat) : Option (Nat × Nat) :=
  (s.qslotAt sl).queue.bind fun q => (s.parts.find? fun p => p.2.hasSlot sl).map fun p => (q, p.1)

/-- The oldest record of a child queue with its parent's launch and its bytes in the ring. -/
def State.nextChild (s : State) (key : Nat) : Option (Child × Launch × List Byte) :=
  (s.childQ key).waiting.head?.bind fun c => (s.launches.find c.parent).bind fun P =>
    (s.readIpa P.part c.place 64).map fun bs => (c, P, bs)

/-- The queue that a slot takes from the pending map (R301), with its partition. -/
def State.pendingOf (s : State) (sl : Nat) : Option (Nat × Nat) :=
  (s.parts.find? fun p => p.2.hasSlot sl).bind fun x => (s.pendingFor x.1 sl).map fun q => (x.1, q)

/-- A launch and the place of its next block (R306). -/
def State.blockSpot (s : State) (i : Nat) : Option (Launch × Nat × Spot) :=
  (s.launches.find i).bind fun l => (s.chooseCore l.mask l.need).map fun x => (l, x.1, x.2)

/-- No ready launch that ranks before this one has a block that could be placed (R305). -/
def State.isFirst (s : State) (i : Nat) (l : Launch) : Bool :=
  s.launches.all fun o => !(o.1 != i && s.placeable o.2 && s.before o (i, l) && (s.chooseCore o.2.mask o.2.need).isSome)

/-- A core may take the carve-out `t` (R308): every block on it still fits. -/
def State.mayCarve (s : State) (c t : Nat) : Bool :=
  s.blocks.all fun b => b.2.core != c || b.2.retired || (decide (b.2.spadBase + roundSpad b.2.scratch ≤ spadArea t)
    && carveOk (((s.launches.find b.2.grid).map (·.kd.carve)).getD 0) t)

/-- Everything of a grid has ended (R314): every block placed and complete, no continuation, monitor, child or saved
block left, and T beyond the GWCTs of its writes. -/
def State.gridEnds (s : State) (i : Nat) (l : Launch) : Bool :=
  l.readyAt.isSome && !l.unplaced && l.live == 0 && l.pool.isEmpty && !s.gridSaved i
    && (s.monitors.all fun m => m.carried.grid != i) && !s.gridChildren i && decide (l.gwct < s.time)

def dispatchEvent : Instr → Option EventRow
  | .notify q prod => some (.on (fun s => s.queuePart q)
      (fun s p =>
        let d := s.queueDesc p q
        d.valid && !(s.queueAt q).halted && decide (ahead 32 (prod % 2 ^ 32) (s.queueAt q).cons ≤ 2 ^ d.log2n))
      fun s p =>
        let u := (s.modQueue q fun Q => { Q with prod := prod % 2 ^ 32 }).serveQueue p q
        if s.queueIdle q then u else u.noteIdle q)
  | .pendingMap sl => some (.on (fun s => s.pendingOf sl) (fun _ _ => true)
      fun s x => (s.mapSlot x.1 x.2 sl).modPart x.1 fun P => { P with lastMapped := some x.2 })
  | .recordConsume src => some (if src < 256 then
      .on (fun s => s.slotQueue src)
        (fun s x => !(s.queueAt x.1).halted && (s.queueAt x.1).prod != (s.queueAt x.1).cons && (s.checkQueue x.2 x.1).toOption.isSome)
        fun s x => (s.checkQueue x.2 x.1).toOption.elim s fun c =>
          let Q := s.queueAt x.1
          let d := s.queueDesc x.2 x.1
          let u := (s.ensureCtx x.2 d.ctx).modQueue x.1 fun Q => { Q with cons := (Q.cons + 1) % 2 ^ 32 }
          { u.modQueue x.1 fun Q => { Q with last := some s.nextLaunch } with
            launches := u.launches.put s.nextLaunch
              (mkLaunch s (some x.1) Q.cons x.2 d.ctx (s.nextRecord x.2 x.1) c 1 (s.lastOf x.1) none)
            nextLaunch := s.nextLaunch + 1 }
      else
        .on (fun s => s.nextChild (src - 256))
          (fun s x => (s.checkRecord x.2.1.part (childRecord x.2.1 x.2.2) x.2.1.record.owner x.2.1.mask).toOption.isSome)
          fun s x => (s.checkRecord x.2.1.part (childRecord x.2.1 x.2.2) x.2.1.record.owner x.2.1.mask).toOption.elim s fun y =>
            let q := s.childQ (src - 256)
            { s with
              childQs := s.childQs.put (src - 256) { q with waiting := q.waiting.tail }
              launches := s.launches.put x.1.launch
                { mkLaunch s none 0 x.2.1.part x.2.1.ctx (childRecord x.2.1 x.2.2) y x.1.depth none (some (x.1.parent, x.1.block)) with
                  startStopped := x.1.stopped } })
  | .launchReady l => some (.on (fun s => s.launches.find l)
      (fun s L => L.readyAt.isNone && s.predOk L && L.waits.all fun w => decide (w.2 ≤ leNat (s.homeBytes w.1 8)))
      fun s _ => s.modLaunch l fun L => { L with readyAt := some s.time, boostedAt := s.time })
  | .priorityAge l => some (.on (fun s => s.launches.find l)
      (fun s L => L.readyAt.isSome && L.unplaced && decide (L.boostedAt + 65536 ≤ s.time) && decide (L.record.prio + L.boosts < 7))
      fun s _ => s.modLaunch l fun L => { L with boosts := L.boosts + 1, boostedAt := L.boostedAt + 65536 })
  | .blockPlacement i => some (.on (fun s => s.blockSpot i)
      (fun s x => s.placeable x.1 && s.isFirst i x.1 && !s.contWaits x.2.1 && !s.savedWaits x.2.1
        && (s.takeSlot x.1.part x.2.1 x.1.record.owner x.1.ctx x.2.2).toOption.isSome)
      fun s x =>
        let u := s.placeBlock i x.1 x.2.1 x.2.2
        if (u.launches.find i).any fun l => !l.unplaced then u.unmark x.1.markedCore else u)
  | .continuationPlacement i c => some (.on
      (fun s => (s.launches.find i).bind fun l => (s.spot c l.contNeed fun _ => true).bind fun x =>
        (s.takeSlot l.part c l.record.owner l.ctx x).toOption.map fun u => (l, x, u))
      (fun s x => !x.1.pool.isEmpty && s.ctxRestored x.1.ctx && x.1.mask.contains c)
      fun s x => x.2.2.placeCont s i x.1 c x.2.1)
  | .carveChange c => some (.on (fun s => (s.coreAt c).carveTo) (fun s t => s.mayCarve c t)
      fun s t =>
        let u := s.modCore c fun C => { C with carve := t, carveTo := none, l1 := [] }
        { u with launches := u.launches.changeAll fun _ l => if l.markedCore = some c then { l with markedCore := none } else l })
  | .blockComplete b => some (.on (fun s => s.blocks.find b)
      (fun s B =>
        let u := s.releaseWindows b
        !B.retired && s.blockQuiet b && decide ((u.blk b).wctMax < u.time)
          && (!u.childrenOut b || u.hasRecord b || decide (u.retireRecords B.core < 256)))
      fun s _ =>
        let u := s.releaseWindows b
        let v := (u.blk b).groups.foldl State.endGroup u
        if u.childrenOut b then v.modBlk b fun B => { B with retired := true, scratch := 0, spad := [] } else v.finishBlock b)
  | .blockRetire b => some (.on (fun s => s.blocks.find b) (fun s B => B.retired && !s.childrenOut b) fun s _ => s.finishBlock b)
  | .gridComplete i => some (.on (fun s => s.launches.find i) (fun s l => s.gridEnds i l)
      fun s l =>
        let u := s.addDone l.part l.record.owner l.record.donew
        let v := ({ u with launches := u.launches.del i } : State).wakeJoins
        l.queue.elim v fun q => v.noteIdle q)
  | _ => none

/-! ### The context engine (14 R318–R335) -/

/-- Every class has acknowledged and every frame is written. -/
def Preemption.finished (q : Preemption) : Bool := q.missing.isEmpty && q.framesDue.isEmpty

/-- A context's entry with its pre-emption in progress. -/
def State.inPreempt (s : State) (x : Nat) : Option (Ctx × Preemption) :=
  (s.ctxs.find x).bind fun C => C.preemption.map fun q => (C, q)

/-- The bytes written; STATUS 2 after the last record. -/
def State.nextBytes (s : State) (c x : Nat) (q : Preemption) : Nat × List Byte :=
  (s.nextRecordOf c x q).getD (0x20, frameDone x)

/-- The next record of a frame written; after the last, STATUS 2, and the context leaves the core (R332). -/
def State.frameWritten (s : State) (c x : Nat) (q : Preemption) : State :=
  let w := s.savesDone c q
  let u := s.writeIpa (s.ctxAt x).part (frameAt x c + (s.nextBytes c x q).1) (s.nextBytes c x q).2
  if (s.nextRecordOf c x q).isSome then u.modCtx x fun C =>
    { C with preemption := C.preemption.map fun q => { q with written := q.written.put c (w.1 + 1, w.2) } }
  else (u.vacate (s.capture c x w.2)).flowIdle.modCtx x fun C =>
    { C with
      frames := C.frames.put c (s.capture c x w.2)
      preemption := C.preemption.map fun q =>
        { q with framesDue := q.framesDue.filter (· != c), written := q.written.del c } }

/-- Where a saved block goes, its windows with their lines looked up again, and the state with its owner slot ready (R334);
none where a read, a line or the slot meets a fault. -/
def State.restorePlace (s : State) (x c : Nat) (f : Frame) (b : Nat) (B : Block) : Option (Nat × Spot × Tbl Stash × State) :=
  let p := (s.ctxAt x).part
  (s.savedSpot f c b B).bind fun i =>
    if s.contWaits i.1 then none
    else (s.restoreReads x c f i.1 b B).toOption.bind fun ws => (s.takeSlot p i.1 B.ident.owner x i.2).toOption.map fun u => (i.1, i.2, ws, u)

/-- The next saved block of a context's frame for a core. -/
def State.nextSaved (s : State) (x c : Nat) : Option (Frame × Nat × Block) :=
  ((s.ctxAt x).frames.find c).bind fun f => f.blocks.head?.map fun b => (f, b.1, b.2)

def contextEvent : Instr → Option EventRow
  | .faultRecordPost p => some (.on (fun s => (s.partAt p).held.head?) (fun s _ => (s.partAt p).fqRoom)
      fun s r => (s.modPart p fun q => { q with held := (s.partAt p).held.tail }).writeRecord p r)
  | .faultqConsWrite p v => some (.on (fun s => s.parts.find p)
      (fun _ q => decide (q.fqCons + ahead 32 v q.fqCons ≤ q.fqProd))
      fun s q => s.modPart p fun P => { P with fqCons := q.fqCons + ahead 32 v q.fqCons })
  | .retiredTimerExpire c x => some (.on (fun s => (s.ctxAt x).timers.find c) (fun _ t => t.1 != 0 && decide (t.1 ≤ t.2))
      fun s t => (s.modCtx x fun C => { C with timers := C.timers.put c (0, t.2) }).beginPreempt x .software)
  | .engineAck c x cls => some (.on (fun s => (s.ackEffect c x cls).toOption)
      (fun s _ => s.missingAck c x cls && (s.coreAt c).frozen.isNone && s.ackReady c x cls)
      fun _ u => u.modCtx x fun C =>
        { C with preemption := C.preemption.map fun q => { q with missing := q.missing.filter (· != (c, cls)) } })
  | .frameWrite c x => some (.on (fun s => (s.ctxAt x).preemption) (fun s q => s.frameOpen c x q)
      fun s q => match s.ipaFault (s.ctxAt x).part (frameAt x c + (s.nextBytes c x q).1) (s.nextBytes c x q).2.length .store with
        | some e => s.stallArea 10 c x e
        | none => s.frameWritten c x q)
  | .preemptDone x => some (.on (fun s => s.inPreempt x) (fun _ q => q.2.finished)
      fun s q => ((s.modCtx x fun C => ({ C with preemption := none, suspended := some q.2.kind } : Ctx).settle).post q.1.part
        (ctxRec x 12 0) none).1)
  | .preemptLate x => some (.on (fun s => s.inPreempt x)
      (fun s q => !q.2.latePosted && decide (q.2.since + 42500 ≤ s.time) && s.lateMask x q.2 != 0)
      fun s q => ((s.modCtx x fun C => { C with preemption := some { q.2 with latePosted := true } }).post q.1.part
        (ctxRec x 13 (s.lateMask x q.2)) none).1)
  | .contextRestore x c => some (.on (fun s => s.nextSaved x c)
      (fun s y => (s.ctxAt x).preemption.isNone && (s.ctxAt x).suspended == some .eligible
        && (if y.2.2.retired then (s.recordSpot x c y.2.2).isSome else (s.restorePlace x c y.1 y.2.1 y.2.2).isSome))
      fun s y =>
        if y.2.2.retired then (s.recordSpot x c y.2.2).elim s fun i =>
          ({ s with blocks := s.blocks.put y.2.1 { y.2.2 with core := i } } : State).dropSaved x c y.2.1 i 0
        else (s.restorePlace x c y.1 y.2.1 y.2.2).elim s fun z =>
          let r := s.readFrame (s.ctxAt x).part (frameAt x c) y.1 y.2.1 { y.2.2 with windows := z.2.2.1 }
          (z.2.2.2.restoreBlock x r.1 z.1 y.2.1 r.2 z.2.1).dropSaved x c y.2.1 z.1 y.2.2.ident.owner)
  | _ => none

end Sys2Proof.Machine
end

