-- ==== Sys2Proof/Claims/Commands.lean ====
section
/-! DEFINITION. What the claims say of the commands of a partition's ring, of the package's management, of brine channels,
of power and of the debug engine. For each, when it is carried out, and what it leaves: for a command, with STATUS 1. -/

namespace Sys2Proof.Machine

/-- A command of a partition that exists, its reserved operand bits 0, carried out where `ok` holds (R369–R371). -/
def EventRow.command (p : Nat) (o : CmdOps) (masks : List Nat) (ok : State → Bool) (out : State → State) : EventRow where
  ok s := decide (p < 16) && (s.parts.find p).isSome && o.fits masks && ok s
  out s := (out s).answer p stDone

/-- A command of the management ring. -/
def EventRow.manage (p : Nat) (o : CmdOps) (masks : List Nat) (ok : State → Bool) (out : State → State) : EventRow where
  ok s := p == mgmtRing && o.fits masks && ok s
  out s := (out s).answer p stDone

/-! ### Contexts (14 R320–R335; 20 R371) -/

def contextCommand : Instr → Option EventRow
  | .preempt p o => some (.command p o [fieldMask 0 12 + fieldMask 16 1] (fun s => s.ownsCtx p (o.f 0 0 12))
      fun s => ((s.breakBrine p (o.f 0 0 12)).ensureCtx p (o.f 0 0 12)).beginPreempt (o.f 0 0 12)
        (if o.f 0 16 1 = 1 then .software else .eligible))
  | .restore p o => some (.command p o [fieldMask 0 12] (fun s => s.ownsCtx p (o.f 0 0 12))
      fun s => (s.release (o.f 0 0 12) .software).release (o.f 0 0 12) .dispatcher)
  | .replay p o => some (.command p o [fieldMask 0 64] (fun _ => true) fun s => s.replaySeq p o.a0.toNat)
  | .abort p o => some (.command p o [fieldMask 0 12] (fun s => s.ownsCtx p (o.f 0 0 12))
      fun s => ((s.breakBrine p (o.f 0 0 12)).ensureCtx p (o.f 0 0 12)).abortCtx (o.f 0 0 12))
  | .ptimer p o => some (.command p o [fieldMask 0 12 + fieldMask 16 8, fieldMask 0 64]
      (fun s => s.ownsCtx p (o.f 0 0 12) && (s.coreAt (o.f 0 16 8)).part == some p)
      fun s => (s.ensureCtx p (o.f 0 0 12)).modCtx (o.f 0 0 12) fun C =>
        { C with timers := C.timers.put (o.f 0 16 8) (o.a1.toNat, 0) })
  | _ => none

/-! ### Invalidations (10 R271) -/

/-- What an invalidation covers (R271). -/
def invCovers : Instr → Option (Nat × CmdOps × List Nat × Bool × Covers)
  | .invVa p o =>
    let inRange (pg : Nat) : Bool := o.f 1 16 32 ≤ pg && pg < o.f 1 16 32 + o.f 2 0 32
    some (p, o, [fieldMask 0 16, fieldMask 16 32, fieldMask 0 32], o.f 2 0 32 != 0,
      { tlb := fun e => e.owner == o.f 0 0 16 && e.vmeets (o.f 1 16 32) (o.f 2 0 32)
        walk := fun w => w.owner == some (o.f 0 0 16) && w.meets (o.f 1 16 32) (o.f 2 0 32)
        frame := (·.owner == o.f 0 0 16)
        addr := fun ow va => ow == o.f 0 0 16 && inRange (va / 65536) })
  | .invOwner p o => some (p, o, [fieldMask 0 16], true,
      { tlb := (·.owner == o.f 0 0 16), walk := (·.owner == some (o.f 0 0 16)), frame := (·.owner == o.f 0 0 16)
        addr := fun ow _ => ow == o.f 0 0 16 })
  | .invIpa p o => some (p, o, [fieldMask 16 32, fieldMask 0 32], o.f 1 0 32 != 0,
      { tlb := (·.imeets (o.f 0 16 32) (o.f 1 0 32))
        walk := fun w => if w.owner.isSome then pagesMeet w.ipage 1 (o.f 0 16 32) (o.f 1 0 32) else w.meets (o.f 0 16 32) (o.f 1 0 32)
        frame := fun _ => true, addr := fun _ _ => true })
  | .invAll p o => some (p, o, [], true, ⟨fun _ => true, fun _ => true, fun _ => true, fun _ _ => true⟩)
  | _ => none

/-- An invalidation drops what it covers, and completes where no request translated through it is on its way: none of those
that it noted, where it has dropped the entries before. -/
def invalidateCommand (i : Instr) : Option EventRow :=
  (invCovers i).map fun x => .command x.1 x.2.1 x.2.2.1
    (fun s => x.2.2.2.1 && match (s.partAt x.1).invWait with
      | none => s.reqs.all fun r => !(r.2.inFlight x.1 && s.reqCovered x.1 x.2.2.2.2 r.2)
      | some ids => ids.all fun i => !(s.reqs.find i).any (Req.inFlight · x.1))
    fun s => (if (s.partAt x.1).invWait.isNone then s.dropXlat x.1 x.2.2.2.2 else s).modPart x.1 fun P => { P with invWait := none }

/-! ### Tables, regions and pages (13 R303; 14 R318; 16 R341; 20 R370, R372, R379) -/

/-- The pages of a command's range are the partition's HBM pages. -/
def State.holdsPages (s : State) (p : Nat) (o : CmdOps) : Bool := (o.pages 0).all fun pg => s.pageParts.find pg == some p

def tableCommand : Instr → Option EventRow
  | .setFaultq p o => some (.command p o [mAddr, fieldMask 0 5]
      (fun s => o.f 0 0 48 % 64 == 0 && decide (6 ≤ o.f 1 0 5) && decide (o.f 1 0 5 ≤ 16)
        && s.ownsBytes p (o.f 0 0 48) (64 * 2 ^ o.f 1 0 5))
      fun s => s.modPart p fun P => { P with fqBase := o.f 0 0 48, fqLog2 := o.f 1 0 5, fqProd := 0, fqCons := 0, fqDue := [] })
  | .setTables p o => some (.command p o [mAddr, mAddr] (fun _ => o.f 0 0 7 == 0 && o.f 1 0 6 == 0)
      fun s => s.modPart p fun P => { P with ownerTable := o.f 0 0 48, queueTable := o.f 1 0 48 })
  | .setSluiceOvf p o => some (.command p o [fieldMask 0 2, mAddr, fieldMask 0 21]
      (fun s => o.f 1 0 48 % 65536 == 0 && decide (o.f 2 0 21 ≤ 2 ^ 20) && s.ownsBytes p (o.f 1 0 48) (32 * o.f 2 0 21))
      fun s => s.modPart p fun P => { P with overflow := P.overflow.put (o.f 0 0 2) (o.f 1 0 48, o.f 2 0 21) })
  | .setRegion p o =>
    let r (s : State) : Region := .ofBytes (some p) (s.physRead (o.f 1 0 48) 32)
    some (.command p o [fieldMask 0 4, mAddr]
      (fun s => o.f 1 0 48 % 32 == 0 && (s.regions.getD (o.f 0 0 4) .empty).part == some p && s.reachesBytes p (o.f 1 0 48) 32
        && (r s).valid (o.f 0 0 4) && s.regionHeld p (r s))
      fun s => (s.writeRegion (o.f 0 0 4) (r s)).ringAfter p (s.viewTill (o.f 0 0 4)))
  | .pageRec p o => some (.command p o [mRange, fieldMask 0 2, fieldMask 0 13]
      (fun s => o.f 1 0 2 != 3 && (if o.f 2 0 13 = 0 then o.f 1 0 2 == 0 else (s.partAt p).hasKey (o.f 2 0 13)) && s.holdsPages p o
        && (o.f 1 0 2 != 2 || s.pagesUnread (o.pages 0).contains))
      fun s => ((o.pages 0).foldl (fun (u : State) pg => u.setRecord' p (o.f 1 0 2) (o.f 2 0 13) pg) s).aliasEntries)
  | .scrub p o => some (.command p o [mRange] (fun s => s.holdsPages p o)
      fun s => (o.pages 0).foldl (fun (u : State) pg => (u.zeroPage p pg).cureChecked pg) s)
  | .qresume p o => some (.command p o [fieldMask 0 12, fieldMask 0 33]
      (fun s =>
        let q := o.f 0 0 12
        let prod := if o.f 1 32 1 = 1 then o.f 1 0 32 else (s.queueAt q).prod
        (s.partAt p).hasQueue q && (s.queueAt q).halted && (s.queueDesc p q).valid
          && decide (ahead 32 prod (s.queueAt q).cons ≤ 2 ^ (s.queueDesc p q).log2n))
      fun s =>
        let q := o.f 0 0 12
        let u := if o.f 1 32 1 = 1 then s.modQueue q fun Q => { Q with prod := o.f 1 0 32 } else s
        (u.modQueue q fun Q => { Q with halted := false }).serveQueue p q)
  | _ => none

/-! ### Keys and attestation (20 R370, R380–R382) -/

def keyCommand : Instr → Option EventRow
  | .keygen p o => some (.command p o [fieldMask 0 13 + fieldMask 15 1]
      (fun s => o.keyFits && !s.keyDenied p o.keyTarget && !s.keyBusy o.keyTarget)
      fun s => s.setKey p o.keyTarget (Config.freeBytes s.fresh 1))
  | .keyload p o => some {
      ok := fun s => decide (p < 16) && (s.parts.find p).isSome && o.fits [fieldMask 0 13 + fieldMask 15 1, mAddr] && o.keyFits
        && o.f 1 0 48 % 8 == 0 && !s.keyDenied p o.keyTarget && s.reachesBytes p (o.f 1 0 48) (0x68 + wrapLen o) && !s.keyBusy o.keyTarget
      out := fun s => (s.unwrapped p o).elim (s.answer p stDenied) fun k => (s.setKey p o.keyTarget k).answer p stDone }
  | .keydrop p o => some (.command p o [fieldMask 0 13 + fieldMask 15 1]
      (fun s => o.keyFits && !s.keyDenied p o.keyTarget && !s.keyBusy o.keyTarget)
      fun s =>
        if o.f 0 15 1 = 1 then s.modBrine p (o.f 0 0 6) fun b => { b with key := [] }
        else (s.modPkg fun g => { g with keys := g.keys.del (o.f 0 0 13) }).rekey (o.f 0 0 13) true)
  | .attest p o => some (.command p o [mAddr, mAddr]
      (fun s => o.f 0 0 48 % 64 == 0 && o.f 1 0 48 % 64 == 0 && s.reachesBytes p (o.f 0 0 48) 64 && s.reachesBytes p (o.f 1 0 48) 512)
      fun s =>
        let key := s.drawKey 48 2
        let body := s.reportBody p (s.physRead (o.f 0 0 48) 64) key
        let digest := fitBytes 48 (Config.sha384 body)
        (s.modPart p fun P => { P with attestKey := key, reportDigest := digest }).ringStore p (o.f 1 0 48)
          (body ++ fitBytes 96 (Config.signReport digest s.fresh) ++ List.replicate 96 0))
  | .idcert p o => some {
      ok := fun s => decide (p < 16) && (s.parts.find p).isSome && o.fits [mAddr, fieldMask 0 32] && o.f 0 0 48 % 64 == 0
      out := fun s =>
        if o.f 1 0 32 < Config.identityChain.length then s.answer p stBadArg
        else if s.reachesBytes p (o.f 0 0 48) Config.identityChain.length then
          (s.ringStore p (o.f 0 0 48) Config.identityChain).answer p stDone
        else s.answer p stDenied }
  | _ => none

/-! ### Brine channels (20 R385–R389) -/

/-- The pieces of memory that a BRINE_SEND reads. -/
def State.sendPieces (s : State) (p : Nat) (o : CmdOps) : Option (List (Nat × Nat × Nat)) :=
  (s.ownerDesc p (o.f 1 0 16)).bind fun d => s.ownerPieces p d (o.f 2 0 48) (o.f 3 0 32) .load

/-- The slot that a BRINE_SEND seals is on its way to the host. -/
def State.sealed (s : State) (p : Nat) (o : CmdOps) (ps : List (Nat × Nat × Nat)) : State :=
  let b := (s.partAt p).channel (o.f 0 0 6)
  let hd := sendHeader (o.f 2 0 48) (o.f 1 0 16) (o.f 3 0 32) b.cons
  let x := Config.gcmSeal b.key (b.iv (o.f 0 0 6) b.cons) hd (ps.flatMap fun x => s.physRead x.1 x.2.2)
  s.modBrine p (o.f 0 0 6) fun b' =>
    { b' with busy := some (.send (o.f 1 0 16) (s.farReq p (b.header b.cons)) (hd ++ fitBytes 16 x.2) (fitBytes (o.f 3 0 32) x.1)) }

/-- A send that fails: the channel loses synchronisation, and the STATUS is not stated. -/
def State.sendFails (s : State) (p : Nat) (o : CmdOps) : State :=
  (s.brineFail p (o.f 0 0 6)).answer p (1 + s.free (p * 64 + o.f 0 0 6) % 5)

/-- A slot that the host has stored: CONS, DEVCNT and the word; STATUS waits for DEVCNT's write. -/
def State.sendEnds (s : State) (p : Nat) (o : CmdOps) (hd c : List Byte) : State :=
  let b := (s.partAt p).channel (o.f 0 0 6)
  (((s.storeBytes (b.payload b.cons) c).storeBytes (b.header b.cons) hd).brineFinish p (o.f 0 0 6)).elim (s.sendFails p o) fun x =>
    (x.1.ringAfter p x.2).answer p stDone

/-- What a channel's slot does next (R387). -/
def State.slotNext (s : State) (p ch : Nat) : Option BrineStage → State
  | none => s.brineStage p ch (.fetch (s.farReq p (((s.partAt p).channel ch).header ((s.partAt p).channel ch).cons)))
  | some (.fetch r) =>
    if timedOut s.time r.sentAt then s.brineFail p ch
    else (s.brineOpen p ch ((s.partAt p).channel ch).cons ((s.partAt p).channel ch)).elim (s.brineFail p ch) fun x =>
      s.brineStage p ch (.write x.2.2 ((linePieces x.1 x.2.1).map fun y => (addr48 y.1, y.2)) s.time)
  | some (.write owner [] _) =>
    s.brineStage p ch (.publish owner (s.farReq p (((s.partAt p).channel ch).header ((s.partAt p).channel ch).cons)))
  | some (.write owner todo g) => (s.brineWrite p ch owner todo g).getD (s.brineFail p ch)
  | some (.publish _ r) =>
    if timedOut s.time r.sentAt then s.brineFail p ch else (s.brineFinish p ch).elim (s.brineFail p ch) (·.1)
  | some (.send ..) => s

/-- The slot in progress goes to the host. -/
def BrineStage.sends : BrineStage → Bool
  | .send .. => true
  | _ => false

def brineEvent : Instr → Option EventRow
  | .brineSet p o => some (.command p o [fieldMask 0 6, mAddr]
      (fun s => o.f 1 0 48 % 64 == 0 && s.reachesBytes p (o.f 1 0 48) 64 && !((s.partAt p).channel (o.f 0 0 6)).opened
        && brineDescOk (s.physRead (o.f 1 0 48) 64))
      fun s => s.modBrine p (o.f 0 0 6) fun b => b.ofBytes (s.physRead (o.f 1 0 48) 64))
  | .brineClose p o => some (.command p o [fieldMask 0 6]
      (fun s => ((s.partAt p).channel (o.f 0 0 6)).busy.isNone && ((s.partAt p).channel (o.f 0 0 6)).opened)
      fun s => s.modBrine p (o.f 0 0 6) fun b => { b with opened := false })
  | .brineSend p o => some {
      ok := fun s =>
        let b := (s.partAt p).channel (o.f 0 0 6)
        decide (p < 16) && (s.parts.find p).isSome && o.fits [fieldMask 0 6, fieldMask 0 16, mAddr, fieldMask 0 32]
          && (b.busy.any BrineStage.sends || (decide (1 ≤ o.f 3 0 32) && decide (o.f 3 0 32 ≤ 4096) && b.opened && b.toHost
            && !b.desync && decide (ahead 32 b.cons b.prod < 2 ^ b.log2n)))
      out := fun s =>
        let b := (s.partAt p).channel (o.f 0 0 6)
        match b.busy with
        | some (.send _ r hd c) => if timedOut s.time r.sentAt then s.sendFails p o else s.sendEnds p o hd c
        | _ => if b.key.isEmpty then s.sendFails p o else (s.sendPieces p o).elim (s.sendFails p o) (s.sealed p o) }
  | .brineProdWrite p ch v => some (.always fun s => s.modBrine p ch fun b => { b with prod := v % 2 ^ 32 })
  | .brineSlotFinish p ch => some {
      ok := fun s =>
        let b := (s.partAt p).channel ch
        match b.busy with
        | none => b.opened && !b.toHost && !b.desync && b.cons % 2 ^ 32 != b.prod
        | some (.write _ [] g) => decide (g < s.time)
        | some (.send ..) => false
        | some _ => true
      out := fun s => s.slotNext p ch ((s.partAt p).channel ch).busy }
  | .brineDesyncClear p ch => some {
      ok := fun s => ((s.partAt p).channel ch).desync
        && ((s.partAt p).channel ch).prod == ((s.partAt p).channel ch).cons % 2 ^ 32
      out := fun s => s.modBrine p ch fun b => { b with desync := false, epoch := b.epoch + 1 } }
  | _ => none

/-! ### The package (20 R367–R374, R383, R390, R394, R395) -/

/-- The direction of a link that LINK_KEY names after it. -/
def linkKeyed (o : CmdOps) (s : State) (g : Package) : Package :=
  { g with
    hostOut := if o.f 0 0 1 = 1 then g.hostOut.switch (s.drawKey 32 3) else g.hostOut
    hostIn := if o.f 0 1 1 = 1 then g.hostIn.switch (s.drawKey 32 4) else g.hostIn
    ports := (List.range 8).map fun i =>
      if bit (o.f 1 0 8) i then (g.ports.getD i ⟨0, []⟩).switch (s.drawKey 32 (5 + i)) else g.ports.getD i ⟨0, []⟩ }

/-- No other slot of a link that LINK_KEY names has a request outstanding. -/
def State.linksFree (s : State) (o : CmdOps) : Bool :=
  !(o.f 0 0 1 == 1 && s.hostHolds s.pkg.hostOut.other) && !(o.f 0 1 1 == 1 && s.hostInHolds s.pkg.hostIn.other)
    && (List.range 8).all fun i => !bit (o.f 1 0 8) i || !s.portHolds i (s.pkg.ports.getD i ⟨0, []⟩).other

/-- A partition gone (R395): its contexts aborted, its monitor ended, its cores scrubbed, what it held released. -/
def State.destroyed (s : State) (n : Nat) : State :=
  let s1 := (s.ctxs.filterMap fun c => if c.2.part = n then some c.1 else none).foldl (fun (u : State) x => u.abortCtx x) s
  let s2 := (s1.partAt n).dbg.elim s1 fun d => s1.endGroup d.group
  let cs := s2.cores.filterMap fun c => if c.2.part = some n then some c.1 else none
  let s3 := cs.foldl (fun (u : State) c => u.scrubCore c none) { s2 with blocks := s2.blocks.filter fun b => !cs.contains b.2.core }
  ((s3.freeRegions n).freePart n).aliasEntries

/-- The page of a Pritch request's address, and the core of its request (R390). -/
def State.remotePa (s : State) (port sl ipa : Nat) (kind : Acc) : Option Nat :=
  (s.pkg.sublinks.find (port * 4 + sl)).bind fun l =>
    if l.trained then l.part.bind fun p => (s.ipaToPa p (ipa % 2 ^ 40) kind).toOption else none

/-- The partition operand of a management command, where it is one. -/
def State.target (s : State) (o : CmdOps) (i : Nat) : Option (Option Nat) := s.partArg (o.f i 0 8)

def packageEvent : Instr → Option EventRow
  | .partCreate p o => some (.manage p o [fieldMask 0 4, mAddr]
      (fun s =>
        let bs := s.physRead (o.f 1 0 48) 64
        o.f 1 0 48 % 64 == 0 && s.readable (o.f 1 0 48) && (s.parts.find (o.f 0 0 4)).isNone && partReservedOk bs
          && s.partOk (.ofBytes bs))
      fun s => { s with parts := s.parts.put (o.f 0 0 4) (.ofBytes (s.physRead (o.f 1 0 48) 64)) })
  | .partDestroy p o => some (.manage p o [fieldMask 0 4]
      (fun s => (s.parts.find (o.f 0 0 4)).isSome)
      fun s => s.destroyed (o.f 0 0 4))
  | .coreAssign p o => some (.manage p o [fieldMask 0 8, fieldMask 0 8]
      (fun s => decide (o.f 0 0 8 < 4 * s.pkg.coresPerDie) && (s.target o 1).any fun dst =>
        !(dst.isSome && (s.coreAt (o.f 0 0 8)).part == dst) && (s.moveCore (o.f 0 0 8) dst).2)
      fun s => (s.target o 1).elim s fun dst => (s.moveCore (o.f 0 0 8) dst).1.flowIdle)
  | .memAssign p o => some (.manage p o [mRange, fieldMask 0 8]
      (fun s => (s.target o 1).isSome && (o.pages 0).all fun pg => prange s (65536 * pg) == .hbm)
      fun s => (s.target o 1).elim s fun dst => ((o.pages 0).foldl (fun (u : State) pg => u.assignPage dst pg) s).aliasEntries)
  | .linkKey p o => some (.manage p o [fieldMask 0 2, fieldMask 0 8] (fun s => s.linksFree o)
      fun s => s.modPkg (linkKeyed o s))
  | .sublinkAssign p o => some (.manage p o [fieldMask 0 3, fieldMask 0 3, fieldMask 0 2, fieldMask 0 8, fieldMask 0 6]
      (fun s => (s.target o 3).isSome && decide (o.f 1 0 3 ≤ 4) && decide (o.f 2 0 2 < splitLinks (o.f 1 0 3)))
      fun s => (s.target o 3).elim s fun dst =>
        (if s.pkg.splits.getD (o.f 0 0 3) 0 = o.f 1 0 3 then s else s.dropPort (o.f 0 0 3)).modPkg fun g =>
          { g with
            splits := g.splits.set (o.f 0 0 3) (o.f 1 0 3)
            sublinks := g.sublinks.put (o.f 0 0 3 * 4 + o.f 2 0 2) ⟨dst, o.f 4 0 6, false⟩ })
  | .powerWeight p o => some (.manage p o [fieldMask 0 4, fieldMask 0 8]
      (fun s => (s.parts.find (o.f 0 0 4)).isSome && o.f 1 0 8 != 0)
      fun s => s.modPart (o.f 0 0 4) fun P => { P with nextWeight := o.f 1 0 8 })
  | .reset p o => some {
      ok := fun _ => p == mgmtRing && o.fits [1]
      out := fun s => s.bringUp (o.f 0 0 1 == 1) }
  | .regionAssign p o => some (.manage p o [fieldMask 0 4, fieldMask 0 8]
      (fun s => (s.target o 1).isSome)
      fun s => (s.target o 1).elim s fun dst =>
        (s.writeRegion (o.f 0 0 4) { Region.empty with part := dst }).ringAfter mgmtRing (s.viewTill (o.f 0 0 4)))
  | .powerOnReset => some (.always fun s => s.bringUp false)
  | .pritchRemoteRequest port sl ipa acc => some (match acc with
      | .read _ => .always id
      | .write data => .on (fun s => s.remotePa port sl ipa .store) (fun _ _ => true)
          fun s pa => s.deviceWrite pa (data.take (128 - pa % 128))
      | .atomic op ty b cmp =>
          let n := atomBits (ty % 4) / 8
          .on (fun s => s.remotePa port sl ipa .atomic) (fun s pa => pa % n == 0 && !s.isPoisoned pa n) fun s pa =>
            s.deviceWrite pa (leBytes n
              (atomNew (op % 10) (ty % 4) (leNat (s.homeBytes pa n)) (b % 2 ^ (8 * n)) (cmp % 2 ^ (8 * n)))))
  | .sublinkTrain port sl => some (.on (fun s => s.pkg.sublinks.find (port * 4 + sl)) (fun _ _ => true)
      fun s _ => s.modPkg fun g => { g with sublinks := g.sublinks.change (port * 4 + sl) fun l => { l with trained := l.part.isSome } })
  | _ => none

/-! ### Time, power, memory errors, the host, debug and sampling (06 R180; 09 R238; 10 R276; 20 R391; 21 R396–R406) -/

/-- Tokens of a partition at the start of an interval (R391): its share of 180 by weight among those that hold a core. -/
def State.shareOf (s : State) (p : Nat) (P : Part) : Nat :=
  let ps := s.parts.changeAll fun _ P => { P with weight := P.nextWeight }
  if s.holdsCore p then 180 * P.nextWeight / ((ps.filter fun p => s.holdsCore p.1).map (·.2.weight)).sum else 0

/-- A debug command of an attached monitor, no other under way, its target the partition's (R399). -/
def EventRow.debug (p : Nat) (t : DbgTarget) (ok : Bool) (out : State → State) : EventRow :=
  .on (fun s => (s.partAt p).dbg) (fun s d => ok && d.pending.isNone && d.due.isNone && !s.targetDenied p t) fun s _ => out s

/-- A step of the threads of a target at their lowest PC; `all`: the others follow (R402). -/
def EventRow.step (code p : Nat) (t : DbgTarget) (all : Bool) : EventRow :=
  .debug p t (!t.whole) fun s =>
    let ks := s.stoppedOf t
    let first := s.lowest ks
    (s.letStep first).begin' p code t (if all then ks.filter fun k => !first.contains k else [])

/-- The descriptor at an address. -/
def State.debugDesc (s : State) (desc : Nat) : Dbg := .ofBytes desc (s.physRead desc 64)

/-- The first run of 64 registers that the monitor's quadrant has free. -/
def State.monitorRegs (s : State) (d : Dbg) : Option Nat :=
  ((List.range 128).map (8 * ·)).find? fun b => b + 64 ≤ 1024 && (s.quadUse d.core d.quad).all fun u => !overlaps b 64 u.2.1 u.2.2

/-- The owner slot, the registers, and the state in which the owner slot is ready for the monitor group. -/
def State.monitorPlace (s : State) (p desc : Nat) : Option (Nat × Nat × State) :=
  let d := s.debugDesc desc
  if (s.quadUse d.core d.quad).any (fun u => u.1 == 15) then none
  else (s.ownerSlot d.core d.owner).bind fun x => (s.monitorRegs d).bind fun off =>
    (s.takeSlot p d.core d.owner 0 ⟨x.1, x.2, 0, d.quad, []⟩).toOption.map fun u => (x.1, off, u)

/-- What a detached monitor leaves behind is gone, and every thread that it stopped goes on. -/
def State.detached (s : State) (p : Nat) (d : Dbg) : State :=
  let gs := s.groups.filter fun g => g.1 == d.group
  let bs := s.blocks.filter fun b => (gs.map (·.2.block)).contains b.1
  let u := (s.vacate ⟨0, bs, gs, [], [], [], [], [], 0, [], 0, 0, []⟩).modPart p fun P => { P with dbg := none, dbgStatus := stDone }
  (u.unstop (u.threads.filterMap fun kt =>
    if u.partOf (coreOf kt.1) = p && (kt.2.stopped || kt.2.stepping) then some kt.1 else none)).frameThreads
      (fun _ c => c.part == p) Thread.unstop

/-- No attach of a partition waits to be tried again. -/
def State.unattaching (s : State) (p : Nat) : State := s.modPart p fun P => { P with attaching := none }

/-- The partition that energy which none caused strikes next, and the order kept after it (R391). -/
def State.idlePick (s : State) : Option Nat × Tbl Int :=
  robinPick s.pkg.idleRobin ((s.parts.filter fun p => s.holdsCore p.1).map fun p => (p.1, p.2.weight))

/-- The partition of a core takes samples in this cycle. -/
def State.samples (s : State) (q : Nat) : Option (Dbg × Nat) :=
  (s.partAt (s.partOf (q / 4))).dbg.bind fun d => (s.nextSampled q d.group).map fun g => (d, g)

def machineEvent : Instr → Option EventRow
  | .tick => some {
      ok := fun s => !s.issueDue && !s.powerDue
      out := fun s =>
        let qs := (s.groups.map fun g => g.1 / 16).eraseDups
        let u := qs.foldl (fun (u : State) q => u.stallSample q) s
        let v := ((qs.foldl (fun (v : State) q => v.endCycle q) u).drawTokens u.pkg.drawers.length).stretchCores.parkStopped
        { v with time := v.time + 1, parts := v.parts.changeAll fun _ p => p.raiseProd (v.time + 1) } }
  | .memoryError kind => some {
      ok := fun s => s.strikes kind
      out := fun s =>
        let hit := s.modPkg fun g => { g with uncorrected := (g.uncorrected + 1) % 2 ^ 64 }
        match kind with
        | .corrected => s.modPkg fun g => { g with corrected := (g.corrected + 1) % 2 ^ 64 }
        | .block pa => { hit with poisoned := s.poisoned.filter (· != pa / 64 * 64) ++ [pa / 64 * 64] }
        | .spad b off => hit.modBlk b fun B => { B with badSpad := off / 64 * 64 :: B.badSpad.filter (· != off / 64 * 64) }
        | .l1 c o la => hit.modCore c fun C => { C with badL1 := (o, la) :: C.badL1.filter (· != (o, la)) }
        | .regs k r => hit.modThr k fun t => { t with bad := r :: t.bad.filter (· != r) }
        | .sregs g i => hit.modGrp g fun G => { G with badS := i :: G.badS.filter (· != i) }
        | .check pa => { s with poisoned := s.poisoned.filter (· != pa / 64 * 64) ++ [pa / 64 * 64] } }
  | .hostWrite pa data => some {
      ok := fun s => match prange s pa with | .hbm | .view _ | .host => true | _ => false
      out := fun s => if prange s pa == .host then s.storeBytes pa data
        else (s.modPkg fun g => { g with hostInAt := g.hostInAt.put g.hostIn.current s.time }).deviceWrite pa data }
  | .powerIntervalStart => some {
      ok := fun s => decide (s.pkg.intervalAt + 42500 ≤ s.time)
      out := fun s => State.flowIdle { s with
        parts := s.parts.changeAll fun p P =>
          { P with weight := P.nextWeight, balance := s.shareOf p P, previous := P.spent, spent := 0 }
        pkg := { s.pkg with
          pool := 180 - (s.parts.map fun p => s.shareOf p.1 p.2).sum
          intervalAt := s.pkg.intervalAt + 42500, midpoint := false, drawers := [], robin := [], idleRobin := [] } } }
  | .powerMidpoint => some {
      ok := fun s => !s.pkg.midpoint && decide (s.pkg.intervalAt + 21250 ≤ s.time)
      out := fun s => (s.parts.keys.foldl (fun (u : State) p => u.toPool p (u.partAt p).spent) s).modPkg fun g =>
        { g with midpoint := true } }
  | .energyAccrue p => some {
      ok := fun s => if 16 ≤ p then s.idlePick.1.isSome else (s.partAt p).balance != 0 || ((s.parts.find p).isSome && s.hasWork p)
      out := fun s =>
        if 16 ≤ p then (s.idlePick.1).elim s fun q => (s.modPkg fun g => { g with idleRobin := s.idlePick.2 }).accrue q
        else if (s.partAt p).balance = 0 then s.modPkg fun g => { g with drawers := g.drawers ++ [p] }
        else s.modPart p fun P => { P with balance := P.balance - 1, spent := P.spent + 1 } }
  | .attach p desc => some (.on (fun s => (s.unattaching p).monitorPlace p (addr48 desc))
      (fun s _ =>
        let u := s.unattaching p
        (u.parts.find p).any (fun P => !P.world && P.dbg.isNone) && addr48 desc % 64 == 0 && u.reachesBytes p (addr48 desc) 64
          && u.dbgOk p (u.debugDesc (addr48 desc)))
      fun s x => x.2.2.placeMonitor p ((s.unattaching p).debugDesc (addr48 desc)) x.1 x.2.1)
  | .detach p => some (.on (fun s => ((s.unattaching p).partAt p).dbg) (fun _ _ => true) fun s d => (s.unattaching p).detached p d)
  | .stop p t => some (.debug p t true fun s =>
      let u := (s.targetThreads t).foldl (fun (u : State) k => u.modThr k Thread.stop) s
      (if t.whole then u.frameThreads (fun x _ => x == t.ctx) Thread.stop else u).begin' p 1 t [])
  | .resume p t => some (.debug p t true fun s =>
      let u := s.unstop ((s.targetThreads t).filter fun k => (s.thr k).stopped)
      (if t.whole then u.frameThreads (fun x _ => x == t.ctx) Thread.unstop else u).entrySay p stDone)
  | .step p t => some (.step 3 p t true)
  | .stepOne p t => some (.step 4 p t false)
  | .stepWait p t => some (.step 5 p t true)
  | .trapstep p t => some (.debug p t true fun s =>
      (((s.stoppedOf t).foldl (fun (u : State) k => u.modThr k fun x => { x with stepTrap := true }) s).unstop (s.stoppedOf t)).entrySay
        p stDone)
  | .mailboxPost p => some (.on
      (fun s => (s.partAt p).dbg.bind fun d => d.held.head?.bind fun m => (s.ringRoom p d.mring d.mlog2).map fun n => (d, m, n))
      (fun _ _ => true)
      fun s x => (s.modDbg p fun d => { d with held := x.1.held.tail }).mailWrite p x.1 x.2.2 x.2.1)
  | .stallSample q => some (.on (fun s => s.samples q)
      (fun s x => x.1.period != 0 && !(s.partAt (s.partOf (q / 4))).world && s.time % x.1.period == 0
        && (s.quadAt q).sampledAt != some s.time && (s.coreAt (q / 4)).part.isSome)
      fun s x => (s.modQuad q fun Q => { Q with samplePtr := x.2 % 16, sampledAt := some s.time }).modCore (q / 4) fun C =>
        if C.samples.length < 64 then { C with samples := C.samples ++ [s.sampleOf q x.2] } else { C with smpdrop := C.smpdrop + 1 })
  | .sampleDrain c => some (.on
      (fun s => (s.partAt (s.partOf c)).dbg.bind fun d => (s.coreAt c).samples.head?.bind fun x =>
        (s.ringRoom (s.partOf c) d.sring d.slog2).map fun n => (d, x, n))
      (fun _ _ => true)
      fun s x => (s.modCore c fun C => { C with samples := (s.coreAt c).samples.tail }).ringWrite (s.partOf c) x.1.sring x.1.slog2 16
        x.2.2 x.2.1.bytes)
  | _ => none

end Sys2Proof.Machine
end

