-- ==== Sys2Proof/Claims/Expand.lean ====
section
/-! DEFINITION. The full form to which each compact form expands (03 R78, R79), as the claims use it. -/

namespace Sys2Proof.Machine

/-- The compact table: its entry as a full instruction with the header of R78. -/
def expand : Instr → Instr
  | .movCompact d a _ => .mov (cHdr d.toNat a.toNat 240) false
  | .iaddCompact d a b => .iadd (cHdr d.toNat a.toNat b.toNat) false false
  | .isubCompact d a b => .isub (cHdr d.toNat a.toNat b.toNat) false false
  | .imulCompact d a b => .imul (cHdr d.toNat a.toNat b.toNat) false false false
  | .imadCompact d a b => .imad (cHdr d.toNat a.toNat b.toNat) false false false
  | .iminCompact d a b => .imin (cHdr d.toNat a.toNat b.toNat) false
  | .imaxCompact d a b => .imax (cHdr d.toNat a.toNat b.toNat) false
  | .andwCompact d a b => .andw (cHdr d.toNat a.toNat b.toNat)
  | .orwCompact d a b => .orw (cHdr d.toNat a.toNat b.toNat)
  | .xorwCompact d a b => .xorw (cHdr d.toNat a.toNat b.toNat)
  | .andnCompact d a b => .andn (cHdr d.toNat a.toNat b.toNat)
  | .notwCompact d a _ => .notw (cHdr d.toNat a.toNat 240)
  | .shlCompact d a b => .shl (cHdr d.toNat a.toNat b.toNat)
  | .shrCompact d a b => .shr (cHdr d.toNat a.toNat b.toNat)
  | .sarCompact d a b => .sar (cHdr d.toNat a.toNat b.toNat)
  | .popcCompact d a _ => .popc (cHdr d.toNat a.toNat 240)
  | .clzCompact d a _ => .clz (cHdr d.toNat a.toNat 240)
  | .add64Compact d a b => .add64 (cHdr d.toNat a.toNat b.toNat) false
  | .leaCompact d a b => .lea (cHdr d.toNat a.toNat b.toNat) 0 false
  | .faddCompact d a b => .fadd (cHdr d.toNat a.toNat b.toNat) 0
  | .fsubCompact d a b => .fsub (cHdr d.toNat a.toNat b.toNat) 0
  | .fmulCompact d a b => .fmul (cHdr d.toNat a.toNat b.toNat) 0
  | .ffmaCompact d a b => .ffma (cHdr d.toNat a.toNat b.toNat) 0
  | .fminCompact d a b => .fmin (cHdr d.toNat a.toNat b.toNat)
  | .fmaxCompact d a b => .fmax (cHdr d.toNat a.toNat b.toNat)
  | .frcpCompact d a _ => .frcp (cHdr d.toNat a.toNat 240) 0
  | .frsqCompact d a _ => .frsq (cHdr d.toNat a.toNat 240) 0
  | .fsqrtCompact d a _ => .fsqrt (cHdr d.toNat a.toNat 240) 0
  | .fex2Compact d a _ => .fex2 (cHdr d.toNat a.toNat 240) 0
  | .flg2Compact d a _ => .flg2 (cHdr d.toNat a.toNat 240) 0
  | .ftanhCompact d a _ => .ftanh (cHdr d.toNat a.toNat 240) 0
  | .hadd2Compact d a b => .hadd2 (cHdr d.toNat a.toNat b.toNat) 0 false
  | .hmul2Compact d a b => .hmul2 (cHdr d.toNat a.toNat b.toNat) 0 false
  | .hfma2Compact d a b => .hfma2 (cHdr d.toNat a.toNat b.toNat) 0 false
  | .dp2Compact d a b => .dp2 (cHdr d.toNat a.toNat b.toNat) 0 false
  | .dp4S8Compact d a b => .dp4 (cHdr d.toNat a.toNat b.toNat) 0 false 0
  | .dp4E4m3Compact d a b => .dp4 (cHdr d.toNat a.toNat b.toNat) 2 false 0
  | .dp8S4Compact d a b => .dp8 (cHdr d.toNat a.toNat b.toNat) 0 false 0
  | .dp8E2m1Compact d a b => .dp8 (cHdr d.toNat a.toNat b.toNat) 2 false 0
  | .i2fCompact d a _ => .i2f (cHdr d.toNat a.toNat 240) 0 0 0
  | .f2iCompact d a _ => .f2i (cHdr d.toNat a.toNat 240) 2 0 0
  | .f2fCompact d a _ => .f2f (cHdr d.toNat a.toNat 240) 1 2 0
  | .ldB32Compact d a _ => .ld (cHdr d.toNat a.toNat 240) 0 false 0 false
  | .ldB64Compact d a _ => .ld (cHdr d.toNat a.toNat 240) 1 false 0 false
  | .stB32Compact d a _ => .st (cHdr d.toNat a.toNat 240) 0 false 0
  | .stB64Compact d a _ => .st (cHdr d.toNat a.toNat 240) 1 false 0
  | .ldsCompact d a _ => .lds (cHdr d.toNat a.toNat 240) 0
  | .stsCompact d a _ => .sts (cHdr d.toNat a.toNat 240) 0
  | .ldcCompact d a _ => .ldc (cHdr d.toNat a.toNat 240) 0
  | .atomCompact d a b => .atom (cHdr d.toNat a.toNat b.toNat) 0 0 0 0
  | .redCompact _ a b => .red (cHdr 240 a.toNat b.toNat) 0 2 false 0
  | .lxchFromCompact d a b => .lxch (cHdr d.toNat a.toNat b.toNat) 0 0 0
  | .lxchFlipCompact d a b => .lxch (cHdr d.toNat a.toNat b.toNat) 3 0 0
  | .lxchFwdCompact d a b => .lxch (cHdr d.toNat a.toNat b.toNat) 2 0 0
  | .rsaddCompact d a b => .rsadd (cHdr d.toNat a.toNat b.toNat) 0
  | .rssubCompact d a b => .rssub (cHdr d.toNat a.toNat b.toNat) 0
  | .rsmulCompact d a b => .rsmul (cHdr d.toNat a.toNat b.toNat) 0
  | .rsdivCompact d a b => .rsdiv (cHdr d.toNat a.toNat b.toNat) 0
  | .rsuniCompact d a b => .rsuni (cHdr d.toNat a.toNat b.toNat)
  | .rsintCompact d a b => .rsint (cHdr d.toNat a.toNat b.toNat)
  | .bfxCompact d a b => .bfx (cHdr d.toNat a.toNat b.toNat) false
  | .bfiCompact d a b => .bfi (cHdr d.toNat a.toNat b.toNat)
  | .bselCompact d a b => .bsel (cHdr d.toNat a.toNat b.toNat)
  | .cvtiCompact d a _ => .cvti (cHdr d.toNat a.toNat 240) 2 0 false
  | i => i

end Sys2Proof.Machine
end

