-- ==== Sys2Proof/Safety.lean ====
section
/-! DEFINITION. The words that claims use: a safe run, what a step leaves, and the bundle an instruction finds when no
check of 03 R76, no wait of 01 R27 and no capsule (07 R185) keeps a lane from its entry. -/

namespace Sys2Proof

/-- The step went on. -/
def Safe (o : Host.Outcome Machine.State Machine.Fault Machine.Refusal) : Prop := ∃ s, o = .next s

/-- A state from which the next step goes on. -/
def SafeState (s : Machine.State) : Prop := Safe (Machine.step s)

namespace Machine

/-- The outcome is a next state of which `Q` holds. -/
def Answers (o : Result) (Q : State → Prop) : Prop := ∃ t, o = .next t ∧ Q t

/-- A group but for its s registers, which of them an error has struck, and UDIV. -/
def Group.noS (G : Group) : Group := { G with s := [], badS := [], udiv := false }

/-- Nothing but threads and the s registers and UDIV of groups differs. -/
def OnlyThreads (s t : State) : Prop :=
  t = { s with threads := t.threads, groups := t.groups } ∧ ∀ g, (t.groups.find g).map Group.noS = (s.groups.find g).map Group.noS

/-- Nothing but threads differs. -/
def OnlyThreadsOf (s t : State) : Prop := t = { s with threads := t.threads }

/-- A thread whose instruction nothing stops before its entry: it is in its lane, passes checks 2 to 4 of R76, awaits
none of the registers it names (R27, R90), its group is not to trap UDIV (R28), and where it runs a capsule at user
privilege the instruction judges that itself (CAPS, CLD, CST, CEND, CADOPT) or, its guard failing, is no step (R68, R185). -/
def State.laneClear (s : State) (opc : Nat) (h : Hdr) (fm : Form) (prot : State → Nat → Bool) (k : Nat) : Bool :=
  (s.threads.find k).isSome && (decodeTrap s opc h fm prot k).isNone && !s.busy k h fm
    && !((s.thr k).inCapsule && (if (s.thr k).guard h then !ownCapsule opc else isStepOf opc h fm))
    && !(readsS h fm && s.udivTraps (groupOf k))

/-- The bundle being executed stands in ascending lane order (R17) and nothing stops a lane of it. -/
def State.clears (s : State) (opc : Nat) (h : Hdr) (fm : Form) (prot : State → Nat → Bool) : Bool :=
  ascending s.cur.threads && s.cur.threads.all fun k => s.laneClear opc h fm prot k

/-- The lanes of the bundle whose guard passes (R68), in lane order. -/
def State.passing (s : State) (h : Hdr) : List Nat := s.cur.threads.filter fun k => (s.thr k).guard h

/-- The operands of every passing lane clear LATCH and INDEX (R76). -/
def State.operandsOk (s : State) (h : Hdr) (fm : Form) : Bool :=
  (s.passing h).all fun k => (s.operands k h fm).toOption.isSome

/-- The passing lanes with their values. -/
def State.laneValues (s : State) (h : Hdr) (fm : Form) : List (Nat × Vals) :=
  participants ((s.passing h).map fun k => (k, s.operands k h fm))

/-- Thread `k` past its instruction, nothing else changed. -/
def State.goesOn (s : State) (k : Nat) (h : Hdr) : State := s.modThr k fun t => t.pass s.time h (t.pc + h.bytes)

/-- D is no s register, by its code and by what its code names in each passing lane. -/
def State.ownD (s : State) (h : Hdr) (fm : Form) : Bool :=
  (h.d.toNat < 256 || 320 ≤ h.d.toNat)
    && (s.laneValues h fm).all fun kv => kv.2.dst + fm.d.words ≤ 256 || 320 ≤ kv.2.dst

/-- A committing lane's state with its thread moved on (R155): past the instruction, to an address, or to a wait; one whose
entry has moved it takes the STALL hint (R73). -/
def Lane.after (h : Hdr) (k : Nat) (s : State) : Lane → State
  | .ok s' => s'.goesOn k h
  | .okAt s' pc => s'.modThr k fun t => t.pass s'.time h pc
  | .wait s' w => s'.modThr k fun t => { t.pass s'.time h (t.pc + h.bytes) with state := .waiting w }
  | .left s' => s'.modThr k (Thread.hold s'.time h)
  | _ => s

/-- The lane commits. -/
def Lane.commits : Lane → Bool
  | .ok _ | .okAt _ _ | .wait _ _ | .left _ => true
  | _ => false

/-- The committing lanes of a bundle one after another, in lane order (R91, R155): each works on what the one before it
left. -/
def lanesRun (h : Hdr) (out : State → Nat → Vals → Lane) : List (Nat × Vals) → State → State
  | [], u => u
  | kv :: rest, u => lanesRun h out rest ((out u kv.1 kv.2).after h kv.1 u)

/-- A test of each lane at its turn, on the state that the lanes before it left. -/
def lanesPass (h : Hdr) (out : State → Nat → Vals → Lane) (ok : State → Nat → Vals → Bool) : List (Nat × Vals) → State → Bool
  | [], _ => true
  | kv :: rest, u => ok u kv.1 kv.2 && lanesPass h out ok rest ((out u kv.1 kv.2).after h kv.1 u)

/-- What a bundle leaves whose passing lanes all commit so: their work in lane order; the lanes whose guard fails past the
instruction (R68, R75); UDIV where D is an s register (R27); and each new request with the lanes of its group (R155). -/
def State.bundle (s : State) (h : Hdr) (fm : Form) (out : State → Nat → Vals → Lane) : State :=
  let done := lanesRun h out (s.laneValues h fm) s
  let past := (s.cur.threads.filter fun k => !(s.thr k).guard h).foldl (fun u k => s.failLane u k h fm) done
  (Run.mk past (s.passing h) []).finish s h fm (s.passing h)

/-- How each part of the machine stands after a bundle whose lanes do their own work: every passing lane's thread is as that
lane alone would leave it, working on `s`; a lane whose guard fails is past the instruction, its latch taking D inside a chain
(R68, R75); every other thread is as it was; no more of a group differs than the s registers and UDIV, and nothing of it where
D is no s register; and nothing else in the machine. -/
def LanesStand (s : State) (h : Hdr) (fm : Form) (out : Nat → Vals → State → Lane) (t : State) : Prop :=
  OnlyThreads s t
    ∧ (∀ k ∈ s.passing h, ∀ v, s.operands k h fm = .ok v →
        t.threads.find k = ((out k v s).after h k s).threads.find k)
    ∧ (∀ k ∈ s.cur.threads, (s.thr k).guard h = false → t.threads.find k = (s.failLane s k h fm).threads.find k)
    ∧ (∀ k, k ∉ s.cur.threads → t.threads.find k = s.threads.find k)
    ∧ (s.ownD h fm = true → t.groups = s.groups)

/-- What a bundle leaves where each lane does its own work: the passing lanes' work in lane order, so that the highest lane's
value stays in an s register, those whose guard fails past the instruction, and UDIV by the rule of D (R27, R68, R91); and how
each part of the machine then stands. -/
def LanesDo (s : State) (h : Hdr) (fm : Form) (out : Nat → Vals → State → Lane) (t : State) : Prop :=
  t = s.bundle h fm (fun u k v => out k v u) ∧ LanesStand s h fm out t

end Machine
end Sys2Proof
end

