-- ==== Sys2Proof/Claims/Rows.lean ====
section
/-! DEFINITION. What the claims say of the instructions whose lanes each do their own work: for each, its opcode,
header, operand form and privilege check, when a lane commits, and what it then leaves in its own thread. -/

namespace Sys2Proof.Machine

/-- One instruction's entry as the claims state it. -/
structure LaneRow where
  opc : Nat
  h : Hdr
  fm : Form
  prot : State → Nat → Bool
  /-- The lane commits: it raises no event that fpc enables and waits for nothing. -/
  ok : State → Nat → Vals → Bool
  /-- The lane's own work, by the snapshot, the participating lanes, the lane and its values. -/
  eff : State → List (Nat × Vals) → Nat → Vals → State → Lane

/-- D takes a value. -/
def LaneRow.value (opc : Nat) (h : Hdr) (fm : Form) (f : State → Nat → Vals → Nat) : LaneRow where
  opc := opc
  h := h
  fm := fm
  prot := anyone
  ok _ _ _ := true
  eff s _ k v u := .ok (u.writeD k h fm v.dst (f s k v))

/-- D takes a value whose elements raise events, which fps takes (R55, R56). -/
def LaneRow.events (opc : Nat) (h : Hdr) (fm : Form) (base : Nat) (f : State → Nat → Vals → Nat × List Events) : LaneRow where
  opc := opc
  h := h
  fm := fm
  prot := anyone
  ok s k v := (nonfinite (s.thr k).fpc (f s k v).2 base).isNone
  eff s _ k v u := .ok ((u.modThr k fun t => t.orFps (allEvents (f s k v).2)).writeD k h fm v.dst (f s k v).1)

/-- D takes one floating result (R124). -/
def LaneRow.float (opc : Nat) (h : Hdr) (fm : Form) (rnd : Nat) (f : RCtx → Vals → Nat × Events) : LaneRow :=
  .events opc h fm 0 fun s k v => ((f ((s.thr k).rctx (laneOf k) rnd 0) v).1, [(f ((s.thr k).rctx (laneOf k) rnd 0) v).2])

/-- Element `i` of a packed instruction (R137). -/
def halfElem (rnd : Nat) (bf : Bool) (f : Fmt → RCtx → FVal → FVal → FVal → Nat × Events) (t : Thread) (lane : Nat) (v : Vals)
    (i : Nat) : Nat × Events :=
  let F : Fmt := if bf then .bf16 else .f16
  let c := t.rctx lane rnd i
  f F c (readF F c.ftz (elemOf 16 v.a i)) (readF F c.ftz (elemOf 16 v.b i)) (readF F c.ftz (elemOf 16 v.d i))

/-- D takes two half-width results (R137). -/
def LaneRow.half (opc : Nat) (h : Hdr) (fm : Form) (rnd : Nat) (bf : Bool)
    (f : Fmt → RCtx → FVal → FVal → FVal → Nat × Events) : LaneRow :=
  .events opc h fm 0 fun s k v =>
    let el := halfElem rnd bf f (s.thr k) (laneOf k) v
    (packWords 16 [(el 0).1, (el 1).1], [(el 0).2, (el 1).2])

/-- D takes a set operation on the ring of slot `rs`, or the result of R143 where the slot holds no ring of the owner. -/
def LaneRow.ring (opc : Nat) (h : Hdr) (fm : Form) (rs : Nat) (f : RingPts → List Word → Vals → Nat) (bare : Vals → Nat) :
    LaneRow where
  opc := opc
  h := h
  fm := fm
  prot := anyone
  ok s k _ := match s.consult k rs with | .wait .. => false | _ => true
  eff s _ k v u := .ok (u.writeD k h fm v.dst (match s.consult k rs with
    | .ring ws => (match ringOf ws with | some r => f r ws v | none => bare v)
    | _ => bare v))

/-- Every bundle that nothing stops, whose lanes all commit, completes the instruction, and each lane does its own work. -/
def LaneRow.Completes (r : LaneRow) (i : Instr) : Prop :=
  ∀ s : State, s.clears r.opc r.h r.fm r.prot = true → s.operandsOk r.h r.fm = true →
    (∀ k ∈ s.passing r.h, ∀ v, s.operands k r.h r.fm = .ok v → r.ok s k v = true) →
    Answers (exec i s) (LanesDo s r.h r.fm (r.eff s (s.laneValues r.h r.fm)))

/-! ### The rows -/

/-- Integer, logic and address instructions (R94–R102). -/
def intRow : Instr → Option LaneRow
  | .mov h w64 => some (.value 0x000 h (if w64 then ⟨.x2, .x2, .none, false, true, [], true⟩ else fmWV) fun _ _ v => v.a)
  | .movi h w64 => some
      (.value 0x001 h ⟨if w64 then .x2 else .w, .none, if w64 then .x2 else .v, false, true, [], true⟩ fun _ _ v => v.b)
  | .sel h sp sn => some
      (.value 0x002 h ⟨.w, .v, .v, false, true, [sp.toNat], true⟩ fun s k v => if (s.thr k).pred sp.toNat != sn then v.a else v.b)
  | .iadd h u sat => some (.value 0x003 h fmWVV fun _ _ v => valIadd u sat v.a v.b)
  | .isub h u sat => some (.value 0x004 h fmWVV fun _ _ v => valIsub u sat v.a v.b)
  | .imul h u sat wide => some
      (.value 0x006 h ⟨if wide then .x2 else .w, .v, .v, false, true, [], true⟩ fun _ _ v => valImul u sat wide v.a v.b)
  | .imulh h u => some (.value 0x007 h fmWVV fun _ _ v => valImulh u v.a v.b)
  | .imad h u sat wide => some
      (.value 0x008 h ⟨if wide then .x2 else .w, .v, .v, true, true, [], true⟩ fun _ _ v => valImad u sat wide v.a v.b v.d)
  | .imin h u => some (.value 0x009 h fmWVV fun _ _ v => valImin u v.a v.b)
  | .imax h u => some (.value 0x00A h fmWVV fun _ _ v => valImax u v.a v.b)
  | .iabs h sat => some (.value 0x00B h fmWV fun _ _ v => valIabs sat v.a)
  | .ineg h sat => some (.value 0x00C h fmWV fun _ _ v => valIneg sat v.a)
  | .andw h => some (.value 0x00D h fmWVV fun _ _ v => v.a &&& v.b)
  | .orw h => some (.value 0x00E h fmWVV fun _ _ v => v.a ||| v.b)
  | .xorw h => some (.value 0x00F h fmWVV fun _ _ v => v.a ^^^ v.b)
  | .andn h => some (.value 0x010 h fmWVV fun _ _ v => valAndn v.a v.b)
  | .notw h => some (.value 0x011 h fmWV fun _ _ v => valNot v.a)
  | .shl h => some (.value 0x012 h fmWVV fun _ _ v => valShl v.a v.b)
  | .shr h => some (.value 0x013 h fmWVV fun _ _ v => valShr v.a v.b)
  | .sar h => some (.value 0x014 h fmWVV fun _ _ v => valSar v.a v.b)
  | .rotl h => some (.value 0x015 h fmWVV fun _ _ v => valRotl v.a v.b)
  | .bfx h sx => some (.value 0x016 h fmWVV fun _ _ v => valBfx sx v.a v.b)
  | .bfi h => some (.value 0x017 h fmWdVV fun _ _ v => valBfi v.d v.a v.b)
  | .popc h => some (.value 0x018 h fmWV fun _ _ v => valPopc v.a)
  | .clz h => some (.value 0x019 h fmWV fun _ _ v => valClz v.a)
  | .ctz h => some (.value 0x01A h fmWV fun _ _ v => valCtz v.a)
  | .brev h => some (.value 0x01B h fmWV fun _ _ v => valBrev v.a)
  | .icmp h cond u => some (.value 0x01C h fmWVV fun _ _ v => valIcmp 32 cond.toNat u v.a v.b)
  | .plop h lut => some (.value 0x01D h ⟨.p, .p, .p, false, true, [], true⟩ fun _ _ v => valPlop lut.toNat v.a v.b)
  | .lea h sc u => some (.value 0x01E h ⟨.x2, .x2, .v, false, true, [], true⟩ fun _ _ v => valLea sc.toNat u v.a v.b)
  | .add64 h neg => some (.value 0x01F h ⟨.x2, .x2, .x2, false, true, [], true⟩ fun _ _ v => valAdd64 neg v.a v.b)
  | .cmp64 h cond u => some
      (.value 0x020 h ⟨.w, .x2, .x2, false, true, [], true⟩ fun _ _ v => valIcmp 64 cond.toNat u v.a v.b)
  | .cvti h sty dty sat => some (.value 0x021 h fmWV fun _ _ v => valCvti sty.toNat dty.toNat sat v.a)
  | .bsel h => some (.value 0x022 h fmWdVV fun _ _ v => valBsel v.d v.a v.b)
  | .iadc h cp sub => some {
      opc := 0x005, h := h, fm := ⟨.w, .v, .v, false, true, [cp.toNat], true⟩, prot := anyone, ok := fun _ _ _ => true
      eff := fun s _ k v u =>
        let t := (if sub then 2 ^ 32 - 1 - v.b else v.b) + v.a + b2n ((s.thr k).pred cp.toNat)
        .ok ((u.writeD k h ⟨.w, .v, .v, false, true, [cp.toNat], true⟩ v.dst (t % 2 ^ 32)).modThr k
          fun th => th.setPred cp.toNat (decide (t ≥ 2 ^ 32))) }
  | _ => none

/-- FP32 arithmetic and conversions (R126–R135). -/
def floatRow : Instr → Option LaneRow
  | .fadd h rnd => some (.float 0x080 h fmWVV rnd.toNat fun c v => valAdd .f32 c (c.f32 v.a) (c.f32 v.b))
  | .fsub h rnd => some (.float 0x081 h fmWVV rnd.toNat fun c v => valAdd .f32 c (c.f32 v.a) (c.f32 v.b).negate)
  | .fmul h rnd => some (.float 0x082 h fmWVV rnd.toNat fun c v => valMul .f32 c (c.f32 v.a) (c.f32 v.b))
  | .ffma h rnd => some (.float 0x083 h fmWdVV rnd.toNat fun c v => valFma .f32 c (c.f32 v.a) (c.f32 v.b) (c.f32 v.d))
  | .fmin h => some (.value 0x084 h fmWVV fun s k v => minMaxF32 false (s.thr k).ftz v.a v.b)
  | .fmax h => some (.value 0x085 h fmWVV fun s k v => minMaxF32 true (s.thr k).ftz v.a v.b)
  | .fcmp h cond => some (.value 0x086 h fmWVV fun s k v => valFcmp cond.toNat (s.thr k).ftz v.a v.b)
  | .fclass h fmt => some (.value 0x087 h fmWV fun _ _ v => classMask (fmtOf fmt.toNat) v.a)
  | .frnd h rnd => some (.value 0x088 h fmWV fun s k v => valFrnd ((s.thr k).rctx (laneOf k) rnd.toNat 0) v.a)
  | .frcp h rnd => some (.float 0x089 h fmWV rnd.toNat fun c v => valFun .rcp c v.a)
  | .frsq h rnd => some (.float 0x08A h fmWV rnd.toNat fun c v => valFun .rsq c v.a)
  | .fsqrt h rnd => some (.float 0x08B h fmWV rnd.toNat fun c v => valFun .sqrt c v.a)
  | .fex2 h rnd => some (.float 0x08C h fmWV rnd.toNat fun c v => valFun .ex2 c v.a)
  | .flg2 h rnd => some (.float 0x08D h fmWV rnd.toNat fun c v => valFun .lg2 c v.a)
  | .fsin h rnd => some (.float 0x08E h fmWV rnd.toNat fun c v => valFun .sin c v.a)
  | .fcos h rnd => some (.float 0x08F h fmWV rnd.toNat fun c v => valFun .cos c v.a)
  | .ftanh h rnd => some (.float 0x090 h fmWV rnd.toNat fun c v => valFun .tanh c v.a)
  | .f2f h rnd dty sty => some (.float 0x091 h fmWV rnd.toNat fun c v => valF2f (fmtOf sty.toNat) (fmtOf dty.toNat) c v.a)
  | .i2f h rnd sty dty => some (.float 0x092 h fmWV rnd.toNat fun c v => valI2f sty.toNat (fmtOf dty.toNat) c v.a)
  | .f2i h rnd dty sty => some (.float 0x093 h fmWV rnd.toNat fun c v => valF2i (fmtOf sty.toNat) dty.toNat c v.a)
  | _ => none

/-- Packed, dot-product and scale instructions (R137–R141). -/
def packedRow : Instr → Option LaneRow
  | .hadd2 h rnd bf => some (.half 0x094 h fmWVV rnd.toNat bf fun F c a b _ => valAdd F c a b)
  | .hmul2 h rnd bf => some (.half 0x095 h fmWVV rnd.toNat bf fun F c a b _ => valMul F c a b)
  | .hfma2 h rnd bf => some (.half 0x096 h fmWdVV rnd.toNat bf fun F c a b d => valFma F c a b d)
  | .dp2 h rnd hf => some (.float 0x097 h fmWdVV rnd.toNat fun c v => valDot (if hf then .f16 else .bf16) 2 c v)
  | .dp4 h ty sat rnd => some (
      if ty.toNat < 2 then .value 0x098 h fmWdVV fun _ _ v => valDotInt 8 4 (ty == 1) sat v
      else .float 0x098 h fmWdVV rnd.toNat fun c v => valDot (if ty == 2 then .e4m3 else .e5m2) 4 c v)
  | .dp8 h ty sat rnd => some (
      if ty.toNat < 2 then .value 0x099 h fmWdVV fun _ _ v => valDotInt 4 8 (ty == 1) sat v
      else .float 0x099 h fmWdVV rnd.toNat fun c v => valDot .e2m1 8 c v)
  | .sclf h rnd one => some (.float 0x09A h fmWdVV rnd.toNat fun c v => valSclf one c v)
  | .unpk h fmt => some (.value 0x09C h fmWVV fun s k v => valUnpk fmt.toNat (s.thr k).ftz v.a v.b)
  | .pack h fmt pos rnd => some (.events 0x09B h fmWdVV (2 * pos.toNat) fun s k v =>
      let w := fmtWidth fmt.toNat
      let e := 2 * pos.toNat
      let x := packElem fmt.toNat ((s.thr k).rctx (laneOf k) rnd.toNat e) v.a
      let y := packElem fmt.toNat ((s.thr k).rctx (laneOf k) rnd.toNat (e + 1)) v.b
      (setField (setField v.d (w * e) w x.1) (w * (e + 1)) w y.1, [x.2, y.2]))
  | _ => none

/-- Ring-set instructions, RSRING apart (R144–R149). -/
def ringRow : Instr → Option LaneRow
  | .rsadd h rs => some (.ring 0x100 h fmRs2 rs.toNat (fun r _ v => valRsadd r v.a v.b) bare2)
  | .rssub h rs => some (.ring 0x101 h fmRs2 rs.toNat (fun r _ v => valRssub r v.a v.b) bare2)
  | .rsmul h rs => some (.ring 0x102 h fmRs2 rs.toNat (fun r _ v => valRsmul r v.a v.b) bare2)
  | .rsdiv h rs => some (.ring 0x103 h fmRs2 rs.toNat (fun r _ v => valRsdiv r v.a v.b) bare2)
  | .rsneg h => some (.value 0x104 h fmRs1 fun _ _ v => valRsneg v.a)
  | .rsrcp h rs => some (.ring 0x105 h fmRs1 rs.toNat (fun r _ v => valRsrcp r v.a) bare1)
  | .rssqr h rs => some (.ring 0x106 h fmRs1 rs.toNat (fun r _ v => valRssqr r v.a) bare1)
  | .rsfrom h rs iv => some
      (.ring 0x107 h (if iv then fmRs2 else fmRs1) rs.toNat (fun r _ v => if iv then valRsfromIv r v.a v.b else valRsfrom r v.a) fun _ => wholeRing)
  | .rslo h rs => some
      (.ring 0x108 h fmRs1 rs.toNat (fun _ ws v => valRslo ws v.a) fun v => if v.a = 0 then 0x7FC00000 else 0xFF800000)
  | .rshi h rs => some
      (.ring 0x109 h fmRs1 rs.toNat (fun _ ws v => valRshi ws v.a) fun v => if v.a = 0 then 0x7FC00000 else 0x7F800000)
  | .rsuni h => some (.value 0x10A h fmRs2 fun _ _ v => v.a ||| v.b)
  | .rsint h => some (.value 0x10B h fmRs2 fun _ _ v => v.a &&& v.b)
  | .rstest h mode => some
      (.value 0x10C h ⟨.w, .v, if mode.toNat < 2 then .v else .none, false, true, [], false⟩ fun _ _ v => valRstest mode.toNat v.a v.b)
  | .rsunpk h => some (.value 0x10E h fmRs1 fun _ _ v => valRsunpk v.a)
  | .rspack h pw => some {
      opc := 0x10D, h := h, fm := ⟨.w, .v, .none, false, true, if pw = 0 then [] else [pw.toNat - 1], false⟩, prot := anyone
      ok := fun _ _ _ => true
      eff := fun _ _ k v u =>
        let u1 := u.writeD k h ⟨.w, .v, .none, false, true, if pw = 0 then [] else [pw.toNat - 1], false⟩ v.dst (valRspack v.a).1
        .ok (if pw = 0 then u1 else u1.modThr k fun t => t.setPred (pw.toNat - 1) (valRspack v.a).2) }
  | _ => none

/-- A value in D for every lane, where a lane meets a condition. -/
def LaneRow.valueIf (opc : Nat) (h : Hdr) (fm : Form) (prot : State → Nat → Bool) (ok : State → Nat → Vals → Bool)
    (f : State → Nat → Vals → Nat) : LaneRow where
  opc := opc
  h := h
  fm := fm
  prot := prot
  ok := ok
  eff s _ k v u := .ok (u.writeD k h fm v.dst (f s k v))

/-- A value in D that every lane computes from the participating lanes (R115). -/
def LaneRow.part (opc : Nat) (h : Hdr) (fm : Form) (f : Lanes → Nat → Vals → Nat) : LaneRow where
  opc := opc
  h := h
  fm := fm
  prot := anyone
  ok _ _ _ := true
  eff _ p k v u := .ok (u.writeD k h fm v.dst (f p k v))

/-- No operand is read or written. -/
def LaneRow.bare (opc : Nat) (h : Hdr) (fm : Form) (ok : State → Nat → Vals → Bool)
    (eff : State → Nat → Vals → State → Lane) : LaneRow where
  opc := opc
  h := h
  fm := fm
  prot := anyone
  ok := ok
  eff s _ k v u := eff s k v u

/-- SEGRED and SCAN (R119, R120): the reduction of a lane's segment up to the lanes that `upTo` accepts. -/
def LaneRow.reduce (opc : Nat) (h : Hdr) (op : BitVec 3) (ty : BitVec 2) (upTo : Nat → Nat → Bool) : LaneRow :=
  let fm : Form := ⟨.w, .v, .v, false, true, [], false⟩
  let x (s : State) (p : Lanes) (k : Nat) : Nat × Events :=
    reduceVals op.toNat ty.toNat ((s.thr k).rctx (laneOf k) 0 0) (p.segment (laneOf k) (upTo (laneOf k)))
  { opc := opc, h := h, fm := fm, prot := anyone
    ok := fun s k _ => (nonfinite (s.thr k).fpc [(x s (s.laneValues h fm) k).2] 0).isNone
    eff := fun s p k v u => .ok ((u.modThr k fun t => t.orFps (x s p k).2).writeD k h fm v.dst (x s p k).1) }

/-- TMV (R204): the weights of the constant store with the vector, and y. -/
def tmvRows (s : State) (k m n : Nat) (bf : Bool) (v : Vals) : List (Nat × Events) :=
  let es := if bf then 2 else 4
  (List.range m).map fun q =>
    tmvElem ((s.thr k).rctx (laneOf k) 0 q) bf
      ((List.range n).map fun i => leNat (s.constBytes k (v.b % 2 ^ 32 + (q * n + i) * es) es))
      ((List.range n).map fun i => field v.a (32 * i) 32) (field v.d (32 * q) 32)

/-- Branches to registers and calls, LOOP, the no-operations, collectives, constants, fences, TMV, and reads of special
registers, of a cursor's status, of the history image, of counters, of the clock and of power figures. -/
def ownRow : Instr → Option LaneRow
  | .brx h => some (.bare 0x141 h ⟨.none, .x2, .none, false, false, [], false⟩ (fun _ _ v => addr48 v.a % 4 == 0)
      fun _ _ v u => .okAt u (addr48 v.a))
  | .ret h => some (.bare 0x143 h ⟨.none, .x2, .none, false, false, [], false⟩ (fun _ _ v => addr48 v.a % 4 == 0)
      fun _ _ v u => .okAt u (addr48 v.a))
  | .call h ind =>
    let fm : Form := ⟨.x2, if ind then .x2 else .none, if ind then .none else .v, false, true, [], false⟩
    let target (s : State) (k : Nat) (v : Vals) : Nat := if ind then addr48 v.a else branchTo (s.thr k).pc v.b
    some (.bare 0x142 h fm (fun s k v => target s k v % 4 == 0)
      fun s k v u => .okAt (u.writeD k h fm v.dst (addr48 ((s.thr k).pc + h.bytes))) (target s k v))
  | .loop h =>
    let fm : Form := ⟨.w, .none, .v, true, false, [], false⟩
    some (.bare 0x144 h fm (fun s k v => branchTo (s.thr k).pc v.b % 4 == 0) fun s k v u =>
      if v.d = 0 then .ok u
      else
        let u1 := s.markWriter (u.writeD k h fm v.dst (v.d - 1)) h k v.dst
        if v.d = 1 then .ok u1 else .okAt u1 (branchTo (s.thr k).pc v.b))
  | .yieldI h => some (.bare 0x146 h fmNone (fun _ _ _ => true) fun _ _ _ u => .ok u)
  | .nop h => some (.bare 0x147 h fmNone (fun _ _ _ => true) fun _ _ _ u => .ok u)
  | .sleep h => some (.bare 0x148 h ⟨.none, .none, .v, false, false, [], false⟩ (fun _ _ _ => true) fun s _ v u =>
      if v.b = 0 then .ok u else .wait u (.sleep (s.time + min v.b 1048575)))
  | .lxch h mode seg vp =>
    let fm : Form := ⟨.w, .v, .v, false, false, if vp = 0 then [] else [vp.toNat - 1], false⟩
    some {
      opc := 0x150, h := h, fm := fm, prot := anyone, ok := fun _ _ _ => true
      eff := fun s p k v u =>
        let src := (lxchSource mode.toNat seg.toNat (laneOf k) v.b).bind (Lanes.lane p)
        let u1 := match src with
          | some x => s.markWriter (u.writeD k h fm v.dst x.a) h k v.dst
          | none => u
        .ok (if vp = 0 then u1 else u1.modThr k fun t => t.setPred (vp.toNat - 1) src.isSome) }
  | .vote h mode => some (.part 0x151 h ⟨.w, .v, .none, false, true, [], false⟩ fun p _ _ => valVote mode.toNat p)
  | .segred h op ty => some (.reduce 0x152 h op ty fun _ _ => true)
  | .scan h op ty excl => some (.reduce 0x153 h op ty fun l i => if excl then i < l else i ≤ l)
  | .matchL h w64 => some
      (.part 0x154 h ⟨.w, if w64 then .x2 else .v, .none, false, true, [], false⟩ fun p _ v => p.mask fun x => x.a == v.a)
  | .bcast h => some (.part 0x156 h ⟨.w, .v, .v, false, true, [], false⟩ fun p _ _ => valBcast p)
  | .ldc h sz => some (.valueIf 0x184 h ⟨szCls .w sz.toNat, .v, .v, false, true, [], false⟩ anyone
      (fun _ _ v => spadOff v.a v.b % szBytes sz.toNat == 0 && spadOff v.a v.b + szBytes sz.toNat ≤ 0x40000)
      fun s k v => leNat (s.constBytes k (spadOff v.a v.b) (szBytes sz.toNat)))
  | .fence h sc => some (.bare 0x200 h fmNone (fun s k _ => s.pastWct k sc.toNat) fun _ k _ u => .ok (u.orderPoint k))
  | .tmv h m1 n1 bf =>
    let fm : Form := ⟨.run (m1.toNat + 1), .run (n1.toNat + 1), .v, true, true, [], false⟩
    let rows (s : State) (k : Nat) (v : Vals) := tmvRows s k (m1.toNat + 1) (n1.toNat + 1) bf v
    some (.bare 0x244 h fm
      (fun s k v => v.b % 2 ^ 32 % 4 == 0
        && v.b % 2 ^ 32 + (m1.toNat + 1) * (n1.toNat + 1) * (if bf then 2 else 4) ≤ 0x40000
        && (nonfinite (s.thr k).fpc ((rows s k v).map (·.2)) 0).isNone)
      fun s k v u => .ok ((u.modThr k fun t => t.orFps (allEvents ((rows s k v).map (·.2)))).writeD k h fm v.dst
        (packWords 32 ((rows s k v).map (·.1)))))
  | .hstat h hc => some (.valueIf 0x289 h ⟨.w, .none, .none, false, true, [], false⟩ anyone
      (fun s k _ => !s.cursorTaken k hc.toNat && !s.drawnBy k hc.toNat) fun s k _ =>
        let c := s.cursor (quadKeyOf k) hc.toNat
        if c.valid then 2 ^ 31 + b2n c.done * 2 ^ 30 + c.drawn % 2 ^ 30 else 0)
  | .hxrd h => some (.valueIf 0x2C3 h ⟨.w, .none, .v, false, true, [], false⟩ anyone
      (fun _ _ v => v.b % 4 == 0 && v.b < 1536) fun s k v => ((s.slotOfThread k).bank.word v.b).toNat)
  | .mfs h => some (.valueIf 0x2C8 h ⟨.w, .sr, .none, false, true, [], false⟩ (hOnly h.a.toNat) (fun _ _ _ => true)
      fun s k v => (s.readSpecial k v.a).toNat)
  | .mfsT h pv =>
    let fm : Form := ⟨.w, .target, .v, false, true, pvPreds pv, false⟩
    some {
      opc := 0x2C8, h := h, fm := fm, prot := notMonitor, ok := fun _ _ _ => true
      eff := fun s _ k v u =>
        let r := (s.targetOf k v.b).bind fun j => s.readTarget j v.a
        .ok ((u.writeD k h fm v.dst (r.getD 0).toNat).writePv k pv r.isSome) }
  | .pmrd h => some (.valueIf 0x2CD h ⟨.x2, .none, .v, false, true, [], false⟩ anyone (fun _ _ _ => true)
      fun s k v => s.counter k v.b)
  | .clkrd h => some (.valueIf 0x2CE h ⟨.x2, .none, .none, false, true, [], false⟩ anyone (fun _ _ _ => true)
      fun s _ _ => s.time % 2 ^ 64)
  | .tokrd h fig => some (.valueIf 0x2D1 h ⟨.w, .none, .none, false, true, [], false⟩ anyone (fun _ _ _ => true)
      fun s k _ =>
        let P := s.partAt (s.partOf (coreOf k))
        (match fig.toNat with | 0 => P.balance | 1 => s.pkg.pool | 2 => P.previous | _ => P.weight) % 2 ^ 32)
  | _ => none

end Sys2Proof.Machine
end

