-- ==== Sys2Proof/Claims/Bundles.lean ====
section
/-! DEFINITION. What the claims say of the instructions whose lanes act beyond their own thread: memory accesses, barriers,
launches, capsules, stash windows, matrix and copy engines, cursors, the history bank, and the system instructions. For
each, when a lane commits at its turn, and what it then leaves. -/

namespace Sys2Proof.Machine

/-- One instruction's entry as the claims state it. `ok` and `out` have the snapshot, the participating lanes, the state
at the lane's turn, the lane and its values. -/
structure BundleRow where
  opc : Nat
  h : Hdr
  fm : Form
  prot : State → Nat → Bool := anyone
  /-- What happens before the lanes. -/
  pre : State → State := id
  /-- The lane commits: no check of it fails and it waits for nothing. -/
  ok : State → Lanes → State → Nat → Vals → Bool := fun _ _ _ _ _ => true
  /-- What the lane then does. -/
  out : State → Lanes → State → Nat → Vals → Lane
  /-- What happens after the lanes, by the state before them. -/
  fin : State → State → State := fun _ t => t

/-- Every bundle that nothing stops, each of whose lanes commits at its turn, completes the instruction. -/
def BundleRow.Completes (r : BundleRow) (i : Instr) : Prop :=
  ∀ s : State,
    let s0 := r.pre s
    let p := s0.laneValues r.h r.fm
    s0.clears r.opc r.h r.fm r.prot = true → s0.operandsOk r.h r.fm = true →
      lanesPass r.h (r.out s0 p) (r.ok s0 p) p s0 = true →
      exec i s = .next (r.fin s (s0.bundle r.h r.fm (r.out s0 p)))

/-- Once per bundle (R91): the lowest participating lane acts, the others go on with it. -/
def BundleRow.once (opc : Nat) (h : Hdr) (fm : Form) (ok : State → List Nat → Nat → Vals → Bool)
    (act : State → State → List Nat → Nat → Vals → State) : BundleRow where
  opc := opc
  h := h
  fm := fm
  ok s p _ _ _ := p.head?.any fun l => ok s (p.map (·.1)) l.1 l.2
  out s p u k _ := .ok (match p.head? with
    | some l => if k = l.1 then act s u (p.map (·.1)) l.1 l.2 else u
    | none => u)

/-! ### Accesses (06 R157–R175, R182) -/

/-- The place of an access whose checks pass. -/
def placeOf (e : Except Bad Place) : Place := match e with | .ok p => p | .error _ => ⟨.home, 0, 0⟩

/-- One request per lane, to the place that its checks give; `wait` is what a lane awaits first. -/
def BundleRow.access (opc : Nat) (h : Hdr) (fm : Form) (at' : State → Nat → Vals → Except Bad Place)
    (wait : State → Nat → Bool) (send : State → State → Nat → Vals → Place → State)
    (fin : State → State → State := fun _ t => t) : BundleRow where
  opc := opc
  h := h
  fm := fm
  fin := fin
  ok s _ _ k v := (at' s k v).toOption.isSome && !wait s k
  out s _ u k v := .ok (send s u k v (placeOf (at' s k v)))

def noWait (_ : State) (_ : Nat) : Bool := false

/-- ATOM, ATOMC and RED: aligned to its size, no window; a release waits for R159's point. -/
def BundleRow.atomic (opc : Nat) (h : Hdr) (fm : Form) (t sc : Nat) (rel acq : Bool) (kind : Vals → ReqKind) : BundleRow :=
  .access opc h fm (fun s k v => s.place k (addr48 v.a) (atomBits t / 8) .atomic false)
    (fun s k => rel && s.releaseBlocked k sc)
    fun _ u k v p => (if rel then u.orderPoint k else u).send k p (atomBits t / 8) (kind v) acq .atomic

/-- The line that PREF asks for, where it asks: mapped HBM outside the window, neither present nor on its way. -/
def prefLine (s u : State) (l2 : Bool) (k va : Nat) : Option Nat :=
  if inWindow va then none
  else match s.translateFor k va .load with
    | .error _ => none
    | .ok x =>
      let la := x.pa / 128
      let present := if l2 then s.residentL2 la else s.l1Valid (coreOf k) (s.grpOf k).oslot la
      let flying := u.fillInFlight (coreOf k) (s.grpOf k).oslot la
        || (l2 && u.reqs.any fun r => r.2.kind == .pref false && r.2.pa / 128 == la)
      if x.sync || onHostPath s x.pa || present || flying then none else some x.pa

/-- CINV (R164): a line or the whole of the core's L1, or of the partition's instruction caches. -/
def cinvLeaves (s u : State) (op : Nat) (k : Nat) (v : Vals) : State :=
  let c := coreOf k
  let ea := effAddr v.a v.b
  let cores := u.cores.keys.filter fun x => (u.coreAt x).part == (u.coreAt c).part
  match op with
  | 0 =>
    if inWindow ea then u
    else match s.translateFor k ea .load with
      | .error _ => u
      | .ok x => (u.modCore c fun C => { C with l1 := C.l1.filter fun l => l.pa != x.pa / 128 }).dropFills c false
          fun q => q.pa / 128 == x.pa / 128
  | 1 => (u.modCore c fun C => { C with l1 := [] }).dropFills c false fun _ => true
  | 2 =>
    if inWindow ea then u
    else cores.foldl (fun acc x => acc.modCore x fun C =>
      { C with
        icache := C.icache.filter fun f => !(f.part == s.partOf c && f.line == ea / 128)
        aheads := C.aheads.filter fun a => a.line != ea / 128 }) u
  | _ => cores.foldl (fun acc x => acc.modCore x fun C => { C with icache := [], aheads := [] }) u

def accessRow : Instr → Option BundleRow
  | .ld h sz acq _ nl =>
    let fm : Form := ⟨szCls .w sz.toNat, .x2, .v, false, true, [], false⟩
    some (.access 0x180 h fm (fun s k v => s.placeLoad k (effAddr v.a v.b) (szBytes sz.toNat) nl) noWait
      (fun _ u k v p => u.send k p (szBytes sz.toNat)
        (.load (szSigned sz.toNat) (!nl && p.space == .home) false ⟨BitVec.ofNat 10 v.dst, fm.d.words⟩) acq .load) afterLoads)
  | .st h sz rel sc => some
      (.access 0x181 h ⟨szCls .v sz.toNat, .x2, .v, true, false, [], false⟩
        (fun s k v => s.place k (effAddr v.a v.b) (szBytes sz.toNat) .store true)
        (fun s k => rel && s.releaseBlocked k sc.toNat)
        fun _ u k v p => (if rel then u.orderPoint k else u).send k p (szBytes sz.toNat)
          (.store (leBytes (szBytes sz.toNat) v.d)) false .store)
  | .lds h sz =>
    let fm : Form := ⟨szCls .w sz.toNat, .v, .v, false, true, [], false⟩
    some (.access 0x182 h fm (fun s k v => s.placeOff k (spadOff v.a v.b) (szBytes sz.toNat) .load) noWait
      fun _ u k v p => u.send k p (szBytes sz.toNat)
        (.load (szSigned sz.toNat) false false ⟨BitVec.ofNat 10 v.dst, fm.d.words⟩) false .load)
  | .sts h sz => some
      (.access 0x183 h ⟨szCls .v sz.toNat, .v, .v, true, false, [], false⟩
        (fun s k v => s.placeOff k (spadOff v.a v.b) (szBytes sz.toNat) .store) noWait
        fun _ u k v p => u.send k p (szBytes sz.toNat) (.store (leBytes (szBytes sz.toNat) v.d)) false .store)
  | .ldf h w16 =>
    let fm : Form := ⟨if w16 then .x4 else .x2, .x2, .v, false, true, [], false⟩
    some (.access 0x185 h fm (fun s k v => s.place k (effAddr v.a v.b) (if w16 then 16 else 8) .load false) noWait
      fun _ u k v p => u.send k p (if w16 then 16 else 8) (.load false false true ⟨BitVec.ofNat 10 v.dst, fm.d.words⟩) false .load)
  | .pref h l2 => some {
      opc := 0x186, h := h, fm := ⟨.none, .x2, .v, false, false, [], false⟩
      out := fun s _ u k v =>
        let va := effAddr v.a v.b / 128 * 128
        .ok (match prefLine s u l2 k va with
          | some pa => u.send k ⟨.home, pa, va⟩ 128 (.pref (!l2)) false .load
          | none => u) }
  | .cinv h op =>
    let line := op == 0 || op == 2
    some {
      opc := 0x187, h := h, fm := ⟨.none, if line then .x2 else .none, if line then .v else .none, false, false, [], false⟩
      out := fun s _ u k v => .ok (cinvLeaves s u op.toNat k v) }
  | .atom h op ty ord sc =>
    let fm : Form := ⟨atomCls .w ty.toNat, .x2, atomCls .v ty.toNat, false, true, [], false⟩
    some (.atomic 0x18B h fm ty.toNat sc.toNat (ordRel ord.toNat) (ordAcq ord.toNat) fun v =>
      .atomic op.toNat ty.toNat v.b 0 (some ⟨BitVec.ofNat 10 v.dst, fm.d.words⟩) false)
  | .atomc h w64 ord sc =>
    let t := if w64 then 3 else 1
    let fm : Form := ⟨atomCls .w t, .x2, atomCls .v t, true, true, [], false⟩
    some (.atomic 0x18C h fm t sc.toNat (ordRel ord.toNat) (ordAcq ord.toNat) fun v =>
      .atomic 9 t v.b v.d (some ⟨BitVec.ofNat 10 v.dst, fm.d.words⟩) false)
  | .red h op ty rel sc => some
      (.atomic 0x18D h ⟨.none, .x2, atomCls .v ty.toNat, false, false, [], false⟩ ty.toNat sc.toNat rel false fun v =>
        .atomic op.toNat ty.toNat v.b 0 none false)
  | .atomsc h op ty =>
    let t := ty.toNat
    let fm : Form := ⟨atomCls .w t, .x2, atomCls .v t, op == 9, true, [], false⟩
    some (.access 0x18E h fm (fun s k v => s.place k (addr48 v.a) (atomBits t / 8) .atomic false)
      (fun s k => s.releaseBlocked k 3 || s.scPending k)
      fun _ u k v p => (u.orderPoint k).send k p (atomBits t / 8)
        (.atomic op.toNat t v.b v.d (some ⟨BitVec.ofNat 10 v.dst, fm.d.words⟩) true) true .atomic)
  | .atoms h op ty =>
    let t := ty.toNat
    let fm : Form := ⟨atomCls .w t, .v, atomCls .v t, op == 9, true, [], false⟩
    some (.access 0x18F h fm (fun s k v => s.placeOff k (v.a % 2 ^ 32) (atomBits t / 8) .atomic) noWait
      fun _ u k v p => u.send k p (atomBits t / 8)
        (.atomic op.toNat t v.b v.d (some ⟨BitVec.ofNat 10 v.dst, fm.d.words⟩) false) false .atomic)
  | .armw h => some
      (.access 0x203 h ⟨.w, .v, .v, false, true, [], false⟩ (fun s k v => s.placeOff k (v.a % 2 ^ 32) 8 .atomic) noWait
        fun _ u k v p => u.send k p 8 (.arm (v.b % 2 ^ 28) ⟨BitVec.ofNat 10 v.dst, 1⟩) false .atomic)
  | .arrv h => some
      (.access 0x204 h ⟨.none, .v, .v, false, false, [], false⟩ (fun s k v => s.placeOff k (v.a % 2 ^ 32) 8 .atomic)
        (fun s k => !s.allPerformed k)
        fun _ u k v p => (u.orderPoint k).send k p 8 (.arrive (v.b % 2 ^ 28)) false .atomic)
  | _ => none

/-! ### Branches, barriers, launches and waits (04 R104–R121; 06 R178–R182) -/

/-- A block barrier's arrival (R109, R110). -/
def BundleRow.barrier (opc : Nat) (h : Hdr) (id : BitVec 4) (waits : Bool) : BundleRow where
  opc := opc
  h := h
  fm := ⟨.none, .none, .v, false, false, [], false⟩
  ok s _ _ k _ := s.allPerformed k
  out s _ u k v :=
    let u1 := ((u.orderPoint k).arriveBar k id.toNat v.b).modThr k fun t =>
      let t := t.pass s.time h (t.pc + h.bytes)
      if waits then { t with state := .waiting (.bar id.toNat) } else t
    .left (u1.testBar (u1.grpOf k).block id.toNat)

/-- The bytes of a launch descriptor that a thread reads. -/
def launchBytes (s : State) (k va : Nat) : Option (List Byte) :=
  match s.placeGlobal k va 64 .load with
  | .ok p => s.readAtIssue k p 64
  | .error _ => none

def controlRow : Instr → Option BundleRow
  | .bra h =>
    let os (s : State) : List (Nat × Bool) := if h.gp = 7 && !h.gn then [] else branchOutcomes s h
    let pc0 (s : State) : Nat := (s.thr (s.cur.threads.headD 0)).pc
    some {
      opc := 0x140, h := h, fm := fmLabel
      pre := fun s => s.trainBranch (s.cur.threads.headD 0) ((os s).map (·.2)) (pc0 s)
      ok := fun s _ _ k v => branchTo (s.thr k).pc v.b % 4 == 0
      out := fun s _ u k v => .okAt u (branchTo (s.thr k).pc v.b)
      fin := fun s t => t.redirect s (pc0 s) (os s) }
  | .exit h => some { opc := 0x145, h := h, fm := fmNone, out := fun _ _ u k _ => .left (u.endThread k) }
  | .bar h id => some (.barrier 0x149 h id true)
  | .bara h id => some (.barrier 0x14A h id false)
  | .launch h =>
    let fm : Form := ⟨.w, .x2, .none, false, true, [], false⟩
    some {
      opc := 0x14B, h := h, fm := fm
      ok := fun s _ u k v =>
        let va := addr48 v.a
        (s.grpOf k).leader == some (laneOf k) && decide ((s.blkOf k).ident.depth < 10) && va % 64 == 0
          && s.allPerformed k && s.pastWct k 3 && !inWindow va && (launchBytes s k va).isSome
          && decide ((u.childQ (childKey (s.partOf (coreOf k)) (s.slotOfThread k).owner)).waiting.length
              < 2 ^ (s.slotOfThread k).cqLog2)
      out := fun s _ u k v =>
        let u1 := (u.orderPoint k).launchChild k ((launchBytes s k (addr48 v.a)).getD [])
        .ok (u1.1.writeD k h fm v.dst u1.2) }
  | .cjoin h => some {
      opc := 0x14C, h := h, fm := ⟨.none, .v, .none, false, false, [], false⟩
      out := fun s _ u k v =>
        if u.joined k v.a s.nextLaunch then .ok (u.joinChildren k v.a s.nextLaunch) else .wait u (.cjoin v.a s.nextLaunch) }
  | .rjen h j => some {
      opc := 0x14D, h := h, fm := fmNone
      out := fun _ _ u k _ => .ok ((u.modRejoin (groupOf k) j.toNat fun m =>
        (m.1 ||| laneBit k, m.2 &&& ~~~ laneBit k)).testRejoin (groupOf k) j.toNat) }
  | .rjwait h j => some {
      opc := 0x14E, h := h, fm := fmNone
      out := fun s _ u k _ =>
        if !((u.grp (groupOf k)).enrolled.getD j.toNat 0).getLsbD (laneOf k) then .ok u
        else .left (((u.modRejoin (groupOf k) j.toNat fun m => (m.1, m.2 ||| laneBit k)).modThr k fun t =>
          { t.pass s.time h (t.pc + h.bytes) with state := .waiting (.rejoin j.toNat) }).testRejoin (groupOf k) j.toNat) }
  | .rjleave h j => some {
      opc := 0x14F, h := h, fm := fmNone
      out := fun _ _ u k _ => .ok ((u.modRejoin (groupOf k) j.toNat fun m =>
        (m.1 &&& ~~~ laneBit k, m.2 &&& ~~~ laneBit k)).testRejoin (groupOf k) j.toNat) }
  | .lead h =>
    let fm : Form := ⟨.w, .none, .none, false, true, [], false⟩
    some {
      opc := 0x155, h := h, fm := fm
      out := fun _ p u k v =>
        let first := p.head?.map (·.1) == some k
        let u1 := if first then u.modGrp (groupOf k) fun G => { G with leader := some (laneOf k) } else u
        .ok (u1.writeD k h fm v.dst (b2n first)) }
  | .waitc h live cnd => some {
      opc := 0x201, h := h, fm := ⟨.v, .x2, .v, true, false, [], false⟩
      ok := fun s _ u k v =>
        let p := s.place k (addr48 v.a) 4 .load false
        !(s.thr k).handler && (s.blkOf k).scratch == 0 && decide (8 * live.toNat ≤ (s.thr k).regs.length)
          && addr48 v.a % 4 == 0 && branchTo (s.thr k).pc v.b % 4 == 0 && p.toOption.isSome
          && !s.releaseBlocked k 3 && !s.awaiting k && (u.monitorRoom (s.partOf (coreOf k)) (placeOf p).pa ((placeOf p).space == .sluice)).isSome
      out := fun s _ u k v =>
        let p := placeOf (s.place k (addr48 v.a) 4 .load false)
        let x := (u.monitorRoom (s.partOf (coreOf k)) p.pa (p.space == .sluice)).getD (false, false)
        let m : Monitor := ⟨p.pa, cnd.toNat, BitVec.ofNat 32 v.d, s.carry k live.toNat (branchTo (s.thr k).pc v.b),
          s.partOf (coreOf k), x.1, x.2⟩
        let u := if p.space == .sluice then u.touchLine p.pa else u
        .left (((u.orderPoint k).register m).endThread k) }
  | .waitg h =>
    let fm : Form := ⟨.w, .v, .v, false, true, [], false⟩
    some {
      opc := 0x202, h := h, fm := fm
      ok := fun s _ _ k v =>
        let p := s.placeOff k (v.a % 2 ^ 32) 8 .load
        p.toOption.isSome
          && s.mayPerform (s.newReq k .spad (placeOf p).va (placeOf p).pa 8 (.load false false false ⟨240, 1⟩) false)
          && s.linesFilled (s.grpOf k).block (placeOf p).pa 8
      out := fun s _ u k v =>
        let o := (placeOf (s.placeOff k (v.a % 2 ^ 32) 8 .load)).pa
        let g := genOf ((u.blkOf k).arrival o)
        if g ≠ v.b % 256 then .ok (u.writeD k h fm v.dst g)
        else .wait u (.waitg o (v.b % 256) (BitVec.ofNat 10 v.dst)
          (if 256 ≤ v.dst && v.dst < 320 then some (s.fresh, 0, 0) else none)) }
  | _ => none

/-! ### Capsules (07 R183–R191) -/

/-- Sluice may act on a record for a thread whose checkpointed registers await nothing. -/
def capsReady (s : State) (k pa : Nat) : Bool := s.sluiceReady k pa && !s.busyReg k (cReg 0) 8 && !s.busyReg k 320 7

/-- The record at an address whose checks pass (R184). -/
def recordAt (s : State) (k va : Nat) (acc : Acc) : Option Nat := (recordPlace s s k va acc).toOption

def capsuleRow : Instr → Option BundleRow
  | .caps h ns =>
    let fm : Form := ⟨.p, .x2, .none, false, true, [], false⟩
    some {
      opc := 0x205, h := h, fm := fm
      ok := fun s _ _ k v =>
        (s.thr k).regs.length == 224 && (s.thr k).capsule.isNone
          && (recordAt s k (addr48 v.a) .atomic).any (capsReady s k)
      out := fun s _ u k v =>
        let t := s.thr k
        let va := addr48 v.a
        let n := ns.toNat + 1
        let pa := (recordAt s k va .atomic).getD 0
        let r := u.record pa
        let u0 := (u.nameRecord pa).touchLine pa
        if !r.held then
          let u1 := u0.newIdent k
          let u2 := u1.1.setRecord pa
            ⟨u1.2, 0, 0, ns.toNat, t.pc, t.preds, true, false, false, false, true, 0, s.cRegs k⟩
          .okAt ((u2.modThr k fun t => { t with capsule := some ⟨false, va, 0, t.pc, n, 0, u1.2⟩ }).writeD k h fm v.dst 0)
            (t.pc + 12)
        else if r.desched then .okAt (u0.writeD k h fm v.dst 1) (t.pc + 12 + 12 * n + 12)
        else .left (u0.waitRecord k pa va) }
  | .cld h => some {
      opc := 0x206, h := h, fm := ⟨.c, .c2, .c, false, false, [], false⟩
      ok := fun s _ _ k v => (stepAccess s s h k (effAddr v.a v.b) .load).toOption.isSome
      out := fun s _ u k v =>
        match stepAccess s s h k (effAddr v.a v.b) .load with
        | .error l => l
        | .ok (x, c, rec) =>
          .left (((u.tlbFillFor k x.va .load).tlbFillFor k c.capr .atomic).sendCommit k c rec [] none
            (some (x, BitVec.ofNat 10 v.dst))) }
  | .cst h => some {
      opc := 0x207, h := h, fm := ⟨.c, .c2, .c, true, false, [], false⟩
      ok := fun s _ _ k v => (stepAccess s s h k (effAddr v.a v.b) .store).toOption.isSome
      out := fun s _ u k v =>
        match stepAccess s s h k (effAddr v.a v.b) .store with
        | .error l => l
        | .ok (x, c, rec) =>
          .left (((u.tlbFillFor k x.va .store).tlbFillFor k c.capr .atomic).sendCommit k c rec []
            (some (x, BitVec.ofNat 32 v.d)) none) }
  | .cend h =>
    let rec' (s : State) (k : Nat) (c : Capsule) : Option Nat :=
      match s.translateFor k c.capr .atomic with | .ok x => some x.pa | .error _ => none
    some {
      opc := 0x208, h := h, fm := fmNone
      ok := fun s _ u k _ =>
        match (s.thr k).capsule with
        | none => false
        | some c =>
          !(s.thr k).handler && (s.thr k).pc == addr48 (c.code + 12 + 12 * c.n) && c.estep == c.n && (rec' s k c).isSome && !s.releaseBlocked k 3
            && (let pa := (rec' s k c).getD 0
                let u0 := u.touchLine pa
                !s.isPoisoned pa 64 && (!((u0.record pa).runner == some c.ident && (u0.record pa).adopted)
                  || u0.displacedRoom (s.partOf (coreOf k)) (sluiceOf u0 pa)))
      out := fun s _ u k _ =>
        match (s.thr k).capsule with
        | none => .ok u
        | some c =>
          let pa := (rec' s k c).getD 0
          let u := u.touchLine pa
          let r := u.record pa
          if r.runner ≠ some c.ident then .left (u.refused k pa c)
          else
            let u1 := if r.adopted then u.postDisplaced pa (s.partOf (coreOf k)) r.holder ((s.cRegs k).take 4) else u
            let u2 := u1.setRecord pa { r with
              adopter := 0, step := 0, held := false, complete := true, adopted := false, desched := false, running := false
              cwct := 0 }
            .left (((u2.wakeRecord pa).orderPoint k).modThr k fun t =>
              t.leaveCapsule s.time (if c.adopter then c.ret else c.past)) }
  | .cadopt h => some {
      opc := 0x209, h := h, fm := ⟨.none, .x2, .v, false, false, [], false⟩
      ok := fun s _ _ k v =>
        (s.thr k).regs.length == 224 && (s.thr k).capsule.isNone && branchTo (s.thr k).pc v.b % 4 == 0
          && (recordAt s k (addr48 v.a) .atomic).any (capsReady s k)
      out := fun s _ u k v =>
        let pa := (recordAt s k (addr48 v.a) .atomic).getD 0
        let r := u.record pa
        let u := (u.nameRecord pa).touchLine pa
        if !(r.held && r.desched) then .okAt u ((s.thr k).pc + 12)
        else
          let u1 := u.newIdent k
          let u2 := u1.1.setRecord pa { r with adopter := u1.2, adopted := true, desched := false, running := true }
          .okAt (u2.modThr k fun t =>
            { t with
              regs := (List.range 8).foldl (fun rs i => rs.set (cReg i) (r.ck.getD i 0)) t.regs
              preds := r.pck
              wctPkg := max t.wctPkg r.cwct
              wctSys := max t.wctSys r.cwct
              capsule := some ⟨true, addr48 v.a, r.step, r.code, r.nm1 + 1, branchTo (s.thr k).pc v.b, u1.2⟩ }.heal (cReg 0) 8)
            (r.code + 12 + 12 * r.step) }
  | .cqry h =>
    let fm : Form := ⟨.w, .x2, .none, false, true, [], false⟩
    some {
      opc := 0x20A, h := h, fm := fm
      ok := fun s _ _ k v => (recordAt s k (addr48 v.a) .load).isSome
      out := fun s _ u k v =>
        let u1 := u.tlbFillFor k (addr48 v.a) .load
        .ok (u1.addReq (u1.newReq k .sluice (addr48 v.a) ((recordAt s k (addr48 v.a) .load).getD 0) 64
          (.query ⟨BitVec.ofNat 10 v.dst, 1⟩) false)) }
  | _ => none

/-! ### Stash windows, matrix operations, copy engines and cursors (06 R165–R168; 07 R192–R214) -/

/-- The checks of R195 on an operation, and room for it. -/
def mxClears (q : MxReq) (s : State) (ks : List Nat) (l0 : Nat) : Bool :=
  (match q.aReg with | some a => !overlaps q.d 32 a 16 | none => true)
    && (q.pm || (s.grp (groupOf l0)).live &&& ~~~ laneMask ks == 0)
    && (mxPanels q.kind (q.kind != .mzero && q.aReg.isNone) q.aOff q.bOff q.metaOff q.scaleOff).all (fun p =>
        p.1 % p.2.2 == 0 && p.1 + p.2.1 ≤ (s.blkOf l0).scratch && !(s.blkOf l0).spadBad p.1 p.2.1)
    && decide (s.mxHeld (groupOf l0 / 16) < 12)

/-- A matrix operation accepted (R195, R200). -/
def BundleRow.matrix (opc : Nat) (h : Hdr) (kind : MxKind) (asp pm : Bool) (str : BitVec 2) (b : Cls) : BundleRow :=
  let q (v : Vals) : MxReq := ⟨kind, pm, str.toNat, h.d.toNat, if asp then none else some h.a.toNat, v.a % 2 ^ 32,
    field v.b 0 32, field v.b 32 32, field v.b 64 32⟩
  .once opc h (mxForm asp b) (fun s ks l0 v => mxClears (q v) s ks l0) fun _ u ks _ v => u.accept (q v) ks

/-- An arrival word that passes its checks, and room on the core's engines (R206, R210, R211). -/
def engineClears (s u : State) (k : Nat) (arv : Bool) (off : Nat) : Bool :=
  (!arv || (off % 8 == 0 && off + 8 ≤ (s.blkOf k).scratch)) && decide (u.inFlight (coreOf k) < 32)

/-- The shape record of a copy: the core's copy of it, or the one in memory (R209). -/
def shapeImage (s u : State) (k r : Nat) : List Byte :=
  match (u.coreAt (coreOf k)).records.find (s.recordKey k r) with
  | some im => im
  | none => u.homeBytes (placeOf (s.place k r 64 .load false)).pa 64

/-- GATH and SCAT (R211). -/
def BundleRow.gather (opc : Nat) (toGlobal : Bool) (h : Hdr) (sz : BitVec 2) (uns arv : Bool) : BundleRow :=
  let size := gatherSize sz.toNat
  { opc := opc, h := h, fm := ⟨.v, .x2, .x3, true, false, [], false⟩
    ok := fun s _ u k v =>
      let n := field v.b 32 32
      addr48 v.a % size == 0 && v.d % 2 ^ 32 % size == 0 && field v.b 0 32 % 4 == 0 && !inWindow (addr48 v.a)
        && decide (n ≤ 8192) && decide (v.d % 2 ^ 32 + n * size ≤ (s.blkOf k).scratch)
        && decide (field v.b 0 32 + 4 * n ≤ (s.blkOf k).scratch) && engineClears s u k arv (field v.b 64 32)
    out := fun _ _ u k v => .ok (u.startEng k
      (.gather toGlobal size uns (addr48 v.a) (v.d % 2 ^ 32) (field v.b 0 32) (field v.b 32 32))
      (if arv then some (field v.b 64 32) else none)) }

/-- A cursor set from the image that the lane has read from memory (R213). -/
def BundleRow.cursorSet (opc : Nat) (full : Bool) (h : Hdr) (hc : BitVec 2) : BundleRow :=
  let image (s : State) (k : Nat) : Cursor := Cursor.ofImage (leBytes 64 (((s.thr k).memo.find 0).getD 0)) full (s.grpOf k).block
  .once opc h ⟨.none, .x2, .none, false, false, [], false⟩
    (fun s _ k v => addr48 v.a % 64 == 0 && !s.cursorHeld k hc.toNat && !s.drawnBy k hc.toNat && ((s.thr k).memo.find 0).isSome
      && !(image s k).bad)
    fun s u _ k _ => (u.endDraw (quadKeyOf k) hc.toNat).setCursor (quadKeyOf k) hc.toNat (image s k)

/-- The draw of an HNEXT (R214, R355–R358), by the entries that its first participating lane has read. -/
def nextDraw (s : State) (p : Lanes) (hc : Nat) : Except (DrawEnd × Cursor) Draw :=
  let ks := p.map (·.1)
  (s.cursor (quadKeyOf (ks.headD 0)) hc).draw (s.thr (ks.headD 0)).memo.find (leadingLanes ks 32)

def engineRow : Instr → Option BundleRow
  | .smap h w => some {
      opc := 0x188, h := h, fm := ⟨.v, .x2, .v, true, false, [], false⟩
      ok := fun s p u k _ =>
        match p.head? with
        | none => false
        | some l =>
          if (s.thr k).state = .stalled .stash then !u.mapping (s.grpOf l.1).block w.toNat
          else k == l.1 && s.spadPerformed l.1 && (s.smapCheck l.1 w.toNat l.2.d (addr48 l.2.a) l.2.b).toOption.isSome
      out := fun s p u k _ =>
        match p.head? with
        | none => .ok u
        | some l =>
          if (s.thr k).state = .stalled .stash then .ok u
          else
            let b := (s.grpOf l.1).block
            let pas := (s.smapCheck l.1 w.toNat l.2.d (addr48 l.2.a) l.2.b).toOption.getD []
            let u1 := u.partWindow l.1 b w.toNat true
            let W : Stash := ⟨l.2.d, addr48 l.2.a, l.2.b, pas, pas.map fun _ => .lost, l.1, none⟩
            let u2 := (u1.modBlk b fun B => { B with windows := B.windows.put w.toNat W }).askLines l.1 b w.toNat W.va pas
            .left (u2.modThr k fun t => { t with state := .stalled .stash }) }
  | .swb h w => some {
      opc := 0x189, h := h, fm := fmNone, ok := fun s _ _ k _ => s.spadPerformed k
      out := fun s _ u k _ => .ok (u.sendBack k (s.grpOf k).block w.toNat) }
  | .sinv h w wb => some {
      opc := 0x18A, h := h, fm := fmNone
      ok := fun s _ _ k _ => s.spadPerformed k
      out := fun s _ u k _ => .ok (u.partWindow k (s.grpOf k).block w.toNat wb) }
  | .mma h ty asp pm str rnd => some (.matrix 0x240 h (.mma ty.toNat rnd.toNat) asp pm str .v)
  | .mmai h ty asp pm str sat => some (.matrix 0x241 h (.mmai ty.toNat sat) asp pm str .v)
  | .mmab h ty asp pm str rnd => some (.matrix 0x242 h (.mmab ty.toNat rnd.toNat) asp pm str .s3)
  | .mmas h ty asp pm str rnd sat => some (.matrix 0x243 h (.mmas ty.toNat rnd.toNat sat) asp pm str .s2)
  | .mzero h pm str =>
    let q : MxReq := ⟨.mzero, pm, str.toNat, h.d.toNat, none, 0, 0, 0, 0⟩
    some (.once 0x245 h ⟨.t32, .none, .none, false, false, [], false⟩ (fun s ks l0 _ => mxClears q s ks l0)
      fun _ u ks _ _ => u.accept q ks)
  | .mopr h => some {
      opc := 0x246, h := h, fm := ⟨.none, .none, .none, false, false, [], false⟩
      ok := fun s p _ _ _ => p.all fun l => !s.awaiting l.1 && s.spadPerformed l.1
      out := fun _ _ u k _ => .ok (u.orderPoint k) }
  | .mwait h smask => some {
      opc := 0x247, h := h, fm := ⟨.none, .none, .none, false, false, [], false⟩
      ok := fun s _ _ k _ => s.mxPending (groupOf k) (waitMask smask.toNat) s.nextOp
        || ((s.thr k).poisoned (waitMask smask.toNat)).isNone
      out := fun s _ u k _ =>
        if s.mxPending (groupOf k) (waitMask smask.toNat) s.nextOp then
          .left (u.modThr k fun t =>
            { t with state := .waiting (.mwait (waitMask smask.toNat) h.bytes s.nextOp), chain := false, latch := [] })
        else .ok (u.modThr k (Thread.cover s.fresh k (waitMask smask.toNat) s.nextOp)) }
  | .tcopy h dir sf sr arv =>
    let origin (v : Vals) : List Int := (List.range 5).map fun i => sgn 32 (field v.b (32 * i) 32)
    some {
      opc := 0x280, h := h, fm := ⟨.v, .x2, .x6, true, false, [], false⟩
      ok := fun s _ u k v =>
        let r := addr48 v.a
        let sh := Shape.ofBytes (shapeImage s u k r)
        r % 64 == 0
          && (((u.coreAt (coreOf k)).records.find (s.recordKey k r)).isSome
            || ((s.place k r 64 .load false).toOption.isSome && s.allPerformed k))
          && sh.ok sf.toNat ((origin v).headD 0) && v.d % 2 ^ 32 % 16 == 0
          && decide (v.d % 2 ^ 32 + sh.bytes sf.toNat ≤ (s.blkOf k).scratch) && engineClears s u k arv (field v.b 160 32)
      out := fun s _ u k v =>
        let im := shapeImage s u k (addr48 v.a)
        .ok ((u.modCore (coreOf k) fun C => C.useRecord (s.recordKey k (addr48 v.a)) im).startEng k
          (.tcopy im dir sf.toNat sr (v.d % 2 ^ 32) (origin v)) (if arv then some (field v.b 160 32) else none)) }
  | .rcfence h all => some
      (.once 0x281 h ⟨.none, if all then .none else .x2, .none, false, false, [], false⟩
        (fun s _ k v => (all || addr48 v.a % 64 == 0) && s.allPerformed k)
        fun s u _ k v => u.modCore (coreOf k) fun C =>
          { C with records := if all then [] else C.records.filter fun x => x.1 != s.recordKey k (addr48 v.a) })
  | .cpwait h => some {
      opc := 0x282, h := h, fm := ⟨.none, .none, .v, false, false, [], false⟩
      ok := fun s _ _ k v => decide (s.openOps k > v.b % 2 ^ 32) || (s.owedError k).isNone
      out := fun s _ u k v =>
        if s.openOps k > v.b % 2 ^ 32 then
          .left (u.modThr k fun t =>
            { t with state := .waiting (.cpwait (v.b % 2 ^ 32) h.bytes), chain := false, latch := [] })
        else .ok (u.purgeOps k) }
  | .gath h sz u arv => some (.gather 0x283 false h sz u arv)
  | .scat h sz u arv => some (.gather 0x284 true h sz u arv)
  | .hset h hc => some (.cursorSet 0x285 false h hc)
  | .hload h hc => some (.cursorSet 0x288 true h hc)
  | .hsave h hc => some
      (.once 0x287 h ⟨.none, .x2, .none, false, false, [], false⟩
        (fun s _ k v => addr48 v.a % 64 == 0 && !s.cursorTaken k hc.toNat && !s.drawnBy k hc.toNat
          && (s.place k (addr48 v.a) 64 .store true).toOption.isSome)
        fun s u _ k v =>
          let p := placeOf (s.place k (addr48 v.a) 64 .store true)
          let c := s.cursor (quadKeyOf k) hc.toNat
          let bs := if c.valid then c.image else List.replicate 64 0
          (List.range 4).foldl (fun (acc : State) i =>
            acc.send k ⟨p.space, p.pa + 16 * i, addr48 v.a + 16 * i⟩ 16 (.store ((bs.drop (16 * i)).take 16)) false .store) u)
  | .hnext h hc pv => some {
      opc := 0x286, h := h, fm := ⟨.x3, .s2, .none, false, true, if pv = 0 then [] else [pv.toNat - 1], false⟩
      ok := fun s p _ k _ => (p.head?.any fun l => quadKeyOf l.1 == quadKeyOf k) && !s.cursorTaken k hc.toNat
        && (p.all fun l => !s.drawnBy l.1 hc.toNat) && (nextDraw s p hc.toNat).toOption.isSome
      out := fun s p u k v =>
        let ks := p.map (·.1)
        match nextDraw s p hc.toNat with
        | .error _ => .ok u
        | .ok d =>
          let u1 := u.takeSurvivor k v.dst pv.toNat d
          if ks.headD k ≠ k then .ok u1
          else
            let u2 := (u1.writeReg k h.a.toNat (BitVec.ofNat 32 d.out.length)).writeReg k (h.a.toNat + 1)
              (BitVec.ofNat 32 d.heads)
            .ok (((u2.setCursor (quadKeyOf k) hc.toNat d.c).endDraw (quadKeyOf k) hc.toNat).markUdiv (s.passingWith h (ks.headD k)) ks) }
  | _ => none

/-! ### The history bank and the system instructions (08 R217–R235) -/

/-- HXST and HXLD: the lowest lane acts, having sent the image's accesses, now or before; every lane is Stalled until the bank
operation ends (R292). `ready`: the image may move; `move`: how. -/
def BundleRow.image (opc : Nat) (acc : Acc) (key : Nat) (h : Hdr) (ready : State → Nat → Bool)
    (move : State → Nat → State → State) : BundleRow where
  opc := opc
  h := h
  fm := fmA2
  ok s p _ _ _ := p.head?.any fun l =>
    (s.engaged l.1 || (addr48 l.2.a % 64 == 0 && (s.imagePlaces l.1 (addr48 l.2.a) acc).toOption.isSome))
      && ready s l.1 && !s.bankBusy l.1
  out s p u k _ := bankLane s.time h (match p.head? with
    | some l =>
      if k = l.1 then
        let u1 := if s.engaged l.1 then u
          else u.sendImage l.1 ((s.imagePlaces l.1 (addr48 l.2.a) acc).toOption.getD []) acc key
        (move s l.1 u1).count (coreOf l.1) (s.grpOf l.1).oslot 7 24
      else u
    | none => u) k

/-- The words of a ring that RSRING has read, where its check passes (R149, R150). -/
def ringWords (s : State) (k va : Nat) : Option (List Word) := (ringFound s s k va).toOption

def systemRow : Instr → Option BundleRow
  | .hxst h => some (.image 0x2C0 .store holdKey h State.allPerformed fun s l0 u => (u.bankOp l0 id).storeImage l0 s)
  | .hxld h => some (.image 0x2C1 .load 0 h (fun s l0 => (s.words l0 (List.range 96)).isSome) fun s l0 u =>
      u.bankOp l0 fun _ => Bank.ofImage (((s.words l0 (List.range 96)).getD []).flatMap (leBytes 16)))
  | .hxclr h tbl => some {
      opc := 0x2C2, h := h, fm := fmNone, ok := fun s _ _ k _ => !s.bankBusy k
      out := fun s p u k _ => bankLane s.time h (if p.head?.map (·.1) = some k then u.bankOp k (Bank.clear tbl) else u) k }
  | .hxwr h => some {
      opc := 0x2C4, h := h, fm := ⟨.none, .v, .v, false, false, [], false⟩
      ok := fun s _ _ k v => v.b % 4 == 0 && v.b < 1536 && !s.bankBusy k
      out := fun s _ u k v => bankLane s.time h (u.bankOp k fun b => b.setWord v.b (BitVec.ofNat 32 v.a)) k }
  | .hxcfg h =>
    let fm : Form := ⟨.w, .v, .v, false, true, [], false⟩
    some {
      opc := 0x2C5, h := h, fm := fm, ok := fun s _ _ k _ => !s.bankBusy k
      out := fun s _ u k v => bankLane s.time h
        ((u.bankOp k fun b => { b with conf := cfgUpdate b.conf v.a v.b }).writeD k h fm v.dst
          ((u.slotOfThread k).bank.conf.toNat % 65536)) k }
  | .xret h skip =>
    let len (s : State) (k : Nat) : Nat := field (s.thr k).trap.xstat.toNat 8 2
    let target (s : State) (k : Nat) : Nat := addr48 ((s.thr k).trap.xpc.toNat + (if skip then lenBytes (len s k) else 0))
    some {
      opc := 0x2C7, h := h, fm := fmNone, prot := needsH
      ok := fun s _ _ k _ => !(skip && len s k == 0) && target s k % 4 == 0
      out := fun s _ u k _ =>
        let u1 := (u.trapReturn k (target s k)).modThr k fun t => { t with readyAt := s.time }
        if skip && bit (s.thr k).trap.xstat.toNat 4 then
          let w := s.skipped k (addr48 (s.thr k).trap.xpc.toNat)
          .left (u1.modThr k fun t =>
            if w.2 then { t with chain := true, latch := w.1 :: t.latch } else { t with chain := false, latch := [] })
        else .left u1 }
  | .mts h => some {
      opc := 0x2C9, h := h, fm := ⟨.srw, .none, .v, false, false, [], false⟩, prot := hOnly h.d.toNat
      ok := fun _ _ _ _ v => !(v.dst == 349 && badRm v.b)
      out := fun _ _ u k v => .ok (u.writeSpecial k v.dst (BitVec.ofNat 32 v.b)) }
  | .mtsT h pv => some {
      opc := 0x2C9, h := h, fm := ⟨.target, .v, .v, false, false, pvPreds pv, false⟩, prot := notMonitor
      out := fun s _ u k v =>
        let r := (s.targetOf k v.a).bind fun j => u.writeTarget j v.dst v.b
        .ok ((r.getD u).writePv k pv r.isSome) }
  | .bkpt h => some {
      opc := 0x2CA, h := h, fm := fmB, ok := fun s _ _ k _ => s.claimed k
      out := fun _ p u k _ =>
        let mine := (p.map (·.1)).filter fun j => groupOf j == groupOf k
        let u1 := u.modThr k fun t => { t with stopped := true, stepping := false, state := .ready }
        .left (if mine.head? = some k then u1.stopMail mine 2 else u1) }
  | .dbgmsg h => some {
      opc := 0x2CB, h := h, fm := ⟨.none, .v, .v, false, false, [], false⟩
      out := fun _ _ u k v => .ok (u.dbgMessage k v.a v.b) }
  | .pmark h => some {
      opc := 0x2CC, h := h, fm := fmB
      out := fun _ _ u k v => .ok (u.modGrp (groupOf k) fun G => { G with mark := BitVec.ofNat 16 v.b }) }
  | .ipref h => some
      (.once 0x2CF h ⟨.none, .x2, .v, false, false, [], false⟩ (fun _ _ _ _ => true) fun _ u _ k v =>
        (iprefLines (addr48 v.a) v.b).foldl (fun (acc : State) l => acc.askAhead (coreOf k) (acc.grpOf k).oslot l true) u)
  | .qntf h => some {
      opc := 0x2D0, h := h, fm := fmB
      ok := fun s _ _ k v => v.b % 2 ^ 32 < 4096 && (s.partAt (s.partOf (coreOf k))).hasQueue (v.b % 2 ^ 32)
        && !s.releaseBlocked k 3
      out := fun s _ u k v => .ok ((u.orderPoint k).notifyQueue (v.b % 2 ^ 32) (s.free (k * 4 + 2))) }
  | .rsring h rs =>
    let fm : Form := ⟨.w, .x2, .none, false, true, [], false⟩
    some {
      opc := 0x10F, h := h, fm := fm
      ok := fun s p _ _ _ => p.head?.any fun l => (ringWords s l.1 (addr48 l.2.a)).isSome
      out := fun s p u k v =>
        match p.head? with
        | none => .ok u
        | some l =>
          let ws := (ringWords s l.1 (addr48 l.2.a)).getD []
          let u1 := if k = l.1 then u.loadRing l.1 rs.toNat ws else u
          .ok (u1.writeD k h fm v.dst (ringFlags ws))
      fin := State.lookUpSince }
  | _ => none

end Sys2Proof.Machine
end

