-- ==== Sys2Proof/Claims/Rules.lean ====
section
/-! DEFINITION. The values that the rules of 04 give (R94–R102), written from their words over bit vectors and integers
and apart from the model's own computations, as the claims compare the two; and what a trap leaves of a thread (R33,
R223). -/

namespace Sys2Proof.Machine

/-! ### Reading and writing integers -/

/-- A `w`-bit operand as an integer: unsigned where U is 1, else two's complement. -/
def asInt (u : Bool) (w n : Nat) : Int := if u then ((BitVec.ofNat w n).toNat : Int) else (BitVec.ofNat w n).toInt

/-- The least and the greatest value of an N-bit type. -/
def leastOf (u : Bool) (w : Nat) : Int := if u then 0 else -(2 ^ (w - 1))
def greatestOf (u : Bool) (w : Nat) : Int := if u then 2 ^ w - 1 else 2 ^ (w - 1) - 1

/-- v as an N-bit word: modulo 2^N, or the nearest value of the type where SAT is 1. -/
def asWord (u sat : Bool) (w : Nat) (v : Int) : Nat :=
  (BitVec.ofInt w (if sat then (if v < leastOf u w then leastOf u w else if greatestOf u w < v then greatestOf u w else v)
    else v)).toNat

/-- A word whose bit i is `f i`. -/
def wordOf (f : Nat → Bool) : Nat := Nat.ofBits fun i : Fin 32 => f i

/-- How many of the 32 bit positions have a property. -/
def countBits (f : Nat → Bool) : Nat := (List.range 32).countP f

/-! ### R94 -/

/-- IADD, ISUB, IMUL, IMULH, IMAD, IMIN, IMAX, IABS, INEG. -/
def arithRule : Instr → Option LaneRow
  | .iadd h u sat => some (.value 0x003 h fmWVV fun _ _ v => asWord u sat 32 (asInt u 32 v.a + asInt u 32 v.b))
  | .isub h u sat => some (.value 0x004 h fmWVV fun _ _ v => asWord u sat 32 (asInt u 32 v.a - asInt u 32 v.b))
  | .imul h u sat wide => some
      (.value 0x006 h ⟨if wide then .x2 else .w, .v, .v, false, true, [], true⟩ fun _ _ v =>
        asWord u sat (if wide then 64 else 32) (asInt u 32 v.a * asInt u 32 v.b))
  | .imulh h u => some
      (.value 0x007 h fmWVV fun _ _ v => (BitVec.ofInt 32 ((asInt u 32 v.a * asInt u 32 v.b).fdiv (2 ^ 32))).toNat)
  | .imad h u sat wide => some
      (.value 0x008 h ⟨if wide then .x2 else .w, .v, .v, true, true, [], true⟩ fun _ _ v =>
        asWord u sat (if wide then 64 else 32)
          (asInt u 32 v.a * asInt u 32 v.b + asInt u (if wide then 64 else 32) v.d))
  | .imin h u => some
      (.value 0x009 h fmWVV fun _ _ v => (BitVec.ofInt 32 (min (asInt u 32 v.a) (asInt u 32 v.b))).toNat)
  | .imax h u => some
      (.value 0x00A h fmWVV fun _ _ v => (BitVec.ofInt 32 (max (asInt u 32 v.a) (asInt u 32 v.b))).toNat)
  | .iabs h sat => some (.value 0x00B h fmWV fun _ _ v => asWord false sat 32 |asInt false 32 v.a|)
  | .ineg h sat => some (.value 0x00C h fmWV fun _ _ v => asWord false sat 32 (-asInt false 32 v.a))
  | _ => none

/-! ### R95 -/

/-- IADC: the sum to D, then the carry to p[CP]. -/
def carryRule : Instr → Option LaneRow
  | .iadc h cp sub =>
    let fm : Form := ⟨.w, .v, .v, false, true, [cp.toNat], true⟩
    some {
      opc := 0x005, h := h, fm := fm, prot := anyone, ok := fun _ _ _ => true
      eff := fun s _ k v u =>
        let sum := v.a + (if sub then 0xFFFF_FFFF - v.b else v.b) + (if (s.thr k).pred cp.toNat then 1 else 0)
        .ok ((u.writeD k h fm v.dst (sum % 2 ^ 32)).modThr k fun t => t.setPred cp.toNat (decide (2 ^ 32 ≤ sum))) }
  | _ => none

/-! ### R96 -/

/-- MOV, MOVI, SEL, the logic instructions and the shifts. -/
def logicRule : Instr → Option LaneRow
  | .mov h w64 => some (.value 0x000 h (if w64 then ⟨.x2, .x2, .none, false, true, [], true⟩ else fmWV) fun _ _ v => v.a)
  | .movi h w64 => h.imm.map fun x =>
      .value 0x001 h ⟨if w64 then .x2 else .w, .none, if w64 then .x2 else .v, false, true, [], true⟩ fun _ _ _ =>
        if w64 then (x.signExtend 64).toNat else x.toNat
  | .sel h sp sn => some
      (.value 0x002 h ⟨.w, .v, .v, false, true, [sp.toNat], true⟩ fun s k v =>
        if ((s.thr k).pred sp.toNat ^^ sn) then v.a else v.b)
  | .andw h => some (.value 0x00D h fmWVV fun _ _ v => wordOf fun i => v.a.testBit i && v.b.testBit i)
  | .orw h => some (.value 0x00E h fmWVV fun _ _ v => wordOf fun i => v.a.testBit i || v.b.testBit i)
  | .xorw h => some (.value 0x00F h fmWVV fun _ _ v => wordOf fun i => v.a.testBit i ^^ v.b.testBit i)
  | .andn h => some (.value 0x010 h fmWVV fun _ _ v => wordOf fun i => v.a.testBit i && !v.b.testBit i)
  | .notw h => some (.value 0x011 h fmWV fun _ _ v => wordOf fun i => !v.a.testBit i)
  | .shl h => some (.value 0x012 h fmWVV fun _ _ v => (BitVec.ofNat 32 v.a <<< v.b).toNat)
  | .shr h => some (.value 0x013 h fmWVV fun _ _ v => (BitVec.ofNat 32 v.a >>> v.b).toNat)
  | .sar h => some (.value 0x014 h fmWVV fun _ _ v => ((BitVec.ofNat 32 v.a).sshiftRight v.b).toNat)
  | .rotl h => some (.value 0x015 h fmWVV fun _ _ v => ((BitVec.ofNat 32 v.a).rotateLeft (v.b % 32)).toNat)
  | _ => none

/-! ### R97 -/

/-- BFX and BFI: pos = b[7:0], len = b[15:8], e = min(pos + len, 32). -/
def fieldRule : Instr → Option LaneRow
  | .bfx h sx => some
      (.value 0x016 h fmWVV fun _ _ v =>
        let pos := v.b % 256
        let e := min (pos + v.b / 256 % 256) 32
        if 32 ≤ pos ∨ v.b / 256 % 256 = 0 then 0
        else wordOf fun i => if pos + i < e then v.a.testBit (pos + i) else sx && v.a.testBit (e - 1))
  | .bfi h => some
      (.value 0x017 h fmWdVV fun _ _ v =>
        let pos := v.b % 256
        let e := min (pos + v.b / 256 % 256) 32
        if 32 ≤ pos ∨ v.b / 256 % 256 = 0 then v.d
        else wordOf fun i => if pos ≤ i ∧ i < e then v.a.testBit (i - pos) else v.d.testBit i)
  | _ => none

/-! ### R98 -/

/-- POPC, CLZ, CTZ, BREV. -/
def countRule : Instr → Option LaneRow
  | .popc h => some (.value 0x018 h fmWV fun _ _ v => countBits v.a.testBit)
  | .clz h => some (.value 0x019 h fmWV fun _ _ v => countBits fun i => (List.range 32).all fun j => j < i || !v.a.testBit j)
  | .ctz h => some (.value 0x01A h fmWV fun _ _ v => countBits fun i => (List.range 32).all fun j => i < j || !v.a.testBit j)
  | .brev h => some (.value 0x01B h fmWV fun _ _ v => wordOf fun i => v.a.testBit (31 - i))
  | _ => none

/-! ### R99 -/

/-- Whether COND holds of two integers (R93). -/
def meetsCond (cond : BitVec 3) (a b : Int) : Bool :=
  [a == b, a != b, decide (a < b), decide (a ≤ b), decide (b < a), decide (b ≤ a)].getD cond.toNat false

/-- ICMP, CMP64 and PLOP; the two reserved conditions decode to no instruction. -/
def compareRule : Instr → Option LaneRow
  | .icmp h cond u => if 5 < cond.toNat then none else some
      (.value 0x01C h fmWVV fun _ _ v => if meetsCond cond (asInt u 32 v.a) (asInt u 32 v.b) then 1 else 0)
  | .cmp64 h cond u => if 5 < cond.toNat then none else some
      (.value 0x020 h ⟨.w, .x2, .x2, false, true, [], true⟩ fun _ _ v =>
        if meetsCond cond (asInt u 64 v.a) (asInt u 64 v.b) then 1 else 0)
  | .plop h lut => some
      (.value 0x01D h ⟨.p, .p, .p, false, true, [], true⟩ fun _ _ v => if lut.getLsbD (2 * (v.a % 2) + v.b % 2) then 1 else 0)
  | _ => none

/-! ### R100 -/

/-- LEA and ADD64. -/
def addressRule : Instr → Option LaneRow
  | .lea h sc u => some
      (.value 0x01E h ⟨.x2, .x2, .v, false, true, [], true⟩ fun _ _ v =>
        (BitVec.ofNat 64 v.a + ((if u then (BitVec.ofNat 32 v.b).zeroExtend 64 else (BitVec.ofNat 32 v.b).signExtend 64)
          <<< sc.toNat)).toNat)
  | .add64 h neg => some
      (.value 0x01F h ⟨.x2, .x2, .x2, false, true, [], true⟩ fun _ _ v =>
        (if neg then BitVec.ofNat 64 v.a - BitVec.ofNat 64 v.b else BitVec.ofNat 64 v.a + BitVec.ofNat 64 v.b).toNat)
  | _ => none

/-! ### R101 -/

/-- The width of an integer type code of R93; the odd codes are unsigned. -/
def typeBits (ty : BitVec 3) : Nat := [32, 32, 16, 16, 8, 8].getD ty.toNat 0
def typeUnsigned (ty : BitVec 3) : Bool := ty.getLsbD 0

/-- CVTI; the reserved type codes decode to no instruction. -/
def convertRule : Instr → Option LaneRow
  | .cvti h sty dty sat => if 5 < sty.toNat ∨ 5 < dty.toNat then none else some
      (.value 0x021 h fmWV fun _ _ v =>
        let du := typeUnsigned dty
        let r := asWord du sat (typeBits dty) (asInt (typeUnsigned sty) (typeBits sty) v.a)
        (BitVec.ofInt 32 (asInt du (typeBits dty) r)).toNat)
  | _ => none

/-! ### R102 -/

/-- Byte i of the eight bytes of b:a. -/
def sourceByte (a b i : Nat) : BitVec 8 := BitVec.ofNat 8 ((a + 2 ^ 32 * b) / 2 ^ (8 * i))

/-- The result byte of a control byte: SRC in [2:0], FILL in [4:3]. -/
def chosenByte (a b c : Nat) : BitVec 8 :=
  let x := sourceByte a b (c % 8)
  [x, 0, if x.msb then BitVec.allOnes 8 else 0, ~~~x].getD (c / 8 % 4) 0

/-- BSEL. -/
def selectRule : Instr → Option LaneRow
  | .bsel h => some
      (.value 0x022 h fmWdVV fun _ _ v =>
        leNat ((List.range 4).map fun k => chosenByte v.a v.b (v.d / 2 ^ (8 * k) % 256)))
  | _ => none

/-! ### Capsule steps (R68, R185) -/

/-- A lane at user privilege stands at its capsule's expected step, the instruction a step that R185 permits, and nothing stops
it before its entry. -/
def LaneRow.atStep (r : LaneRow) (s : State) (k : Nat) : Bool :=
  (s.threads.find k).isSome && (decodeTrap s r.opc r.h r.fm r.prot k).isNone && !s.busy k r.h r.fm && !(s.thr k).handler
    && (s.thr k).capsule.any (Machine.atStep (s.thr k) · r.h) && stepOk r.opc r.h r.fm

/-- A step's commit sent to its record, from a thread as `w` has it, with the registers and predicates that it would write; none
where the record's address does not translate. -/
def State.stepSent (u w : State) (k : Nat) (c : Capsule) (writes : List (BitVec 10 × Word)) : Option State :=
  (u.translateFor k c.capr .atomic).toOption.map fun x => w.sendCommit k c x.pa writes none none

/-- A lane's step: where its guard passes, its flags in fps and its destinations in its commit and not in the thread; where it
fails, a commit with no destination (R68). -/
def LaneRow.sends (r : LaneRow) (s u : State) (k : Nat) (v : Vals) : Option State :=
  (s.thr k).capsule.bind fun c =>
    if !(s.thr k).guard r.h then u.stepSent u k c []
    else match r.eff s (s.laneValues r.h r.fm) k v u with
      | .ok w => u.stepSent (u.modThr k fun t => { t with fps := (w.thr k).fps }) k c
          (stepWrites w k v.dst r.fm.d.words (if r.opc = 0x005 then r.fm.preds else []))
      | _ => none

/-- The lane's turn: it does not move, which Sluice's acknowledgement will do (R185). -/
def LaneRow.stepOut (r : LaneRow) (s u : State) (k : Nat) (v : Vals) : Lane := (r.sends s u k v).elim (.ok u) .left

/-- The lanes of the bundle in the order of their turns: those whose guard fails come last. -/
def LaneRow.turns (r : LaneRow) (s : State) : List (Nat × Vals) :=
  s.laneValues r.h r.fm ++ (s.cur.threads.filter fun k => !(s.thr k).guard r.h).map (·, ⟨0, 0, 0, 0⟩)

/-! ### Invariants -/

/-- Every pending request has a number below the next one: the numbers follow the order of issue. -/
def State.reqsBelow (s : State) : Prop := ∀ r ∈ s.reqs, r.1 < s.nextReq

/-! ### A trap of an instruction outside chains -/

/-- The thread after a trap (R33, R223), its instruction in no chain: the trap state, privilege H, the handler's address;
registers, predicates, fpc and fps as they were; what an unfinished instruction has read is forgotten, and a single step that
was to end in the trap STEP ends in this one. -/
def trappedThread (s : State) (k cause info : Nat) (h : Hdr) : Thread :=
  let t := s.thr k
  { t with
    trap := { t.trap with
      xpc := BitVec.ofNat 64 t.pc
      xcause := BitVec.ofNat 32 cause
      xinfo := BitVec.ofNat 64 info
      xstat := BitVec.ofNat 32 ((match h.len with | .compact => 1 | .medium => 2 | .full => 3) * 2 ^ 8) }
    handler := true
    pc := ((s.slotOfThread k).tvec + 64 * cause) % 2 ^ 48
    state := .ready
    readyAt := s.time
    chain := false
    latch := []
    memo := []
    counted := false
    stepTrap := t.stepTrap && !t.stepDue
    stepDue := false }

/-- Every passing lane of the bundle traps so; a lane whose guard fails goes past the instruction; nothing else in the
machine differs. -/
def AllTrap (s : State) (h : Hdr) (fm : Form) (cause : Nat) (info : Nat → Vals → Nat) (t : State) : Prop :=
  OnlyThreadsOf s t
    ∧ (∀ k ∈ s.passing h, ∀ v, s.operands k h fm = .ok v → t.threads.find k = some (trappedThread s k cause (info k v) h))
    ∧ (∀ k ∈ s.cur.threads, (s.thr k).guard h = false → t.threads.find k = (s.goesOn k h).threads.find k)
    ∧ (∀ k, k ∉ s.cur.threads → t.threads.find k = s.threads.find k)

end Sys2Proof.Machine
end

