-- ==== Sys2Proof/Certificates/Slice0/Obligations.lean ====
section
/-! DEFINITION. The statements made for the provers. -/

open Sys2Proof Sys2Proof.Machine

/-- The decoder reads MFS x0, %tid from the medium unit of R80, IADD x8, x8, 1000 and HXWR x7, 0x208 from full units,
ADD64 x4, x6, x2 from a compact unit, XRET.skip and RJEN j0 from medium units. (R67, R77, R78, R79, R80, R69, R226,
R220) -/
def Obligations.DecodesSpecWords : Prop :=
  decodeBytes [0x21, 0xCB, 0x01, 0xC0, 0x14, 0x00, 0x00, 0x00] = .instr (.mfs ⟨.medium, 7, false, 0, 0, 332, 0, none⟩) 8
    ∧ decodeBytes [0x0E, 0x70, 0x08, 0x20, 0x00, 0x00, 0x00, 0xE8, 0x03, 0x00, 0x00, 0x80]
      = .instr (.iadd ⟨.full, 7, false, 0, 8, 8, 0, some 1000⟩ false false) 12
    ∧ decodeBytes [0x12, 0x7B, 0x00, 0x1C, 0x00, 0x00, 0x00, 0x08, 0x02, 0x00, 0x00, 0x80]
      = .instr (.hxwr ⟨.full, 7, false, 0, 0, 7, 0, some 0x208⟩) 12
    ∧ decodeBytes [0x44, 0x04, 0x06, 0x02] = .instr (.add64Compact 4 6 2) 4
    ∧ decodeBytes [0x1D, 0xCB, 0x01, 0x00, 0x00, 0x00, 0x00, 0x04] = .instr (.xret ⟨.medium, 7, false, 0, 0, 0, 0, none⟩ true) 8
    ∧ decodeBytes [0x35, 0xC5, 0x01, 0x00, 0x00, 0x00, 0x00, 0x00] = .instr (.rjen ⟨.medium, 7, false, 0, 0, 0, 0, none⟩ 0) 8

/-- For every well-formed instruction of the code stream, word or compact form, with every operand, hint, guard,
modifier and immediate value that its encoding admits: the bytes of its encoding followed by any bytes decode to it,
with the length of its unit. (R67, R69, R77, R78, R79, R80, R85) -/
def Obligations.DecodeEncodeAgree : Prop :=
  ∀ i : Instr, i.wf = true → (i.hdr?.isSome || i.compact?.isSome) = true → ∀ rest : List Byte,
    decodeBytes (encode i ++ rest) = .instr i (encode i).length

/-- A unit whose bits [1:0] are 0b11 is a fill fault of kind 1; a full or medium unit whose opcode no entry has is ILLOP
with WHY 1 and its opcode; a medium unit with opcode bits [13:12] set is a fill fault of kind 5; a compact unit
decodes to a compact form all of whose used bytes expand, or is a fill fault of kind 2; a full unit without HINT[0],
an immediate and undefined modifier bits whose RND (FADD, FSUB, FMUL, FFMA), COND (ICMP, CMP64) or type (CVTI) is a
reserved value is ILLOP with WHY 5. (R69, R76, R77, R78, R80, R83, R85, R93, R125, R222) -/
def Obligations.UndecodableUnits : Prop :=
  (∀ w : Nat, w % 4 = 3 → decodeUnit w = .fill 1 0)
    ∧ (∀ w : Nat, w % 4 = 2 → (∀ i : Instr, i.hdr?.isSome = true → i.opc ≠ field w 2 10) →
        decodeUnit w = .illop 1 (field w 2 10) 12)
    ∧ (∀ w : Nat, w % 4 = 1 → field w 12 2 = 0 → (∀ i : Instr, i.hdr?.isSome = true → i.opc ≠ field w 2 10) →
        decodeUnit w = .illop 1 (field w 2 10) 8)
    ∧ (∀ w : Nat, w % 4 = 1 → field w 12 2 ≠ 0 → decodeUnit w = .fill 5 8)
    ∧ (∀ w : Nat, w % 4 = 2 → bit w 46 = false → bit w 95 = false →
        (field w 2 10 ∈ [0x080, 0x081, 0x082, 0x083] ∧ 5 < field w 56 3 ∧ field w 59 36 = 0
          ∨ field w 2 10 ∈ [0x01C, 0x020] ∧ 5 < field w 56 3 ∧ field w 60 35 = 0
          ∨ field w 2 10 = 0x021 ∧ (5 < field w 56 3 ∨ 5 < field w 59 3) ∧ field w 63 32 = 0) →
        decodeUnit w = .illop 5 (field w 2 10) 12)
    ∧ (∀ w : Nat, w % 4 = 0 → decodeUnit w = .fill 2 4
        ∨ ∃ i, decodeUnit w = .instr i 4 ∧ i.compact?.isSome = true ∧ i.compactBytes.all compactByteOk = true)

/-- Where the next move is the issue of a bundle that the rules of selection allow, the instruction cache holds a unit
at its PC whose bytes decode to an instruction, the rules of collectives and of the order of training events hold
and no deferral is due: the step is exec of that instruction at the state with the bundle being executed, its
instruction-cache frame the most recently used and the deferrals that the selection ends over, followed by what an
issue leaves behind (counters, the convergence table, retired instructions, formed bundles, single steps) and by
what happens at once whatever the step (pending queues mapped, launches ready, traps STEP taken). (R17, R18, R77,
R82, R91, R257, R278, R285, R286, R301, R304, R311) -/
def Obligations.StepRunsDecodedInstruction : Prop :=
  ∀ (s t : State) (b : Bundle) (ms : List Move) (bytes : List Byte) (n m : Nat) (i : Instr),
    s.agenda = .issue b :: ms →
    let s0 : State := { s with fresh := s.fresh + 1, agenda := ms }
    let s1 := s0.endDeferrals b.quad
    let k0 := b.threads.headD 0
    s0.allows b = true → s1.fetchFor k0 = some (.unit bytes n) → decodeBytes bytes = .instr i m →
    s1.collectiveOk b i = true → s1.trainsInOrder b i = true → s1.deferralDue b i = false →
    exec i { (s1.touchCode (coreOf k0) (s1.grpOf k0).oslot (s1.thr k0).pc) with cur := b } = .next t →
      step s = .next (afterIssue s1 t b i).settled

/-- No state stops the machine: whatever the state holds, the step answers a next state. That traps and faults of
instructions are taken is the spec's; that a move whose precondition does not hold is answered with a next state too
is the model's own choice (log entry 1, DESIGN CHOICE), as the spec says of such a move only that it does not take
place. (R223, R238) -/
def Obligations.EveryStepGoesOn : Prop :=
  ∀ s : State, ∃ t, step s = .next t

/-- After reset no thread, group, block, launch or partition exists and no request is pending; no core has a valid L1
line; every home line has MAXEXP 0 and no stash owner; every page record is NONE; every byte of HBM is 0; and the
package is open. (R237, R374, R394) -/
def Obligations.ResetState : Prop :=
  State.reset.threads = [] ∧ State.reset.groups = [] ∧ State.reset.blocks = [] ∧ State.reset.launches = []
    ∧ State.reset.parts = [] ∧ State.reset.reqs = [] ∧ State.reset.pageRecs = [] ∧ State.reset.pkg.confidential = false
    ∧ (∀ c, (State.reset.coreAt c).l1 = []) ∧ (∀ la, State.reset.maxExpOf la = 0 ∧ State.reset.stashOf la = none)
    ∧ (∀ pa, pa < State.reset.pkg.hbmBytes → State.reset.storedByte pa = 0)

/-- The memory of the reset state is in canonical form: addresses strictly rising, no entry equal to what an unlisted
byte reads as, which is the model's own form (log entry 7); and every pending request of it has a number below the
next one. (R237, R394) -/
def Obligations.ResetMeetsInvariants : Prop :=
  Memory.wf State.reset.mem ∧ State.reset.reqsBelow

/-- From every state whose memory is in canonical form, reached by a run or not, the step leaves a memory in canonical
form, so that equal memories are equal data. The form is the model's own (log entry 7). (R5, R258) -/
def Obligations.MemoryStaysCanonical : Prop :=
  ∀ s t : State, Memory.wf s.mem → step s = .next t → Memory.wf t.mem

/-- From every state whose pending requests have numbers below the next one, the step leaves such a state: no request is
numbered out of the order of issue, by which the order of one thread's accesses is kept. The numbering is the
model's own. (R154, R237, R239) -/
def Obligations.RequestNumbersFollowIssue : Prop :=
  ∀ s t : State, s.reqsBelow → step s = .next t → t.reqsBelow

/-- A step leaves T as it is, or its move is the Tick of R238 and it adds 1 to T, or its move is a power-on reset or the
RESET at CONS of the management ring and T is what it is in the reset state; that this is 0 is the model's choice
(log entry 3, DESIGN CHOICE), as is the order of moves (log entry 1). (R2, R238, R394) -/
def Obligations.TimeMovesOnlyByTickAndReset : Prop :=
  ∀ s t : State, step s = .next t →
    let m := s.agenda.headD (freeMove s.fresh)
    let s1 : State := { s with fresh := s.fresh + 1, agenda := s.agenda.tail }
    t.time = s.time
      ∨ (m = .act .tick ∧ t.time = s.time + 1)
      ∨ ((m = .act .powerOnReset ∨ (m = .command mgmtRing ∧ at' (s1.physRead (s1.recordAt mgmtRing) 64) 0 2 = 71))
          ∧ t.time = State.reset.time)

/-- A step that changes whether the package is in confidential mode leaves no partition, thread, group, block or launch,
no pending request, no page record and no key in a slot, and every byte of HBM is 0: it is the package reset, whose
operand chooses the mode. (R374, R378, R394) -/
def Obligations.ConfidentialModeIsFixed : Prop :=
  ∀ s t : State, step s = .next t → t.pkg.confidential ≠ s.pkg.confidential →
    t.threads = [] ∧ t.groups = [] ∧ t.blocks = [] ∧ t.launches = [] ∧ t.parts = [] ∧ t.reqs = []
      ∧ t.pageRecs = [] ∧ t.pkg.keys = []
      ∧ ∀ pa, pa < t.pkg.hbmBytes → pa < 0x400000000000 → t.storedByte pa = 0

/-- For MOV to BSEL (the class at 0x000), full, medium or compact: at every state where no decode check, LATCH or INDEX
stops a lane, no register it names is awaited and every passing lane commits, exec answers the state that the lanes'
own work in lane order leaves: each passing lane has its rule's result, an s register the value of the highest, with
UDIV by R27; a lane whose guard fails goes past, its latch taking D inside a chain; and every other thread,
register, flag and byte of memory is as before. (R94, R95, R96, R97, R98, R99, R100, R101, R102) -/
def Obligations.IntegerInstructionsComplete : Prop :=
  ∀ i r, intRow (expand i) = some r → r.Completes i

/-- For FADD to F2I, full, medium or compact: at every state where no decode check, LATCH or INDEX stops a lane, no
register it names is awaited and every passing lane commits, exec answers the state that the lanes' own work in lane
order leaves: each passing lane has its rule's result, an s register the value of the highest, with UDIV by R27; a
lane whose guard fails goes past, its latch taking D inside a chain; and every other thread, register, flag and byte
of memory is as before. (R52, R56, R124, R126, R127, R128, R129, R130, R131, R133, R134, R135) -/
def Obligations.FloatInstructionsComplete : Prop :=
  ∀ i r, floatRow (expand i) = some r → r.Completes i

/-- For HADD2 to UNPK, full, medium or compact: at every state where no decode check, LATCH or INDEX stops a lane, no
register it names is awaited and every passing lane commits, exec answers the state that the lanes' own work in lane
order leaves: each passing lane has its rule's result, an s register the value of the highest, with UDIV by R27; a
lane whose guard fails goes past, its latch taking D inside a chain; and every other thread, register, flag and byte
of memory is as before. (R56, R137, R138, R139, R140, R141) -/
def Obligations.PackedInstructionsComplete : Prop :=
  ∀ i r, packedRow (expand i) = some r → r.Completes i

/-- For RSADD to RSPACK, full, medium or compact: at every state where no decode check, LATCH or INDEX stops a lane, no
register it names is awaited and every passing lane commits, exec answers the state that the lanes' own work in lane
order leaves: each passing lane has its rule's result, an s register the value of the highest, with UDIV by R27; a
lane whose guard fails goes past, its latch taking D inside a chain; and every other thread, register, flag and byte
of memory is as before. (R143, R144, R145, R146, R147, R148, R149) -/
def Obligations.RingSetInstructionsComplete : Prop :=
  ∀ i r, ringRow (expand i) = some r → r.Completes i

/-- For the branches that are never predicted, LOOP, NOP, YIELD, SLEEP, the collectives, LDC, FENCE, MFS, MFS.t, HXRD
and the other instructions whose lanes touch only their own thread, full, medium or compact: at every state where no
decode check, LATCH or INDEX stops a lane, no register it names is awaited and every passing lane commits, exec
answers the state that the lanes' own work in lane order leaves: each passing lane has its rule's result, an s
register the value of the highest, with UDIV by R27; a lane whose guard fails goes past, its latch taking D inside a
chain; and every other thread, register, flag and byte of memory is as before. (R104, R105, R108, R117, R118, R119,
R120, R122, R177, R220, R227, R228) -/
def Obligations.OwnThreadInstructionsComplete : Prop :=
  ∀ i r, ownRow (expand i) = some r → r.Completes i

/-- For LD, ST, LDS, STS, LDF, PREF, CINV, ATOM, ATOMC, RED, ATOMSC, ATOMS, ARMW and ARRV, full, medium or compact: at
every state where no decode check, LATCH or INDEX stops a lane, no register it names is awaited and every passing
lane passes the checks of its entry at its turn, exec answers exactly the state that the lanes' work, one after
another in ascending lane order, leaves: each lane's own effect as its row says, the lanes whose guard fails past
the instruction, UDIV where D is an s register, and nothing else. (R152, R153, R154, R158, R159, R160, R162, R164,
R170, R172, R174, R182) -/
def Obligations.AccessesComplete : Prop :=
  ∀ i r, accessRow (expand i) = some r → r.Completes i

/-- For BRA, EXIT, BAR, BARA, LAUNCH, CJOIN, RJEN, RJWAIT, RJLEAVE, LEAD, WAITC and WAITG, full, medium or compact: at
every state where no decode check, LATCH or INDEX stops a lane, no register it names is awaited and every passing
lane passes the checks of its entry at its turn, exec answers exactly the state that the lanes' work, one after
another in ascending lane order, leaves: each lane's own effect as its row says, the lanes whose guard fails past
the instruction, UDIV where D is an s register, and nothing else. (R104, R107, R109, R110, R111, R113, R121, R178,
R182) -/
def Obligations.ControlInstructionsComplete : Prop :=
  ∀ i r, controlRow (expand i) = some r → r.Completes i

/-- For CAPS, CLD, CST, CEND, CADOPT and CQRY, full, medium or compact: at every state where no decode check, LATCH or
INDEX stops a lane, no register it names is awaited and every passing lane passes the checks of its entry at its
turn, exec answers exactly the state that the lanes' work, one after another in ascending lane order, leaves: each
lane's own effect as its row says, the lanes whose guard fails past the instruction, UDIV where D is an s register,
and nothing else. (R184, R185, R186, R187, R188, R189, R190, R344) -/
def Obligations.CapsuleInstructionsComplete : Prop :=
  ∀ i r, capsuleRow (expand i) = some r → r.Completes i

/-- For SMAP, SWB, SINV, the matrix instructions, TCOPY, GATH, SCAT, RCFENCE, CPWAIT and the cursor instructions, full,
medium or compact: at every state where no decode check, LATCH or INDEX stops a lane, no register it names is
awaited and every passing lane passes the checks of its entry at its turn, exec answers exactly the state that the
lanes' work, one after another in ascending lane order, leaves: each lane's own effect as its row says, the lanes
whose guard fails past the instruction, UDIV where D is an s register, and nothing else. (R166, R167, R195, R196,
R201, R206, R207, R209, R211, R212, R213, R214) -/
def Obligations.EngineInstructionsComplete : Prop :=
  ∀ i r, engineRow (expand i) = some r → r.Completes i

/-- For the bank operations, XRET, MTS, MTS.t, BKPT under a claim, DBGMSG, PMARK, QNTF, IPREF, RSRING and the rest of
the system class, full, medium or compact: at every state where no decode check, LATCH or INDEX stops a lane, no
register it names is awaited and every passing lane passes the checks of its entry at its turn, exec answers exactly
the state that the lanes' work, one after another in ascending lane order, leaves: each lane's own effect as its row
says, the lanes whose guard fails past the instruction, UDIV where D is an s register, and nothing else. (R150,
R217, R218, R219, R220, R221, R226, R228, R229, R233, R234) -/
def Obligations.SystemInstructionsComplete : Prop :=
  ∀ i r, systemRow (expand i) = some r → r.Completes i

/-- For Evict, Read-L1, Read-home, Recall, Write-home, RMW-home, Ticket, Sluice-op, Grant, the returns of values and
GWCTs, host-path completions and time-outs, evictions, window fills and capsule commits: at every state where its
precondition holds, exec answers exactly the state that the row gives, as a change of the state before and of
nothing else. (R167, R174, R185, R237, R238, R239, R246, R247, R248, R260, R348) -/
def Obligations.LeaseMachineStepsComplete : Prop :=
  ∀ i r, memoryEvent i = some r → r.Completes i

/-- For the parts and ends of engine and matrix operations, ring builds, bank operations, instruction-cache fills, CAPS
retries, sleeps and deferrals: at every state where its precondition holds, exec answers exactly the state that the
row gives, as a change of the state before and of nothing else. (R65, R82, R108, R195, R196, R206, R210, R211, R285,
R292, R350) -/
def Obligations.EngineStepsComplete : Prop :=
  ∀ i r, unitEvent i = some r → r.Completes i

/-- For notifies, mapping, record consumption, readiness, placement, continuations, child launches and completion: at
every state where its precondition holds, exec answers exactly the state that the row gives, as a change of the
state before and of nothing else. (R297, R299, R301, R302, R303, R305, R307, R309, R310, R314) -/
def Obligations.DispatcherStepsComplete : Prop :=
  ∀ i r, dispatchEvent i = some r → r.Completes i

/-- For the saves, restores, collections, timers and replays of contexts (the writing of a frame has two outcomes: its
next bytes are written, or, where their place in the save area faults, nothing is and the core stays frozen, waiting
on a fault record): at every state where its precondition holds, exec answers exactly the state that the row gives,
as a change of the state before and of nothing else. (R322, R323, R325, R326, R327, R328, R333, R334, R335) -/
def Obligations.ContextEngineStepsComplete : Prop :=
  ∀ i r, contextEvent i = some r → r.Completes i

/-- For PREEMPT, RESTORE, REPLAY, ABORT and PTIMER: at every state where its precondition holds, exec answers exactly
the state that the row gives, as a change of the state before and of nothing else. (R322, R328, R334, R335, R369,
R371) -/
def Obligations.ContextCommandsComplete : Prop :=
  ∀ i r, contextCommand i = some r → r.Completes i

/-- For the four invalidations of translations: at every state where its precondition holds, exec answers exactly the
state that the row gives, as a change of the state before and of nothing else. (R271, R369, R371) -/
def Obligations.InvalidationCommandsComplete : Prop :=
  ∀ i r, invalidateCommand i = some r → r.Completes i

/-- For SET_FAULTQ, SET_TABLES, SET_SLUICE_OVF, SET_REGION, PAGE_REC, SCRUB and QRESUME: at every state where its
precondition holds, exec answers exactly the state that the row gives, as a change of the state before and of
nothing else. (R264, R303, R318, R341, R370, R371, R379) -/
def Obligations.TableCommandsComplete : Prop :=
  ∀ i r, tableCommand i = some r → r.Completes i

/-- For KEYGEN, KEYLOAD, KEYDROP, ATTEST and IDCERT (a KEYLOAD whose blob fails the unwrap check answers DENIED, an
IDCERT whose chain does not fit BADARG, and both change nothing else): at every state where its precondition holds,
exec answers exactly the state that the row gives, as a change of the state before and of nothing else. (R371, R380,
R381, R382) -/
def Obligations.KeyCommandsComplete : Prop :=
  ∀ i r, keyCommand i = some r → r.Completes i

/-- For the opening, closing, sending and receiving of brine channels (each step of a slot in progress, and its failure,
which puts the channel into DESYNC: a check, a part that does not translate, a device counter out of reach, or a
host that does not answer in time): at every state where its precondition holds, exec answers exactly the state that
the row gives, as a change of the state before and of nothing else. (R385, R386, R387, R388, R389) -/
def Obligations.BrineStepsComplete : Prop :=
  ∀ i r, brineEvent i = some r → r.Completes i

/-- For the creation and destruction of partitions, core assignment, page, region, link and power commands, RESET, and
the requests of remote packages: at every state where its precondition holds, exec answers exactly the state that
the row gives, as a change of the state before and of nothing else. (R368, R372, R373, R374, R376, R390, R391, R394) -/
def Obligations.PackageCommandsComplete : Prop :=
  ∀ i r, packageEvent i = some r → r.Completes i

/-- For Tick, the power interval, the commands of the debug monitor, stall samples, host writes and memory errors: at
every state where its precondition holds, exec answers exactly the state that the row gives, as a change of the
state before and of nothing else. (R180, R238, R276, R391, R396, R399, R400, R401, R402, R403, R405, R406) -/
def Obligations.PowerDebugAndHostStepsComplete : Prop :=
  ∀ i r, machineEvent i = some r → r.Completes i

/-- For MOV to BSEL and FADD to F2I, full: at every state where each thread of the bundle stands at user privilege at
its capsule's expected step, the instruction and its operands are permitted, no decode check, LATCH or INDEX stops a
lane, no register it names is awaited, no passing lane raises an event that its fpc enables, and the record at CAPR
translates: exec answers the state that the commits leave, sent in lane order with the destinations they would write
(none where the guard fails), the flags of a passing lane in its fps; no register and no PC of a thread differs
until Sluice answers. (R56, R68, R185, R348) -/
def Obligations.CapsuleStepsAreSent : Prop :=
  ∀ i r, (intRow i = some r ∨ floatRow i = some r) → ∀ s : State, ascending s.cur.threads = true →
    (∀ k ∈ s.cur.threads, r.atStep s k = true) → s.operandsOk r.h r.fm = true →
    lanesPass r.h (r.stepOut s) (fun u k v => (r.sends s u k v).isSome) (r.turns s) s = true →
    (∀ k ∈ s.passing r.h, ∀ v, s.operands k r.h r.fm = .ok v → r.ok s k v = true) →
    let t := (Run.mk (lanesRun r.h (r.stepOut s) (r.turns s) s) (s.passing r.h) []).finish s r.h r.fm (s.passing r.h)
    exec i s = .next t ∧ (∀ k, (t.thr k).regs = (s.thr k).regs ∧ (t.thr k).preds = (s.thr k).preds ∧ (t.thr k).pc = (s.thr k).pc)
      ∧ ∀ k ∈ s.cur.threads, (t.thr k).state = .stalled .sluice

/-- A write of the host to the doorbell aperture, on the page of a partition that exists: at 8·q, q a queue of the
partition, it is the notify of q; at 0x8000 + 16·c it is PROD of brine channel c, and 8 bytes further, with bit 0
set, the request to leave DESYNC; at 0x8400 it is PROD of the control ring; at 0x8600 CONS of the fault queue; at
0x8800 it attaches or detaches the debug monitor by [63:62]; and at 0x8400 of page 16 it is PROD of the management
ring. (R297, R318, R367, R386, R396) -/
def Obligations.DoorbellWordsReachTheirRegisters : Prop :=
  ∀ (s : State) (p value : Nat), s.hasRing p = true → p < 16 →
    let low := value % 2 ^ 32
    (∀ q, q < 4096 → (s.partAt p).hasQueue q = true → doorbellMove (65536 * p + 8 * q) value s = exec (.notify q low) s)
      ∧ (∀ c, c < 64 → doorbellMove (65536 * p + 0x8000 + 16 * c) value s = exec (.brineProdWrite p c low) s
          ∧ (bit value 0 = true → doorbellMove (65536 * p + 0x8008 + 16 * c) value s = exec (.brineDesyncClear p c) s))
      ∧ doorbellMove (65536 * p + 0x8400) value s = .next (s.modPart p fun P => { P with ctlProd := low })
      ∧ doorbellMove (65536 * p + 0x8600) value s = exec (.faultqConsWrite p low) s
      ∧ (field value 62 2 = 1 → doorbellMove (65536 * p + 0x8800) value s = exec (.attach p (value % 2 ^ 48)) s)
      ∧ (field value 62 2 = 2 → doorbellMove (65536 * p + 0x8800) value s = exec (.detach p) s)
      ∧ doorbellMove (65536 * 16 + 0x8400) value s = .next (s.modPkg fun g => { g with mgmtProd := low })

/-- TRAP takes every passing lane at user privilege to its handler with cause 19, BKPT with cause 17 where the monitor
has not claimed breakpoints: xinfo holds b, xpc the instruction's own address, xstat the length of its unit, and
nothing else in the machine differs but that a lane whose guard fails goes past. Where breakpoints are claimed,
every passing lane becomes Stopped at the BKPT. (R33, R223, R225, R401) -/
def Obligations.TrapAndBreakpointTrap : Prop :=
  (∀ (h : Hdr) (s : State), s.clears 0x2C6 h fmB anyone = true → s.operandsOk h fmB = true →
      (∀ k ∈ s.passing h, (s.thr k).handler = false) →
      Answers (exec (.trapI h) s) (AllTrap s h fmB 19 fun _ v => v.b % 2 ^ 32))
    ∧ (∀ (h : Hdr) (s : State), s.clears 0x2CA h fmB anyone = true → s.operandsOk h fmB = true →
      (∀ k ∈ s.passing h, (s.thr k).handler = false ∧ s.claimed k = false) →
      Answers (exec (.bkpt h) s) (AllTrap s h fmB 17 fun _ v => v.b % 2 ^ 32))
    ∧ (∀ (h : Hdr) (s : State), s.clears 0x2CA h fmB anyone = true → s.operandsOk h fmB = true →
      (∀ k ∈ s.passing h, s.claimed k = true) →
      Answers (exec (.bkpt h) s) fun t => ∀ k ∈ s.passing h, (t.thr k).stopped = true ∧ (t.thr k).pc = (s.thr k).pc)

/-- A thread at user privilege that traps goes on at %tvec + 64 × cause (mod 2^48) at handler privilege; xpc holds its
PC, xcause the cause, xinfo the detail, xstat LEN, CPOS and CHN with PPRV 0; its registers, predicates, index
registers, fpc and fps are unchanged; every other thread and everything else in the machine is as before. (R223) -/
def Obligations.TrapEntry : Prop :=
  ∀ (s : State) (t0 : Thread) (k cause info len : Nat) (chn : Bool), s.threads.find k = some t0 → t0.handler = false →
    cause < 2 ^ 32 → len < 4 → t0.latch.length < 8 → t0.pc < 2 ^ 48 → info < 2 ^ 64 →
    let t := (s.trap k cause info len chn).thr k
    t.pc = ((s.slotOfThread k).tvec + 64 * cause) % 2 ^ 48 ∧ t.handler = true
      ∧ t.trap.xpc.toNat = t0.pc ∧ t.trap.xcause.toNat = cause ∧ t.trap.xinfo.toNat = info
      ∧ field t.trap.xstat.toNat 8 2 = len ∧ bit t.trap.xstat.toNat 3 = false
      ∧ field t.trap.xstat.toNat 5 3 = (if chn then t0.latch.length else 0) ∧ bit t.trap.xstat.toNat 4 = chn
      ∧ t.regs = t0.regs ∧ t.preds = t0.preds ∧ t.ks = t0.ks ∧ t.fpc = t0.fpc ∧ t.fps = t0.fps ∧ t.trap.z = t0.trap.z
      ∧ s.trap k cause info len chn = { s with threads := (s.trap k cause info len chn).threads }
      ∧ ∀ j, j ≠ k → (s.trap k cause info len chn).threads.find j = s.threads.find j

/-- A trap raised by a thread at H posts a DOUBLE record with the cause, the PC, xinfo and the thread's owner, core,
quadrant and slot, and parks the thread under its SEQ, a party waiting on it for that PC; its PC, privilege,
registers and banked trap state are as they were. So does TRAP at H in every passing lane, and an instruction of the
class at 0x000 whose every thread stands at H and fails a decode check. That what the unfinished instruction had
read is forgotten is the model's reading (log entry 11, DEDUCED). (R224, R225, R319) -/
def Obligations.TrapAtHandlerPrivilegeParks : Prop :=
  (∀ (s : State) (t0 : Thread) (k cause info len : Nat) (chn : Bool), s.threads.find k = some t0 → t0.handler = true →
      ∃ r : FaultRec, r.kind = 6 ∧ r.detail = cause ∧ r.va = t0.pc ∧ r.pc = t0.pc ∧ r.xinfo = info % 2 ^ 32
        ∧ r.owner = (s.slotOfThread k).owner ∧ r.core = coreOf k ∧ r.quad = quadOf k ∧ r.slot = slotOf k
        ∧ let u := s.post (s.partOf (coreOf k)) r (some (.double k t0.pc))
          let t := s.trap k cause info len chn
          t = u.1.modThr k (fun x => { x with state := .parked u.2, memo := [] })
            ∧ t.thr k = { t0 with state := .parked u.2, memo := [] }
            ∧ ((s.parts.find (s.partOf (coreOf k))).isSome = true →
                (t.partAt (s.partOf (coreOf k))).parked.find u.2 = some (.double k t0.pc)))
    ∧ (∀ (h : Hdr) (s : State), s.clears 0x2C6 h fmB anyone = true → s.operandsOk h fmB = true →
      (∀ k ∈ s.passing h, (s.thr k).handler = true) →
      Answers (exec (.trapI h) s) fun t =>
        (∀ k ∈ s.passing h, ∃ seq, t.threads.find k = some { s.thr k with state := .parked seq, memo := [] })
          ∧ (∀ k ∈ s.cur.threads, (s.thr k).guard h = false → t.threads.find k = (s.goesOn k h).threads.find k)
          ∧ ∀ k, k ∉ s.cur.threads → t.threads.find k = s.threads.find k)
    ∧ (∀ i r, intRow i = some r → ∀ s : State, ascending s.cur.threads = true →
      (∀ k ∈ s.cur.threads, (s.threads.find k).isSome = true ∧ (s.thr k).handler = true
        ∧ (decodeTrap s r.opc r.h r.fm anyone k).isSome = true) →
      Answers (exec i s) fun t =>
        (∀ k ∈ s.cur.threads, ∃ seq, t.threads.find k = some { s.thr k with state := .parked seq, memo := [] })
          ∧ ∀ k, k ∉ s.cur.threads → t.threads.find k = s.threads.find k)

/-- For every thread at user privilege: trap entry at any cause and then the return to xpc that XRET makes leave its PC,
privilege, registers, predicates, fpc, fps and every other field as they were before the trap, its latches and the
chain it stood in included; only the banked trap state holds what the trap wrote, the thread is Ready since the
trap, and a trap STEP that was due is no longer due. That what the unfinished instruction had read is forgotten, so
that it starts again, is the model's reading (log entry 11, DEDUCED). (R33, R75, R223, R226) -/
def Obligations.ReturnAfterTrapRestores : Prop :=
  ∀ (s : State) (t0 : Thread) (k cause info len : Nat), s.threads.find k = some t0 → t0.handler = false →
    t0.latch.length < 8 → t0.pc < 2 ^ 48 → t0.chain = (t0.latch.length != 0) → len < 4 →
    let u := s.trap k cause info len t0.chain
    (u.trapReturn k (addr48 (u.thr k).trap.xpc.toNat)).thr k
      = { t0 with trap := (u.thr k).trap, state := .ready, readyAt := s.time, memo := [], counted := false
                  stepTrap := t0.stepTrap && !t0.stepDue, stepDue := false }

/-- For the word instructions of the integer, float, access and system tables, in a state whose request numbers lie
below the next one (RequestNumbersFollowIssue): where every thread of the bundle fails one of the decode checks,
none of them at H or in a chain, each traps with the cause and xinfo of the first check that fails (ILLOP for a
chain rule, PROT for a privileged form at user privilege, ILLOPD for an operand code), whether or not its guard
passes, and nothing else in the machine differs. (R34, R71, R72, R75, R76, R222) -/
def Obligations.DecodeChecksTrap : Prop :=
  ∀ (i : Instr) (opc : Nat) (h : Hdr) (fm : Form) (prot : State → Nat → Bool),
    ((intRow i).map (fun r => (r.opc, r.h, r.fm)) = some (opc, h, fm) ∧ prot = anyone
      ∨ (floatRow i).map (fun r => (r.opc, r.h, r.fm)) = some (opc, h, fm) ∧ prot = anyone
      ∨ (accessRow i).map (fun r => (r.opc, r.h, r.fm)) = some (opc, h, fm) ∧ prot = anyone
      ∨ (∃ r, systemRow i = some r ∧ opc = r.opc ∧ h = r.h ∧ fm = r.fm ∧ prot = r.prot ∧ r.pre = id)) →
    ∀ s : State, s.reqsBelow → ascending s.cur.threads = true →
      (∀ k ∈ s.cur.threads, (s.threads.find k).isSome = true ∧ (s.thr k).handler = false ∧ (s.thr k).chain = false
        ∧ h.chain = false ∧ (decodeTrap s opc h fm prot k).isSome = true) →
      Answers (exec i s) fun t => OnlyThreadsOf s t
        ∧ (∀ k ∈ s.cur.threads, ∀ c x, decodeTrap s opc h fm prot k = some (c, x) →
            t.threads.find k = some (trappedThread s k c x h))
        ∧ (∀ k, k ∉ s.cur.threads → t.threads.find k = s.threads.find k)

/-- For every instruction of the class at 0x000 outside a chain: a passing lane that reads a latch outside its chain or
an index at or past its limit traps with that cause and xinfo and writes nothing, while every other passing lane has
its result. (R24, R25, R76, R91, R222) -/
def Obligations.LatchOrIndexFaultTrapsAlone : Prop :=
  ∀ i r, intRow (expand i) = some r → ∀ s : State, s.clears r.opc r.h r.fm r.prot = true → r.h.chain = false →
    (∀ k ∈ s.cur.threads, (s.thr k).chain = false ∧ (s.thr k).handler = false) →
    Answers (exec i s) fun t => OnlyThreads s t
      ∧ (∀ k ∈ s.passing r.h, ∀ c x, s.operands k r.h r.fm = .error (c, x) → t.threads.find k = some (trappedThread s k c x r.h))
      ∧ (∀ k ∈ s.passing r.h, ∀ v, s.operands k r.h r.fm = .ok v →
          t.threads.find k = ((r.eff s (s.laneValues r.h r.fm) k v s).after r.h k s).threads.find k)

/-- MOV to an s register, at a state where nothing stops a lane: in each group that has a passing lane in the bundle the
register holds the value of the highest-numbered of them; UDIV of the group is set if the passing threads are not
all of its live threads, and is otherwise as it was; no other s register of it differs; and a group with no passing
lane is unchanged. (R27, R71) -/
def Obligations.UniformWriteTakesHighestLane : Prop :=
  ∀ (h : Hdr) (s : State) (n : Nat), h.d.toNat = 256 + n → n < 64 → s.clears 0x000 h fmWV anyone = true →
    s.operandsOk h fmWV = true → h.chain = false → h.nowb = false → (∀ k ∈ s.cur.threads, (s.thr k).chain = false) →
    Answers (exec (.mov h false) s) fun t => ∀ g G, s.groups.find g = some G → G.s.length = 64 →
      (∀ k v, ((s.laneValues h fmWV).filter fun l => groupOf l.1 == g).getLast? = some (k, v) →
        (t.grp g).s.getD n 0 = BitVec.ofNat 32 v.a
          ∧ (t.grp g).udiv = (G.udiv || G.live != laneMask ((s.passing h).filter fun j => groupOf j == g))
          ∧ ∀ m, m ≠ n → (t.grp g).s.getD m 0 = G.s.getD m 0)
      ∧ ((∀ k ∈ s.passing h, groupOf k ≠ g) → t.groups.find g = some G)

/-- MOV from an s register in a bundle of one group whose UDIV is 1 under UDIVT = 1: every passing thread at user
privilege traps with cause 8 and xinfo 0 and writes nothing; the group's UDIV is 0 after, and every other field of
the group and every other group is unchanged. (R28, R222) -/
def Obligations.PendingDivergenceTraps : Prop :=
  ∀ (h : Hdr) (s : State) (g : Nat) (G : Group), 256 ≤ h.a.toNat → h.a.toNat < 320 → s.groups.find g = some G →
    s.udivTraps g = true → ascending s.cur.threads = true → h.chain = false → s.passing h ≠ [] →
    (∀ k ∈ s.cur.threads, groupOf k = g ∧ (s.threads.find k).isSome = true ∧ (s.thr k).handler = false
      ∧ (s.thr k).chain = false ∧ decodeTrap s 0x000 h fmWV anyone k = none ∧ s.busy k h fmWV = false
      ∧ (s.thr k).inCapsule = false) →
    Answers (exec (.mov h false) s) fun t => OnlyThreads s t
      ∧ (∀ k ∈ s.passing h, t.threads.find k = some (trappedThread s k 8 0 h))
      ∧ t.groups.find g = some { G with udiv := false } ∧ (∀ j, j ≠ g → t.groups.find j = s.groups.find j)

/-- FADD outside a chain, where each passing lane at user privilege raises an event that its fpc enables: each traps
with cause 7 and the xinfo of R222, its fps takes every flag whose event occurred, and its destination and every
other register are as they were. (R55, R56, R222) -/
def Obligations.EnabledEventTraps : Prop :=
  ∀ (h : Hdr) (rnd : BitVec 3) (s : State) (x : Nat → Nat), s.clears 0x080 h fmWVV anyone = true → s.operandsOk h fmWVV = true →
    h.chain = false →
    let ev (k : Nat) (v : Vals) : Events :=
      let c := (s.thr k).rctx (laneOf k) rnd.toNat 0
      (valAdd .f32 c (c.f32 v.a) (c.f32 v.b)).2
    (∀ k ∈ s.cur.threads, (s.thr k).handler = false ∧ (s.thr k).chain = false ∧ (s.thr k).inCapsule = false) →
    (∀ k ∈ s.passing h, ∀ v, s.operands k h fmWVV = .ok v → nonfinite (s.thr k).fpc [ev k v] 0 = some (x k)) →
    Answers (exec (.fadd h rnd) s) fun t => OnlyThreadsOf s t
      ∧ ∀ k ∈ s.passing h, ∀ v, s.operands k h fmWVV = .ok v →
          t.threads.find k = some (trappedThread (s.modThr k fun u => u.orFps (ev k v)) k 7 (x k) h)

/-- LD and ST whose every passing lane at user privilege forms an effective address that is no multiple of the access
size: each lane traps with cause 5 and the address in xinfo, no request is sent, no byte of memory and no register
differs, and a lane whose guard fails goes past. (R152, R153, R155, R222) -/
def Obligations.MisalignedAccessTraps : Prop :=
  (∀ (h : Hdr) (sz : BitVec 3) (acq : Bool) (sc : BitVec 3) (nl : Bool) (s : State),
      let fm : Form := ⟨szCls .w sz.toNat, .x2, .v, false, true, [], false⟩
      s.reqsBelow → s.clears 0x180 h fm anyone = true → s.operandsOk h fm = true →
      (∀ k ∈ s.cur.threads, (s.thr k).handler = false ∧ (s.thr k).inCapsule = false) →
      (∀ k ∈ s.passing h, ∀ v, s.operands k h fm = .ok v → effAddr v.a v.b % szBytes sz.toNat ≠ 0) →
      Answers (exec (.ld h sz acq sc nl) s) (AllTrap s h fm 5 fun _ v => effAddr v.a v.b))
    ∧ (∀ (h : Hdr) (sz : BitVec 3) (rel : Bool) (sc : BitVec 3) (s : State),
      let fm : Form := ⟨szCls .v sz.toNat, .x2, .v, true, false, [], false⟩
      s.clears 0x181 h fm anyone = true → s.operandsOk h fm = true →
      (∀ k ∈ s.cur.threads, (s.thr k).handler = false ∧ (s.thr k).inCapsule = false) →
      (∀ k ∈ s.passing h, ∀ v, s.operands k h fm = .ok v → effAddr v.a v.b % szBytes sz.toNat ≠ 0) →
      Answers (exec (.st h sz rel sc) s) (AllTrap s h fm 5 fun _ v => effAddr v.a v.b))

/-- For every pair A and word b, the effective address of a global or generic operand is (A[47:0] + SignExtend64(b)) mod
2^48: it does not depend on A[63:48]. (R152) -/
def Obligations.EffectiveAddress : Prop :=
  ∀ (a : BitVec 64) (b : BitVec 32),
    effAddr a.toNat b.toNat = ((a.truncate 48 : BitVec 48) + ((b.signExtend 64).truncate 48 : BitVec 48)).toNat

/-- For every access instruction at a state where it completes: the next state's bytes of HBM and host memory, its
scratchpad bytes and its home lines are those before. (R155, R237, R238) -/
def Obligations.AccessIssueKeepsMemory : Prop :=
  ∀ i r, accessRow (expand i) = some r → ∀ s : State, s.clears r.opc r.h r.fm r.prot = true → s.operandsOk r.h r.fm = true →
    lanesPass r.h (r.out s (s.laneValues r.h r.fm)) (r.ok s (s.laneValues r.h r.fm)) (s.laneValues r.h r.fm) s = true →
    Answers (exec i s) fun t => t.mem = s.mem ∧ t.homes = s.homes ∧ (∀ pa, t.storedByte pa = s.storedByte pa)
      ∧ (∀ b, (t.blk b).spad = (s.blk b).spad)

/-- The Write-home of a pending store to ordinary HBM, in a line that no window owns and no region view is derived from,
none of its bytes in a capsule record: byte i of the data stands at the address plus i, every other byte of memory
reads as before, and the request is performed with GWCT = max(T, MAXEXP of the line) + 1. (R5, R154, R159, R238) -/
def Obligations.StorePerformsAtHome : Prop :=
  ∀ (s : State) (r : Nat) (q : Req) (bs : List Byte), Memory.wf s.mem → s.openReq r .home = some q → q.kind = .store bs →
    bs.length = q.size → q.pa % 128 + bs.length ≤ 128 → q.pa + bs.length ≤ s.pkg.hbmBytes → s.stashOf (q.pa / 128) = none →
    s.undef.find (q.pa / 65536) = none → s.regions.all (fun g => !g.en) = true →
    (∀ i, i < bs.length → s.isRecord (q.pa + i) = false) →
    ∃ t, exec (.writeHome r) s = .next t
      ∧ (∀ i, i < bs.length → t.storedByte (q.pa + i) = bs.getD i 0)
      ∧ (∀ a, a < q.pa ∨ q.pa + bs.length ≤ a → t.storedByte a = s.storedByte a)
      ∧ (t.reqs.find r).map (·.state) = some (.performed 0 (max s.time (s.maxExpOf (q.pa / 128)) + 1))

/-- The RMW-home of a pending 32-bit atomic on ordinary HBM, in a line that no window owns and no region view is derived
from, its word in no poisoned block and no capsule record: the request is performed with the old value, the word
then holds the value of the operation on it, and every other byte of memory reads as before. (R154, R170, R238) -/
def Obligations.AtomicPerformsAtHome : Prop :=
  ∀ (s : State) (r : Nat) (q : Req) (op ty b cmp : Nat) (d : Option Dest) (sc : Bool), Memory.wf s.mem →
    s.openReq r .home = some q → q.kind = .atomic op ty b cmp d sc → q.size = 4 → q.pa % 128 + 4 ≤ 128 →
    q.pa + 4 ≤ s.pkg.hbmBytes → s.stashOf (q.pa / 128) = none → s.isPoisoned q.pa 4 = false →
    s.undef.find (q.pa / 65536) = none → s.regions.all (fun g => !g.en) = true →
    (∀ i, i < 4 → s.isRecord (q.pa + i) = false) →
    ∃ t, exec (.rmwHome r) s = .next t
      ∧ t.stored q.pa 4 = atomNew op ty (s.stored q.pa 4) b cmp % 2 ^ 32
      ∧ (∀ a, a < q.pa ∨ q.pa + 4 ≤ a → t.storedByte a = s.storedByte a)
      ∧ ∃ g, (t.reqs.find r).map (·.state) = some (.performed (s.stored q.pa 4) g)

/-- HXCLR at a state where it completes, by its lowest passing lane: with TBL = 0 the bank becomes the cleared bank of
R42; otherwise every BOT counter is 1 and every GHR 0 where bit 0 is set, every SPT entry has its cleared value
where bit 1 is, every RIP counter is 1 where bit 2 is, every CHT entry is 0 where bit 3 is, and the configuration
word and the other tables are as before; no L1 line of the core differs. (R219) -/
def Obligations.HistoryClearClearsItsTables : Prop :=
  ∀ (h : Hdr) (tbl : BitVec 4) (s : State) (l : Nat) (v : Vals) (rest : Lanes),
    let fm : Form := ⟨.none, .none, .none, false, false, [], false⟩
    s.clears 0x2C2 h fm anyone = true → s.operandsOk h fm = true → s.laneValues h fm = (l, v) :: rest →
    (∀ k ∈ s.passing h, s.bankBusy k = false) → (s.grpOf l).oslot < (s.coreAt (coreOf l)).oslots.length →
    Answers (exec (.hxclr h tbl) s) fun t =>
      let old := (s.slotAt (coreOf l) (s.grpOf l).oslot).bank
      let new := (t.slotAt (coreOf l) (s.grpOf l).oslot).bank
      let all := tbl == 0
      new.bot = (if all || tbl.getLsbD 0 then List.replicate 4 (List.replicate 256 1) else old.bot)
        ∧ new.ghr = (if all || tbl.getLsbD 0 then [0, 0, 0, 0] else old.ghr)
        ∧ new.spt = (if all || tbl.getLsbD 1 then (List.range 32).map (fun e => ⟨31 - e, false, 0, 0, 0, 0⟩) else old.spt)
        ∧ new.rip = (if all || tbl.getLsbD 2 then List.replicate 128 1 else old.rip)
        ∧ new.cht = (if all || tbl.getLsbD 3 then List.replicate 4 (List.replicate 64 ⟨false, 0, 0⟩) else old.cht)
        ∧ new.conf = (if all then 0x40F1 else old.conf)
        ∧ (t.slotAt (coreOf l) (s.grpOf l).oslot).busy = true ∧ ∀ c, (t.coreAt c).l1 = (s.coreAt c).l1

/-- PMARK at a state where nothing stops a lane: the mark of every group that has a passing lane is b[15:0] of the
highest-numbered of them; every other field of that group and every other group are unchanged, every thread of the
bundle goes past the instruction, no thread outside it differs, and nothing else in the machine does. (R230) -/
def Obligations.PerformanceMarkTakesHighestLane : Prop :=
  ∀ (h : Hdr) (s : State), s.clears 0x2CC h fmB anyone = true → s.operandsOk h fmB = true →
    Answers (exec (.pmark h) s) fun t => t = { s with threads := t.threads, groups := t.groups }
      ∧ (∀ k ∈ s.cur.threads, t.threads.find k = (s.goesOn k h).threads.find k)
      ∧ (∀ k, k ∉ s.cur.threads → t.threads.find k = s.threads.find k)
      ∧ ∀ g G, s.groups.find g = some G →
        (∀ k v, ((s.laneValues h fmB).filter fun l => groupOf l.1 == g).getLast? = some (k, v) →
          t.groups.find g = some { G with mark := BitVec.ofNat 16 v.b })
        ∧ ((∀ k ∈ s.passing h, groupOf k ≠ g) → t.groups.find g = some G)

/-- The release test of barrier j of a group, where the enrolled mask is not 0 and equals the arrived mask: both masks
become 0; every thread of the group that waits at RJWAIT on j becomes Ready, one that the debug monitor has stopped
having no wait left when it continues; every other thread is as before; the other barriers of the group keep their
masks; and memory is unchanged. Where the masks differ or are 0 nothing changes. (R29, R113, R400) -/
def Obligations.RejoinBarrierReleases : Prop :=
  ∀ (s : State) (g j : Nat) (G : Group), s.groups.find g = some G → j < G.enrolled.length → j < G.arrived.length →
    if G.enrolled.getD j 0 ≠ 0 ∧ G.arrived.getD j 0 = G.enrolled.getD j 0 then
      (∃ G', (s.testRejoin g j).groups.find g = some G' ∧ G'.enrolled = G.enrolled.set j 0 ∧ G'.arrived = G.arrived.set j 0)
        ∧ (∀ k t, s.threads.find k = some t →
            (s.testRejoin g j).threads.find k
              = some (if groupOf k = g ∧ t.state = .waiting (.rejoin j) then
                  if t.isStopped then { t with state := .waiting .none } else { t with state := .ready, readyAt := s.time }
                else t))
        ∧ (s.testRejoin g j).mem = s.mem ∧ (s.testRejoin g j).reqs = s.reqs
    else s.testRejoin g j = s

/-- IADD, ISUB, IMUL, IMULH, IMAD, IABS, INEG, IMIN and IMAX form the exact integer v of R94 from operands read signed
or unsigned as U says, and D takes v modulo 2^N, v clamped to the N-bit type with SAT, or the high word of the
product. The values are written apart from the model's own computation, over integers and bit vectors; registers,
flags and memory beyond D are unchanged, whatever the form, guard and lane. (R94) -/
def Obligations.ArithmeticRule : Prop :=
  ∀ i r, arithRule (expand i) = some r → r.Completes i

/-- IADC adds a, b or its complement, and the carry p[CP]; D takes the sum modulo 2^32 and then p[CP] the carry, p7
discarding it; where D and CP name one predicate, the carry is left in it. The values are written apart from the
model's own computation, over integers and bit vectors; registers, flags and memory beyond D are unchanged, whatever
the form, guard and lane. (R95) -/
def Obligations.CarryRule : Prop :=
  ∀ i r, carryRule (expand i) = some r → r.Completes i

/-- MOV writes A or the pair A, MOVI its immediate, SEL A or B by p[SP] XOR SN; AND, OR, XOR, ANDN and NOT work bit by
bit; SHL, SHR and SAR shift by b and give 0, 0 or the sign for 32 and more; ROTL rotates by b mod 32. The values are
written apart from the model's own computation, over integers and bit vectors; registers, flags and memory beyond D
are unchanged, whatever the form, guard and lane. (R96) -/
def Obligations.LogicAndShiftRule : Prop :=
  ∀ i r, logicRule (expand i) = some r → r.Completes i

/-- With pos = b[7:0], len = b[15:8] and e = min(pos + len, 32): BFX writes bits e − 1 … pos of a, filled above with 0
or with bit e − 1, and 0 for an empty field; BFI writes d with those bits replaced by the low bits of a, and d for
an empty field. The values are written apart from the model's own computation, over integers and bit vectors;
registers, flags and memory beyond D are unchanged, whatever the form, guard and lane. (R97) -/
def Obligations.BitFieldRule : Prop :=
  ∀ i r, fieldRule (expand i) = some r → r.Completes i

/-- POPC counts the ones of a; CLZ and CTZ count the zeros above its highest and below its lowest one, 32 where a is 0;
BREV moves bit i to bit 31 − i. The values are written apart from the model's own computation, over integers and bit
vectors; registers, flags and memory beyond D are unchanged, whatever the form, guard and lane. (R98) -/
def Obligations.BitCountRule : Prop :=
  ∀ i r, countRule (expand i) = some r → r.Completes i

/-- ICMP compares two words and CMP64 two pairs, signed or unsigned as U says, and D takes 1 where COND holds and 0
otherwise, a predicate that bit; PLOP writes LUT[2·pA + pB]. The values are written apart from the model's own
computation, over integers and bit vectors; registers, flags and memory beyond D are unchanged, whatever the form,
guard and lane. (R99) -/
def Obligations.ComparisonRule : Prop :=
  ∀ i r, compareRule (expand i) = some r → r.Completes i

/-- LEA writes (A + (ext(b) × 2^SC)) mod 2^64, b sign-extended where U = 0 and zero-extended where U = 1; ADD64 writes
(A + B) or (A − B) mod 2^64. The values are written apart from the model's own computation, over integers and bit
vectors; registers, flags and memory beyond D are unchanged, whatever the form, guard and lane. (R100) -/
def Obligations.AddressRule : Prop :=
  ∀ i r, addressRule (expand i) = some r → r.Completes i

/-- CVTI reads the low bits of a by type ST, takes the value modulo 2^w in the signedness of DT or, with SAT, clamps it
to the range of DT, and writes it extended to 32 bits. The values are written apart from the model's own
computation, over integers and bit vectors; registers, flags and memory beyond D are unchanged, whatever the form,
guard and lane. (R101) -/
def Obligations.ConversionRule : Prop :=
  ∀ i r, convertRule (expand i) = some r → r.Completes i

/-- Result byte k is the byte of b:a that SRC of control byte k names, as it is, 0, eight copies of its bit 7, or
complemented, as FILL says; every control byte comes from the old D. The values are written apart from the model's
own computation, over integers and bit vectors; registers, flags and memory beyond D are unchanged, whatever the
form, guard and lane. (R102) -/
def Obligations.ByteSelectRule : Prop :=
  ∀ i r, selectRule (expand i) = some r → r.Completes i
end

