-- ==== Sys2Proof/Laws/Table.lean ====
section
/-! SUPPORT. Laws of tables and of byte memories: a read after a write, the keys' order, the canonical form. -/

namespace Sys2Proof.Machine

@[simp] theorem Tbl.find_nil {α : Type} (k : Nat) : Tbl.find ([] : Tbl α) k = none := rfl

@[simp] theorem Tbl.find_put_same {α : Type} (k : Nat) (v : α) (t : Tbl α) : Tbl.find (Tbl.put k v t) k = some v := by
  induction t with
  | nil => simp [Tbl.put, Tbl.find]
  | cons e t ih =>
    obtain ⟨j, w⟩ := e
    simp only [Tbl.put]
    split
    · simp [Tbl.find]
    · split
      · simp [Tbl.find]
      · rename_i h
        simp [Tbl.find, Ne.symm h, ih]

theorem Tbl.find_put_other {α : Type} {k j : Nat} (v : α) (t : Tbl α) (h : j ≠ k) :
    Tbl.find (Tbl.put k v t) j = Tbl.find t j := by
  induction t with
  | nil => simp [Tbl.put, Tbl.find, Ne.symm h]
  | cons e t ih =>
    obtain ⟨i, w⟩ := e
    simp only [Tbl.put]
    split
    · simp [Tbl.find, Ne.symm h]
    · split
      · rename_i h'
        simp [Tbl.find, ← h', Ne.symm h]
      · simp [Tbl.find, ih]

theorem Tbl.find_del_other {α : Type} {k j : Nat} (t : Tbl α) (h : j ≠ k) :
    Tbl.find (Tbl.del k t) j = Tbl.find t j := by
  induction t with
  | nil => rfl
  | cons e t ih =>
    obtain ⟨i, w⟩ := e
    simp only [Tbl.del]
    split
    · rename_i h'
      simp [Tbl.find, h', Ne.symm h]
    · simp [Tbl.find, ih]

theorem Tbl.sorted_tail {α : Type} {e : Nat × α} {t : Tbl α} (h : Tbl.sorted (e :: t)) : Tbl.sorted t := by
  cases t with
  | nil => rfl
  | cons b t => simp [Tbl.sorted] at h; exact h.2

theorem Tbl.sorted_head {α : Type} {e : Nat × α} {t : Tbl α} (h : Tbl.sorted (e :: t)) :
    ∀ x ∈ t, e.1 < x.1 := by
  induction t generalizing e with
  | nil => simp
  | cons b t ih =>
    simp [Tbl.sorted] at h
    intro x hx
    cases hx with
    | head => exact h.1
    | tail _ hx => exact Nat.lt_trans h.1 (ih h.2 x hx)

theorem Tbl.sorted_cons {α : Type} {e : Nat × α} {t : Tbl α} (hs : Tbl.sorted t) (h : ∀ x ∈ t, e.1 < x.1) :
    Tbl.sorted (e :: t) := by
  cases t with
  | nil => rfl
  | cons b t => simp [Tbl.sorted, hs]; exact h b (by simp)

theorem Tbl.mem_put {α : Type} {k : Nat} {v : α} {t : Tbl α} {x : Nat × α} (h : x ∈ Tbl.put k v t) :
    x = (k, v) ∨ x ∈ t := by
  induction t with
  | nil => simpa [Tbl.put] using h
  | cons e t ih =>
    obtain ⟨j, w⟩ := e
    simp only [Tbl.put] at h
    split at h
    · cases h with
      | head => exact .inl rfl
      | tail _ h => exact .inr h
    · split at h
      · cases h with
        | head => exact .inl rfl
        | tail _ h => exact .inr (List.mem_cons_of_mem _ h)
      · cases h with
        | head => exact .inr (by simp)
        | tail _ h =>
          cases ih h with
          | inl h => exact .inl h
          | inr h => exact .inr (by simp [h])

theorem Tbl.mem_del {α : Type} {k : Nat} {t : Tbl α} {x : Nat × α} (h : x ∈ Tbl.del k t) : x ∈ t := by
  induction t with
  | nil => simp [Tbl.del] at h
  | cons e t ih =>
    obtain ⟨j, w⟩ := e
    simp only [Tbl.del] at h
    split at h
    · simp [h]
    · cases h with
      | head => simp
      | tail _ h => simp [ih h]

theorem Tbl.sorted_put {α : Type} {k : Nat} {v : α} {t : Tbl α} (hs : Tbl.sorted t) : Tbl.sorted (Tbl.put k v t) := by
  induction t with
  | nil => rfl
  | cons e t ih =>
    obtain ⟨j, w⟩ := e
    simp only [Tbl.put]
    split
    · rename_i h; simp [Tbl.sorted, h, hs]
    · split
      · rename_i h
        subst h
        exact Tbl.sorted_cons (Tbl.sorted_tail hs) fun x hx => Tbl.sorted_head hs x hx
      · rename_i h1 h2
        refine Tbl.sorted_cons (ih (Tbl.sorted_tail hs)) fun x hx => ?_
        cases Tbl.mem_put hx with
        | inl h => subst h; simp; omega
        | inr h => exact Tbl.sorted_head hs x h

theorem Tbl.sorted_del {α : Type} {k : Nat} {t : Tbl α} (hs : Tbl.sorted t) : Tbl.sorted (Tbl.del k t) := by
  induction t with
  | nil => rfl
  | cons e t ih =>
    obtain ⟨j, w⟩ := e
    simp only [Tbl.del]
    split
    · exact Tbl.sorted_tail hs
    · exact Tbl.sorted_cons (ih (Tbl.sorted_tail hs)) fun x hx => Tbl.sorted_head hs x (Tbl.mem_del hx)

theorem Tbl.find_none_of_lt {α : Type} {k : Nat} {t : Tbl α} (h : ∀ x ∈ t, k < x.1) : Tbl.find t k = none := by
  induction t with
  | nil => rfl
  | cons e t ih =>
    obtain ⟨j, w⟩ := e
    have hj : k < j := h (j, w) (by simp)
    have hne : j ≠ k := by omega
    simp [Tbl.find, hne, ih fun x hx => h x (by simp [hx])]

theorem Tbl.find_del_same {α : Type} {k : Nat} {t : Tbl α} (hs : Tbl.sorted t) : Tbl.find (Tbl.del k t) k = none := by
  induction t with
  | nil => rfl
  | cons e t ih =>
    obtain ⟨j, w⟩ := e
    simp only [Tbl.del]
    split
    · rename_i h
      subst h
      exact Tbl.find_none_of_lt (Tbl.sorted_head hs)
    · rename_i h
      simp [Tbl.find, h, ih (Tbl.sorted_tail hs)]

theorem Memory.wf_set {m : List Host.Cell} (a : Nat) (b : Byte) (h : Memory.wf m) : Memory.wf (Memory.set m a b) := by
  simp only [Memory.wf, Bool.and_eq_true, List.all_eq_true] at h ⊢
  unfold Memory.set
  split
  · exact ⟨Tbl.sorted_del h.1, fun x hx => h.2 x (Tbl.mem_del hx)⟩
  · rename_i hb
    refine ⟨Tbl.sorted_put h.1, fun x hx => ?_⟩
    cases Tbl.mem_put hx with
    | inl hx => subst hx; simpa using hb
    | inr hx => exact h.2 x hx

theorem Memory.wf_write {m : List Host.Cell} (a : Nat) (bs : List Byte) (h : Memory.wf m) :
    Memory.wf (Memory.write m a bs) := by
  induction bs generalizing m a with
  | nil => exact h
  | cons b bs ih => exact ih (a + 1) (Memory.wf_set a b h)

theorem Memory.get_set_same {m : List Host.Cell} (a : Nat) (b : Byte) (h : Memory.wf m) :
    Memory.get (Memory.set m a b) a = b := by
  simp only [Memory.wf, Bool.and_eq_true] at h
  unfold Memory.get Memory.set
  split
  · rename_i hb; rw [Tbl.find_del_same h.1]; simp [hb]
  · simp

theorem Memory.get_set_other {m : List Host.Cell} {a c : Nat} (b : Byte) (h : c ≠ a) :
    Memory.get (Memory.set m a b) c = Memory.get m c := by
  unfold Memory.get Memory.set
  split
  · rw [Tbl.find_del_other m h]
  · rw [Tbl.find_put_other b m h]

theorem Memory.get_write_other {m : List Host.Cell} {a c : Nat} (bs : List Byte) (h : c < a ∨ a + bs.length ≤ c) :
    Memory.get (Memory.write m a bs) c = Memory.get m c := by
  induction bs generalizing m a with
  | nil => rfl
  | cons b bs ih =>
    simp only [List.length_cons] at h
    rw [Memory.write, ih (by omega), Memory.get_set_other b (by omega)]

theorem Tbl.find_change_same {α : Type} (k : Nat) (f : α → α) (t : Tbl α) :
    Tbl.find (Tbl.change k f t) k = (Tbl.find t k).map f := by
  unfold Tbl.change
  split <;> rename_i h <;> simp [h]

theorem Tbl.find_change_other {α : Type} {k j : Nat} (f : α → α) (t : Tbl α) (h : j ≠ k) :
    Tbl.find (Tbl.change k f t) j = Tbl.find t j := by
  unfold Tbl.change
  split
  · exact Tbl.find_put_other _ _ h
  · rfl

theorem Tbl.sorted_change {α : Type} {k : Nat} {f : α → α} {t : Tbl α} (hs : Tbl.sorted t) :
    Tbl.sorted (Tbl.change k f t) := by
  unfold Tbl.change
  split
  · exact Tbl.sorted_put hs
  · exact hs

theorem Tbl.find_changeAll {α : Type} (f : Nat → α → α) (t : Tbl α) (k : Nat) :
    Tbl.find (Tbl.changeAll f t) k = (Tbl.find t k).map (f k) := by
  induction t with
  | nil => rfl
  | cons e t ih =>
    obtain ⟨j, w⟩ := e
    simp only [Tbl.changeAll, List.map_cons, Tbl.find] at ih ⊢
    split
    · rename_i h; simp [h]
    · exact ih

/-- Dropping entries keeps the order of the keys. -/
theorem Tbl.sorted_filter {α : Type} (p : Nat × α → Bool) {t : Tbl α} (hs : Tbl.sorted t) : Tbl.sorted (t.filter p) := by
  induction t with
  | nil => rfl
  | cons e t ih =>
    simp only [List.filter_cons]
    split
    · exact Tbl.sorted_cons (ih (Tbl.sorted_tail hs)) fun x hx => Tbl.sorted_head hs x (List.mem_of_mem_filter hx)
    · exact ih (Tbl.sorted_tail hs)

/-- Dropping bytes, as zeroing a page or the package does, keeps the canonical form. -/
theorem Memory.wf_filter (p : Host.Cell → Bool) {m : List Host.Cell} (h : Memory.wf m) : Memory.wf (m.filter p) := by
  simp only [Memory.wf, Bool.and_eq_true, List.all_eq_true] at h ⊢
  exact ⟨Tbl.sorted_filter p h.1, fun x hx => h.2 x (List.mem_of_mem_filter hx)⟩

theorem Tbl.find_filter_keep {α : Type} (p : Nat × α → Bool) (t : Tbl α) (k : Nat) (h : ∀ v, p (k, v) = true) :
    Tbl.find (t.filter p) k = Tbl.find t k := by
  induction t with
  | nil => rfl
  | cons e t ih =>
    obtain ⟨j, w⟩ := e
    simp only [List.filter_cons]
    by_cases hj : j = k
    · subst hj; simp [h, Tbl.find]
    · split <;> simp [Tbl.find, hj, ih]

theorem Tbl.find_filter_drop {α : Type} (p : Nat × α → Bool) (t : Tbl α) (k : Nat) (h : ∀ v, p (k, v) = false) :
    Tbl.find (t.filter p) k = none := by
  induction t with
  | nil => rfl
  | cons e t ih =>
    obtain ⟨j, w⟩ := e
    simp only [List.filter_cons]
    by_cases hj : j = k
    · subst hj; simp [h, ih]
    · split <;> simp [Tbl.find, hj, ih]

/-- A run of bytes read back after it was written. -/
theorem Memory.read_write {m : List Host.Cell} (a : Nat) (bs : List Byte) (h : Memory.wf m) :
    Memory.read (Memory.write m a bs) a bs.length = bs := by
  induction bs generalizing m a with
  | nil => rfl
  | cons b bs ih =>
    simp only [Memory.write, List.length_cons, Memory.read]
    rw [ih (a + 1) (Memory.wf_set a b h), Memory.get_write_other bs (by omega), Memory.get_set_same a b h]

end Sys2Proof.Machine
end

