-- ==== Sys2Proof/Laws/State.lean ====
section
/-! SUPPORT. The small laws of the state: one lemma per field per update, and what an entry reads as after an update of
its table. -/

namespace Sys2Proof.Machine

/-! ### modThr -/

@[simp] theorem State.modThr_time (s : State) (k : Nat) (f : Thread → Thread) : (s.modThr k f).time = s.time := rfl
@[simp] theorem State.modThr_fresh (s : State) (k : Nat) (f : Thread → Thread) : (s.modThr k f).fresh = s.fresh := rfl
@[simp] theorem State.modThr_agenda (s : State) (k : Nat) (f : Thread → Thread) : (s.modThr k f).agenda = s.agenda := rfl
@[simp] theorem State.modThr_cur (s : State) (k : Nat) (f : Thread → Thread) : (s.modThr k f).cur = s.cur := rfl
@[simp] theorem State.modThr_mem (s : State) (k : Nat) (f : Thread → Thread) : (s.modThr k f).mem = s.mem := rfl
@[simp] theorem State.modThr_undef (s : State) (k : Nat) (f : Thread → Thread) : (s.modThr k f).undef = s.undef := rfl
@[simp] theorem State.modThr_homes (s : State) (k : Nat) (f : Thread → Thread) : (s.modThr k f).homes = s.homes := rfl
@[simp] theorem State.modThr_setMaxExp (s : State) (k : Nat) (f : Thread → Thread) : (s.modThr k f).setMaxExp = s.setMaxExp := rfl
@[simp] theorem State.modThr_wrote (s : State) (k : Nat) (f : Thread → Thread) : (s.modThr k f).wrote = s.wrote := rfl
@[simp] theorem State.modThr_poisoned (s : State) (k : Nat) (f : Thread → Thread) : (s.modThr k f).poisoned = s.poisoned := rfl
@[simp] theorem State.modThr_pageParts (s : State) (k : Nat) (f : Thread → Thread) : (s.modThr k f).pageParts = s.pageParts := rfl
@[simp] theorem State.modThr_pageRecs (s : State) (k : Nat) (f : Thread → Thread) : (s.modThr k f).pageRecs = s.pageRecs := rfl
@[simp] theorem State.modThr_regions (s : State) (k : Nat) (f : Thread → Thread) : (s.modThr k f).regions = s.regions := rfl
@[simp] theorem State.modThr_reqs (s : State) (k : Nat) (f : Thread → Thread) : (s.modThr k f).reqs = s.reqs := rfl
@[simp] theorem State.modThr_late (s : State) (k : Nat) (f : Thread → Thread) : (s.modThr k f).late = s.late := rfl
@[simp] theorem State.modThr_nextReq (s : State) (k : Nat) (f : Thread → Thread) : (s.modThr k f).nextReq = s.nextReq := rfl
@[simp] theorem State.modThr_monitors (s : State) (k : Nat) (f : Thread → Thread) : (s.modThr k f).monitors = s.monitors := rfl
@[simp] theorem State.modThr_sluices (s : State) (k : Nat) (f : Thread → Thread) : (s.modThr k f).sluices = s.sluices := rfl
@[simp] theorem State.modThr_threads (s : State) (k : Nat) (f : Thread → Thread) : (s.modThr k f).threads = s.threads.change k f := rfl
@[simp] theorem State.modThr_groups (s : State) (k : Nat) (f : Thread → Thread) : (s.modThr k f).groups = s.groups := rfl
@[simp] theorem State.modThr_blocks (s : State) (k : Nat) (f : Thread → Thread) : (s.modThr k f).blocks = s.blocks := rfl
@[simp] theorem State.modThr_nextBlock (s : State) (k : Nat) (f : Thread → Thread) : (s.modThr k f).nextBlock = s.nextBlock := rfl
@[simp] theorem State.modThr_cores (s : State) (k : Nat) (f : Thread → Thread) : (s.modThr k f).cores = s.cores := rfl
@[simp] theorem State.modThr_quads (s : State) (k : Nat) (f : Thread → Thread) : (s.modThr k f).quads = s.quads := rfl
@[simp] theorem State.modThr_slotTags (s : State) (k : Nat) (f : Thread → Thread) : (s.modThr k f).slotTags = s.slotTags := rfl
@[simp] theorem State.modThr_mxOps (s : State) (k : Nat) (f : Thread → Thread) : (s.modThr k f).mxOps = s.mxOps := rfl
@[simp] theorem State.modThr_engOps (s : State) (k : Nat) (f : Thread → Thread) : (s.modThr k f).engOps = s.engOps := rfl
@[simp] theorem State.modThr_nextOp (s : State) (k : Nat) (f : Thread → Thread) : (s.modThr k f).nextOp = s.nextOp := rfl
@[simp] theorem State.modThr_queues (s : State) (k : Nat) (f : Thread → Thread) : (s.modThr k f).queues = s.queues := rfl
@[simp] theorem State.modThr_qslots (s : State) (k : Nat) (f : Thread → Thread) : (s.modThr k f).qslots = s.qslots := rfl
@[simp] theorem State.modThr_childQs (s : State) (k : Nat) (f : Thread → Thread) : (s.modThr k f).childQs = s.childQs := rfl
@[simp] theorem State.modThr_launches (s : State) (k : Nat) (f : Thread → Thread) : (s.modThr k f).launches = s.launches := rfl
@[simp] theorem State.modThr_nextLaunch (s : State) (k : Nat) (f : Thread → Thread) : (s.modThr k f).nextLaunch = s.nextLaunch := rfl
@[simp] theorem State.modThr_ctxs (s : State) (k : Nat) (f : Thread → Thread) : (s.modThr k f).ctxs = s.ctxs := rfl
@[simp] theorem State.modThr_parts (s : State) (k : Nat) (f : Thread → Thread) : (s.modThr k f).parts = s.parts := rfl
@[simp] theorem State.modThr_pkg (s : State) (k : Nat) (f : Thread → Thread) : (s.modThr k f).pkg = s.pkg := rfl

/-! ### modGrp -/

@[simp] theorem State.modGrp_time (s : State) (g : Nat) (f : Group → Group) : (s.modGrp g f).time = s.time := rfl
@[simp] theorem State.modGrp_fresh (s : State) (g : Nat) (f : Group → Group) : (s.modGrp g f).fresh = s.fresh := rfl
@[simp] theorem State.modGrp_agenda (s : State) (g : Nat) (f : Group → Group) : (s.modGrp g f).agenda = s.agenda := rfl
@[simp] theorem State.modGrp_cur (s : State) (g : Nat) (f : Group → Group) : (s.modGrp g f).cur = s.cur := rfl
@[simp] theorem State.modGrp_mem (s : State) (g : Nat) (f : Group → Group) : (s.modGrp g f).mem = s.mem := rfl
@[simp] theorem State.modGrp_undef (s : State) (g : Nat) (f : Group → Group) : (s.modGrp g f).undef = s.undef := rfl
@[simp] theorem State.modGrp_homes (s : State) (g : Nat) (f : Group → Group) : (s.modGrp g f).homes = s.homes := rfl
@[simp] theorem State.modGrp_setMaxExp (s : State) (g : Nat) (f : Group → Group) : (s.modGrp g f).setMaxExp = s.setMaxExp := rfl
@[simp] theorem State.modGrp_wrote (s : State) (g : Nat) (f : Group → Group) : (s.modGrp g f).wrote = s.wrote := rfl
@[simp] theorem State.modGrp_poisoned (s : State) (g : Nat) (f : Group → Group) : (s.modGrp g f).poisoned = s.poisoned := rfl
@[simp] theorem State.modGrp_pageParts (s : State) (g : Nat) (f : Group → Group) : (s.modGrp g f).pageParts = s.pageParts := rfl
@[simp] theorem State.modGrp_pageRecs (s : State) (g : Nat) (f : Group → Group) : (s.modGrp g f).pageRecs = s.pageRecs := rfl
@[simp] theorem State.modGrp_regions (s : State) (g : Nat) (f : Group → Group) : (s.modGrp g f).regions = s.regions := rfl
@[simp] theorem State.modGrp_reqs (s : State) (g : Nat) (f : Group → Group) : (s.modGrp g f).reqs = s.reqs := rfl
@[simp] theorem State.modGrp_late (s : State) (g : Nat) (f : Group → Group) : (s.modGrp g f).late = s.late := rfl
@[simp] theorem State.modGrp_nextReq (s : State) (g : Nat) (f : Group → Group) : (s.modGrp g f).nextReq = s.nextReq := rfl
@[simp] theorem State.modGrp_monitors (s : State) (g : Nat) (f : Group → Group) : (s.modGrp g f).monitors = s.monitors := rfl
@[simp] theorem State.modGrp_sluices (s : State) (g : Nat) (f : Group → Group) : (s.modGrp g f).sluices = s.sluices := rfl
@[simp] theorem State.modGrp_threads (s : State) (g : Nat) (f : Group → Group) : (s.modGrp g f).threads = s.threads := rfl
@[simp] theorem State.modGrp_groups (s : State) (g : Nat) (f : Group → Group) : (s.modGrp g f).groups = s.groups.change g f := rfl
@[simp] theorem State.modGrp_blocks (s : State) (g : Nat) (f : Group → Group) : (s.modGrp g f).blocks = s.blocks := rfl
@[simp] theorem State.modGrp_nextBlock (s : State) (g : Nat) (f : Group → Group) : (s.modGrp g f).nextBlock = s.nextBlock := rfl
@[simp] theorem State.modGrp_cores (s : State) (g : Nat) (f : Group → Group) : (s.modGrp g f).cores = s.cores := rfl
@[simp] theorem State.modGrp_quads (s : State) (g : Nat) (f : Group → Group) : (s.modGrp g f).quads = s.quads := rfl
@[simp] theorem State.modGrp_slotTags (s : State) (g : Nat) (f : Group → Group) : (s.modGrp g f).slotTags = s.slotTags := rfl
@[simp] theorem State.modGrp_mxOps (s : State) (g : Nat) (f : Group → Group) : (s.modGrp g f).mxOps = s.mxOps := rfl
@[simp] theorem State.modGrp_engOps (s : State) (g : Nat) (f : Group → Group) : (s.modGrp g f).engOps = s.engOps := rfl
@[simp] theorem State.modGrp_nextOp (s : State) (g : Nat) (f : Group → Group) : (s.modGrp g f).nextOp = s.nextOp := rfl
@[simp] theorem State.modGrp_queues (s : State) (g : Nat) (f : Group → Group) : (s.modGrp g f).queues = s.queues := rfl
@[simp] theorem State.modGrp_qslots (s : State) (g : Nat) (f : Group → Group) : (s.modGrp g f).qslots = s.qslots := rfl
@[simp] theorem State.modGrp_childQs (s : State) (g : Nat) (f : Group → Group) : (s.modGrp g f).childQs = s.childQs := rfl
@[simp] theorem State.modGrp_launches (s : State) (g : Nat) (f : Group → Group) : (s.modGrp g f).launches = s.launches := rfl
@[simp] theorem State.modGrp_nextLaunch (s : State) (g : Nat) (f : Group → Group) : (s.modGrp g f).nextLaunch = s.nextLaunch := rfl
@[simp] theorem State.modGrp_ctxs (s : State) (g : Nat) (f : Group → Group) : (s.modGrp g f).ctxs = s.ctxs := rfl
@[simp] theorem State.modGrp_parts (s : State) (g : Nat) (f : Group → Group) : (s.modGrp g f).parts = s.parts := rfl
@[simp] theorem State.modGrp_pkg (s : State) (g : Nat) (f : Group → Group) : (s.modGrp g f).pkg = s.pkg := rfl

/-! ### modBlk -/

@[simp] theorem State.modBlk_time (s : State) (b : Nat) (f : Block → Block) : (s.modBlk b f).time = s.time := rfl
@[simp] theorem State.modBlk_fresh (s : State) (b : Nat) (f : Block → Block) : (s.modBlk b f).fresh = s.fresh := rfl
@[simp] theorem State.modBlk_agenda (s : State) (b : Nat) (f : Block → Block) : (s.modBlk b f).agenda = s.agenda := rfl
@[simp] theorem State.modBlk_cur (s : State) (b : Nat) (f : Block → Block) : (s.modBlk b f).cur = s.cur := rfl
@[simp] theorem State.modBlk_mem (s : State) (b : Nat) (f : Block → Block) : (s.modBlk b f).mem = s.mem := rfl
@[simp] theorem State.modBlk_undef (s : State) (b : Nat) (f : Block → Block) : (s.modBlk b f).undef = s.undef := rfl
@[simp] theorem State.modBlk_homes (s : State) (b : Nat) (f : Block → Block) : (s.modBlk b f).homes = s.homes := rfl
@[simp] theorem State.modBlk_setMaxExp (s : State) (b : Nat) (f : Block → Block) : (s.modBlk b f).setMaxExp = s.setMaxExp := rfl
@[simp] theorem State.modBlk_wrote (s : State) (b : Nat) (f : Block → Block) : (s.modBlk b f).wrote = s.wrote := rfl
@[simp] theorem State.modBlk_poisoned (s : State) (b : Nat) (f : Block → Block) : (s.modBlk b f).poisoned = s.poisoned := rfl
@[simp] theorem State.modBlk_pageParts (s : State) (b : Nat) (f : Block → Block) : (s.modBlk b f).pageParts = s.pageParts := rfl
@[simp] theorem State.modBlk_pageRecs (s : State) (b : Nat) (f : Block → Block) : (s.modBlk b f).pageRecs = s.pageRecs := rfl
@[simp] theorem State.modBlk_regions (s : State) (b : Nat) (f : Block → Block) : (s.modBlk b f).regions = s.regions := rfl
@[simp] theorem State.modBlk_reqs (s : State) (b : Nat) (f : Block → Block) : (s.modBlk b f).reqs = s.reqs := rfl
@[simp] theorem State.modBlk_late (s : State) (b : Nat) (f : Block → Block) : (s.modBlk b f).late = s.late := rfl
@[simp] theorem State.modBlk_nextReq (s : State) (b : Nat) (f : Block → Block) : (s.modBlk b f).nextReq = s.nextReq := rfl
@[simp] theorem State.modBlk_monitors (s : State) (b : Nat) (f : Block → Block) : (s.modBlk b f).monitors = s.monitors := rfl
@[simp] theorem State.modBlk_sluices (s : State) (b : Nat) (f : Block → Block) : (s.modBlk b f).sluices = s.sluices := rfl
@[simp] theorem State.modBlk_threads (s : State) (b : Nat) (f : Block → Block) : (s.modBlk b f).threads = s.threads := rfl
@[simp] theorem State.modBlk_groups (s : State) (b : Nat) (f : Block → Block) : (s.modBlk b f).groups = s.groups := rfl
@[simp] theorem State.modBlk_blocks (s : State) (b : Nat) (f : Block → Block) : (s.modBlk b f).blocks = s.blocks.change b f := rfl
@[simp] theorem State.modBlk_nextBlock (s : State) (b : Nat) (f : Block → Block) : (s.modBlk b f).nextBlock = s.nextBlock := rfl
@[simp] theorem State.modBlk_cores (s : State) (b : Nat) (f : Block → Block) : (s.modBlk b f).cores = s.cores := rfl
@[simp] theorem State.modBlk_quads (s : State) (b : Nat) (f : Block → Block) : (s.modBlk b f).quads = s.quads := rfl
@[simp] theorem State.modBlk_slotTags (s : State) (b : Nat) (f : Block → Block) : (s.modBlk b f).slotTags = s.slotTags := rfl
@[simp] theorem State.modBlk_mxOps (s : State) (b : Nat) (f : Block → Block) : (s.modBlk b f).mxOps = s.mxOps := rfl
@[simp] theorem State.modBlk_engOps (s : State) (b : Nat) (f : Block → Block) : (s.modBlk b f).engOps = s.engOps := rfl
@[simp] theorem State.modBlk_nextOp (s : State) (b : Nat) (f : Block → Block) : (s.modBlk b f).nextOp = s.nextOp := rfl
@[simp] theorem State.modBlk_queues (s : State) (b : Nat) (f : Block → Block) : (s.modBlk b f).queues = s.queues := rfl
@[simp] theorem State.modBlk_qslots (s : State) (b : Nat) (f : Block → Block) : (s.modBlk b f).qslots = s.qslots := rfl
@[simp] theorem State.modBlk_childQs (s : State) (b : Nat) (f : Block → Block) : (s.modBlk b f).childQs = s.childQs := rfl
@[simp] theorem State.modBlk_launches (s : State) (b : Nat) (f : Block → Block) : (s.modBlk b f).launches = s.launches := rfl
@[simp] theorem State.modBlk_nextLaunch (s : State) (b : Nat) (f : Block → Block) : (s.modBlk b f).nextLaunch = s.nextLaunch := rfl
@[simp] theorem State.modBlk_ctxs (s : State) (b : Nat) (f : Block → Block) : (s.modBlk b f).ctxs = s.ctxs := rfl
@[simp] theorem State.modBlk_parts (s : State) (b : Nat) (f : Block → Block) : (s.modBlk b f).parts = s.parts := rfl
@[simp] theorem State.modBlk_pkg (s : State) (b : Nat) (f : Block → Block) : (s.modBlk b f).pkg = s.pkg := rfl

/-! ### modCore -/

@[simp] theorem State.modCore_time (s : State) (c : Nat) (f : Core → Core) : (s.modCore c f).time = s.time := rfl
@[simp] theorem State.modCore_fresh (s : State) (c : Nat) (f : Core → Core) : (s.modCore c f).fresh = s.fresh := rfl
@[simp] theorem State.modCore_agenda (s : State) (c : Nat) (f : Core → Core) : (s.modCore c f).agenda = s.agenda := rfl
@[simp] theorem State.modCore_cur (s : State) (c : Nat) (f : Core → Core) : (s.modCore c f).cur = s.cur := rfl
@[simp] theorem State.modCore_mem (s : State) (c : Nat) (f : Core → Core) : (s.modCore c f).mem = s.mem := rfl
@[simp] theorem State.modCore_undef (s : State) (c : Nat) (f : Core → Core) : (s.modCore c f).undef = s.undef := rfl
@[simp] theorem State.modCore_homes (s : State) (c : Nat) (f : Core → Core) : (s.modCore c f).homes = s.homes := rfl
@[simp] theorem State.modCore_setMaxExp (s : State) (c : Nat) (f : Core → Core) : (s.modCore c f).setMaxExp = s.setMaxExp := rfl
@[simp] theorem State.modCore_wrote (s : State) (c : Nat) (f : Core → Core) : (s.modCore c f).wrote = s.wrote := rfl
@[simp] theorem State.modCore_poisoned (s : State) (c : Nat) (f : Core → Core) : (s.modCore c f).poisoned = s.poisoned := rfl
@[simp] theorem State.modCore_pageParts (s : State) (c : Nat) (f : Core → Core) : (s.modCore c f).pageParts = s.pageParts := rfl
@[simp] theorem State.modCore_pageRecs (s : State) (c : Nat) (f : Core → Core) : (s.modCore c f).pageRecs = s.pageRecs := rfl
@[simp] theorem State.modCore_regions (s : State) (c : Nat) (f : Core → Core) : (s.modCore c f).regions = s.regions := rfl
@[simp] theorem State.modCore_reqs (s : State) (c : Nat) (f : Core → Core) : (s.modCore c f).reqs = s.reqs := rfl
@[simp] theorem State.modCore_late (s : State) (c : Nat) (f : Core → Core) : (s.modCore c f).late = s.late := rfl
@[simp] theorem State.modCore_nextReq (s : State) (c : Nat) (f : Core → Core) : (s.modCore c f).nextReq = s.nextReq := rfl
@[simp] theorem State.modCore_monitors (s : State) (c : Nat) (f : Core → Core) : (s.modCore c f).monitors = s.monitors := rfl
@[simp] theorem State.modCore_sluices (s : State) (c : Nat) (f : Core → Core) : (s.modCore c f).sluices = s.sluices := rfl
@[simp] theorem State.modCore_threads (s : State) (c : Nat) (f : Core → Core) : (s.modCore c f).threads = s.threads := rfl
@[simp] theorem State.modCore_groups (s : State) (c : Nat) (f : Core → Core) : (s.modCore c f).groups = s.groups := rfl
@[simp] theorem State.modCore_blocks (s : State) (c : Nat) (f : Core → Core) : (s.modCore c f).blocks = s.blocks := rfl
@[simp] theorem State.modCore_nextBlock (s : State) (c : Nat) (f : Core → Core) : (s.modCore c f).nextBlock = s.nextBlock := rfl
@[simp] theorem State.modCore_cores (s : State) (c : Nat) (f : Core → Core) : (s.modCore c f).cores = s.cores.put c (f (s.coreAt c)) := rfl
@[simp] theorem State.modCore_quads (s : State) (c : Nat) (f : Core → Core) : (s.modCore c f).quads = s.quads := rfl
@[simp] theorem State.modCore_slotTags (s : State) (c : Nat) (f : Core → Core) : (s.modCore c f).slotTags = s.slotTags := rfl
@[simp] theorem State.modCore_mxOps (s : State) (c : Nat) (f : Core → Core) : (s.modCore c f).mxOps = s.mxOps := rfl
@[simp] theorem State.modCore_engOps (s : State) (c : Nat) (f : Core → Core) : (s.modCore c f).engOps = s.engOps := rfl
@[simp] theorem State.modCore_nextOp (s : State) (c : Nat) (f : Core → Core) : (s.modCore c f).nextOp = s.nextOp := rfl
@[simp] theorem State.modCore_queues (s : State) (c : Nat) (f : Core → Core) : (s.modCore c f).queues = s.queues := rfl
@[simp] theorem State.modCore_qslots (s : State) (c : Nat) (f : Core → Core) : (s.modCore c f).qslots = s.qslots := rfl
@[simp] theorem State.modCore_childQs (s : State) (c : Nat) (f : Core → Core) : (s.modCore c f).childQs = s.childQs := rfl
@[simp] theorem State.modCore_launches (s : State) (c : Nat) (f : Core → Core) : (s.modCore c f).launches = s.launches := rfl
@[simp] theorem State.modCore_nextLaunch (s : State) (c : Nat) (f : Core → Core) : (s.modCore c f).nextLaunch = s.nextLaunch := rfl
@[simp] theorem State.modCore_ctxs (s : State) (c : Nat) (f : Core → Core) : (s.modCore c f).ctxs = s.ctxs := rfl
@[simp] theorem State.modCore_parts (s : State) (c : Nat) (f : Core → Core) : (s.modCore c f).parts = s.parts := rfl
@[simp] theorem State.modCore_pkg (s : State) (c : Nat) (f : Core → Core) : (s.modCore c f).pkg = s.pkg := rfl

/-! ### modQuad -/

@[simp] theorem State.modQuad_time (s : State) (q : Nat) (f : Quad → Quad) : (s.modQuad q f).time = s.time := rfl
@[simp] theorem State.modQuad_fresh (s : State) (q : Nat) (f : Quad → Quad) : (s.modQuad q f).fresh = s.fresh := rfl
@[simp] theorem State.modQuad_agenda (s : State) (q : Nat) (f : Quad → Quad) : (s.modQuad q f).agenda = s.agenda := rfl
@[simp] theorem State.modQuad_cur (s : State) (q : Nat) (f : Quad → Quad) : (s.modQuad q f).cur = s.cur := rfl
@[simp] theorem State.modQuad_mem (s : State) (q : Nat) (f : Quad → Quad) : (s.modQuad q f).mem = s.mem := rfl
@[simp] theorem State.modQuad_undef (s : State) (q : Nat) (f : Quad → Quad) : (s.modQuad q f).undef = s.undef := rfl
@[simp] theorem State.modQuad_homes (s : State) (q : Nat) (f : Quad → Quad) : (s.modQuad q f).homes = s.homes := rfl
@[simp] theorem State.modQuad_setMaxExp (s : State) (q : Nat) (f : Quad → Quad) : (s.modQuad q f).setMaxExp = s.setMaxExp := rfl
@[simp] theorem State.modQuad_wrote (s : State) (q : Nat) (f : Quad → Quad) : (s.modQuad q f).wrote = s.wrote := rfl
@[simp] theorem State.modQuad_poisoned (s : State) (q : Nat) (f : Quad → Quad) : (s.modQuad q f).poisoned = s.poisoned := rfl
@[simp] theorem State.modQuad_pageParts (s : State) (q : Nat) (f : Quad → Quad) : (s.modQuad q f).pageParts = s.pageParts := rfl
@[simp] theorem State.modQuad_pageRecs (s : State) (q : Nat) (f : Quad → Quad) : (s.modQuad q f).pageRecs = s.pageRecs := rfl
@[simp] theorem State.modQuad_regions (s : State) (q : Nat) (f : Quad → Quad) : (s.modQuad q f).regions = s.regions := rfl
@[simp] theorem State.modQuad_reqs (s : State) (q : Nat) (f : Quad → Quad) : (s.modQuad q f).reqs = s.reqs := rfl
@[simp] theorem State.modQuad_late (s : State) (q : Nat) (f : Quad → Quad) : (s.modQuad q f).late = s.late := rfl
@[simp] theorem State.modQuad_nextReq (s : State) (q : Nat) (f : Quad → Quad) : (s.modQuad q f).nextReq = s.nextReq := rfl
@[simp] theorem State.modQuad_monitors (s : State) (q : Nat) (f : Quad → Quad) : (s.modQuad q f).monitors = s.monitors := rfl
@[simp] theorem State.modQuad_sluices (s : State) (q : Nat) (f : Quad → Quad) : (s.modQuad q f).sluices = s.sluices := rfl
@[simp] theorem State.modQuad_threads (s : State) (q : Nat) (f : Quad → Quad) : (s.modQuad q f).threads = s.threads := rfl
@[simp] theorem State.modQuad_groups (s : State) (q : Nat) (f : Quad → Quad) : (s.modQuad q f).groups = s.groups := rfl
@[simp] theorem State.modQuad_blocks (s : State) (q : Nat) (f : Quad → Quad) : (s.modQuad q f).blocks = s.blocks := rfl
@[simp] theorem State.modQuad_nextBlock (s : State) (q : Nat) (f : Quad → Quad) : (s.modQuad q f).nextBlock = s.nextBlock := rfl
@[simp] theorem State.modQuad_cores (s : State) (q : Nat) (f : Quad → Quad) : (s.modQuad q f).cores = s.cores := rfl
@[simp] theorem State.modQuad_quads (s : State) (q : Nat) (f : Quad → Quad) : (s.modQuad q f).quads = s.quads.put q (f (s.quadAt q)) := rfl
@[simp] theorem State.modQuad_slotTags (s : State) (q : Nat) (f : Quad → Quad) : (s.modQuad q f).slotTags = s.slotTags := rfl
@[simp] theorem State.modQuad_mxOps (s : State) (q : Nat) (f : Quad → Quad) : (s.modQuad q f).mxOps = s.mxOps := rfl
@[simp] theorem State.modQuad_engOps (s : State) (q : Nat) (f : Quad → Quad) : (s.modQuad q f).engOps = s.engOps := rfl
@[simp] theorem State.modQuad_nextOp (s : State) (q : Nat) (f : Quad → Quad) : (s.modQuad q f).nextOp = s.nextOp := rfl
@[simp] theorem State.modQuad_queues (s : State) (q : Nat) (f : Quad → Quad) : (s.modQuad q f).queues = s.queues := rfl
@[simp] theorem State.modQuad_qslots (s : State) (q : Nat) (f : Quad → Quad) : (s.modQuad q f).qslots = s.qslots := rfl
@[simp] theorem State.modQuad_childQs (s : State) (q : Nat) (f : Quad → Quad) : (s.modQuad q f).childQs = s.childQs := rfl
@[simp] theorem State.modQuad_launches (s : State) (q : Nat) (f : Quad → Quad) : (s.modQuad q f).launches = s.launches := rfl
@[simp] theorem State.modQuad_nextLaunch (s : State) (q : Nat) (f : Quad → Quad) : (s.modQuad q f).nextLaunch = s.nextLaunch := rfl
@[simp] theorem State.modQuad_ctxs (s : State) (q : Nat) (f : Quad → Quad) : (s.modQuad q f).ctxs = s.ctxs := rfl
@[simp] theorem State.modQuad_parts (s : State) (q : Nat) (f : Quad → Quad) : (s.modQuad q f).parts = s.parts := rfl
@[simp] theorem State.modQuad_pkg (s : State) (q : Nat) (f : Quad → Quad) : (s.modQuad q f).pkg = s.pkg := rfl

/-! ### modQueue -/

@[simp] theorem State.modQueue_time (s : State) (q : Nat) (f : Queue → Queue) : (s.modQueue q f).time = s.time := rfl
@[simp] theorem State.modQueue_fresh (s : State) (q : Nat) (f : Queue → Queue) : (s.modQueue q f).fresh = s.fresh := rfl
@[simp] theorem State.modQueue_agenda (s : State) (q : Nat) (f : Queue → Queue) : (s.modQueue q f).agenda = s.agenda := rfl
@[simp] theorem State.modQueue_cur (s : State) (q : Nat) (f : Queue → Queue) : (s.modQueue q f).cur = s.cur := rfl
@[simp] theorem State.modQueue_mem (s : State) (q : Nat) (f : Queue → Queue) : (s.modQueue q f).mem = s.mem := rfl
@[simp] theorem State.modQueue_undef (s : State) (q : Nat) (f : Queue → Queue) : (s.modQueue q f).undef = s.undef := rfl
@[simp] theorem State.modQueue_homes (s : State) (q : Nat) (f : Queue → Queue) : (s.modQueue q f).homes = s.homes := rfl
@[simp] theorem State.modQueue_setMaxExp (s : State) (q : Nat) (f : Queue → Queue) : (s.modQueue q f).setMaxExp = s.setMaxExp := rfl
@[simp] theorem State.modQueue_wrote (s : State) (q : Nat) (f : Queue → Queue) : (s.modQueue q f).wrote = s.wrote := rfl
@[simp] theorem State.modQueue_poisoned (s : State) (q : Nat) (f : Queue → Queue) : (s.modQueue q f).poisoned = s.poisoned := rfl
@[simp] theorem State.modQueue_pageParts (s : State) (q : Nat) (f : Queue → Queue) : (s.modQueue q f).pageParts = s.pageParts := rfl
@[simp] theorem State.modQueue_pageRecs (s : State) (q : Nat) (f : Queue → Queue) : (s.modQueue q f).pageRecs = s.pageRecs := rfl
@[simp] theorem State.modQueue_regions (s : State) (q : Nat) (f : Queue → Queue) : (s.modQueue q f).regions = s.regions := rfl
@[simp] theorem State.modQueue_reqs (s : State) (q : Nat) (f : Queue → Queue) : (s.modQueue q f).reqs = s.reqs := rfl
@[simp] theorem State.modQueue_late (s : State) (q : Nat) (f : Queue → Queue) : (s.modQueue q f).late = s.late := rfl
@[simp] theorem State.modQueue_nextReq (s : State) (q : Nat) (f : Queue → Queue) : (s.modQueue q f).nextReq = s.nextReq := rfl
@[simp] theorem State.modQueue_monitors (s : State) (q : Nat) (f : Queue → Queue) : (s.modQueue q f).monitors = s.monitors := rfl
@[simp] theorem State.modQueue_sluices (s : State) (q : Nat) (f : Queue → Queue) : (s.modQueue q f).sluices = s.sluices := rfl
@[simp] theorem State.modQueue_threads (s : State) (q : Nat) (f : Queue → Queue) : (s.modQueue q f).threads = s.threads := rfl
@[simp] theorem State.modQueue_groups (s : State) (q : Nat) (f : Queue → Queue) : (s.modQueue q f).groups = s.groups := rfl
@[simp] theorem State.modQueue_blocks (s : State) (q : Nat) (f : Queue → Queue) : (s.modQueue q f).blocks = s.blocks := rfl
@[simp] theorem State.modQueue_nextBlock (s : State) (q : Nat) (f : Queue → Queue) : (s.modQueue q f).nextBlock = s.nextBlock := rfl
@[simp] theorem State.modQueue_cores (s : State) (q : Nat) (f : Queue → Queue) : (s.modQueue q f).cores = s.cores := rfl
@[simp] theorem State.modQueue_quads (s : State) (q : Nat) (f : Queue → Queue) : (s.modQueue q f).quads = s.quads := rfl
@[simp] theorem State.modQueue_slotTags (s : State) (q : Nat) (f : Queue → Queue) : (s.modQueue q f).slotTags = s.slotTags := rfl
@[simp] theorem State.modQueue_mxOps (s : State) (q : Nat) (f : Queue → Queue) : (s.modQueue q f).mxOps = s.mxOps := rfl
@[simp] theorem State.modQueue_engOps (s : State) (q : Nat) (f : Queue → Queue) : (s.modQueue q f).engOps = s.engOps := rfl
@[simp] theorem State.modQueue_nextOp (s : State) (q : Nat) (f : Queue → Queue) : (s.modQueue q f).nextOp = s.nextOp := rfl
@[simp] theorem State.modQueue_queues (s : State) (q : Nat) (f : Queue → Queue) : (s.modQueue q f).queues = s.queues.put q (f (s.queueAt q)) := rfl
@[simp] theorem State.modQueue_qslots (s : State) (q : Nat) (f : Queue → Queue) : (s.modQueue q f).qslots = s.qslots := rfl
@[simp] theorem State.modQueue_childQs (s : State) (q : Nat) (f : Queue → Queue) : (s.modQueue q f).childQs = s.childQs := rfl
@[simp] theorem State.modQueue_launches (s : State) (q : Nat) (f : Queue → Queue) : (s.modQueue q f).launches = s.launches := rfl
@[simp] theorem State.modQueue_nextLaunch (s : State) (q : Nat) (f : Queue → Queue) : (s.modQueue q f).nextLaunch = s.nextLaunch := rfl
@[simp] theorem State.modQueue_ctxs (s : State) (q : Nat) (f : Queue → Queue) : (s.modQueue q f).ctxs = s.ctxs := rfl
@[simp] theorem State.modQueue_parts (s : State) (q : Nat) (f : Queue → Queue) : (s.modQueue q f).parts = s.parts := rfl
@[simp] theorem State.modQueue_pkg (s : State) (q : Nat) (f : Queue → Queue) : (s.modQueue q f).pkg = s.pkg := rfl

/-! ### modPart -/

@[simp] theorem State.modPart_time (s : State) (p : Nat) (f : Part → Part) : (s.modPart p f).time = s.time := rfl
@[simp] theorem State.modPart_fresh (s : State) (p : Nat) (f : Part → Part) : (s.modPart p f).fresh = s.fresh := rfl
@[simp] theorem State.modPart_agenda (s : State) (p : Nat) (f : Part → Part) : (s.modPart p f).agenda = s.agenda := rfl
@[simp] theorem State.modPart_cur (s : State) (p : Nat) (f : Part → Part) : (s.modPart p f).cur = s.cur := rfl
@[simp] theorem State.modPart_mem (s : State) (p : Nat) (f : Part → Part) : (s.modPart p f).mem = s.mem := rfl
@[simp] theorem State.modPart_undef (s : State) (p : Nat) (f : Part → Part) : (s.modPart p f).undef = s.undef := rfl
@[simp] theorem State.modPart_homes (s : State) (p : Nat) (f : Part → Part) : (s.modPart p f).homes = s.homes := rfl
@[simp] theorem State.modPart_setMaxExp (s : State) (p : Nat) (f : Part → Part) : (s.modPart p f).setMaxExp = s.setMaxExp := rfl
@[simp] theorem State.modPart_wrote (s : State) (p : Nat) (f : Part → Part) : (s.modPart p f).wrote = s.wrote := rfl
@[simp] theorem State.modPart_poisoned (s : State) (p : Nat) (f : Part → Part) : (s.modPart p f).poisoned = s.poisoned := rfl
@[simp] theorem State.modPart_pageParts (s : State) (p : Nat) (f : Part → Part) : (s.modPart p f).pageParts = s.pageParts := rfl
@[simp] theorem State.modPart_pageRecs (s : State) (p : Nat) (f : Part → Part) : (s.modPart p f).pageRecs = s.pageRecs := rfl
@[simp] theorem State.modPart_regions (s : State) (p : Nat) (f : Part → Part) : (s.modPart p f).regions = s.regions := rfl
@[simp] theorem State.modPart_reqs (s : State) (p : Nat) (f : Part → Part) : (s.modPart p f).reqs = s.reqs := rfl
@[simp] theorem State.modPart_late (s : State) (p : Nat) (f : Part → Part) : (s.modPart p f).late = s.late := rfl
@[simp] theorem State.modPart_nextReq (s : State) (p : Nat) (f : Part → Part) : (s.modPart p f).nextReq = s.nextReq := rfl
@[simp] theorem State.modPart_monitors (s : State) (p : Nat) (f : Part → Part) : (s.modPart p f).monitors = s.monitors := rfl
@[simp] theorem State.modPart_sluices (s : State) (p : Nat) (f : Part → Part) : (s.modPart p f).sluices = s.sluices := rfl
@[simp] theorem State.modPart_threads (s : State) (p : Nat) (f : Part → Part) : (s.modPart p f).threads = s.threads := rfl
@[simp] theorem State.modPart_groups (s : State) (p : Nat) (f : Part → Part) : (s.modPart p f).groups = s.groups := rfl
@[simp] theorem State.modPart_blocks (s : State) (p : Nat) (f : Part → Part) : (s.modPart p f).blocks = s.blocks := rfl
@[simp] theorem State.modPart_nextBlock (s : State) (p : Nat) (f : Part → Part) : (s.modPart p f).nextBlock = s.nextBlock := rfl
@[simp] theorem State.modPart_cores (s : State) (p : Nat) (f : Part → Part) : (s.modPart p f).cores = s.cores := rfl
@[simp] theorem State.modPart_quads (s : State) (p : Nat) (f : Part → Part) : (s.modPart p f).quads = s.quads := rfl
@[simp] theorem State.modPart_slotTags (s : State) (p : Nat) (f : Part → Part) : (s.modPart p f).slotTags = s.slotTags := rfl
@[simp] theorem State.modPart_mxOps (s : State) (p : Nat) (f : Part → Part) : (s.modPart p f).mxOps = s.mxOps := rfl
@[simp] theorem State.modPart_engOps (s : State) (p : Nat) (f : Part → Part) : (s.modPart p f).engOps = s.engOps := rfl
@[simp] theorem State.modPart_nextOp (s : State) (p : Nat) (f : Part → Part) : (s.modPart p f).nextOp = s.nextOp := rfl
@[simp] theorem State.modPart_queues (s : State) (p : Nat) (f : Part → Part) : (s.modPart p f).queues = s.queues := rfl
@[simp] theorem State.modPart_qslots (s : State) (p : Nat) (f : Part → Part) : (s.modPart p f).qslots = s.qslots := rfl
@[simp] theorem State.modPart_childQs (s : State) (p : Nat) (f : Part → Part) : (s.modPart p f).childQs = s.childQs := rfl
@[simp] theorem State.modPart_launches (s : State) (p : Nat) (f : Part → Part) : (s.modPart p f).launches = s.launches := rfl
@[simp] theorem State.modPart_nextLaunch (s : State) (p : Nat) (f : Part → Part) : (s.modPart p f).nextLaunch = s.nextLaunch := rfl
@[simp] theorem State.modPart_ctxs (s : State) (p : Nat) (f : Part → Part) : (s.modPart p f).ctxs = s.ctxs := rfl
@[simp] theorem State.modPart_parts (s : State) (p : Nat) (f : Part → Part) : (s.modPart p f).parts = s.parts.change p f := rfl
@[simp] theorem State.modPart_pkg (s : State) (p : Nat) (f : Part → Part) : (s.modPart p f).pkg = s.pkg := rfl

/-! ### modCtx -/

@[simp] theorem State.modCtx_time (s : State) (c : Nat) (f : Ctx → Ctx) : (s.modCtx c f).time = s.time := rfl
@[simp] theorem State.modCtx_fresh (s : State) (c : Nat) (f : Ctx → Ctx) : (s.modCtx c f).fresh = s.fresh := rfl
@[simp] theorem State.modCtx_agenda (s : State) (c : Nat) (f : Ctx → Ctx) : (s.modCtx c f).agenda = s.agenda := rfl
@[simp] theorem State.modCtx_cur (s : State) (c : Nat) (f : Ctx → Ctx) : (s.modCtx c f).cur = s.cur := rfl
@[simp] theorem State.modCtx_mem (s : State) (c : Nat) (f : Ctx → Ctx) : (s.modCtx c f).mem = s.mem := rfl
@[simp] theorem State.modCtx_undef (s : State) (c : Nat) (f : Ctx → Ctx) : (s.modCtx c f).undef = s.undef := rfl
@[simp] theorem State.modCtx_homes (s : State) (c : Nat) (f : Ctx → Ctx) : (s.modCtx c f).homes = s.homes := rfl
@[simp] theorem State.modCtx_setMaxExp (s : State) (c : Nat) (f : Ctx → Ctx) : (s.modCtx c f).setMaxExp = s.setMaxExp := rfl
@[simp] theorem State.modCtx_wrote (s : State) (c : Nat) (f : Ctx → Ctx) : (s.modCtx c f).wrote = s.wrote := rfl
@[simp] theorem State.modCtx_poisoned (s : State) (c : Nat) (f : Ctx → Ctx) : (s.modCtx c f).poisoned = s.poisoned := rfl
@[simp] theorem State.modCtx_pageParts (s : State) (c : Nat) (f : Ctx → Ctx) : (s.modCtx c f).pageParts = s.pageParts := rfl
@[simp] theorem State.modCtx_pageRecs (s : State) (c : Nat) (f : Ctx → Ctx) : (s.modCtx c f).pageRecs = s.pageRecs := rfl
@[simp] theorem State.modCtx_regions (s : State) (c : Nat) (f : Ctx → Ctx) : (s.modCtx c f).regions = s.regions := rfl
@[simp] theorem State.modCtx_reqs (s : State) (c : Nat) (f : Ctx → Ctx) : (s.modCtx c f).reqs = s.reqs := rfl
@[simp] theorem State.modCtx_late (s : State) (c : Nat) (f : Ctx → Ctx) : (s.modCtx c f).late = s.late := rfl
@[simp] theorem State.modCtx_nextReq (s : State) (c : Nat) (f : Ctx → Ctx) : (s.modCtx c f).nextReq = s.nextReq := rfl
@[simp] theorem State.modCtx_monitors (s : State) (c : Nat) (f : Ctx → Ctx) : (s.modCtx c f).monitors = s.monitors := rfl
@[simp] theorem State.modCtx_sluices (s : State) (c : Nat) (f : Ctx → Ctx) : (s.modCtx c f).sluices = s.sluices := rfl
@[simp] theorem State.modCtx_threads (s : State) (c : Nat) (f : Ctx → Ctx) : (s.modCtx c f).threads = s.threads := rfl
@[simp] theorem State.modCtx_groups (s : State) (c : Nat) (f : Ctx → Ctx) : (s.modCtx c f).groups = s.groups := rfl
@[simp] theorem State.modCtx_blocks (s : State) (c : Nat) (f : Ctx → Ctx) : (s.modCtx c f).blocks = s.blocks := rfl
@[simp] theorem State.modCtx_nextBlock (s : State) (c : Nat) (f : Ctx → Ctx) : (s.modCtx c f).nextBlock = s.nextBlock := rfl
@[simp] theorem State.modCtx_cores (s : State) (c : Nat) (f : Ctx → Ctx) : (s.modCtx c f).cores = s.cores := rfl
@[simp] theorem State.modCtx_quads (s : State) (c : Nat) (f : Ctx → Ctx) : (s.modCtx c f).quads = s.quads := rfl
@[simp] theorem State.modCtx_slotTags (s : State) (c : Nat) (f : Ctx → Ctx) : (s.modCtx c f).slotTags = s.slotTags := rfl
@[simp] theorem State.modCtx_mxOps (s : State) (c : Nat) (f : Ctx → Ctx) : (s.modCtx c f).mxOps = s.mxOps := rfl
@[simp] theorem State.modCtx_engOps (s : State) (c : Nat) (f : Ctx → Ctx) : (s.modCtx c f).engOps = s.engOps := rfl
@[simp] theorem State.modCtx_nextOp (s : State) (c : Nat) (f : Ctx → Ctx) : (s.modCtx c f).nextOp = s.nextOp := rfl
@[simp] theorem State.modCtx_queues (s : State) (c : Nat) (f : Ctx → Ctx) : (s.modCtx c f).queues = s.queues := rfl
@[simp] theorem State.modCtx_qslots (s : State) (c : Nat) (f : Ctx → Ctx) : (s.modCtx c f).qslots = s.qslots := rfl
@[simp] theorem State.modCtx_childQs (s : State) (c : Nat) (f : Ctx → Ctx) : (s.modCtx c f).childQs = s.childQs := rfl
@[simp] theorem State.modCtx_launches (s : State) (c : Nat) (f : Ctx → Ctx) : (s.modCtx c f).launches = s.launches := rfl
@[simp] theorem State.modCtx_nextLaunch (s : State) (c : Nat) (f : Ctx → Ctx) : (s.modCtx c f).nextLaunch = s.nextLaunch := rfl
@[simp] theorem State.modCtx_ctxs (s : State) (c : Nat) (f : Ctx → Ctx) : (s.modCtx c f).ctxs = s.ctxs.change c f := rfl
@[simp] theorem State.modCtx_parts (s : State) (c : Nat) (f : Ctx → Ctx) : (s.modCtx c f).parts = s.parts := rfl
@[simp] theorem State.modCtx_pkg (s : State) (c : Nat) (f : Ctx → Ctx) : (s.modCtx c f).pkg = s.pkg := rfl

/-! ### modLaunch -/

@[simp] theorem State.modLaunch_time (s : State) (l : Nat) (f : Launch → Launch) : (s.modLaunch l f).time = s.time := rfl
@[simp] theorem State.modLaunch_fresh (s : State) (l : Nat) (f : Launch → Launch) : (s.modLaunch l f).fresh = s.fresh := rfl
@[simp] theorem State.modLaunch_agenda (s : State) (l : Nat) (f : Launch → Launch) : (s.modLaunch l f).agenda = s.agenda := rfl
@[simp] theorem State.modLaunch_cur (s : State) (l : Nat) (f : Launch → Launch) : (s.modLaunch l f).cur = s.cur := rfl
@[simp] theorem State.modLaunch_mem (s : State) (l : Nat) (f : Launch → Launch) : (s.modLaunch l f).mem = s.mem := rfl
@[simp] theorem State.modLaunch_undef (s : State) (l : Nat) (f : Launch → Launch) : (s.modLaunch l f).undef = s.undef := rfl
@[simp] theorem State.modLaunch_homes (s : State) (l : Nat) (f : Launch → Launch) : (s.modLaunch l f).homes = s.homes := rfl
@[simp] theorem State.modLaunch_setMaxExp (s : State) (l : Nat) (f : Launch → Launch) : (s.modLaunch l f).setMaxExp = s.setMaxExp := rfl
@[simp] theorem State.modLaunch_wrote (s : State) (l : Nat) (f : Launch → Launch) : (s.modLaunch l f).wrote = s.wrote := rfl
@[simp] theorem State.modLaunch_poisoned (s : State) (l : Nat) (f : Launch → Launch) : (s.modLaunch l f).poisoned = s.poisoned := rfl
@[simp] theorem State.modLaunch_pageParts (s : State) (l : Nat) (f : Launch → Launch) : (s.modLaunch l f).pageParts = s.pageParts := rfl
@[simp] theorem State.modLaunch_pageRecs (s : State) (l : Nat) (f : Launch → Launch) : (s.modLaunch l f).pageRecs = s.pageRecs := rfl
@[simp] theorem State.modLaunch_regions (s : State) (l : Nat) (f : Launch → Launch) : (s.modLaunch l f).regions = s.regions := rfl
@[simp] theorem State.modLaunch_reqs (s : State) (l : Nat) (f : Launch → Launch) : (s.modLaunch l f).reqs = s.reqs := rfl
@[simp] theorem State.modLaunch_late (s : State) (l : Nat) (f : Launch → Launch) : (s.modLaunch l f).late = s.late := rfl
@[simp] theorem State.modLaunch_nextReq (s : State) (l : Nat) (f : Launch → Launch) : (s.modLaunch l f).nextReq = s.nextReq := rfl
@[simp] theorem State.modLaunch_monitors (s : State) (l : Nat) (f : Launch → Launch) : (s.modLaunch l f).monitors = s.monitors := rfl
@[simp] theorem State.modLaunch_sluices (s : State) (l : Nat) (f : Launch → Launch) : (s.modLaunch l f).sluices = s.sluices := rfl
@[simp] theorem State.modLaunch_threads (s : State) (l : Nat) (f : Launch → Launch) : (s.modLaunch l f).threads = s.threads := rfl
@[simp] theorem State.modLaunch_groups (s : State) (l : Nat) (f : Launch → Launch) : (s.modLaunch l f).groups = s.groups := rfl
@[simp] theorem State.modLaunch_blocks (s : State) (l : Nat) (f : Launch → Launch) : (s.modLaunch l f).blocks = s.blocks := rfl
@[simp] theorem State.modLaunch_nextBlock (s : State) (l : Nat) (f : Launch → Launch) : (s.modLaunch l f).nextBlock = s.nextBlock := rfl
@[simp] theorem State.modLaunch_cores (s : State) (l : Nat) (f : Launch → Launch) : (s.modLaunch l f).cores = s.cores := rfl
@[simp] theorem State.modLaunch_quads (s : State) (l : Nat) (f : Launch → Launch) : (s.modLaunch l f).quads = s.quads := rfl
@[simp] theorem State.modLaunch_slotTags (s : State) (l : Nat) (f : Launch → Launch) : (s.modLaunch l f).slotTags = s.slotTags := rfl
@[simp] theorem State.modLaunch_mxOps (s : State) (l : Nat) (f : Launch → Launch) : (s.modLaunch l f).mxOps = s.mxOps := rfl
@[simp] theorem State.modLaunch_engOps (s : State) (l : Nat) (f : Launch → Launch) : (s.modLaunch l f).engOps = s.engOps := rfl
@[simp] theorem State.modLaunch_nextOp (s : State) (l : Nat) (f : Launch → Launch) : (s.modLaunch l f).nextOp = s.nextOp := rfl
@[simp] theorem State.modLaunch_queues (s : State) (l : Nat) (f : Launch → Launch) : (s.modLaunch l f).queues = s.queues := rfl
@[simp] theorem State.modLaunch_qslots (s : State) (l : Nat) (f : Launch → Launch) : (s.modLaunch l f).qslots = s.qslots := rfl
@[simp] theorem State.modLaunch_childQs (s : State) (l : Nat) (f : Launch → Launch) : (s.modLaunch l f).childQs = s.childQs := rfl
@[simp] theorem State.modLaunch_launches (s : State) (l : Nat) (f : Launch → Launch) : (s.modLaunch l f).launches = s.launches.change l f := rfl
@[simp] theorem State.modLaunch_nextLaunch (s : State) (l : Nat) (f : Launch → Launch) : (s.modLaunch l f).nextLaunch = s.nextLaunch := rfl
@[simp] theorem State.modLaunch_ctxs (s : State) (l : Nat) (f : Launch → Launch) : (s.modLaunch l f).ctxs = s.ctxs := rfl
@[simp] theorem State.modLaunch_parts (s : State) (l : Nat) (f : Launch → Launch) : (s.modLaunch l f).parts = s.parts := rfl
@[simp] theorem State.modLaunch_pkg (s : State) (l : Nat) (f : Launch → Launch) : (s.modLaunch l f).pkg = s.pkg := rfl

/-! ### modReq -/

@[simp] theorem State.modReq_time (s : State) (r : Nat) (f : Req → Req) : (s.modReq r f).time = s.time := rfl
@[simp] theorem State.modReq_fresh (s : State) (r : Nat) (f : Req → Req) : (s.modReq r f).fresh = s.fresh := rfl
@[simp] theorem State.modReq_agenda (s : State) (r : Nat) (f : Req → Req) : (s.modReq r f).agenda = s.agenda := rfl
@[simp] theorem State.modReq_cur (s : State) (r : Nat) (f : Req → Req) : (s.modReq r f).cur = s.cur := rfl
@[simp] theorem State.modReq_mem (s : State) (r : Nat) (f : Req → Req) : (s.modReq r f).mem = s.mem := rfl
@[simp] theorem State.modReq_undef (s : State) (r : Nat) (f : Req → Req) : (s.modReq r f).undef = s.undef := rfl
@[simp] theorem State.modReq_homes (s : State) (r : Nat) (f : Req → Req) : (s.modReq r f).homes = s.homes := rfl
@[simp] theorem State.modReq_setMaxExp (s : State) (r : Nat) (f : Req → Req) : (s.modReq r f).setMaxExp = s.setMaxExp := rfl
@[simp] theorem State.modReq_wrote (s : State) (r : Nat) (f : Req → Req) : (s.modReq r f).wrote = s.wrote := rfl
@[simp] theorem State.modReq_poisoned (s : State) (r : Nat) (f : Req → Req) : (s.modReq r f).poisoned = s.poisoned := rfl
@[simp] theorem State.modReq_pageParts (s : State) (r : Nat) (f : Req → Req) : (s.modReq r f).pageParts = s.pageParts := rfl
@[simp] theorem State.modReq_pageRecs (s : State) (r : Nat) (f : Req → Req) : (s.modReq r f).pageRecs = s.pageRecs := rfl
@[simp] theorem State.modReq_regions (s : State) (r : Nat) (f : Req → Req) : (s.modReq r f).regions = s.regions := rfl
@[simp] theorem State.modReq_reqs (s : State) (r : Nat) (f : Req → Req) : (s.modReq r f).reqs = s.reqs.change r f := rfl
@[simp] theorem State.modReq_late (s : State) (r : Nat) (f : Req → Req) : (s.modReq r f).late = s.late := rfl
@[simp] theorem State.modReq_nextReq (s : State) (r : Nat) (f : Req → Req) : (s.modReq r f).nextReq = s.nextReq := rfl
@[simp] theorem State.modReq_monitors (s : State) (r : Nat) (f : Req → Req) : (s.modReq r f).monitors = s.monitors := rfl
@[simp] theorem State.modReq_sluices (s : State) (r : Nat) (f : Req → Req) : (s.modReq r f).sluices = s.sluices := rfl
@[simp] theorem State.modReq_threads (s : State) (r : Nat) (f : Req → Req) : (s.modReq r f).threads = s.threads := rfl
@[simp] theorem State.modReq_groups (s : State) (r : Nat) (f : Req → Req) : (s.modReq r f).groups = s.groups := rfl
@[simp] theorem State.modReq_blocks (s : State) (r : Nat) (f : Req → Req) : (s.modReq r f).blocks = s.blocks := rfl
@[simp] theorem State.modReq_nextBlock (s : State) (r : Nat) (f : Req → Req) : (s.modReq r f).nextBlock = s.nextBlock := rfl
@[simp] theorem State.modReq_cores (s : State) (r : Nat) (f : Req → Req) : (s.modReq r f).cores = s.cores := rfl
@[simp] theorem State.modReq_quads (s : State) (r : Nat) (f : Req → Req) : (s.modReq r f).quads = s.quads := rfl
@[simp] theorem State.modReq_slotTags (s : State) (r : Nat) (f : Req → Req) : (s.modReq r f).slotTags = s.slotTags := rfl
@[simp] theorem State.modReq_mxOps (s : State) (r : Nat) (f : Req → Req) : (s.modReq r f).mxOps = s.mxOps := rfl
@[simp] theorem State.modReq_engOps (s : State) (r : Nat) (f : Req → Req) : (s.modReq r f).engOps = s.engOps := rfl
@[simp] theorem State.modReq_nextOp (s : State) (r : Nat) (f : Req → Req) : (s.modReq r f).nextOp = s.nextOp := rfl
@[simp] theorem State.modReq_queues (s : State) (r : Nat) (f : Req → Req) : (s.modReq r f).queues = s.queues := rfl
@[simp] theorem State.modReq_qslots (s : State) (r : Nat) (f : Req → Req) : (s.modReq r f).qslots = s.qslots := rfl
@[simp] theorem State.modReq_childQs (s : State) (r : Nat) (f : Req → Req) : (s.modReq r f).childQs = s.childQs := rfl
@[simp] theorem State.modReq_launches (s : State) (r : Nat) (f : Req → Req) : (s.modReq r f).launches = s.launches := rfl
@[simp] theorem State.modReq_nextLaunch (s : State) (r : Nat) (f : Req → Req) : (s.modReq r f).nextLaunch = s.nextLaunch := rfl
@[simp] theorem State.modReq_ctxs (s : State) (r : Nat) (f : Req → Req) : (s.modReq r f).ctxs = s.ctxs := rfl
@[simp] theorem State.modReq_parts (s : State) (r : Nat) (f : Req → Req) : (s.modReq r f).parts = s.parts := rfl
@[simp] theorem State.modReq_pkg (s : State) (r : Nat) (f : Req → Req) : (s.modReq r f).pkg = s.pkg := rfl

/-! ### modEng -/

@[simp] theorem State.modEng_time (s : State) (e : Nat) (f : EngOp → EngOp) : (s.modEng e f).time = s.time := rfl
@[simp] theorem State.modEng_fresh (s : State) (e : Nat) (f : EngOp → EngOp) : (s.modEng e f).fresh = s.fresh := rfl
@[simp] theorem State.modEng_agenda (s : State) (e : Nat) (f : EngOp → EngOp) : (s.modEng e f).agenda = s.agenda := rfl
@[simp] theorem State.modEng_cur (s : State) (e : Nat) (f : EngOp → EngOp) : (s.modEng e f).cur = s.cur := rfl
@[simp] theorem State.modEng_mem (s : State) (e : Nat) (f : EngOp → EngOp) : (s.modEng e f).mem = s.mem := rfl
@[simp] theorem State.modEng_undef (s : State) (e : Nat) (f : EngOp → EngOp) : (s.modEng e f).undef = s.undef := rfl
@[simp] theorem State.modEng_homes (s : State) (e : Nat) (f : EngOp → EngOp) : (s.modEng e f).homes = s.homes := rfl
@[simp] theorem State.modEng_setMaxExp (s : State) (e : Nat) (f : EngOp → EngOp) : (s.modEng e f).setMaxExp = s.setMaxExp := rfl
@[simp] theorem State.modEng_wrote (s : State) (e : Nat) (f : EngOp → EngOp) : (s.modEng e f).wrote = s.wrote := rfl
@[simp] theorem State.modEng_poisoned (s : State) (e : Nat) (f : EngOp → EngOp) : (s.modEng e f).poisoned = s.poisoned := rfl
@[simp] theorem State.modEng_pageParts (s : State) (e : Nat) (f : EngOp → EngOp) : (s.modEng e f).pageParts = s.pageParts := rfl
@[simp] theorem State.modEng_pageRecs (s : State) (e : Nat) (f : EngOp → EngOp) : (s.modEng e f).pageRecs = s.pageRecs := rfl
@[simp] theorem State.modEng_regions (s : State) (e : Nat) (f : EngOp → EngOp) : (s.modEng e f).regions = s.regions := rfl
@[simp] theorem State.modEng_reqs (s : State) (e : Nat) (f : EngOp → EngOp) : (s.modEng e f).reqs = s.reqs := rfl
@[simp] theorem State.modEng_late (s : State) (e : Nat) (f : EngOp → EngOp) : (s.modEng e f).late = s.late := rfl
@[simp] theorem State.modEng_nextReq (s : State) (e : Nat) (f : EngOp → EngOp) : (s.modEng e f).nextReq = s.nextReq := rfl
@[simp] theorem State.modEng_monitors (s : State) (e : Nat) (f : EngOp → EngOp) : (s.modEng e f).monitors = s.monitors := rfl
@[simp] theorem State.modEng_sluices (s : State) (e : Nat) (f : EngOp → EngOp) : (s.modEng e f).sluices = s.sluices := rfl
@[simp] theorem State.modEng_threads (s : State) (e : Nat) (f : EngOp → EngOp) : (s.modEng e f).threads = s.threads := rfl
@[simp] theorem State.modEng_groups (s : State) (e : Nat) (f : EngOp → EngOp) : (s.modEng e f).groups = s.groups := rfl
@[simp] theorem State.modEng_blocks (s : State) (e : Nat) (f : EngOp → EngOp) : (s.modEng e f).blocks = s.blocks := rfl
@[simp] theorem State.modEng_nextBlock (s : State) (e : Nat) (f : EngOp → EngOp) : (s.modEng e f).nextBlock = s.nextBlock := rfl
@[simp] theorem State.modEng_cores (s : State) (e : Nat) (f : EngOp → EngOp) : (s.modEng e f).cores = s.cores := rfl
@[simp] theorem State.modEng_quads (s : State) (e : Nat) (f : EngOp → EngOp) : (s.modEng e f).quads = s.quads := rfl
@[simp] theorem State.modEng_slotTags (s : State) (e : Nat) (f : EngOp → EngOp) : (s.modEng e f).slotTags = s.slotTags := rfl
@[simp] theorem State.modEng_mxOps (s : State) (e : Nat) (f : EngOp → EngOp) : (s.modEng e f).mxOps = s.mxOps := rfl
@[simp] theorem State.modEng_engOps (s : State) (e : Nat) (f : EngOp → EngOp) : (s.modEng e f).engOps = s.engOps.change e f := rfl
@[simp] theorem State.modEng_nextOp (s : State) (e : Nat) (f : EngOp → EngOp) : (s.modEng e f).nextOp = s.nextOp := rfl
@[simp] theorem State.modEng_queues (s : State) (e : Nat) (f : EngOp → EngOp) : (s.modEng e f).queues = s.queues := rfl
@[simp] theorem State.modEng_qslots (s : State) (e : Nat) (f : EngOp → EngOp) : (s.modEng e f).qslots = s.qslots := rfl
@[simp] theorem State.modEng_childQs (s : State) (e : Nat) (f : EngOp → EngOp) : (s.modEng e f).childQs = s.childQs := rfl
@[simp] theorem State.modEng_launches (s : State) (e : Nat) (f : EngOp → EngOp) : (s.modEng e f).launches = s.launches := rfl
@[simp] theorem State.modEng_nextLaunch (s : State) (e : Nat) (f : EngOp → EngOp) : (s.modEng e f).nextLaunch = s.nextLaunch := rfl
@[simp] theorem State.modEng_ctxs (s : State) (e : Nat) (f : EngOp → EngOp) : (s.modEng e f).ctxs = s.ctxs := rfl
@[simp] theorem State.modEng_parts (s : State) (e : Nat) (f : EngOp → EngOp) : (s.modEng e f).parts = s.parts := rfl
@[simp] theorem State.modEng_pkg (s : State) (e : Nat) (f : EngOp → EngOp) : (s.modEng e f).pkg = s.pkg := rfl

/-! ### modSlot -/

@[simp] theorem State.modSlot_time (s : State) (c o : Nat) (f : OSlot → OSlot) : (s.modSlot c o f).time = s.time := rfl
@[simp] theorem State.modSlot_fresh (s : State) (c o : Nat) (f : OSlot → OSlot) : (s.modSlot c o f).fresh = s.fresh := rfl
@[simp] theorem State.modSlot_agenda (s : State) (c o : Nat) (f : OSlot → OSlot) : (s.modSlot c o f).agenda = s.agenda := rfl
@[simp] theorem State.modSlot_cur (s : State) (c o : Nat) (f : OSlot → OSlot) : (s.modSlot c o f).cur = s.cur := rfl
@[simp] theorem State.modSlot_mem (s : State) (c o : Nat) (f : OSlot → OSlot) : (s.modSlot c o f).mem = s.mem := rfl
@[simp] theorem State.modSlot_undef (s : State) (c o : Nat) (f : OSlot → OSlot) : (s.modSlot c o f).undef = s.undef := rfl
@[simp] theorem State.modSlot_homes (s : State) (c o : Nat) (f : OSlot → OSlot) : (s.modSlot c o f).homes = s.homes := rfl
@[simp] theorem State.modSlot_setMaxExp (s : State) (c o : Nat) (f : OSlot → OSlot) : (s.modSlot c o f).setMaxExp = s.setMaxExp := rfl
@[simp] theorem State.modSlot_wrote (s : State) (c o : Nat) (f : OSlot → OSlot) : (s.modSlot c o f).wrote = s.wrote := rfl
@[simp] theorem State.modSlot_poisoned (s : State) (c o : Nat) (f : OSlot → OSlot) : (s.modSlot c o f).poisoned = s.poisoned := rfl
@[simp] theorem State.modSlot_pageParts (s : State) (c o : Nat) (f : OSlot → OSlot) : (s.modSlot c o f).pageParts = s.pageParts := rfl
@[simp] theorem State.modSlot_pageRecs (s : State) (c o : Nat) (f : OSlot → OSlot) : (s.modSlot c o f).pageRecs = s.pageRecs := rfl
@[simp] theorem State.modSlot_regions (s : State) (c o : Nat) (f : OSlot → OSlot) : (s.modSlot c o f).regions = s.regions := rfl
@[simp] theorem State.modSlot_reqs (s : State) (c o : Nat) (f : OSlot → OSlot) : (s.modSlot c o f).reqs = s.reqs := rfl
@[simp] theorem State.modSlot_late (s : State) (c o : Nat) (f : OSlot → OSlot) : (s.modSlot c o f).late = s.late := rfl
@[simp] theorem State.modSlot_nextReq (s : State) (c o : Nat) (f : OSlot → OSlot) : (s.modSlot c o f).nextReq = s.nextReq := rfl
@[simp] theorem State.modSlot_monitors (s : State) (c o : Nat) (f : OSlot → OSlot) : (s.modSlot c o f).monitors = s.monitors := rfl
@[simp] theorem State.modSlot_sluices (s : State) (c o : Nat) (f : OSlot → OSlot) : (s.modSlot c o f).sluices = s.sluices := rfl
@[simp] theorem State.modSlot_threads (s : State) (c o : Nat) (f : OSlot → OSlot) : (s.modSlot c o f).threads = s.threads := rfl
@[simp] theorem State.modSlot_groups (s : State) (c o : Nat) (f : OSlot → OSlot) : (s.modSlot c o f).groups = s.groups := rfl
@[simp] theorem State.modSlot_blocks (s : State) (c o : Nat) (f : OSlot → OSlot) : (s.modSlot c o f).blocks = s.blocks := rfl
@[simp] theorem State.modSlot_nextBlock (s : State) (c o : Nat) (f : OSlot → OSlot) : (s.modSlot c o f).nextBlock = s.nextBlock := rfl
@[simp] theorem State.modSlot_cores (s : State) (c o : Nat) (f : OSlot → OSlot) : (s.modSlot c o f).cores = (s.modCore c fun x => { x with oslots := x.oslots.modify o f }).cores := rfl
@[simp] theorem State.modSlot_quads (s : State) (c o : Nat) (f : OSlot → OSlot) : (s.modSlot c o f).quads = s.quads := rfl
@[simp] theorem State.modSlot_slotTags (s : State) (c o : Nat) (f : OSlot → OSlot) : (s.modSlot c o f).slotTags = s.slotTags := rfl
@[simp] theorem State.modSlot_mxOps (s : State) (c o : Nat) (f : OSlot → OSlot) : (s.modSlot c o f).mxOps = s.mxOps := rfl
@[simp] theorem State.modSlot_engOps (s : State) (c o : Nat) (f : OSlot → OSlot) : (s.modSlot c o f).engOps = s.engOps := rfl
@[simp] theorem State.modSlot_nextOp (s : State) (c o : Nat) (f : OSlot → OSlot) : (s.modSlot c o f).nextOp = s.nextOp := rfl
@[simp] theorem State.modSlot_queues (s : State) (c o : Nat) (f : OSlot → OSlot) : (s.modSlot c o f).queues = s.queues := rfl
@[simp] theorem State.modSlot_qslots (s : State) (c o : Nat) (f : OSlot → OSlot) : (s.modSlot c o f).qslots = s.qslots := rfl
@[simp] theorem State.modSlot_childQs (s : State) (c o : Nat) (f : OSlot → OSlot) : (s.modSlot c o f).childQs = s.childQs := rfl
@[simp] theorem State.modSlot_launches (s : State) (c o : Nat) (f : OSlot → OSlot) : (s.modSlot c o f).launches = s.launches := rfl
@[simp] theorem State.modSlot_nextLaunch (s : State) (c o : Nat) (f : OSlot → OSlot) : (s.modSlot c o f).nextLaunch = s.nextLaunch := rfl
@[simp] theorem State.modSlot_ctxs (s : State) (c o : Nat) (f : OSlot → OSlot) : (s.modSlot c o f).ctxs = s.ctxs := rfl
@[simp] theorem State.modSlot_parts (s : State) (c o : Nat) (f : OSlot → OSlot) : (s.modSlot c o f).parts = s.parts := rfl
@[simp] theorem State.modSlot_pkg (s : State) (c o : Nat) (f : OSlot → OSlot) : (s.modSlot c o f).pkg = s.pkg := rfl

/-! ### modPkg -/

@[simp] theorem State.modPkg_time (s : State) (f : Package → Package) : (s.modPkg f).time = s.time := rfl
@[simp] theorem State.modPkg_fresh (s : State) (f : Package → Package) : (s.modPkg f).fresh = s.fresh := rfl
@[simp] theorem State.modPkg_agenda (s : State) (f : Package → Package) : (s.modPkg f).agenda = s.agenda := rfl
@[simp] theorem State.modPkg_cur (s : State) (f : Package → Package) : (s.modPkg f).cur = s.cur := rfl
@[simp] theorem State.modPkg_mem (s : State) (f : Package → Package) : (s.modPkg f).mem = s.mem := rfl
@[simp] theorem State.modPkg_undef (s : State) (f : Package → Package) : (s.modPkg f).undef = s.undef := rfl
@[simp] theorem State.modPkg_homes (s : State) (f : Package → Package) : (s.modPkg f).homes = s.homes := rfl
@[simp] theorem State.modPkg_setMaxExp (s : State) (f : Package → Package) : (s.modPkg f).setMaxExp = s.setMaxExp := rfl
@[simp] theorem State.modPkg_wrote (s : State) (f : Package → Package) : (s.modPkg f).wrote = s.wrote := rfl
@[simp] theorem State.modPkg_poisoned (s : State) (f : Package → Package) : (s.modPkg f).poisoned = s.poisoned := rfl
@[simp] theorem State.modPkg_pageParts (s : State) (f : Package → Package) : (s.modPkg f).pageParts = s.pageParts := rfl
@[simp] theorem State.modPkg_pageRecs (s : State) (f : Package → Package) : (s.modPkg f).pageRecs = s.pageRecs := rfl
@[simp] theorem State.modPkg_regions (s : State) (f : Package → Package) : (s.modPkg f).regions = s.regions := rfl
@[simp] theorem State.modPkg_reqs (s : State) (f : Package → Package) : (s.modPkg f).reqs = s.reqs := rfl
@[simp] theorem State.modPkg_late (s : State) (f : Package → Package) : (s.modPkg f).late = s.late := rfl
@[simp] theorem State.modPkg_nextReq (s : State) (f : Package → Package) : (s.modPkg f).nextReq = s.nextReq := rfl
@[simp] theorem State.modPkg_monitors (s : State) (f : Package → Package) : (s.modPkg f).monitors = s.monitors := rfl
@[simp] theorem State.modPkg_sluices (s : State) (f : Package → Package) : (s.modPkg f).sluices = s.sluices := rfl
@[simp] theorem State.modPkg_threads (s : State) (f : Package → Package) : (s.modPkg f).threads = s.threads := rfl
@[simp] theorem State.modPkg_groups (s : State) (f : Package → Package) : (s.modPkg f).groups = s.groups := rfl
@[simp] theorem State.modPkg_blocks (s : State) (f : Package → Package) : (s.modPkg f).blocks = s.blocks := rfl
@[simp] theorem State.modPkg_nextBlock (s : State) (f : Package → Package) : (s.modPkg f).nextBlock = s.nextBlock := rfl
@[simp] theorem State.modPkg_cores (s : State) (f : Package → Package) : (s.modPkg f).cores = s.cores := rfl
@[simp] theorem State.modPkg_quads (s : State) (f : Package → Package) : (s.modPkg f).quads = s.quads := rfl
@[simp] theorem State.modPkg_slotTags (s : State) (f : Package → Package) : (s.modPkg f).slotTags = s.slotTags := rfl
@[simp] theorem State.modPkg_mxOps (s : State) (f : Package → Package) : (s.modPkg f).mxOps = s.mxOps := rfl
@[simp] theorem State.modPkg_engOps (s : State) (f : Package → Package) : (s.modPkg f).engOps = s.engOps := rfl
@[simp] theorem State.modPkg_nextOp (s : State) (f : Package → Package) : (s.modPkg f).nextOp = s.nextOp := rfl
@[simp] theorem State.modPkg_queues (s : State) (f : Package → Package) : (s.modPkg f).queues = s.queues := rfl
@[simp] theorem State.modPkg_qslots (s : State) (f : Package → Package) : (s.modPkg f).qslots = s.qslots := rfl
@[simp] theorem State.modPkg_childQs (s : State) (f : Package → Package) : (s.modPkg f).childQs = s.childQs := rfl
@[simp] theorem State.modPkg_launches (s : State) (f : Package → Package) : (s.modPkg f).launches = s.launches := rfl
@[simp] theorem State.modPkg_nextLaunch (s : State) (f : Package → Package) : (s.modPkg f).nextLaunch = s.nextLaunch := rfl
@[simp] theorem State.modPkg_ctxs (s : State) (f : Package → Package) : (s.modPkg f).ctxs = s.ctxs := rfl
@[simp] theorem State.modPkg_parts (s : State) (f : Package → Package) : (s.modPkg f).parts = s.parts := rfl
@[simp] theorem State.modPkg_pkg (s : State) (f : Package → Package) : (s.modPkg f).pkg = f s.pkg := rfl

/-! ### An entry after an update -/

theorem State.thr_of_find {s : State} {k : Nat} {t : Thread} (h : s.threads.find k = some t) : s.thr k = t := by
  simp [State.thr, h]

theorem State.find_thr {s : State} {k : Nat} (h : (s.threads.find k).isSome) : s.threads.find k = some (s.thr k) := by
  obtain ⟨t, ht⟩ := Option.isSome_iff_exists.mp h
  simp [State.thr, ht]

theorem State.find_modThr_same (s : State) (k : Nat) (f : Thread → Thread) :
    (s.modThr k f).threads.find k = (s.threads.find k).map f := Tbl.find_change_same k f s.threads

theorem State.find_modThr_other (s : State) {k j : Nat} (f : Thread → Thread) (h : j ≠ k) :
    (s.modThr k f).threads.find j = s.threads.find j := Tbl.find_change_other f s.threads h

theorem State.thr_modThr_same {s : State} {k : Nat} (f : Thread → Thread) (h : (s.threads.find k).isSome) :
    (s.modThr k f).thr k = f (s.thr k) := by
  obtain ⟨t, ht⟩ := Option.isSome_iff_exists.mp h
  simp [State.thr, Tbl.find_change_same, ht]

theorem State.thr_modThr_other (s : State) {k j : Nat} (f : Thread → Thread) (h : j ≠ k) :
    (s.modThr k f).thr j = s.thr j := by simp [State.thr, Tbl.find_change_other f s.threads h]

theorem State.grp_modGrp_same {s : State} {g : Nat} (f : Group → Group) (h : (s.groups.find g).isSome) :
    (s.modGrp g f).grp g = f (s.grp g) := by
  obtain ⟨t, ht⟩ := Option.isSome_iff_exists.mp h
  simp [State.grp, Tbl.find_change_same, ht]

theorem State.grp_modGrp_other (s : State) {g j : Nat} (f : Group → Group) (h : j ≠ g) :
    (s.modGrp g f).grp j = s.grp j := by simp [State.grp, Tbl.find_change_other f s.groups h]

theorem State.blk_modBlk_same {s : State} {b : Nat} (f : Block → Block) (h : (s.blocks.find b).isSome) :
    (s.modBlk b f).blk b = f (s.blk b) := by
  obtain ⟨t, ht⟩ := Option.isSome_iff_exists.mp h
  simp [State.blk, Tbl.find_change_same, ht]

theorem State.blk_modBlk_other (s : State) {b j : Nat} (f : Block → Block) (h : j ≠ b) :
    (s.modBlk b f).blk j = s.blk j := by simp [State.blk, Tbl.find_change_other f s.blocks h]

theorem State.coreAt_modCore_same (s : State) (c : Nat) (f : Core → Core) :
    (s.modCore c f).coreAt c = f (s.coreAt c) := by simp [State.coreAt]

theorem State.coreAt_modCore_other (s : State) {c j : Nat} (f : Core → Core) (h : j ≠ c) :
    (s.modCore c f).coreAt j = s.coreAt j := by simp [State.coreAt, Tbl.find_put_other _ s.cores h]

theorem State.quadAt_modQuad_same (s : State) (q : Nat) (f : Quad → Quad) :
    (s.modQuad q f).quadAt q = f (s.quadAt q) := by simp [State.quadAt]

theorem State.queueAt_modQueue_same (s : State) (q : Nat) (f : Queue → Queue) :
    (s.modQueue q f).queueAt q = f (s.queueAt q) := by simp [State.queueAt]

theorem State.partAt_modPart_same {s : State} {p : Nat} (f : Part → Part) (h : (s.parts.find p).isSome) :
    (s.modPart p f).partAt p = f (s.partAt p) := by
  obtain ⟨t, ht⟩ := Option.isSome_iff_exists.mp h
  simp [State.partAt, Tbl.find_change_same, ht]

/-! ### Reads that an update of another table leaves -/

@[simp] theorem State.grp_modThr (s : State) (k : Nat) (f : Thread → Thread) (i : Nat) : (s.modThr k f).grp i = s.grp i := rfl
@[simp] theorem State.blk_modThr (s : State) (k : Nat) (f : Thread → Thread) (i : Nat) : (s.modThr k f).blk i = s.blk i := rfl
@[simp] theorem State.coreAt_modThr (s : State) (k : Nat) (f : Thread → Thread) (i : Nat) : (s.modThr k f).coreAt i = s.coreAt i := rfl
@[simp] theorem State.quadAt_modThr (s : State) (k : Nat) (f : Thread → Thread) (i : Nat) : (s.modThr k f).quadAt i = s.quadAt i := rfl
@[simp] theorem State.partAt_modThr (s : State) (k : Nat) (f : Thread → Thread) (i : Nat) : (s.modThr k f).partAt i = s.partAt i := rfl
@[simp] theorem State.thr_modGrp (s : State) (g : Nat) (f : Group → Group) (i : Nat) : (s.modGrp g f).thr i = s.thr i := rfl
@[simp] theorem State.blk_modGrp (s : State) (g : Nat) (f : Group → Group) (i : Nat) : (s.modGrp g f).blk i = s.blk i := rfl
@[simp] theorem State.coreAt_modGrp (s : State) (g : Nat) (f : Group → Group) (i : Nat) : (s.modGrp g f).coreAt i = s.coreAt i := rfl
@[simp] theorem State.quadAt_modGrp (s : State) (g : Nat) (f : Group → Group) (i : Nat) : (s.modGrp g f).quadAt i = s.quadAt i := rfl
@[simp] theorem State.partAt_modGrp (s : State) (g : Nat) (f : Group → Group) (i : Nat) : (s.modGrp g f).partAt i = s.partAt i := rfl
@[simp] theorem State.thr_modBlk (s : State) (b : Nat) (f : Block → Block) (i : Nat) : (s.modBlk b f).thr i = s.thr i := rfl
@[simp] theorem State.grp_modBlk (s : State) (b : Nat) (f : Block → Block) (i : Nat) : (s.modBlk b f).grp i = s.grp i := rfl
@[simp] theorem State.coreAt_modBlk (s : State) (b : Nat) (f : Block → Block) (i : Nat) : (s.modBlk b f).coreAt i = s.coreAt i := rfl
@[simp] theorem State.quadAt_modBlk (s : State) (b : Nat) (f : Block → Block) (i : Nat) : (s.modBlk b f).quadAt i = s.quadAt i := rfl
@[simp] theorem State.partAt_modBlk (s : State) (b : Nat) (f : Block → Block) (i : Nat) : (s.modBlk b f).partAt i = s.partAt i := rfl
@[simp] theorem State.thr_modCore (s : State) (c : Nat) (f : Core → Core) (i : Nat) : (s.modCore c f).thr i = s.thr i := rfl
@[simp] theorem State.grp_modCore (s : State) (c : Nat) (f : Core → Core) (i : Nat) : (s.modCore c f).grp i = s.grp i := rfl
@[simp] theorem State.blk_modCore (s : State) (c : Nat) (f : Core → Core) (i : Nat) : (s.modCore c f).blk i = s.blk i := rfl
@[simp] theorem State.quadAt_modCore (s : State) (c : Nat) (f : Core → Core) (i : Nat) : (s.modCore c f).quadAt i = s.quadAt i := rfl
@[simp] theorem State.partAt_modCore (s : State) (c : Nat) (f : Core → Core) (i : Nat) : (s.modCore c f).partAt i = s.partAt i := rfl
@[simp] theorem State.thr_modQuad (s : State) (q : Nat) (f : Quad → Quad) (i : Nat) : (s.modQuad q f).thr i = s.thr i := rfl
@[simp] theorem State.grp_modQuad (s : State) (q : Nat) (f : Quad → Quad) (i : Nat) : (s.modQuad q f).grp i = s.grp i := rfl
@[simp] theorem State.blk_modQuad (s : State) (q : Nat) (f : Quad → Quad) (i : Nat) : (s.modQuad q f).blk i = s.blk i := rfl
@[simp] theorem State.coreAt_modQuad (s : State) (q : Nat) (f : Quad → Quad) (i : Nat) : (s.modQuad q f).coreAt i = s.coreAt i := rfl
@[simp] theorem State.partAt_modQuad (s : State) (q : Nat) (f : Quad → Quad) (i : Nat) : (s.modQuad q f).partAt i = s.partAt i := rfl
@[simp] theorem State.thr_modQueue (s : State) (q : Nat) (f : Queue → Queue) (i : Nat) : (s.modQueue q f).thr i = s.thr i := rfl
@[simp] theorem State.grp_modQueue (s : State) (q : Nat) (f : Queue → Queue) (i : Nat) : (s.modQueue q f).grp i = s.grp i := rfl
@[simp] theorem State.blk_modQueue (s : State) (q : Nat) (f : Queue → Queue) (i : Nat) : (s.modQueue q f).blk i = s.blk i := rfl
@[simp] theorem State.coreAt_modQueue (s : State) (q : Nat) (f : Queue → Queue) (i : Nat) : (s.modQueue q f).coreAt i = s.coreAt i := rfl
@[simp] theorem State.quadAt_modQueue (s : State) (q : Nat) (f : Queue → Queue) (i : Nat) : (s.modQueue q f).quadAt i = s.quadAt i := rfl
@[simp] theorem State.partAt_modQueue (s : State) (q : Nat) (f : Queue → Queue) (i : Nat) : (s.modQueue q f).partAt i = s.partAt i := rfl
@[simp] theorem State.thr_modPart (s : State) (p : Nat) (f : Part → Part) (i : Nat) : (s.modPart p f).thr i = s.thr i := rfl
@[simp] theorem State.grp_modPart (s : State) (p : Nat) (f : Part → Part) (i : Nat) : (s.modPart p f).grp i = s.grp i := rfl
@[simp] theorem State.blk_modPart (s : State) (p : Nat) (f : Part → Part) (i : Nat) : (s.modPart p f).blk i = s.blk i := rfl
@[simp] theorem State.coreAt_modPart (s : State) (p : Nat) (f : Part → Part) (i : Nat) : (s.modPart p f).coreAt i = s.coreAt i := rfl
@[simp] theorem State.quadAt_modPart (s : State) (p : Nat) (f : Part → Part) (i : Nat) : (s.modPart p f).quadAt i = s.quadAt i := rfl

end Sys2Proof.Machine
end

