-- ==== Sys2Proof/Laws/Driver.lean ====
section
/-! SUPPORT. What an instruction does to its bundle: one lane alone, or every lane by itself where the lanes touch
nothing but their own threads. -/

namespace Sys2Proof.Machine

/-! ### The bundle of a clear instruction -/

theorem ascending_head {a : Nat} {t : List Nat} (h : ascending (a :: t) = true) :
    ascending t = true ∧ ∀ x ∈ t, laneOf a < laneOf x := by
  induction t generalizing a with
  | nil => simp [ascending]
  | cons b t ih =>
    simp only [ascending, Bool.and_eq_true, decide_eq_true_eq] at h
    refine ⟨h.2, fun x hx => ?_⟩
    cases hx with
    | head => exact h.1
    | tail _ hx => exact Nat.lt_trans h.1 ((ih h.2).2 x hx)

theorem ascending_nodup {l : List Nat} (h : ascending l = true) : l.Nodup := by
  induction l with
  | nil => simp
  | cons a t ih =>
    obtain ⟨h1, h2⟩ := ascending_head h
    refine List.nodup_cons.mpr ⟨fun hm => ?_, ih h1⟩
    exact Nat.lt_irrefl _ (h2 a hm)

theorem State.laneClear_iff {s : State} {opc : Nat} {h : Hdr} {fm : Form} {prot : State → Nat → Bool} {k : Nat} :
    s.laneClear opc h fm prot k = true ↔
      (s.threads.find k).isSome = true ∧ decodeTrap s opc h fm prot k = none ∧ s.busy k h fm = false
        ∧ ((s.thr k).inCapsule && (if (s.thr k).guard h then !ownCapsule opc else isStepOf opc h fm)) = false
        ∧ (readsS h fm = true → s.udivTraps (groupOf k) = false) := by
  simp only [State.laneClear, Bool.and_eq_true, Bool.not_eq_true', and_assoc, Option.isNone_iff_eq_none]
  cases readsS h fm <;> cases s.udivTraps (groupOf k) <;> simp

/-- The values of a lane whose thread runs no capsule, or whose instruction judges that itself. -/
theorem laneValue_clear {s : State} {opc : Nat} {h : Hdr} {fm : Form} {k : Nat}
    (hk : ((s.thr k).inCapsule && !ownCapsule opc) = false) : s.laneValue opc h fm k = s.operands k h fm := by
  unfold State.laneValue
  dsimp only
  cases s.operands k h fm with
  | error e => rfl
  | ok v =>
    cases hc : (s.thr k).capsule with
    | none => rfl
    | some c =>
      have : (!(s.thr k).handler && !ownCapsule opc) = false := by simpa [Thread.inCapsule, hc] using hk
      simp [this]

theorem foldl_id {α β : Type} (f : β → α → β) (b : β) {l : List α} (h : ∀ x ∈ l, ∀ c, f c x = c) : l.foldl f b = b := by
  induction l generalizing b with
  | nil => rfl
  | cons a t ih =>
    rw [List.foldl_cons, h a (by simp)]
    exact ih b fun x hx => h x (by simp [hx])

theorem foldl_congr {α β : Type} {f g : β → α → β} (b : β) {l : List α} (h : ∀ x ∈ l, ∀ c, f c x = g c x) :
    l.foldl f b = l.foldl g b := by
  induction l generalizing b with
  | nil => rfl
  | cons a t ih =>
    rw [List.foldl_cons, List.foldl_cons, h a (by simp)]
    exact ih _ fun x hx => h x (by simp [hx])

theorem decoded_clear {s : State} {opc : Nat} {h : Hdr} {fm : Form} {prot : State → Nat → Bool}
    (hd : ∀ k ∈ s.cur.threads, decodeTrap s opc h fm prot k = none) :
    decoded s opc h fm prot = (s, s.cur.threads) := by
  unfold decoded
  refine Prod.ext (foldl_id _ s fun k hk c => ?_) (List.filter_eq_self.mpr fun k hk => by rw [hd k hk]; rfl)
  simp only [hd k hk]

theorem udivStep_clear {s : State} {h : Hdr} {fm : Form} {ks : List Nat}
    (hu : readsS h fm = true → ∀ k ∈ ks, s.udivTraps (groupOf k) = false) : udivStep s h fm ks = (s, ks) := by
  unfold udivStep
  by_cases hr : readsS h fm = true
  · have hnil : ((ks.map groupOf).eraseDups).filter s.udivTraps = [] := by
      refine List.filter_eq_nil_iff.mpr fun g hg => ?_
      obtain ⟨k, hk, rfl⟩ := List.mem_map.mp (List.mem_eraseDups.mp hg)
      simp [hu hr k hk]
    simp [hr, hnil]
  · simp [hr]

/-- The turn of a passing lane that nothing stops: its trap, or its outcome, in the account. -/
def plainStep (s : State) (h : Hdr) (fm : Form) (f : Entry) (part : List (Nat × Vals)) (r : Run)
    (kv : Nat × Except (Nat × Nat) Vals) : Run :=
  match kv.2 with
  | .error e => r.lane h fm kv.1 (.trap r.s e.1 e.2)
  | .ok v => r.lane h fm kv.1 (f s part kv.1 v r.s)

/-- A clear bundle runs its entry lane by lane, then moves the lanes whose guard fails past the instruction. -/
theorem runLanes_clear {s : State} {opc : Nat} {h : Hdr} {fm : Form} {prot : State → Nat → Bool} (f : Entry)
    (hc : s.clears opc h fm prot = true) :
    runLanes opc h fm prot f s =
      (let pass := s.cur.threads.filter fun k => (s.thr k).guard h
       let fails := s.cur.threads.filter fun k => !(s.thr k).guard h
       let vals := pass.map fun k => (k, s.operands k h fm)
       let r := vals.foldl (plainStep s h fm f (participants vals)) ⟨s, [], []⟩
       (fails.foldl (fun (r : Run) k => { r with s := s.failLane r.s k h fm }) r).finish s h fm pass) := by
  simp only [State.clears, Bool.and_eq_true, List.all_eq_true] at hc
  have hl : ∀ k ∈ s.cur.threads, _ := fun k hk => State.laneClear_iff.mp (hc.2 k hk)
  unfold runLanes
  rw [decoded_clear fun k hk => (hl k hk).2.1]
  have hb : (s.cur.threads.any fun k => s.busy k h fm) = false := by
    simpa [List.any_eq_false] using fun k hk => (hl k hk).2.2.1
  have hu : ∀ k ∈ s.cur.threads.filter fun k => (s.thr k).guard h, _ := fun k hk => hl k (List.mem_filter.mp hk).1
  simp only [hb, if_neg Bool.false_ne_true, udivStep_clear (ks := s.cur.threads.filter fun k => (s.thr k).guard h)
    fun hr k hk => (hu k hk).2.2.2.2 hr]
  have hown : ∀ k ∈ s.cur.threads.filter fun k => (s.thr k).guard h, ((s.thr k).inCapsule && !ownCapsule opc) = false := fun k hk => by
    have hm := List.mem_filter.mp hk
    have := (hl k hm.1).2.2.2.1
    rwa [if_pos hm.2] at this
  have hvals : (s.cur.threads.filter fun k => (s.thr k).guard h).map (fun k => (k, s.laneValue opc h fm k))
      = (s.cur.threads.filter fun k => (s.thr k).guard h).map fun k => (k, s.operands k h fm) :=
    List.map_congr_left fun k hk => by rw [laneValue_clear (hown k hk)]
  rw [hvals]
  congr 1
  rw [foldl_congr (f := failStep s opc h fm) (g := fun r k => { r with s := s.failLane r.s k h fm })]
  · congr 1
    refine foldl_congr _ fun kv hkv r => ?_
    obtain ⟨k, hk, rfl⟩ := List.mem_map.mp hkv
    unfold passStep plainStep
    dsimp only
    cases s.operands k h fm with
    | error e => rfl
    | ok v => simp only [laneOutcome, hown k hk, if_neg Bool.false_ne_true]
  · intro k hk r
    have hm := List.mem_filter.mp hk
    have hg : (s.thr k).guard h = false := by simpa using hm.2
    have := (hl k hm.1).2.2.2.1
    rw [hg, if_neg Bool.false_ne_true] at this
    simp only [failStep, this, if_neg Bool.false_ne_true]

/-! ### Lanes that all commit -/

theorem Run.lane_commits {r : Run} {h : Hdr} {fm : Form} {k : Nat} {l : Lane} (hl : l.commits = true) :
    r.lane h fm k l = { r with s := l.after h k r.s, done := r.done ++ [k] } := by
  cases l <;> first | rfl | simp [Lane.commits] at hl

/-- Passing lanes that clear LATCH and INDEX take their turns in lane order. -/
theorem foldl_lanesRun {s : State} {h : Hdr} {fm : Form} {f : Entry} {out : State → Nat → Vals → Lane}
    {ok : State → Nat → Vals → Bool} {part : List (Nat × Vals)}
    (hf : ∀ kv ∈ part, ∀ u, ok u kv.1 kv.2 = true → f s part kv.1 kv.2 u = out u kv.1 kv.2 ∧ (out u kv.1 kv.2).commits = true)
    (l : List (Nat × Vals)) (hl : ∀ kv ∈ l, kv ∈ part) (r : Run) (hp : lanesPass h out ok l r.s = true) :
    (l.map fun kv => (kv.1, (Except.ok kv.2 : Except (Nat × Nat) Vals))).foldl (plainStep s h fm f part) r =
      { r with s := lanesRun h out l r.s, done := r.done ++ l.map (·.1) } := by
  induction l generalizing r with
  | nil => simp [lanesRun]
  | cons a l ih =>
    simp only [lanesPass, Bool.and_eq_true] at hp
    obtain ⟨he, hcm⟩ := hf a (hl a (by simp)) r.s hp.1
    simp only [List.map_cons, List.foldl_cons, plainStep, he, Run.lane_commits hcm]
    rw [ih (fun kv hkv => hl kv (by simp [hkv])) _ hp.2]
    simp [lanesRun]

theorem foldl_failLane (s : State) (h : Hdr) (fm : Form) (l : List Nat) (r : Run) :
    l.foldl (fun (r : Run) k => { r with s := s.failLane r.s k h fm }) r =
      { r with s := l.foldl (fun u k => s.failLane u k h fm) r.s } := by
  induction l generalizing r with
  | nil => rfl
  | cons a l ih => simp only [List.foldl_cons, ih]

/-- Lanes whose operands all clear LATCH and INDEX are the passing lanes with their values. -/
theorem laneValues_map {s : State} {h : Hdr} {fm : Form} (ho : s.operandsOk h fm = true) :
    (s.passing h).map (fun k => (k, s.operands k h fm)) =
      (s.laneValues h fm).map fun kv => (kv.1, (Except.ok kv.2 : Except (Nat × Nat) Vals)) := by
  unfold State.laneValues participants
  simp only [State.operandsOk, List.all_eq_true] at ho
  generalize s.passing h = l at ho
  induction l with
  | nil => rfl
  | cons a l ih =>
    have ha := ho a (by simp)
    have := ih fun k hk => ho k (by simp [hk])
    cases hv : s.operands a h fm with
    | error e => simp [hv, Except.toOption] at ha
    | ok v =>
      simp only [List.map_cons, List.filterMap_cons, hv]
      exact congrArg (_ :: ·) this

/-- A clear bundle whose lanes all commit leaves what its lanes leave, in lane order. -/
theorem runLanes_bundle {s : State} {opc : Nat} {h : Hdr} {fm : Form} {prot : State → Nat → Bool} {f : Entry}
    {out : State → Nat → Vals → Lane} {ok : State → Nat → Vals → Bool}
    (hc : s.clears opc h fm prot = true) (ho : s.operandsOk h fm = true)
    (hp : lanesPass h out ok (s.laneValues h fm) s = true)
    (hf : ∀ kv ∈ s.laneValues h fm, ∀ u, ok u kv.1 kv.2 = true →
      f s (s.laneValues h fm) kv.1 kv.2 u = out u kv.1 kv.2 ∧ (out u kv.1 kv.2).commits = true) :
    runLanes opc h fm prot f s = s.bundle h fm out := by
  rw [runLanes_clear f hc]
  have hm := laneValues_map ho
  have hfst : (s.laneValues h fm).map (·.1) = s.passing h := by
    have h1 := congrArg (List.map Prod.fst) hm
    simp only [List.map_map] at h1
    exact h1.symm.trans (List.map_id _)
  dsimp only
  change Run.finish (List.foldl _ (List.foldl (plainStep s h fm f (s.laneValues h fm)) ⟨s, [], []⟩
    ((s.passing h).map fun k => (k, s.operands k h fm))) _) s h fm (s.passing h) = _
  rw [hm, foldl_lanesRun hf _ (fun _ hk => hk) _ hp, foldl_failLane]
  simp only [State.bundle, hfst, List.nil_append]

/-- UDIV marks leave the requests. -/
theorem markUdiv_reqs (s : State) (pass done : List Nat) : (s.markUdiv pass done).reqs = s.reqs := by
  unfold State.markUdiv
  refine List.foldlRecOn (motive := fun u : State => u.reqs = s.reqs) done _ rfl fun u hu k _ => ?_
  dsimp only
  split
  · exact hu
  · exact hu

/-- A run that issued no request, left no lane in a WAITG that owes an s register and met no fault finishes as its state,
where D is no s register. -/
theorem Run.finish_quiet {s t : State} {done : List Nat} {h : Hdr} {fm : Form} {pass : List Nat}
    (hn : t.nextReq = s.nextReq) (hw : ∀ k ∈ done, (t.thr k).state.hasMates = false) (hd : fm.dWrite = false ∨ h.d.toNat < 256 ∨ 320 ≤ h.d.toNat) :
    (Run.mk t done []).finish s h fm pass = t := by
  unfold Run.finish
  have hu : (fm.dWrite && !h.nowb && decide (256 ≤ h.d.toNat) && decide (h.d.toNat < 320)) = false := by
    rcases hd with hd | hd | hd <;> simp [hd]
  have hm : (done.any fun k => (t.thr k).state.hasMates) = false := by simpa [List.any_eq_false] using hw
  simp only [hu, if_neg Bool.false_ne_true, hn, if_pos, hm, Bool.not_false]

end Sys2Proof.Machine
end

