-- ==== Sys2Proof/Laws/Lanes.lean ====
section
/-! SUPPORT. Lanes that touch nothing but their own thread and the s registers of their group: the whole bundle does to
each thread what the lane alone does to it. -/

namespace Sys2Proof.Machine

/-! ### States that differ in threads and groups alone -/

theorem OnlyThreads.refl (s : State) : OnlyThreads s s := ⟨rfl, fun _ => rfl⟩

theorem OnlyThreads.trans {s t u : State} (h1 : OnlyThreads s t) (h2 : OnlyThreads t u) : OnlyThreads s u := by
  obtain ⟨h1, g1⟩ := h1
  obtain ⟨h2, g2⟩ := h2
  refine ⟨?_, fun g => (g2 g).trans (g1 g)⟩
  rw [h2, h1]

theorem OnlyThreadsOf.weaken {s t : State} (h : OnlyThreadsOf s t) : OnlyThreads s t := by
  unfold OnlyThreadsOf at h
  rw [h]
  exact ⟨rfl, fun _ => rfl⟩

/-- A change of a group's s registers or of UDIV. -/
theorem OnlyThreads.modGrp (s : State) (g : Nat) {f : Group → Group} (hf : ∀ G, (f G).noS = G.noS) : OnlyThreads s (s.modGrp g f) := by
  refine ⟨rfl, fun j => ?_⟩
  rw [State.modGrp_groups]
  by_cases hj : j = g
  · subst hj
    rw [Tbl.find_change_same]
    cases s.groups.find j <;> simp [hf]
  · rw [Tbl.find_change_other _ _ hj]

/-- At time `now`, a change of one thread by a function of that thread, and of groups. -/
structure Local (now k : Nat) (g : State → State) (F : Thread → Thread) : Prop where
  only : ∀ r, r.time = now → OnlyThreads r (g r)
  self : ∀ r, r.time = now → (g r).threads.find k = (r.threads.find k).map F
  other : ∀ r, r.time = now → ∀ j, j ≠ k → (g r).threads.find j = r.threads.find j

theorem OnlyThreads.time {s t : State} (h : OnlyThreads s t) : t.time = s.time := by rw [h.1]
theorem OnlyThreads.mem {s t : State} (h : OnlyThreads s t) : t.mem = s.mem := by rw [h.1]
theorem OnlyThreads.nextReq {s t : State} (h : OnlyThreads s t) : t.nextReq = s.nextReq := by rw [h.1]

theorem Local.id (now k : Nat) : Local now k (fun r => r) (fun t => t) :=
  ⟨fun _ _ => .refl _, fun _ _ => by simp, fun _ _ _ _ => rfl⟩

theorem Local.comp {now k : Nat} {g1 g2 : State → State} {F1 F2 : Thread → Thread} (h1 : Local now k g1 F1)
    (h2 : Local now k g2 F2) : Local now k (fun r => g2 (g1 r)) (fun t => F2 (F1 t)) where
  only r hr := (h1.only r hr).trans (h2.only (g1 r) ((h1.only r hr).time.trans hr))
  self r hr := by
    rw [h2.self _ ((h1.only r hr).time.trans hr), h1.self r hr]; cases r.threads.find k <;> rfl
  other r hr j hj := by rw [h2.other _ ((h1.only r hr).time.trans hr) j hj, h1.other r hr j hj]

theorem Local.modThr (now k : Nat) (F : Thread → Thread) : Local now k (fun r => r.modThr k F) F :=
  ⟨fun _ _ => ⟨rfl, fun _ => rfl⟩, fun r _ => State.find_modThr_same r k F, fun r _ _ hj => State.find_modThr_other r F hj⟩

/-- A lane's change of its thread that depends on the time alone. -/
theorem Local.modThrAt (now k : Nat) (F : Nat → Thread → Thread) :
    Local now k (fun r => r.modThr k (F r.time)) (F now) :=
  ⟨fun _ _ => ⟨rfl, fun _ => rfl⟩, fun r hr => by rw [State.find_modThr_same, hr], fun r _ _ hj => State.find_modThr_other r _ hj⟩

theorem Local.goesOn (now k : Nat) (h : Hdr) :
    Local now k (fun r => r.goesOn k h) (fun t => t.pass now h (t.pc + h.bytes)) :=
  Local.modThrAt now k fun now t => t.pass now h (t.pc + h.bytes)

/-- A thread after a write to its register of that code; codes of other places change nothing in it. -/
def Thread.writeCode (code : Nat) (v : Word) (t : Thread) : Thread :=
  if code < 224 then t.setX code v
  else if code < 320 then t
  else if code < 328 then t.setPred (code - 320) (v.getLsbD 0)
  else if code < 332 then { t with ks := t.ks.set (code - 328) (v.truncate 16) }
  else t

theorem Local.writeReg (now k code : Nat) (v : Word) : Local now k (fun r => r.writeReg k code v) (Thread.writeCode code v) := by
  unfold State.writeReg Thread.writeCode
  by_cases h1 : code < 224
  · simpa only [h1, if_true] using Local.modThr now k (Thread.setX code v)
  by_cases h2 : code < 256
  · have : code < 320 := by omega
    simpa [h1, h2, this] using Local.id now k
  by_cases h3 : code < 320
  · simp only [h1, h2, h3, if_false, if_true]
    exact ⟨fun _ _ => .modGrp _ _ fun _ => rfl, fun _ _ => by simp, fun _ _ _ _ => rfl⟩
  by_cases h4 : code < 328
  · simpa [h1, h2, h3, h4] using Local.modThr now k _
  by_cases h5 : code < 332
  · simpa [h1, h2, h3, h4, h5] using Local.modThr now k _
  · simpa [h1, h2, h3, h4, h5] using Local.id now k

/-- A thread after a run of its registers was written. -/
def Thread.writeCodes (code v : Nat) : Nat → Thread → Thread
  | 0, t => t
  | n + 1, t =>
    if code = 240 then t else (t.writeCode code (BitVec.ofNat 32 v)).writeCodes (code + 1) (v / 2 ^ 32) n

theorem Local.writeRun (now k code v n : Nat) : Local now k (fun r => r.writeRun k code v n) (Thread.writeCodes code v n) := by
  induction n generalizing code v with
  | zero => exact Local.id now k
  | succ n ih =>
    have hw := (Local.writeReg now k code (BitVec.ofNat 32 v)).comp (ih (code + 1) (v / 2 ^ 32))
    constructor <;> simp only [State.writeRun, Thread.writeCodes] <;> split
    · exact fun r _ => .refl r
    · exact hw.only
    · exact fun r _ => by simp
    · exact hw.self
    · exact fun r _ j _ => rfl
    · exact hw.other

/-- A thread after WriteD (R90): the latch first, then D unless NOWB. -/
def Thread.wroteD (h : Hdr) (fm : Form) (dst v : Nat) (t : Thread) : Thread :=
  let u := if inChain t h fm then { t with latch := BitVec.ofNat 32 v :: t.latch } else t
  if h.nowb then u else u.writeCodes dst v fm.d.words

theorem Local.writeD (now k : Nat) (h : Hdr) (fm : Form) (dst v : Nat) :
    Local now k (fun r => r.writeD k h fm dst v) (Thread.wroteD h fm dst v) := by
  have hl : Local now k (fun r => if inChain (r.thr k) h fm then r.modThr k fun t => { t with latch := BitVec.ofNat 32 v :: t.latch } else r)
      (fun t => if inChain t h fm then { t with latch := BitVec.ofNat 32 v :: t.latch } else t) := by
    refine ⟨fun r _ => ?_, fun r _ => ?_, fun r _ j hj => ?_⟩
    · split <;> exact ⟨rfl, fun _ => rfl⟩
    · cases hf : r.threads.find k with
      | none => split <;> simp [hf, Tbl.find_change_same]
      | some t =>
        have ht := State.thr_of_find hf
        rw [ht]
        split <;> rename_i hc <;> simp [hf, Tbl.find_change_same, hc]
    · split
      · exact State.find_modThr_other r _ hj
      · rfl
  unfold State.writeD Thread.wroteD
  by_cases hn : h.nowb = true
  · simpa [hn] using hl
  · simpa [hn] using hl.comp (Local.writeRun now k dst v fm.d.words)

/-- A register write outside the s registers leaves every group. -/
theorem writeRun_groups (s : State) (k code v n : Nat) (h : code + n ≤ 256 ∨ 320 ≤ code) :
    (s.writeRun k code v n).groups = s.groups := by
  induction n generalizing s code v with
  | zero => rfl
  | succ n ih =>
    simp only [State.writeRun]
    split
    · rfl
    · rw [ih _ _ _ (by omega)]
      unfold State.writeReg
      split <;> try rfl
      split <;> try rfl
      split
      · omega
      · split <;> try rfl
        split <;> rfl

theorem writeD_groups (s : State) (k : Nat) (h : Hdr) (fm : Form) (dst v : Nat)
    (hd : dst + fm.d.words ≤ 256 ∨ 320 ≤ dst) : (s.writeD k h fm dst v).groups = s.groups := by
  unfold State.writeD
  split <;> split <;> simp [writeRun_groups, hd]

/-! ### The fold over the lanes -/

/-- Lanes that each commit by a local change leave each thread as its lane alone would. -/
theorem foldl_local {s : State} {h : Hdr} {fm : Form} {f : Entry} {out : Nat → State → Lane}
    {F : Nat → Thread → Thread} {part : List (Nat × Vals)} (ks : List Nat) (hn : ks.Nodup)
    (vs : Nat → Vals) (hg : ∀ k ∈ ks, Local s.time k (fun r => (out k r).after h k r) (F k))
    (hc : ∀ k ∈ ks, ∀ r, (out k r).commits = true)
    (hf : ∀ k ∈ ks, ∀ r, f s part k (vs k) r = out k r) (hv : ∀ k ∈ ks, s.operands k h fm = .ok (vs k))
    (r : Run) (hr : OnlyThreads s r.s) (hrf : r.faults = []) (hrk : ∀ k ∈ ks, r.s.threads.find k = s.threads.find k) :
    let r' := (ks.map fun k => (k, s.operands k h fm)).foldl (plainStep s h fm f part) r
    OnlyThreads s r'.s ∧ r'.done = r.done ++ ks ∧ r'.faults = []
      ∧ (∀ k ∈ ks, r'.s.threads.find k = (s.threads.find k).map (F k))
      ∧ (∀ k, k ∉ ks → r'.s.threads.find k = r.s.threads.find k)
      ∧ ((∀ k ∈ ks, ∀ u, ((out k u).after h k u).groups = u.groups) → r'.s.groups = r.s.groups) := by
  induction ks generalizing r with
  | nil => exact ⟨hr, by simp, hrf, by simp, fun _ _ => rfl, fun _ => rfl⟩
  | cons a ks ih =>
    obtain ⟨hna, hn'⟩ := List.nodup_cons.mp hn
    have hl := hg a (by simp)
    simp only [List.map_cons, List.foldl_cons]
    have hstep : plainStep s h fm f part r (a, s.operands a h fm) =
        { r with s := (out a r.s).after h a r.s, done := r.done ++ [a] } := by
      simp only [plainStep, hv a (by simp), hf a (by simp), Run.lane_commits (hc a (by simp) r.s)]
    rw [hstep]
    obtain ⟨h1, h2, h3, h4, h5, h6⟩ := ih hn' (fun k hk => hg k (by simp [hk])) (fun k hk => hc k (by simp [hk]))
      (fun k hk => hf k (by simp [hk])) (fun k hk => hv k (by simp [hk]))
      { r with s := (out a r.s).after h a r.s, done := r.done ++ [a] }
      (hr.trans (hl.only r.s hr.time)) hrf
      (fun k hk => by
        have hka : k ≠ a := fun e => hna (e ▸ hk)
        exact (hl.other r.s hr.time k hka).trans (hrk k (by simp [hk])))
    refine ⟨h1, by rw [h2]; simp, h3, fun k hk => ?_, fun k hk => ?_, fun hgr => ?_⟩
    · by_cases hka : k = a
      · subst hka
        rw [h5 k hna]
        exact (hl.self r.s hr.time).trans (by rw [hrk k (by simp)])
      · exact h4 k (by simpa [hka] using hk)
    · have hka : k ≠ a := fun e => hk (by simp [e])
      rw [h5 k fun hm => hk (by simp [hm])]
      exact hl.other r.s hr.time k hka
    · rw [h6 fun k hk => hgr k (by simp [hk])]
      exact hgr a (by simp) r.s

/-! ### The lanes whose guard fails -/

/-- A lane whose guard fails touches its own thread alone. -/
theorem failLane_only (s0 s : State) (k : Nat) (h : Hdr) (fm : Form) : OnlyThreadsOf s (s0.failLane s k h fm) := by
  unfold State.failLane
  dsimp only
  split
  · cases resolve (s.thr k) 0 fm.d h.d.toNat <;> rfl
  · rfl

theorem failLane_other (s0 s : State) {k j : Nat} (h : Hdr) (fm : Form) (hj : j ≠ k) :
    (s0.failLane s k h fm).threads.find j = s.threads.find j := by
  unfold State.failLane
  dsimp only
  split
  · cases resolve (s.thr k) 0 fm.d h.d.toNat <;> simp [Tbl.find_change_other, hj]
  · simp [Tbl.find_change_other, hj]

/-- A lane whose guard fails and that stands in no chain goes past the instruction, and nothing else (R68). -/
theorem failLane_self {s0 s : State} {k : Nat} {h : Hdr} {fm : Form} (hc : inChain (s.thr k) h fm = false) :
    s0.failLane s k h fm = s.goesOn k h := by
  unfold State.failLane State.goesOn
  simp [hc]

/-- A thread whose guard fails, past the instruction; its latch takes D inside a chain. -/
def Thread.failed (s0 : State) (k : Nat) (h : Hdr) (fm : Form) (fresh now : Nat) (t : Thread) : Thread :=
  let cur := match resolve t 0 fm.d h.d.toNat with
    | .ok c => s0.readReg k c
    | .error _ => Config.freeWord fresh (k * 8)
  let u : Thread := if inChain t h fm then { t with latch := cur :: t.latch } else t
  u.pass now h (u.pc + h.bytes)

theorem failLane_find (s0 s : State) (k : Nat) (h : Hdr) (fm : Form) :
    (s0.failLane s k h fm).threads.find k = (s.threads.find k).map (Thread.failed s0 k h fm s.fresh s.time) := by
  unfold State.failLane Thread.failed
  dsimp only
  cases hf : s.threads.find k with
  | none => split <;> simp [hf, Tbl.find_change_same]
  | some t =>
    rw [State.thr_of_find hf]
    split <;> rename_i hc <;> simp [hf, Tbl.find_change_same, hc] <;> cases resolve t 0 fm.d h.d.toNat <;> rfl

/-- The lanes whose guard fails, after the others: each touches its thread alone. -/
theorem foldl_fail {s0 : State} {h : Hdr} {fm : Form} (ks : List Nat) (hn : ks.Nodup) (r : Run) :
    let r' := ks.foldl (fun (r : Run) k => { r with s := s0.failLane r.s k h fm }) r
    OnlyThreadsOf r.s r'.s ∧ r'.done = r.done ∧ r'.faults = r.faults ∧ (∀ k, k ∉ ks → r'.s.threads.find k = r.s.threads.find k)
      ∧ (∀ k ∈ ks, r'.s.threads.find k = (s0.failLane r.s k h fm).threads.find k) := by
  induction ks generalizing r with
  | nil => exact ⟨rfl, rfl, rfl, fun _ _ => rfl, by simp⟩
  | cons a ks ih =>
    obtain ⟨hna, hn'⟩ := List.nodup_cons.mp hn
    obtain ⟨h1, h2, h3, h4, h5⟩ := ih hn' { r with s := s0.failLane r.s a h fm }
    have ho := failLane_only s0 r.s a h fm
    refine ⟨?_, h2, h3, fun k hk => ?_, fun k hk => ?_⟩
    · unfold OnlyThreadsOf at *
      simp only [List.foldl_cons]
      rw [h1, ho]
    · have hka : k ≠ a := fun e => hk (by simp [e])
      exact (h4 k fun hm => hk (by simp [hm])).trans (failLane_other s0 r.s h fm hka)
    · by_cases hka : k = a
      · subst hka
        exact h4 k hna
      · refine (h5 k (by simpa [hka] using hk)).trans ?_
        rw [failLane_find, failLane_find, failLane_other s0 r.s h fm hka, show (s0.failLane r.s a h fm).fresh = r.s.fresh by rw [ho],
          show (s0.failLane r.s a h fm).time = r.s.time by rw [ho]]

/-! ### The whole bundle -/

/-- UDIV marks touch groups alone. -/
theorem markUdiv_only (s : State) (pass done : List Nat) :
    OnlyThreads s (s.markUdiv pass done) ∧ (s.markUdiv pass done).threads = s.threads := by
  suffices h : ∀ (l : List Nat) (acc : State), OnlyThreads s acc → acc.threads = s.threads →
      OnlyThreads s (l.foldl (fun acc k =>
        if laneMask (pass.filter fun j => groupOf j == groupOf k) == (s.grp (groupOf k)).live then acc
        else acc.modGrp (groupOf k) fun G => { G with udiv := true }) acc) ∧
      (l.foldl (fun acc k =>
        if laneMask (pass.filter fun j => groupOf j == groupOf k) == (s.grp (groupOf k)).live then acc
        else acc.modGrp (groupOf k) fun G => { G with udiv := true }) acc).threads = s.threads from h done s (.refl s) rfl
  intro l
  induction l with
  | nil => exact fun acc h1 h2 => ⟨h1, h2⟩
  | cons a l ih =>
    intro acc h1 h2
    simp only [List.foldl_cons]
    split
    · exact ih acc h1 h2
    · exact ih _ (h1.trans (.modGrp _ _ fun _ => rfl)) h2

/-- A run without a request, without a fault and without a WAITG that owes an s register finishes with its threads, and with
its groups unless D is an s register. -/
theorem Run.finish_local {s : State} {R : Run} {h : Hdr} {fm : Form} {pass : List Nat} (hf : R.faults = [])
    (hn : R.s.nextReq = s.nextReq) (hw : ∀ k ∈ R.done, (R.s.thr k).state.hasMates = false) :
    OnlyThreads R.s (R.finish s h fm pass) ∧ (R.finish s h fm pass).threads = R.s.threads := by
  have key : ∀ t : State, OnlyThreads R.s t → t.threads = R.s.threads →
      (R.done.any fun k => (t.thr k).state.hasMates) = false := by
    intro t _ ht
    simpa [List.any_eq_false, State.thr, ht] using hw
  unfold Run.finish
  split
  · have hm := markUdiv_only R.s pass R.done
    simp only [hf, hm.1.nextReq.trans hn, if_true, key _ hm.1 hm.2, Bool.not_false]
    exact hm
  · simp only [hf, hn, if_true, key R.s (OnlyThreads.refl R.s) rfl, Bool.not_false]
    exact ⟨OnlyThreads.refl R.s, trivial⟩

theorem State.operandsOk_iff {s : State} {h : Hdr} {fm : Form} :
    s.operandsOk h fm = true ↔ ∀ k ∈ s.passing h, ∃ v, s.operands k h fm = .ok v := by
  simp only [State.operandsOk, List.all_eq_true]
  refine forall₂_congr fun k _ => ?_
  cases s.operands k h fm <;> simp [Except.toOption]

theorem lanesPass_true {h : Hdr} {out : State → Nat → Vals → Lane} (l : List (Nat × Vals)) (u : State) :
    lanesPass h out (fun _ _ _ => true) l u = true := by
  induction l generalizing u with
  | nil => rfl
  | cons a l ih => exact ih _

theorem mem_laneValues {s : State} {h : Hdr} {fm : Form} {kv : Nat × Vals} :
    kv ∈ s.laneValues h fm ↔ kv.1 ∈ s.passing h ∧ s.operands kv.1 h fm = .ok kv.2 := by
  simp only [State.laneValues, participants, List.mem_filterMap, List.mem_map]
  constructor
  · rintro ⟨_, ⟨k, hk, rfl⟩, he⟩
    cases ho : s.operands k h fm with
    | error e => simp [ho] at he
    | ok v => simp only [ho, Option.some.injEq] at he; subst he; exact ⟨hk, ho⟩
  · rintro ⟨hk, hv⟩
    exact ⟨(kv.1, s.operands kv.1 h fm), ⟨kv.1, hk, rfl⟩, by simp [hv]⟩

/-- A clear bundle whose lanes each commit by a change of their own thread (and of s registers of their group) does in
each lane what the lane alone does. -/
theorem runLanes_local {s : State} {opc : Nat} {h : Hdr} {fm : Form} {prot : State → Nat → Bool} {f : Entry}
    (hc : s.clears opc h fm prot = true) (ho : s.operandsOk h fm = true) (out : Nat → Vals → State → Lane)
    (F : Nat → Vals → Thread → Thread)
    (hg : ∀ k ∈ s.passing h, ∀ v, s.operands k h fm = .ok v →
      Local s.time k (fun r => (out k v r).after h k r) (F k v))
    (hcm : ∀ k ∈ s.passing h, ∀ v, s.operands k h fm = .ok v → ∀ r, (out k v r).commits = true)
    (hgr : ∀ k ∈ s.passing h, ∀ v, s.operands k h fm = .ok v →
      (v.dst + fm.d.words ≤ 256 ∨ 320 ≤ v.dst) → ∀ u, ((out k v u).after h k u).groups = u.groups)
    (hw : ∀ k ∈ s.passing h, ∀ v, s.operands k h fm = .ok v → ∀ t, (F k v t).state.hasMates = false)
    (hf : ∀ k ∈ s.passing h, ∀ v, s.operands k h fm = .ok v → ∀ r, f s (s.laneValues h fm) k v r = out k v r) :
    LanesDo s h fm out (runLanes opc h fm prot f s) := by
  have hall := runLanes_bundle (out := fun u k v => out k v u) (ok := fun _ _ _ => true) hc ho (lanesPass_true _ _) fun kv hkv u _ =>
    have hm := mem_laneValues.mp hkv
    ⟨hf kv.1 hm.1 kv.2 hm.2 u, hcm kv.1 hm.1 kv.2 hm.2 u⟩
  refine ⟨hall, ?_⟩
  rw [runLanes_clear f hc]
  have ho' := State.operandsOk_iff.mp ho
  simp only [State.clears, Bool.and_eq_true, List.all_eq_true] at hc
  have hnd := ascending_nodup hc.1
  have hl : ∀ k ∈ s.cur.threads, _ := fun k hk => State.laneClear_iff.mp (hc.2 k hk)
  let vs : Nat → Vals := fun k => match s.operands k h fm with | .ok v => v | .error _ => ⟨0, 0, 0, 0⟩
  have hvs : ∀ k ∈ s.passing h, s.operands k h fm = .ok (vs k) := fun k hk => by
    obtain ⟨v, hv⟩ := ho' k hk
    simp only [vs, hv]
  obtain ⟨p1, p2, p3, p4, p5, p6⟩ := foldl_local (s := s) (h := h) (fm := fm) (f := f) (out := fun k => out k (vs k))
    (F := fun k => F k (vs k)) (part := s.laneValues h fm) (s.passing h) (hnd.filter _) vs
    (fun k hk => hg k hk (vs k) (hvs k hk)) (fun k hk r => hcm k hk (vs k) (hvs k hk) r)
    (fun k hk r => hf k hk (vs k) (hvs k hk) r) hvs ⟨s, [], []⟩ (.refl s) rfl (fun _ _ => rfl)
  dsimp only
  change LanesStand s h fm out (Run.finish (List.foldl _ (List.foldl (plainStep s h fm f (s.laneValues h fm)) ⟨s, [], []⟩
    ((s.passing h).map fun k => (k, s.operands k h fm))) _) s h fm (s.passing h))
  generalize hP : List.foldl (plainStep s h fm f (s.laneValues h fm)) ⟨s, [], []⟩ _ = P at p1 p2 p3 p4 p5 p6 ⊢
  obtain ⟨q1, q2, q3, q4, q5⟩ := foldl_fail (s0 := s) (h := h) (fm := fm)
    (s.cur.threads.filter fun k => !(s.thr k).guard h) (hnd.filter _) P
  generalize hR : List.foldl (fun (r : Run) k => { r with s := s.failLane r.s k h fm }) P _ = R at q1 q2 q3 q4 q5 ⊢
  have hro : OnlyThreads s R.s := p1.trans q1.weaken
  have hdone : R.done = s.passing h := by rw [q2, p2]; rfl
  have hmates : ∀ k ∈ R.done, (R.s.thr k).state.hasMates = false := fun k hk => by
    rw [hdone] at hk
    have hgk : (s.thr k).guard h = true := (List.mem_filter.mp hk).2
    have hs := (hl k (List.mem_filter.mp hk).1).1
    obtain ⟨t, ht⟩ := Option.isSome_iff_exists.mp hs
    have hf : R.s.threads.find k = some (F k (vs k) t) := by
      rw [q4 k (by simp [hgk]), p4 k hk, ht]; rfl
    rw [State.thr_of_find hf]
    exact hw k hk (vs k) (hvs k hk) t
  obtain ⟨e1, e2⟩ := Run.finish_local (s := s) (R := R) (h := h) (fm := fm) (pass := s.passing h)
    (q3.trans p3) hro.nextReq hmates
  refine ⟨hro.trans e1, fun k hk v hv => ?_, fun k hk hgk => ?_, fun k hk => ?_, fun hown => ?_⟩
  · have hvk : vs k = v := by simp only [vs, hv]
    have hgk : (s.thr k).guard h = true := (List.mem_filter.mp hk).2
    rw [e2, q4 k (by simp [hgk]), p4 k hk, hvk]
    exact ((hg k hk v hv).self s rfl).symm
  · have hpk := p5 k fun hm => by simp [State.passing, hgk] at hm
    rw [e2, q5 k (List.mem_filter.mpr ⟨hk, by simp [hgk]⟩), failLane_find, failLane_find, hpk, p1.time, show P.s.fresh = s.fresh by rw [p1.1]]
  · rw [e2, q4 k fun hm => hk (List.mem_filter.mp hm).1, p5 k fun hm => hk (List.mem_filter.mp hm).1]
  · simp only [State.ownD, Bool.and_eq_true, Bool.or_eq_true, decide_eq_true_eq, List.all_eq_true] at hown
    have hdst : ∀ k ∈ s.passing h, (vs k).dst + fm.d.words ≤ 256 ∨ 320 ≤ (vs k).dst := fun k hk => by
      exact hown.2 (k, vs k) (mem_laneValues.mpr ⟨hk, hvs k hk⟩)
    have hPg := p6 fun k hk u => hgr k hk (vs k) (hvs k hk) (hdst k hk) u
    have hRg : R.s.groups = s.groups := by rw [show R.s.groups = P.s.groups by rw [q1], hPg]
    unfold Run.finish
    have hany : (R.done.any fun k => (R.s.thr k).state.hasMates) = false := by simpa [List.any_eq_false] using hmates
    have hnot : (fm.dWrite && !h.nowb && decide (256 ≤ h.d.toNat) && decide (h.d.toNat < 320)) = false := by
      rcases hown.1 with h1 | h1 <;> simp [h1]
    rw [hnot]
    simp only [Bool.false_eq_true, if_false, hro.nextReq, if_true, hany, Bool.not_false, q3.trans p3]
    exact hRg

/-! ### The common shapes -/

/-- Lanes that each commit, past the instruction, after a local change. -/
theorem runLanes_ok {s : State} {opc : Nat} {h : Hdr} {fm : Form} {prot : State → Nat → Bool} {f : Entry}
    (hc : s.clears opc h fm prot = true) (ho : s.operandsOk h fm = true) (g : Nat → Vals → State → State)
    (F : Nat → Vals → Thread → Thread)
    (hg : ∀ k ∈ s.passing h, ∀ v, s.operands k h fm = .ok v → Local s.time k (g k v) (F k v))
    (hgr : ∀ k ∈ s.passing h, ∀ v, s.operands k h fm = .ok v →
      (v.dst + fm.d.words ≤ 256 ∨ 320 ≤ v.dst) → ∀ u, (g k v u).groups = u.groups)
    (hf : ∀ k ∈ s.passing h, ∀ v, s.operands k h fm = .ok v → ∀ r, f s (s.laneValues h fm) k v r = .ok (g k v r)) :
    LanesDo s h fm (fun k v u => .ok (g k v u)) (runLanes opc h fm prot f s) :=
  runLanes_local hc ho _ (fun k v t => (F k v t).pass s.time h ((F k v t).pc + h.bytes))
    (fun k hk v hv => (hg k hk v hv).comp (Local.goesOn s.time k h)) (fun _ _ _ _ _ => rfl)
    (fun k hk v hv hd u => hgr k hk v hv hd u) (fun _ _ _ _ _ => rfl) hf

/-- An instruction whose lanes each write D with a value (R90) does so in every lane. -/
theorem runValue_lanes {s : State} {opc : Nat} {h : Hdr} {fm : Form} {f : State → Nat → Vals → Nat}
    (hc : s.clears opc h fm anyone = true) (ho : s.operandsOk h fm = true) :
    LanesDo s h fm (fun k v u => .ok (u.writeD k h fm v.dst (f s k v))) (runValue opc h fm f s) :=
  runLanes_ok hc ho _ (fun k v => Thread.wroteD h fm v.dst (f s k v)) (fun k _ v _ => Local.writeD _ k h fm v.dst _)
    (fun k _ v _ hd u => writeD_groups u k h fm v.dst _ hd) fun _ _ _ _ _ => rfl

/-- An instruction whose lanes each write D with a value that raises events, in a bundle no lane of which traps
NONFINITE: fps takes the events and D the value (R56). -/
theorem runEvents_lanes {s : State} {opc : Nat} {h : Hdr} {fm : Form} {base : Nat}
    {f : State → Nat → Vals → Nat × List Events}
    (hc : s.clears opc h fm anyone = true) (ho : s.operandsOk h fm = true)
    (hq : ∀ k ∈ s.passing h, ∀ v, s.operands k h fm = .ok v → nonfinite (s.thr k).fpc (f s k v).2 base = none) :
    LanesDo s h fm (fun k v u => .ok ((u.modThr k fun t => t.orFps (allEvents (f s k v).2)).writeD k h fm v.dst (f s k v).1))
      (runEvents opc h fm base f s) :=
  runLanes_ok hc ho _ (fun k v t => Thread.wroteD h fm v.dst (f s k v).1 (t.orFps (allEvents (f s k v).2)))
    (fun k _ v _ => (Local.modThr _ k _).comp (Local.writeD _ k h fm v.dst _))
    (fun k _ v _ hd u => writeD_groups _ k h fm v.dst _ hd) fun k hk v hv r => by simp [hq k hk v hv]

end Sys2Proof.Machine
end

