-- ==== Sys2Proof/Laws/Completes.lean ====
section
/-! SUPPORT. How an instruction's or an event's meaning meets its row of the claims: one lemma for each shared operation. -/

namespace Sys2Proof.Machine

/-- A queue reads as it was left. -/
theorem State.queueAt_modQueue (s : State) (q : Nat) (f : Queue → Queue) : (s.modQueue q f).queueAt q = f (s.queueAt q) := by
  simp only [State.modQueue, State.queueAt, Tbl.find_put_same, Option.getD_some]

/-- Lanes that agree on what each of a list does run alike. -/
theorem lanesRun_congr {h : Hdr} {f g : State → Nat → Vals → Lane} (l : List (Nat × Vals)) (e : ∀ kv ∈ l, ∀ u, f u kv.1 kv.2 = g u kv.1 kv.2) :
    ∀ u, lanesRun h f l u = lanesRun h g l u := by
  induction l with
  | nil => exact fun _ => rfl
  | cons a l ih =>
    intro u
    simp only [lanesRun, e a (by simp)]
    exact ih (fun kv hkv => e kv (by simp [hkv])) _

/-- Bundles whose passing lanes agree leave the same. -/
theorem bundle_congr {s : State} {h : Hdr} {fm : Form} {f g : State → Nat → Vals → Lane}
    (e : ∀ k v, s.operands k h fm = .ok v → ∀ u, f u k v = g u k v) : s.bundle h fm f = s.bundle h fm g := by
  simp only [State.bundle, lanesRun_congr _ (fun kv hkv => e kv.1 kv.2 (mem_laneValues.mp hkv).2) s]

/-- Two values that agree on the operands that a lane can read complete alike. -/
theorem value_congr {i : Instr} {opc : Nat} {h : Hdr} {fm : Form} {f g : State → Nat → Vals → Nat}
    (hc : (LaneRow.value opc h fm g).Completes i) (e : ∀ s k v, s.operands k h fm = .ok v → f s k v = g s k v) :
    (LaneRow.value opc h fm f).Completes i := by
  intro s h1 h2 h3
  obtain ⟨t, ht, hb, ho, hl, hr⟩ := hc s h1 h2 h3
  refine ⟨t, ht, hb.trans (bundle_congr fun k v hv u => ?_), ho, fun k hk v hv => ?_, hr⟩
  · simp only [LaneRow.value, e s k v hv]
  · rw [hl k hk v hv]
    simp only [LaneRow.value, e s k v hv]

/-- A compact form does what its full form does (03 R78). -/
theorem exec_expand (i : Instr) (s : State) : exec i s = exec (expand i) s := by
  cases i <;> rfl

/-- Instructions whose D takes a value (`runValue`). -/
theorem value_completes {i : Instr} {opc : Nat} {h : Hdr} {fm : Form} {f : State → Nat → Vals → Nat}
    (he : ∀ s, exec i s = .next (runValue opc h fm f s)) : (LaneRow.value opc h fm f).Completes i :=
  fun s hc ho _ => ⟨_, he s, runValue_lanes hc ho⟩

/-- Instructions whose elements raise events (`runEvents`). -/
theorem events_completes {i : Instr} {opc : Nat} {h : Hdr} {fm : Form} {base : Nat} {f : State → Nat → Vals → Nat × List Events}
    (he : ∀ s, exec i s = .next (runEvents opc h fm base f s)) : (LaneRow.events opc h fm base f).Completes i :=
  fun s hc ho hk => ⟨_, he s, runEvents_lanes hc ho fun k hk' v hv => by
    have := hk k hk' v hv
    simpa [LaneRow.events] using this⟩

/-- Instructions with one floating result (`runFloat`). -/
theorem float_completes' {i : Instr} {opc : Nat} {h : Hdr} {fm : Form} {rnd : Nat} {f : RCtx → Vals → Nat × Events}
    (he : ∀ s, exec i s = .next (runFloat opc h fm rnd f s)) : (LaneRow.float opc h fm rnd f).Completes i :=
  events_completes he

/-- Packed instructions (`runHalf`). -/
theorem half_completes {i : Instr} {opc : Nat} {h : Hdr} {fm : Form} {rnd : Nat} {bf : Bool} {f : Fmt → RCtx → FVal → FVal → FVal → Nat × Events}
    (he : ∀ s, exec i s = .next (runHalf opc h fm rnd bf f s)) : (LaneRow.half opc h fm rnd bf f).Completes i :=
  events_completes he

/-- Ring-set operations (`runRing`). -/
theorem ring_completes' {i : Instr} {opc : Nat} {h : Hdr} {fm : Form} {rs : Nat} {f : RingPts → List Word → Vals → Nat} {bare : Vals → Nat}
    (he : ∀ s, exec i s = .next (runRing opc h fm rs f bare s)) : (LaneRow.ring opc h fm rs f bare).Completes i := by
  refine fun s hc ho hk => ⟨_, he s, ?_⟩
  refine runLanes_ok hc ho _ (fun k v => Thread.wroteD h fm v.dst _) (fun k _ v _ => Local.writeD _ k h fm v.dst _)
      (fun k _ v _ hdst u => writeD_groups u k h fm v.dst _ hdst) fun k hk' v hv u => ?_
  have := hk k hk' v hv
  revert this
  simp only [LaneRow.ring]
  cases s.consult k rs with
  | none => simp
  | wait n => simp
  | ring ws => cases h' : ringOf ws <;> simp [h']

/-- Instructions whose lanes write D where they commit. -/
theorem valueIf_completes {i : Instr} {opc : Nat} {h : Hdr} {fm : Form} {prot : State → Nat → Bool} {ok : State → Nat → Vals → Bool}
    {f : State → Nat → Vals → Nat} {e : Entry} (he : ∀ s, exec i s = .next (runLanes opc h fm prot e s))
    (hf : ∀ s k v u, ok s k v = true → e s (s.laneValues h fm) k v u = .ok (u.writeD k h fm v.dst (f s k v))) :
    (LaneRow.valueIf opc h fm prot ok f).Completes i :=
  fun s hc ho hk => ⟨_, he s, runLanes_ok hc ho _ (fun k v => Thread.wroteD h fm v.dst (f s k v)) (fun k _ v _ => Local.writeD _ k h fm v.dst _)
    (fun k _ v _ hd u => writeD_groups u k h fm v.dst _ hd) fun k hk' v hv r => hf s k v r (hk k hk' v hv)⟩

/-- What `markWriter` can change. -/
theorem markWriter_only (s u : State) (h : Hdr) (k dst : Nat) : OnlyThreads u (s.markWriter u h k dst) ∧ (s.markWriter u h k dst).threads = u.threads := by
  unfold State.markWriter
  split
  · exact markUdiv_only _ _ _
  · exact ⟨.refl _, rfl⟩

/-- `markWriter` touches no thread. -/
theorem Local.markWriter (now k : Nat) (s : State) (h : Hdr) (dst : Nat) : Local now k (fun u => s.markWriter u h k dst) (fun t => t) := by
  refine ⟨fun r _ => (markWriter_only s r h k dst).1, fun r _ => ?_, fun r _ j hj => ?_⟩
  · rw [(markWriter_only s r h k dst).2]; simp
  · rw [(markWriter_only s r h k dst).2]

/-- `markWriter` changes no group where D is no s register. -/
theorem markWriter_groups {s u : State} {h : Hdr} {k dst n : Nat} (hn : 0 < n) (hd : dst + n ≤ 256 ∨ 320 ≤ dst) : (s.markWriter u h k dst).groups = u.groups := by
  unfold State.markWriter
  rw [if_neg]
  simp only [Bool.and_eq_true, decide_eq_true_eq]
  omega

/-- A lane that moves to an address. -/
theorem Local.pass (now k : Nat) (h : Hdr) (pc : Nat) : Local now k (fun r => r.modThr k fun t => t.pass r.time h pc) (fun t => t.pass now h pc) :=
  Local.modThrAt now k fun now t => t.pass now h pc

/-- A lane that moves on and waits. -/
theorem Local.passWait (now k : Nat) (h : Hdr) (w : Wait) : Local now k (fun r => r.modThr k fun t => { t.pass r.time h (t.pc + h.bytes) with state := .waiting w }) (fun t => { t.pass now h (t.pc + h.bytes) with state := .waiting w }) :=
  Local.modThrAt now k fun now t => { t.pass now h (t.pc + h.bytes) with state := .waiting w }

/-- A lane entry that agrees with the row wherever the row commits. -/
theorem bundle_completes {r : BundleRow} {i : Instr} {f : Entry}
    (he : ∀ s, exec i s = .next (r.fin s (runLanes r.opc r.h r.fm r.prot f (r.pre s))))
    (hf : ∀ s p k v u, r.ok s p u k v = true → f s p k v u = r.out s p u k v ∧ (r.out s p u k v).commits = true) : r.Completes i := by
  intro s s0 p hc ho hp
  rw [he]
  exact congrArg (fun x => Host.Outcome.next (r.fin s x)) (runLanes_bundle hc ho hp fun kv _ u hk => hf _ _ _ _ u hk)

/-- A place that passes its checks is the place that the row takes. -/
theorem placed_ok {e : Except Bad Place} (h : e.toOption.isSome = true) : e = .ok (placeOf e) := by
  cases e <;> simp_all [Except.toOption, placeOf]

/-- Accesses. -/
theorem access_completes {i : Instr} {opc : Nat} {h : Hdr} {fm : Form} {at' : State → Nat → Vals → Except Bad Place}
   {wait : State → Nat → Bool} {send : State → State → Nat → Vals → Place → State} {fin : State → State → State} {f : Entry}
   (he : ∀ s, exec i s = .next (fin s (runLanes opc h fm anyone f s)))
   (hf : ∀ s p k v u q, at' s k v = .ok q → wait s k = false → f s p k v u = .ok (send s u k v q)) : (BundleRow.access opc h fm at' wait send fin).Completes i := by
  refine bundle_completes (f := f) he fun s p k v u hk => ?_
  simp only [BundleRow.access, Bool.and_eq_true, Bool.not_eq_true'] at hk
  exact ⟨hf s p k v u _ (placed_ok hk.1) hk.2, rfl⟩

/-- Instructions that act once per bundle (R91). -/
theorem once_completes {i : Instr} {opc : Nat} {h : Hdr} {fm : Form} {ok : State → List Nat → Nat → Vals → Bool}
    {act : State → State → List Nat → Nat → Vals → State} {f : State → State → List Nat → Nat → Vals → Lane}
    (he : ∀ s, exec i s = .next (runOnce opc h fm anyone f s))
    (hf : ∀ s u ks k v, ok s ks k v = true → f s u ks k v = .ok (act s u ks k v)) : (BundleRow.once opc h fm ok act).Completes i := by
  refine bundle_completes (r := BundleRow.once opc h fm ok act) (i := i) he fun s p k v u hk => ?_
  simp only [BundleRow.once] at hk ⊢
  cases p with
  | nil => simp at hk
  | cons a p =>
    obtain ⟨l0, v0⟩ := a
    simp only [List.head?_cons, Option.any_some] at hk
    refine ⟨?_, rfl⟩
    simp only [List.head?_cons]
    by_cases hkl : k = l0
    · simp only [hkl, if_true, hf s u _ l0 v0 hk]
    · simp only [hkl, if_false, hf s s _ l0 v0 hk]

/-- BAR and BARA. -/
theorem barrier_completes {i : Instr} {opc : Nat} {h : Hdr} {id : BitVec 4} {w : Bool} (he : ∀ s, exec i s = .next (barrierOp opc h id w s)) :
    (BundleRow.barrier opc h id w).Completes i := by
  refine bundle_completes (r := BundleRow.barrier opc h id w) (i := i) he fun s p k v u hk => ?_
  simp only [BundleRow.barrier] at hk ⊢
  exact ⟨by simp only [hk]; rfl, rfl⟩

/-- Matrix operations: their request is accepted. -/
theorem matrix_completes {i : Instr} {opc : Nat} {h : Hdr} {kind : MxKind} {asp pm : Bool} {str : BitVec 2} {b : Cls}
   (he : ∀ s, exec i s = .next (mxOp opc h kind asp pm str b s)) : (BundleRow.matrix opc h kind asp pm str b).Completes i := by
  refine once_completes he fun s u ks k v hk => ?_
  exact mx_ok hk
where
  mx_ok {q : MxReq} {s u : State} {ks : List Nat} {k : Nat} (hk : mxClears q s ks k = true) : mxIssue q s u ks k = .ok (u.accept q ks) := by
    simp only [mxClears, Bool.and_eq_true, List.all_eq_true, decide_eq_true_eq, beq_iff_eq, Bool.or_eq_true] at hk
    obtain ⟨⟨⟨h1, h2⟩, h3⟩, h4⟩ := hk
    have e3 : (mxPanels q.kind (q.kind != .mzero && q.aReg.isNone) q.aOff q.bOff q.metaOff q.scaleOff).find? (fun p => (s.blkOf k).spadBad p.1 p.2.1) = none :=
      List.find?_eq_none.mpr fun p hp => by simpa using (h3 p hp).2
    have e1 : (mxPanels q.kind (q.kind != .mzero && q.aReg.isNone) q.aOff q.bOff q.metaOff q.scaleOff).find? (fun p => p.1 % p.2.2 != 0) = none :=
      List.find?_eq_none.mpr fun p hp => by simp [(h3 p hp).1.1]
    have e2 : (mxPanels q.kind (q.kind != .mzero && q.aReg.isNone) q.aOff q.bOff q.metaOff q.scaleOff).find? (fun p => decide (p.1 + p.2.1 > (s.blkOf k).scratch)) = none :=
      List.find?_eq_none.mpr fun p hp => by simp [(h3 p hp).1.2]
    unfold mxIssue
    simp only [e1, e2, e3]
    cases ha : q.aReg with
    | none =>
      rcases h2 with h2 | h2 <;> simp [h2, Nat.not_le.mpr h4]
    | some a =>
      simp only [ha, Bool.not_eq_true'] at h1
      rcases h2 with h2 | h2 <;> simp [h1, h2, Nat.not_le.mpr h4]

/-- GATH and SCAT. -/
theorem gather_completes {i : Instr} {opc : Nat} {g : Bool} {h : Hdr} {sz : BitVec 2} {u a : Bool}
   (he : ∀ s, exec i s = .next (gatherOp opc g h sz u a s)) : (BundleRow.gather opc g h sz u a).Completes i := by
  refine bundle_completes (r := BundleRow.gather opc g h sz u a) he fun s p k v x hk => ⟨?_, rfl⟩
  simp only [BundleRow.gather, engineClears, Bool.and_eq_true, Bool.not_eq_true', beq_iff_eq, decide_eq_true_eq, Bool.or_eq_true] at hk ⊢
  obtain ⟨⟨⟨⟨⟨⟨⟨h1, h2⟩, h3⟩, h4⟩, h5⟩, h6⟩, h7⟩, h8, h9⟩ := hk
  generalize gatherSize sz.toNat = size at *
  simp only [h1, h2, h3, h4, Nat.not_lt.mpr h5, Nat.not_lt.mpr h6, Nat.not_lt.mpr h7, startLane]
  rcases h8 with h8 | h8
  · simp [h8, Nat.not_le.mpr h9]
  · cases a <;> simp [arrivalBad, h8.1, Nat.not_lt.mpr h8.2, Nat.not_le.mpr h9]

/-- HSET and HLOAD. -/
theorem cursorSet_completes {i : Instr} {opc : Nat} {full : Bool} {h : Hdr} {hc : BitVec 2} 
   (he : ∀ s, exec i s = .next (hsetLoad opc full h hc s)) : (BundleRow.cursorSet opc full h hc).Completes i := by
  refine once_completes he fun s u ks k v hk => ?_
  simp only [Bool.and_eq_true, Bool.not_eq_true', beq_iff_eq] at hk
  obtain ⟨⟨⟨⟨h1, h2⟩, h3⟩, h4⟩, h5⟩ := hk
  cases hm : (s.thr k).memo.find 0 with
  | none => rw [hm] at h4; simp at h4
  | some w =>
    simp only [hm, Option.getD_some] at h5 ⊢
    simp [h1, h2, h3, h5]

/-- HXST and HXLD. -/
theorem image_completes {i : Instr} {opc : Nat} {acc : Acc} {key : Nat} {h : Hdr} {ready : State → Nat → Bool} {move : State → Nat → State → State}
   (he : ∀ s, exec i s = .next (imageOp opc acc key h ready move s)) : (BundleRow.image opc acc key h ready move).Completes i := by
  refine bundle_completes (r := BundleRow.image opc acc key h ready move) he fun s p k v u hk => ⟨?_, rfl⟩
  simp only [BundleRow.image] at hk ⊢
  cases p with
  | nil => simp at hk
  | cons a p =>
    simp only [List.head?_cons, Option.any_some, Bool.and_eq_true, Bool.or_eq_true, Bool.not_eq_true', beq_iff_eq] at hk ⊢
    obtain ⟨⟨h1, h2⟩, h3⟩ := hk
    cases he : s.engaged a.1 with
    | true => simp [h2, h3]
    | false =>
      obtain ⟨h1, h4⟩ := h1.resolve_left (by simp [he])
      cases hx : s.imagePlaces a.1 (addr48 a.2.a) acc with
      | error e => simp [hx, Except.toOption] at h4
      | ok ps => by_cases hkl : k = a.1 <;> simp [h1, h2, h3, hkl, Except.toOption]

/-- A record's place does not depend on the state at the lane's turn. -/
theorem recordPlace_u (s u : State) (k va : Nat) (acc : Acc) : (recordPlace s u k va acc).toOption = recordAt s k va acc := by
  unfold recordAt recordPlace
  dsimp only
  split
  · rfl
  · split
    · rfl
    · cases s.translateFor k va acc with
      | ok x => dsimp only; split; rfl; split <;> rfl
      | error e =>
        cases e with
        | perm sync => dsimp only; split <;> rfl
        | fault => rfl
        | aliased => rfl

/-- Where a record's checks pass, its place is the one that the row takes. -/
theorem recordPlace_ok {s u : State} {k va : Nat} {acc : Acc} {p : Nat → Bool} (h : (recordAt s k va acc).any p = true) :
    recordPlace s u k va acc = .ok ((recordAt s k va acc).getD 0) ∧ p ((recordAt s k va acc).getD 0) = true := by
  have := recordPlace_u s u k va acc
  cases hr : recordPlace s u k va acc with
  | error e => rw [hr] at this; simp [Except.toOption] at this; rw [← this] at h; simp at h
  | ok x => rw [hr] at this; simp [Except.toOption] at this; rw [← this] at h ⊢; simpa using h

/-- A capsule step's access does not depend on the state at the lane's turn. -/
theorem stepAccess_u (s u : State) (h : Hdr) (k va : Nat) (acc : Acc) (hk : (stepAccess s s h k va acc).toOption.isSome = true) :
    stepAccess s u h k va acc = stepAccess s s h k va acc := by
  have he : (stepAccess s u h k va acc).toOption = (stepAccess s s h k va acc).toOption := by
    unfold stepAccess
    dsimp only
    cases (s.thr k).capsule with
    | none => rfl
    | some c =>
      dsimp only
      split
      · rfl
      · split
        · rfl
        · cases s.place k va 4 acc false with
          | error b => rfl
          | ok q =>
            dsimp only
            cases s.translateFor k c.capr .atomic with
            | ok x => rfl
            | error e => cases e <;> rfl
  cases hs : stepAccess s s h k va acc with
  | error e => rw [hs] at hk; simp [Except.toOption] at hk
  | ok x =>
    cases hr : stepAccess s u h k va acc with
    | error e => rw [hs, hr] at he; simp [Except.toOption] at he
    | ok y => rw [hs, hr] at he; simp only [Except.toOption, Option.some.injEq] at he; rw [he]

/-- An event of something that must be there. -/
theorem EventRow.on_completes {α : Type} {get : State → Option α} {ok : State → α → Bool} {out : State → α → State} {i : Instr}
    (h : ∀ s a, get s = some a → ok s a = true → exec i s = .next (out s a)) : (EventRow.on get ok out).Completes i := by
  intro s hs
  simp only [EventRow.on] at hs ⊢
  cases hg : get s with
  | none => simp [hg] at hs
  | some a => simp only [hg, Option.any_some, Option.elim_some] at hs ⊢; exact h s a hg hs

/-- The end of an engine's unit that nothing keeps. -/
theorem endUnit_eq (s : State) (e : Nat) (o : EngOp) (h : s.unitEnds o = true) : s.endUnit e o = s.unitCounted e o := by
  simp only [State.unitEnds, Bool.and_eq_true] at h
  obtain ⟨h1, h2⟩ := h
  unfold State.endUnit State.unitCounted
  cases hc : o.toCount s.time with
  | none => rw [hc] at h1; simp at h1
  | some u => cases ha : o.arrival <;> simp_all

/-- An `Except` value that is there. -/
theorem toOption_some {ε α : Type} {e : Except ε α} {a : α} (h : e.toOption = some a) : e = .ok a := by
  cases e <;> simp_all [Except.toOption]

/-- An invalidation that no request on its way holds up is done. -/
theorem invalidate_done {s : State} {p : Nat} {v : Covers}
    (h : (match (s.partAt p).invWait with
      | none => s.reqs.all fun r => !(r.2.inFlight p && s.reqCovered p v r.2)
      | some ids => ids.all fun i => !(s.reqs.find i).any (Req.inFlight · p)) = true) :
    invalidate p v s =
      ((if (s.partAt p).invWait.isNone then s.dropXlat p v else s).modPart p fun P => { P with invWait := none }, some stDone) := by
  unfold invalidate
  cases hw : (s.partAt p).invWait with
  | none =>
    rw [hw] at h
    have : (s.reqs.filter fun r => r.2.inFlight p && s.reqCovered p v r.2) = [] := by
      rw [List.filter_eq_nil_iff]
      exact fun r hr hc => by simpa [hc] using List.all_eq_true.mp h r hr
    simp only [this, List.map_nil, List.any_nil, Option.isNone_none]; rfl
  | some ids =>
    rw [hw] at h
    have : (ids.any fun i => (s.reqs.find i).any (Req.inFlight · p)) = false := by
      rw [← Bool.not_eq_true', List.not_any_eq_all_not]; exact h
    simp only [this, Option.isNone_some]; rfl

/-- Bytes of a frame written where their area is mapped. -/
theorem frameBytes_ok {s : State} {c x off : Nat} {bs : List Byte}
    (h : (s.ipaFault (s.ctxAt x).part (frameAt x c + off) bs.length .store).isNone = true) :
    s.frameBytes c x off bs = .ok (s.writeIpa (s.ctxAt x).part (frameAt x c + off) bs) := by
  rw [State.frameBytes, Option.isNone_iff_eq_none.1 h]

/-- What follows where the save area met no fault. -/
theorem orStop_ok {α : Type} {e : Except State α} {a : α} {f : α → State} (h : e = .ok a) : orStop e f = f a := by
  rw [h]; rfl

/-- The next block of a frame restored where its row says (R334). -/
theorem restoreNext_eq {s : State} {x c b : Nat} {f : Frame} {B : Block} (h : B.retired = true ∨ (s.restorePlace x c f b B).isSome = true) :
    s.restoreNext x c f b B = (if B.retired then (s.recordSpot x c B).elim s fun i =>
          ({ s with blocks := s.blocks.put b { B with core := i } } : State).dropSaved x c b i 0
        else (s.restorePlace x c f b B).elim s fun z =>
          let r := s.readFrame (s.ctxAt x).part (frameAt x c) f b { B with windows := z.2.2.1 }
          (z.2.2.2.restoreBlock x r.1 z.1 b r.2 z.2.1).dropSaved x c b z.1 B.ident.owner) := by
  unfold State.restoreNext
  cases hr : B.retired with
  | true => rfl
  | false =>
    rw [if_neg (by simp), if_neg (by simp)]
    replace h := h.resolve_left (by simp [hr])
    unfold State.restorePlace at h ⊢
    cases hsp : s.savedSpot f c b B with
    | none => rw [hsp] at h; cases h
    | some i =>
      rw [hsp, Option.bind_some] at h
      rw [Option.elim_some, Option.bind_some]
      cases hw : s.contWaits i.1 with
      | true => rw [if_pos hw] at h; cases h
      | false =>
        rw [if_neg (by simp [hw])] at h
        rw [if_neg (by simp), if_neg (by simp)]
        cases hi : s.restoreReads x c f i.1 b B with
        | error e => rw [hi] at h; cases h
        | ok ws =>
          rw [hi] at h
          rw [orStop_ok rfl]
          cases ht : s.takeSlot (s.ctxAt x).part i.1 B.ident.owner x i.2 with
          | error e => simp [ht, Except.toOption] at h
          | ok u => rw [orStop_ok rfl]; simp [Except.toOption]

/-- A partition-ring command that its checks let through. -/
theorem command_completes {p : Nat} {o : CmdOps} {masks : List Nat} {ok : State → Bool} {out : State → State} {i : Instr}
    {body : State → CmdEnd} (he : ∀ s, exec i s = .next (runCmd p o masks body s))
    (h : ∀ s, ok s = true → body s = (out s, some stDone)) : (EventRow.command p o masks ok out).Completes i := by
  intro s hs
  simp only [EventRow.command, Bool.and_eq_true] at hs
  obtain ⟨⟨⟨h1, h2⟩, h3⟩, h4⟩ := hs
  rw [he]
  simp only [EventRow.command, runCmd, h1, h2, h3, h s h4]; rfl

/-- A management command that its checks let through. -/
theorem manage_completes {p : Nat} {o : CmdOps} {masks : List Nat} {ok : State → Bool} {out : State → State} {i : Instr}
    {body : State → CmdEnd} (he : ∀ s, exec i s = .next (runMgmt p o masks body s))
    (h : ∀ s, ok s = true → body s = (out s, some stDone)) : (EventRow.manage p o masks ok out).Completes i := by
  intro s hs
  simp only [EventRow.manage, Bool.and_eq_true, beq_iff_eq] at hs
  obtain ⟨⟨h1, h3⟩, h4⟩ := hs
  rw [he]
  simp only [EventRow.manage, runMgmt, h1, h3, h s h4]; rfl

/-- A debug command that its checks let through. -/
theorem debug_completes {p : Nat} {t : DbgTarget} {ok : Bool} {out : State → State} {i : Instr} {body : State → State}
    (he : ∀ s, exec i s = .next (runDebug p t body s)) (h : ∀ s, ok = true → body s = out s) : (EventRow.debug p t ok out).Completes i := by
  apply EventRow.on_completes; intro s d hd hq
  rw [he]
  simp only [Bool.and_eq_true, Bool.not_eq_true'] at hq
  obtain ⟨⟨⟨h1, h2⟩, h2'⟩, h3⟩ := hq
  cases hp : d.pending <;> simp [hp] at h2
  cases hp' : d.due <;> simp [hp'] at h2'
  simp only [runDebug, hd, hp, hp', h3, h s h1]; rfl

end Sys2Proof.Machine
end

