-- ==== Sys2Proof/Laws/Operands.lean ====
section
/-! SUPPORT. What reading the operands of a lane can give: values of the width of their class. -/

namespace Sys2Proof.Machine

/-- A run of registers is a number of its width. -/
theorem readRun_lt (s : State) (k c n : Nat) : s.readRun k c n < 2 ^ (32 * n) := by
  induction n generalizing c with
  | zero => simp [State.readRun]
  | succ n ih =>
    have h1 := (s.readReg k c).isLt
    have h2 := ih (c + 1)
    simp only [State.readRun]
    split
    · exact Nat.two_pow_pos _
    · have e : (2 : Nat) ^ (32 * (n + 1)) = 2 ^ 32 * 2 ^ (32 * n) := by rw [← Nat.pow_add]; congr 1; omega
      rw [e]
      have := Nat.mul_le_mul_left (2 ^ 32) h2
      omega

/-- The operands of a lane, where they clear LATCH and INDEX, are read by their classes. -/
theorem operands_reads {s : State} {k : Nat} {h : Hdr} {fm : Form} {v : Vals} (ho : s.operands k h fm = .ok v) :
    (fm.a.isReg = true → ∃ c, v.a = s.readRun k c fm.a.words) ∧ (fm.b.isReg = true → ∃ c, v.b = s.readB k h fm.b c)
      ∧ (fm.d.isReg = true → v.d = s.readRun k v.dst fm.d.words) := by
  unfold State.operands at ho
  dsimp only at ho
  split at ho
  · exact absurd ho (by simp)
  · split at ho
    · exact absurd ho (by simp)
    · split at ho
      · exact absurd ho (by simp)
      · split at ho
        · exact absurd ho (by simp)
        · split at ho
          · exact absurd ho (by simp)
          · cases ho
            refine ⟨fun h => ⟨_, if_pos h⟩, fun h => ⟨_, if_pos h⟩, fun h => if_pos h⟩

/-- A is below 2^32 for a one-register class, and so on. -/
theorem operands_a_lt {s : State} {k : Nat} {h : Hdr} {fm : Form} {v : Vals} (ho : s.operands k h fm = .ok v)
    (hr : fm.a.isReg = true) : v.a < 2 ^ (32 * fm.a.words) := by
  obtain ⟨c, e⟩ := (operands_reads ho).1 hr
  rw [e]
  exact readRun_lt _ _ _ _

theorem operands_d_lt {s : State} {k : Nat} {h : Hdr} {fm : Form} {v : Vals} (ho : s.operands k h fm = .ok v)
    (hr : fm.d.isReg = true) : v.d < 2 ^ (32 * fm.d.words) := by
  rw [(operands_reads ho).2.2 hr]
  exact readRun_lt _ _ _ _

theorem operands_b_lt {s : State} {k : Nat} {h : Hdr} {fm : Form} {v : Vals} (ho : s.operands k h fm = .ok v)
    (hr : fm.b.isReg = true) (hw : fm.b.words = 1 ∨ fm.b.words = 2) : v.b < 2 ^ (32 * fm.b.words) := by
  obtain ⟨c, e⟩ := (operands_reads ho).2.1 hr
  rw [e]
  unfold State.readB
  cases h.imm with
  | none => exact readRun_lt _ _ _ _
  | some x =>
    rcases hw with hw | hw <;> rw [hw]
    · exact x.isLt
    · exact (x.signExtend 64).isLt

/-- An immediate B reads as it stands (R69). -/
theorem operands_imm {s : State} {k : Nat} {h : Hdr} {fm : Form} {v : Vals} {x : Word} (ho : s.operands k h fm = .ok v)
    (hr : fm.b.isReg = true) (hi : h.imm = some x) : v.b = if fm.b.words = 2 then (x.signExtend 64).toNat else x.toNat := by
  obtain ⟨c, e⟩ := (operands_reads ho).2.1 hr
  rw [e]
  simp only [State.readB, hi]

end Sys2Proof.Machine
end

