-- ==== Sys2Proof/Laws/PerInstr.lean ====
section
/-! SUPPORT. The laws made per instruction. `Fields`: the opcode table's entry of a well-formed word form reads back
every modifier field that its encoding wrote (03 R69, R85). -/

set_option Elab.async false

namespace Sys2Proof

theorem bit_of {n i : Nat} {b : Bool} (h : n / 2 ^ i % 2 = b2n b) : bit n i = b := by
  unfold bit; rw [h]; cases b <;> rfl

theorem bits_of {n lo k : Nat} {v : BitVec k} (h : n / 2 ^ lo % 2 ^ k = v.toNat) : bits k n lo = v :=
  BitVec.eq_of_toNat_eq (by simp only [bits, BitVec.toNat_ofNat]; exact h)

theorem b2n_false : b2n false = 0 := rfl

theorem b2n_true : b2n true = 1 := rfl

theorem b2n_lt (b : Bool) : b2n b < 2 := by cases b <;> decide

theorem or_full {m n : Nat} (h : m < 2 ^ n) : m ||| (2 ^ n - 1) = 2 ^ n - 1 := by
  apply Nat.eq_of_testBit_eq
  intro i
  rw [Nat.testBit_or, Nat.testBit_two_pow_sub_one]
  by_cases hi : i < n
  · simp [hi]
  · simp [hi, Nat.testBit_lt_two_pow (Nat.lt_of_lt_of_le h (Nat.pow_le_pow_right (by decide) (Nat.le_of_not_lt hi)))]

theorem why56_none {a b : Bool} (h : (a || b) = false) : why56 a b = none := by
  cases a <;> cases b <;> simp_all [why56]

/-- The immediate rule and the modifier mask hold, and no field value is ruled out. -/
theorem form_ok {pol : ImmPolicy} {mask m : Nat} {bad : Option Nat} {h : Hdr} {i : Instr} (hp : pol.bad h.imm = false)
    (hm : m ||| mask = mask) (hb : bad = none) : form pol mask bad h m i = .ok i := by
  simp [form, hp, hm, hb]

end Sys2Proof

/-- A word form that keeps the rules of its entry is what the entry reads from its modifier bits, which fit in a unit. -/
def Sys2Proof.Laws.Fields.Statement (i : Sys2Proof.Instr) : Prop :=
  ∀ h : Sys2Proof.Hdr, i.hdr? = some h → h.hint.getLsbD 0 = false → i.immPolicy.bad h.imm = false → i.badFields = false →
    Sys2Proof.decodeOp i.opc h i.mods = .ok i ∧ i.mods < 2 ^ 39

namespace Sys2Proof.Laws

/-- What an entry needs. -/
theorem Fields.of {i : Instr} {h : Hdr} (o : Nat) (pol : ImmPolicy) (mask : Nat) (bad : Option Nat) (j : Instr) (hh : i.hdr? = some h)
    (ho : i.opc = o) (e : decodeOp o h i.mods = if h.hint.getLsbD 0 && decodeOp.decodable o then .error 2 else form pol mask bad h i.mods j)
    (hp : i.immPolicy = pol) (hm : i.mods ||| mask = mask) (h39 : mask < 2 ^ 39) (hj : j = i) (hb : i.badFields = false → bad = none) :
    Fields.Statement i := by
  intro g hg h0 hi hf
  rw [hh] at hg; cases hg
  rw [ho, e, h0, hj]
  exact ⟨form_ok (hp ▸ hi) hm (hb hf), Nat.lt_of_le_of_lt (hm ▸ Nat.left_le_or) h39⟩

theorem Fields.mov (h : Hdr) (w64 : Bool) : Fields.Statement (.mov h w64) := by
  have e0 := bit_of (n := Instr.mods (.mov h w64)) (i := 0) (b := w64) (by have b0 := b2n_lt w64; simp only [Instr.mods]; omega)
  exact Fields.of 0x000 .no 0x1 none (.mov h (bit (Instr.mods (.mov h w64)) 0)) rfl rfl rfl rfl (or_full (n := 1) (by have b0 := b2n_lt w64; simp only [Instr.mods]; omega)) (by decide) (by rw [e0]) (fun _ => rfl)

theorem Fields.movi (h : Hdr) (w64 : Bool) : Fields.Statement (.movi h w64) := by
  have e0 := bit_of (n := Instr.mods (.movi h w64)) (i := 0) (b := w64) (by have b0 := b2n_lt w64; simp only [Instr.mods]; omega)
  exact Fields.of 0x001 .req 0x1 none (.movi h (bit (Instr.mods (.movi h w64)) 0)) rfl rfl rfl rfl (or_full (n := 1) (by have b0 := b2n_lt w64; simp only [Instr.mods]; omega)) (by decide) (by rw [e0]) (fun _ => rfl)

theorem Fields.sel (h : Hdr) (sp : BitVec 3) (sn : Bool) : Fields.Statement (.sel h sp sn) := by
  have e0 := bits_of (n := Instr.mods (.sel h sp sn)) (lo := 0) (k := 3) (v := sp) (by have b0 := sp.isLt; have b1 := b2n_lt sn; simp only [Instr.mods]; omega)
  have e1 := bit_of (n := Instr.mods (.sel h sp sn)) (i := 3) (b := sn) (by have b0 := sp.isLt; have b1 := b2n_lt sn; simp only [Instr.mods]; omega)
  exact Fields.of 0x002 .yes 0xF none (.sel h (bits 3 (Instr.mods (.sel h sp sn)) 0) (bit (Instr.mods (.sel h sp sn)) 3)) rfl rfl rfl rfl (or_full (n := 4) (by have b0 := sp.isLt; have b1 := b2n_lt sn; simp only [Instr.mods]; omega)) (by decide) (by rw [e0, e1]) (fun _ => rfl)

theorem Fields.iadd (h : Hdr) (u : Bool) (sat : Bool) : Fields.Statement (.iadd h u sat) := by
  have e0 := bit_of (n := Instr.mods (.iadd h u sat)) (i := 0) (b := u) (by have b0 := b2n_lt u; have b1 := b2n_lt sat; simp only [Instr.mods]; omega)
  have e1 := bit_of (n := Instr.mods (.iadd h u sat)) (i := 1) (b := sat) (by have b0 := b2n_lt u; have b1 := b2n_lt sat; simp only [Instr.mods]; omega)
  exact Fields.of 0x003 .yes 0x3 none (.iadd h (bit (Instr.mods (.iadd h u sat)) 0) (bit (Instr.mods (.iadd h u sat)) 1)) rfl rfl rfl rfl (or_full (n := 2) (by have b0 := b2n_lt u; have b1 := b2n_lt sat; simp only [Instr.mods]; omega)) (by decide) (by rw [e0, e1]) (fun _ => rfl)

theorem Fields.isub (h : Hdr) (u : Bool) (sat : Bool) : Fields.Statement (.isub h u sat) := by
  have e0 := bit_of (n := Instr.mods (.isub h u sat)) (i := 0) (b := u) (by have b0 := b2n_lt u; have b1 := b2n_lt sat; simp only [Instr.mods]; omega)
  have e1 := bit_of (n := Instr.mods (.isub h u sat)) (i := 1) (b := sat) (by have b0 := b2n_lt u; have b1 := b2n_lt sat; simp only [Instr.mods]; omega)
  exact Fields.of 0x004 .yes 0x3 none (.isub h (bit (Instr.mods (.isub h u sat)) 0) (bit (Instr.mods (.isub h u sat)) 1)) rfl rfl rfl rfl (or_full (n := 2) (by have b0 := b2n_lt u; have b1 := b2n_lt sat; simp only [Instr.mods]; omega)) (by decide) (by rw [e0, e1]) (fun _ => rfl)

theorem Fields.iadc (h : Hdr) (cp : BitVec 3) (sub : Bool) : Fields.Statement (.iadc h cp sub) := by
  have e0 := bits_of (n := Instr.mods (.iadc h cp sub)) (lo := 0) (k := 3) (v := cp) (by have b0 := cp.isLt; have b1 := b2n_lt sub; simp only [Instr.mods]; omega)
  have e1 := bit_of (n := Instr.mods (.iadc h cp sub)) (i := 3) (b := sub) (by have b0 := cp.isLt; have b1 := b2n_lt sub; simp only [Instr.mods]; omega)
  exact Fields.of 0x005 .yes 0xF none (.iadc h (bits 3 (Instr.mods (.iadc h cp sub)) 0) (bit (Instr.mods (.iadc h cp sub)) 3)) rfl rfl rfl rfl (or_full (n := 4) (by have b0 := cp.isLt; have b1 := b2n_lt sub; simp only [Instr.mods]; omega)) (by decide) (by rw [e0, e1]) (fun _ => rfl)

theorem Fields.imul (h : Hdr) (u : Bool) (sat : Bool) (wide : Bool) : Fields.Statement (.imul h u sat wide) := by
  have e0 := bit_of (n := Instr.mods (.imul h u sat wide)) (i := 0) (b := u) (by have b0 := b2n_lt u; have b1 := b2n_lt sat; have b2 := b2n_lt wide; simp only [Instr.mods]; omega)
  have e1 := bit_of (n := Instr.mods (.imul h u sat wide)) (i := 1) (b := sat) (by have b0 := b2n_lt u; have b1 := b2n_lt sat; have b2 := b2n_lt wide; simp only [Instr.mods]; omega)
  have e2 := bit_of (n := Instr.mods (.imul h u sat wide)) (i := 2) (b := wide) (by have b0 := b2n_lt u; have b1 := b2n_lt sat; have b2 := b2n_lt wide; simp only [Instr.mods]; omega)
  exact Fields.of 0x006 .yes 0x7 none (.imul h (bit (Instr.mods (.imul h u sat wide)) 0) (bit (Instr.mods (.imul h u sat wide)) 1) (bit (Instr.mods (.imul h u sat wide)) 2)) rfl rfl rfl rfl (or_full (n := 3) (by have b0 := b2n_lt u; have b1 := b2n_lt sat; have b2 := b2n_lt wide; simp only [Instr.mods]; omega)) (by decide) (by rw [e0, e1, e2]) (fun _ => rfl)

theorem Fields.imulh (h : Hdr) (u : Bool) : Fields.Statement (.imulh h u) := by
  have e0 := bit_of (n := Instr.mods (.imulh h u)) (i := 0) (b := u) (by have b0 := b2n_lt u; simp only [Instr.mods]; omega)
  exact Fields.of 0x007 .yes 0x1 none (.imulh h (bit (Instr.mods (.imulh h u)) 0)) rfl rfl rfl rfl (or_full (n := 1) (by have b0 := b2n_lt u; simp only [Instr.mods]; omega)) (by decide) (by rw [e0]) (fun _ => rfl)

theorem Fields.imad (h : Hdr) (u : Bool) (sat : Bool) (wide : Bool) : Fields.Statement (.imad h u sat wide) := by
  have e0 := bit_of (n := Instr.mods (.imad h u sat wide)) (i := 0) (b := u) (by have b0 := b2n_lt u; have b1 := b2n_lt sat; have b2 := b2n_lt wide; simp only [Instr.mods]; omega)
  have e1 := bit_of (n := Instr.mods (.imad h u sat wide)) (i := 1) (b := sat) (by have b0 := b2n_lt u; have b1 := b2n_lt sat; have b2 := b2n_lt wide; simp only [Instr.mods]; omega)
  have e2 := bit_of (n := Instr.mods (.imad h u sat wide)) (i := 2) (b := wide) (by have b0 := b2n_lt u; have b1 := b2n_lt sat; have b2 := b2n_lt wide; simp only [Instr.mods]; omega)
  exact Fields.of 0x008 .yes 0x7 none (.imad h (bit (Instr.mods (.imad h u sat wide)) 0) (bit (Instr.mods (.imad h u sat wide)) 1) (bit (Instr.mods (.imad h u sat wide)) 2)) rfl rfl rfl rfl (or_full (n := 3) (by have b0 := b2n_lt u; have b1 := b2n_lt sat; have b2 := b2n_lt wide; simp only [Instr.mods]; omega)) (by decide) (by rw [e0, e1, e2]) (fun _ => rfl)

theorem Fields.imin (h : Hdr) (u : Bool) : Fields.Statement (.imin h u) := by
  have e0 := bit_of (n := Instr.mods (.imin h u)) (i := 0) (b := u) (by have b0 := b2n_lt u; simp only [Instr.mods]; omega)
  exact Fields.of 0x009 .yes 0x1 none (.imin h (bit (Instr.mods (.imin h u)) 0)) rfl rfl rfl rfl (or_full (n := 1) (by have b0 := b2n_lt u; simp only [Instr.mods]; omega)) (by decide) (by rw [e0]) (fun _ => rfl)

theorem Fields.imax (h : Hdr) (u : Bool) : Fields.Statement (.imax h u) := by
  have e0 := bit_of (n := Instr.mods (.imax h u)) (i := 0) (b := u) (by have b0 := b2n_lt u; simp only [Instr.mods]; omega)
  exact Fields.of 0x00A .yes 0x1 none (.imax h (bit (Instr.mods (.imax h u)) 0)) rfl rfl rfl rfl (or_full (n := 1) (by have b0 := b2n_lt u; simp only [Instr.mods]; omega)) (by decide) (by rw [e0]) (fun _ => rfl)

theorem Fields.iabs (h : Hdr) (sat : Bool) : Fields.Statement (.iabs h sat) := by
  have e0 := bit_of (n := Instr.mods (.iabs h sat)) (i := 1) (b := sat) (by have b0 := b2n_lt sat; simp only [Instr.mods]; omega)
  exact Fields.of 0x00B .no 0x3 (why56 (bit (Instr.mods (.iabs h sat)) 0) (false)) (.iabs h (bit (Instr.mods (.iabs h sat)) 1)) rfl rfl rfl rfl (or_full (n := 2) (by have b0 := b2n_lt sat; simp only [Instr.mods]; omega)) (by decide) (by rw [e0]) (fun _ => by rw [show bit (Instr.mods (.iabs h sat)) 0 = false from bit_of (by simp only [Instr.mods, b2n_false]; omega)]; rfl)

theorem Fields.ineg (h : Hdr) (sat : Bool) : Fields.Statement (.ineg h sat) := by
  have e0 := bit_of (n := Instr.mods (.ineg h sat)) (i := 1) (b := sat) (by have b0 := b2n_lt sat; simp only [Instr.mods]; omega)
  exact Fields.of 0x00C .no 0x3 (why56 (bit (Instr.mods (.ineg h sat)) 0) (false)) (.ineg h (bit (Instr.mods (.ineg h sat)) 1)) rfl rfl rfl rfl (or_full (n := 2) (by have b0 := b2n_lt sat; simp only [Instr.mods]; omega)) (by decide) (by rw [e0]) (fun _ => by rw [show bit (Instr.mods (.ineg h sat)) 0 = false from bit_of (by simp only [Instr.mods, b2n_false]; omega)]; rfl)

theorem Fields.andw (h : Hdr) : Fields.Statement (.andw h) := by
  exact Fields.of 0x00D .yes 0x0 none (.andw h ) rfl rfl rfl rfl (or_full (n := 0) (by simp only [Instr.mods]; omega)) (by decide) (rfl) (fun _ => rfl)

theorem Fields.orw (h : Hdr) : Fields.Statement (.orw h) := by
  exact Fields.of 0x00E .yes 0x0 none (.orw h ) rfl rfl rfl rfl (or_full (n := 0) (by simp only [Instr.mods]; omega)) (by decide) (rfl) (fun _ => rfl)

theorem Fields.xorw (h : Hdr) : Fields.Statement (.xorw h) := by
  exact Fields.of 0x00F .yes 0x0 none (.xorw h ) rfl rfl rfl rfl (or_full (n := 0) (by simp only [Instr.mods]; omega)) (by decide) (rfl) (fun _ => rfl)

theorem Fields.andn (h : Hdr) : Fields.Statement (.andn h) := by
  exact Fields.of 0x010 .yes 0x0 none (.andn h ) rfl rfl rfl rfl (or_full (n := 0) (by simp only [Instr.mods]; omega)) (by decide) (rfl) (fun _ => rfl)

theorem Fields.notw (h : Hdr) : Fields.Statement (.notw h) := by
  exact Fields.of 0x011 .no 0x0 none (.notw h ) rfl rfl rfl rfl (or_full (n := 0) (by simp only [Instr.mods]; omega)) (by decide) (rfl) (fun _ => rfl)

theorem Fields.shl (h : Hdr) : Fields.Statement (.shl h) := by
  exact Fields.of 0x012 .yes 0x0 none (.shl h ) rfl rfl rfl rfl (or_full (n := 0) (by simp only [Instr.mods]; omega)) (by decide) (rfl) (fun _ => rfl)

theorem Fields.shr (h : Hdr) : Fields.Statement (.shr h) := by
  exact Fields.of 0x013 .yes 0x0 none (.shr h ) rfl rfl rfl rfl (or_full (n := 0) (by simp only [Instr.mods]; omega)) (by decide) (rfl) (fun _ => rfl)

theorem Fields.sar (h : Hdr) : Fields.Statement (.sar h) := by
  exact Fields.of 0x014 .yes 0x0 none (.sar h ) rfl rfl rfl rfl (or_full (n := 0) (by simp only [Instr.mods]; omega)) (by decide) (rfl) (fun _ => rfl)

theorem Fields.rotl (h : Hdr) : Fields.Statement (.rotl h) := by
  exact Fields.of 0x015 .yes 0x0 none (.rotl h ) rfl rfl rfl rfl (or_full (n := 0) (by simp only [Instr.mods]; omega)) (by decide) (rfl) (fun _ => rfl)

theorem Fields.bfx (h : Hdr) (sx : Bool) : Fields.Statement (.bfx h sx) := by
  have e0 := bit_of (n := Instr.mods (.bfx h sx)) (i := 0) (b := sx) (by have b0 := b2n_lt sx; simp only [Instr.mods]; omega)
  exact Fields.of 0x016 .yes 0x1 none (.bfx h (bit (Instr.mods (.bfx h sx)) 0)) rfl rfl rfl rfl (or_full (n := 1) (by have b0 := b2n_lt sx; simp only [Instr.mods]; omega)) (by decide) (by rw [e0]) (fun _ => rfl)

theorem Fields.bfi (h : Hdr) : Fields.Statement (.bfi h) := by
  exact Fields.of 0x017 .yes 0x0 none (.bfi h ) rfl rfl rfl rfl (or_full (n := 0) (by simp only [Instr.mods]; omega)) (by decide) (rfl) (fun _ => rfl)

theorem Fields.popc (h : Hdr) : Fields.Statement (.popc h) := by
  exact Fields.of 0x018 .no 0x0 none (.popc h ) rfl rfl rfl rfl (or_full (n := 0) (by simp only [Instr.mods]; omega)) (by decide) (rfl) (fun _ => rfl)

theorem Fields.clz (h : Hdr) : Fields.Statement (.clz h) := by
  exact Fields.of 0x019 .no 0x0 none (.clz h ) rfl rfl rfl rfl (or_full (n := 0) (by simp only [Instr.mods]; omega)) (by decide) (rfl) (fun _ => rfl)

theorem Fields.ctz (h : Hdr) : Fields.Statement (.ctz h) := by
  exact Fields.of 0x01A .no 0x0 none (.ctz h ) rfl rfl rfl rfl (or_full (n := 0) (by simp only [Instr.mods]; omega)) (by decide) (rfl) (fun _ => rfl)

theorem Fields.brev (h : Hdr) : Fields.Statement (.brev h) := by
  exact Fields.of 0x01B .no 0x0 none (.brev h ) rfl rfl rfl rfl (or_full (n := 0) (by simp only [Instr.mods]; omega)) (by decide) (rfl) (fun _ => rfl)

theorem Fields.icmp (h : Hdr) (cond : BitVec 3) (u : Bool) : Fields.Statement (.icmp h cond u) := by
  have e0 := bits_of (n := Instr.mods (.icmp h cond u)) (lo := 0) (k := 3) (v := cond) (by have b0 := cond.isLt; have b1 := b2n_lt u; simp only [Instr.mods]; omega)
  have e1 := bit_of (n := Instr.mods (.icmp h cond u)) (i := 3) (b := u) (by have b0 := cond.isLt; have b1 := b2n_lt u; simp only [Instr.mods]; omega)
  exact Fields.of 0x01C .yes 0xF (why56 ((bits 3 (Instr.mods (.icmp h cond u)) 0).toNat > 5) (false)) (.icmp h (bits 3 (Instr.mods (.icmp h cond u)) 0) (bit (Instr.mods (.icmp h cond u)) 3)) rfl rfl rfl rfl (or_full (n := 4) (by have b0 := cond.isLt; have b1 := b2n_lt u; simp only [Instr.mods]; omega)) (by decide) (by rw [e0, e1]) (fun hb => by simp only [e0]; exact why56_none (by simpa [Instr.badFields] using hb))

theorem Fields.plop (h : Hdr) (lut : BitVec 4) : Fields.Statement (.plop h lut) := by
  have e0 := bits_of (n := Instr.mods (.plop h lut)) (lo := 0) (k := 4) (v := lut) (by have b0 := lut.isLt; simp only [Instr.mods]; omega)
  exact Fields.of 0x01D .no 0xF none (.plop h (bits 4 (Instr.mods (.plop h lut)) 0)) rfl rfl rfl rfl (or_full (n := 4) (by have b0 := lut.isLt; simp only [Instr.mods]; omega)) (by decide) (by rw [e0]) (fun _ => rfl)

theorem Fields.lea (h : Hdr) (sc : BitVec 3) (u : Bool) : Fields.Statement (.lea h sc u) := by
  have e0 := bits_of (n := Instr.mods (.lea h sc u)) (lo := 0) (k := 3) (v := sc) (by have b0 := sc.isLt; have b1 := b2n_lt u; simp only [Instr.mods]; omega)
  have e1 := bit_of (n := Instr.mods (.lea h sc u)) (i := 3) (b := u) (by have b0 := sc.isLt; have b1 := b2n_lt u; simp only [Instr.mods]; omega)
  exact Fields.of 0x01E .yes 0xF none (.lea h (bits 3 (Instr.mods (.lea h sc u)) 0) (bit (Instr.mods (.lea h sc u)) 3)) rfl rfl rfl rfl (or_full (n := 4) (by have b0 := sc.isLt; have b1 := b2n_lt u; simp only [Instr.mods]; omega)) (by decide) (by rw [e0, e1]) (fun _ => rfl)

theorem Fields.add64 (h : Hdr) (neg : Bool) : Fields.Statement (.add64 h neg) := by
  have e0 := bit_of (n := Instr.mods (.add64 h neg)) (i := 0) (b := neg) (by have b0 := b2n_lt neg; simp only [Instr.mods]; omega)
  exact Fields.of 0x01F .yes 0x1 none (.add64 h (bit (Instr.mods (.add64 h neg)) 0)) rfl rfl rfl rfl (or_full (n := 1) (by have b0 := b2n_lt neg; simp only [Instr.mods]; omega)) (by decide) (by rw [e0]) (fun _ => rfl)

theorem Fields.cmp64 (h : Hdr) (cond : BitVec 3) (u : Bool) : Fields.Statement (.cmp64 h cond u) := by
  have e0 := bits_of (n := Instr.mods (.cmp64 h cond u)) (lo := 0) (k := 3) (v := cond) (by have b0 := cond.isLt; have b1 := b2n_lt u; simp only [Instr.mods]; omega)
  have e1 := bit_of (n := Instr.mods (.cmp64 h cond u)) (i := 3) (b := u) (by have b0 := cond.isLt; have b1 := b2n_lt u; simp only [Instr.mods]; omega)
  exact Fields.of 0x020 .yes 0xF (why56 ((bits 3 (Instr.mods (.cmp64 h cond u)) 0).toNat > 5) (false)) (.cmp64 h (bits 3 (Instr.mods (.cmp64 h cond u)) 0) (bit (Instr.mods (.cmp64 h cond u)) 3)) rfl rfl rfl rfl (or_full (n := 4) (by have b0 := cond.isLt; have b1 := b2n_lt u; simp only [Instr.mods]; omega)) (by decide) (by rw [e0, e1]) (fun hb => by simp only [e0]; exact why56_none (by simpa [Instr.badFields] using hb))

theorem Fields.cvti (h : Hdr) (sty : BitVec 3) (dty : BitVec 3) (sat : Bool) : Fields.Statement (.cvti h sty dty sat) := by
  have e0 := bits_of (n := Instr.mods (.cvti h sty dty sat)) (lo := 0) (k := 3) (v := sty) (by have b0 := sty.isLt; have b1 := dty.isLt; have b2 := b2n_lt sat; simp only [Instr.mods]; omega)
  have e1 := bits_of (n := Instr.mods (.cvti h sty dty sat)) (lo := 3) (k := 3) (v := dty) (by have b0 := sty.isLt; have b1 := dty.isLt; have b2 := b2n_lt sat; simp only [Instr.mods]; omega)
  have e2 := bit_of (n := Instr.mods (.cvti h sty dty sat)) (i := 6) (b := sat) (by have b0 := sty.isLt; have b1 := dty.isLt; have b2 := b2n_lt sat; simp only [Instr.mods]; omega)
  exact Fields.of 0x021 .no 0x7F (why56 ((bits 3 (Instr.mods (.cvti h sty dty sat)) 0).toNat > 5 || (bits 3 (Instr.mods (.cvti h sty dty sat)) 3).toNat > 5) (false)) (.cvti h (bits 3 (Instr.mods (.cvti h sty dty sat)) 0) (bits 3 (Instr.mods (.cvti h sty dty sat)) 3) (bit (Instr.mods (.cvti h sty dty sat)) 6)) rfl rfl rfl rfl (or_full (n := 7) (by have b0 := sty.isLt; have b1 := dty.isLt; have b2 := b2n_lt sat; simp only [Instr.mods]; omega)) (by decide) (by rw [e0, e1, e2]) (fun hb => by simp only [e0, e1]; exact why56_none (by simpa [Instr.badFields] using hb))

theorem Fields.bsel (h : Hdr) : Fields.Statement (.bsel h) := by
  exact Fields.of 0x022 .yes 0x0 none (.bsel h ) rfl rfl rfl rfl (or_full (n := 0) (by simp only [Instr.mods]; omega)) (by decide) (rfl) (fun _ => rfl)

theorem Fields.fadd (h : Hdr) (rnd : BitVec 3) : Fields.Statement (.fadd h rnd) := by
  have e0 := bits_of (n := Instr.mods (.fadd h rnd)) (lo := 0) (k := 3) (v := rnd) (by have b0 := rnd.isLt; simp only [Instr.mods]; omega)
  exact Fields.of 0x080 .yes 0x7 (why56 ((bits 3 (Instr.mods (.fadd h rnd)) 0).toNat > 5) (false)) (.fadd h (bits 3 (Instr.mods (.fadd h rnd)) 0)) rfl rfl rfl rfl (or_full (n := 3) (by have b0 := rnd.isLt; simp only [Instr.mods]; omega)) (by decide) (by rw [e0]) (fun hb => by simp only [e0]; exact why56_none (by simpa [Instr.badFields] using hb))

theorem Fields.fsub (h : Hdr) (rnd : BitVec 3) : Fields.Statement (.fsub h rnd) := by
  have e0 := bits_of (n := Instr.mods (.fsub h rnd)) (lo := 0) (k := 3) (v := rnd) (by have b0 := rnd.isLt; simp only [Instr.mods]; omega)
  exact Fields.of 0x081 .yes 0x7 (why56 ((bits 3 (Instr.mods (.fsub h rnd)) 0).toNat > 5) (false)) (.fsub h (bits 3 (Instr.mods (.fsub h rnd)) 0)) rfl rfl rfl rfl (or_full (n := 3) (by have b0 := rnd.isLt; simp only [Instr.mods]; omega)) (by decide) (by rw [e0]) (fun hb => by simp only [e0]; exact why56_none (by simpa [Instr.badFields] using hb))

theorem Fields.fmul (h : Hdr) (rnd : BitVec 3) : Fields.Statement (.fmul h rnd) := by
  have e0 := bits_of (n := Instr.mods (.fmul h rnd)) (lo := 0) (k := 3) (v := rnd) (by have b0 := rnd.isLt; simp only [Instr.mods]; omega)
  exact Fields.of 0x082 .yes 0x7 (why56 ((bits 3 (Instr.mods (.fmul h rnd)) 0).toNat > 5) (false)) (.fmul h (bits 3 (Instr.mods (.fmul h rnd)) 0)) rfl rfl rfl rfl (or_full (n := 3) (by have b0 := rnd.isLt; simp only [Instr.mods]; omega)) (by decide) (by rw [e0]) (fun hb => by simp only [e0]; exact why56_none (by simpa [Instr.badFields] using hb))

theorem Fields.ffma (h : Hdr) (rnd : BitVec 3) : Fields.Statement (.ffma h rnd) := by
  have e0 := bits_of (n := Instr.mods (.ffma h rnd)) (lo := 0) (k := 3) (v := rnd) (by have b0 := rnd.isLt; simp only [Instr.mods]; omega)
  exact Fields.of 0x083 .yes 0x7 (why56 ((bits 3 (Instr.mods (.ffma h rnd)) 0).toNat > 5) (false)) (.ffma h (bits 3 (Instr.mods (.ffma h rnd)) 0)) rfl rfl rfl rfl (or_full (n := 3) (by have b0 := rnd.isLt; simp only [Instr.mods]; omega)) (by decide) (by rw [e0]) (fun hb => by simp only [e0]; exact why56_none (by simpa [Instr.badFields] using hb))

theorem Fields.fmin (h : Hdr) : Fields.Statement (.fmin h) := by
  exact Fields.of 0x084 .yes 0x0 none (.fmin h ) rfl rfl rfl rfl (or_full (n := 0) (by simp only [Instr.mods]; omega)) (by decide) (rfl) (fun _ => rfl)

theorem Fields.fmax (h : Hdr) : Fields.Statement (.fmax h) := by
  exact Fields.of 0x085 .yes 0x0 none (.fmax h ) rfl rfl rfl rfl (or_full (n := 0) (by simp only [Instr.mods]; omega)) (by decide) (rfl) (fun _ => rfl)

theorem Fields.fcmp (h : Hdr) (cond : BitVec 3) : Fields.Statement (.fcmp h cond) := by
  have e0 := bits_of (n := Instr.mods (.fcmp h cond)) (lo := 0) (k := 3) (v := cond) (by have b0 := cond.isLt; simp only [Instr.mods]; omega)
  exact Fields.of 0x086 .yes 0x7 none (.fcmp h (bits 3 (Instr.mods (.fcmp h cond)) 0)) rfl rfl rfl rfl (or_full (n := 3) (by have b0 := cond.isLt; simp only [Instr.mods]; omega)) (by decide) (by rw [e0]) (fun _ => rfl)

theorem Fields.fclass (h : Hdr) (fmt : BitVec 3) : Fields.Statement (.fclass h fmt) := by
  have e0 := bits_of (n := Instr.mods (.fclass h fmt)) (lo := 0) (k := 3) (v := fmt) (by have b0 := fmt.isLt; simp only [Instr.mods]; omega)
  exact Fields.of 0x087 .no 0x7 (why56 ((bits 3 (Instr.mods (.fclass h fmt)) 0).toNat > 5) (false)) (.fclass h (bits 3 (Instr.mods (.fclass h fmt)) 0)) rfl rfl rfl rfl (or_full (n := 3) (by have b0 := fmt.isLt; simp only [Instr.mods]; omega)) (by decide) (by rw [e0]) (fun hb => by simp only [e0]; exact why56_none (by simpa [Instr.badFields] using hb))

theorem Fields.frnd (h : Hdr) (rnd : BitVec 3) : Fields.Statement (.frnd h rnd) := by
  have e0 := bits_of (n := Instr.mods (.frnd h rnd)) (lo := 0) (k := 3) (v := rnd) (by have b0 := rnd.isLt; simp only [Instr.mods]; omega)
  exact Fields.of 0x088 .no 0x7 (why56 ((bits 3 (Instr.mods (.frnd h rnd)) 0).toNat > 5) (false)) (.frnd h (bits 3 (Instr.mods (.frnd h rnd)) 0)) rfl rfl rfl rfl (or_full (n := 3) (by have b0 := rnd.isLt; simp only [Instr.mods]; omega)) (by decide) (by rw [e0]) (fun hb => by simp only [e0]; exact why56_none (by simpa [Instr.badFields] using hb))

theorem Fields.frcp (h : Hdr) (rnd : BitVec 3) : Fields.Statement (.frcp h rnd) := by
  have e0 := bits_of (n := Instr.mods (.frcp h rnd)) (lo := 0) (k := 3) (v := rnd) (by have b0 := rnd.isLt; simp only [Instr.mods]; omega)
  exact Fields.of 0x089 .no 0x7 (why56 ((bits 3 (Instr.mods (.frcp h rnd)) 0).toNat > 5) (false)) (.frcp h (bits 3 (Instr.mods (.frcp h rnd)) 0)) rfl rfl rfl rfl (or_full (n := 3) (by have b0 := rnd.isLt; simp only [Instr.mods]; omega)) (by decide) (by rw [e0]) (fun hb => by simp only [e0]; exact why56_none (by simpa [Instr.badFields] using hb))

theorem Fields.frsq (h : Hdr) (rnd : BitVec 3) : Fields.Statement (.frsq h rnd) := by
  have e0 := bits_of (n := Instr.mods (.frsq h rnd)) (lo := 0) (k := 3) (v := rnd) (by have b0 := rnd.isLt; simp only [Instr.mods]; omega)
  exact Fields.of 0x08A .no 0x7 (why56 ((bits 3 (Instr.mods (.frsq h rnd)) 0).toNat > 5) (false)) (.frsq h (bits 3 (Instr.mods (.frsq h rnd)) 0)) rfl rfl rfl rfl (or_full (n := 3) (by have b0 := rnd.isLt; simp only [Instr.mods]; omega)) (by decide) (by rw [e0]) (fun hb => by simp only [e0]; exact why56_none (by simpa [Instr.badFields] using hb))

theorem Fields.fsqrt (h : Hdr) (rnd : BitVec 3) : Fields.Statement (.fsqrt h rnd) := by
  have e0 := bits_of (n := Instr.mods (.fsqrt h rnd)) (lo := 0) (k := 3) (v := rnd) (by have b0 := rnd.isLt; simp only [Instr.mods]; omega)
  exact Fields.of 0x08B .no 0x7 (why56 ((bits 3 (Instr.mods (.fsqrt h rnd)) 0).toNat > 5) (false)) (.fsqrt h (bits 3 (Instr.mods (.fsqrt h rnd)) 0)) rfl rfl rfl rfl (or_full (n := 3) (by have b0 := rnd.isLt; simp only [Instr.mods]; omega)) (by decide) (by rw [e0]) (fun hb => by simp only [e0]; exact why56_none (by simpa [Instr.badFields] using hb))

theorem Fields.fex2 (h : Hdr) (rnd : BitVec 3) : Fields.Statement (.fex2 h rnd) := by
  have e0 := bits_of (n := Instr.mods (.fex2 h rnd)) (lo := 0) (k := 3) (v := rnd) (by have b0 := rnd.isLt; simp only [Instr.mods]; omega)
  exact Fields.of 0x08C .no 0x7 (why56 ((bits 3 (Instr.mods (.fex2 h rnd)) 0).toNat > 5) (false)) (.fex2 h (bits 3 (Instr.mods (.fex2 h rnd)) 0)) rfl rfl rfl rfl (or_full (n := 3) (by have b0 := rnd.isLt; simp only [Instr.mods]; omega)) (by decide) (by rw [e0]) (fun hb => by simp only [e0]; exact why56_none (by simpa [Instr.badFields] using hb))

theorem Fields.flg2 (h : Hdr) (rnd : BitVec 3) : Fields.Statement (.flg2 h rnd) := by
  have e0 := bits_of (n := Instr.mods (.flg2 h rnd)) (lo := 0) (k := 3) (v := rnd) (by have b0 := rnd.isLt; simp only [Instr.mods]; omega)
  exact Fields.of 0x08D .no 0x7 (why56 ((bits 3 (Instr.mods (.flg2 h rnd)) 0).toNat > 5) (false)) (.flg2 h (bits 3 (Instr.mods (.flg2 h rnd)) 0)) rfl rfl rfl rfl (or_full (n := 3) (by have b0 := rnd.isLt; simp only [Instr.mods]; omega)) (by decide) (by rw [e0]) (fun hb => by simp only [e0]; exact why56_none (by simpa [Instr.badFields] using hb))

theorem Fields.fsin (h : Hdr) (rnd : BitVec 3) : Fields.Statement (.fsin h rnd) := by
  have e0 := bits_of (n := Instr.mods (.fsin h rnd)) (lo := 0) (k := 3) (v := rnd) (by have b0 := rnd.isLt; simp only [Instr.mods]; omega)
  exact Fields.of 0x08E .no 0x7 (why56 ((bits 3 (Instr.mods (.fsin h rnd)) 0).toNat > 5) (false)) (.fsin h (bits 3 (Instr.mods (.fsin h rnd)) 0)) rfl rfl rfl rfl (or_full (n := 3) (by have b0 := rnd.isLt; simp only [Instr.mods]; omega)) (by decide) (by rw [e0]) (fun hb => by simp only [e0]; exact why56_none (by simpa [Instr.badFields] using hb))

theorem Fields.fcos (h : Hdr) (rnd : BitVec 3) : Fields.Statement (.fcos h rnd) := by
  have e0 := bits_of (n := Instr.mods (.fcos h rnd)) (lo := 0) (k := 3) (v := rnd) (by have b0 := rnd.isLt; simp only [Instr.mods]; omega)
  exact Fields.of 0x08F .no 0x7 (why56 ((bits 3 (Instr.mods (.fcos h rnd)) 0).toNat > 5) (false)) (.fcos h (bits 3 (Instr.mods (.fcos h rnd)) 0)) rfl rfl rfl rfl (or_full (n := 3) (by have b0 := rnd.isLt; simp only [Instr.mods]; omega)) (by decide) (by rw [e0]) (fun hb => by simp only [e0]; exact why56_none (by simpa [Instr.badFields] using hb))

theorem Fields.ftanh (h : Hdr) (rnd : BitVec 3) : Fields.Statement (.ftanh h rnd) := by
  have e0 := bits_of (n := Instr.mods (.ftanh h rnd)) (lo := 0) (k := 3) (v := rnd) (by have b0 := rnd.isLt; simp only [Instr.mods]; omega)
  exact Fields.of 0x090 .no 0x7 (why56 ((bits 3 (Instr.mods (.ftanh h rnd)) 0).toNat > 5) (false)) (.ftanh h (bits 3 (Instr.mods (.ftanh h rnd)) 0)) rfl rfl rfl rfl (or_full (n := 3) (by have b0 := rnd.isLt; simp only [Instr.mods]; omega)) (by decide) (by rw [e0]) (fun hb => by simp only [e0]; exact why56_none (by simpa [Instr.badFields] using hb))

theorem Fields.f2f (h : Hdr) (rnd : BitVec 3) (dty : BitVec 3) (sty : BitVec 3) : Fields.Statement (.f2f h rnd dty sty) := by
  have e0 := bits_of (n := Instr.mods (.f2f h rnd dty sty)) (lo := 0) (k := 3) (v := rnd) (by have b0 := rnd.isLt; have b1 := dty.isLt; have b2 := sty.isLt; simp only [Instr.mods]; omega)
  have e1 := bits_of (n := Instr.mods (.f2f h rnd dty sty)) (lo := 3) (k := 3) (v := dty) (by have b0 := rnd.isLt; have b1 := dty.isLt; have b2 := sty.isLt; simp only [Instr.mods]; omega)
  have e2 := bits_of (n := Instr.mods (.f2f h rnd dty sty)) (lo := 6) (k := 3) (v := sty) (by have b0 := rnd.isLt; have b1 := dty.isLt; have b2 := sty.isLt; simp only [Instr.mods]; omega)
  exact Fields.of 0x091 .no 0x1FF (why56 ((bits 3 (Instr.mods (.f2f h rnd dty sty)) 0).toNat > 5 || (bits 3 (Instr.mods (.f2f h rnd dty sty)) 3).toNat > 5 || (bits 3 (Instr.mods (.f2f h rnd dty sty)) 6).toNat > 5) (false)) (.f2f h (bits 3 (Instr.mods (.f2f h rnd dty sty)) 0) (bits 3 (Instr.mods (.f2f h rnd dty sty)) 3) (bits 3 (Instr.mods (.f2f h rnd dty sty)) 6)) rfl rfl rfl rfl (or_full (n := 9) (by have b0 := rnd.isLt; have b1 := dty.isLt; have b2 := sty.isLt; simp only [Instr.mods]; omega)) (by decide) (by rw [e0, e1, e2]) (fun hb => by simp only [e0, e1, e2]; exact why56_none (by simpa [Instr.badFields] using hb))

theorem Fields.i2f (h : Hdr) (rnd : BitVec 3) (sty : BitVec 3) (dty : BitVec 2) : Fields.Statement (.i2f h rnd sty dty) := by
  have e0 := bits_of (n := Instr.mods (.i2f h rnd sty dty)) (lo := 0) (k := 3) (v := rnd) (by have b0 := rnd.isLt; have b1 := sty.isLt; have b2 := dty.isLt; simp only [Instr.mods]; omega)
  have e1 := bits_of (n := Instr.mods (.i2f h rnd sty dty)) (lo := 3) (k := 3) (v := sty) (by have b0 := rnd.isLt; have b1 := sty.isLt; have b2 := dty.isLt; simp only [Instr.mods]; omega)
  have e2 := bits_of (n := Instr.mods (.i2f h rnd sty dty)) (lo := 6) (k := 2) (v := dty) (by have b0 := rnd.isLt; have b1 := sty.isLt; have b2 := dty.isLt; simp only [Instr.mods]; omega)
  exact Fields.of 0x092 .no 0xFF (why56 ((bits 3 (Instr.mods (.i2f h rnd sty dty)) 0).toNat > 5 || (bits 3 (Instr.mods (.i2f h rnd sty dty)) 3).toNat > 5 || (bits 2 (Instr.mods (.i2f h rnd sty dty)) 6).toNat > 2) (false)) (.i2f h (bits 3 (Instr.mods (.i2f h rnd sty dty)) 0) (bits 3 (Instr.mods (.i2f h rnd sty dty)) 3) (bits 2 (Instr.mods (.i2f h rnd sty dty)) 6)) rfl rfl rfl rfl (or_full (n := 8) (by have b0 := rnd.isLt; have b1 := sty.isLt; have b2 := dty.isLt; simp only [Instr.mods]; omega)) (by decide) (by rw [e0, e1, e2]) (fun hb => by simp only [e0, e1, e2]; exact why56_none (by simpa [Instr.badFields] using hb))

theorem Fields.f2i (h : Hdr) (rnd : BitVec 3) (dty : BitVec 3) (sty : BitVec 2) : Fields.Statement (.f2i h rnd dty sty) := by
  have e0 := bits_of (n := Instr.mods (.f2i h rnd dty sty)) (lo := 0) (k := 3) (v := rnd) (by have b0 := rnd.isLt; have b1 := dty.isLt; have b2 := sty.isLt; simp only [Instr.mods]; omega)
  have e1 := bits_of (n := Instr.mods (.f2i h rnd dty sty)) (lo := 3) (k := 3) (v := dty) (by have b0 := rnd.isLt; have b1 := dty.isLt; have b2 := sty.isLt; simp only [Instr.mods]; omega)
  have e2 := bits_of (n := Instr.mods (.f2i h rnd dty sty)) (lo := 6) (k := 2) (v := sty) (by have b0 := rnd.isLt; have b1 := dty.isLt; have b2 := sty.isLt; simp only [Instr.mods]; omega)
  exact Fields.of 0x093 .no 0xFF (why56 ((bits 3 (Instr.mods (.f2i h rnd dty sty)) 0).toNat > 5 || (bits 3 (Instr.mods (.f2i h rnd dty sty)) 3).toNat > 5 || (bits 2 (Instr.mods (.f2i h rnd dty sty)) 6).toNat > 2) (false)) (.f2i h (bits 3 (Instr.mods (.f2i h rnd dty sty)) 0) (bits 3 (Instr.mods (.f2i h rnd dty sty)) 3) (bits 2 (Instr.mods (.f2i h rnd dty sty)) 6)) rfl rfl rfl rfl (or_full (n := 8) (by have b0 := rnd.isLt; have b1 := dty.isLt; have b2 := sty.isLt; simp only [Instr.mods]; omega)) (by decide) (by rw [e0, e1, e2]) (fun hb => by simp only [e0, e1, e2]; exact why56_none (by simpa [Instr.badFields] using hb))

theorem Fields.hadd2 (h : Hdr) (rnd : BitVec 3) (bf : Bool) : Fields.Statement (.hadd2 h rnd bf) := by
  have e0 := bits_of (n := Instr.mods (.hadd2 h rnd bf)) (lo := 0) (k := 3) (v := rnd) (by have b0 := rnd.isLt; have b1 := b2n_lt bf; simp only [Instr.mods]; omega)
  have e1 := bit_of (n := Instr.mods (.hadd2 h rnd bf)) (i := 3) (b := bf) (by have b0 := rnd.isLt; have b1 := b2n_lt bf; simp only [Instr.mods]; omega)
  exact Fields.of 0x094 .yes 0xF (why56 ((bits 3 (Instr.mods (.hadd2 h rnd bf)) 0).toNat > 5) (false)) (.hadd2 h (bits 3 (Instr.mods (.hadd2 h rnd bf)) 0) (bit (Instr.mods (.hadd2 h rnd bf)) 3)) rfl rfl rfl rfl (or_full (n := 4) (by have b0 := rnd.isLt; have b1 := b2n_lt bf; simp only [Instr.mods]; omega)) (by decide) (by rw [e0, e1]) (fun hb => by simp only [e0]; exact why56_none (by simpa [Instr.badFields] using hb))

theorem Fields.hmul2 (h : Hdr) (rnd : BitVec 3) (bf : Bool) : Fields.Statement (.hmul2 h rnd bf) := by
  have e0 := bits_of (n := Instr.mods (.hmul2 h rnd bf)) (lo := 0) (k := 3) (v := rnd) (by have b0 := rnd.isLt; have b1 := b2n_lt bf; simp only [Instr.mods]; omega)
  have e1 := bit_of (n := Instr.mods (.hmul2 h rnd bf)) (i := 3) (b := bf) (by have b0 := rnd.isLt; have b1 := b2n_lt bf; simp only [Instr.mods]; omega)
  exact Fields.of 0x095 .yes 0xF (why56 ((bits 3 (Instr.mods (.hmul2 h rnd bf)) 0).toNat > 5) (false)) (.hmul2 h (bits 3 (Instr.mods (.hmul2 h rnd bf)) 0) (bit (Instr.mods (.hmul2 h rnd bf)) 3)) rfl rfl rfl rfl (or_full (n := 4) (by have b0 := rnd.isLt; have b1 := b2n_lt bf; simp only [Instr.mods]; omega)) (by decide) (by rw [e0, e1]) (fun hb => by simp only [e0]; exact why56_none (by simpa [Instr.badFields] using hb))

theorem Fields.hfma2 (h : Hdr) (rnd : BitVec 3) (bf : Bool) : Fields.Statement (.hfma2 h rnd bf) := by
  have e0 := bits_of (n := Instr.mods (.hfma2 h rnd bf)) (lo := 0) (k := 3) (v := rnd) (by have b0 := rnd.isLt; have b1 := b2n_lt bf; simp only [Instr.mods]; omega)
  have e1 := bit_of (n := Instr.mods (.hfma2 h rnd bf)) (i := 3) (b := bf) (by have b0 := rnd.isLt; have b1 := b2n_lt bf; simp only [Instr.mods]; omega)
  exact Fields.of 0x096 .yes 0xF (why56 ((bits 3 (Instr.mods (.hfma2 h rnd bf)) 0).toNat > 5) (false)) (.hfma2 h (bits 3 (Instr.mods (.hfma2 h rnd bf)) 0) (bit (Instr.mods (.hfma2 h rnd bf)) 3)) rfl rfl rfl rfl (or_full (n := 4) (by have b0 := rnd.isLt; have b1 := b2n_lt bf; simp only [Instr.mods]; omega)) (by decide) (by rw [e0, e1]) (fun hb => by simp only [e0]; exact why56_none (by simpa [Instr.badFields] using hb))

theorem Fields.dp2 (h : Hdr) (rnd : BitVec 3) (hf : Bool) : Fields.Statement (.dp2 h rnd hf) := by
  have e0 := bits_of (n := Instr.mods (.dp2 h rnd hf)) (lo := 0) (k := 3) (v := rnd) (by have b0 := rnd.isLt; have b1 := b2n_lt hf; simp only [Instr.mods]; omega)
  have e1 := bit_of (n := Instr.mods (.dp2 h rnd hf)) (i := 3) (b := hf) (by have b0 := rnd.isLt; have b1 := b2n_lt hf; simp only [Instr.mods]; omega)
  exact Fields.of 0x097 .yes 0xF (why56 ((bits 3 (Instr.mods (.dp2 h rnd hf)) 0).toNat > 5) (false)) (.dp2 h (bits 3 (Instr.mods (.dp2 h rnd hf)) 0) (bit (Instr.mods (.dp2 h rnd hf)) 3)) rfl rfl rfl rfl (or_full (n := 4) (by have b0 := rnd.isLt; have b1 := b2n_lt hf; simp only [Instr.mods]; omega)) (by decide) (by rw [e0, e1]) (fun hb => by simp only [e0]; exact why56_none (by simpa [Instr.badFields] using hb))

theorem Fields.dp4 (h : Hdr) (ty : BitVec 3) (sat : Bool) (rnd : BitVec 3) : Fields.Statement (.dp4 h ty sat rnd) := by
  have e0 := bits_of (n := Instr.mods (.dp4 h ty sat rnd)) (lo := 0) (k := 3) (v := ty) (by have b0 := ty.isLt; have b1 := b2n_lt sat; have b2 := rnd.isLt; simp only [Instr.mods]; omega)
  have e1 := bit_of (n := Instr.mods (.dp4 h ty sat rnd)) (i := 3) (b := sat) (by have b0 := ty.isLt; have b1 := b2n_lt sat; have b2 := rnd.isLt; simp only [Instr.mods]; omega)
  have e2 := bits_of (n := Instr.mods (.dp4 h ty sat rnd)) (lo := 4) (k := 3) (v := rnd) (by have b0 := ty.isLt; have b1 := b2n_lt sat; have b2 := rnd.isLt; simp only [Instr.mods]; omega)
  exact Fields.of 0x098 .yes 0x7F (why56 ((bits 3 (Instr.mods (.dp4 h ty sat rnd)) 0).toNat > 3 || (bits 3 (Instr.mods (.dp4 h ty sat rnd)) 4).toNat > 5) (((bits 3 (Instr.mods (.dp4 h ty sat rnd)) 0).toNat ≥ 2 && bit (Instr.mods (.dp4 h ty sat rnd)) 3) || ((bits 3 (Instr.mods (.dp4 h ty sat rnd)) 0).toNat < 2 && (bits 3 (Instr.mods (.dp4 h ty sat rnd)) 4) ≠ 0))) (.dp4 h (bits 3 (Instr.mods (.dp4 h ty sat rnd)) 0) (bit (Instr.mods (.dp4 h ty sat rnd)) 3) (bits 3 (Instr.mods (.dp4 h ty sat rnd)) 4)) rfl rfl rfl rfl (or_full (n := 7) (by have b0 := ty.isLt; have b1 := b2n_lt sat; have b2 := rnd.isLt; simp only [Instr.mods]; omega)) (by decide) (by rw [e0, e1, e2]) (fun hb => by simp only [e0, e1, e2]; exact why56_none (by simpa [Instr.badFields] using hb))

theorem Fields.dp8 (h : Hdr) (ty : BitVec 3) (sat : Bool) (rnd : BitVec 3) : Fields.Statement (.dp8 h ty sat rnd) := by
  have e0 := bits_of (n := Instr.mods (.dp8 h ty sat rnd)) (lo := 0) (k := 3) (v := ty) (by have b0 := ty.isLt; have b1 := b2n_lt sat; have b2 := rnd.isLt; simp only [Instr.mods]; omega)
  have e1 := bit_of (n := Instr.mods (.dp8 h ty sat rnd)) (i := 3) (b := sat) (by have b0 := ty.isLt; have b1 := b2n_lt sat; have b2 := rnd.isLt; simp only [Instr.mods]; omega)
  have e2 := bits_of (n := Instr.mods (.dp8 h ty sat rnd)) (lo := 4) (k := 3) (v := rnd) (by have b0 := ty.isLt; have b1 := b2n_lt sat; have b2 := rnd.isLt; simp only [Instr.mods]; omega)
  exact Fields.of 0x099 .yes 0x7F (why56 ((bits 3 (Instr.mods (.dp8 h ty sat rnd)) 0).toNat > 2 || (bits 3 (Instr.mods (.dp8 h ty sat rnd)) 4).toNat > 5) (((bits 3 (Instr.mods (.dp8 h ty sat rnd)) 0).toNat = 2 && bit (Instr.mods (.dp8 h ty sat rnd)) 3) || ((bits 3 (Instr.mods (.dp8 h ty sat rnd)) 0).toNat < 2 && (bits 3 (Instr.mods (.dp8 h ty sat rnd)) 4) ≠ 0))) (.dp8 h (bits 3 (Instr.mods (.dp8 h ty sat rnd)) 0) (bit (Instr.mods (.dp8 h ty sat rnd)) 3) (bits 3 (Instr.mods (.dp8 h ty sat rnd)) 4)) rfl rfl rfl rfl (or_full (n := 7) (by have b0 := ty.isLt; have b1 := b2n_lt sat; have b2 := rnd.isLt; simp only [Instr.mods]; omega)) (by decide) (by rw [e0, e1, e2]) (fun hb => by simp only [e0, e1, e2]; exact why56_none (by simpa [Instr.badFields] using hb))

theorem Fields.sclf (h : Hdr) (rnd : BitVec 3) (one : Bool) : Fields.Statement (.sclf h rnd one) := by
  have e0 := bits_of (n := Instr.mods (.sclf h rnd one)) (lo := 0) (k := 3) (v := rnd) (by have b0 := rnd.isLt; have b1 := b2n_lt one; simp only [Instr.mods]; omega)
  have e1 := bit_of (n := Instr.mods (.sclf h rnd one)) (i := 3) (b := one) (by have b0 := rnd.isLt; have b1 := b2n_lt one; simp only [Instr.mods]; omega)
  exact Fields.of 0x09A .yes 0xF (why56 ((bits 3 (Instr.mods (.sclf h rnd one)) 0).toNat > 5) (false)) (.sclf h (bits 3 (Instr.mods (.sclf h rnd one)) 0) (bit (Instr.mods (.sclf h rnd one)) 3)) rfl rfl rfl rfl (or_full (n := 4) (by have b0 := rnd.isLt; have b1 := b2n_lt one; simp only [Instr.mods]; omega)) (by decide) (by rw [e0, e1]) (fun hb => by simp only [e0]; exact why56_none (by simpa [Instr.badFields] using hb))

theorem Fields.pack (h : Hdr) (fmt : BitVec 3) (pos : BitVec 2) (rnd : BitVec 3) : Fields.Statement (.pack h fmt pos rnd) := by
  have e0 := bits_of (n := Instr.mods (.pack h fmt pos rnd)) (lo := 0) (k := 3) (v := fmt) (by have b0 := fmt.isLt; have b1 := pos.isLt; have b2 := rnd.isLt; simp only [Instr.mods]; omega)
  have e1 := bits_of (n := Instr.mods (.pack h fmt pos rnd)) (lo := 3) (k := 2) (v := pos) (by have b0 := fmt.isLt; have b1 := pos.isLt; have b2 := rnd.isLt; simp only [Instr.mods]; omega)
  have e2 := bits_of (n := Instr.mods (.pack h fmt pos rnd)) (lo := 5) (k := 3) (v := rnd) (by have b0 := fmt.isLt; have b1 := pos.isLt; have b2 := rnd.isLt; simp only [Instr.mods]; omega)
  exact Fields.of 0x09B .no 0xFF (why56 ((bits 3 (Instr.mods (.pack h fmt pos rnd)) 0) = 0 || (bits 3 (Instr.mods (.pack h fmt pos rnd)) 5).toNat > 5) (((bits 3 (Instr.mods (.pack h fmt pos rnd)) 0).toNat ≥ 6 && (bits 3 (Instr.mods (.pack h fmt pos rnd)) 5) ≠ 0) || (bits 2 (Instr.mods (.pack h fmt pos rnd)) 3).toNat > packLast (bits 3 (Instr.mods (.pack h fmt pos rnd)) 0))) (.pack h (bits 3 (Instr.mods (.pack h fmt pos rnd)) 0) (bits 2 (Instr.mods (.pack h fmt pos rnd)) 3) (bits 3 (Instr.mods (.pack h fmt pos rnd)) 5)) rfl rfl rfl rfl (or_full (n := 8) (by have b0 := fmt.isLt; have b1 := pos.isLt; have b2 := rnd.isLt; simp only [Instr.mods]; omega)) (by decide) (by rw [e0, e1, e2]) (fun hb => by simp only [e0, e1, e2]; exact why56_none (by simpa [Instr.badFields] using hb))

theorem Fields.unpk (h : Hdr) (fmt : BitVec 3) : Fields.Statement (.unpk h fmt) := by
  have e0 := bits_of (n := Instr.mods (.unpk h fmt)) (lo := 0) (k := 3) (v := fmt) (by have b0 := fmt.isLt; simp only [Instr.mods]; omega)
  exact Fields.of 0x09C .yes 0x7 (why56 ((bits 3 (Instr.mods (.unpk h fmt)) 0) = 0) (false)) (.unpk h (bits 3 (Instr.mods (.unpk h fmt)) 0)) rfl rfl rfl rfl (or_full (n := 3) (by have b0 := fmt.isLt; simp only [Instr.mods]; omega)) (by decide) (by rw [e0]) (fun hb => by simp only [e0]; exact why56_none (by simpa [Instr.badFields] using hb))

theorem Fields.rsadd (h : Hdr) (rs : BitVec 2) : Fields.Statement (.rsadd h rs) := by
  have e0 := bits_of (n := Instr.mods (.rsadd h rs)) (lo := 0) (k := 2) (v := rs) (by have b0 := rs.isLt; simp only [Instr.mods]; omega)
  exact Fields.of 0x100 .yes 0x3 none (.rsadd h (bits 2 (Instr.mods (.rsadd h rs)) 0)) rfl rfl rfl rfl (or_full (n := 2) (by have b0 := rs.isLt; simp only [Instr.mods]; omega)) (by decide) (by rw [e0]) (fun _ => rfl)

theorem Fields.rssub (h : Hdr) (rs : BitVec 2) : Fields.Statement (.rssub h rs) := by
  have e0 := bits_of (n := Instr.mods (.rssub h rs)) (lo := 0) (k := 2) (v := rs) (by have b0 := rs.isLt; simp only [Instr.mods]; omega)
  exact Fields.of 0x101 .yes 0x3 none (.rssub h (bits 2 (Instr.mods (.rssub h rs)) 0)) rfl rfl rfl rfl (or_full (n := 2) (by have b0 := rs.isLt; simp only [Instr.mods]; omega)) (by decide) (by rw [e0]) (fun _ => rfl)

theorem Fields.rsmul (h : Hdr) (rs : BitVec 2) : Fields.Statement (.rsmul h rs) := by
  have e0 := bits_of (n := Instr.mods (.rsmul h rs)) (lo := 0) (k := 2) (v := rs) (by have b0 := rs.isLt; simp only [Instr.mods]; omega)
  exact Fields.of 0x102 .yes 0x3 none (.rsmul h (bits 2 (Instr.mods (.rsmul h rs)) 0)) rfl rfl rfl rfl (or_full (n := 2) (by have b0 := rs.isLt; simp only [Instr.mods]; omega)) (by decide) (by rw [e0]) (fun _ => rfl)

theorem Fields.rsdiv (h : Hdr) (rs : BitVec 2) : Fields.Statement (.rsdiv h rs) := by
  have e0 := bits_of (n := Instr.mods (.rsdiv h rs)) (lo := 0) (k := 2) (v := rs) (by have b0 := rs.isLt; simp only [Instr.mods]; omega)
  exact Fields.of 0x103 .yes 0x3 none (.rsdiv h (bits 2 (Instr.mods (.rsdiv h rs)) 0)) rfl rfl rfl rfl (or_full (n := 2) (by have b0 := rs.isLt; simp only [Instr.mods]; omega)) (by decide) (by rw [e0]) (fun _ => rfl)

theorem Fields.rsneg (h : Hdr) : Fields.Statement (.rsneg h) := by
  exact Fields.of 0x104 .no 0x0 none (.rsneg h ) rfl rfl rfl rfl (or_full (n := 0) (by simp only [Instr.mods]; omega)) (by decide) (rfl) (fun _ => rfl)

theorem Fields.rsrcp (h : Hdr) (rs : BitVec 2) : Fields.Statement (.rsrcp h rs) := by
  have e0 := bits_of (n := Instr.mods (.rsrcp h rs)) (lo := 0) (k := 2) (v := rs) (by have b0 := rs.isLt; simp only [Instr.mods]; omega)
  exact Fields.of 0x105 .no 0x3 none (.rsrcp h (bits 2 (Instr.mods (.rsrcp h rs)) 0)) rfl rfl rfl rfl (or_full (n := 2) (by have b0 := rs.isLt; simp only [Instr.mods]; omega)) (by decide) (by rw [e0]) (fun _ => rfl)

theorem Fields.rssqr (h : Hdr) (rs : BitVec 2) : Fields.Statement (.rssqr h rs) := by
  have e0 := bits_of (n := Instr.mods (.rssqr h rs)) (lo := 0) (k := 2) (v := rs) (by have b0 := rs.isLt; simp only [Instr.mods]; omega)
  exact Fields.of 0x106 .no 0x3 none (.rssqr h (bits 2 (Instr.mods (.rssqr h rs)) 0)) rfl rfl rfl rfl (or_full (n := 2) (by have b0 := rs.isLt; simp only [Instr.mods]; omega)) (by decide) (by rw [e0]) (fun _ => rfl)

theorem Fields.rsfrom (h : Hdr) (rs : BitVec 2) (iv : Bool) : Fields.Statement (.rsfrom h rs iv) := by
  have e0 := bits_of (n := Instr.mods (.rsfrom h rs iv)) (lo := 0) (k := 2) (v := rs) (by have b0 := rs.isLt; have b1 := b2n_lt iv; simp only [Instr.mods]; omega)
  have e1 := bit_of (n := Instr.mods (.rsfrom h rs iv)) (i := 2) (b := iv) (by have b0 := rs.isLt; have b1 := b2n_lt iv; simp only [Instr.mods]; omega)
  exact Fields.of 0x107 (if bit (Instr.mods (.rsfrom h rs iv)) 2 then .yes else .no) 0x7 none (.rsfrom h (bits 2 (Instr.mods (.rsfrom h rs iv)) 0) (bit (Instr.mods (.rsfrom h rs iv)) 2)) rfl rfl rfl (by rw [e1]; rfl) (or_full (n := 3) (by have b0 := rs.isLt; have b1 := b2n_lt iv; simp only [Instr.mods]; omega)) (by decide) (by rw [e0, e1]) (fun _ => rfl)

theorem Fields.rslo (h : Hdr) (rs : BitVec 2) : Fields.Statement (.rslo h rs) := by
  have e0 := bits_of (n := Instr.mods (.rslo h rs)) (lo := 0) (k := 2) (v := rs) (by have b0 := rs.isLt; simp only [Instr.mods]; omega)
  exact Fields.of 0x108 .no 0x3 none (.rslo h (bits 2 (Instr.mods (.rslo h rs)) 0)) rfl rfl rfl rfl (or_full (n := 2) (by have b0 := rs.isLt; simp only [Instr.mods]; omega)) (by decide) (by rw [e0]) (fun _ => rfl)

theorem Fields.rshi (h : Hdr) (rs : BitVec 2) : Fields.Statement (.rshi h rs) := by
  have e0 := bits_of (n := Instr.mods (.rshi h rs)) (lo := 0) (k := 2) (v := rs) (by have b0 := rs.isLt; simp only [Instr.mods]; omega)
  exact Fields.of 0x109 .no 0x3 none (.rshi h (bits 2 (Instr.mods (.rshi h rs)) 0)) rfl rfl rfl rfl (or_full (n := 2) (by have b0 := rs.isLt; simp only [Instr.mods]; omega)) (by decide) (by rw [e0]) (fun _ => rfl)

theorem Fields.rsuni (h : Hdr) : Fields.Statement (.rsuni h) := by
  exact Fields.of 0x10A .yes 0x0 none (.rsuni h ) rfl rfl rfl rfl (or_full (n := 0) (by simp only [Instr.mods]; omega)) (by decide) (rfl) (fun _ => rfl)

theorem Fields.rsint (h : Hdr) : Fields.Statement (.rsint h) := by
  exact Fields.of 0x10B .yes 0x0 none (.rsint h ) rfl rfl rfl rfl (or_full (n := 0) (by simp only [Instr.mods]; omega)) (by decide) (rfl) (fun _ => rfl)

theorem Fields.rstest (h : Hdr) (mode : BitVec 2) : Fields.Statement (.rstest h mode) := by
  have e0 := bits_of (n := Instr.mods (.rstest h mode)) (lo := 0) (k := 2) (v := mode) (by have b0 := mode.isLt; simp only [Instr.mods]; omega)
  exact Fields.of 0x10C .yes 0x3 none (.rstest h (bits 2 (Instr.mods (.rstest h mode)) 0)) rfl rfl rfl rfl (or_full (n := 2) (by have b0 := mode.isLt; simp only [Instr.mods]; omega)) (by decide) (by rw [e0]) (fun _ => rfl)

theorem Fields.rspack (h : Hdr) (pw : BitVec 3) : Fields.Statement (.rspack h pw) := by
  have e0 := bits_of (n := Instr.mods (.rspack h pw)) (lo := 0) (k := 3) (v := pw) (by have b0 := pw.isLt; simp only [Instr.mods]; omega)
  exact Fields.of 0x10D .no 0x7 none (.rspack h (bits 3 (Instr.mods (.rspack h pw)) 0)) rfl rfl rfl rfl (or_full (n := 3) (by have b0 := pw.isLt; simp only [Instr.mods]; omega)) (by decide) (by rw [e0]) (fun _ => rfl)

theorem Fields.rsunpk (h : Hdr) : Fields.Statement (.rsunpk h) := by
  exact Fields.of 0x10E .no 0x0 none (.rsunpk h ) rfl rfl rfl rfl (or_full (n := 0) (by simp only [Instr.mods]; omega)) (by decide) (rfl) (fun _ => rfl)

theorem Fields.rsring (h : Hdr) (rs : BitVec 2) : Fields.Statement (.rsring h rs) := by
  have e0 := bits_of (n := Instr.mods (.rsring h rs)) (lo := 0) (k := 2) (v := rs) (by have b0 := rs.isLt; simp only [Instr.mods]; omega)
  exact Fields.of 0x10F .no 0x3 none (.rsring h (bits 2 (Instr.mods (.rsring h rs)) 0)) rfl rfl rfl rfl (or_full (n := 2) (by have b0 := rs.isLt; simp only [Instr.mods]; omega)) (by decide) (by rw [e0]) (fun _ => rfl)

theorem Fields.bra (h : Hdr) : Fields.Statement (.bra h) := by
  exact Fields.of 0x140 .req 0x0 none (.bra h ) rfl rfl rfl rfl (or_full (n := 0) (by simp only [Instr.mods]; omega)) (by decide) (rfl) (fun _ => rfl)

theorem Fields.brx (h : Hdr) : Fields.Statement (.brx h) := by
  exact Fields.of 0x141 .no 0x0 none (.brx h ) rfl rfl rfl rfl (or_full (n := 0) (by simp only [Instr.mods]; omega)) (by decide) (rfl) (fun _ => rfl)

theorem Fields.call (h : Hdr) (ind : Bool) : Fields.Statement (.call h ind) := by
  have e0 := bit_of (n := Instr.mods (.call h ind)) (i := 0) (b := ind) (by have b0 := b2n_lt ind; simp only [Instr.mods]; omega)
  exact Fields.of 0x142 (if bit (Instr.mods (.call h ind)) 0 then .no else .req) 0x1 none (.call h (bit (Instr.mods (.call h ind)) 0)) rfl rfl rfl (by rw [e0]; rfl) (or_full (n := 1) (by have b0 := b2n_lt ind; simp only [Instr.mods]; omega)) (by decide) (by rw [e0]) (fun _ => rfl)

theorem Fields.ret (h : Hdr) : Fields.Statement (.ret h) := by
  exact Fields.of 0x143 .no 0x0 none (.ret h ) rfl rfl rfl rfl (or_full (n := 0) (by simp only [Instr.mods]; omega)) (by decide) (rfl) (fun _ => rfl)

theorem Fields.loop (h : Hdr) : Fields.Statement (.loop h) := by
  exact Fields.of 0x144 .req 0x0 none (.loop h ) rfl rfl rfl rfl (or_full (n := 0) (by simp only [Instr.mods]; omega)) (by decide) (rfl) (fun _ => rfl)

theorem Fields.exit (h : Hdr) : Fields.Statement (.exit h) := by
  exact Fields.of 0x145 .no 0x0 none (.exit h ) rfl rfl rfl rfl (or_full (n := 0) (by simp only [Instr.mods]; omega)) (by decide) (rfl) (fun _ => rfl)

theorem Fields.yieldI (h : Hdr) : Fields.Statement (.yieldI h) := by
  exact Fields.of 0x146 .no 0x0 none (.yieldI h ) rfl rfl rfl rfl (or_full (n := 0) (by simp only [Instr.mods]; omega)) (by decide) (rfl) (fun _ => rfl)

theorem Fields.nop (h : Hdr) : Fields.Statement (.nop h) := by
  exact Fields.of 0x147 .no 0x0 none (.nop h ) rfl rfl rfl rfl (or_full (n := 0) (by simp only [Instr.mods]; omega)) (by decide) (rfl) (fun _ => rfl)

theorem Fields.sleep (h : Hdr) : Fields.Statement (.sleep h) := by
  exact Fields.of 0x148 .yes 0x0 none (.sleep h ) rfl rfl rfl rfl (or_full (n := 0) (by simp only [Instr.mods]; omega)) (by decide) (rfl) (fun _ => rfl)

theorem Fields.bar (h : Hdr) (id : BitVec 4) : Fields.Statement (.bar h id) := by
  have e0 := bits_of (n := Instr.mods (.bar h id)) (lo := 0) (k := 4) (v := id) (by have b0 := id.isLt; simp only [Instr.mods]; omega)
  exact Fields.of 0x149 .yes 0xF none (.bar h (bits 4 (Instr.mods (.bar h id)) 0)) rfl rfl rfl rfl (or_full (n := 4) (by have b0 := id.isLt; simp only [Instr.mods]; omega)) (by decide) (by rw [e0]) (fun _ => rfl)

theorem Fields.bara (h : Hdr) (id : BitVec 4) : Fields.Statement (.bara h id) := by
  have e0 := bits_of (n := Instr.mods (.bara h id)) (lo := 0) (k := 4) (v := id) (by have b0 := id.isLt; simp only [Instr.mods]; omega)
  exact Fields.of 0x14A .yes 0xF none (.bara h (bits 4 (Instr.mods (.bara h id)) 0)) rfl rfl rfl rfl (or_full (n := 4) (by have b0 := id.isLt; simp only [Instr.mods]; omega)) (by decide) (by rw [e0]) (fun _ => rfl)

theorem Fields.launch (h : Hdr) : Fields.Statement (.launch h) := by
  exact Fields.of 0x14B .no 0x0 none (.launch h ) rfl rfl rfl rfl (or_full (n := 0) (by simp only [Instr.mods]; omega)) (by decide) (rfl) (fun _ => rfl)

theorem Fields.cjoin (h : Hdr) : Fields.Statement (.cjoin h) := by
  exact Fields.of 0x14C .no 0x0 none (.cjoin h ) rfl rfl rfl rfl (or_full (n := 0) (by simp only [Instr.mods]; omega)) (by decide) (rfl) (fun _ => rfl)

theorem Fields.rjen (h : Hdr) (j : BitVec 3) : Fields.Statement (.rjen h j) := by
  have e0 := bits_of (n := Instr.mods (.rjen h j)) (lo := 0) (k := 3) (v := j) (by have b0 := j.isLt; simp only [Instr.mods]; omega)
  exact Fields.of 0x14D .no 0x7 none (.rjen h (bits 3 (Instr.mods (.rjen h j)) 0)) rfl rfl rfl rfl (or_full (n := 3) (by have b0 := j.isLt; simp only [Instr.mods]; omega)) (by decide) (by rw [e0]) (fun _ => rfl)

theorem Fields.rjwait (h : Hdr) (j : BitVec 3) : Fields.Statement (.rjwait h j) := by
  have e0 := bits_of (n := Instr.mods (.rjwait h j)) (lo := 0) (k := 3) (v := j) (by have b0 := j.isLt; simp only [Instr.mods]; omega)
  exact Fields.of 0x14E .no 0x7 none (.rjwait h (bits 3 (Instr.mods (.rjwait h j)) 0)) rfl rfl rfl rfl (or_full (n := 3) (by have b0 := j.isLt; simp only [Instr.mods]; omega)) (by decide) (by rw [e0]) (fun _ => rfl)

theorem Fields.rjleave (h : Hdr) (j : BitVec 3) : Fields.Statement (.rjleave h j) := by
  have e0 := bits_of (n := Instr.mods (.rjleave h j)) (lo := 0) (k := 3) (v := j) (by have b0 := j.isLt; simp only [Instr.mods]; omega)
  exact Fields.of 0x14F .no 0x7 none (.rjleave h (bits 3 (Instr.mods (.rjleave h j)) 0)) rfl rfl rfl rfl (or_full (n := 3) (by have b0 := j.isLt; simp only [Instr.mods]; omega)) (by decide) (by rw [e0]) (fun _ => rfl)

theorem Fields.lxch (h : Hdr) (mode : BitVec 2) (seg : BitVec 2) (vp : BitVec 3) : Fields.Statement (.lxch h mode seg vp) := by
  have e0 := bits_of (n := Instr.mods (.lxch h mode seg vp)) (lo := 0) (k := 2) (v := mode) (by have b0 := mode.isLt; have b1 := seg.isLt; have b2 := vp.isLt; simp only [Instr.mods]; omega)
  have e1 := bits_of (n := Instr.mods (.lxch h mode seg vp)) (lo := 2) (k := 2) (v := seg) (by have b0 := mode.isLt; have b1 := seg.isLt; have b2 := vp.isLt; simp only [Instr.mods]; omega)
  have e2 := bits_of (n := Instr.mods (.lxch h mode seg vp)) (lo := 4) (k := 3) (v := vp) (by have b0 := mode.isLt; have b1 := seg.isLt; have b2 := vp.isLt; simp only [Instr.mods]; omega)
  exact Fields.of 0x150 .yes 0x7F none (.lxch h (bits 2 (Instr.mods (.lxch h mode seg vp)) 0) (bits 2 (Instr.mods (.lxch h mode seg vp)) 2) (bits 3 (Instr.mods (.lxch h mode seg vp)) 4)) rfl rfl rfl rfl (or_full (n := 7) (by have b0 := mode.isLt; have b1 := seg.isLt; have b2 := vp.isLt; simp only [Instr.mods]; omega)) (by decide) (by rw [e0, e1, e2]) (fun _ => rfl)

theorem Fields.vote (h : Hdr) (mode : BitVec 2) : Fields.Statement (.vote h mode) := by
  have e0 := bits_of (n := Instr.mods (.vote h mode)) (lo := 0) (k := 2) (v := mode) (by have b0 := mode.isLt; simp only [Instr.mods]; omega)
  exact Fields.of 0x151 .no 0x3 none (.vote h (bits 2 (Instr.mods (.vote h mode)) 0)) rfl rfl rfl rfl (or_full (n := 2) (by have b0 := mode.isLt; simp only [Instr.mods]; omega)) (by decide) (by rw [e0]) (fun _ => rfl)

theorem Fields.segred (h : Hdr) (op : BitVec 3) (ty : BitVec 2) : Fields.Statement (.segred h op ty) := by
  have e0 := bits_of (n := Instr.mods (.segred h op ty)) (lo := 0) (k := 3) (v := op) (by have b0 := op.isLt; have b1 := ty.isLt; simp only [Instr.mods]; omega)
  have e1 := bits_of (n := Instr.mods (.segred h op ty)) (lo := 3) (k := 2) (v := ty) (by have b0 := op.isLt; have b1 := ty.isLt; simp only [Instr.mods]; omega)
  exact Fields.of 0x152 .yes 0x1F (why56 ((bits 3 (Instr.mods (.segred h op ty)) 0).toNat > 5 || (bits 2 (Instr.mods (.segred h op ty)) 3) = 3) ((bits 3 (Instr.mods (.segred h op ty)) 0).toNat ≥ 3 && (bits 2 (Instr.mods (.segred h op ty)) 3) ≠ 0)) (.segred h (bits 3 (Instr.mods (.segred h op ty)) 0) (bits 2 (Instr.mods (.segred h op ty)) 3)) rfl rfl rfl rfl (or_full (n := 5) (by have b0 := op.isLt; have b1 := ty.isLt; simp only [Instr.mods]; omega)) (by decide) (by rw [e0, e1]) (fun hb => by simp only [e0, e1]; exact why56_none (by simpa [Instr.badFields] using hb))

theorem Fields.scan (h : Hdr) (op : BitVec 3) (ty : BitVec 2) (excl : Bool) : Fields.Statement (.scan h op ty excl) := by
  have e0 := bits_of (n := Instr.mods (.scan h op ty excl)) (lo := 0) (k := 3) (v := op) (by have b0 := op.isLt; have b1 := ty.isLt; have b2 := b2n_lt excl; simp only [Instr.mods]; omega)
  have e1 := bits_of (n := Instr.mods (.scan h op ty excl)) (lo := 3) (k := 2) (v := ty) (by have b0 := op.isLt; have b1 := ty.isLt; have b2 := b2n_lt excl; simp only [Instr.mods]; omega)
  have e2 := bit_of (n := Instr.mods (.scan h op ty excl)) (i := 5) (b := excl) (by have b0 := op.isLt; have b1 := ty.isLt; have b2 := b2n_lt excl; simp only [Instr.mods]; omega)
  exact Fields.of 0x153 .yes 0x3F (why56 ((bits 3 (Instr.mods (.scan h op ty excl)) 0).toNat > 5 || (bits 2 (Instr.mods (.scan h op ty excl)) 3) = 3) ((bits 3 (Instr.mods (.scan h op ty excl)) 0).toNat ≥ 3 && (bits 2 (Instr.mods (.scan h op ty excl)) 3) ≠ 0)) (.scan h (bits 3 (Instr.mods (.scan h op ty excl)) 0) (bits 2 (Instr.mods (.scan h op ty excl)) 3) (bit (Instr.mods (.scan h op ty excl)) 5)) rfl rfl rfl rfl (or_full (n := 6) (by have b0 := op.isLt; have b1 := ty.isLt; have b2 := b2n_lt excl; simp only [Instr.mods]; omega)) (by decide) (by rw [e0, e1, e2]) (fun hb => by simp only [e0, e1]; exact why56_none (by simpa [Instr.badFields] using hb))

theorem Fields.matchL (h : Hdr) (w64 : Bool) : Fields.Statement (.matchL h w64) := by
  have e0 := bit_of (n := Instr.mods (.matchL h w64)) (i := 0) (b := w64) (by have b0 := b2n_lt w64; simp only [Instr.mods]; omega)
  exact Fields.of 0x154 .no 0x1 none (.matchL h (bit (Instr.mods (.matchL h w64)) 0)) rfl rfl rfl rfl (or_full (n := 1) (by have b0 := b2n_lt w64; simp only [Instr.mods]; omega)) (by decide) (by rw [e0]) (fun _ => rfl)

theorem Fields.lead (h : Hdr) : Fields.Statement (.lead h) := by
  exact Fields.of 0x155 .no 0x0 none (.lead h ) rfl rfl rfl rfl (or_full (n := 0) (by simp only [Instr.mods]; omega)) (by decide) (rfl) (fun _ => rfl)

theorem Fields.bcast (h : Hdr) : Fields.Statement (.bcast h) := by
  exact Fields.of 0x156 .yes 0x0 none (.bcast h ) rfl rfl rfl rfl (or_full (n := 0) (by simp only [Instr.mods]; omega)) (by decide) (rfl) (fun _ => rfl)

theorem Fields.ld (h : Hdr) (sz : BitVec 3) (acq : Bool) (sc : BitVec 3) (nl : Bool) : Fields.Statement (.ld h sz acq sc nl) := by
  have e0 := bits_of (n := Instr.mods (.ld h sz acq sc nl)) (lo := 0) (k := 3) (v := sz) (by have b0 := sz.isLt; have b1 := b2n_lt acq; have b2 := sc.isLt; have b3 := b2n_lt nl; simp only [Instr.mods]; omega)
  have e1 := bit_of (n := Instr.mods (.ld h sz acq sc nl)) (i := 3) (b := acq) (by have b0 := sz.isLt; have b1 := b2n_lt acq; have b2 := sc.isLt; have b3 := b2n_lt nl; simp only [Instr.mods]; omega)
  have e2 := bits_of (n := Instr.mods (.ld h sz acq sc nl)) (lo := 4) (k := 3) (v := sc) (by have b0 := sz.isLt; have b1 := b2n_lt acq; have b2 := sc.isLt; have b3 := b2n_lt nl; simp only [Instr.mods]; omega)
  have e3 := bit_of (n := Instr.mods (.ld h sz acq sc nl)) (i := 7) (b := nl) (by have b0 := sz.isLt; have b1 := b2n_lt acq; have b2 := sc.isLt; have b3 := b2n_lt nl; simp only [Instr.mods]; omega)
  exact Fields.of 0x180 .yes 0xFF (why56 ((bits 3 (Instr.mods (.ld h sz acq sc nl)) 0) = 7 || (bits 3 (Instr.mods (.ld h sz acq sc nl)) 4).toNat > 4) (!bit (Instr.mods (.ld h sz acq sc nl)) 3 && (bits 3 (Instr.mods (.ld h sz acq sc nl)) 4) ≠ 0)) (.ld h (bits 3 (Instr.mods (.ld h sz acq sc nl)) 0) (bit (Instr.mods (.ld h sz acq sc nl)) 3) (bits 3 (Instr.mods (.ld h sz acq sc nl)) 4) (bit (Instr.mods (.ld h sz acq sc nl)) 7)) rfl rfl rfl rfl (or_full (n := 8) (by have b0 := sz.isLt; have b1 := b2n_lt acq; have b2 := sc.isLt; have b3 := b2n_lt nl; simp only [Instr.mods]; omega)) (by decide) (by rw [e0, e1, e2, e3]) (fun hb => by simp only [e0, e1, e2]; exact why56_none (by simpa [Instr.badFields] using hb))

theorem Fields.st (h : Hdr) (sz : BitVec 3) (rel : Bool) (sc : BitVec 3) : Fields.Statement (.st h sz rel sc) := by
  have e0 := bits_of (n := Instr.mods (.st h sz rel sc)) (lo := 0) (k := 3) (v := sz) (by have b0 := sz.isLt; have b1 := b2n_lt rel; have b2 := sc.isLt; simp only [Instr.mods]; omega)
  have e1 := bit_of (n := Instr.mods (.st h sz rel sc)) (i := 3) (b := rel) (by have b0 := sz.isLt; have b1 := b2n_lt rel; have b2 := sc.isLt; simp only [Instr.mods]; omega)
  have e2 := bits_of (n := Instr.mods (.st h sz rel sc)) (lo := 4) (k := 3) (v := sc) (by have b0 := sz.isLt; have b1 := b2n_lt rel; have b2 := sc.isLt; simp only [Instr.mods]; omega)
  exact Fields.of 0x181 .yes 0x7F (why56 ((bits 3 (Instr.mods (.st h sz rel sc)) 0) = 4 || (bits 3 (Instr.mods (.st h sz rel sc)) 0).toNat > 5 || (bits 3 (Instr.mods (.st h sz rel sc)) 4).toNat > 4) (!bit (Instr.mods (.st h sz rel sc)) 3 && (bits 3 (Instr.mods (.st h sz rel sc)) 4) ≠ 0)) (.st h (bits 3 (Instr.mods (.st h sz rel sc)) 0) (bit (Instr.mods (.st h sz rel sc)) 3) (bits 3 (Instr.mods (.st h sz rel sc)) 4)) rfl rfl rfl rfl (or_full (n := 7) (by have b0 := sz.isLt; have b1 := b2n_lt rel; have b2 := sc.isLt; simp only [Instr.mods]; omega)) (by decide) (by rw [e0, e1, e2]) (fun hb => by simp only [e0, e1, e2]; exact why56_none (by simpa [Instr.badFields] using hb))

theorem Fields.lds (h : Hdr) (sz : BitVec 3) : Fields.Statement (.lds h sz) := by
  have e0 := bits_of (n := Instr.mods (.lds h sz)) (lo := 0) (k := 3) (v := sz) (by have b0 := sz.isLt; simp only [Instr.mods]; omega)
  exact Fields.of 0x182 .yes 0x7 (why56 ((bits 3 (Instr.mods (.lds h sz)) 0) = 7) (false)) (.lds h (bits 3 (Instr.mods (.lds h sz)) 0)) rfl rfl rfl rfl (or_full (n := 3) (by have b0 := sz.isLt; simp only [Instr.mods]; omega)) (by decide) (by rw [e0]) (fun hb => by simp only [e0]; exact why56_none (by simpa [Instr.badFields] using hb))

theorem Fields.sts (h : Hdr) (sz : BitVec 3) : Fields.Statement (.sts h sz) := by
  have e0 := bits_of (n := Instr.mods (.sts h sz)) (lo := 0) (k := 3) (v := sz) (by have b0 := sz.isLt; simp only [Instr.mods]; omega)
  exact Fields.of 0x183 .yes 0x7 (why56 ((bits 3 (Instr.mods (.sts h sz)) 0) = 4 || (bits 3 (Instr.mods (.sts h sz)) 0).toNat > 5) (false)) (.sts h (bits 3 (Instr.mods (.sts h sz)) 0)) rfl rfl rfl rfl (or_full (n := 3) (by have b0 := sz.isLt; simp only [Instr.mods]; omega)) (by decide) (by rw [e0]) (fun hb => by simp only [e0]; exact why56_none (by simpa [Instr.badFields] using hb))

theorem Fields.ldc (h : Hdr) (sz : BitVec 2) : Fields.Statement (.ldc h sz) := by
  have e0 := bits_of (n := Instr.mods (.ldc h sz)) (lo := 0) (k := 2) (v := sz) (by have b0 := sz.isLt; simp only [Instr.mods]; omega)
  exact Fields.of 0x184 .yes 0x3 (why56 ((bits 2 (Instr.mods (.ldc h sz)) 0) = 3) (false)) (.ldc h (bits 2 (Instr.mods (.ldc h sz)) 0)) rfl rfl rfl rfl (or_full (n := 2) (by have b0 := sz.isLt; simp only [Instr.mods]; omega)) (by decide) (by rw [e0]) (fun hb => by simp only [e0]; exact why56_none (by simpa [Instr.badFields] using hb))

theorem Fields.ldf (h : Hdr) (w16 : Bool) : Fields.Statement (.ldf h w16) := by
  have e0 := bit_of (n := Instr.mods (.ldf h w16)) (i := 0) (b := w16) (by have b0 := b2n_lt w16; simp only [Instr.mods]; omega)
  exact Fields.of 0x185 .yes 0x1 none (.ldf h (bit (Instr.mods (.ldf h w16)) 0)) rfl rfl rfl rfl (or_full (n := 1) (by have b0 := b2n_lt w16; simp only [Instr.mods]; omega)) (by decide) (by rw [e0]) (fun _ => rfl)

theorem Fields.pref (h : Hdr) (l2 : Bool) : Fields.Statement (.pref h l2) := by
  have e0 := bit_of (n := Instr.mods (.pref h l2)) (i := 0) (b := l2) (by have b0 := b2n_lt l2; simp only [Instr.mods]; omega)
  exact Fields.of 0x186 .yes 0x1 none (.pref h (bit (Instr.mods (.pref h l2)) 0)) rfl rfl rfl rfl (or_full (n := 1) (by have b0 := b2n_lt l2; simp only [Instr.mods]; omega)) (by decide) (by rw [e0]) (fun _ => rfl)

theorem Fields.cinv (h : Hdr) (op : BitVec 2) : Fields.Statement (.cinv h op) := by
  have e0 := bits_of (n := Instr.mods (.cinv h op)) (lo := 0) (k := 2) (v := op) (by have b0 := op.isLt; simp only [Instr.mods]; omega)
  exact Fields.of 0x187 (if bit (Instr.mods (.cinv h op)) 0 then .no else .yes) 0x3 none (.cinv h (bits 2 (Instr.mods (.cinv h op)) 0)) rfl rfl rfl ((show ∀ o : BitVec 2, (if o.toNat % 2 = 0 then ImmPolicy.yes else ImmPolicy.no) = if bit o.toNat 0 then ImmPolicy.no else ImmPolicy.yes by decide) op) (or_full (n := 2) (by have b0 := op.isLt; simp only [Instr.mods]; omega)) (by decide) (by rw [e0]) (fun _ => rfl)

theorem Fields.smap (h : Hdr) (w : BitVec 3) : Fields.Statement (.smap h w) := by
  have e0 := bits_of (n := Instr.mods (.smap h w)) (lo := 0) (k := 3) (v := w) (by have b0 := w.isLt; simp only [Instr.mods]; omega)
  exact Fields.of 0x188 .yes 0x7 none (.smap h (bits 3 (Instr.mods (.smap h w)) 0)) rfl rfl rfl rfl (or_full (n := 3) (by have b0 := w.isLt; simp only [Instr.mods]; omega)) (by decide) (by rw [e0]) (fun _ => rfl)

theorem Fields.swb (h : Hdr) (w : BitVec 3) : Fields.Statement (.swb h w) := by
  have e0 := bits_of (n := Instr.mods (.swb h w)) (lo := 0) (k := 3) (v := w) (by have b0 := w.isLt; simp only [Instr.mods]; omega)
  exact Fields.of 0x189 .no 0x7 none (.swb h (bits 3 (Instr.mods (.swb h w)) 0)) rfl rfl rfl rfl (or_full (n := 3) (by have b0 := w.isLt; simp only [Instr.mods]; omega)) (by decide) (by rw [e0]) (fun _ => rfl)

theorem Fields.sinv (h : Hdr) (w : BitVec 3) (wb : Bool) : Fields.Statement (.sinv h w wb) := by
  have e0 := bits_of (n := Instr.mods (.sinv h w wb)) (lo := 0) (k := 3) (v := w) (by have b0 := w.isLt; have b1 := b2n_lt wb; simp only [Instr.mods]; omega)
  have e1 := bit_of (n := Instr.mods (.sinv h w wb)) (i := 3) (b := wb) (by have b0 := w.isLt; have b1 := b2n_lt wb; simp only [Instr.mods]; omega)
  exact Fields.of 0x18A .no 0xF none (.sinv h (bits 3 (Instr.mods (.sinv h w wb)) 0) (bit (Instr.mods (.sinv h w wb)) 3)) rfl rfl rfl rfl (or_full (n := 4) (by have b0 := w.isLt; have b1 := b2n_lt wb; simp only [Instr.mods]; omega)) (by decide) (by rw [e0, e1]) (fun _ => rfl)

theorem Fields.atom (h : Hdr) (op : BitVec 4) (ty : BitVec 2) (ord : BitVec 2) (sc : BitVec 3) : Fields.Statement (.atom h op ty ord sc) := by
  have e0 := bits_of (n := Instr.mods (.atom h op ty ord sc)) (lo := 0) (k := 4) (v := op) (by have b0 := op.isLt; have b1 := ty.isLt; have b2 := ord.isLt; have b3 := sc.isLt; simp only [Instr.mods]; omega)
  have e1 := bits_of (n := Instr.mods (.atom h op ty ord sc)) (lo := 4) (k := 2) (v := ty) (by have b0 := op.isLt; have b1 := ty.isLt; have b2 := ord.isLt; have b3 := sc.isLt; simp only [Instr.mods]; omega)
  have e2 := bits_of (n := Instr.mods (.atom h op ty ord sc)) (lo := 6) (k := 2) (v := ord) (by have b0 := op.isLt; have b1 := ty.isLt; have b2 := ord.isLt; have b3 := sc.isLt; simp only [Instr.mods]; omega)
  have e3 := bits_of (n := Instr.mods (.atom h op ty ord sc)) (lo := 8) (k := 3) (v := sc) (by have b0 := op.isLt; have b1 := ty.isLt; have b2 := ord.isLt; have b3 := sc.isLt; simp only [Instr.mods]; omega)
  exact Fields.of 0x18B .yes 0x7FF (why56 ((bits 3 (Instr.mods (.atom h op ty ord sc)) 8).toNat > 4) (!atomOpOk (bits 4 (Instr.mods (.atom h op ty ord sc)) 0) (bits 2 (Instr.mods (.atom h op ty ord sc)) 4) || ((bits 2 (Instr.mods (.atom h op ty ord sc)) 6) = 0 && (bits 3 (Instr.mods (.atom h op ty ord sc)) 8) ≠ 0))) (.atom h (bits 4 (Instr.mods (.atom h op ty ord sc)) 0) (bits 2 (Instr.mods (.atom h op ty ord sc)) 4) (bits 2 (Instr.mods (.atom h op ty ord sc)) 6) (bits 3 (Instr.mods (.atom h op ty ord sc)) 8)) rfl rfl rfl rfl (or_full (n := 11) (by have b0 := op.isLt; have b1 := ty.isLt; have b2 := ord.isLt; have b3 := sc.isLt; simp only [Instr.mods]; omega)) (by decide) (by rw [e0, e1, e2, e3]) (fun hb => by simp only [e0, e1, e2, e3]; exact why56_none (by simpa [Instr.badFields] using hb))

theorem Fields.atomc (h : Hdr) (w64 : Bool) (ord : BitVec 2) (sc : BitVec 3) : Fields.Statement (.atomc h w64 ord sc) := by
  have e0 := bit_of (n := Instr.mods (.atomc h w64 ord sc)) (i := 0) (b := w64) (by have b0 := b2n_lt w64; have b1 := ord.isLt; have b2 := sc.isLt; simp only [Instr.mods]; omega)
  have e1 := bits_of (n := Instr.mods (.atomc h w64 ord sc)) (lo := 1) (k := 2) (v := ord) (by have b0 := b2n_lt w64; have b1 := ord.isLt; have b2 := sc.isLt; simp only [Instr.mods]; omega)
  have e2 := bits_of (n := Instr.mods (.atomc h w64 ord sc)) (lo := 3) (k := 3) (v := sc) (by have b0 := b2n_lt w64; have b1 := ord.isLt; have b2 := sc.isLt; simp only [Instr.mods]; omega)
  exact Fields.of 0x18C .yes 0x3F (why56 ((bits 3 (Instr.mods (.atomc h w64 ord sc)) 3).toNat > 4) ((bits 2 (Instr.mods (.atomc h w64 ord sc)) 1) = 0 && (bits 3 (Instr.mods (.atomc h w64 ord sc)) 3) ≠ 0)) (.atomc h (bit (Instr.mods (.atomc h w64 ord sc)) 0) (bits 2 (Instr.mods (.atomc h w64 ord sc)) 1) (bits 3 (Instr.mods (.atomc h w64 ord sc)) 3)) rfl rfl rfl rfl (or_full (n := 6) (by have b0 := b2n_lt w64; have b1 := ord.isLt; have b2 := sc.isLt; simp only [Instr.mods]; omega)) (by decide) (by rw [e0, e1, e2]) (fun hb => by simp only [e1, e2]; exact why56_none (by simpa [Instr.badFields] using hb))

theorem Fields.red (h : Hdr) (op : BitVec 4) (ty : BitVec 2) (rel : Bool) (sc : BitVec 3) : Fields.Statement (.red h op ty rel sc) := by
  have e0 := bits_of (n := Instr.mods (.red h op ty rel sc)) (lo := 0) (k := 4) (v := op) (by have b0 := op.isLt; have b1 := ty.isLt; have b2 := b2n_lt rel; have b3 := sc.isLt; simp only [Instr.mods]; omega)
  have e1 := bits_of (n := Instr.mods (.red h op ty rel sc)) (lo := 4) (k := 2) (v := ty) (by have b0 := op.isLt; have b1 := ty.isLt; have b2 := b2n_lt rel; have b3 := sc.isLt; simp only [Instr.mods]; omega)
  have e2 := bit_of (n := Instr.mods (.red h op ty rel sc)) (i := 6) (b := rel) (by have b0 := op.isLt; have b1 := ty.isLt; have b2 := b2n_lt rel; have b3 := sc.isLt; simp only [Instr.mods]; omega)
  have e3 := bits_of (n := Instr.mods (.red h op ty rel sc)) (lo := 7) (k := 3) (v := sc) (by have b0 := op.isLt; have b1 := ty.isLt; have b2 := b2n_lt rel; have b3 := sc.isLt; simp only [Instr.mods]; omega)
  exact Fields.of 0x18D .yes 0x3FF (why56 ((bits 3 (Instr.mods (.red h op ty rel sc)) 7).toNat > 4) ((bits 4 (Instr.mods (.red h op ty rel sc)) 0).toNat > 5 || !atomOpOk (bits 4 (Instr.mods (.red h op ty rel sc)) 0) (bits 2 (Instr.mods (.red h op ty rel sc)) 4) || (!bit (Instr.mods (.red h op ty rel sc)) 6 && (bits 3 (Instr.mods (.red h op ty rel sc)) 7) ≠ 0))) (.red h (bits 4 (Instr.mods (.red h op ty rel sc)) 0) (bits 2 (Instr.mods (.red h op ty rel sc)) 4) (bit (Instr.mods (.red h op ty rel sc)) 6) (bits 3 (Instr.mods (.red h op ty rel sc)) 7)) rfl rfl rfl rfl (or_full (n := 10) (by have b0 := op.isLt; have b1 := ty.isLt; have b2 := b2n_lt rel; have b3 := sc.isLt; simp only [Instr.mods]; omega)) (by decide) (by rw [e0, e1, e2, e3]) (fun hb => by simp only [e0, e1, e2, e3]; exact why56_none (by simpa [Instr.badFields] using hb))

theorem Fields.atomsc (h : Hdr) (op : BitVec 4) (ty : BitVec 2) : Fields.Statement (.atomsc h op ty) := by
  have e0 := bits_of (n := Instr.mods (.atomsc h op ty)) (lo := 0) (k := 4) (v := op) (by have b0 := op.isLt; have b1 := ty.isLt; simp only [Instr.mods]; omega)
  have e1 := bits_of (n := Instr.mods (.atomsc h op ty)) (lo := 4) (k := 2) (v := ty) (by have b0 := op.isLt; have b1 := ty.isLt; simp only [Instr.mods]; omega)
  exact Fields.of 0x18E .yes 0x3F (why56 (false) (!atomOpOkCas (bits 4 (Instr.mods (.atomsc h op ty)) 0) (bits 2 (Instr.mods (.atomsc h op ty)) 4))) (.atomsc h (bits 4 (Instr.mods (.atomsc h op ty)) 0) (bits 2 (Instr.mods (.atomsc h op ty)) 4)) rfl rfl rfl rfl (or_full (n := 6) (by have b0 := op.isLt; have b1 := ty.isLt; simp only [Instr.mods]; omega)) (by decide) (by rw [e0, e1]) (fun hb => by simp only [e0, e1]; exact why56_none (by simpa [Instr.badFields] using hb))

theorem Fields.atoms (h : Hdr) (op : BitVec 4) (ty : BitVec 2) : Fields.Statement (.atoms h op ty) := by
  have e0 := bits_of (n := Instr.mods (.atoms h op ty)) (lo := 0) (k := 4) (v := op) (by have b0 := op.isLt; have b1 := ty.isLt; simp only [Instr.mods]; omega)
  have e1 := bits_of (n := Instr.mods (.atoms h op ty)) (lo := 4) (k := 2) (v := ty) (by have b0 := op.isLt; have b1 := ty.isLt; simp only [Instr.mods]; omega)
  exact Fields.of 0x18F .yes 0x3F (why56 (false) (!atomOpOkCas (bits 4 (Instr.mods (.atoms h op ty)) 0) (bits 2 (Instr.mods (.atoms h op ty)) 4))) (.atoms h (bits 4 (Instr.mods (.atoms h op ty)) 0) (bits 2 (Instr.mods (.atoms h op ty)) 4)) rfl rfl rfl rfl (or_full (n := 6) (by have b0 := op.isLt; have b1 := ty.isLt; simp only [Instr.mods]; omega)) (by decide) (by rw [e0, e1]) (fun hb => by simp only [e0, e1]; exact why56_none (by simpa [Instr.badFields] using hb))

theorem Fields.fence (h : Hdr) (sc : BitVec 3) : Fields.Statement (.fence h sc) := by
  have e0 := bits_of (n := Instr.mods (.fence h sc)) (lo := 0) (k := 3) (v := sc) (by have b0 := sc.isLt; simp only [Instr.mods]; omega)
  exact Fields.of 0x200 .no 0x7 (why56 ((bits 3 (Instr.mods (.fence h sc)) 0).toNat > 4) (false)) (.fence h (bits 3 (Instr.mods (.fence h sc)) 0)) rfl rfl rfl rfl (or_full (n := 3) (by have b0 := sc.isLt; simp only [Instr.mods]; omega)) (by decide) (by rw [e0]) (fun hb => by simp only [e0]; exact why56_none (by simpa [Instr.badFields] using hb))

theorem Fields.waitc (h : Hdr) (live : BitVec 5) (cnd : BitVec 2) : Fields.Statement (.waitc h live cnd) := by
  have e0 := bits_of (n := Instr.mods (.waitc h live cnd)) (lo := 0) (k := 5) (v := live) (by have b0 := live.isLt; have b1 := cnd.isLt; simp only [Instr.mods]; omega)
  have e1 := bits_of (n := Instr.mods (.waitc h live cnd)) (lo := 5) (k := 2) (v := cnd) (by have b0 := live.isLt; have b1 := cnd.isLt; simp only [Instr.mods]; omega)
  exact Fields.of 0x201 .req 0x7F (why56 ((bits 2 (Instr.mods (.waitc h live cnd)) 5) = 3) ((bits 5 (Instr.mods (.waitc h live cnd)) 0).toNat > 28)) (.waitc h (bits 5 (Instr.mods (.waitc h live cnd)) 0) (bits 2 (Instr.mods (.waitc h live cnd)) 5)) rfl rfl rfl rfl (or_full (n := 7) (by have b0 := live.isLt; have b1 := cnd.isLt; simp only [Instr.mods]; omega)) (by decide) (by rw [e0, e1]) (fun hb => by simp only [e0, e1]; exact why56_none (by simpa [Instr.badFields] using hb))

theorem Fields.waitg (h : Hdr) : Fields.Statement (.waitg h) := by
  exact Fields.of 0x202 .yes 0x0 none (.waitg h ) rfl rfl rfl rfl (or_full (n := 0) (by simp only [Instr.mods]; omega)) (by decide) (rfl) (fun _ => rfl)

theorem Fields.armw (h : Hdr) : Fields.Statement (.armw h) := by
  exact Fields.of 0x203 .yes 0x0 none (.armw h ) rfl rfl rfl rfl (or_full (n := 0) (by simp only [Instr.mods]; omega)) (by decide) (rfl) (fun _ => rfl)

theorem Fields.arrv (h : Hdr) : Fields.Statement (.arrv h) := by
  exact Fields.of 0x204 .yes 0x0 none (.arrv h ) rfl rfl rfl rfl (or_full (n := 0) (by simp only [Instr.mods]; omega)) (by decide) (rfl) (fun _ => rfl)

theorem Fields.caps (h : Hdr) (ns : BitVec 5) : Fields.Statement (.caps h ns) := by
  have e0 := bits_of (n := Instr.mods (.caps h ns)) (lo := 0) (k := 5) (v := ns) (by have b0 := ns.isLt; simp only [Instr.mods]; omega)
  exact Fields.of 0x205 .no 0x1F (why56 false (h.gp != 7 || h.gn)) (.caps h (bits 5 (Instr.mods (.caps h ns)) 0)) rfl rfl rfl rfl (or_full (n := 5) (by have b0 := ns.isLt; simp only [Instr.mods]; omega)) (by decide) (by rw [e0]) (fun hb => by exact why56_none (by simpa [Instr.badFields] using hb))

theorem Fields.cld (h : Hdr) : Fields.Statement (.cld h) := by
  exact Fields.of 0x206 .yes 0x0 none (.cld h ) rfl rfl rfl rfl (or_full (n := 0) (by simp only [Instr.mods]; omega)) (by decide) (rfl) (fun _ => rfl)

theorem Fields.cst (h : Hdr) : Fields.Statement (.cst h) := by
  exact Fields.of 0x207 .yes 0x0 none (.cst h ) rfl rfl rfl rfl (or_full (n := 0) (by simp only [Instr.mods]; omega)) (by decide) (rfl) (fun _ => rfl)

theorem Fields.cend (h : Hdr) : Fields.Statement (.cend h) := by
  exact Fields.of 0x208 .no 0x0 (why56 false (h.gp != 7 || h.gn)) (.cend h ) rfl rfl rfl rfl (or_full (n := 0) (by simp only [Instr.mods]; omega)) (by decide) (rfl) (fun hb => by exact why56_none (by simpa [Instr.badFields] using hb))

theorem Fields.cadopt (h : Hdr) : Fields.Statement (.cadopt h) := by
  exact Fields.of 0x209 .req 0x0 none (.cadopt h ) rfl rfl rfl rfl (or_full (n := 0) (by simp only [Instr.mods]; omega)) (by decide) (rfl) (fun _ => rfl)

theorem Fields.cqry (h : Hdr) : Fields.Statement (.cqry h) := by
  exact Fields.of 0x20A .no 0x0 none (.cqry h ) rfl rfl rfl rfl (or_full (n := 0) (by simp only [Instr.mods]; omega)) (by decide) (rfl) (fun _ => rfl)

theorem Fields.mma (h : Hdr) (ty : BitVec 3) (asp : Bool) (pm : Bool) (str : BitVec 2) (rnd : BitVec 3) : Fields.Statement (.mma h ty asp pm str rnd) := by
  have e0 := bits_of (n := Instr.mods (.mma h ty asp pm str rnd)) (lo := 0) (k := 3) (v := ty) (by have b0 := ty.isLt; have b1 := b2n_lt asp; have b2 := b2n_lt pm; have b3 := str.isLt; have b4 := rnd.isLt; simp only [Instr.mods]; omega)
  have e1 := bit_of (n := Instr.mods (.mma h ty asp pm str rnd)) (i := 3) (b := asp) (by have b0 := ty.isLt; have b1 := b2n_lt asp; have b2 := b2n_lt pm; have b3 := str.isLt; have b4 := rnd.isLt; simp only [Instr.mods]; omega)
  have e2 := bit_of (n := Instr.mods (.mma h ty asp pm str rnd)) (i := 4) (b := pm) (by have b0 := ty.isLt; have b1 := b2n_lt asp; have b2 := b2n_lt pm; have b3 := str.isLt; have b4 := rnd.isLt; simp only [Instr.mods]; omega)
  have e3 := bits_of (n := Instr.mods (.mma h ty asp pm str rnd)) (lo := 5) (k := 2) (v := str) (by have b0 := ty.isLt; have b1 := b2n_lt asp; have b2 := b2n_lt pm; have b3 := str.isLt; have b4 := rnd.isLt; simp only [Instr.mods]; omega)
  have e4 := bits_of (n := Instr.mods (.mma h ty asp pm str rnd)) (lo := 7) (k := 3) (v := rnd) (by have b0 := ty.isLt; have b1 := b2n_lt asp; have b2 := b2n_lt pm; have b3 := str.isLt; have b4 := rnd.isLt; simp only [Instr.mods]; omega)
  exact Fields.of 0x240 .no 0x3FF (why56 ((bits 3 (Instr.mods (.mma h ty asp pm str rnd)) 0).toNat > 4 || (bits 3 (Instr.mods (.mma h ty asp pm str rnd)) 7).toNat > 5) (false)) (.mma h (bits 3 (Instr.mods (.mma h ty asp pm str rnd)) 0) (bit (Instr.mods (.mma h ty asp pm str rnd)) 3) (bit (Instr.mods (.mma h ty asp pm str rnd)) 4) (bits 2 (Instr.mods (.mma h ty asp pm str rnd)) 5) (bits 3 (Instr.mods (.mma h ty asp pm str rnd)) 7)) rfl rfl rfl rfl (or_full (n := 10) (by have b0 := ty.isLt; have b1 := b2n_lt asp; have b2 := b2n_lt pm; have b3 := str.isLt; have b4 := rnd.isLt; simp only [Instr.mods]; omega)) (by decide) (by rw [e0, e1, e2, e3, e4]) (fun hb => by simp only [e0, e4]; exact why56_none (by simpa [Instr.badFields] using hb))

theorem Fields.mmai (h : Hdr) (ty : BitVec 3) (asp : Bool) (pm : Bool) (str : BitVec 2) (sat : Bool) : Fields.Statement (.mmai h ty asp pm str sat) := by
  have e0 := bits_of (n := Instr.mods (.mmai h ty asp pm str sat)) (lo := 0) (k := 3) (v := ty) (by have b0 := ty.isLt; have b1 := b2n_lt asp; have b2 := b2n_lt pm; have b3 := str.isLt; have b4 := b2n_lt sat; simp only [Instr.mods]; omega)
  have e1 := bit_of (n := Instr.mods (.mmai h ty asp pm str sat)) (i := 3) (b := asp) (by have b0 := ty.isLt; have b1 := b2n_lt asp; have b2 := b2n_lt pm; have b3 := str.isLt; have b4 := b2n_lt sat; simp only [Instr.mods]; omega)
  have e2 := bit_of (n := Instr.mods (.mmai h ty asp pm str sat)) (i := 4) (b := pm) (by have b0 := ty.isLt; have b1 := b2n_lt asp; have b2 := b2n_lt pm; have b3 := str.isLt; have b4 := b2n_lt sat; simp only [Instr.mods]; omega)
  have e3 := bits_of (n := Instr.mods (.mmai h ty asp pm str sat)) (lo := 5) (k := 2) (v := str) (by have b0 := ty.isLt; have b1 := b2n_lt asp; have b2 := b2n_lt pm; have b3 := str.isLt; have b4 := b2n_lt sat; simp only [Instr.mods]; omega)
  have e4 := bit_of (n := Instr.mods (.mmai h ty asp pm str sat)) (i := 7) (b := sat) (by have b0 := ty.isLt; have b1 := b2n_lt asp; have b2 := b2n_lt pm; have b3 := str.isLt; have b4 := b2n_lt sat; simp only [Instr.mods]; omega)
  exact Fields.of 0x241 .no 0xFF (why56 ((bits 3 (Instr.mods (.mmai h ty asp pm str sat)) 0).toNat > 3) (false)) (.mmai h (bits 3 (Instr.mods (.mmai h ty asp pm str sat)) 0) (bit (Instr.mods (.mmai h ty asp pm str sat)) 3) (bit (Instr.mods (.mmai h ty asp pm str sat)) 4) (bits 2 (Instr.mods (.mmai h ty asp pm str sat)) 5) (bit (Instr.mods (.mmai h ty asp pm str sat)) 7)) rfl rfl rfl rfl (or_full (n := 8) (by have b0 := ty.isLt; have b1 := b2n_lt asp; have b2 := b2n_lt pm; have b3 := str.isLt; have b4 := b2n_lt sat; simp only [Instr.mods]; omega)) (by decide) (by rw [e0, e1, e2, e3, e4]) (fun hb => by simp only [e0]; exact why56_none (by simpa [Instr.badFields] using hb))

theorem Fields.mmab (h : Hdr) (ty : BitVec 3) (asp : Bool) (pm : Bool) (str : BitVec 2) (rnd : BitVec 3) : Fields.Statement (.mmab h ty asp pm str rnd) := by
  have e0 := bits_of (n := Instr.mods (.mmab h ty asp pm str rnd)) (lo := 0) (k := 3) (v := ty) (by have b0 := ty.isLt; have b1 := b2n_lt asp; have b2 := b2n_lt pm; have b3 := str.isLt; have b4 := rnd.isLt; simp only [Instr.mods]; omega)
  have e1 := bit_of (n := Instr.mods (.mmab h ty asp pm str rnd)) (i := 3) (b := asp) (by have b0 := ty.isLt; have b1 := b2n_lt asp; have b2 := b2n_lt pm; have b3 := str.isLt; have b4 := rnd.isLt; simp only [Instr.mods]; omega)
  have e2 := bit_of (n := Instr.mods (.mmab h ty asp pm str rnd)) (i := 4) (b := pm) (by have b0 := ty.isLt; have b1 := b2n_lt asp; have b2 := b2n_lt pm; have b3 := str.isLt; have b4 := rnd.isLt; simp only [Instr.mods]; omega)
  have e3 := bits_of (n := Instr.mods (.mmab h ty asp pm str rnd)) (lo := 5) (k := 2) (v := str) (by have b0 := ty.isLt; have b1 := b2n_lt asp; have b2 := b2n_lt pm; have b3 := str.isLt; have b4 := rnd.isLt; simp only [Instr.mods]; omega)
  have e4 := bits_of (n := Instr.mods (.mmab h ty asp pm str rnd)) (lo := 7) (k := 3) (v := rnd) (by have b0 := ty.isLt; have b1 := b2n_lt asp; have b2 := b2n_lt pm; have b3 := str.isLt; have b4 := rnd.isLt; simp only [Instr.mods]; omega)
  exact Fields.of 0x242 .no 0x3FF (why56 ((bits 3 (Instr.mods (.mmab h ty asp pm str rnd)) 0).toNat > 1 || (bits 3 (Instr.mods (.mmab h ty asp pm str rnd)) 7).toNat > 5) (false)) (.mmab h (bits 3 (Instr.mods (.mmab h ty asp pm str rnd)) 0) (bit (Instr.mods (.mmab h ty asp pm str rnd)) 3) (bit (Instr.mods (.mmab h ty asp pm str rnd)) 4) (bits 2 (Instr.mods (.mmab h ty asp pm str rnd)) 5) (bits 3 (Instr.mods (.mmab h ty asp pm str rnd)) 7)) rfl rfl rfl rfl (or_full (n := 10) (by have b0 := ty.isLt; have b1 := b2n_lt asp; have b2 := b2n_lt pm; have b3 := str.isLt; have b4 := rnd.isLt; simp only [Instr.mods]; omega)) (by decide) (by rw [e0, e1, e2, e3, e4]) (fun hb => by simp only [e0, e4]; exact why56_none (by simpa [Instr.badFields] using hb))

theorem Fields.mmas (h : Hdr) (ty : BitVec 3) (asp : Bool) (pm : Bool) (str : BitVec 2) (rnd : BitVec 3) (sat : Bool) : Fields.Statement (.mmas h ty asp pm str rnd sat) := by
  have e0 := bits_of (n := Instr.mods (.mmas h ty asp pm str rnd sat)) (lo := 0) (k := 3) (v := ty) (by have b0 := ty.isLt; have b1 := b2n_lt asp; have b2 := b2n_lt pm; have b3 := str.isLt; have b4 := rnd.isLt; have b5 := b2n_lt sat; simp only [Instr.mods]; omega)
  have e1 := bit_of (n := Instr.mods (.mmas h ty asp pm str rnd sat)) (i := 3) (b := asp) (by have b0 := ty.isLt; have b1 := b2n_lt asp; have b2 := b2n_lt pm; have b3 := str.isLt; have b4 := rnd.isLt; have b5 := b2n_lt sat; simp only [Instr.mods]; omega)
  have e2 := bit_of (n := Instr.mods (.mmas h ty asp pm str rnd sat)) (i := 4) (b := pm) (by have b0 := ty.isLt; have b1 := b2n_lt asp; have b2 := b2n_lt pm; have b3 := str.isLt; have b4 := rnd.isLt; have b5 := b2n_lt sat; simp only [Instr.mods]; omega)
  have e3 := bits_of (n := Instr.mods (.mmas h ty asp pm str rnd sat)) (lo := 5) (k := 2) (v := str) (by have b0 := ty.isLt; have b1 := b2n_lt asp; have b2 := b2n_lt pm; have b3 := str.isLt; have b4 := rnd.isLt; have b5 := b2n_lt sat; simp only [Instr.mods]; omega)
  have e4 := bits_of (n := Instr.mods (.mmas h ty asp pm str rnd sat)) (lo := 7) (k := 3) (v := rnd) (by have b0 := ty.isLt; have b1 := b2n_lt asp; have b2 := b2n_lt pm; have b3 := str.isLt; have b4 := rnd.isLt; have b5 := b2n_lt sat; simp only [Instr.mods]; omega)
  have e5 := bit_of (n := Instr.mods (.mmas h ty asp pm str rnd sat)) (i := 10) (b := sat) (by have b0 := ty.isLt; have b1 := b2n_lt asp; have b2 := b2n_lt pm; have b3 := str.isLt; have b4 := rnd.isLt; have b5 := b2n_lt sat; simp only [Instr.mods]; omega)
  exact Fields.of 0x243 .no 0x7FF (why56 ((bits 3 (Instr.mods (.mmas h ty asp pm str rnd sat)) 0) = 7 || (bits 3 (Instr.mods (.mmas h ty asp pm str rnd sat)) 7).toNat > 5) (((bits 3 (Instr.mods (.mmas h ty asp pm str rnd sat)) 0).toNat ≥ 5 && (bits 3 (Instr.mods (.mmas h ty asp pm str rnd sat)) 7) ≠ 0) || ((bits 3 (Instr.mods (.mmas h ty asp pm str rnd sat)) 0).toNat < 5 && bit (Instr.mods (.mmas h ty asp pm str rnd sat)) 10))) (.mmas h (bits 3 (Instr.mods (.mmas h ty asp pm str rnd sat)) 0) (bit (Instr.mods (.mmas h ty asp pm str rnd sat)) 3) (bit (Instr.mods (.mmas h ty asp pm str rnd sat)) 4) (bits 2 (Instr.mods (.mmas h ty asp pm str rnd sat)) 5) (bits 3 (Instr.mods (.mmas h ty asp pm str rnd sat)) 7) (bit (Instr.mods (.mmas h ty asp pm str rnd sat)) 10)) rfl rfl rfl rfl (or_full (n := 11) (by have b0 := ty.isLt; have b1 := b2n_lt asp; have b2 := b2n_lt pm; have b3 := str.isLt; have b4 := rnd.isLt; have b5 := b2n_lt sat; simp only [Instr.mods]; omega)) (by decide) (by rw [e0, e1, e2, e3, e4, e5]) (fun hb => by simp only [e0, e4, e5]; exact why56_none (by simpa [Instr.badFields] using hb))

theorem Fields.tmv (h : Hdr) (m1 : BitVec 3) (n1 : BitVec 3) (bf : Bool) : Fields.Statement (.tmv h m1 n1 bf) := by
  have e0 := bits_of (n := Instr.mods (.tmv h m1 n1 bf)) (lo := 0) (k := 3) (v := m1) (by have b0 := m1.isLt; have b1 := n1.isLt; have b2 := b2n_lt bf; simp only [Instr.mods]; omega)
  have e1 := bits_of (n := Instr.mods (.tmv h m1 n1 bf)) (lo := 3) (k := 3) (v := n1) (by have b0 := m1.isLt; have b1 := n1.isLt; have b2 := b2n_lt bf; simp only [Instr.mods]; omega)
  have e2 := bit_of (n := Instr.mods (.tmv h m1 n1 bf)) (i := 6) (b := bf) (by have b0 := m1.isLt; have b1 := n1.isLt; have b2 := b2n_lt bf; simp only [Instr.mods]; omega)
  exact Fields.of 0x244 .yes 0x7F none (.tmv h (bits 3 (Instr.mods (.tmv h m1 n1 bf)) 0) (bits 3 (Instr.mods (.tmv h m1 n1 bf)) 3) (bit (Instr.mods (.tmv h m1 n1 bf)) 6)) rfl rfl rfl rfl (or_full (n := 7) (by have b0 := m1.isLt; have b1 := n1.isLt; have b2 := b2n_lt bf; simp only [Instr.mods]; omega)) (by decide) (by rw [e0, e1, e2]) (fun _ => rfl)

theorem Fields.mzero (h : Hdr) (pm : Bool) (str : BitVec 2) : Fields.Statement (.mzero h pm str) := by
  have e0 := bit_of (n := Instr.mods (.mzero h pm str)) (i := 4) (b := pm) (by have b0 := b2n_lt pm; have b1 := str.isLt; simp only [Instr.mods]; omega)
  have e1 := bits_of (n := Instr.mods (.mzero h pm str)) (lo := 5) (k := 2) (v := str) (by have b0 := b2n_lt pm; have b1 := str.isLt; simp only [Instr.mods]; omega)
  exact Fields.of 0x245 .no 0x70 none (.mzero h (bit (Instr.mods (.mzero h pm str)) 4) (bits 2 (Instr.mods (.mzero h pm str)) 5)) rfl rfl rfl rfl (by simp only [Instr.mods]; clear e0 e1 h; revert pm str; decide) (by decide) (by rw [e0, e1]) (fun _ => rfl)

theorem Fields.mopr (h : Hdr) : Fields.Statement (.mopr h) := by
  exact Fields.of 0x246 .no 0x0 none (.mopr h ) rfl rfl rfl rfl (or_full (n := 0) (by simp only [Instr.mods]; omega)) (by decide) (rfl) (fun _ => rfl)

theorem Fields.mwait (h : Hdr) (smask : BitVec 4) : Fields.Statement (.mwait h smask) := by
  have e0 := bits_of (n := Instr.mods (.mwait h smask)) (lo := 0) (k := 4) (v := smask) (by have b0 := smask.isLt; simp only [Instr.mods]; omega)
  exact Fields.of 0x247 .no 0xF none (.mwait h (bits 4 (Instr.mods (.mwait h smask)) 0)) rfl rfl rfl rfl (or_full (n := 4) (by have b0 := smask.isLt; simp only [Instr.mods]; omega)) (by decide) (by rw [e0]) (fun _ => rfl)

theorem Fields.tcopy (h : Hdr) (dir : Bool) (sf : BitVec 3) (sr : Bool) (arv : Bool) : Fields.Statement (.tcopy h dir sf sr arv) := by
  have e0 := bit_of (n := Instr.mods (.tcopy h dir sf sr arv)) (i := 0) (b := dir) (by have b0 := b2n_lt dir; have b1 := sf.isLt; have b2 := b2n_lt sr; have b3 := b2n_lt arv; simp only [Instr.mods]; omega)
  have e1 := bits_of (n := Instr.mods (.tcopy h dir sf sr arv)) (lo := 1) (k := 3) (v := sf) (by have b0 := b2n_lt dir; have b1 := sf.isLt; have b2 := b2n_lt sr; have b3 := b2n_lt arv; simp only [Instr.mods]; omega)
  have e2 := bit_of (n := Instr.mods (.tcopy h dir sf sr arv)) (i := 4) (b := sr) (by have b0 := b2n_lt dir; have b1 := sf.isLt; have b2 := b2n_lt sr; have b3 := b2n_lt arv; simp only [Instr.mods]; omega)
  have e3 := bit_of (n := Instr.mods (.tcopy h dir sf sr arv)) (i := 5) (b := arv) (by have b0 := b2n_lt dir; have b1 := sf.isLt; have b2 := b2n_lt sr; have b3 := b2n_lt arv; simp only [Instr.mods]; omega)
  exact Fields.of 0x280 .no 0x3F (why56 ((bits 3 (Instr.mods (.tcopy h dir sf sr arv)) 1) = 7) (false)) (.tcopy h (bit (Instr.mods (.tcopy h dir sf sr arv)) 0) (bits 3 (Instr.mods (.tcopy h dir sf sr arv)) 1) (bit (Instr.mods (.tcopy h dir sf sr arv)) 4) (bit (Instr.mods (.tcopy h dir sf sr arv)) 5)) rfl rfl rfl rfl (or_full (n := 6) (by have b0 := b2n_lt dir; have b1 := sf.isLt; have b2 := b2n_lt sr; have b3 := b2n_lt arv; simp only [Instr.mods]; omega)) (by decide) (by rw [e0, e1, e2, e3]) (fun hb => by simp only [e1]; exact why56_none (by simpa [Instr.badFields] using hb))

theorem Fields.rcfence (h : Hdr) (all : Bool) : Fields.Statement (.rcfence h all) := by
  have e0 := bit_of (n := Instr.mods (.rcfence h all)) (i := 0) (b := all) (by have b0 := b2n_lt all; simp only [Instr.mods]; omega)
  exact Fields.of 0x281 .no 0x1 none (.rcfence h (bit (Instr.mods (.rcfence h all)) 0)) rfl rfl rfl rfl (or_full (n := 1) (by have b0 := b2n_lt all; simp only [Instr.mods]; omega)) (by decide) (by rw [e0]) (fun _ => rfl)

theorem Fields.cpwait (h : Hdr) : Fields.Statement (.cpwait h) := by
  exact Fields.of 0x282 .yes 0x0 none (.cpwait h ) rfl rfl rfl rfl (or_full (n := 0) (by simp only [Instr.mods]; omega)) (by decide) (rfl) (fun _ => rfl)

theorem Fields.gath (h : Hdr) (sz : BitVec 2) (u : Bool) (arv : Bool) : Fields.Statement (.gath h sz u arv) := by
  have e0 := bits_of (n := Instr.mods (.gath h sz u arv)) (lo := 0) (k := 2) (v := sz) (by have b0 := sz.isLt; have b1 := b2n_lt u; have b2 := b2n_lt arv; simp only [Instr.mods]; omega)
  have e1 := bit_of (n := Instr.mods (.gath h sz u arv)) (i := 2) (b := u) (by have b0 := sz.isLt; have b1 := b2n_lt u; have b2 := b2n_lt arv; simp only [Instr.mods]; omega)
  have e2 := bit_of (n := Instr.mods (.gath h sz u arv)) (i := 3) (b := arv) (by have b0 := sz.isLt; have b1 := b2n_lt u; have b2 := b2n_lt arv; simp only [Instr.mods]; omega)
  exact Fields.of 0x283 .no 0xF none (.gath h (bits 2 (Instr.mods (.gath h sz u arv)) 0) (bit (Instr.mods (.gath h sz u arv)) 2) (bit (Instr.mods (.gath h sz u arv)) 3)) rfl rfl rfl rfl (or_full (n := 4) (by have b0 := sz.isLt; have b1 := b2n_lt u; have b2 := b2n_lt arv; simp only [Instr.mods]; omega)) (by decide) (by rw [e0, e1, e2]) (fun _ => rfl)

theorem Fields.scat (h : Hdr) (sz : BitVec 2) (u : Bool) (arv : Bool) : Fields.Statement (.scat h sz u arv) := by
  have e0 := bits_of (n := Instr.mods (.scat h sz u arv)) (lo := 0) (k := 2) (v := sz) (by have b0 := sz.isLt; have b1 := b2n_lt u; have b2 := b2n_lt arv; simp only [Instr.mods]; omega)
  have e1 := bit_of (n := Instr.mods (.scat h sz u arv)) (i := 2) (b := u) (by have b0 := sz.isLt; have b1 := b2n_lt u; have b2 := b2n_lt arv; simp only [Instr.mods]; omega)
  have e2 := bit_of (n := Instr.mods (.scat h sz u arv)) (i := 3) (b := arv) (by have b0 := sz.isLt; have b1 := b2n_lt u; have b2 := b2n_lt arv; simp only [Instr.mods]; omega)
  exact Fields.of 0x284 .no 0xF none (.scat h (bits 2 (Instr.mods (.scat h sz u arv)) 0) (bit (Instr.mods (.scat h sz u arv)) 2) (bit (Instr.mods (.scat h sz u arv)) 3)) rfl rfl rfl rfl (or_full (n := 4) (by have b0 := sz.isLt; have b1 := b2n_lt u; have b2 := b2n_lt arv; simp only [Instr.mods]; omega)) (by decide) (by rw [e0, e1, e2]) (fun _ => rfl)

theorem Fields.hset (h : Hdr) (hc : BitVec 2) : Fields.Statement (.hset h hc) := by
  have e0 := bits_of (n := Instr.mods (.hset h hc)) (lo := 0) (k := 2) (v := hc) (by have b0 := hc.isLt; simp only [Instr.mods]; omega)
  exact Fields.of 0x285 .no 0x3 none (.hset h (bits 2 (Instr.mods (.hset h hc)) 0)) rfl rfl rfl rfl (or_full (n := 2) (by have b0 := hc.isLt; simp only [Instr.mods]; omega)) (by decide) (by rw [e0]) (fun _ => rfl)

theorem Fields.hnext (h : Hdr) (hc : BitVec 2) (pv : BitVec 3) : Fields.Statement (.hnext h hc pv) := by
  have e0 := bits_of (n := Instr.mods (.hnext h hc pv)) (lo := 0) (k := 2) (v := hc) (by have b0 := hc.isLt; have b1 := pv.isLt; simp only [Instr.mods]; omega)
  have e1 := bits_of (n := Instr.mods (.hnext h hc pv)) (lo := 2) (k := 3) (v := pv) (by have b0 := hc.isLt; have b1 := pv.isLt; simp only [Instr.mods]; omega)
  exact Fields.of 0x286 .no 0x1F none (.hnext h (bits 2 (Instr.mods (.hnext h hc pv)) 0) (bits 3 (Instr.mods (.hnext h hc pv)) 2)) rfl rfl rfl rfl (or_full (n := 5) (by have b0 := hc.isLt; have b1 := pv.isLt; simp only [Instr.mods]; omega)) (by decide) (by rw [e0, e1]) (fun _ => rfl)

theorem Fields.hsave (h : Hdr) (hc : BitVec 2) : Fields.Statement (.hsave h hc) := by
  have e0 := bits_of (n := Instr.mods (.hsave h hc)) (lo := 0) (k := 2) (v := hc) (by have b0 := hc.isLt; simp only [Instr.mods]; omega)
  exact Fields.of 0x287 .no 0x3 none (.hsave h (bits 2 (Instr.mods (.hsave h hc)) 0)) rfl rfl rfl rfl (or_full (n := 2) (by have b0 := hc.isLt; simp only [Instr.mods]; omega)) (by decide) (by rw [e0]) (fun _ => rfl)

theorem Fields.hload (h : Hdr) (hc : BitVec 2) : Fields.Statement (.hload h hc) := by
  have e0 := bits_of (n := Instr.mods (.hload h hc)) (lo := 0) (k := 2) (v := hc) (by have b0 := hc.isLt; simp only [Instr.mods]; omega)
  exact Fields.of 0x288 .no 0x3 none (.hload h (bits 2 (Instr.mods (.hload h hc)) 0)) rfl rfl rfl rfl (or_full (n := 2) (by have b0 := hc.isLt; simp only [Instr.mods]; omega)) (by decide) (by rw [e0]) (fun _ => rfl)

theorem Fields.hstat (h : Hdr) (hc : BitVec 2) : Fields.Statement (.hstat h hc) := by
  have e0 := bits_of (n := Instr.mods (.hstat h hc)) (lo := 0) (k := 2) (v := hc) (by have b0 := hc.isLt; simp only [Instr.mods]; omega)
  exact Fields.of 0x289 .no 0x3 none (.hstat h (bits 2 (Instr.mods (.hstat h hc)) 0)) rfl rfl rfl rfl (or_full (n := 2) (by have b0 := hc.isLt; simp only [Instr.mods]; omega)) (by decide) (by rw [e0]) (fun _ => rfl)

theorem Fields.hxst (h : Hdr) : Fields.Statement (.hxst h) := by
  exact Fields.of 0x2C0 .no 0x0 none (.hxst h ) rfl rfl rfl rfl (or_full (n := 0) (by simp only [Instr.mods]; omega)) (by decide) (rfl) (fun _ => rfl)

theorem Fields.hxld (h : Hdr) : Fields.Statement (.hxld h) := by
  exact Fields.of 0x2C1 .no 0x0 none (.hxld h ) rfl rfl rfl rfl (or_full (n := 0) (by simp only [Instr.mods]; omega)) (by decide) (rfl) (fun _ => rfl)

theorem Fields.hxclr (h : Hdr) (tbl : BitVec 4) : Fields.Statement (.hxclr h tbl) := by
  have e0 := bits_of (n := Instr.mods (.hxclr h tbl)) (lo := 0) (k := 4) (v := tbl) (by have b0 := tbl.isLt; simp only [Instr.mods]; omega)
  exact Fields.of 0x2C2 .no 0xF none (.hxclr h (bits 4 (Instr.mods (.hxclr h tbl)) 0)) rfl rfl rfl rfl (or_full (n := 4) (by have b0 := tbl.isLt; simp only [Instr.mods]; omega)) (by decide) (by rw [e0]) (fun _ => rfl)

theorem Fields.hxrd (h : Hdr) : Fields.Statement (.hxrd h) := by
  exact Fields.of 0x2C3 .yes 0x0 none (.hxrd h ) rfl rfl rfl rfl (or_full (n := 0) (by simp only [Instr.mods]; omega)) (by decide) (rfl) (fun _ => rfl)

theorem Fields.hxwr (h : Hdr) : Fields.Statement (.hxwr h) := by
  exact Fields.of 0x2C4 .yes 0x0 none (.hxwr h ) rfl rfl rfl rfl (or_full (n := 0) (by simp only [Instr.mods]; omega)) (by decide) (rfl) (fun _ => rfl)

theorem Fields.hxcfg (h : Hdr) : Fields.Statement (.hxcfg h) := by
  exact Fields.of 0x2C5 .yes 0x0 none (.hxcfg h ) rfl rfl rfl rfl (or_full (n := 0) (by simp only [Instr.mods]; omega)) (by decide) (rfl) (fun _ => rfl)

theorem Fields.trapI (h : Hdr) : Fields.Statement (.trapI h) := by
  exact Fields.of 0x2C6 .yes 0x0 none (.trapI h ) rfl rfl rfl rfl (or_full (n := 0) (by simp only [Instr.mods]; omega)) (by decide) (rfl) (fun _ => rfl)

theorem Fields.xret (h : Hdr) (skip : Bool) : Fields.Statement (.xret h skip) := by
  have e0 := bit_of (n := Instr.mods (.xret h skip)) (i := 0) (b := skip) (by have b0 := b2n_lt skip; simp only [Instr.mods]; omega)
  exact Fields.of 0x2C7 .no 0x1 none (.xret h (bit (Instr.mods (.xret h skip)) 0)) rfl rfl rfl rfl (or_full (n := 1) (by have b0 := b2n_lt skip; simp only [Instr.mods]; omega)) (by decide) (by rw [e0]) (fun _ => rfl)

theorem Fields.mfs (h : Hdr) : Fields.Statement (.mfs h) := by
  exact Fields.of 0x2C8 .no 0xF (why56 (false) ((Instr.mods (.mfs h)) ≥ 2)) (.mfs h ) rfl rfl (by have r : decodeOp 0x2C8 h (Instr.mods (.mfs h)) = if (h.hint.getLsbD 0 && decodeOp.decodable 0x2C8) then .error 2 else if bit (Instr.mods (.mfs h)) 0 then form .yes 0xF none h (Instr.mods (.mfs h)) (.mfsT h (bits 3 (Instr.mods (.mfs h)) 1)) else form .no 0xF (why56 false ((Instr.mods (.mfs h)) ≥ 2)) h (Instr.mods (.mfs h)) (.mfs h) := rfl; rw [r, show bit (Instr.mods (.mfs h)) 0 = false from bit_of (by simp only [Instr.mods, b2n_false]; omega)]; rfl) rfl (or_full (n := 4) (by simp only [Instr.mods]; omega)) (by decide) (rfl) (fun _ => rfl)

theorem Fields.mts (h : Hdr) : Fields.Statement (.mts h) := by
  exact Fields.of 0x2C9 .yes 0xF (why56 (false) ((Instr.mods (.mts h)) ≥ 2)) (.mts h ) rfl rfl (by have r : decodeOp 0x2C9 h (Instr.mods (.mts h)) = if (h.hint.getLsbD 0 && decodeOp.decodable 0x2C9) then .error 2 else if bit (Instr.mods (.mts h)) 0 then form .yes 0xF none h (Instr.mods (.mts h)) (.mtsT h (bits 3 (Instr.mods (.mts h)) 1)) else form .yes 0xF (why56 false ((Instr.mods (.mts h)) ≥ 2)) h (Instr.mods (.mts h)) (.mts h) := rfl; rw [r, show bit (Instr.mods (.mts h)) 0 = false from bit_of (by simp only [Instr.mods, b2n_false]; omega)]; rfl) rfl (or_full (n := 4) (by simp only [Instr.mods]; omega)) (by decide) (rfl) (fun _ => rfl)

theorem Fields.mfsT (h : Hdr) (pv : BitVec 3) : Fields.Statement (.mfsT h pv) := by
  have e0 := bits_of (n := Instr.mods (.mfsT h pv)) (lo := 1) (k := 3) (v := pv) (by have b0 := pv.isLt; simp only [Instr.mods]; omega)
  exact Fields.of 0x2C8 .yes 0xF none (.mfsT h (bits 3 (Instr.mods (.mfsT h pv)) 1)) rfl rfl (by have r : decodeOp 0x2C8 h (Instr.mods (.mfsT h pv)) = if (h.hint.getLsbD 0 && decodeOp.decodable 0x2C8) then .error 2 else if bit (Instr.mods (.mfsT h pv)) 0 then form .yes 0xF none h (Instr.mods (.mfsT h pv)) (.mfsT h (bits 3 (Instr.mods (.mfsT h pv)) 1)) else form .no 0xF (why56 false ((Instr.mods (.mfsT h pv)) ≥ 2)) h (Instr.mods (.mfsT h pv)) (.mfs h) := rfl; rw [r, show bit (Instr.mods (.mfsT h pv)) 0 = true from bit_of (by simp only [Instr.mods, b2n_true]; omega)]; rfl) rfl (or_full (n := 4) (by have b0 := pv.isLt; simp only [Instr.mods]; omega)) (by decide) (by rw [e0]) (fun _ => rfl)

theorem Fields.mtsT (h : Hdr) (pv : BitVec 3) : Fields.Statement (.mtsT h pv) := by
  have e0 := bits_of (n := Instr.mods (.mtsT h pv)) (lo := 1) (k := 3) (v := pv) (by have b0 := pv.isLt; simp only [Instr.mods]; omega)
  exact Fields.of 0x2C9 .yes 0xF none (.mtsT h (bits 3 (Instr.mods (.mtsT h pv)) 1)) rfl rfl (by have r : decodeOp 0x2C9 h (Instr.mods (.mtsT h pv)) = if (h.hint.getLsbD 0 && decodeOp.decodable 0x2C9) then .error 2 else if bit (Instr.mods (.mtsT h pv)) 0 then form .yes 0xF none h (Instr.mods (.mtsT h pv)) (.mtsT h (bits 3 (Instr.mods (.mtsT h pv)) 1)) else form .yes 0xF (why56 false ((Instr.mods (.mtsT h pv)) ≥ 2)) h (Instr.mods (.mtsT h pv)) (.mts h) := rfl; rw [r, show bit (Instr.mods (.mtsT h pv)) 0 = true from bit_of (by simp only [Instr.mods, b2n_true]; omega)]; rfl) rfl (or_full (n := 4) (by have b0 := pv.isLt; simp only [Instr.mods]; omega)) (by decide) (by rw [e0]) (fun _ => rfl)

theorem Fields.bkpt (h : Hdr) : Fields.Statement (.bkpt h) := by
  exact Fields.of 0x2CA .yes 0x0 none (.bkpt h ) rfl rfl rfl rfl (or_full (n := 0) (by simp only [Instr.mods]; omega)) (by decide) (rfl) (fun _ => rfl)

theorem Fields.dbgmsg (h : Hdr) : Fields.Statement (.dbgmsg h) := by
  exact Fields.of 0x2CB .yes 0x0 none (.dbgmsg h ) rfl rfl rfl rfl (or_full (n := 0) (by simp only [Instr.mods]; omega)) (by decide) (rfl) (fun _ => rfl)

theorem Fields.pmark (h : Hdr) : Fields.Statement (.pmark h) := by
  exact Fields.of 0x2CC .yes 0x0 none (.pmark h ) rfl rfl rfl rfl (or_full (n := 0) (by simp only [Instr.mods]; omega)) (by decide) (rfl) (fun _ => rfl)

theorem Fields.pmrd (h : Hdr) : Fields.Statement (.pmrd h) := by
  exact Fields.of 0x2CD .yes 0x0 none (.pmrd h ) rfl rfl rfl rfl (or_full (n := 0) (by simp only [Instr.mods]; omega)) (by decide) (rfl) (fun _ => rfl)

theorem Fields.clkrd (h : Hdr) : Fields.Statement (.clkrd h) := by
  exact Fields.of 0x2CE .no 0x0 none (.clkrd h ) rfl rfl rfl rfl (or_full (n := 0) (by simp only [Instr.mods]; omega)) (by decide) (rfl) (fun _ => rfl)

theorem Fields.ipref (h : Hdr) : Fields.Statement (.ipref h) := by
  exact Fields.of 0x2CF .yes 0x0 none (.ipref h ) rfl rfl rfl rfl (or_full (n := 0) (by simp only [Instr.mods]; omega)) (by decide) (rfl) (fun _ => rfl)

theorem Fields.qntf (h : Hdr) : Fields.Statement (.qntf h) := by
  exact Fields.of 0x2D0 .yes 0x0 none (.qntf h ) rfl rfl rfl rfl (or_full (n := 0) (by simp only [Instr.mods]; omega)) (by decide) (rfl) (fun _ => rfl)

theorem Fields.tokrd (h : Hdr) (fig : BitVec 2) : Fields.Statement (.tokrd h fig) := by
  have e0 := bits_of (n := Instr.mods (.tokrd h fig)) (lo := 0) (k := 2) (v := fig) (by have b0 := fig.isLt; simp only [Instr.mods]; omega)
  exact Fields.of 0x2D1 .no 0x3 none (.tokrd h (bits 2 (Instr.mods (.tokrd h fig)) 0)) rfl rfl rfl rfl (or_full (n := 2) (by have b0 := fig.isLt; simp only [Instr.mods]; omega)) (by decide) (by rw [e0]) (fun _ => rfl)

theorem Fields.movCompact (d : Byte) (a : Byte) (b : Byte) : Fields.Statement (.movCompact d a b) := fun _ h => nomatch h

theorem Fields.iaddCompact (d : Byte) (a : Byte) (b : Byte) : Fields.Statement (.iaddCompact d a b) := fun _ h => nomatch h

theorem Fields.isubCompact (d : Byte) (a : Byte) (b : Byte) : Fields.Statement (.isubCompact d a b) := fun _ h => nomatch h

theorem Fields.imulCompact (d : Byte) (a : Byte) (b : Byte) : Fields.Statement (.imulCompact d a b) := fun _ h => nomatch h

theorem Fields.imadCompact (d : Byte) (a : Byte) (b : Byte) : Fields.Statement (.imadCompact d a b) := fun _ h => nomatch h

theorem Fields.iminCompact (d : Byte) (a : Byte) (b : Byte) : Fields.Statement (.iminCompact d a b) := fun _ h => nomatch h

theorem Fields.imaxCompact (d : Byte) (a : Byte) (b : Byte) : Fields.Statement (.imaxCompact d a b) := fun _ h => nomatch h

theorem Fields.andwCompact (d : Byte) (a : Byte) (b : Byte) : Fields.Statement (.andwCompact d a b) := fun _ h => nomatch h

theorem Fields.orwCompact (d : Byte) (a : Byte) (b : Byte) : Fields.Statement (.orwCompact d a b) := fun _ h => nomatch h

theorem Fields.xorwCompact (d : Byte) (a : Byte) (b : Byte) : Fields.Statement (.xorwCompact d a b) := fun _ h => nomatch h

theorem Fields.andnCompact (d : Byte) (a : Byte) (b : Byte) : Fields.Statement (.andnCompact d a b) := fun _ h => nomatch h

theorem Fields.notwCompact (d : Byte) (a : Byte) (b : Byte) : Fields.Statement (.notwCompact d a b) := fun _ h => nomatch h

theorem Fields.shlCompact (d : Byte) (a : Byte) (b : Byte) : Fields.Statement (.shlCompact d a b) := fun _ h => nomatch h

theorem Fields.shrCompact (d : Byte) (a : Byte) (b : Byte) : Fields.Statement (.shrCompact d a b) := fun _ h => nomatch h

theorem Fields.sarCompact (d : Byte) (a : Byte) (b : Byte) : Fields.Statement (.sarCompact d a b) := fun _ h => nomatch h

theorem Fields.popcCompact (d : Byte) (a : Byte) (b : Byte) : Fields.Statement (.popcCompact d a b) := fun _ h => nomatch h

theorem Fields.clzCompact (d : Byte) (a : Byte) (b : Byte) : Fields.Statement (.clzCompact d a b) := fun _ h => nomatch h

theorem Fields.add64Compact (d : Byte) (a : Byte) (b : Byte) : Fields.Statement (.add64Compact d a b) := fun _ h => nomatch h

theorem Fields.leaCompact (d : Byte) (a : Byte) (b : Byte) : Fields.Statement (.leaCompact d a b) := fun _ h => nomatch h

theorem Fields.faddCompact (d : Byte) (a : Byte) (b : Byte) : Fields.Statement (.faddCompact d a b) := fun _ h => nomatch h

theorem Fields.fsubCompact (d : Byte) (a : Byte) (b : Byte) : Fields.Statement (.fsubCompact d a b) := fun _ h => nomatch h

theorem Fields.fmulCompact (d : Byte) (a : Byte) (b : Byte) : Fields.Statement (.fmulCompact d a b) := fun _ h => nomatch h

theorem Fields.ffmaCompact (d : Byte) (a : Byte) (b : Byte) : Fields.Statement (.ffmaCompact d a b) := fun _ h => nomatch h

theorem Fields.fminCompact (d : Byte) (a : Byte) (b : Byte) : Fields.Statement (.fminCompact d a b) := fun _ h => nomatch h

theorem Fields.fmaxCompact (d : Byte) (a : Byte) (b : Byte) : Fields.Statement (.fmaxCompact d a b) := fun _ h => nomatch h

theorem Fields.frcpCompact (d : Byte) (a : Byte) (b : Byte) : Fields.Statement (.frcpCompact d a b) := fun _ h => nomatch h

theorem Fields.frsqCompact (d : Byte) (a : Byte) (b : Byte) : Fields.Statement (.frsqCompact d a b) := fun _ h => nomatch h

theorem Fields.fsqrtCompact (d : Byte) (a : Byte) (b : Byte) : Fields.Statement (.fsqrtCompact d a b) := fun _ h => nomatch h

theorem Fields.fex2Compact (d : Byte) (a : Byte) (b : Byte) : Fields.Statement (.fex2Compact d a b) := fun _ h => nomatch h

theorem Fields.flg2Compact (d : Byte) (a : Byte) (b : Byte) : Fields.Statement (.flg2Compact d a b) := fun _ h => nomatch h

theorem Fields.ftanhCompact (d : Byte) (a : Byte) (b : Byte) : Fields.Statement (.ftanhCompact d a b) := fun _ h => nomatch h

theorem Fields.hadd2Compact (d : Byte) (a : Byte) (b : Byte) : Fields.Statement (.hadd2Compact d a b) := fun _ h => nomatch h

theorem Fields.hmul2Compact (d : Byte) (a : Byte) (b : Byte) : Fields.Statement (.hmul2Compact d a b) := fun _ h => nomatch h

theorem Fields.hfma2Compact (d : Byte) (a : Byte) (b : Byte) : Fields.Statement (.hfma2Compact d a b) := fun _ h => nomatch h

theorem Fields.dp2Compact (d : Byte) (a : Byte) (b : Byte) : Fields.Statement (.dp2Compact d a b) := fun _ h => nomatch h

theorem Fields.dp4S8Compact (d : Byte) (a : Byte) (b : Byte) : Fields.Statement (.dp4S8Compact d a b) := fun _ h => nomatch h

theorem Fields.dp4E4m3Compact (d : Byte) (a : Byte) (b : Byte) : Fields.Statement (.dp4E4m3Compact d a b) := fun _ h => nomatch h

theorem Fields.dp8S4Compact (d : Byte) (a : Byte) (b : Byte) : Fields.Statement (.dp8S4Compact d a b) := fun _ h => nomatch h

theorem Fields.dp8E2m1Compact (d : Byte) (a : Byte) (b : Byte) : Fields.Statement (.dp8E2m1Compact d a b) := fun _ h => nomatch h

theorem Fields.i2fCompact (d : Byte) (a : Byte) (b : Byte) : Fields.Statement (.i2fCompact d a b) := fun _ h => nomatch h

theorem Fields.f2iCompact (d : Byte) (a : Byte) (b : Byte) : Fields.Statement (.f2iCompact d a b) := fun _ h => nomatch h

theorem Fields.f2fCompact (d : Byte) (a : Byte) (b : Byte) : Fields.Statement (.f2fCompact d a b) := fun _ h => nomatch h

theorem Fields.ldB32Compact (d : Byte) (a : Byte) (b : Byte) : Fields.Statement (.ldB32Compact d a b) := fun _ h => nomatch h

theorem Fields.ldB64Compact (d : Byte) (a : Byte) (b : Byte) : Fields.Statement (.ldB64Compact d a b) := fun _ h => nomatch h

theorem Fields.stB32Compact (d : Byte) (a : Byte) (b : Byte) : Fields.Statement (.stB32Compact d a b) := fun _ h => nomatch h

theorem Fields.stB64Compact (d : Byte) (a : Byte) (b : Byte) : Fields.Statement (.stB64Compact d a b) := fun _ h => nomatch h

theorem Fields.ldsCompact (d : Byte) (a : Byte) (b : Byte) : Fields.Statement (.ldsCompact d a b) := fun _ h => nomatch h

theorem Fields.stsCompact (d : Byte) (a : Byte) (b : Byte) : Fields.Statement (.stsCompact d a b) := fun _ h => nomatch h

theorem Fields.ldcCompact (d : Byte) (a : Byte) (b : Byte) : Fields.Statement (.ldcCompact d a b) := fun _ h => nomatch h

theorem Fields.atomCompact (d : Byte) (a : Byte) (b : Byte) : Fields.Statement (.atomCompact d a b) := fun _ h => nomatch h

theorem Fields.redCompact (d : Byte) (a : Byte) (b : Byte) : Fields.Statement (.redCompact d a b) := fun _ h => nomatch h

theorem Fields.lxchFromCompact (d : Byte) (a : Byte) (b : Byte) : Fields.Statement (.lxchFromCompact d a b) := fun _ h => nomatch h

theorem Fields.lxchFlipCompact (d : Byte) (a : Byte) (b : Byte) : Fields.Statement (.lxchFlipCompact d a b) := fun _ h => nomatch h

theorem Fields.lxchFwdCompact (d : Byte) (a : Byte) (b : Byte) : Fields.Statement (.lxchFwdCompact d a b) := fun _ h => nomatch h

theorem Fields.rsaddCompact (d : Byte) (a : Byte) (b : Byte) : Fields.Statement (.rsaddCompact d a b) := fun _ h => nomatch h

theorem Fields.rssubCompact (d : Byte) (a : Byte) (b : Byte) : Fields.Statement (.rssubCompact d a b) := fun _ h => nomatch h

theorem Fields.rsmulCompact (d : Byte) (a : Byte) (b : Byte) : Fields.Statement (.rsmulCompact d a b) := fun _ h => nomatch h

theorem Fields.rsdivCompact (d : Byte) (a : Byte) (b : Byte) : Fields.Statement (.rsdivCompact d a b) := fun _ h => nomatch h

theorem Fields.rsuniCompact (d : Byte) (a : Byte) (b : Byte) : Fields.Statement (.rsuniCompact d a b) := fun _ h => nomatch h

theorem Fields.rsintCompact (d : Byte) (a : Byte) (b : Byte) : Fields.Statement (.rsintCompact d a b) := fun _ h => nomatch h

theorem Fields.bfxCompact (d : Byte) (a : Byte) (b : Byte) : Fields.Statement (.bfxCompact d a b) := fun _ h => nomatch h

theorem Fields.bfiCompact (d : Byte) (a : Byte) (b : Byte) : Fields.Statement (.bfiCompact d a b) := fun _ h => nomatch h

theorem Fields.bselCompact (d : Byte) (a : Byte) (b : Byte) : Fields.Statement (.bselCompact d a b) := fun _ h => nomatch h

theorem Fields.cvtiCompact (d : Byte) (a : Byte) (b : Byte) : Fields.Statement (.cvtiCompact d a b) := fun _ h => nomatch h

theorem Fields.tick : Fields.Statement (.tick) := fun _ h => nomatch h

theorem Fields.evict (c : Nat) (o : Nat) (la : Nat) : Fields.Statement (.evict c o la) := fun _ h => nomatch h

theorem Fields.readL1 (r : Nat) : Fields.Statement (.readL1 r) := fun _ h => nomatch h

theorem Fields.readHome (r : Nat) : Fields.Statement (.readHome r) := fun _ h => nomatch h

theorem Fields.recall (r : Nat) : Fields.Statement (.recall r) := fun _ h => nomatch h

theorem Fields.writeHome (r : Nat) : Fields.Statement (.writeHome r) := fun _ h => nomatch h

theorem Fields.rmwHome (r : Nat) : Fields.Statement (.rmwHome r) := fun _ h => nomatch h

theorem Fields.ticket (r : Nat) : Fields.Statement (.ticket r) := fun _ h => nomatch h

theorem Fields.sluiceOp (r : Nat) : Fields.Statement (.sluiceOp r) := fun _ h => nomatch h

theorem Fields.grant (r : Nat) : Fields.Statement (.grant r) := fun _ h => nomatch h

theorem Fields.enginePart (e : Nat) (part : Nat) : Fields.Statement (.enginePart e part) := fun _ h => nomatch h

theorem Fields.loadReturn (r : Nat) : Fields.Statement (.loadReturn r) := fun _ h => nomatch h

theorem Fields.gwctReturn (r : Nat) : Fields.Statement (.gwctReturn r) := fun _ h => nomatch h

theorem Fields.hostPathCompletion (r : Nat) (ok : Bool) : Fields.Statement (.hostPathCompletion r ok) := fun _ h => nomatch h

theorem Fields.requestTimeout (r : Nat) : Fields.Statement (.requestTimeout r) := fun _ h => nomatch h

theorem Fields.l2Evict (la : Nat) : Fields.Statement (.l2Evict la) := fun _ h => nomatch h

theorem Fields.lineStoreEvict (la : Nat) : Fields.Statement (.lineStoreEvict la) := fun _ h => nomatch h

theorem Fields.stashLineFill (b : Nat) (w : Nat) (line : Nat) : Fields.Statement (.stashLineFill b w line) := fun _ h => nomatch h

theorem Fields.stashEvict (b : Nat) (w : Nat) (line : Nat) : Fields.Statement (.stashEvict b w line) := fun _ h => nomatch h

theorem Fields.icacheFill (c : Nat) (o : Nat) (pc : Nat) : Fields.Statement (.icacheFill c o pc) := fun _ h => nomatch h

theorem Fields.bankOpDone (c : Nat) (o : Nat) : Fields.Statement (.bankOpDone c o) := fun _ h => nomatch h

theorem Fields.ringBuildDone (c : Nat) (rs : Nat) : Fields.Statement (.ringBuildDone c rs) := fun _ h => nomatch h

theorem Fields.mxuOpComplete (e : Nat) : Fields.Statement (.mxuOpComplete e) := fun _ h => nomatch h

theorem Fields.copyChunkDone (e : Nat) : Fields.Statement (.copyChunkDone e) := fun _ h => nomatch h

theorem Fields.gatherWindowDone (e : Nat) : Fields.Statement (.gatherWindowDone e) := fun _ h => nomatch h

theorem Fields.engineOpComplete (e : Nat) : Fields.Statement (.engineOpComplete e) := fun _ h => nomatch h

theorem Fields.capsuleCommit (r : Nat) : Fields.Statement (.capsuleCommit r) := fun _ h => nomatch h

theorem Fields.capsRetryTimer (c : Nat) : Fields.Statement (.capsRetryTimer c) := fun _ h => nomatch h

theorem Fields.sleepExpire (k : Nat) : Fields.Statement (.sleepExpire k) := fun _ h => nomatch h

theorem Fields.deferEnd (q : Nat) : Fields.Statement (.deferEnd q) := fun _ h => nomatch h

theorem Fields.notify (q : Nat) (prod : Nat) : Fields.Statement (.notify q prod) := fun _ h => nomatch h

theorem Fields.pendingMap (sl : Nat) : Fields.Statement (.pendingMap sl) := fun _ h => nomatch h

theorem Fields.recordConsume (src : Nat) : Fields.Statement (.recordConsume src) := fun _ h => nomatch h

theorem Fields.launchReady (l : Nat) : Fields.Statement (.launchReady l) := fun _ h => nomatch h

theorem Fields.priorityAge (l : Nat) : Fields.Statement (.priorityAge l) := fun _ h => nomatch h

theorem Fields.blockPlacement (l : Nat) : Fields.Statement (.blockPlacement l) := fun _ h => nomatch h

theorem Fields.continuationPlacement (g : Nat) (c : Nat) : Fields.Statement (.continuationPlacement g c) := fun _ h => nomatch h

theorem Fields.carveChange (c : Nat) : Fields.Statement (.carveChange c) := fun _ h => nomatch h

theorem Fields.blockComplete (b : Nat) : Fields.Statement (.blockComplete b) := fun _ h => nomatch h

theorem Fields.blockRetire (b : Nat) : Fields.Statement (.blockRetire b) := fun _ h => nomatch h

theorem Fields.gridComplete (g : Nat) : Fields.Statement (.gridComplete g) := fun _ h => nomatch h

theorem Fields.faultRecordPost (p : Nat) : Fields.Statement (.faultRecordPost p) := fun _ h => nomatch h

theorem Fields.faultqConsWrite (p : Nat) (v : Nat) : Fields.Statement (.faultqConsWrite p v) := fun _ h => nomatch h

theorem Fields.retiredTimerExpire (c : Nat) (ctx : Nat) : Fields.Statement (.retiredTimerExpire c ctx) := fun _ h => nomatch h

theorem Fields.engineAck (c : Nat) (ctx : Nat) (cls : Nat) : Fields.Statement (.engineAck c ctx cls) := fun _ h => nomatch h

theorem Fields.frameWrite (c : Nat) (ctx : Nat) : Fields.Statement (.frameWrite c ctx) := fun _ h => nomatch h

theorem Fields.preemptDone (ctx : Nat) : Fields.Statement (.preemptDone ctx) := fun _ h => nomatch h

theorem Fields.preemptLate (ctx : Nat) : Fields.Statement (.preemptLate ctx) := fun _ h => nomatch h

theorem Fields.contextRestore (ctx : Nat) (c : Nat) : Fields.Statement (.contextRestore ctx c) := fun _ h => nomatch h

theorem Fields.preempt (p : Nat) (ops : CmdOps) : Fields.Statement (.preempt p ops) := fun _ h => nomatch h

theorem Fields.restore (p : Nat) (ops : CmdOps) : Fields.Statement (.restore p ops) := fun _ h => nomatch h

theorem Fields.replay (p : Nat) (ops : CmdOps) : Fields.Statement (.replay p ops) := fun _ h => nomatch h

theorem Fields.abort (p : Nat) (ops : CmdOps) : Fields.Statement (.abort p ops) := fun _ h => nomatch h

theorem Fields.ptimer (p : Nat) (ops : CmdOps) : Fields.Statement (.ptimer p ops) := fun _ h => nomatch h

theorem Fields.invVa (p : Nat) (ops : CmdOps) : Fields.Statement (.invVa p ops) := fun _ h => nomatch h

theorem Fields.invOwner (p : Nat) (ops : CmdOps) : Fields.Statement (.invOwner p ops) := fun _ h => nomatch h

theorem Fields.invIpa (p : Nat) (ops : CmdOps) : Fields.Statement (.invIpa p ops) := fun _ h => nomatch h

theorem Fields.invAll (p : Nat) (ops : CmdOps) : Fields.Statement (.invAll p ops) := fun _ h => nomatch h

theorem Fields.setFaultq (p : Nat) (ops : CmdOps) : Fields.Statement (.setFaultq p ops) := fun _ h => nomatch h

theorem Fields.setTables (p : Nat) (ops : CmdOps) : Fields.Statement (.setTables p ops) := fun _ h => nomatch h

theorem Fields.setSluiceOvf (p : Nat) (ops : CmdOps) : Fields.Statement (.setSluiceOvf p ops) := fun _ h => nomatch h

theorem Fields.setRegion (p : Nat) (ops : CmdOps) : Fields.Statement (.setRegion p ops) := fun _ h => nomatch h

theorem Fields.pageRec (p : Nat) (ops : CmdOps) : Fields.Statement (.pageRec p ops) := fun _ h => nomatch h

theorem Fields.scrub (p : Nat) (ops : CmdOps) : Fields.Statement (.scrub p ops) := fun _ h => nomatch h

theorem Fields.keygen (p : Nat) (ops : CmdOps) : Fields.Statement (.keygen p ops) := fun _ h => nomatch h

theorem Fields.keyload (p : Nat) (ops : CmdOps) : Fields.Statement (.keyload p ops) := fun _ h => nomatch h

theorem Fields.keydrop (p : Nat) (ops : CmdOps) : Fields.Statement (.keydrop p ops) := fun _ h => nomatch h

theorem Fields.attest (p : Nat) (ops : CmdOps) : Fields.Statement (.attest p ops) := fun _ h => nomatch h

theorem Fields.idcert (p : Nat) (ops : CmdOps) : Fields.Statement (.idcert p ops) := fun _ h => nomatch h

theorem Fields.brineSet (p : Nat) (ops : CmdOps) : Fields.Statement (.brineSet p ops) := fun _ h => nomatch h

theorem Fields.brineClose (p : Nat) (ops : CmdOps) : Fields.Statement (.brineClose p ops) := fun _ h => nomatch h

theorem Fields.brineSend (p : Nat) (ops : CmdOps) : Fields.Statement (.brineSend p ops) := fun _ h => nomatch h

theorem Fields.qresume (p : Nat) (ops : CmdOps) : Fields.Statement (.qresume p ops) := fun _ h => nomatch h

theorem Fields.partCreate (p : Nat) (ops : CmdOps) : Fields.Statement (.partCreate p ops) := fun _ h => nomatch h

theorem Fields.partDestroy (p : Nat) (ops : CmdOps) : Fields.Statement (.partDestroy p ops) := fun _ h => nomatch h

theorem Fields.coreAssign (p : Nat) (ops : CmdOps) : Fields.Statement (.coreAssign p ops) := fun _ h => nomatch h

theorem Fields.memAssign (p : Nat) (ops : CmdOps) : Fields.Statement (.memAssign p ops) := fun _ h => nomatch h

theorem Fields.linkKey (p : Nat) (ops : CmdOps) : Fields.Statement (.linkKey p ops) := fun _ h => nomatch h

theorem Fields.sublinkAssign (p : Nat) (ops : CmdOps) : Fields.Statement (.sublinkAssign p ops) := fun _ h => nomatch h

theorem Fields.powerWeight (p : Nat) (ops : CmdOps) : Fields.Statement (.powerWeight p ops) := fun _ h => nomatch h

theorem Fields.reset (p : Nat) (ops : CmdOps) : Fields.Statement (.reset p ops) := fun _ h => nomatch h

theorem Fields.regionAssign (p : Nat) (ops : CmdOps) : Fields.Statement (.regionAssign p ops) := fun _ h => nomatch h

theorem Fields.powerOnReset : Fields.Statement (.powerOnReset) := fun _ h => nomatch h

theorem Fields.brineProdWrite (p : Nat) (ch : Nat) (v : Nat) : Fields.Statement (.brineProdWrite p ch v) := fun _ h => nomatch h

theorem Fields.brineSlotFinish (p : Nat) (ch : Nat) : Fields.Statement (.brineSlotFinish p ch) := fun _ h => nomatch h

theorem Fields.brineDesyncClear (p : Nat) (ch : Nat) : Fields.Statement (.brineDesyncClear p ch) := fun _ h => nomatch h

theorem Fields.powerIntervalStart : Fields.Statement (.powerIntervalStart) := fun _ h => nomatch h

theorem Fields.powerMidpoint : Fields.Statement (.powerMidpoint) := fun _ h => nomatch h

theorem Fields.energyAccrue (p : Nat) : Fields.Statement (.energyAccrue p) := fun _ h => nomatch h

theorem Fields.memoryError (kind : MemErr) : Fields.Statement (.memoryError kind) := fun _ h => nomatch h

theorem Fields.attach (p : Nat) (desc : Nat) : Fields.Statement (.attach p desc) := fun _ h => nomatch h

theorem Fields.detach (p : Nat) : Fields.Statement (.detach p) := fun _ h => nomatch h

theorem Fields.stop (p : Nat) (tgt : DbgTarget) : Fields.Statement (.stop p tgt) := fun _ h => nomatch h

theorem Fields.resume (p : Nat) (tgt : DbgTarget) : Fields.Statement (.resume p tgt) := fun _ h => nomatch h

theorem Fields.step (p : Nat) (tgt : DbgTarget) : Fields.Statement (.step p tgt) := fun _ h => nomatch h

theorem Fields.stepOne (p : Nat) (tgt : DbgTarget) : Fields.Statement (.stepOne p tgt) := fun _ h => nomatch h

theorem Fields.stepWait (p : Nat) (tgt : DbgTarget) : Fields.Statement (.stepWait p tgt) := fun _ h => nomatch h

theorem Fields.trapstep (p : Nat) (tgt : DbgTarget) : Fields.Statement (.trapstep p tgt) := fun _ h => nomatch h

theorem Fields.mailboxPost (p : Nat) : Fields.Statement (.mailboxPost p) := fun _ h => nomatch h

theorem Fields.stallSample (q : Nat) : Fields.Statement (.stallSample q) := fun _ h => nomatch h

theorem Fields.sampleDrain (c : Nat) : Fields.Statement (.sampleDrain c) := fun _ h => nomatch h

theorem Fields.hostWrite (pa : Nat) (data : List Byte) : Fields.Statement (.hostWrite pa data) := fun _ h => nomatch h

theorem Fields.pritchRemoteRequest (port : Nat) (sl : Nat) (ipa : Nat) (acc : RemoteAcc) : Fields.Statement (.pritchRemoteRequest port sl ipa acc) := fun _ h => nomatch h

theorem Fields.sublinkTrain (port : Nat) (sl : Nat) : Fields.Statement (.sublinkTrain port sl) := fun _ h => nomatch h

end Sys2Proof.Laws
end

