-- ==== Sys2Proof/Tests/Slice0.lean ====
section
/-! SUPPORT. The model's own tests: a well-formedness smoke test, words written out from the spec's encodings, and for
every statement with hypotheses a state and operands that meet them all. -/

set_option Elab.async false

namespace Sys2Proof.Tests

open Sys2Proof.Machine

/-! ### Small states -/

/-- T is 100; one thread of owner 1 in lane 0, its page 0 mapped to memory and its page 1 to a synchronisation page. -/
def base : State :=
  let s := (placeUnit .reset []).modCore 0 fun c =>
    { c with
      tlb := [⟨0, 1, 16, 0, 0, 1, true, true, false, true, true, false, false, 0, 0, false⟩,
        ⟨0, 1, 16, 1, 1, 2, true, true, false, true, true, false, true, 0, 0, false⟩] }
  { s.modBlk 0 (fun b => { b with scratch := 65536 }) with cur := ⟨0, [0]⟩, time := 100 }

/-- The base state with another thread. -/
def thr (f : Thread → Thread) : State := base.modThr 0 f

/-- A register of that thread set. -/
def reg (s : State) (i v : Nat) : State := s.modThr 0 fun t => { t with regs := t.regs.set i (BitVec.ofNat 32 v) }

/-- A debug monitor in group 0, which has claimed breakpoints. -/
def monitored : State := base.modPart 0 fun p =>
    { p with dbg := some ⟨0, 0, 0, 0, 0, 0, 0, false, true, 0, 0, 0, 0, 0, 0, [], none, 0, none⟩ }

/-- The thread in a capsule whose record is at page 1, about to run step 0. -/
def inCapsule : State := thr fun t => { t with capsule := some ⟨false, 0x10000, 0, 0x10000 - 12, 2, 0, 1⟩ }

/-- Full headers without and with an immediate. -/
def hd (d a b : BitVec 10) : Hdr := ⟨.full, 7, false, 0, d, a, b, none⟩
def hi (d a : BitVec 10) (v : Word) : Hdr := ⟨.full, 7, false, 0, d, a, 0, some v⟩
def h0 : Hdr := hd 8 2 4

/-- A row whose hypotheses a state meets, with a passing lane. -/
def laneMet (r : LaneRow) (s : State) : Bool :=
  s.clears r.opc r.h r.fm r.prot && s.operandsOk r.h r.fm && !(s.passing r.h).isEmpty
    && (s.laneValues r.h r.fm).all fun kv => r.ok s kv.1 kv.2

def bundleMet (r : BundleRow) (s : State) : Bool :=
  let s0 := r.pre s
  let p := s0.laneValues r.h r.fm
  s0.clears r.opc r.h r.fm r.prot && s0.operandsOk r.h r.fm && !(s0.passing r.h).isEmpty
    && lanesPass r.h (r.out s0 p) (r.ok s0 p) p s0

/-! ### The machine's own steps: for each, a state in which it takes place -/

/-- A row whose precondition a state meets. -/
def met (r : Option EventRow) (s : State) : Bool := r.any fun x => x.ok s

/-- Bytes of memory: an address, a value, how many bytes. -/
def words (xs : List (Nat × Nat × Nat)) : List Host.Cell := xs.foldl
    (fun m x => Memory.write m x.1 (leBytes x.2.2 x.2.1)) []

/-- Partition 0 with the first 16 pages of HBM, its stage 2 and owner 1's stage 1 the identity on them (tables in pages 2,
3 and 15), owner and queue descriptors in page 4, a launch record in page 5 and its kernel descriptor in page 6. -/
def world : State :=
  let s := base.modPart 0 fun p =>
    { p with s2root := 0x20000, ownerTable := 0x40000, queueTable := 0x48000, fqBase := 0x70000, fqLog2 := 6, keyBase := 1, keyCnt := 8 }
  { (s.modSlot 0 0 fun o => { o with s1root := 0x20000 }) with
    mem := words ([(0x20000, 0x30001, 8), (0x30000, 0xF0001, 8)]
        ++ (List.range 16).map (fun i => (0xF0000 + 8 * i, i * 65536 + 0x3B, 8)) ++ [(0x40080, 0x10001, 8), (0x40088, 0x20000, 8),
    (0x48000, 0x50000, 8), (0x48008, 0x51000, 8), (0x51000, 1, 1),
      (0x48010, 0x102, 4), (0x50000, 0x60000, 8), (0x50008, 1, 4), (0x5000C, 0x10001, 4), (0x50010, 0x10020, 4),
      (0x60000, 0x10000, 8), (0x60014, 28, 4)])
    pageParts := (List.range 16).map fun p => (p, 0)
    pageRecs := (List.range 16).map fun p => (p, ⟨0, 0⟩) }

/-- The state with one request of its thread pending. -/
def sends (s : State) (sp : Space) (pa size : Nat) (kind : ReqKind) (f : Req → Req := id) : State :=
  s.addReq (f (s.newReq 0 sp pa pa size kind false))

def loads (s : State) : State := sends s .home 0 4 (.load false true false ⟨8, 1⟩)

/-- Its L1 line 0 valid until T 200. -/
def cached : State := base.modCore 0 fun c => { c with l1 := [⟨0, 0, 0, 0, List.replicate 128 0, 200, 0, 0, false⟩] }

/-- A stash window 0 of one line at scratchpad 0 over global memory 0; its line's state. -/
def windowed (l : StashLine) : State :=
  let s := base.modBlk 0 fun b => { b with windows := [(0, ⟨0, 0, 128, [0], [l], 0, none⟩)] }
  if l.owned then s.modHome 0 fun h => { h with stash := some (0, 0, 0) } else s

/-- A gather of one word into scratchpad. -/
def gathering (f : EngOp → EngOp) : State :=
  { base with engOps := [(0, f
      { thread := 0, order := 0, ctx := 0, grid := 0, core := 0, block := 0, oslot := 0, part := 0, owner := 1
        s1root := 0, kind := .gather false 4 false 0 0 256 1, arrival := none, sent := [], parts := [], counted := [], gwct := 0
        held := none, error := none, delivered := false, complete := false, startSeq := 0 })] }

def shapeBytes : List Byte := List.replicate 8 0 ++ [0x10, 0, 0, 0, 4, 0, 0, 0] ++ List.replicate 48 0

def waits (st : TState) : State := thr fun t => { t with state := st }

/-- A launch of the world's record, ready to be placed. -/
def record0 : LaunchRec := ⟨0x60000, 1, 1, 1, 1, 32, false, 0, false, 0, 0, 0, 0, 0, true⟩
def kernel0 : KernelDesc := ⟨0x10000, 0, 0, 0, 0, 28, true⟩
def launching (f : Launch → Launch) : State :=
  { world with
    launches := [(0, f { mkLaunch world (some 0) 0 0 0 record0 ⟨kernel0, [], [], [0]⟩ 0 none none with readyAt := some 0, boostedAt := 0 })]
    queues := [(0, { Queue.idle with slot := some 0, prod := 1 })]
    qslots := [(0, ⟨some 0, 0⟩)] }

/-- Context 0 of the partition, in a state of pre-emption. -/
def context (f : Ctx → Ctx) (s : State := world) : State := { s with ctxs := [(0, f (.blank 0))] }
def preempted (missing : List (Nat × Nat)) (due : List Nat) : State :=
  context fun c => { c with preemption := some ⟨0, .software, missing, due, false, [], [], [], []⟩ }

/-- Operands of a command. -/
def ops (a0 : BitVec 64 := 0) (a1 : BitVec 64 := 0) (a2 : BitVec 64 := 0) (a3 : BitVec 64 := 0) (a4 : BitVec 64 := 0)
    : CmdOps :=
  ⟨a0, a1, a2, a3, a4, 0, 0⟩

/-- Channel 0 of brine open in a direction, its device counter at 0x8000 and 64 slots. -/
def brined (f : Brine → Brine) : State :=
  world.modPart 0 fun p => { p with brine := [(0, f ⟨true, 0x10000, 0x80000, 0, 0x8000, false, 2, 0, 0, 0, false, [1], none⟩)] }

/-- A request to the host at T 100. -/
def sent : FarReq := ⟨100, 0x400000000000, 0, none, false⟩

/-- A monitor of group 15 attached, its rings of four entries in page 9. -/
def debugged (f : Dbg → Dbg := id) : State :=
  world.modPart 0 fun p => { p with dbg := some (f ⟨0x90000, 1, 0x10000, 0x90400, 0x90800, 0x90C00, 4, false, false, 2, 2, 2, 0, 0, 15, [], none, 0, none⟩) }

def group0 : DbgTarget := ⟨false, 0, 0, 0, 0⟩

theorem met_evict : met (memoryEvent (.evict 0 0 0)) base = true := by decide +kernel
theorem met_readL1 : met (memoryEvent (.readL1 0)) (loads cached) = true := by decide +kernel
theorem met_readHome : met (memoryEvent (.readHome 0)) (loads base) = true := by decide +kernel
theorem met_recall : met (memoryEvent (.recall 0)) (loads (windowed ⟨true, true, true, false⟩)) = true := by decide +kernel
theorem met_writeHome : met (memoryEvent (.writeHome 0)) (sends base .home 0 4 (.store [1, 2, 3, 4])) = true := by
  decide +kernel
theorem met_rmwHome : met (memoryEvent (.rmwHome 0)) (sends base .home 0 4 (.atomic 0 0 1 0 none false)) = true := by
  decide +kernel
theorem met_ticket : met (memoryEvent (.ticket 0)) (sends base .home 0 4 (.atomic 0 0 1 0 none true)) = true := by
  decide +kernel
theorem met_sluiceOp : met (memoryEvent (.sluiceOp 0)) (sends base .sluice 0 4 (.load false false false ⟨8, 1⟩)) = true := by
  decide +kernel
theorem met_grant :
    met (memoryEvent (.grant 0)) (sends (windowed .lost) .home 0 128 (.own 0 0 0)) = true := by
  decide +kernel
theorem met_loadReturn :
    met (memoryEvent (.loadReturn 0)) (sends base .home 0 4 (.load false true false ⟨8, 1⟩) fun q =>
    { q with state := .performed 5 0 }) = true := by
  decide +kernel
theorem met_gwctReturn :
    met (memoryEvent (.gwctReturn 0)) (sends base .home 0 4 (.store [1, 2, 3, 4]) fun q =>
    { q with state := .performed 0 101 }) = true := by
  decide +kernel
theorem met_hostPathCompletion :
    ([true, false].all fun ok => met (memoryEvent (.hostPathCompletion 0 ok))
    (sends base .hostPath 0x400000000000 4 (.store [1, 2, 3, 4]))) = true ∧
    met (memoryEvent (.hostPathCompletion 0 true))
    (let s := sends base .hostPath 0x400000000000 4 (.store [1, 2, 3, 4]); { s with reqs := [], late := s.reqs }) = true := by
  decide +kernel
theorem met_requestTimeout :
    met (memoryEvent (.requestTimeout 0))
    { (sends base .hostPath 0x400000000000 4 (.store [1, 2, 3, 4])) with time := 50000 } = true := by
  decide +kernel
theorem met_stashLineFill :
    ([false, true].all fun o => met (memoryEvent (.stashLineFill 0 0 0)) (windowed ⟨o, false, false, true⟩)) = true := by
  decide +kernel
theorem met_stashEvict : met (memoryEvent (.stashEvict 0 0 0)) (windowed ⟨true, true, true, false⟩) = true := by decide +kernel
theorem met_capsuleCommit :
    met (memoryEvent (.capsuleCommit 0)) (sends { inCapsule with mem := words [(0x10000, 1, 4), (0x10010, 0x11, 1)] }
    .sluice 0x10000 64 (.commit 1 0 [(216, 7)] none none)) = true := by
  decide +kernel

theorem met_tick : met (machineEvent .tick) base = true := by decide +kernel
theorem met_enginePart : met (unitEvent (.enginePart 0 0)) (gathering id) = true := by decide +kernel
theorem met_icacheFill : met (unitEvent (.icacheFill 0 0 0x10000)) (waits (.stalled .fetch)) = true := by decide +kernel
theorem met_bankOpDone :
    met (unitEvent (.bankOpDone 0 0)) (base.modSlot 0 0 fun o => { o with busy := true }) = true := by
  decide +kernel
theorem met_ringBuildDone :
    met (unitEvent (.ringBuildDone 0 0)) (base.modCore 0 fun c =>
    { c with rings := c.rings.set 0 { Ring.none with queue := [⟨1, 1, 0, 0, some (List.replicate 7 0)⟩], issued := 1 } }) = true := by
  decide +kernel
theorem met_mxuOpComplete :
    met (unitEvent (.mxuOpComplete 0)) { base with mxOps := [(0, ⟨0, 0, 0, 0, .mzero, [0], 8, none, 0, 0, 0, 0, [], [], [], [], 0⟩)] } = true := by
  decide +kernel
theorem met_copyChunkDone :
    met (unitEvent (.copyChunkDone 0)) (gathering fun o =>
    { o with kind := .tcopy shapeBytes false 0 false 0 [], parts := [(0, 0)] }) = true := by
  decide +kernel
theorem met_gatherWindowDone :
    met (unitEvent (.gatherWindowDone 0)) (gathering fun o => { o with parts := [(0, 0)] }) = true := by
  decide +kernel
theorem met_engineOpComplete :
    met (unitEvent (.engineOpComplete 0)) (gathering fun o => { o with parts := [(0, 0)] }) = true := by
  decide +kernel
theorem met_capsRetryTimer : met (unitEvent (.capsRetryTimer 0)) { base with time := 128 } = true := by decide +kernel
theorem met_sleepExpire : met (unitEvent (.sleepExpire 0)) (waits (.waiting (.sleep 100))) = true := by decide +kernel
theorem met_deferEnd :
    met (unitEvent (.deferEnd 0)) (base.modQuad 0 fun q => { q with deferred := [(⟨0, [0]⟩, 90)] }) = true := by
  decide +kernel

theorem met_notify : met (dispatchEvent (.notify 0 1)) world = true := by decide +kernel
theorem met_pendingMap :
    met (dispatchEvent (.pendingMap 0)) { world with queues := [(0, { Queue.idle with pending := true })] } = true := by
  decide +kernel
theorem met_recordConsume : met (dispatchEvent (.recordConsume 0)) { launching id with launches := [] } = true := by
  decide +kernel
theorem met_recordConsume_child :
    met (dispatchEvent (.recordConsume 257))
    { launching id with childQs := [(1, ⟨1, [⟨5, 0x50000, 0, 0, 1, false⟩]⟩)] } = true := by
  decide +kernel
theorem met_launchReady :
    met (dispatchEvent (.launchReady 0)) (launching fun l => { l with readyAt := none }) = true := by
  decide +kernel
theorem met_priorityAge : met (dispatchEvent (.priorityAge 0)) { launching id with time := 65536 } = true := by
  decide +kernel
theorem met_blockPlacement : met (dispatchEvent (.blockPlacement 0)) (launching id) = true := by decide +kernel
theorem met_continuationPlacement :
    met (dispatchEvent (.continuationPlacement 0 0))
    (launching fun l => { l with pool := [⟨⟨.blank, List.replicate 224 0, 0, [], 0, 0, 0x10000, 0⟩, 0⟩] }) = true := by
  decide +kernel
theorem met_carveChange :
    met (dispatchEvent (.carveChange 0)) (world.modCore 0 fun c => { c with carveTo := some 1 }) = true := by
  decide +kernel
theorem met_blockComplete :
    met (dispatchEvent (.blockComplete 0))
    { launching id with threads := [], groups := [], blocks := [(0, Block.blank)] } = true := by
  decide +kernel
theorem met_blockRetire :
    met (dispatchEvent (.blockRetire 0)) { launching id with threads := [], groups := [], blocks := [(0, { Block.blank with retired := true })] } = true := by
  decide +kernel
theorem met_gridComplete :
    met (dispatchEvent (.gridComplete 0))
    { (launching fun l => { l with nextBlock := 1 }) with threads := [], groups := [], blocks := [] } = true := by
  decide +kernel

theorem met_faultRecordPost :
    met (contextEvent (.faultRecordPost 0)) (world.modPart 0 fun p => { p with held := [FaultRec.blank] }) = true := by
  decide +kernel
theorem met_faultqConsWrite :
    met (contextEvent (.faultqConsWrite 0 1)) (world.modPart 0 fun p => { p with fqProd := 1 }) = true := by
  decide +kernel
theorem met_retiredTimerExpire :
    met (contextEvent (.retiredTimerExpire 0 0)) (context fun c => { c with timers := [(0, 5, 5)] }) = true := by
  decide +kernel
theorem met_engineAck : met (contextEvent (.engineAck 0 0 0)) (preempted [(0, 0)] [0]) = true := by decide +kernel
theorem met_preemptDone : met (contextEvent (.preemptDone 0)) (preempted [] []) = true := by decide +kernel
theorem met_preemptLate : met (contextEvent (.preemptLate 0)) { preempted [(0, 0)] [] with time := 42500 } = true := by
  decide +kernel
theorem met_contextRestore :
    met (contextEvent (.contextRestore 0 0))
    (context (fun c => { c with suspended := some .eligible, frames := [(0, ⟨0, [(0, { Block.blank with retired := true })], [], [], [], [], [], [], 0, [], 0, 0, []⟩)] }) (launching id)) = true := by
  decide +kernel

theorem met_preempt : met (contextCommand (.preempt 0 (ops 0x10000))) (context id) = true := by decide +kernel
theorem met_restore : met (contextCommand (.restore 0 ops)) (context id) = true := by decide +kernel
theorem met_replay : met (contextCommand (.replay 0 (ops 1))) world = true := by decide +kernel
theorem met_abort : met (contextCommand (.abort 0 ops)) (context id) = true := by decide +kernel
theorem met_ptimer : met (contextCommand (.ptimer 0 (ops 0 100))) (context id) = true := by decide +kernel
theorem met_invVa : met (invalidateCommand (.invVa 0 (ops 1 0x10000 1))) world = true := by decide +kernel
theorem met_invOwner : met (invalidateCommand (.invOwner 0 (ops 1))) world = true := by decide +kernel
theorem met_invIpa : met (invalidateCommand (.invIpa 0 (ops 0x10000 1))) world = true := by decide +kernel
theorem met_invAll : met (invalidateCommand (.invAll 0 ops)) world = true := by decide +kernel
theorem met_setFaultq : met (tableCommand (.setFaultq 0 (ops 0x70000 6))) world = true := by decide +kernel
theorem met_setTables : met (tableCommand (.setTables 0 (ops 0x40000 0x48000))) world = true := by decide +kernel
theorem met_setSluiceOvf : met (tableCommand (.setSluiceOvf 0 (ops 0 0x80000 16))) world = true := by decide +kernel
theorem met_setRegion :
    met (tableCommand (.setRegion 0 (ops 0 0x90000)))
    { world with mem := world.mem ++ words [(0x90000, 0xC00000000000, 8), (0x9001C, 1, 4)], regions := (List.replicate 16 Region.empty).set 0 { Region.empty with part := some 0 } } = true := by
  decide +kernel
theorem met_pageRec : met (tableCommand (.pageRec 0 (ops 0x10000 0 0))) world = true := by decide +kernel
theorem met_scrub : met (tableCommand (.scrub 0 (ops 0x10000))) world = true := by decide +kernel
theorem met_qresume :
    met (tableCommand (.qresume 0 ops)) { world with queues := [(0, { Queue.idle with halted := true })] } = true := by
  decide +kernel
theorem met_keygen : met (keyCommand (.keygen 0 (ops 1))) world = true := by decide +kernel
theorem met_keyload : met (keyCommand (.keyload 0 (ops 1 0x80000))) world = true := by decide +kernel
theorem met_keydrop : met (keyCommand (.keydrop 0 (ops 1))) world = true := by decide +kernel
theorem met_attest : met (keyCommand (.attest 0 (ops 0x80000 0x80400))) world = true := by decide +kernel
theorem met_idcert : met (keyCommand (.idcert 0 (ops 0x80000 4096))) world = true := by decide +kernel
theorem met_brineSet : met (brineEvent (.brineSet 0 (ops 1 0x80000))) world = true := by decide +kernel
theorem met_brineClose : met (brineEvent (.brineClose 0 ops)) (brined id) = true := by decide +kernel
theorem met_brineSend :
    ([none, some (.send 1 sent [] [])].all fun st => met (brineEvent (.brineSend 0 (ops 0 1 0x80000 16)))
      (brined fun b => { b with toHost := true, busy := st })) = true := by
  decide +kernel
theorem met_brineProdWrite : met (brineEvent (.brineProdWrite 0 0 1)) world = true := by decide +kernel
theorem met_brineSlotFinish :
    ([none, some (.fetch sent), some (.write 1 [(0x80000, [1])] 0), some (.write 1 [] 0), some (.publish 1 sent)].all fun st =>
      met (brineEvent (.brineSlotFinish 0 0)) (brined fun b => { b with prod := 1, busy := st })) = true := by
  decide +kernel
theorem met_brineDesyncClear :
    met (brineEvent (.brineDesyncClear 0 0)) (brined fun b => { b with desync := true }) = true := by
  decide +kernel
theorem met_partCreate :
    met (packageEvent (.partCreate 16 (ops 1 0xA0000)))
    { world with mem := words [(0xA0010, 100, 4), (0xA0014, 0x01000004, 4), (0xA0018, 10, 4), (0xA001C, 10, 4)] } =
    true := by
  decide +kernel
theorem met_partDestroy : met (packageEvent (.partDestroy 16 ops)) world = true := by decide +kernel
theorem met_coreAssign : met (packageEvent (.coreAssign 16 (ops 1 0))) world = true := by decide +kernel
theorem met_memAssign : met (packageEvent (.memAssign 16 (ops 0x10000 0))) world = true := by decide +kernel
theorem met_linkKey : met (packageEvent (.linkKey 16 (ops 3 1))) world = true := by decide +kernel
theorem met_sublinkAssign : met (packageEvent (.sublinkAssign 16 (ops 0 0 0 0 5))) world = true := by decide +kernel
theorem met_powerWeight : met (packageEvent (.powerWeight 16 (ops 0 2))) world = true := by decide +kernel
theorem met_reset : met (packageEvent (.reset 16 (ops 1))) world = true := by decide +kernel
theorem met_regionAssign : met (packageEvent (.regionAssign 16 (ops 0 0))) world = true := by decide +kernel
theorem met_powerOnReset : met (packageEvent .powerOnReset) world = true := by decide +kernel
theorem met_memoryError :
    ([MemErr.corrected, .block 0, .spad 0 64, .l1 0 0 0, .regs 0 8].all fun k => met (machineEvent (.memoryError k)) cached) = true ∧
    met (machineEvent (.memoryError (.check 0))) { base with pageRecs := [(0, ⟨2, 0⟩)] } = true := by decide +kernel
theorem met_hostWrite : ([0, 0x400000000000].all fun pa => met (machineEvent (.hostWrite pa [1])) base) = true := by
  decide +kernel
theorem met_pritchRemoteRequest :
    ([RemoteAcc.read 4, .write [1], .atomic 0 0 1 0].all fun a => met (packageEvent (.pritchRemoteRequest 0 0 0 a))
    (world.modPkg fun g => { g with sublinks := [(0, ⟨some 0, 5, true⟩)] })) = true := by
  decide +kernel
theorem met_sublinkTrain :
    met (packageEvent (.sublinkTrain 0 0)) (world.modPkg fun g => { g with sublinks := [(0, ⟨some 0, 5, false⟩)] }) =
    true := by
  decide +kernel
theorem met_powerIntervalStart : met (machineEvent .powerIntervalStart) { base with time := 42500 } = true := by
  decide +kernel
theorem met_powerMidpoint : met (machineEvent .powerMidpoint) { base with time := 21250 } = true := by decide +kernel
theorem met_energyAccrue :
    met (machineEvent (.energyAccrue 0)) (base.modPart 0 fun p => { p with balance := 1 }) = true := by
  decide +kernel
theorem met_attach :
    met (machineEvent (.attach 0 0x90000))
    { world with mem := world.mem ++ words [(0x90000, 0x10000, 6), (0x90006, 1, 2), (0x90020, 0x210801, 8)], cores := world.cores ++ [(1, { Core.scrubbed with part := some 0 })] } = true := by
  decide +kernel
theorem met_detach : met (machineEvent (.detach 0)) debugged = true := by decide +kernel
theorem met_stop : met (machineEvent (.stop 0 group0)) debugged = true := by decide +kernel
theorem met_resume : met (machineEvent (.resume 0 group0)) debugged = true := by decide +kernel
theorem met_step : met (machineEvent (.step 0 group0)) debugged = true := by decide +kernel
theorem met_stepOne : met (machineEvent (.stepOne 0 group0)) debugged = true := by decide +kernel
theorem met_stepWait : met (machineEvent (.stepWait 0 group0)) debugged = true := by decide +kernel
theorem met_trapstep : met (machineEvent (.trapstep 0 group0)) debugged = true := by decide +kernel
theorem met_mailboxPost :
    met (machineEvent (.mailboxPost 0)) (debugged fun d => { d with held := [⟨1, 0, 0, 0, 0, 0, 0, 0, 0⟩] }) = true := by
  decide +kernel
theorem met_stallSample : met (machineEvent (.stallSample 0)) debugged = true := by decide +kernel
theorem met_sampleDrain :
    met (machineEvent (.sampleDrain 0)) (debugged.modCore 0 fun c => { c with samples := [⟨0, 0, 0, 0, 0, 0, 0, 0⟩] })
    = true := by
  decide +kernel

/-- Line stores that hold the lines below n. -/
def storedLines (n : Nat) : State := { base with sluices := List.replicate 4 ⟨[], [], [], 0, List.range n, []⟩ }

theorem storedLines_at (n d : Nat) (h : d < 4) : ((storedLines n).sluiceAt d).lines = List.range n := by
  interval_cases d <;> rfl

theorem lineStoreEvict_row (s : State) (la : Nat) : met (memoryEvent (.lineStoreEvict la)) s =
    (decide ((s.sluiceAt (sluiceOf s (la * 128))).lines.length = 28160)
      && (s.sluiceAt (sluiceOf s (la * 128))).lines.getLast? == some la) := rfl

theorem met_lineStoreEvict : ∃ n la, met (memoryEvent (.lineStoreEvict la)) (storedLines n) = true := by
  obtain ⟨n, hn⟩ : ∃ n, n = 28159 := ⟨_, rfl⟩
  have h : sluiceOf base (n * 128) < 4 := by rw [hn]; decide +kernel
  refine ⟨n + 1, n, ?_⟩
  rw [lineStoreEvict_row, show sluiceOf (storedLines (n + 1)) (n * 128) = sluiceOf base (n * 128) from rfl, storedLines_at _ _ h,
    List.length_range, List.getLast?_range]
  simp [hn]

theorem fold5_lt (v : Nat) : fold5 v < 32 := by
  have h : ∀ (l : List Nat) a, a < 2 ^ 5 → l.foldl (fun acc i => acc ^^^ field v (5 * i) 5) a < 2 ^ 5 := by
    intro l
    induction l with
    | nil => intro a h; exact h
    | cons x xs ih => intro a h; exact ih _ (Nat.xor_lt_two_pow h (Nat.mod_lt _ (by decide)))
  exact h _ 0 (by decide)

theorem setKey_lt (la : Nat) (h : la < 4915201) : setKey base la < 327680 := by
  have hh : base.homeAddr (la * 128) = la * 128 := by
    have h1 : base.pkg.hbmBytes = 824633720832 := rfl
    unfold State.homeAddr prange
    rw [if_pos (by omega)]
  have hd : dieOf base (la * 128) < 4 := by
    have h1 : base.pkg.stackCount = 12 := rfl
    have h2 : ∀ i < 12, base.pkg.stacks.getD i 0 / 3 < 4 := by decide +kernel
    exact h2 _ (by rw [h1]; omega)
  have hf := fold5_lt (field (la * 128) 7 33)
  have hm : Config.l2Set la % 2560 < 2560 := Nat.mod_lt _ (by decide)
  rw [setKey, State.sliceOf, hh, homeSlice]
  omega

/-- Some 16 lines lie in one set of one slice. -/
theorem one_set : ∃ xs : List Nat, xs.Nodup ∧ xs.length = 16 ∧ ∃ k, ∀ x ∈ xs, setKey base x = k := by
  obtain ⟨k, -, hk⟩ := Finset.exists_lt_card_fiber_of_mul_lt_card_of_maps_to (s := Finset.range 4915201)
    (t := Finset.range 327680) (f := setKey base) (n := 15)
    (fun la h => Finset.mem_range.2 (setKey_lt la (Finset.mem_range.1 h))) (by rw [Finset.card_range, Finset.card_range]; decide)
  obtain ⟨u, hu, hc⟩ := Finset.exists_subset_card_eq (show 16 ≤ _ from hk)
  refine ⟨u.toList, u.nodup_toList, by simpa using hc, k, fun x hx => ?_⟩
  exact (Finset.mem_filter.1 (hu (by simpa using hx))).2

/-- Lines resident in L2. -/
def holding (xs : List Nat) : State := { base with homes := xs.map fun x => (x, ⟨0, none, true, 15, 0, 0⟩) }

theorem lru_mem (xs : List (Nat × Nat)) (h : xs ≠ []) : ∃ y ∈ xs, lruLine xs = some y.1 := by
  cases xs with
  | nil => exact absurd rfl h
  | cons x l =>
    have g : ∀ (l : List (Nat × Nat)) m, (∃ y ∈ m :: l, l.foldl (fun m y => if y.2 < m.2 then y else m) m = y) := by
      intro l
      induction l with
      | nil => intro m; exact ⟨m, by simp, rfl⟩
      | cons z zs ih =>
        intro m
        obtain ⟨y, hy, e⟩ := ih (if z.2 < m.2 then z else m)
        refine ⟨y, ?_, e⟩
        split at hy <;> simp only [List.mem_cons] at hy ⊢ <;> tauto
    obtain ⟨y, hy, e⟩ := g l x
    exact ⟨y, hy, by rw [lruLine, e]⟩

theorem l2Evict_row (s : State) (la : Nat) : met (memoryEvent (.l2Evict la)) s = ((s.homes.find la).any fun _ =>
    decide ((s.setLines la).length = 16) && lruLine (s.setLines la) == some la) := rfl

theorem met_l2Evict : ∃ xs la, met (memoryEvent (.l2Evict la)) (holding xs) = true := by
  obtain ⟨xs, hn, hl, k, hk⟩ := one_set
  have hs : ∀ la ∈ xs, (holding xs).setLines la = xs.map fun x => (x, 0) := by
    intro la h
    have hf : (xs.map fun x => ((x, ⟨0, none, true, 15, 0, 0⟩) : Nat × HomeLine)).filter
        (fun h => h.2.resident && setKey base h.1 == setKey base la) = xs.map fun x => (x, ⟨0, none, true, 15, 0, 0⟩) := by
      rw [List.filter_eq_self]
      intro y hy
      obtain ⟨x, hx, rfl⟩ := List.mem_map.1 hy
      simp [hk x hx, hk la h]
    show ((xs.map fun x => ((x, ⟨0, none, true, 15, 0, 0⟩) : Nat × HomeLine)).filter
        (fun h => h.2.resident && setKey base h.1 == setKey base la)).map (fun h => (h.1, h.2.used)) = _
    rw [hf, List.map_map]; rfl
  obtain ⟨y, hy, e⟩ := lru_mem (xs.map fun x => (x, 0)) (by intro h; simp at h; subst h; cases hl)
  obtain ⟨la, hla, rfl⟩ := List.mem_map.1 hy
  have hfind : ((holding xs).homes.find la).isSome = true := by
    have g : ∀ l : List Nat, la ∈ l → (Tbl.find (l.map fun x => ((x, ⟨0, none, true, 15, 0, 0⟩) : Nat × HomeLine)) la).isSome = true := by
      intro l
      induction l with
      | nil => intro h; cases h
      | cons z zs ih =>
        intro h
        rw [List.map_cons, Tbl.find]
        split
        · rfl
        · exact ih ((List.mem_cons.1 h).resolve_left (fun e => by simp_all))
    exact g xs hla
  refine ⟨xs, la, ?_⟩
  obtain ⟨v, hv⟩ := Option.isSome_iff_exists.1 hfind
  rw [l2Evict_row, hv, hs la hla, e]
  simp [hl]

/-- The cells from an address on that hold a function's bytes. -/
def cells (F : Nat → Byte) (a : Nat) : Nat → List Host.Cell
  | 0 => []
  | n + 1 => if F a = 0 then cells F (a + 1) n else (a, F a) :: cells F (a + 1) n

theorem get_cells (F : Nat → Byte) (n : Nat) : ∀ a x, a ≤ x → x < a + n → Memory.get (cells F a n) x = F x := by
  have low : ∀ n a x, x < a → Tbl.find (cells F a n) x = none := by
    intro n
    induction n with
    | zero => intros; rfl
    | succ n ih =>
      intro a x h
      unfold cells
      split
      · exact ih _ _ (by omega)
      · rw [Tbl.find, if_neg (by omega)]; exact ih _ _ (by omega)
  induction n with
  | zero => intro a x h1 h2; omega
  | succ n ih =>
    intro a x h1 h2
    unfold cells
    rcases Nat.lt_or_ge a x with h | h
    · split
      · exact ih _ _ h (by omega)
      · rw [Memory.get, Tbl.find, if_neg (by omega)]; exact ih _ _ h (by omega)
    · obtain rfl : a = x := by omega
      split
      · rename_i h0; rw [h0, Memory.get, low _ _ _ (by omega)]; rfl
      · rw [Memory.get, Tbl.find, if_pos rfl]; rfl

/-- Bytes of the tables: at page 2 every entry names the table at page 3, at page 3 every entry is a leaf of host memory. -/
def tableByte (a : Nat) : Byte :=
  (leBytes 8 (if a < 0x30000 then 0x30001 else 0x40000000003B)).getD (a % 8) 0

/-- Frame 0 is due, over a memory. -/
def framed (m : List Host.Cell) : State := { preempted [] [0] with mem := m }

/-- A memory that maps every intermediate address of the partition to host memory. -/
def Mapped (m : List Host.Cell) : Prop := ∀ x, 0x20000 ≤ x → x < 0x40000 → Memory.get m x = tableByte x

theorem framed_hbm (m : List Host.Cell) (x : Nat) (h : x < 0x40000) : prange (framed m) x = .hbm := by
  have h1 : (framed m).pkg.hbmBytes = 824633720832 := rfl
  unfold prange
  rw [if_pos (by omega)]

theorem framed_entry {m : List Host.Cell} (hm : Mapped m) (a e : Nat) (h1 : 0x20000 ≤ a) (h2 : a + 8 ≤ 0x40000) (h8 : a % 8 = 0)
    (he : (if a < 0x30000 then 0x30001 else 0x40000000003B) = e) : leNat ((framed m).homeBytes a 8) = e := by
  have hs : (framed m).stashOf (a / 128) = none := rfl
  have hb : (framed m).homeBytes a 8 = leBytes 8 e := by
    rw [State.homeBytes, hs]
    show (List.range 8).map (fun i => (framed m).byteAt (a + i)) = leBytes 8 e
    apply List.ext_getElem
    · simp [leBytes]
    · intro i h3 h4
      have hi : i < 8 := by simpa using h3
      rw [List.getElem_map, List.getElem_range, State.byteAt, framed_hbm _ _ (by omega)]
      show Memory.get m (a + i) = _
      rw [hm _ (by omega) (by omega), tableByte, show (a + i) % 8 = i by omega,
        show (if a + i < 0x30000 then 0x30001 else 0x40000000003B) = e by rw [← he]; congr 1; simp; omega]
      simp [List.getD, h4]
  rw [hb]
  split at he <;> subst he <;> rfl

theorem framed_read {m : List Host.Cell} (hm : Mapped m) (a e : Nat) (h1 : 0x20000 ≤ a) (h2 : a + 8 ≤ 0x40000) (h8 : a % 8 = 0)
    (he : (if a < 0x30000 then 0x30001 else 0x40000000003B) = e) :
    (framed m).isPoisoned a 8 = false ∧ (framed m).tableHeld a = true ∧ leNat ((framed m).homeBytes a 8) = e := by
  refine ⟨rfl, ?_, framed_entry hm a e h1 h2 h8 he⟩
  have h3 : a / 65536 = 2 ∨ a / 65536 = 3 := by omega
  rw [State.tableHeld, framed_hbm _ _ (by omega)]
  rcases h3 with h3 | h3 <;> rw [h3] <;> rfl

theorem framed_walk {m : List Host.Cell} (hm : Mapped m) (ipa : Nat) : (framed m).stage2 0 ipa = .ok (leafOf 2 0x40000000003B ipa) := by
  have hr : ((framed m).partAt 0).s2root = 0x20000 := rfl
  have i1 : tableIndex 1 ipa < 64 := Nat.mod_lt _ (by decide)
  have i2 : tableIndex 2 ipa < 8192 := Nat.mod_lt _ (by decide)
  have r1 := framed_read hm (0x20000 + 8 * tableIndex 1 ipa) 0x30001 (by omega) (by omega) (by omega) (if_pos (by omega))
  have r2 := framed_read hm (0x30000 + 8 * tableIndex 2 ipa) 0x40000000003B (by omega) (by omega) (by omega) (if_neg (by omega))
  have e1 : bit 0x30001 0 = true ∧ entryMalformed true 1 0x30001 = false ∧ bit 0x30001 1 = false ∧ field 0x30001 16 32 * 65536 = 0x30000 := by decide +kernel
  have e2 : bit 0x40000000003B 0 = true ∧ entryMalformed true 2 0x40000000003B = false ∧ bit 0x40000000003B 1 = true := by decide +kernel
  have hb : badOutput (framed m) 0 (leafOf 2 0x40000000003B ipa) = false := by
    have hk : (leafOf 2 0x40000000003B ipa).key = 0 := by simp only [leafOf]; decide +kernel
    have ho : prange (framed m) (leafOf 2 0x40000000003B ipa).oa = .host := by
      have h1 : (framed m).pkg.hbmBytes = 824633720832 := rfl
      have h2 : (leafOf 2 0x40000000003B ipa).oa = 0x400000000000 + ipa % 536870912 := by
        simp only [leafOf, leafBits]; congr 1
      rw [prange, h2, if_neg (by omega), if_pos (by simp; omega)]
    rw [badOutput, hk, ho]; rfl
  simp [State.stage2, State.walk2, walkFind, walkFrom, hr, r1, r2, e1, e2, hb, Except.map]

theorem framed_open {m : List Host.Cell} (hm : Mapped m) (a n : Nat) : (framed m).ipaFault 0 a n .store = none := by
  rw [State.ipaFault, List.findSome?_eq_none_iff]
  intro i _
  have h : ∀ ipa, (framed m).ipaToPa 0 ipa .store = .ok (leafOf 2 0x40000000003B ipa).oa := by
    intro ipa
    have hw : (leafOf 2 0x40000000003B ipa).wr = true := by simp only [leafOf]; decide +kernel
    have ho : prange (framed m) (leafOf 2 0x40000000003B ipa).oa = .host := by
      have h1 : (framed m).pkg.hbmBytes = 824633720832 := rfl
      have h2 : (leafOf 2 0x40000000003B ipa).oa = 0x400000000000 + ipa % 536870912 := by
        simp only [leafOf, leafBits]; congr 1
      rw [prange, h2, if_neg (by omega), if_pos (by simp; omega)]
    simp [State.ipaToPa, framed_walk hm, hw, State.recordOk, ho]
  simp only [h]

theorem framed_due (m : List Host.Cell) : ((framed m).ctxAt 0).part = 0
    ∧ ((framed m).ctxAt 0).preemption.any (fun q => (framed m).frameOpen 0 0 q) = true := ⟨rfl, rfl⟩

theorem frameWrite_row (s : State) : met (contextEvent (.frameWrite 0 0)) s = (s.ctxAt 0).preemption.any fun q =>
    s.frameOpen 0 0 q := rfl

theorem framed_shut (ipa : Nat) : ∃ w, (framed []).ipaToPa 0 ipa .store = .error (.fault 3 ipa w) := by
  have hr : ((framed []).partAt 0).s2root = 0x20000 := rfl
  have i1 : tableIndex 1 ipa < 64 := Nat.mod_lt _ (by decide)
  have hp := framed_hbm [] (0x20000 + 8 * tableIndex 1 ipa) (by omega)
  have h2 : (0x20000 + 8 * tableIndex 1 ipa) / 65536 = 2 := by omega
  have ht : (framed []).tableHeld (0x20000 + 8 * tableIndex 1 ipa) = true := by rw [State.tableHeld, hp, h2]; rfl
  have hb : leNat ((framed []).homeBytes (0x20000 + 8 * tableIndex 1 ipa) 8) = 0 := by
    rw [State.homeBytes, show (framed []).stashOf ((0x20000 + 8 * tableIndex 1 ipa) / 128) = none from rfl]
    have : ∀ i ∈ List.range 8, (framed []).byteAt (0x20000 + 8 * tableIndex 1 ipa + i) = 0 := by
      intro i hi
      have := List.mem_range.1 hi
      rw [State.byteAt, framed_hbm _ _ (by omega)]; rfl
    show leNat ((List.range 8).map fun i => (framed []).byteAt (0x20000 + 8 * tableIndex 1 ipa + i)) = 0
    rw [List.map_congr_left this]; rfl
  have e0 : bit 0 0 = false := by decide +kernel
  have hq : (framed []).isPoisoned (0x20000 + 8 * tableIndex 1 ipa) 8 = false := rfl
  simp [State.ipaToPa, State.stage2, State.walk2, walkFind, walkFrom, hr, hq, ht, hb, e0, Except.map]

/-- A frame whose place is mapped, and one whose place is not. -/
theorem met_frameWrite : (∃ m, met (contextEvent (.frameWrite 0 0)) (framed m) = true ∧ ∀ a n, (framed m).ipaFault 0 a n .store = none)
    ∧ met (contextEvent (.frameWrite 0 0)) (framed []) = true ∧ ∀ a, ((framed []).ipaFault 0 a 64 .store).isSome = true := by
  obtain ⟨n, hn⟩ : ∃ n, n = 0x20000 := ⟨_, rfl⟩
  refine ⟨⟨cells tableByte 0x20000 n, ?_, framed_open fun x h1 h2 => get_cells _ _ _ _ h1 (by omega)⟩, ?_, fun a => ?_⟩
  · rw [frameWrite_row]; exact (framed_due _).2
  · rw [frameWrite_row]; exact (framed_due _).2
  · obtain ⟨n, hn⟩ : ∃ n, (a % 65536 + 64 + 65535) / 65536 = n + 1 := ⟨_, (Nat.succ_pred_eq_of_pos (by omega)).symm⟩
    obtain ⟨w, hw⟩ := framed_shut a
    rw [State.ipaFault, hn, List.range_succ_eq_map]
    simp [hw]

/-! ### The instructions: for each, operands and a state at which it completes -/

/-- A row of one of the tables whose hypotheses the state meets, in a bundle of one passing lane. -/
def wordMet (i : Instr) (s : State) : Bool :=
  ([intRow, floatRow, packedRow, ringRow, ownRow].any fun T => (T (expand i)).any (laneMet · s))
    || ([accessRow, controlRow, capsuleRow, engineRow, systemRow].any fun T => (T (expand i)).any (bundleMet · s))

def atH (s : State) : State := s.modThr 0 fun t => { t with handler := true }

theorem met_words_1 : ((
  [.mov h0 false, .movi h0 false, .sel h0 0 false, .iadd h0 false false, .isub h0 false false, .iadc h0 0 false,
   .imul h0 false false false, .imulh h0 false, .imad h0 false false false, .imin h0 false, .imax h0 false,
   .iabs h0 false, .ineg h0 false, .andw h0, .orw h0, .xorw h0, .andn h0, .notw h0, .shl h0, .shr h0, .sar h0,
   .rotl h0, .bfx h0 false, .bfi h0] : List Instr).all (wordMet · base)) = true := by decide +kernel

theorem met_words_2 : ((
  [.popc h0, .clz h0, .ctz h0, .brev h0, .icmp h0 0 false, .plop (hd 320 321 322) 8, .lea h0 0 false,
   .add64 h0 false, .cmp64 h0 0 false, .cvti h0 0 0 false, .bsel h0, .fadd h0 0, .fsub h0 0, .fmul h0 0, .ffma h0 0,
   .fmin h0, .fmax h0, .fcmp h0 0, .fclass h0 0, .frnd h0 0, .frcp h0 0, .frsq h0 0, .fsqrt h0 0, .fex2 h0 0] : List
    Instr).all (wordMet · base)) = true := by decide +kernel

theorem met_words_3 : ((
  [.flg2 h0 0, .fsin h0 0, .fcos h0 0, .ftanh h0 0, .f2f h0 0 0 0, .i2f h0 0 0 0, .f2i h0 0 0 0, .hadd2 h0 0 false,
   .hmul2 h0 0 false, .hfma2 h0 0 false, .dp2 h0 0 false, .dp4 h0 0 false 0, .dp8 h0 0 false 0, .sclf h0 0 false,
   .pack h0 1 0 0, .unpk h0 1, .rsadd h0 0, .rssub h0 0, .rsmul h0 0, .rsdiv h0 0, .rsneg h0, .rsrcp h0 0,
   .rssqr h0 0, .rsfrom h0 0 false] : List Instr).all (wordMet · base)) = true := by decide +kernel

theorem met_words_4 : ((
  [.rslo h0 0, .rshi h0 0, .rsuni h0, .rsint h0, .rstest h0 0, .rspack h0 0, .rsunpk h0, .bra h0,
   .brx h0, .call h0 false, .ret h0, .loop h0, .exit h0, .yieldI h0, .nop h0, .sleep h0, .bar h0 0, .bara h0 0,
   .cjoin h0, .rjen h0 0, .rjwait h0 0, .rjleave h0 0, .lxch h0 0 0 0] : List Instr).all (wordMet · base)) = true :=
    by decide +kernel

theorem met_words_5 : ((
  [.vote h0 0, .segred h0 0 0, .scan h0 0 0 false, .matchL h0 false, .lead h0, .bcast h0, .ld h0 0 false 0 false,
   .st h0 0 false 0, .lds h0 0, .sts h0 0, .ldc h0 0, .ldf h0 false, .pref h0 false, .cinv h0 0, .swb h0 0,
   .sinv h0 0 false, .atom h0 0 0 0 0, .atomc h0 false 0 0, .red h0 0 0 false 0, .atomsc h0 0 1, .atoms h0 0 0,
   .fence h0 0, .waitg h0, .armw h0] : List Instr).all (wordMet · base)) = true := by decide +kernel

theorem met_words_6 : ((
  [.arrv h0, .mma (hd 64 8 4) 0 false false 0 0, .mmai (hd 64 8 4) 0 false false 0 false,
   .mmab (hd 64 8 256) 0 false false 0 0, .mmas (hd 64 8 256) 0 false false 0 0 false, .tmv h0 0 0 false,
   .mzero h0 false 0, .mopr h0, .mwait h0 0, .rcfence h0 false, .cpwait h0, .gath h0 0 false false,
   .scat h0 0 false false, .hsave h0 0, .hstat h0 0, .hxst h0,
   .hxclr h0 0, .hxrd h0, .hxwr h0, .hxcfg h0] : List Instr).all (wordMet · base)) = true := by decide +kernel

theorem met_words_7 : ((
  [.mfs (hd 8 332 0), .mts (hd 349 0 4), .dbgmsg h0, .pmark h0, .pmrd h0, .clkrd h0, .ipref h0, .qntf h0, .tokrd h0 0]
    : List Instr).all (wordMet · base)) = true := by decide +kernel

theorem met_compact_1 : ((
  [.movCompact 8 16 20, .iaddCompact 8 16 20, .isubCompact 8 16 20, .imulCompact 8 16 20, .imadCompact 8 16 20,
   .iminCompact 8 16 20, .imaxCompact 8 16 20, .andwCompact 8 16 20, .orwCompact 8 16 20, .xorwCompact 8 16 20,
   .andnCompact 8 16 20, .notwCompact 8 16 20, .shlCompact 8 16 20, .shrCompact 8 16 20, .sarCompact 8 16 20,
   .popcCompact 8 16 20, .clzCompact 8 16 20, .add64Compact 8 16 20, .leaCompact 8 16 20, .faddCompact 8 16 20,
   .fsubCompact 8 16 20, .fmulCompact 8 16 20] : List Instr).all (wordMet · base)) = true := by decide +kernel

theorem met_compact_2 : ((
  [.ffmaCompact 8 16 20, .fminCompact 8 16 20, .fmaxCompact 8 16 20, .frcpCompact 8 16 20, .frsqCompact 8 16 20,
   .fsqrtCompact 8 16 20, .fex2Compact 8 16 20, .flg2Compact 8 16 20, .ftanhCompact 8 16 20, .hadd2Compact 8 16 20,
   .hmul2Compact 8 16 20, .hfma2Compact 8 16 20, .dp2Compact 8 16 20, .dp4S8Compact 8 16 20, .dp4E4m3Compact 8 16 20,
   .dp8S4Compact 8 16 20, .dp8E2m1Compact 8 16 20, .i2fCompact 8 16 20, .f2iCompact 8 16 20, .f2fCompact 8 16 20,
   .ldB32Compact 8 16 20, .ldB64Compact 8 16 20] : List Instr).all (wordMet · base)) = true := by decide +kernel

theorem met_compact_3 : ((
  [.stB32Compact 8 16 20, .stB64Compact 8 16 20, .ldsCompact 8 16 20, .stsCompact 8 16 20, .ldcCompact 8 16 20,
   .atomCompact 8 16 20, .redCompact 8 16 20, .lxchFromCompact 8 16 20, .lxchFlipCompact 8 16 20,
   .lxchFwdCompact 8 16 20, .rsaddCompact 8 16 20, .rssubCompact 8 16 20, .rsmulCompact 8 16 20,
   .rsdivCompact 8 16 20, .rsuniCompact 8 16 20, .rsintCompact 8 16 20, .bfxCompact 8 16 20, .bfiCompact 8 16 20,
   .bselCompact 8 16 20, .cvtiCompact 8 16 20] : List Instr).all (wordMet · base)) = true := by decide +kernel

/-- The thread has read the words that its instruction reads itself. -/
def hasRead (n v : Nat) : State := thr fun t => { t with memo := (List.range n).map fun i => (i, v) }

theorem met_rsring : wordMet (.rsring h0 0) (hasRead 7 0x40004000) = true := by decide +kernel

theorem met_hset : ([.hset h0 0, .hload h0 0] : List Instr).all (wordMet · (hasRead 1 0)) = true := by decide +kernel

theorem met_hxld : wordMet (.hxld h0) (hasRead 96 0) = true := by decide +kernel

theorem met_hnext : wordMet (.hnext (hd 8 256 0) 0 0) base = true := by decide +kernel

theorem met_launch : wordMet (.launch h0) (base.modGrp 0 fun G => { G with leader := some 0 }) = true := by decide +kernel

theorem met_smap : wordMet (.smap h0 0) (reg base 4 256) = true := by decide +kernel

theorem met_waitc : wordMet (.waitc (hi 8 2 0x40) 1 0) (base.modBlk 0 fun b => { b with scratch := 0 }) = true := by
    decide +kernel

theorem met_caps : wordMet (.caps (hd 320 10 0) 3) (reg base 10 0x10000) = true := by decide +kernel

theorem met_cld : wordMet (.cld (hd 218 216 219)) inCapsule = true := by decide +kernel

theorem met_cst : wordMet (.cst (hd 218 216 219)) inCapsule = true := by decide +kernel

theorem met_cend : wordMet (.cend h0)
    (thr fun t => { t with pc := 0x10018, capsule := some ⟨false, 0x10000, 2, 0x10000 - 12, 2, 0, 1⟩ }) = true := by decide +kernel

theorem met_cadopt : wordMet (.cadopt (hi 0 10 0x40)) (reg base 10 0x10000) = true := by decide +kernel

theorem met_cqry : wordMet (.cqry (hd 8 10 0)) (reg base 10 0x10000) = true := by decide +kernel

theorem met_tcopy : wordMet (.tcopy (hd 8 2 10) false 0 false false)
    (base.modCore 0 fun c => { c with records := [(base.recordKey 0 0, shapeBytes)] }) = true := by decide +kernel

theorem met_xret : wordMet (.xret h0 true)
    ((atH base).modThr 0 fun t => { t with trap := { t.trap with xpc := 0x100, xstat := 0x300 } }) = true := by
  decide +kernel

theorem met_mfsT : wordMet (.mfsT (hd 8 0 4) 0) (atH monitored) = true := by decide +kernel

theorem met_mtsT : wordMet (.mtsT (hd 8 2 4) 0) (atH monitored) = true := by decide +kernel

theorem met_bkpt : wordMet (.bkpt h0) monitored = true := by decide +kernel

/-! ### The other statements: what meets their hypotheses -/

/-- Two threads of the group, in lanes 0 and 1, in one bundle. -/
def pair (f g : Thread → Thread) : State :=
  let s := (thr f).modGrp 0 fun G => { G with live := 3 }
  { s with threads := s.threads.put 1 (g (s.thr 0)), cur := ⟨0, [0, 1]⟩ }

theorem met_encode : ([.iadd (hi 8 8 1000) false false, .add64Compact 4 6 2, .mfs ⟨.medium, 7, false, 0, 0, 332, 0,
    none⟩] : List Instr).all
    (fun i => i.wf && (i.hdr?.isSome || i.compact?.isSome)) = true := by decide +kernel

theorem met_noOpcode (i : Instr) (_ : i.hdr?.isSome = true) : i.opc ≠ field 0xFFE 2 10 := by
  cases i <;> simp only [Instr.opc] <;> decide

theorem met_units : 7 % 4 = 3 ∧ 0xFFE % 4 = 2 ∧ 0x1001 % 4 = 1 ∧ field 0x1001 12 2 ≠ 0 ∧ 0x44 % 4 = 0
    ∧ 0xFFD % 4 = 1 ∧ field 0xFFD 12 2 = 0 ∧ field 0xFFD 2 10 = field 0xFFE 2 10 := by decide

/-- FADD with RND 6, ICMP with COND 7, CVTI with ST 6. -/
theorem met_reserved : ([(0x080, 59, 36, 6 * 2 ^ 56), (0x01C, 60, 35, 7 * 2 ^ 56), (0x021, 63, 32, 6 * 2 ^ 59)].all fun x =>
    let w := 2 + 4 * x.1 + x.2.2.2
    w % 4 == 2 && !bit w 46 && !bit w 95 && field w 2 10 == x.1 && (5 < field w 56 3 || 5 < field w 59 3)
      && field w x.2.1 x.2.2.1 == 0) = true := by decide +kernel

/-- IADD x8, x8, 1000 is the next instruction of the base state. -/
def atIadd : State :=
  { placeUnit base [0x0E, 0x70, 0x08, 0x20, 0, 0, 0, 0xE8, 3, 0, 0, 0x80] with time := 100 }

/-- The state in which its bundle is considered. -/
def considered : State := ({ atIadd with fresh := atIadd.fresh + 1, agenda := [] } : State).endDeferrals 0

theorem met_fetch :
    let b : Bundle := ⟨0, [0]⟩
    let s1 := considered
    let bytes : List Byte := [0x0E, 0x70, 0x08, 0x20, 0, 0, 0, 0xE8, 3, 0, 0, 0x80]
    let i : Instr := .iadd (hi 8 8 1000) false false
    atIadd.agenda = [.issue b] ∧ ({ atIadd with fresh := atIadd.fresh + 1, agenda := [] } : State).allows b = true ∧ s1.fetchFor 0 = some (.unit bytes 12) ∧ decodeBytes bytes =
    .instr i 12
      ∧ s1.collectiveOk b i = true ∧ s1.trainsInOrder b i = true ∧ s1.deferralDue b i = false := by decide +kernel

theorem met_fetch_exec : ∃ t, exec (.iadd (hi 8 8 1000) false false)
    { considered.touchCode 0 (considered.grpOf 0).oslot (considered.thr 0).pc with cur := ⟨0, [0]⟩ } = .next t := ⟨_, rfl⟩

theorem met_invariants : Memory.wf State.reset.mem ∧ State.reset.reqsBelow := by
  constructor
  · decide
  · intro r h; cases h

theorem met_invariant_step : ∃ t, step { State.reset with agenda := [.act .tick] } = .next t := ⟨_, rfl⟩

/-- A RESET to confidential mode is the next command of the management ring. -/
def resetting : State :=
  { State.reset with
    agenda := [.command 16]
    pkg := { State.reset.pkg with mgmtProd := 1, mgmtBase := 0 }
    mem := words [(0, 71, 4), (8, 1, 8)] }

theorem met_mode : resetting.pkg.confidential = false ∧ ∃ t, step resetting = .next t ∧ t.pkg.confidential = true :=
  ⟨rfl, _, rfl, by decide +kernel⟩

theorem met_trap : base.clears 0x2C6 h0 fmB anyone = true ∧ base.operandsOk h0 fmB = true ∧ base.clears 0x2CA h0 fmB
    anyone = true
    ∧ (∀ k ∈ base.passing h0, (base.thr k).handler = false ∧ base.claimed k = false)
    ∧ monitored.clears 0x2CA h0 fmB anyone = true ∧ (∀ k ∈ monitored.passing h0, monitored.claimed k = true)
    ∧ base.passing h0 = [0] ∧ monitored.passing h0 = [0] := by decide +kernel

theorem met_trapEntry : base.threads.find 0 = some (base.thr 0) ∧ (base.thr 0).handler = false ∧
    (base.thr 0).latch.length < 8
    ∧ (base.thr 0).pc < 2 ^ 48 ∧ (base.thr 0).chain = ((base.thr 0).latch.length != 0) ∧ 19 < 2 ^ 32 ∧ 3 < 4 := by
    decide +kernel

theorem met_trapAtHandler : (atH base).threads.find 0 = some ((atH base).thr 0) ∧ ((atH base).thr 0).handler = true
    ∧ (atH base).clears 0x2C6 h0 fmB anyone = true ∧ (atH base).operandsOk h0 fmB = true ∧ (atH base).passing h0 = [0]
    ∧ (intRow (.iadd (hd 8 232 2) false false)).any (fun r => ascending (atH base).cur.threads
        && (decodeTrap (atH base) r.opc r.h r.fm anyone 0).isSome) = true := by
  decide +kernel

/-- IADD c2, c0, c3 at the capsule's expected step, its guard passing and failing. -/
def stepMet (r : LaneRow) (s : State) : Bool :=
  ascending s.cur.threads && s.cur.threads.all (r.atStep s) && s.operandsOk r.h r.fm
    && lanesPass r.h (r.stepOut s) (fun u k v => (r.sends s u k v).isSome) (r.turns s) s
    && (s.laneValues r.h r.fm).all fun kv => r.ok s kv.1 kv.2

theorem met_capsuleStep : (intRow (.iadd (hd 218 216 219) false false)).any (stepMet · inCapsule) = true
    ∧ (intRow (.iadd { hd 218 216 219 with gp := 0 } false false)).any (stepMet · inCapsule) = true
    ∧ (floatRow (.fadd (hd 218 216 219) 0)).any (stepMet · inCapsule) = true
    ∧ inCapsule.passing (hd 218 216 219) = [0] ∧ inCapsule.passing { hd 218 216 219 with gp := 0 } = [] := by decide +kernel

theorem met_doorbell : world.hasRing 0 = true ∧ (world.partAt 0).hasQueue 0 = true ∧ bit 1 0 = true
    ∧ field (2 ^ 62) 62 2 = 1 ∧ field (2 ^ 63) 62 2 = 2 := by decide +kernel

/-- A32 names no register here: every thread of the bundle fails check 4, or, for XRET at user privilege, check 3. -/
def badD (opc : Nat) (h : Hdr) (fm : Form) (prot : State → Nat → Bool) : Bool :=
  base.cur.threads.all fun k => (base.threads.find k).isSome && !(base.thr k).handler && !(base.thr k).chain && !h.chain
    && (decodeTrap base opc h fm prot k).isSome

theorem met_decodeChecks : (intRow (.iadd (hd 8 232 2) false false)).any (fun r => badD r.opc r.h r.fm anyone) = true
    ∧ (floatRow (.fadd (hd 8 232 2) 0)).any (fun r => badD r.opc r.h r.fm anyone) = true
    ∧ (accessRow (.ld (hd 8 232 4) 0 false 0 false)).any (fun r => badD r.opc r.h r.fm anyone) = true
    ∧ (systemRow (.xret h0 false)).any (fun r => badD r.opc r.h r.fm r.prot) = true := by decide +kernel

theorem met_decodeChecks_pre : (systemRow (.xret h0 false)).map (·.pre) = some id ∧ base.reqsBelow
    ∧ ascending base.cur.threads = true := ⟨rfl, (by intro r h; cases h), by decide +kernel⟩

/-- IADD x8, x[k0 + 0], x2: the index of lane 0 is at its limit, that of lane 1 below it. -/
def indexed : State := pair (fun t => { t with ks := [0x0404, 0, 0, 0] }) fun t => { t with ks := [0x0403, 0, 0, 0] }

theorem met_index : indexed.clears 0x003 (hd 8 512 2) fmWVV anyone = true ∧ (hd 8 512 2).chain = false
    ∧ (indexed.cur.threads.all fun k => !(indexed.thr k).chain && !(indexed.thr k).handler) = true
    ∧ (indexed.passing (hd 8 512 2)).map (fun k => (indexed.operands k (hd 8 512 2) fmWVV).toOption.isSome) =
    [false, true] := by
  decide +kernel

theorem met_uniform : (hd 300 8 0).d.toNat = 256 + 44 ∧ base.clears 0x000 (hd 300 8 0) fmWV anyone = true
    ∧ base.operandsOk (hd 300 8 0) fmWV = true ∧ (hd 300 8 0).chain = false ∧ (hd 300 8 0).nowb = false
    ∧ (base.cur.threads.all fun k => !(base.thr k).chain) = true ∧ base.groups.find 0 = some (base.grp 0)
    ∧ (base.grp 0).s.length = 64 ∧ (base.laneValues (hd 300 8 0) fmWV).map (·.1) = [0] := by decide +kernel

/-- UDIVT is on, the bundle is one of two live threads' and the group's UDIV is set. -/
def diverged : State :=
  ((base.modSlot 0 0 fun o => { o with udivt := true }).modGrp 0 fun G => { G with udiv := true })

theorem met_udiv : 256 ≤ (hd 8 300 0).a.toNat ∧ (hd 8 300 0).a.toNat < 320 ∧ diverged.groups.find 0 = some
    (diverged.grp 0)
    ∧ diverged.udivTraps 0 = true ∧ ascending diverged.cur.threads = true ∧ (hd 8 300 0).chain = false
    ∧ diverged.passing (hd 8 300 0) = [0]
    ∧ (diverged.cur.threads.all fun k => groupOf k == 0 && (diverged.threads.find k).isSome && !(diverged.thr k).handler
        && !(diverged.thr k).chain && (decodeTrap diverged 0x000 (hd 8 300 0) fmWV anyone k).isNone
        && !diverged.busy k (hd 8 300 0) fmWV && !(diverged.thr k).inCapsule) = true := by decide +kernel

/-- x2 is the greatest finite number; its double overflows, which fpc makes an event that traps. -/
def overflowing : State := reg (reg (thr fun t => { t with fpc := 0xFFFFFFFF }) 2 0x7F7FFFFF) 4 0x7F7FFFFF

theorem met_event : overflowing.clears 0x080 h0 fmWVV anyone = true ∧ overflowing.operandsOk h0 fmWVV = true ∧
    h0.chain = false
    ∧ overflowing.passing h0 = [0]
    ∧ ((overflowing.operands 0 h0 fmWVV).toOption.any fun v =>
        let c := (overflowing.thr 0).rctx (laneOf 0) 0 0
        (nonfinite (overflowing.thr 0).fpc [(valAdd .f32 c (c.f32 v.a) (c.f32 v.b)).2] 0).isSome) = true := by
  decide +kernel

/-- x2:x3 is 1. -/
def odd : State := reg base 2 1

theorem met_misaligned : (let fm : Form := ⟨szCls .w 0, .x2, .v, false, true, [], false⟩
      odd.clears 0x180 h0 fm anyone && odd.operandsOk h0 fm && (odd.passing h0 == [0])
        && (odd.operands 0 h0 fm).toOption.any fun v => effAddr v.a v.b % szBytes 0 != 0) = true
    ∧ (let fm : Form := ⟨szCls .v 0, .x2, .v, true, false, [], false⟩
      odd.clears 0x181 h0 fm anyone && odd.operandsOk h0 fm && (odd.passing h0 == [0])
        && (odd.operands 0 h0 fm).toOption.any fun v => effAddr v.a v.b % szBytes 0 != 0) = true
    ∧ (odd.cur.threads.all fun k => !(odd.thr k).handler && !(odd.thr k).inCapsule) = true := by decide +kernel

theorem met_misaligned_reqs : odd.reqsBelow := by intro r h; cases h

/-- A store, and an atomic, of one word that waits at its home. -/
def storing : State := sends base .home 124 4 (.store [1, 2, 3, 4])
def adding : State := sends base .home 124 4 (.atomic 0 0 1 0 none false)

theorem met_store : (storing.openReq 0 .home).isSome = true ∧ 124 % 128 + 4 ≤ 128 ∧ 124 + 4 ≤ storing.pkg.hbmBytes
    ∧ storing.stashOf (124 / 128) = none ∧ storing.undef.find (124 / 65536) = none ∧ storing.regions.all
    (fun g => !g.en) = true
    ∧ (adding.openReq 0 .home).isSome = true ∧ adding.stashOf (124 / 128) = none ∧ adding.isPoisoned 124 4 = false
    ∧ ∀ i, i < 4 → storing.isRecord (124 + i) = false ∧ adding.isRecord (124 + i) = false := by
  decide +kernel

theorem met_store_wf : Memory.wf storing.mem := by decide

theorem met_hxclr : (let fm : Form := ⟨.none, .none, .none, false, false, [], false⟩
      base.clears 0x2C2 h0 fm anyone && base.operandsOk h0 fm && ((base.laneValues h0 fm).map (·.1) == [0])
        && !base.bankBusy 0) = true ∧ (base.grpOf 0).oslot < (base.coreAt (coreOf 0)).oslots.length := by decide +kernel

theorem met_pmark : base.clears 0x2CC h0 fmB anyone = true ∧ base.operandsOk h0 fmB = true
    ∧ (base.laneValues h0 fmB).map (·.1) = [0] := by decide +kernel

/-- Barrier 1 of the group has the one thread enrolled and arrived. -/
def rejoined : State :=
  (waits (.waiting (.rejoin 1))).modGrp 0 fun G => { G with enrolled := G.enrolled.set 1 1, arrived := G.arrived.set 1 1 }

theorem met_rejoin : rejoined.groups.find 0 = some (rejoined.grp 0) ∧ 1 < (rejoined.grp 0).enrolled.length
    ∧ 1 < (rejoined.grp 0).arrived.length ∧ (rejoined.grp 0).enrolled.getD 1 0 ≠ 0
    ∧ (rejoined.grp 0).arrived.getD 1 0 = (rejoined.grp 0).enrolled.getD 1 0
    ∧ (base.grp 0).enrolled.getD 1 0 = 0 ∧ (rejoined.thr 0).isStopped = false
    ∧ ((rejoined.modThr 0 fun t => { t with stopped := true }).thr 0).isStopped = true := by decide +kernel

/-- The rules of R94 to R102 at the base state. -/
def ruleMet (r : Option LaneRow) : Bool := r.any (laneMet · base)

theorem met_rules : (ruleMet (arithRule (.iadd h0 false false)) && ruleMet (carryRule (.iadc h0 0 false))
    && ruleMet (logicRule (.sel h0 0 false)) && ruleMet (fieldRule (.bfi h0)) && ruleMet (countRule (.clz h0))
    && ruleMet (compareRule (.plop (hd 320 321 322) 8)) && ruleMet (addressRule (.lea h0 2 true))
    && ruleMet (convertRule (.cvti h0 2 0 false)) && ruleMet (selectRule (.bsel h0))) = true := by decide +kernel

/-! ### Well-formedness: a term that each check refuses -/

theorem wf_good : (Instr.iadd (hi 8 8 1000) false false).wf = true := by decide
theorem wf_compactLength : (Instr.iadd ⟨.compact, 7, false, 0, 8, 8, 0, none⟩ false false).wf = false := by decide
theorem wf_mediumImmediate : (Instr.iadd ⟨.medium, 7, false, 0, 8, 8, 0, some 1⟩ false false).wf = false := by decide
theorem wf_mediumModifier : (Instr.ld ⟨.medium, 7, false, 0, 8, 2, 4, none⟩ 0 false 0 true).wf = false := by decide
theorem wf_immediateModifier : (Instr.ld (hi 8 2 0) 0 false 0 true).wf = false := by decide
theorem wf_hint : (Instr.iadd ⟨.full, 7, false, 1, 8, 8, 4, none⟩ false false).wf = false := by decide
theorem wf_noImmediate : (Instr.mov (hi 8 0 1) false).wf = false := by decide
theorem wf_needsImmediate : (Instr.movi h0 false).wf = false := by decide
theorem wf_reserved : (Instr.fadd h0 6).wf = false := by decide
theorem wf_compactByte : (Instr.iaddCompact 232 0 0).wf = false ∧ (Instr.iaddCompact 231 0 0).wf = true := by decide

/-! ### Words written out from the encodings of 03 R67–R80 -/

/-- A unit's bytes decode to an instruction. -/
def reads (bs : List Byte) (i : Instr) : Bool := decodeBytes bs == .instr i bs.length

/-- A medium header with no guard and no hint. -/
def hm (d a b : BitVec 10) : Hdr := ⟨.medium, 7, false, 0, d, a, b, none⟩

theorem word_shl : reads [0x4A, 0x70, 0x02, 0, 0, 0, 0, 0x02, 0, 0, 0, 0x80] (.shl (hi 2 0 2)) = true := by decide
theorem word_icmp : reads [0x71, 0xC0, 0x01, 0x35, 0x00, 0x3C, 0x00, 0x04] (.icmp (hm 320 3 240) 1 false) = true := by
    decide
theorem word_f2f : reads [0xA4, 0x0C, 0x0B, 0x00] (.f2fCompact 12 11 0) = true := by decide
theorem word_rsmul : reads [0x09, 0xC4, 0x15, 0x30, 0x00, 0x01, 0x00, 0x04] (.rsmul (hm 5 3 4) 1) = true := by decide
theorem word_bra : reads [0x02, 0x05, 0, 0, 0, 0, 0, 0x2C, 0, 0, 0, 0x80]
    (.bra ⟨.full, 0, false, 0, 0, 0, 0, some 0x2C⟩) = true := by decide
theorem word_loop : reads [0x12, 0x75, 0x06, 0, 0, 0, 0, 0xE0, 0xFF, 0xFF, 0xFF, 0x80] (.loop (hi 6 0 0xFFFFFFE0)) =
    true := by decide
theorem word_exit : reads [0x15, 0xC5, 0x01, 0, 0, 0, 0, 0] (.exit (hm 0 0 0)) = true := by decide
theorem word_ld : reads [0xA8, 0x08, 0x04, 0x00] (.ldB32Compact 8 4 0) = true := by decide
theorem word_atom : reads [0xC4, 0x09, 0x04, 0x0A] (.atomCompact 9 4 10) = true := by decide
theorem word_cst : reads [0x1E, 0x78, 0xDA, 0x60, 0xC3, 0x0D, 0, 0, 0, 0, 0, 0] (.cst (hd 218 216 220)) = true := by
    decide
theorem word_mma : reads [0x01, 0xC9, 0x81, 0x00, 0x44, 0x01, 0x00, 0x80] (.mma (hm 32 64 5) 0 false false 1 0) = true
    := by decide
theorem word_hnext : reads [0x19, 0xCA, 0xA1, 0x40, 0x11, 0, 0, 0x30] (.hnext (hm 40 276 0) 0 3) = true := by decide
theorem word_hxst : reads [0x01, 0xCB, 0x01, 0xC0, 0, 0, 0, 0] (.hxst (hm 0 12 0)) = true := by decide

/-! ### Single steps with results worked out by hand from the spec -/

/-- The state after one step of a unit placed at reset, registers set. -/
def ran (bs : List Byte) (rs : List (Nat × Nat) := []) : State :=
  match step (rs.foldl (fun s r => reg s r.1 r.2) (State.reset.withFetchWord (8 * bs.length) (leNat bs))) with
  | .next t => t
  | _ => .reset

def x (s : State) (i : Nat) : Nat := ((s.thr 0).regs.getD i 0).toNat

/-- R94: IADD x8, x8, 1000 wraps. -/
theorem test_iadd : (let t := ran [0x0E, 0x70, 0x08, 0x20, 0, 0, 0, 0xE8, 3, 0, 0, 0x80] [(8, 0xFFFFFFFF)]
    (x t 8, (t.thr 0).pc)) = (999, 0x1000C) := by decide +kernel

/-- R100: ADD64 x4:x5, x6:x7, x2:x3 carries into the high word. -/
theorem test_add64 : (let t := ran [0x44, 0x04, 0x06, 0x02] [(6, 0xFFFFFFFF), (7, 1), (2, 1), (3, 2)]
    (x t 4, x t 5, (t.thr 0).pc)) = (0, 4, 0x10004) := by decide +kernel

/-- R96: SHL x2, x0, 2. -/
theorem test_shl : x (ran [0x4A, 0x70, 0x02, 0, 0, 0, 0, 0x02, 0, 0, 0, 0x80] [(0, 0xC0000001)]) 2 = 4 := by
  decide +kernel

/-- R104: BRA with offset 0x2C goes past under p0 = 0 and to the target under p7. -/
theorem test_bra : ((ran [0x02, 0x05, 0, 0, 0, 0, 0, 0x2C, 0, 0, 0, 0x80]).thr 0).pc = 0x1000C
    ∧ ((ran [0x02, 0x75, 0, 0, 0, 0, 0, 0x2C, 0, 0, 0, 0x80]).thr 0).pc = 0x1002C := by decide +kernel

/-- R105: CALL x2:x3 with offset 0xD8 leaves the address past it in x2:x3. -/
theorem test_call : (let t := ran [0x0A, 0x75, 0x02, 0, 0, 0, 0, 0xD8, 0, 0, 0, 0x80] [(3, 7)]
    (x t 2, x t 3, (t.thr 0).pc)) = (0x1000C, 0, 0x100D8) := by decide +kernel

/-- R107: EXIT ends the group's last thread, and with it the group. -/
theorem test_exit : (let t := ran [0x15, 0xC5, 0x01, 0, 0, 0, 0, 0]
    (t.threads.find 0).isNone && (t.groups.find 0).isNone) = true := by decide +kernel

/-- R99: ICMP.ne p0, x3, zero. -/
theorem test_icmp : [0, 5].map (fun v => ((ran [0x71, 0xC0, 0x01, 0x35, 0x00, 0x3C, 0x00, 0x04] [(3, v)]).thr
    0).preds.getLsbD 0)
    = [false, true] := by decide +kernel

/-- R76, R222, R223: opcode 0x3FF has no entry: ILLOP with WHY 1 at %tvec + 64, its unit of 12 bytes noted in xstat. -/
theorem test_illop : (let t := (ran [0xFE, 0x7F, 0, 0, 0, 0, 0, 0, 0, 0, 0, 0]).thr 0
    (t.pc, t.handler, t.trap.xpc, t.trap.xcause, t.trap.xinfo, t.trap.xstat)) = (64, true, 0x10000, 1, 0x13FF, 0x300)
    := by
  decide +kernel

end Sys2Proof.Tests
end

/-! ## Turns of distinct lanes, and traps at user privilege -/

section
namespace Sys2Proof.Machine

/-! ### Folds over lanes -/

/-- Turns of distinct lanes, each of which changes its own thread alone: an invariant that every turn keeps holds in the
end, each thread is as its own turn left it, and every thread without a turn is as before. -/
theorem foldl_turns {α β : Type} {st : β → State} {key : α → Nat} {f : β → α → β} {s : State} {I : β → Prop}
    {R : α → Option Thread → Prop} (l : List α) (hn : (l.map key).Nodup)
    (hf : ∀ a ∈ l, ∀ b, I b → (st b).threads.find (key a) = s.threads.find (key a) →
      I (f b a) ∧ R a ((st (f b a)).threads.find (key a))
        ∧ ∀ j, j ≠ key a → (st (f b a)).threads.find j = (st b).threads.find j)
    (b : β) (hI : I b) (hs : ∀ a ∈ l, (st b).threads.find (key a) = s.threads.find (key a)) :
    I (l.foldl f b) ∧ (∀ a ∈ l, R a ((st (l.foldl f b)).threads.find (key a)))
      ∧ ∀ j, (∀ a ∈ l, j ≠ key a) → (st (l.foldl f b)).threads.find j = (st b).threads.find j := by
  induction l generalizing b with
  | nil => exact ⟨hI, by simp, fun _ _ => rfl⟩
  | cons a l ih =>
    obtain ⟨hna, hn'⟩ := List.nodup_cons.mp hn
    have hne : ∀ x ∈ l, key x ≠ key a := fun x hx e => hna (e ▸ List.mem_map_of_mem hx)
    obtain ⟨h1, h2, h3⟩ := hf a (by simp) b hI (hs a (by simp))
    obtain ⟨r1, r2, r3⟩ := ih hn' (fun x hx => hf x (by simp [hx])) (f b a) h1
      fun x hx => (h3 _ (hne x hx)).trans (hs x (by simp [hx]))
    refine ⟨r1, fun x hx => ?_, fun j hj => ?_⟩
    · rcases List.mem_cons.mp hx with rfl | hx
      · rw [List.foldl_cons, r3 _ fun y hy => (hne y hy).symm]
        exact h2
      · exact r2 x hx
    · rw [List.foldl_cons, r3 j fun x hx => hj x (by simp [hx])]
      exact h3 j (hj a (by simp))

/-! ### A trap at user privilege -/

/-- Only groups' s registers and UDIV and threads differ: a thread's owner slot is the same. -/
theorem OnlyThreads.slotOfThread {s u : State} (h : OnlyThreads s u) (k : Nat) : u.slotOfThread k = s.slotOfThread k := by
  obtain ⟨hu, hg⟩ := h
  have ho : (u.grpOf k).oslot = (s.grpOf k).oslot := by
    have hm := congrArg (Option.map Group.oslot) (hg (groupOf k))
    simp only [Option.map_map, show Group.oslot ∘ Group.noS = Group.oslot from rfl] at hm
    simp only [State.grpOf, State.grp, ← Option.getD_map Group.oslot, hm]
  unfold State.slotOfThread State.slotAt State.coreAt
  rw [ho, hu]

theorem State.grp_of_find {s : State} {g : Nat} {G : Group} (hG : s.groups.find g = some G) : s.grp g = G := by
  rw [State.grp, hG, Option.getD_some]

/-- A thread's trapped form depends on no other thread. -/
theorem trappedThread_congr {s u : State} {k : Nat} (ho : OnlyThreads s u) (hk : u.threads.find k = s.threads.find k)
    (c x : Nat) (h : Hdr) : trappedThread u k c x h = trappedThread s k c x h := by
  have ht : u.thr k = s.thr k := by simp only [State.thr, hk]
  simp only [trappedThread, ht, ho.slotOfThread, ho.time]

/-- A thread at the entry to its handler (R223). -/
def State.entered (s : State) (k cause info len : Nat) (chn : Bool) (t : Thread) : Thread :=
  { t with
    trap := s.trapState k t cause info len chn
    handler := true
    pc := addr48 ((s.slotOfThread k).tvec + 64 * cause)
    state := .ready
    readyAt := s.time
    chain := false
    latch := []
    memo := []
    counted := false
    stepTrap := t.stepTrap && !t.stepDue
    stepDue := false }

/-- A trap at user privilege enters the handler, and that is all. -/
theorem State.trap_user {s : State} {k : Nat} (hh : (s.thr k).handler = false) (c x len : Nat) (chn : Bool) :
    s.trap k c x len chn = s.modThr k (s.entered k c x len chn) := by
  rw [State.trap, if_neg (by simp [hh])]
  rfl

/-- A thread in its lane at user privilege, its instruction in no chain: `trappedThread` is what a trap leaves of it. -/
structure State.PlainUser (s : State) (h : Hdr) (k : Nat) : Prop where
  inLane : (s.threads.find k).isSome = true
  user : (s.thr k).handler = false
  unchained : (s.thr k).chain = false
  last : h.chain = false

theorem State.PlainUser.congr {s u : State} {h : Hdr} {k : Nat} (hp : s.PlainUser h k)
    (hk : u.threads.find k = s.threads.find k) : u.PlainUser h k := by
  have ht : u.thr k = s.thr k := by simp only [State.thr, hk]
  exact ⟨hk ▸ hp.inLane, ht ▸ hp.user, ht ▸ hp.unchained, hp.last⟩

theorem State.trapLane_only {s : State} {h : Hdr} {k : Nat} (hp : s.PlainUser h k) (fm : Form) (c x : Nat) :
    OnlyThreadsOf s (s.trapLane k h fm c x) := by
  rw [State.trapLane, State.trap_user hp.user]
  rfl

theorem State.trapLane_other {s : State} {h : Hdr} {k j : Nat} (hp : s.PlainUser h k) (fm : Form) (c x : Nat) (hj : j ≠ k) :
    (s.trapLane k h fm c x).threads.find j = s.threads.find j := by
  rw [State.trapLane, State.trap_user hp.user, State.find_modThr_other _ _ hj]

/-- A trap at an instruction outside chains leaves its thread as R223 says. -/
theorem State.trapLane_self {s : State} {h : Hdr} {k : Nat} (hp : s.PlainUser h k) (fm : Form) (c x : Nat) :
    (s.trapLane k h fm c x).threads.find k = some (trappedThread s k c x h) := by
  rw [State.trapLane, State.trap_user hp.user, State.find_modThr_same, State.find_thr hp.inLane, hp.unchained, hp.last]
  simp only [State.entered, trappedThread, State.trapState, Option.map_some, Bool.or_self, Bool.false_eq_true, if_false,
    Nat.add_zero, addr48, Hdr.bytes]
  cases h.len <;> rfl

theorem OnlyThreadsOf.trans {s t u : State} (h1 : OnlyThreadsOf s t) (h2 : OnlyThreadsOf t u) : OnlyThreadsOf s u := by
  unfold OnlyThreadsOf at *
  rw [h2, h1]

/-- The state after every lane of a list has taken the trap that `e` gives it. -/
def State.trapEach (s : State) (h : Hdr) (fm : Form) (e : Nat → Nat × Nat) (ks : List Nat) : State :=
  ks.foldl (fun acc k => acc.trapLane k h fm (e k).1 (e k).2) s

/-- Lanes at user privilege outside chains that trap one after another: each its own thread, and nothing else differs. -/
theorem State.trapEach_spec {s : State} {h : Hdr} (fm : Form) (e : Nat → Nat × Nat) {ks : List Nat} (hn : ks.Nodup)
    (hk : ∀ k ∈ ks, s.PlainUser h k) :
    OnlyThreadsOf s (s.trapEach h fm e ks)
      ∧ (∀ k ∈ ks, (s.trapEach h fm e ks).threads.find k = some (trappedThread s k (e k).1 (e k).2 h))
      ∧ ∀ k, k ∉ ks → (s.trapEach h fm e ks).threads.find k = s.threads.find k := by
  obtain ⟨h1, h2, h3⟩ := foldl_turns (st := id) (key := id) (s := s) (I := OnlyThreadsOf s)
    (R := fun k o => o = some (trappedThread s k (e k).1 (e k).2 h))
    (f := fun acc k => acc.trapLane k h fm (e k).1 (e k).2) ks (by simpa using hn)
    (fun k hk' u hu hf => by
      have hp := (hk k hk').congr hf
      refine ⟨OnlyThreadsOf.trans hu (State.trapLane_only hp _ _ _), ?_, fun j hj => State.trapLane_other hp _ _ _ hj⟩
      exact (State.trapLane_self hp _ _ _).trans (congrArg some (trappedThread_congr hu.weaken hf _ _ _)))
    s rfl fun _ _ => rfl
  exact ⟨h1, h2, fun k hk' => h3 k fun a ha e => hk' (e ▸ ha)⟩

end Sys2Proof.Machine
end

/-! ## Bundles turn by turn -/

section
namespace Sys2Proof.Machine

/-- A run in which no lane committed, faulted or sent a request finishes as its state. -/
theorem Run.finish_none {s t : State} (hn : t.nextReq = s.nextReq) (h : Hdr) (fm : Form) (pass : List Nat) :
    (Run.mk t [] []).finish s h fm pass = t := by
  simp only [Run.finish, State.markUdiv, List.foldl_nil, ite_self, hn, if_true, List.any_nil, Bool.not_false]

/-! ### Lanes of a clear bundle, turn by turn -/

theorem OnlyThreadsOf.time {s t : State} (h : OnlyThreadsOf s t) : t.time = s.time := by rw [h]

theorem State.clears_iff {s : State} {opc : Nat} {h : Hdr} {fm : Form} {prot : State → Nat → Bool} :
    s.clears opc h fm prot = true ↔
      ascending s.cur.threads = true ∧ ∀ k ∈ s.cur.threads, s.laneClear opc h fm prot k = true := by
  simp only [State.clears, Bool.and_eq_true, List.all_eq_true]

/-- A passing lane is a lane of the bundle. -/
theorem State.mem_passing {s : State} {h : Hdr} {k : Nat} :
    k ∈ s.passing h ↔ k ∈ s.cur.threads ∧ (s.thr k).guard h = true := List.mem_filter

/-- A clear bundle whose passing lanes' turns keep `Q` of the account and each do `R` to their own thread and nothing to
another: `Q` holds of the account before its end, each passing lane's thread stands in `R`, a lane whose guard fails has gone
past from a thread that no turn touched, and no other thread differs. -/
theorem runLanes_turns {s : State} {opc : Nat} {h : Hdr} {fm : Form} {prot : State → Nat → Bool} {f : Entry} {Q : Run → Prop}
    {R : Nat → Option Thread → Prop} (hc : s.clears opc h fm prot = true)
    (hQ : ∀ r v, Q r → OnlyThreadsOf r.s v → Q { r with s := v }) (h0 : Q ⟨s, [], []⟩)
    (ht : ∀ k ∈ s.passing h, ∀ r, Q r → r.s.threads.find k = s.threads.find k →
      let r' := plainStep s h fm f (s.laneValues h fm) r (k, s.operands k h fm)
      Q r' ∧ R k (r'.s.threads.find k) ∧ ∀ j, j ≠ k → r'.s.threads.find j = r.s.threads.find j) :
    ∃ r : Run, runLanes opc h fm prot f s = r.finish s h fm (s.passing h) ∧ Q r
      ∧ (∀ k ∈ s.passing h, R k (r.s.threads.find k))
      ∧ (∀ k ∈ s.cur.threads, (s.thr k).guard h = false → ∃ r0, Q r0 ∧ r0.s.threads.find k = s.threads.find k
          ∧ r.s.threads.find k = (s.failLane r0.s k h fm).threads.find k)
      ∧ ∀ k, k ∉ s.cur.threads → r.s.threads.find k = s.threads.find k := by
  have hnd := ascending_nodup (State.clears_iff.mp hc).1
  have hkeys : ((s.passing h).map fun k => (k, s.operands k h fm)).map (·.1) = s.passing h := by
    rw [List.map_map]
    exact List.map_id _
  obtain ⟨p1, p2, p3⟩ := foldl_turns (st := Run.s) (key := Prod.fst) (s := s) (I := Q) (R := fun kv => R kv.1)
    (f := plainStep s h fm f (s.laneValues h fm)) ((s.passing h).map fun k => (k, s.operands k h fm))
    (hkeys.symm ▸ hnd.filter _)
    (fun kv hkv r hr hk => by
      obtain ⟨k, hk', rfl⟩ := List.mem_map.mp hkv
      exact ht k hk' r hr hk)
    ⟨s, [], []⟩ h0 fun _ _ => rfl
  have hfail := foldl_fail (s0 := s) (h := h) (fm := fm) (s.cur.threads.filter fun k => !(s.thr k).guard h) (hnd.filter _)
    (((s.passing h).map fun k => (k, s.operands k h fm)).foldl (plainStep s h fm f (s.laneValues h fm)) ⟨s, [], []⟩)
  have he : runLanes opc h fm prot f s =
      ((s.cur.threads.filter fun k => !(s.thr k).guard h).foldl (fun (r : Run) k => { r with s := s.failLane r.s k h fm })
        (((s.passing h).map fun k => (k, s.operands k h fm)).foldl (plainStep s h fm f (s.laneValues h fm)) ⟨s, [], []⟩)).finish
        s h fm (s.passing h) := runLanes_clear f hc
  generalize List.foldl (plainStep s h fm f (s.laneValues h fm)) ⟨s, [], []⟩
    ((s.passing h).map fun k => (k, s.operands k h fm)) = P at p1 p2 p3 hfail he
  obtain ⟨q1, q2, q3, q4, q5⟩ := hfail
  generalize List.foldl (fun (r : Run) k => { r with s := s.failLane r.s k h fm }) P _ = r at q1 q2 q3 q4 q5 he
  have p3' : ∀ k, k ∉ s.passing h → P.s.threads.find k = s.threads.find k := fun k hk =>
    p3 k fun kv hkv e => by
      obtain ⟨j, hj, rfl⟩ := List.mem_map.mp hkv
      exact hk (e ▸ hj)
  refine ⟨r, he, ?_, fun k hk => ?_, fun k hk hg => ⟨P, p1, p3' k ?_, q5 k (List.mem_filter.mpr ⟨hk, by simp [hg]⟩)⟩, fun k hk => ?_⟩
  · have := hQ P r.s p1 q1
    rwa [← q2, ← q3] at this
  · rw [q4 k (by simp [(State.mem_passing.mp hk).2])]
    exact p2 _ (List.mem_map_of_mem hk)
  · simp [State.mem_passing, hg]
  · rw [q4 k fun hm => hk (List.mem_filter.mp hm).1]
    exact p3' k fun hm => hk (State.mem_passing.mp hm).1

/-- A lane's trap other than ALIAS enters the account as the trap of its thread. -/
theorem Run.lane_trap {r : Run} {h : Hdr} {fm : Form} {k c x : Nat} (u : State) (hc : c ≠ 15) :
    r.lane h fm k (.trap u c x) = { r with s := u.trapLane k h fm c x } := by
  simp only [Run.lane, hc, if_false]

/-- A bundle whose every passing lane traps alone, at user privilege and outside chains. -/
theorem runLanes_allTrap {s : State} {opc : Nat} {h : Hdr} {fm : Form} {prot : State → Nat → Bool} {f : Entry} {cause : Nat}
    {info : Nat → Vals → Nat} (hc : s.clears opc h fm prot = true) (ho : s.operandsOk h fm = true) (h15 : cause ≠ 15)
    (hp : ∀ k ∈ s.passing h, s.PlainUser h k)
    (hfail : ∀ k ∈ s.cur.threads, (s.thr k).guard h = false → inChain (s.thr k) h fm = false)
    (hf : ∀ k ∈ s.passing h, ∀ v, s.operands k h fm = .ok v → ∀ u, f s (s.laneValues h fm) k v u = .trap u cause (info k v)) :
    AllTrap s h fm cause info (runLanes opc h fm prot f s) := by
  obtain ⟨r, hr, ⟨hq, hd, hfl⟩, h1, h2, h3⟩ := runLanes_turns (f := f) (Q := fun r => OnlyThreadsOf s r.s ∧ r.done = [] ∧ r.faults = [])
    (R := fun k o => ∀ v, s.operands k h fm = .ok v → o = some (trappedThread s k cause (info k v) h)) hc
    (fun r v hr hv => ⟨OnlyThreadsOf.trans hr.1 hv, hr.2⟩) ⟨rfl, rfl, rfl⟩ fun k hk r hq hfind => by
      obtain ⟨v, hv⟩ := State.operandsOk_iff.mp ho k hk
      have hpk := (hp k hk).congr hfind
      obtain ⟨hq, hd⟩ := hq
      simp only [plainStep, hv, hf k hk v hv, Run.lane_trap _ h15]
      refine ⟨⟨OnlyThreadsOf.trans hq (State.trapLane_only hpk _ _ _), hd⟩, fun v' hv' => ?_, fun j hj => State.trapLane_other hpk _ _ _ hj⟩
      cases hv'
      exact (State.trapLane_self hpk _ _ _).trans (congrArg some (trappedThread_congr hq.weaken hfind _ _ _))
  have hfin : r.finish s h fm (s.passing h) = r.s := by
    obtain ⟨u, done, faults⟩ := r
    subst hd hfl
    exact Run.finish_none hq.weaken.nextReq _ _ _
  rw [hr, hfin]
  refine ⟨hq, h1, fun k hk hg => ?_, h3⟩
  obtain ⟨r0, ⟨hq0, _⟩, hf0, hk0⟩ := h2 k hk hg
  have hic : inChain (r0.s.thr k) h fm = false := by
    simpa only [State.thr, hf0] using hfail k hk hg
  rw [hk0, failLane_self hic, State.goesOn, State.goesOn, State.find_modThr_same, State.find_modThr_same, hf0, hq0.time]

/-! ### TRAP and BKPT -/

/-- An instruction outside the chainable classes that passes check 2 of R76 stands in no chain. -/
theorem unchained_of_decodeTrap {s : State} {opc : Nat} {h : Hdr} {fm : Form} {prot : State → Nat → Bool} {k : Nat}
    (hm : fm.chainable = false) (hd : decodeTrap s opc h fm prot k = none) : (s.thr k).chain = false ∧ h.chain = false := by
  unfold decodeTrap at hd
  have hb : chainBroken (s.thr k) h fm = false := by
    refine Bool.eq_false_iff.mpr fun hb => ?_
    simp [hb] at hd
  simp only [chainBroken, hm, Bool.not_false, Bool.and_true, Bool.or_eq_false_iff] at hb
  obtain ⟨⟨⟨hc, ht⟩, -⟩, -⟩ := hb
  exact ⟨ht, hc⟩

/-- A passing lane at user privilege of a clear instruction that may not stand in a chain. -/
theorem State.clears_plainUser {s : State} {opc : Nat} {h : Hdr} {fm : Form} {prot : State → Nat → Bool} {k : Nat}
    (hc : s.clears opc h fm prot = true) (hm : fm.chainable = false) (hk : k ∈ s.passing h) (hu : (s.thr k).handler = false) :
    s.PlainUser h k := by
  obtain ⟨hs, hd, _⟩ := State.laneClear_iff.mp ((State.clears_iff.mp hc).2 k (State.mem_passing.mp hk).1)
  obtain ⟨h1, h2⟩ := unchained_of_decodeTrap hm hd
  exact ⟨hs, hu, h1, h2⟩

end Sys2Proof.Machine
end

/-! ## The step, the rejoin barrier and the return after a trap (O4, O51, O38) -/

section
namespace Sys2Proof.Machine

/-! ### O4: the step -/

/-- An issue that the rules of selection allow, of a unit in the cache that decodes, with nothing that holds the bundle back,
is exec of the instruction and what an issue leaves behind. -/
theorem issueBundle_decoded {s t : State} {b : Bundle} {bytes : List Byte} {n m : Nat} {i : Instr}
    (hf : s.fetchFor (b.threads.headD 0) = some (.unit bytes n)) (hd : decodeBytes bytes = .instr i m)
    (hc : s.collectiveOk b i = true) (ht : s.trainsInOrder b i = true) (hn : s.deferralDue b i = false)
    (he : exec i { (s.touchCode (coreOf (b.threads.headD 0)) (s.grpOf (b.threads.headD 0)).oslot
      (s.thr (b.threads.headD 0)).pc) with cur := b } = .next t) :
    issueBundle b s = .next (afterIssue s t b i) := by
  simp only [issueBundle, hf, hd, hc, ht, hn, Bool.not_true, Bool.or_self, Bool.false_eq_true, if_false, he]

/-! ### O51: the rejoin barrier -/

/-- The state in which barrier `j` of group `g` has released its waiters. -/
def State.rejoined (s : State) (g j : Nat) : State :=
  (s.modGrp g fun G => { G with enrolled := G.enrolled.set j 0, arrived := G.arrived.set j 0 }).wake
    fun k w => groupOf k == g && w == .rejoin j

/-- A barrier whose masks meet releases its waiters, who form a bundle. -/
theorem State.testRejoin_releases {s : State} {g j : Nat} (he : (s.grp g).enrolled.getD j 0 ≠ 0)
    (ha : (s.grp g).arrived.getD j 0 = (s.grp g).enrolled.getD j 0) :
    ∃ quads, s.testRejoin g j = { s.rejoined g j with quads := quads } := by
  unfold State.testRejoin
  simp only [bne_iff_ne, ne_eq, he, not_false_eq_true, ha, BEq.rfl, Bool.and_true, if_true, State.rejoined]
  split
  · exact ⟨_, rfl⟩
  · exact ⟨_, rfl⟩

/-- A barrier whose masks do not meet, or that no lane has enrolled at, releases nobody. -/
theorem State.testRejoin_keeps {s : State} {g j : Nat}
    (h : ¬ ((s.grp g).enrolled.getD j 0 ≠ 0 ∧ (s.grp g).arrived.getD j 0 = (s.grp g).enrolled.getD j 0)) :
    s.testRejoin g j = s := by
  unfold State.testRejoin
  dsimp only
  rw [if_neg]
  simpa only [Bool.and_eq_true, bne_iff_ne, beq_iff_eq] using h

/-- A waiter at the barrier is released; every other thread stays. -/
theorem State.find_rejoined (s : State) (g j k : Nat) :
    (s.rejoined g j).threads.find k = (s.threads.find k).map fun t =>
      if groupOf k = g ∧ t.state = .waiting (.rejoin j) then t.release s.time else t := by
  rw [State.rejoined, State.wake, Tbl.find_changeAll]
  refine congrArg (Option.map · _) (funext fun t => ?_)
  cases hw : t.state with
  | waiting w => simp only [Bool.and_eq_true, beq_iff_eq, TState.waiting.injEq, State.modGrp_time]
  | ready => simp
  | stalled => simp
  | parked => simp
  | ended => simp

/-! ### O38: a return after a trap -/

/-- LEN, CPOS, CHN and PPRV of xstat, read back (R33). -/
theorem xstat_fields {n : Nat} (len : Nat) (hn : n < 8) (chn : Bool) :
    let x := (BitVec.ofNat 32 (len * 2 ^ 8 + (if chn then n * 2 ^ 5 + 2 ^ 4 else 0))).toNat
    bit x 3 = false ∧ bit x 4 = chn ∧ (chn = true → field x 5 3 = n) := by
  simp only [BitVec.toNat_ofNat, bit, field]
  cases chn
  · refine ⟨?_, ?_, by simp⟩ <;> simp only [Bool.false_eq_true, if_false, beq_eq_false_iff_ne] <;> omega
  · refine ⟨?_, ?_, fun _ => ?_⟩ <;> simp only [if_true, beq_eq_false_iff_ne, beq_iff_eq] <;> omega

/-- The latches that a trap saves give those of the chain back (R33, R226). -/
theorem savedLatches_take (s : State) (k : Nat) (t : Thread) (h : t.latch.length < 8) :
    (savedLatches s k t).take t.latch.length = t.latch := by
  refine List.ext_getElem (by simp [savedLatches]; omega) fun i h1 h2 => ?_
  simp [savedLatches, h2]

end Sys2Proof.Machine

open Sys2Proof Sys2Proof.Machine

/-- Settles O4: an issue that the rules of selection allow and that nothing holds back is `exec` of the decoded instruction. -/
theorem stepRunsDecodedInstruction : Obligations.StepRunsDecodedInstruction := by
  intro s t b ms bytes n m i hag s0 s1 k0 hallow hfetch hdec hcol htrain hdef hexec
  have hissue : issue b s0 = .next (afterIssue s1 t b i) := by
    rw [issue, if_pos hallow]
    exact issueBundle_decoded hfetch hdec hcol htrain hdef hexec
  simp only [step, takeMove, hag, makeMove]
  change settle (issue b s0) = _
  rw [hissue]
  rfl

/-- Settles O51, by the two cases of the release test of R113. -/
theorem rejoinBarrierReleases : Obligations.RejoinBarrierReleases := by
  intro s g j G hG _ _
  have hgrp : s.grp g = G := State.grp_of_find hG
  split
  case isTrue h =>
    obtain ⟨quads, hq⟩ := State.testRejoin_releases (s := s) (g := g) (j := j) (hgrp ▸ h.1) (hgrp ▸ h.2)
    rw [hq]
    refine ⟨⟨{ G with enrolled := G.enrolled.set j 0, arrived := G.arrived.set j 0 }, ?_, rfl, rfl⟩, fun k t hk => ?_, rfl, rfl⟩
    · change Tbl.find (s.groups.change g _) g = _
      rw [Tbl.find_change_same, hG]
      rfl
    · change (s.rejoined g j).threads.find k = _
      rw [State.find_rejoined, hk]
      rfl
  case isFalse h => exact State.testRejoin_keeps (hgrp.symm ▸ h)

/-- Settles O38: the fields of xstat are read back as trap entry wrote them, the saved latches included. -/
theorem returnAfterTrapRestores : Obligations.ReturnAfterTrapRestores := by
  intro s t0 k cause info len hk hh hlat hpc hchain hlen u
  have hhk : (s.thr k).handler = false := by rw [State.thr_of_find hk, hh]
  have hu : u.threads.find k = some (s.entered k cause info len t0.chain t0) := by
    simp only [u, State.trap_user hhk, State.find_modThr_same, hk, Option.map_some]
  obtain ⟨h3, h4, h5⟩ := xstat_fields len hlat t0.chain
  have hxpc : addr48 (BitVec.ofNat 64 t0.pc).toNat = t0.pc := by
    simp only [BitVec.toNat_ofNat, addr48]
    omega
  rw [State.trapReturn, State.thr_modThr_same _ (by rw [hu]; rfl), State.thr_of_find hu]
  simp only [State.entered, State.trapState, h3, h4, hxpc, hh]
  by_cases hc : t0.chain = true
  · have hpos : t0.latch.length ≠ 0 := by simpa [hc] using hchain
    simp only [h5 hc]
    simp [hc, hpos, savedLatches_take s k t0 hlat]
  · have hnil : t0.latch = [] := by simpa [hc] using hchain
    simp [hc, hnil]
end

/-! ## Decode checks (O39) -/

section
namespace Sys2Proof.Machine

/-- Decode checks that refuse every thread of the bundle leave none for its entry. -/
theorem decoded_refused {s : State} {opc : Nat} {h : Hdr} {fm : Form} {prot : State → Nat → Bool}
    (hd : ∀ k ∈ s.cur.threads, (decodeTrap s opc h fm prot k).isSome = true) :
    decoded s opc h fm prot =
      (s.trapEach h fm (fun k => (decodeTrap s opc h fm prot k).getD (0, 0)) s.cur.threads, []) := by
  refine Prod.ext (foldl_congr s fun k hk acc => ?_) (List.filter_eq_nil_iff.mpr fun k hk => ?_)
  · obtain ⟨e, he⟩ := Option.isSome_iff_exists.mp (hd k hk)
    simp only [he, Option.getD_some]
  · simp [Option.isNone_eq_false_iff.mpr (hd k hk)]

/-- A bundle every thread of which a decode check refuses, at user privilege and outside chains, takes those traps alone
(R76). -/
theorem runLanes_refused {s : State} {opc : Nat} {h : Hdr} {fm : Form} {prot : State → Nat → Bool} (f : Entry)
    (ha : ascending s.cur.threads = true) (hk : ∀ k ∈ s.cur.threads, s.PlainUser h k)
    (hd : ∀ k ∈ s.cur.threads, (decodeTrap s opc h fm prot k).isSome = true) :
    let t := runLanes opc h fm prot f s
    OnlyThreadsOf s t
      ∧ (∀ k ∈ s.cur.threads, ∀ c x, decodeTrap s opc h fm prot k = some (c, x) →
          t.threads.find k = some (trappedThread s k c x h))
      ∧ ∀ k, k ∉ s.cur.threads → t.threads.find k = s.threads.find k := by
  obtain ⟨h1, h2, h3⟩ := State.trapEach_spec fm (fun k => (decodeTrap s opc h fm prot k).getD (0, 0))
    (ascending_nodup ha) hk
  have hr : runLanes opc h fm prot f s = s.trapEach h fm (fun k => (decodeTrap s opc h fm prot k).getD (0, 0)) s.cur.threads := by
    have hu : ∀ u : State, udivStep u h fm [] = (u, []) := fun u => udivStep_clear (by simp)
    simp only [runLanes, decoded_refused hd, List.any_nil, Bool.false_eq_true, if_false, List.filter_nil, hu, List.map_nil,
      List.foldl_nil]
    exact Run.finish_none h1.weaken.nextReq _ _ _
  rw [hr]
  exact ⟨h1, fun k hk' c x hx => by rw [h2 k hk', hx]; rfl, h3⟩

/-- An instruction of the code stream runs its entry over the lanes of its bundle under an opcode, a form and a privilege
check; what it does after them is nothing where they have changed threads alone. -/
def RunsOver (i : Instr) (opc : Nat) (h : Hdr) (fm : Form) (prot : State → Nat → Bool) : Prop :=
  ∃ (f : Entry) (fin : State → State → State), (∀ s, exec i s = .next (fin s (runLanes opc h fm prot f s)))
    ∧ ∀ s t, s.reqsBelow → OnlyThreadsOf s t → fin s t = t

theorem RunsOver.plain {i : Instr} {opc : Nat} {h : Hdr} {fm : Form} {prot : State → Nat → Bool} (f : Entry)
    (he : ∀ s, exec i s = .next (runLanes opc h fm prot f s)) : RunsOver i opc h fm prot :=
  ⟨f, fun _ t => t, he, fun _ _ _ _ => rfl⟩

/-- An instruction that changed threads alone has sent nothing. -/
theorem sentSince_none {s t : State} (hb : s.reqsBelow) (ho : OnlyThreadsOf s t) : s.sentSince t = [] := by
  have hr : t.reqs = s.reqs := by rw [ho]
  rw [State.sentSince, hr, List.filter_eq_nil_iff]
  intro r hm
  have := hb r hm
  simpa using this

theorem lookUpSince_none {s t : State} (hb : s.reqsBelow) (ho : OnlyThreadsOf s t) : s.lookUpSince t = t := by
  rw [State.lookUpSince, sentSince_none hb ho]
  rfl

theorem afterLoads_none {s t : State} (hb : s.reqsBelow) (ho : OnlyThreadsOf s t) : afterLoads s t = t := by
  rw [afterLoads, sentSince_none hb ho, lookUpSince_none hb ho]
  rfl

theorem intRow_runsOver {i : Instr} {r : LaneRow} (hr : intRow i = some r) : RunsOver i r.opc r.h r.fm anyone := by
  cases i <;> simp only [intRow, reduceCtorEq, Option.some.injEq] at hr <;> subst hr <;> exact .plain _ fun _ => rfl

theorem floatRow_runsOver {i : Instr} {r : LaneRow} (hr : floatRow i = some r) : RunsOver i r.opc r.h r.fm anyone := by
  cases i <;> simp only [floatRow, reduceCtorEq, Option.some.injEq] at hr <;> subst hr <;> exact .plain _ fun _ => rfl

theorem accessRow_runsOver {i : Instr} {r : BundleRow} (hr : accessRow i = some r) : RunsOver i r.opc r.h r.fm anyone := by
  cases i
  case ld => simp only [accessRow, Option.some.injEq] at hr; subst hr; exact ⟨_, afterLoads, fun _ => rfl, fun _ _ => afterLoads_none⟩
  all_goals simp only [accessRow, reduceCtorEq, Option.some.injEq] at hr <;> subst hr <;> exact .plain _ fun _ => rfl

theorem systemRow_runsOver {i : Instr} {r : BundleRow} (hr : systemRow i = some r) : RunsOver i r.opc r.h r.fm r.prot := by
  cases i
  case rsring => simp only [systemRow, Option.some.injEq] at hr; subst hr; exact ⟨_, State.lookUpSince, fun _ => rfl, fun _ _ => lookUpSince_none⟩
  all_goals simp only [systemRow, reduceCtorEq, Option.some.injEq] at hr <;> subst hr <;> exact .plain _ fun _ => rfl

end Sys2Proof.Machine

open Sys2Proof Sys2Proof.Machine

/-- Settles O39: the row of each table runs its lanes under its own decode checks, and a bundle they refuse traps thread by
thread. -/
theorem decodeChecksTrap : Obligations.DecodeChecksTrap := by
  intro i opc h fm prot hrow s hb ha hk
  have hruns : RunsOver i opc h fm prot := by
    rcases hrow with ⟨hr, rfl⟩ | ⟨hr, rfl⟩ | ⟨hr, rfl⟩ | ⟨r, hr, rfl, rfl, rfl, rfl, _⟩
    · obtain ⟨r, hr', he⟩ := Option.map_eq_some_iff.mp hr
      cases he
      exact intRow_runsOver hr'
    · obtain ⟨r, hr', he⟩ := Option.map_eq_some_iff.mp hr
      cases he
      exact floatRow_runsOver hr'
    · obtain ⟨r, hr', he⟩ := Option.map_eq_some_iff.mp hr
      cases he
      exact accessRow_runsOver hr'
    · exact systemRow_runsOver hr
  obtain ⟨f, fin, he, hfin⟩ := hruns
  have ht := runLanes_refused (opc := opc) (fm := fm) (prot := prot) f ha
    (fun k hk' => let ⟨hs, hh, hc, hch, _⟩ := hk k hk'; ⟨hs, hh, hc, hch⟩) fun k hk' => let ⟨_, _, _, _, hd⟩ := hk k hk'; hd
  exact ⟨_, he s, by rwa [hfin s _ hb ht.1]⟩
end

/-! ## Writes at the home leave the threads -/

section
namespace Sys2Proof.Machine

@[simp] theorem storeBytes_threads (s : State) (pa : Nat) (bs : List Byte) : (s.storeBytes pa bs).threads = s.threads := by
  induction bs generalizing s pa with
  | nil => rfl
  | cons b bs ih => exact ih _ _

@[simp] theorem setElem_threads (s : State) (base fmt e bits : Nat) : (s.setElem base fmt e bits).threads = s.threads := by
  unfold State.setElem
  dsimp only
  split
  · rfl
  · exact storeBytes_threads ..

@[simp] theorem endOwnership_threads (s : State) (la : Nat) : (s.endOwnership la).threads = s.threads := by
  unfold State.endOwnership
  split <;> rfl

@[simp] theorem viewWrite_threads (s : State) (n : Nat) (r : Region) (pa : Nat) (bs : List Byte) :
    (s.viewWrite n r pa bs).threads = s.threads := by
  unfold State.viewWrite
  exact List.foldlRecOn (motive := fun u : State => u.threads = s.threads) _ _ rfl fun u hu e _ =>
    (setElem_threads ..).trans hu

@[simp] theorem plainWrite_threads (s : State) (pa : Nat) (bs : List Byte) : (s.plainWrite pa bs).threads = s.threads := by
  unfold State.plainWrite
  split
  · rfl
  · exact storeBytes_threads s pa bs

@[simp] theorem putBytes_threads (s : State) (pa : Nat) (bs : List Byte) : (s.putBytes pa bs).threads = s.threads := by
  unfold State.putBytes
  split
  · split
    · split
      · rfl
      · exact viewWrite_threads ..
    · rfl
  · rfl
  · exact List.foldlRecOn (motive := fun u : State => u.threads = s.threads) _ _ rfl fun u hu x _ =>
      (plainWrite_threads ..).trans hu

@[simp] theorem markViews_threads (s : State) (pa n : Nat) : (s.markViews pa n).threads = s.threads := by
  unfold State.markViews
  split <;> rfl

@[simp] theorem evictL2_threads (s : State) (la : Nat) : (s.evictL2 la).threads = s.threads := by
  unfold State.evictL2
  split
  · rfl
  · dsimp only
    split <;> rfl

@[simp] theorem useL2_threads (s : State) (la : Nat) (f : HomeLine → HomeLine) : (s.useL2 la f).threads = s.threads := by
  have hr : (s.roomL2 la).threads = s.threads := by
    unfold State.roomL2
    split
    · rfl
    · split
      · exact evictL2_threads ..
      · rfl
  exact hr

@[simp] theorem testMonitors_threads (s : State) (la start : Nat) : (s.testMonitors la start).threads = s.threads := by
  unfold State.testMonitors
  dsimp only
  split
  · rfl
  · exact List.foldlRecOn (motive := fun u : State => u.threads = s.threads) _ _ rfl fun u hu m _ => hu

@[simp] theorem afterWrite_threads (s : State) (la g : Nat) (tied drop : List Nat) :
    (s.afterWrite la g tied drop).threads = s.threads := by
  have hd : (drop.foldl State.evictL2 s).threads = s.threads :=
    List.foldlRecOn (motive := fun u : State => u.threads = s.threads) _ _ rfl fun u hu l _ => (evictL2_threads u l).trans hu
  unfold State.afterWrite
  exact List.foldlRecOn (motive := fun u : State => u.threads = s.threads) _ _ hd fun u hu l _ =>
    (testMonitors_threads ..).trans hu

@[simp] theorem writeHome_threads (s : State) (core : Option Nat) (pa : Nat) (bs : List Byte) :
    (s.writeHome core pa bs).1.threads = s.threads := by
  unfold State.writeHome
  extract_lets la s1 g tied s2 s3 s4
  have h1 : s1.threads = s.threads := by
    unfold s1
    split
    · simp only [endOwnership_threads, putBytes_threads]
    · rfl
  have h3 : s3.threads = s.threads := by
    unfold s3 s2
    split <;> simp only [useL2_threads, markViews_threads, putBytes_threads, h1]
  have h4 : s4.threads = s.threads := by
    unfold s4
    cases core with
    | none => exact h3
    | some c => exact h3
  split
  · exact h4
  · exact (afterWrite_threads ..).trans h4

@[simp] theorem writeLines_threads (s : State) (core : Option Nat) (pa : Nat) (bs : List Byte) :
    (s.writeLines core pa bs).1.threads = s.threads := by
  unfold State.writeLines
  exact List.foldlRecOn (motive := fun u : State × Nat => u.1.threads = s.threads) _ _ rfl fun u hu x _ =>
    (writeHome_threads ..).trans hu

@[simp] theorem writeIpaRun_threads (s : State) (p ipa : Nat) (bs : List Byte) :
    (s.writeIpaRun p ipa bs).1.threads = s.threads := by
  unfold State.writeIpaRun
  refine List.foldlRecOn (motive := fun u : State × Nat => u.1.threads = s.threads) _ _ rfl fun u hu i _ => ?_
  dsimp only
  split
  · exact (writeLines_threads ..).trans hu
  · exact hu

@[simp] theorem modDbg_threads (s : State) (p : Nat) (f : Dbg → Dbg) : (s.modDbg p f).threads = s.threads := by
  rw [State.modDbg, State.modPart_threads]

@[simp] theorem mailWrite_threads (s : State) (p : Nat) (d : Dbg) (prod : Nat) (m : MailEntry) :
    (s.mailWrite p d prod m).threads = s.threads := by
  unfold State.mailWrite
  dsimp only
  rw [modDbg_threads, writeIpaRun_threads, writeIpaRun_threads]

@[simp] theorem mailboxPost_threads (s : State) (p : Nat) : (s.mailboxPost p).threads = s.threads := by
  unfold State.mailboxPost
  split
  · rfl
  · split
    · simp only [mailWrite_threads, modDbg_threads]
    · rfl

@[simp] theorem mailboxFlush_threads (s : State) (p : Nat) : (s.mailboxFlush p).threads = s.threads := by
  unfold State.mailboxFlush
  split
  · rfl
  · exact List.foldlRecOn (motive := fun u : State => u.threads = s.threads) _ _ rfl fun u hu _ _ =>
      (mailboxPost_threads ..).trans hu

/-- A STOP message touches no thread (R401). -/
@[simp] theorem stopMail_threads (s : State) (ks : List Nat) (cause : Nat) : (s.stopMail ks cause).threads = s.threads := by
  unfold State.stopMail State.postStop
  split
  · rfl
  · dsimp only
    split
    · simp only [mailWrite_threads, mailboxFlush_threads]
    · simp only [modDbg_threads, mailboxFlush_threads]

end Sys2Proof.Machine
end

/-! ## TRAP and BKPT (O35) -/

section
namespace Sys2Proof.Machine

/-- A run that met no fault and left no lane in a WAITG that owes an s register finishes with its threads. -/
theorem Run.finish_threads {s : State} {r : Run} {h : Hdr} {fm : Form} {pass : List Nat} (hf : r.faults = [])
    (hw : ∀ k ∈ r.done, (r.s.thr k).state.hasMates = false) : (r.finish s h fm pass).threads = r.s.threads := by
  have hm : ∀ u : State, u.threads = r.s.threads → (r.done.any fun k => (u.thr k).state.hasMates) = false := fun u hu => by
    simpa [List.any_eq_false, State.thr, hu] using hw
  unfold Run.finish
  dsimp only
  generalize hu : (if (fm.dWrite && !h.nowb && decide (256 ≤ h.d.toNat) && decide (h.d.toNat < 320)) = true
    then r.s.markUdiv pass r.done else r.s) = u
  have hut : u.threads = r.s.threads := by
    rw [← hu]
    split
    · exact (markUdiv_only _ _ _).2
    · rfl
  simp only [hf]
  rw [if_pos]
  · split <;> exact hut
  · rw [hm]
    · rfl
    · split <;> exact hut

/-- What a lane leaves that stops at its claimed BKPT (R401): the first of its group sends the STOP message for all. -/
def State.stopLane (u : State) (part : Lanes) (k : Nat) : State :=
  let mine := (part.map (·.1)).filter fun j => groupOf j == groupOf k
  let s1 := u.modThr k fun t => { t with stopped := true, stepping := false, state := .ready }
  if mine.head? = some k then s1.stopMail mine 2 else s1

theorem State.stopLane_threads (u : State) (part : Lanes) (k : Nat) :
    (u.stopLane part k).threads
      = u.threads.change k fun t => { t with stopped := true, stepping := false, state := .ready } := by
  unfold State.stopLane
  dsimp only
  split
  · rw [stopMail_threads, State.modThr_threads]
  · rfl

/-- BKPT's entry, by what a lane leaves that stops. -/
def bkptEntry : Entry := fun s0 part k v run =>
  if !s0.claimed k then .trap run 17 (v.b % 2 ^ 32) else .left (run.stopLane part k)

theorem bkptOp_eq (h : Hdr) (s : State) : bkptOp h s = runLanes 0x2CA h fmB anyone bkptEntry s := rfl

/-- Ready but Stopped, at an address. -/
def Thread.StoppedAt (pc : Nat) (t : Thread) : Prop := t.stopped = true ∧ t.pc = pc ∧ t.state = .ready

/-- Where breakpoints are claimed, BKPT stops every passing lane at itself (R401). -/
theorem bkptOp_stops {h : Hdr} {s : State} (hc : s.clears 0x2CA h fmB anyone = true) (ho : s.operandsOk h fmB = true)
    (hcl : ∀ k ∈ s.passing h, s.claimed k = true) {k : Nat} (hk : k ∈ s.passing h) :
    ((bkptOp h s).thr k).StoppedAt (s.thr k).pc := by
  obtain ⟨r, hr, ⟨hf, hdone⟩, hstop, -, -⟩ := runLanes_turns (f := bkptEntry)
    (Q := fun r => r.faults = [] ∧ ∀ k ∈ r.done, k ∈ s.passing h)
    (R := fun k o => ∃ t, o = some t ∧ t.StoppedAt (s.thr k).pc) hc (fun _ _ hr _ => hr) ⟨rfl, by simp⟩
    fun k hk r hq hfind => by
      obtain ⟨v, hv⟩ := State.operandsOk_iff.mp ho k hk
      have hin := (State.laneClear_iff.mp ((State.clears_iff.mp hc).2 k (State.mem_passing.mp hk).1)).1
      simp only [plainStep, hv, bkptEntry, hcl k hk, Bool.not_true, Bool.false_eq_true, if_false, Run.lane]
      refine ⟨⟨hq.1, fun j hj => ?_⟩, ?_, fun j hj => ?_⟩
      · rcases List.mem_append.mp hj with hj | hj
        · exact hq.2 j hj
        · exact List.mem_singleton.mp hj ▸ hk
      · rw [State.find_modThr_same, State.stopLane_threads, Tbl.find_change_same, hfind, State.find_thr hin]
        exact ⟨_, rfl, rfl, rfl, rfl⟩
      · rw [State.find_modThr_other _ _ hj, State.stopLane_threads, Tbl.find_change_other _ _ hj]
  have hthr : ∀ j ∈ s.passing h, (r.s.thr j).StoppedAt (s.thr j).pc := fun j hj => by
    obtain ⟨t, ht, hst⟩ := hstop j hj
    rwa [State.thr_of_find ht]
  have hfin := Run.finish_threads (s := s) (h := h) (fm := fmB) (pass := s.passing h) hf fun j hj => by
    obtain ⟨-, -, hst⟩ := hthr j (hdone j hj)
    rw [hst]
    rfl
  have hfk : (r.finish s h fmB (s.passing h)).thr k = r.s.thr k := by rw [State.thr, hfin]; rfl
  rw [bkptOp_eq, hr, hfk]
  exact hthr k hk

end Sys2Proof.Machine

open Sys2Proof Sys2Proof.Machine

/-- Settles O35, by the turns of the passing lanes. -/
theorem trapAndBreakpointTrap : Obligations.TrapAndBreakpointTrap := by
  refine ⟨fun h s hc ho hu => ⟨_, rfl, ?_⟩, fun h s hc ho hu => ⟨_, rfl, ?_⟩, fun h s hc ho hcl => ⟨_, rfl, fun k hk => ?_⟩⟩
  · exact runLanes_allTrap hc ho (by decide) (fun k hk => State.clears_plainUser hc rfl hk (hu k hk))
      (fun _ _ _ => rfl) fun _ _ _ _ _ => rfl
  · refine runLanes_allTrap hc ho (by decide) (fun k hk => State.clears_plainUser hc rfl hk (hu k hk).1)
      (fun _ _ _ => rfl) fun k hk v _ u => ?_
    rw [(hu k hk).2]
    rfl
  · obtain ⟨hst, hpc, -⟩ := bkptOp_stops hc ho hcl hk
    exact ⟨hst, hpc⟩
end

/-! ## Lanes that fail LATCH or INDEX (O40) -/

section
namespace Sys2Proof.Machine

/-- Operands fail with LATCH, INDEX or INTEGRITY (R76, R276). -/
theorem operands_error_cause {s : State} {k c x : Nat} {h : Hdr} {fm : Form} (he : s.operands k h fm = .error (c, x)) :
    c = 4 ∨ c = 6 ∨ c = 16 := by
  unfold State.operands at he
  dsimp only at he
  split at he
  · cases he; simp
  · split at he
    · cases he; simp
    · split at he
      · cases he; simp
      · split at he
        · cases he; simp
        · split at he
          · cases he; simp
          · cases he

/-- A clear bundle of threads at user privilege outside chains, whose entry is a change of the lane's own thread and of s
registers: a lane whose operands fail traps alone, and every other passing lane does its own work. -/
theorem runLanes_faultsAlone {s : State} {opc : Nat} {h : Hdr} {fm : Form} {prot : State → Nat → Bool} {f : Entry}
    {g : Nat → Vals → State → State} {F : Nat → Vals → Thread → Thread} (hc : s.clears opc h fm prot = true)
    (hp : ∀ k ∈ s.passing h, s.PlainUser h k) (hg : ∀ k v, Local s.time k (g k v) (F k v))
    (hf : ∀ k v u, f s (s.laneValues h fm) k v u = .ok (g k v u)) :
    let t := runLanes opc h fm prot f s
    OnlyThreads s t
      ∧ (∀ k ∈ s.passing h, ∀ c x, s.operands k h fm = .error (c, x) → t.threads.find k = some (trappedThread s k c x h))
      ∧ ∀ k ∈ s.passing h, ∀ v, s.operands k h fm = .ok v → t.threads.find k = ((g k v s).goesOn k h).threads.find k := by
  have hl (k : Nat) (v : Vals) := (hg k v).comp (Local.goesOn s.time k h)
  obtain ⟨r, hr, ⟨hq, hfl, hdone⟩, hR, -, -⟩ := runLanes_turns (f := f)
    (Q := fun r => OnlyThreads s r.s ∧ r.faults = [] ∧ ∀ k ∈ r.done, k ∈ s.passing h)
    (R := fun k o => (∀ c x, s.operands k h fm = .error (c, x) → o = some (trappedThread s k c x h))
      ∧ ∀ v, s.operands k h fm = .ok v → o = ((g k v s).goesOn k h).threads.find k) hc
    (fun r v hr hv => ⟨hr.1.trans hv.weaken, hr.2⟩) ⟨.refl s, rfl, by simp⟩ fun k hk r hq hfind => by
      obtain ⟨hq, hfl, hdone⟩ := hq
      have hpk := (hp k hk).congr hfind
      cases hv : s.operands k h fm with
      | error e =>
        obtain ⟨c, x⟩ := e
        have h15 : c ≠ 15 := by rcases operands_error_cause hv with hc | hc | hc <;> omega
        simp only [plainStep, Run.lane_trap _ h15]
        refine ⟨⟨hq.trans (State.trapLane_only hpk _ _ _).weaken, hfl, hdone⟩, ⟨fun c' x' he => ?_, nofun⟩,
          fun j hj => State.trapLane_other hpk _ _ _ hj⟩
        cases he
        exact (State.trapLane_self hpk _ _ _).trans (congrArg some (trappedThread_congr hq hfind _ _ _))
      | ok v =>
        simp only [plainStep, hf, Run.lane]
        refine ⟨⟨hq.trans ((hl k v).only r.s hq.time), hfl, fun j hj => ?_⟩, ⟨nofun, fun v' hv' => ?_⟩,
          fun j hj => (hl k v).other r.s hq.time j hj⟩
        · rcases List.mem_append.mp hj with hj | hj
          · exact hdone j hj
          · exact List.mem_singleton.mp hj ▸ hk
        · cases hv'
          exact ((hl k v).self r.s hq.time).trans (((hl k v).self s rfl).trans (by rw [hfind])).symm
  have hready : ∀ k ∈ s.passing h, (r.s.thr k).state = .ready := fun k hk => by
    have hin := State.find_thr (hp k hk).inLane
    cases hv : s.operands k h fm with
    | error e => rw [State.thr_of_find ((hR k hk).1 _ _ hv)]; rfl
    | ok v =>
      have hself := (hR k hk).2 v hv
      rw [(hl k v).self s rfl, hin] at hself
      rw [State.thr_of_find hself]
      rfl
  obtain ⟨ho, hth⟩ := Run.finish_local (s := s) (h := h) (fm := fm) (pass := s.passing h) hfl hq.nextReq fun k hk => by
    rw [hready k (hdone k hk)]
    rfl
  rw [hr]
  refine ⟨hq.trans ho, fun k hk => ?_, fun k hk => ?_⟩
  · rw [hth]
    exact (hR k hk).1
  · rw [hth]
    exact (hR k hk).2

/-- The instruction runs its lanes over the row's opcode and form, and each lane that commits goes past after a change of its
own thread and of s registers. -/
def LaneRow.RunsLocally (r : LaneRow) (i : Instr) : Prop :=
  ∃ (f : Entry) (g : State → Nat → Vals → State → State) (F : State → Nat → Vals → Thread → Thread),
    (∀ s, exec i s = .next (runLanes r.opc r.h r.fm r.prot f s))
      ∧ ∀ s k v, (∀ p u, f s p k v u = .ok (g s k v u)) ∧ (∀ p u, r.eff s p k v u = .ok (g s k v u))
        ∧ Local s.time k (g s k v) (F s k v)

theorem value_runsLocally {i : Instr} {opc : Nat} {h : Hdr} {fm : Form} {f : State → Nat → Vals → Nat}
    (he : ∀ s, exec i s = .next (runValue opc h fm f s)) : (LaneRow.value opc h fm f).RunsLocally i :=
  ⟨_, fun s k v u => u.writeD k h fm v.dst (f s k v), fun s k v => Thread.wroteD h fm v.dst (f s k v), he,
    fun _ k v => ⟨fun _ _ => rfl, fun _ _ => rfl, Local.writeD _ k h fm v.dst _⟩⟩

theorem intRow_runsLocally {i : Instr} {r : LaneRow} (hr : intRow i = some r) : r.RunsLocally i := by
  cases i
  case iadc h cp sub =>
    simp only [intRow, Option.some.injEq] at hr
    subst hr
    exact ⟨_, _, _, fun _ => rfl, fun s k v => ⟨fun _ _ => rfl, fun _ _ => rfl,
      (Local.writeD s.time k h _ v.dst _).comp (Local.modThr s.time k _)⟩⟩
  all_goals simp only [intRow, reduceCtorEq, Option.some.injEq] at hr <;> subst hr <;> exact value_runsLocally fun _ => rfl

end Sys2Proof.Machine

open Sys2Proof Sys2Proof.Machine

/-- Settles O40: every turn of a lane of the class at 0x000 touches its own thread and s registers alone. -/
theorem latchOrIndexFaultTrapsAlone : Obligations.LatchOrIndexFaultTrapsAlone := by
  intro i r hr s hc hch hu
  obtain ⟨f, g, F, he, hgF⟩ := intRow_runsLocally hr
  have hp : ∀ k ∈ s.passing r.h, s.PlainUser r.h k := fun k hk => by
    have hmem := (State.mem_passing.mp hk).1
    exact ⟨(State.laneClear_iff.mp ((State.clears_iff.mp hc).2 k hmem)).1, (hu k hmem).2, (hu k hmem).1, hch⟩
  obtain ⟨h1, h2, h3⟩ := runLanes_faultsAlone (g := g s) (F := F s) hc hp (fun k v => (hgF s k v).2.2) fun k v u =>
    (hgF s k v).1 _ u
  refine ⟨_, (exec_expand i s).trans (he s), h1, h2, fun k hk v hv => ?_⟩
  rw [h3 k hk v hv, (hgF s k v).2.1]
  rfl
end

/-! ## A pending divergence (O42) -/

section
namespace Sys2Proof.Machine

/-- Lanes of one group share that group. -/
theorem eraseDups_groupOf {g : Nat} {ks : List Nat} (hne : ks ≠ []) (hg : ∀ k ∈ ks, groupOf k = g) :
    (ks.map groupOf).eraseDups = [g] := by
  cases ks with
  | nil => exact absurd rfl hne
  | cons k ks =>
    have hnil : (ks.map groupOf).filter (fun b => !b == g) = [] := by
      refine List.filter_eq_nil_iff.mpr fun b hb => ?_
      obtain ⟨j, hj, rfl⟩ := List.mem_map.mp hb
      simp [hg j (by simp [hj])]
    rw [List.map_cons, List.eraseDups_cons, hg k (by simp), hnil]
    rfl

/-- UDIV of a group cleared. -/
def State.clearUdiv (s : State) (g : Nat) : State := s.modGrp g fun G => { G with udiv := false }

theorem State.clearUdiv_only (s : State) (g : Nat) : OnlyThreads s (s.clearUdiv g) := .modGrp s g fun _ => rfl

/-- Where the one group of the passing lanes has a divergence pending, a reader of an s register clears UDIV and every
passing lane traps (R28). -/
theorem udivStep_pending {s : State} {h : Hdr} {fm : Form} {g : Nat} {ks : List Nat} (hr : readsS h fm = true)
    (hu : s.udivTraps g = true) (hne : ks ≠ []) (hg : ∀ k ∈ ks, groupOf k = g) :
    udivStep s h fm ks = ((s.clearUdiv g).trapEach h fm (fun _ => (8, 0)) ks, []) := by
  have hgs : ((ks.map groupOf).eraseDups).filter s.udivTraps = [g] := by
    rw [eraseDups_groupOf hne hg]
    simp [hu]
  simp only [udivStep, hr, hgs]
  rfl

/-- A bundle of one group with a divergence pending, whose instruction reads an s register and which nothing else stops:
the passing lanes trap UDIV, the group's UDIV clears, and the others go past. -/
theorem runLanes_pending {s : State} {opc : Nat} {h : Hdr} {fm : Form} {prot : State → Nat → Bool} (f : Entry) {g : Nat}
    (ha : ascending s.cur.threads = true) (hr : readsS h fm = true) (hu : s.udivTraps g = true) (hne : s.passing h ≠ [])
    (hd : ∀ k ∈ s.cur.threads, decodeTrap s opc h fm prot k = none) (hb : ∀ k ∈ s.cur.threads, s.busy k h fm = false)
    (hg : ∀ k ∈ s.cur.threads, groupOf k = g) (hp : ∀ k ∈ s.cur.threads, s.PlainUser h k)
    (hcap : ∀ k ∈ s.cur.threads, (s.thr k).inCapsule = false) :
    let t := runLanes opc h fm prot f s
    OnlyThreadsOf (s.clearUdiv g) t ∧ ∀ k ∈ s.passing h, t.threads.find k = some (trappedThread s k 8 0 h) := by
  have hnd := ascending_nodup ha
  have hmem : ∀ k ∈ s.passing h, k ∈ s.cur.threads := fun k hk => (State.mem_passing.mp hk).1
  have hbusy : (s.cur.threads.any fun k => s.busy k h fm) = false := by simpa [List.any_eq_false] using hb
  have hstep := udivStep_pending (fm := fm) hr hu hne fun k hk => hg k (hmem k hk)
  obtain ⟨t1, t2, t3⟩ := State.trapEach_spec (s := s.clearUdiv g) (ks := s.passing h) fm (fun _ => (8, 0)) (hnd.filter _)
    fun k hk => (hp k (hmem k hk)).congr (u := s.clearUdiv g) rfl
  have hrun : runLanes opc h fm prot f s =
      ((s.cur.threads.filter fun k => !(s.thr k).guard h).foldl
        (failStep ((s.clearUdiv g).trapEach h fm (fun _ => (8, 0)) (s.passing h)) opc h fm)
        ⟨(s.clearUdiv g).trapEach h fm (fun _ => (8, 0)) (s.passing h), [], []⟩).finish s h fm (s.passing h) := by
    unfold runLanes
    rw [decoded_clear hd]
    simp only [hbusy, Bool.false_eq_true, if_false]
    rw [show (s.cur.threads.filter fun k => (s.thr k).guard h) = s.passing h from rfl, hstep]
    rfl
  generalize (s.clearUdiv g).trapEach h fm (fun _ => (8, 0)) (s.passing h) = u at t1 t2 t3 hrun
  rw [foldl_congr (g := fun (r : Run) k => { r with s := u.failLane r.s k h fm }) _ fun k hk r => ?_] at hrun
  · obtain ⟨q1, q2, q3, q4, -⟩ := foldl_fail (s0 := u) (h := h) (fm := fm) _
      (hnd.filter fun k => !(s.thr k).guard h) ⟨u, [], []⟩
    generalize List.foldl (fun (r : Run) k => { r with s := u.failLane r.s k h fm }) ⟨u, [], []⟩ _ = r at q1 q2 q3 q4 hrun
    obtain ⟨v, done, faults⟩ := r
    dsimp only at q1 q2 q3 q4
    subst q2 q3
    have hv := OnlyThreadsOf.trans t1 q1
    rw [hrun, Run.finish_none (s := s) hv.weaken.nextReq]
    refine ⟨hv, fun k hk => ?_⟩
    rw [q4 k (by simp [(State.mem_passing.mp hk).2]), t2 k hk]
    exact congrArg some (trappedThread_congr (s.clearUdiv_only g) rfl _ _ _)
  · obtain ⟨hk, hgu⟩ := List.mem_filter.mp hk
    have hthr : u.thr k = s.thr k := by
      rw [State.thr, t3 k fun hm => by simp [(State.mem_passing.mp hm).2] at hgu]
      rfl
    simp only [failStep, hthr, hcap k hk, Bool.false_and, Bool.false_eq_true, if_false]

/-- MOV reads an s register where its A names one. -/
theorem readsS_mov {h : Hdr} (h1 : 256 ≤ h.a.toNat) (h2 : h.a.toNat < 320) : readsS h fmWV = true := by
  simp [readsS, fmWV, Cls.isReg, h1, h2]

end Sys2Proof.Machine

open Sys2Proof Sys2Proof.Machine

/-- Settles O42: the pending divergence clears UDIV and traps every passing lane before any has read its operand. -/
theorem pendingDivergenceTraps : Obligations.PendingDivergenceTraps := by
  intro h s g G h1 h2 hG hu ha hch hne hk
  obtain ⟨ho, htrap⟩ := runLanes_pending (opc := 0x000) (prot := anyone)
    (fun s0 _ k v run => .ok (run.writeD k h fmWV v.dst v.a)) ha (readsS_mov h1 h2) hu hne
    (fun k hk' => let ⟨_, _, _, _, hd, _⟩ := hk k hk'; hd) (fun k hk' => let ⟨_, _, _, _, _, hb, _⟩ := hk k hk'; hb)
    (fun k hk' => (hk k hk').1) (fun k hk' => let ⟨_, hs, hh, hc, _⟩ := hk k hk'; ⟨hs, hh, hc, hch⟩)
    fun k hk' => let ⟨_, _, _, _, _, _, hc⟩ := hk k hk'; hc
  have hgr : (movOp h false s).groups = s.groups.change g fun G => { G with udiv := false } := congrArg State.groups ho
  refine ⟨_, rfl, (s.clearUdiv_only g).trans ho.weaken, htrap, ?_, fun j hj => ?_⟩
  · rw [hgr, Tbl.find_change_same, hG]
    rfl
  · rw [hgr, Tbl.find_change_other _ _ hj]
end

/-! ## Writes of s registers (O41) -/

section
namespace Sys2Proof.Machine

/-! ### Writes of one s register of a group -/

/-- A group after writes of its s register `n`, in order. -/
def Group.setEach (n : Nat) (ws : List Word) (G : Group) : Group := ws.foldl (fun G w => G.setS n w) G

@[simp] theorem Group.setEach_live (n : Nat) (ws : List Word) (G : Group) : (G.setEach n ws).live = G.live :=
  List.foldlRecOn (motive := fun H : Group => H.live = G.live) ws _ rfl fun _ hH _ _ => hH

@[simp] theorem Group.setEach_udiv (n : Nat) (ws : List Word) (G : Group) : (G.setEach n ws).udiv = G.udiv :=
  List.foldlRecOn (motive := fun H : Group => H.udiv = G.udiv) ws _ rfl fun _ hH _ _ => hH

/-- Another s register keeps its value. -/
theorem Group.setEach_other {n m : Nat} (hm : m ≠ n) (ws : List Word) (G : Group) :
    (G.setEach n ws).s.getD m 0 = G.s.getD m 0 := by
  refine List.foldlRecOn (motive := fun H : Group => H.s.getD m 0 = G.s.getD m 0) ws _ rfl fun H hH w _ => ?_
  rw [← hH]
  simp [Group.setS, List.getD_eq_getElem?_getD, List.getElem?_set_ne hm.symm]

/-- The last write stays. -/
theorem Group.setEach_last {n : Nat} {ws : List Word} {w : Word} {G : Group} (hn : n < G.s.length)
    (hw : ws.getLast? = some w) : (G.setEach n ws).s.getD n 0 = w := by
  obtain ⟨init, rfl⟩ := List.getLast?_eq_some_iff.mp hw
  have hlen : (init.foldl (fun G w => G.setS n w) G).s.length = G.s.length :=
    List.foldlRecOn (motive := fun H : Group => H.s.length = G.s.length) init _ rfl fun H hH x _ => by
      rw [← hH]
      exact List.length_set
  rw [Group.setEach, List.foldl_append]
  simp only [List.foldl_cons, List.foldl_nil, Group.setS]
  rw [List.getD_eq_getElem?_getD, List.getElem?_set_self (hlen ▸ hn), Option.getD_some]

/-! ### Groups after a bundle that writes an s register -/

/-- WriteD of one word to an s register writes it in the thread's group. -/
theorem State.writeD_sreg {s : State} {k n v : Nat} {h : Hdr} {fm : Form} (hn : n < 64) (hw : fm.d.words = 1)
    (hb : h.nowb = false) :
    (s.writeD k h fm (256 + n) v).groups = s.groups.change (groupOf k) (Group.setS n (BitVec.ofNat 32 v)) := by
  have hreg : ∀ u : State, u.writeReg k (256 + n) (BitVec.ofNat 32 v) = u.modGrp (groupOf k) (Group.setS n (BitVec.ofNat 32 v)) :=
    fun u => by
      unfold State.writeReg
      rw [if_neg (by omega), if_neg (by omega), if_pos (by omega), Nat.add_sub_cancel_left]
  simp only [State.writeD, hb, hw, State.writeRun, hreg, if_neg (show ¬ 256 + n = 240 by omega), Bool.false_eq_true, if_false,
    State.modGrp_groups]
  split <;> rfl

/-- Lanes that each write one s register of their group: a group takes the writes of its own lanes, in lane order. -/
theorem lanesRun_sreg {h : Hdr} {out : State → Nat → Vals → Lane} {n : Nat} {w : Vals → Word} {l : List (Nat × Vals)}
    (ho : ∀ kv ∈ l, ∀ u, ((out u kv.1 kv.2).after h kv.1 u).groups = u.groups.change (groupOf kv.1) (Group.setS n (w kv.2)))
    (s : State) (g : Nat) :
    (lanesRun h out l s).groups.find g
      = (s.groups.find g).map (Group.setEach n ((l.filter fun kv => groupOf kv.1 == g).map fun kv => w kv.2)) := by
  induction l generalizing s with
  | nil => exact (Option.map_id' (x := s.groups.find g)).symm
  | cons kv l ih =>
    rw [lanesRun, ih (fun x hx => ho x (by simp [hx])), ho kv (by simp)]
    by_cases hg : groupOf kv.1 = g
    · rw [hg, Tbl.find_change_same, List.filter_cons_of_pos (by simpa using hg), Option.map_map]
      rfl
    · rw [Tbl.find_change_other _ _ (Ne.symm hg), List.filter_cons_of_neg (by simpa using hg)]

/-- A group after a bundle whose passing lanes `pass` and committing lanes `done` write an s register (R27). -/
def Group.marked (g : Nat) (pass done : List Nat) (G : Group) : Group :=
  { G with udiv := G.udiv || (done.any fun k => groupOf k == g) && G.live != laneMask (pass.filter fun j => groupOf j == g) }

/-- One committing lane marks its group where the passing lanes are not the live ones, and no other group. -/
theorem find_markUdiv_step {s acc : State} {pass : List Nat} {g k : Nat} {G H : Group} (hG : s.groups.find g = some G)
    (hH : acc.groups.find g = some H) (hl : H.live = G.live) :
    (if laneMask (pass.filter fun j => groupOf j == groupOf k) == (s.grp (groupOf k)).live then acc
      else acc.modGrp (groupOf k) fun G => { G with udiv := true }).groups.find g = some (H.marked g pass [k]) := by
  by_cases hk : groupOf k = g
  · subst hk
    have hlive : (s.grp (groupOf k)).live = H.live := by rw [State.grp_of_find hG, hl]
    by_cases hm : laneMask (pass.filter fun j => groupOf j == groupOf k) = H.live
    · rw [hlive, if_pos (by simpa using hm), hH]
      simp [Group.marked, hm]
    · rw [hlive, if_neg (by simpa using hm), State.modGrp_groups, Tbl.find_change_same, hH]
      simp [Group.marked, Ne.symm hm]
  · have hmark : H.marked g pass [k] = H := by
      simp [Group.marked, beq_false_of_ne hk]
    rw [hmark, ← hH]
    split
    · rfl
    · exact Tbl.find_change_other _ _ (Ne.symm hk)

/-- The marks of one lane and of the others are those of all. -/
theorem Group.marked_cons (g : Nat) (pass done : List Nat) (k : Nat) (G : Group) :
    (G.marked g pass [k]).marked g pass done = G.marked g pass (k :: done) := by
  simp only [Group.marked, List.any_cons, List.any_nil, Bool.or_false, Bool.or_assoc, Bool.and_or_distrib_right]

/-- UDIV is marked in each group that has a committing lane and whose passing lanes are not its live ones. -/
theorem find_markUdiv {s : State} {g : Nat} {G : Group} (pass done : List Nat) (hG : s.groups.find g = some G) :
    (s.markUdiv pass done).groups.find g = some (G.marked g pass done) := by
  suffices hs : ∀ (acc : State) (H : Group), acc.groups.find g = some H → H.live = G.live →
      (done.foldl (fun acc k => if laneMask (pass.filter fun j => groupOf j == groupOf k) == (s.grp (groupOf k)).live then acc
        else acc.modGrp (groupOf k) fun G => { G with udiv := true }) acc).groups.find g = some (H.marked g pass done) from
    hs s G hG rfl
  induction done with
  | nil =>
    intro acc H hH _
    simpa [Group.marked] using hH
  | cons k done ih =>
    intro acc H hH hl
    rw [List.foldl_cons, ih _ _ (find_markUdiv_step hG hH hl) hl, Group.marked_cons]

/-- The end of a bundle without a fault leaves groups but for UDIV where D is an s register. -/
theorem Run.finish_groups {s : State} {r : Run} {h : Hdr} {fm : Form} {pass : List Nat} (hf : r.faults = [])
    (hd : (fm.dWrite && !h.nowb && decide (256 ≤ h.d.toNat) && decide (h.d.toNat < 320)) = true) :
    (r.finish s h fm pass).groups = (r.s.markUdiv pass r.done).groups := by
  unfold Run.finish
  simp only [hf, hd, if_true]
  split
  · split
    · rfl
    · exact List.foldlRecOn (motive := fun u : State => u.groups = (r.s.markUdiv pass r.done).groups) _ _ rfl fun _ hu _ _ => hu
  · split
    · rfl
    · exact List.foldlRecOn (motive := fun u : State => u.groups = (r.s.markUdiv pass r.done).groups) _ _ rfl fun _ hu _ _ => hu

/-- A D code without an index is the D that the operands give. -/
theorem operands_dst {s : State} {k : Nat} {h : Hdr} {fm : Form} {v : Vals} (hd : h.d.toNat < 512)
    (hv : s.operands k h fm = .ok v) : v.dst = h.d.toNat := by
  have hres : ∀ t, (if fm.d.isReg then resolve t 0 fm.d h.d.toNat else .ok h.d.toNat) = .ok h.d.toNat := fun t => by
    simp [resolve, hd]
  unfold State.operands at hv
  simp only [hres] at hv
  split at hv
  · cases hv
  · split at hv
    · cases hv
    · split at hv
      · cases hv
      · split at hv
        · cases hv
        · cases hv
          rfl

/-- The groups after a bundle whose lanes all commit, each writing one s register of its group that D names: the writes in
lane order, then UDIV (R27). -/
theorem State.bundle_sreg {s : State} {h : Hdr} {fm : Form} {out : State → Nat → Vals → Lane} {n : Nat} {w : Vals → Word}
    (ho : ∀ kv ∈ s.laneValues h fm, ∀ u,
      ((out u kv.1 kv.2).after h kv.1 u).groups = u.groups.change (groupOf kv.1) (Group.setS n (w kv.2)))
    (hd : (fm.dWrite && !h.nowb && decide (256 ≤ h.d.toNat) && decide (h.d.toNat < 320)) = true) {g : Nat} {G : Group}
    (hG : s.groups.find g = some G) :
    (s.bundle h fm out).groups.find g =
      some ((G.setEach n (((s.laneValues h fm).filter fun kv => groupOf kv.1 == g).map fun kv => w kv.2)).marked g
        (s.passing h) (s.passing h)) := by
  have hpast : ∀ u : State, ((s.cur.threads.filter fun k => !(s.thr k).guard h).foldl
      (fun u k => s.failLane u k h fm) u).groups = u.groups := fun u =>
    List.foldlRecOn (motive := fun v : State => v.groups = u.groups) _ _ rfl fun v hv k _ => by
      rw [failLane_only s v k h fm]
      exact hv
  unfold State.bundle
  rw [Run.finish_groups rfl hd]
  refine find_markUdiv _ _ ?_
  rw [hpast, lanesRun_sreg ho, hG]
  rfl

end Sys2Proof.Machine

open Sys2Proof Sys2Proof.Machine

/-- Settles O41: the lanes write in ascending order, so the highest passing lane of each group writes last. -/
theorem uniformWriteTakesHighestLane : Obligations.UniformWriteTakesHighestLane := by
  intro h s n hd hn hc ho _ hnw _
  refine ⟨_, rfl, fun g G hG hlen => ?_⟩
  have hb := State.bundle_sreg (s := s) (h := h) (fm := fmWV) (n := n) (w := fun v => BitVec.ofNat 32 v.a)
    (out := fun u k v => .ok (u.writeD k h fmWV v.dst v.a))
    (fun kv hkv u => by
      rw [operands_dst (by omega) (mem_laneValues.mp hkv).2, hd]
      exact State.writeD_sreg hn rfl hnw)
    (by simp [fmWV, hnw, hd]; omega) hG
  rw [← (runValue_lanes (f := fun _ _ v => v.a) hc ho).1] at hb
  change (movOp h false s).groups.find g = _ at hb
  refine ⟨fun k v hlast => ?_, fun hnone => ?_⟩
  · obtain ⟨hk, hkg⟩ := List.mem_filter.mp (List.mem_of_getLast? hlast)
    have hany : ((s.passing h).any fun j => groupOf j == g) = true :=
      List.any_eq_true.mpr ⟨k, (mem_laneValues.mp hk).1, hkg⟩
    rw [State.grp_of_find hb]
    refine ⟨Group.setEach_last (hlen ▸ hn) ?_, ?_, fun m hm => Group.setEach_other hm _ G⟩
    · rw [List.getLast?_map, hlast]
      rfl
    · simp only [Group.marked, hany, Bool.true_and, Group.setEach_udiv, Group.setEach_live]
  · have hnil : ((s.laneValues h fmWV).filter fun kv => groupOf kv.1 == g) = [] :=
      List.filter_eq_nil_iff.mpr fun kv hkv => by simpa using hnone kv.1 (mem_laneValues.mp hkv).1
    have hany : ((s.passing h).any fun j => groupOf j == g) = false :=
      List.any_eq_false.mpr fun j hj => by simpa using hnone j hj
    simp [hb, hnil, hany, Group.marked, Group.setEach]
end

/-! ## Floating-point and packed instructions complete (O13, O14) -/

section
namespace Sys2Proof.Machine

/-- A form completes by what it expands to (03 R78). -/
theorem LaneRow.Completes.of_expand {r : LaneRow} {i : Instr} (hr : r.Completes (expand i)) : r.Completes i := by
  intro s
  rw [exec_expand]
  exact hr s

/-- The two shapes of the instructions FADD to F2I: a value that raises no event, or one floating result. -/
inductive FloatShape (i : Instr) : LaneRow → Prop where
  | value {opc : Nat} {h : Hdr} {fm : Form} {f : State → Nat → Vals → Nat}
    (he : ∀ s, exec i s = .next (runValue opc h fm f s)) : FloatShape i (.value opc h fm f)
  | float {opc : Nat} {h : Hdr} {fm : Form} {rnd : Nat} {f : RCtx → Vals → Nat × Events}
    (he : ∀ s, exec i s = .next (runFloat opc h fm rnd f s)) : FloatShape i (.float opc h fm rnd f)

theorem floatRow_shape {i : Instr} {r : LaneRow} (hr : floatRow i = some r) : FloatShape i r := by
  cases i
  case fmin | fmax | fcmp | fclass | frnd =>
    cases hr
    exact .value fun _ => rfl
  case fadd | fsub | fmul | ffma | frcp | frsq | fsqrt | fex2 | flg2 | fsin | fcos | ftanh | f2f | i2f | f2i =>
    cases hr
    exact .float fun _ => rfl
  all_goals simp only [floatRow, reduceCtorEq] at hr

theorem FloatShape.completes {i : Instr} {r : LaneRow} (hr : FloatShape i r) : r.Completes i := by
  cases hr with
  | value he => exact value_completes he
  | float he => exact float_completes' he

/-- DP4 and DP8 are integer or floating by their type (R138). -/
theorem dot_completes {i : Instr} {opc : Nat} {h : Hdr} {rnd : Nat} {p : Prop} [Decidable p] {f : State → Nat → Vals → Nat}
    {g : RCtx → Vals → Nat × Events}
    (he : ∀ s, exec i s = .next ((if p then runValue opc h fmWdVV f else runFloat opc h fmWdVV rnd g) s)) :
    (if p then LaneRow.value opc h fmWdVV f else .float opc h fmWdVV rnd g).Completes i := by
  split <;> rename_i hp
  · exact value_completes fun s => by rw [he, if_pos hp]
  · exact float_completes' fun s => by rw [he, if_neg hp]

/-- HADD2 to UNPK: two half-width results, one floating result, an integer dot product, or elements packed or unpacked. -/
theorem packedRow_completes {i : Instr} {r : LaneRow} (hr : packedRow i = some r) : r.Completes i := by
  cases i
  case hadd2 | hmul2 | hfma2 =>
    cases hr
    exact half_completes fun _ => rfl
  case dp2 | sclf =>
    cases hr
    exact float_completes' fun _ => rfl
  case dp4 | dp8 =>
    simp only [packedRow, Option.some.injEq] at hr
    subst hr
    exact dot_completes fun _ => rfl
  case pack =>
    cases hr
    exact events_completes fun _ => rfl
  case unpk =>
    cases hr
    exact value_completes fun _ => rfl
  all_goals simp only [packedRow, reduceCtorEq] at hr

end Sys2Proof.Machine

open Sys2Proof Sys2Proof.Machine

/-- Settles O13: each instruction is `runValue` or `runFloat` of its row's function. -/
theorem floatInstructionsComplete : Obligations.FloatInstructionsComplete :=
  fun _ _ hr => (floatRow_shape hr).completes.of_expand

/-- Settles O14, one instruction at a time; DP4 and DP8 by their type, which makes them integer or floating. -/
theorem packedInstructionsComplete : Obligations.PackedInstructionsComplete :=
  fun _ _ hr => (packedRow_completes hr).of_expand
end

/-! ## Engines and core units (O23) -/

section
namespace Sys2Proof.Machine

/-! ### Parts of copies, gathers and scatters -/

/-- A part at its home is performed as its row says (R206). -/
theorem State.engPerform_eq (s : State) (e part : Nat) (o : EngOp) : s.engPerform e part o = s.partDone e part o := rfl

/-- A part on the host path is sent, answered or failed as its row says (R362, R384). -/
theorem State.engFar_made {s : State} {e part : Nat} {o : EngOp} {x : Nat × Nat} (hx : s.farOf o part = some x) :
    s.engFar e part x.1 x.2 o = s.partMade e part o := by
  simp only [State.engFar, State.partMade, hx]
  cases o.sent.find part with
  | none => rfl
  | some y =>
    have hanswered : (if s.free part % 2 = 1 then (s.modEng e fun o => { o with sent := o.sent.change part fun x =>
        { x with lost := true } }).modPart o.part fun p => { p with linkDrops := p.linkDrops + 1 }
        else s.engPerform e part o) = s.partAnswered e part o := by
      rcases Nat.mod_two_eq_zero_or_one (s.free part) with hp | hp <;> simp [State.partAnswered, State.engPerform_eq, hp]
    simp only [timedOut, decide_eq_true_eq, hanswered]

/-- A part that nothing keeps is made as its row says. -/
theorem State.engPart_ready {s : State} {e part : Nat} {o : EngOp} (h : s.partReady part o = true) :
    s.engPart e part o = s.partMade e part o := by
  simp only [State.partReady, Bool.and_eq_true, Bool.not_eq_true'] at h
  obtain ⟨⟨⟨hopen, hfilled⟩, hfree⟩, hgood⟩ := h
  have hbad : (o.reads part).find? (fun x => (s.blk o.block).spadBad x.1 x.2) = none :=
    List.find?_eq_none.mpr fun x hx => by simpa using List.all_eq_true.mp hgood x hx
  simp only [State.engPart, hopen, hfilled, hfree, hbad, Bool.not_true, Bool.false_eq_true, if_false]
  cases hx : s.farOf o part with
  | none => simp only [State.engPerform_eq, State.partMade, hx]
  | some x => exact State.engFar_made hx

/-! ### Parts of matrix operations -/

/-- A word that exists, is not yet taken and has its line is taken (R200). -/
theorem State.mxLatch_ready {s : State} {e part : Nat} {o : MxOp} (hp : part < 16384)
    (h : (mxWordExists o part && (o.latched.find part).isNone && (o.spadAt part).all fun off => s.linesFilled o.block off 4) = true) :
    s.mxLatch e part o = s.mxDone e part o := by
  rw [Bool.and_eq_true] at h
  obtain ⟨hword, hline⟩ := h
  simp only [State.mxLatch, hword, State.mxDone, hp, if_true]
  cases ho : o.spadAt part with
  | none => rfl
  | some off =>
    rw [ho, Option.all_some] at hline
    simp only [hline, if_true]

/-- A word or a row whose turn it is (R200, R201). -/
theorem State.mxPart_ready {s : State} {e part : Nat} {o : MxOp} (h : s.mxReady e part o = true) :
    s.mxPart e part o = s.mxDone e part o := by
  simp only [State.mxReady, Bool.and_eq_true] at h
  obtain ⟨⟨hruns, hturn⟩, hrest⟩ := h
  simp only [State.mxPart, hruns, Bool.not_true, Bool.false_eq_true, if_false]
  by_cases hword : part < 16384
  · rw [if_pos hword] at hrest
    by_cases hpanel : 1024 ≤ part
    · simp only [hpanel, hword, decide_true, Bool.and_true, if_true]
      exact State.mxLatch_ready hword hrest
    · have hlow : part < 1024 := by omega
      have hstarted : s.mxStarted e o = true := by simpa [hpanel] using hturn
      simp only [hpanel, decide_false, Bool.false_and, Bool.false_eq_true, if_false, hstarted, Bool.not_true, hlow, if_true]
      exact State.mxLatch_ready hword hrest
  · have hlow : ¬ part < 1024 := by omega
    have hstarted : s.mxStarted e o = true := by simpa [hword] using hturn
    simp only [hword, if_false, Bool.and_eq_true, Bool.not_eq_true'] at hrest
    obtain ⟨⟨hlane, hrow⟩, hfilled⟩ := hrest
    simp only [hword, decide_false, Bool.and_false, Bool.false_eq_true, if_false, hstarted, Bool.not_true, hlow, hlane, hrow,
      Bool.or_self, hfilled, State.mxDone]

theorem enginePart_completes {e part : Nat} {r : EventRow} (hr : unitEvent (.enginePart e part) = some r) :
    r.Completes (.enginePart e part) := by
  cases hr
  intro s hok
  refine congrArg go (?_ : enginePartOp e part s = _)
  unfold enginePartOp
  dsimp only at hok ⊢
  cases he : s.engOps.find e with
  | some o =>
    rw [he] at hok
    exact State.engPart_ready hok
  | none =>
    rw [he] at hok
    cases hm : s.mxOps.find e with
    | none => simp [hm] at hok
    | some o =>
      rw [hm, Option.any_some] at hok
      exact State.mxPart_ready hok

/-! ### Other units -/

theorem icacheFill_completes {c o pc : Nat} {r : EventRow} (hr : unitEvent (.icacheFill c o pc) = some r) :
    r.Completes (.icacheFill c o pc) := by
  cases hr
  intro s hok
  refine congrArg go (?_ : icacheFillOp c o pc s = _)
  unfold icacheFillOp State.readied
  dsimp only at hok ⊢
  cases hk : s.parkedAt c o pc with
  | cons k ks => rfl
  | nil =>
    simp only [State.aheadOf, List.isEmpty_nil, Bool.not_true, Bool.false_eq_true, if_false]
    cases (s.coreAt c).aheads.find? fun a => a.oslot == o && a.line == pc / 128 <;> rfl

theorem bankOpDone_completes {c o : Nat} {r : EventRow} (hr : unitEvent (.bankOpDone c o) = some r) :
    r.Completes (.bankOpDone c o) := by
  cases hr
  intro s hbusy
  refine congrArg go (?_ : bankOpDoneOp c o s = _)
  simp only [bankOpDoneOp, show (s.slotAt c o).busy = true from hbusy, Bool.not_true, Bool.false_eq_true, if_false]
  rfl

theorem ringBuildDone_completes {c rs : Nat} {r : EventRow} (hr : unitEvent (.ringBuildDone c rs) = some r) :
    r.Completes (.ringBuildDone c rs) := by
  cases hr
  refine EventRow.on_completes fun s x hx _ => ?_
  refine congrArg go (?_ : ringBuildDoneOp c rs s = _)
  unfold State.ringToBuild at hx
  unfold ringBuildDoneOp
  cases hq : s.ringQueue (s.ringAt c rs) with
  | nil => simp [hq] at hx
  | cons e rest =>
    simp only [hq] at hx ⊢
    cases hw : e.words with
    | none => simp [hw] at hx
    | some ws =>
      simp only [hw, Option.map_some, Option.some.injEq] at hx
      subst hx
      cases s.ringWaited c <;> simp [State.modRing, Ring.built]

theorem mxuOpComplete_completes {e : Nat} {r : EventRow} (hr : unitEvent (.mxuOpComplete e) = some r) :
    r.Completes (.mxuOpComplete e) := by
  cases hr
  refine EventRow.on_completes fun s o ho hok => ?_
  refine congrArg go (?_ : mxuOpCompleteOp e s = _)
  simp only [Bool.and_eq_true] at hok
  obtain ⟨⟨hruns, hstarted⟩, hfilled⟩ := hok
  simp only [mxuOpCompleteOp, ho, hruns, hstarted, hfilled, Bool.not_true, Bool.or_self, Bool.false_eq_true, if_false]
  cases o.kind <;> rfl

theorem copyChunkDone_completes {e : Nat} {r : EventRow} (hr : unitEvent (.copyChunkDone e) = some r) :
    r.Completes (.copyChunkDone e) := by
  cases hr
  refine EventRow.on_completes fun s o ho hok => ?_
  refine congrArg go (?_ : copyChunkDoneOp e s = _)
  rw [Bool.and_eq_true] at hok
  obtain ⟨hcopy, hends⟩ := hok
  simp only [copyChunkDoneOp, ho]
  cases hkind : o.kind with
  | tcopy => exact endUnit_eq s e o hends
  | gather => simp [hkind, EngKind.isCopy] at hcopy

theorem gatherWindowDone_completes {e : Nat} {r : EventRow} (hr : unitEvent (.gatherWindowDone e) = some r) :
    r.Completes (.gatherWindowDone e) := by
  cases hr
  refine EventRow.on_completes fun s o ho hok => ?_
  refine congrArg go (?_ : gatherWindowDoneOp e s = _)
  rw [Bool.and_eq_true] at hok
  obtain ⟨hgather, hends⟩ := hok
  simp only [gatherWindowDoneOp, ho]
  cases hkind : o.kind with
  | gather => exact endUnit_eq s e o hends
  | tcopy => simp [hkind, EngKind.isCopy] at hgather

theorem engineOpComplete_completes {e : Nat} {r : EventRow} (hr : unitEvent (.engineOpComplete e) = some r) :
    r.Completes (.engineOpComplete e) := by
  cases hr
  refine EventRow.on_completes fun s o ho hok => ?_
  refine congrArg go (?_ : engineOpCompleteOp e s = _)
  simp only [Bool.and_eq_true, Bool.not_eq_true'] at hok
  obtain ⟨hopen, hended⟩ := hok
  simp only [engineOpCompleteOp, ho, hopen, hended, Bool.not_true, Bool.or_self, Bool.false_eq_true, if_false]

theorem capsRetryTimer_completes {c : Nat} {r : EventRow} (hr : unitEvent (.capsRetryTimer c) = some r) :
    r.Completes (.capsRetryTimer c) := by
  cases hr
  intro s hok
  exact if_neg (by simpa using hok)

theorem sleepExpire_completes {k : Nat} {r : EventRow} (hr : unitEvent (.sleepExpire k) = some r) :
    r.Completes (.sleepExpire k) := by
  cases hr
  refine EventRow.on_completes fun s d hd hok => ?_
  refine congrArg go (?_ : sleepExpireOp k s = _)
  have hstate : (s.thr k).state = .waiting (.sleep d) := by
    unfold Thread.sleepsTill at hd
    split at hd <;> simp_all
  simp only [sleepExpireOp, hstate]
  exact if_pos hok

/-- Every engine and unit does its step as its row says. -/
theorem unitEvent_completes {i : Instr} {r : EventRow} (hr : unitEvent i = some r) : r.Completes i := by
  cases i
  case enginePart => exact enginePart_completes hr
  case icacheFill => exact icacheFill_completes hr
  case bankOpDone => exact bankOpDone_completes hr
  case ringBuildDone => exact ringBuildDone_completes hr
  case mxuOpComplete => exact mxuOpComplete_completes hr
  case copyChunkDone => exact copyChunkDone_completes hr
  case gatherWindowDone => exact gatherWindowDone_completes hr
  case engineOpComplete => exact engineOpComplete_completes hr
  case capsRetryTimer => exact capsRetryTimer_completes hr
  case sleepExpire => exact sleepExpire_completes hr
  case deferEnd =>
    cases hr
    exact fun _ _ => rfl
  all_goals simp only [unitEvent, reduceCtorEq] at hr

end Sys2Proof.Machine

open Sys2Proof Sys2Proof.Machine

/-- Settles O23, one event at a time. -/
theorem engineStepsComplete : Obligations.EngineStepsComplete :=
  fun _ _ hr => unitEvent_completes hr
end

/-! ## Capsule steps (O33) -/

section
namespace Sys2Proof.Machine

/-! ### A lane at its capsule's expected step -/

theorem LaneRow.atStep_iff {r : LaneRow} {s : State} {k : Nat} :
    r.atStep s k = true ↔
      (s.threads.find k).isSome = true ∧ decodeTrap s r.opc r.h r.fm r.prot k = none ∧ s.busy k r.h r.fm = false
        ∧ (s.thr k).handler = false ∧ (∃ c, (s.thr k).capsule = some c ∧ Machine.atStep (s.thr k) c r.h = true)
        ∧ stepOk r.opc r.h r.fm = true := by
  simp only [LaneRow.atStep, Bool.and_eq_true, Bool.not_eq_true', and_assoc, Option.isNone_iff_eq_none, Option.any_eq_true]

/-- A permitted step is none of the instructions that judge the capsule themselves (R185). -/
theorem ownCapsule_of_stepOk {opc : Nat} {h : Hdr} {fm : Form} (hs : stepOk opc h fm = true) : ownCapsule opc = false := by
  simp only [stepOk, Bool.and_eq_true, Bool.or_eq_true, decide_eq_true_eq] at hs
  obtain ⟨⟨⟨⟨⟨hopc, -⟩, -⟩, -⟩, -⟩, -⟩ := hs
  simp only [ownCapsule, Bool.and_eq_false_iff, decide_eq_false_iff_not]
  omega

/-- A register operand that a step may name is no s register. -/
theorem stepOperandOk_notS {cls : Cls} {code : Nat} (ho : stepOperandOk cls code = true) :
    (cls.isReg && (256 ≤ code && code < 320)) = false := by
  simp only [stepOperandOk, Bool.or_eq_true, Bool.not_eq_true', beq_iff_eq, Bool.and_eq_true, decide_eq_true_eq] at ho
  cases hr : cls.isReg with
  | false => rfl
  | true =>
    simp only [hr, Bool.true_eq_false, false_or] at ho
    simp only [Bool.true_and, Bool.and_eq_false_iff, decide_eq_false_iff_not]
    omega

/-- A permitted step reads no s register. -/
theorem readsS_of_stepOk {opc : Nat} {h : Hdr} {fm : Form} (hs : stepOk opc h fm = true) : readsS h fm = false := by
  simp only [stepOk, Bool.and_eq_true] at hs
  obtain ⟨⟨⟨-, hd⟩, ha⟩, hb⟩ := hs
  simp only [readsS, Bool.or_eq_false_iff]
  refine ⟨⟨?_, ?_⟩, ?_⟩
  · rw [Bool.and_right_comm, stepOperandOk_notS ha, Bool.false_and]
  · cases hi : h.imm with
    | some x => simp only [Option.isNone_some, Bool.and_false, Bool.false_and]
    | none =>
      rw [hi] at hb
      rw [Bool.and_right_comm, stepOperandOk_notS hb, Bool.false_and]
  · rw [Bool.and_assoc, stepOperandOk_notS hd, Bool.and_false]

/-- At its expected step a lane takes its operands as they are. -/
theorem laneValue_atStep {r : LaneRow} {s : State} {k : Nat} (hk : r.atStep s k = true) :
    s.laneValue r.opc r.h r.fm k = s.operands k r.h r.fm := by
  obtain ⟨-, -, -, -, ⟨c, hc, hat⟩, hok⟩ := LaneRow.atStep_iff.mp hk
  unfold State.laneValue
  cases s.operands k r.h r.fm <;> simp [hc, hat, hok]

/-! ### What a step sends -/

/-- A step whose record's address translates commits by what it sends. -/
theorem commitAt_stepSent {u w t : State} {k : Nat} {c : Capsule} {writes : List (BitVec 10 × Word)}
    (ht : u.stepSent w k c writes = some t) :
    u.commitAt k c (fun pa => w.sendCommit k c pa writes none none) = .left t := by
  unfold State.stepSent at ht
  unfold State.commitAt
  cases hx : u.translateFor k c.capr .atomic with
  | error e => simp [hx, Except.toOption] at ht
  | ok x =>
    simp only [hx, Except.toOption, Option.map_some, Option.some.injEq] at ht
    simp only [ht]

/-- A passing lane's outcome is its step. -/
theorem laneOutcome_sends {r : LaneRow} {s u t : State} {k : Nat} {v : Vals} {l : Lane} (hk : r.atStep s k = true)
    (hg : (s.thr k).guard r.h = true) (hl : ∃ w, l = .ok w ∧ r.eff s (s.laneValues r.h r.fm) k v u = .ok w)
    (ht : r.sends s u k v = some t) : laneOutcome s r.opc r.fm k u v l = .left t := by
  obtain ⟨-, -, -, hh, ⟨c, hc, -⟩, hok⟩ := LaneRow.atStep_iff.mp hk
  obtain ⟨w, rfl, he⟩ := hl
  simp only [LaneRow.sends, hc, Option.bind_some, hg, Bool.not_true, Bool.false_eq_true, if_false, he] at ht
  simp only [laneOutcome, Thread.inCapsule, hc, hh, ownCapsule_of_stepOk hok, Option.isSome_some, Bool.not_false, Bool.and_self,
    if_true, stepLane]
  exact commitAt_stepSent ht

/-- A lane whose guard fails commits its step with no destination (R68). -/
theorem stepFail_sends {r : LaneRow} {s u t : State} {k : Nat} {v : Vals} (hk : r.atStep s k = true)
    (hg : (s.thr k).guard r.h = false) (ht : r.sends s u k v = some t) : stepFail s r.h k u = .left t := by
  obtain ⟨-, -, -, -, ⟨c, hc, hat⟩, -⟩ := LaneRow.atStep_iff.mp hk
  simp only [LaneRow.sends, hc, Option.bind_some, hg, Bool.not_false, if_true] at ht
  simp only [stepFail, hc, hat, Bool.not_true, Bool.false_eq_true, if_false]
  exact commitAt_stepSent ht

theorem LaneRow.stepOut_sends {r : LaneRow} {s u t : State} {k : Nat} {v : Vals} (ht : r.sends s u k v = some t) :
    r.stepOut s u k v = .left t := by
  rw [LaneRow.stepOut, ht, Option.elim_some]

/-! ### The turns of a bundle -/

theorem lanesRun_append (h : Hdr) (out : State → Nat → Vals → Lane) (l l' : List (Nat × Vals)) (u : State) :
    lanesRun h out (l ++ l') u = lanesRun h out l' (lanesRun h out l u) := by
  induction l generalizing u with
  | nil => rfl
  | cons a l ih => exact ih _

theorem lanesPass_append (h : Hdr) (out : State → Nat → Vals → Lane) (ok : State → Nat → Vals → Bool)
    (l l' : List (Nat × Vals)) (u : State) :
    lanesPass h out ok (l ++ l') u = (lanesPass h out ok l u && lanesPass h out ok l' (lanesRun h out l u)) := by
  induction l generalizing u with
  | nil => rfl
  | cons a l ih => simp only [List.cons_append, lanesPass, ih, lanesRun, Bool.and_assoc]

/-- Turns that each do to the state what `out` says, and note `d` as done, do together what the lanes run one after another do. -/
theorem foldl_turns_lanesRun {α : Type} {step : Run → α → Run} {kv : α → Nat × Vals} {d : α → List Nat} {h : Hdr}
    {out : State → Nat → Vals → Lane} {ok : State → Nat → Vals → Bool} (l : List α)
    (hs : ∀ a ∈ l, ∀ r : Run, ok r.s (kv a).1 (kv a).2 = true →
      step r a = { r with s := (out r.s (kv a).1 (kv a).2).after h (kv a).1 r.s, done := r.done ++ d a })
    (r : Run) (hp : lanesPass h out ok (l.map kv) r.s = true) :
    l.foldl step r = { r with s := lanesRun h out (l.map kv) r.s, done := r.done ++ l.flatMap d } := by
  induction l generalizing r with
  | nil => simp [lanesRun]
  | cons a l ih =>
    simp only [List.map_cons, lanesPass, Bool.and_eq_true] at hp
    rw [List.foldl_cons, hs a (by simp) r hp.1, ih (fun b hb => hs b (by simp [hb])) _ hp.2]
    simp [lanesRun]

/-- A bundle whose threads stand at their expected steps runs its lanes with nothing taken from them before. -/
theorem runLanes_atStep {r : LaneRow} {s : State} (f : Entry) (hk : ∀ k ∈ s.cur.threads, r.atStep s k = true)
    (ho : s.operandsOk r.h r.fm = true) :
    runLanes r.opc r.h r.fm r.prot f s =
      ((s.cur.threads.filter fun k => !(s.thr k).guard r.h).foldl (failStep s r.opc r.h r.fm)
        (((s.laneValues r.h r.fm).map fun kv => (kv.1, (Except.ok kv.2 : Except (Nat × Nat) Vals))).foldl
          (passStep s r.opc r.h r.fm f (s.laneValues r.h r.fm)) ⟨s, [], []⟩)).finish s r.h r.fm (s.passing r.h) := by
  have hl : ∀ k ∈ s.cur.threads, _ := fun k hm => LaneRow.atStep_iff.mp (hk k hm)
  have hb : (s.cur.threads.any fun k => s.busy k r.h r.fm) = false := by
    simpa [List.any_eq_false] using fun k hm => let ⟨_, _, hb, _⟩ := hl k hm; hb
  have hu : udivStep s r.h r.fm (s.passing r.h) = (s, s.passing r.h) := udivStep_clear fun hr k hm => by
    obtain ⟨-, -, -, -, -, hok⟩ := hl k (State.mem_passing.mp hm).1
    rw [readsS_of_stepOk hok] at hr
    cases hr
  have hvals : (s.passing r.h).map (fun k => (k, s.laneValue r.opc r.h r.fm k))
      = (s.passing r.h).map fun k => (k, s.operands k r.h r.fm) :=
    List.map_congr_left fun k hm => by rw [laneValue_atStep (hk k (State.mem_passing.mp hm).1)]
  unfold runLanes
  rw [decoded_clear fun k hm => let ⟨_, hd, _⟩ := hl k hm; hd]
  simp only [hb, Bool.false_eq_true, if_false]
  rw [show (s.cur.threads.filter fun k => (s.thr k).guard r.h) = s.passing r.h from rfl, hu]
  dsimp only
  rw [hvals, show participants ((s.passing r.h).map fun k => (k, s.operands k r.h r.fm)) = s.laneValues r.h r.fm from rfl,
    laneValues_map ho]

/-- The passing lanes, with or without their values. -/
theorem laneValues_fst {s : State} {h : Hdr} {fm : Form} (ho : s.operandsOk h fm = true) :
    (s.laneValues h fm).map (·.1) = s.passing h := by
  have h1 := congrArg (List.map Prod.fst) (laneValues_map ho)
  simp only [List.map_map] at h1
  exact h1.symm.trans (List.map_id _)

/-- A passing lane's turn is its step, and it counts as done. -/
theorem passStep_sends {r : LaneRow} {s : State} {f : Entry} {R : Run} {k : Nat} {v : Vals} (hk : r.atStep s k = true)
    (hg : (s.thr k).guard r.h = true)
    (hf : ∃ w, f s (s.laneValues r.h r.fm) k v R.s = .ok w ∧ r.eff s (s.laneValues r.h r.fm) k v R.s = .ok w)
    (hs : (r.sends s R.s k v).isSome = true) :
    passStep s r.opc r.h r.fm f (s.laneValues r.h r.fm) R (k, .ok v) =
      { R with s := (r.stepOut s R.s k v).after r.h k R.s, done := R.done ++ [k] } := by
  obtain ⟨t, ht⟩ := Option.isSome_iff_exists.mp hs
  simp only [passStep, laneOutcome_sends hk hg hf ht, LaneRow.stepOut_sends ht]
  rfl

/-- The turn of a lane whose guard fails is its step, which does not count as done. -/
theorem failStep_sends {r : LaneRow} {s : State} {R : Run} {k : Nat} {v : Vals} (hk : r.atStep s k = true)
    (hg : (s.thr k).guard r.h = false) (hs : (r.sends s R.s k v).isSome = true) :
    failStep s r.opc r.h r.fm R k = { R with s := (r.stepOut s R.s k v).after r.h k R.s } := by
  obtain ⟨t, ht⟩ := Option.isSome_iff_exists.mp hs
  obtain ⟨-, -, -, hh, ⟨c, hc, -⟩, hok⟩ := LaneRow.atStep_iff.mp hk
  simp only [failStep, Thread.inCapsule, hc, hh, isStepOf, hok, stepFail_sends hk hg ht, LaneRow.stepOut_sends ht]
  rfl

/-- The passing lanes' turns, one after another. -/
theorem foldl_passStep_sends {r : LaneRow} {s : State} {f : Entry} (hk : ∀ k ∈ s.cur.threads, r.atStep s k = true)
    (hf : ∀ kv ∈ s.laneValues r.h r.fm, ∀ u, ∃ w, f s (s.laneValues r.h r.fm) kv.1 kv.2 u = .ok w
      ∧ r.eff s (s.laneValues r.h r.fm) kv.1 kv.2 u = .ok w)
    (R : Run) (hp : lanesPass r.h (r.stepOut s) (fun u k v => (r.sends s u k v).isSome) (s.laneValues r.h r.fm) R.s = true) :
    ((s.laneValues r.h r.fm).map fun kv => (kv.1, (Except.ok kv.2 : Except (Nat × Nat) Vals))).foldl
        (passStep s r.opc r.h r.fm f (s.laneValues r.h r.fm)) R =
      { R with
        s := lanesRun r.h (r.stepOut s) (s.laneValues r.h r.fm) R.s
        done := R.done ++ (s.laneValues r.h r.fm).map (·.1) } := by
  rw [List.foldl_map, List.map_eq_flatMap]
  refine (foldl_turns_lanesRun (kv := id) (d := fun kv => [kv.1]) (h := r.h) (out := r.stepOut s)
    (ok := fun u k v => (r.sends s u k v).isSome) _ (fun kv hkv R hs => ?_) R (by rwa [List.map_id])).trans (by rw [List.map_id])
  obtain ⟨hm, hg⟩ := State.mem_passing.mp (mem_laneValues.mp hkv).1
  exact passStep_sends (hk _ hm) hg (hf kv hkv R.s) hs

/-- The turns of the lanes whose guard fails, one after another. -/
theorem foldl_failStep_sends {r : LaneRow} {s : State} (v : Vals) (hk : ∀ k ∈ s.cur.threads, r.atStep s k = true) (R : Run)
    (hp : lanesPass r.h (r.stepOut s) (fun u k v => (r.sends s u k v).isSome)
      ((s.cur.threads.filter fun k => !(s.thr k).guard r.h).map (·, v)) R.s = true) :
    (s.cur.threads.filter fun k => !(s.thr k).guard r.h).foldl (failStep s r.opc r.h r.fm) R =
      { R with s := lanesRun r.h (r.stepOut s) ((s.cur.threads.filter fun k => !(s.thr k).guard r.h).map (·, v)) R.s } := by
  refine (foldl_turns_lanesRun (kv := (·, v)) (d := fun _ => []) (h := r.h) (out := r.stepOut s)
    (ok := fun u k v => (r.sends s u k v).isSome) _ (fun k hm R hs => ?_) R hp).trans (by simp)
  obtain ⟨hm, hg⟩ := List.mem_filter.mp hm
  rw [failStep_sends (hk k hm) (by simpa using hg) hs, List.append_nil]

/-- A bundle of capsule steps leaves what its lanes send, in the order of their turns. -/
theorem runLanes_steps {r : LaneRow} {s : State} {f : Entry} (hk : ∀ k ∈ s.cur.threads, r.atStep s k = true)
    (ho : s.operandsOk r.h r.fm = true)
    (hp : lanesPass r.h (r.stepOut s) (fun u k v => (r.sends s u k v).isSome) (r.turns s) s = true)
    (hf : ∀ kv ∈ s.laneValues r.h r.fm, ∀ u, ∃ w, f s (s.laneValues r.h r.fm) kv.1 kv.2 u = .ok w
      ∧ r.eff s (s.laneValues r.h r.fm) kv.1 kv.2 u = .ok w) :
    runLanes r.opc r.h r.fm r.prot f s =
      (Run.mk (lanesRun r.h (r.stepOut s) (r.turns s) s) (s.passing r.h) []).finish s r.h r.fm (s.passing r.h) := by
  rw [LaneRow.turns, lanesPass_append, Bool.and_eq_true] at hp
  obtain ⟨hpass, hfail⟩ := hp
  rw [runLanes_atStep f hk ho, foldl_passStep_sends hk hf ⟨s, [], []⟩ hpass, foldl_failStep_sends ⟨0, 0, 0, 0⟩ hk _ hfail,
    laneValues_fst ho, List.nil_append, LaneRow.turns, lanesRun_append]

/-! ### What the steps leave in the threads -/

/-- A thread that has sent its commit, or waits as it did: its registers, predicates and PC stand. -/
structure Thread.Keeps (t u : Thread) : Prop where
  regs : u.regs = t.regs
  preds : u.preds = t.preds
  pc : u.pc = t.pc
  stalled : t.state = .stalled .sluice → u.state = .stalled .sluice

/-- Threads of a list have sent a commit, which changes nothing that a program reads but fps; the others may have sent one. -/
def State.Sent (ks : List Nat) (s t : State) : Prop :=
  ∀ k, ∃ F : Thread → Thread, t.threads.find k = (s.threads.find k).map F
    ∧ ∀ x, x.Keeps (F x) ∧ (k ∈ ks → (F x).state = .stalled .sluice)

theorem State.Sent.append {ks ls : List Nat} {s t u : State} (h1 : s.Sent ks t) (h2 : t.Sent ls u) : s.Sent (ks ++ ls) u := by
  intro k
  obtain ⟨F, hF, kF⟩ := h1 k
  obtain ⟨G, hG, kG⟩ := h2 k
  refine ⟨G ∘ F, by rw [hG, hF, Option.map_map], fun x => ⟨?_, fun hk => ?_⟩⟩
  · obtain ⟨⟨r1, p1, c1, s1⟩, -⟩ := kF x
    obtain ⟨⟨r2, p2, c2, s2⟩, -⟩ := kG (F x)
    exact ⟨r2.trans r1, p2.trans p1, c2.trans c1, s2 ∘ s1⟩
  · rcases List.mem_append.mp hk with hk | hk
    · exact (kG (F x)).1.stalled ((kF x).2 hk)
    · exact (kG (F x)).2 hk

/-- A change of one thread that keeps what a program reads, and that may stall it until Sluice acknowledges a commit. -/
theorem State.Sent.modThr {ks : List Nat} (s : State) (k : Nat) {F : Thread → Thread} (hF : ∀ x : Thread, x.Keeps (F x))
    (hks : ∀ j ∈ ks, j = k ∧ ∀ x, (F x).state = .stalled .sluice) : s.Sent ks (s.modThr k F) := by
  intro j
  rcases eq_or_ne j k with rfl | hj
  · exact ⟨F, State.find_modThr_same s j F, fun x => ⟨hF x, fun hm => (hks j hm).2 x⟩⟩
  · exact ⟨id, by rw [State.find_modThr_other s F hj, Option.map_id, id],
      fun x => ⟨⟨rfl, rfl, rfl, id⟩, fun hm => absurd (hks j hm).1 hj⟩⟩

theorem State.sendCommit_sent (s : State) (k : Nat) (c : Capsule) (pa : Nat) (writes : List (BitVec 10 × Word)) :
    s.Sent [k] (s.sendCommit k c pa writes none none) :=
  (State.Sent.modThr (ks := []) { s with reqs := s.reqs.put s.nextReq _, nextReq := s.nextReq + 1 } k
    (F := fun t => { t with seq := t.seq + 1 }) (fun _ => ⟨rfl, rfl, rfl, id⟩) (by simp)).append
    (State.Sent.modThr (ks := [k]) _ k (F := fun t => { t with state := .stalled .sluice })
      (fun _ => ⟨rfl, rfl, rfl, fun _ => rfl⟩) fun _ hj => ⟨List.mem_singleton.mp hj, fun _ => rfl⟩)

/-- A step that is sent stalls its thread. -/
theorem LaneRow.sends_sent {r : LaneRow} {s u t : State} {k : Nat} {v : Vals} (ht : r.sends s u k v = some t) : u.Sent [k] t := by
  have hsent : ∀ {w : State} {c : Capsule} {writes : List (BitVec 10 × Word)},
      u.stepSent w k c writes = some t → w.Sent [k] t := by
    intro w c writes hw
    obtain ⟨x, -, rfl⟩ := Option.map_eq_some_iff.mp hw
    exact w.sendCommit_sent k c x.pa writes
  obtain ⟨c, -, hc⟩ := Option.bind_eq_some_iff.mp ht
  split at hc
  · exact hsent hc
  · split at hc
    · refine State.Sent.append (ks := []) ?_ (hsent hc)
      exact .modThr u k (fun _ => ⟨rfl, rfl, rfl, id⟩) (by simp)
    · cases hc

/-- Steps sent one after another stall their threads. -/
theorem lanesRun_sent {r : LaneRow} {s : State} {l : List (Nat × Vals)} {u : State}
    (hp : lanesPass r.h (r.stepOut s) (fun u k v => (r.sends s u k v).isSome) l u = true) :
    u.Sent (l.map (·.1)) (lanesRun r.h (r.stepOut s) l u) := by
  induction l generalizing u with
  | nil => exact fun k => ⟨id, by simp [lanesRun], fun x => ⟨⟨rfl, rfl, rfl, id⟩, by simp⟩⟩
  | cons a l ih =>
    simp only [lanesPass, Bool.and_eq_true] at hp
    obtain ⟨hs, hp⟩ := hp
    obtain ⟨t, ht⟩ := Option.isSome_iff_exists.mp hs
    have hturn : u.Sent [a.1] ((r.stepOut s u a.1 a.2).after r.h a.1 u) := by
      rw [LaneRow.stepOut_sends ht]
      exact (r.sends_sent ht).append (.modThr (ks := []) t a.1 (fun _ => ⟨rfl, rfl, rfl, id⟩) (by simp))
    exact hturn.append (ih hp)

/-- Every lane of the bundle has its turn. -/
theorem LaneRow.mem_turns {r : LaneRow} {s : State} {k : Nat} (ho : s.operandsOk r.h r.fm = true) (hk : k ∈ s.cur.threads) :
    k ∈ (r.turns s).map (·.1) := by
  rw [LaneRow.turns, List.map_append, laneValues_fst ho, List.map_map]
  cases hg : (s.thr k).guard r.h with
  | true => exact List.mem_append_left _ (State.mem_passing.mpr ⟨hk, hg⟩)
  | false => exact List.mem_append_right _ (List.mem_map.mpr ⟨k, List.mem_filter.mpr ⟨hk, by simp [hg]⟩, rfl⟩)

/-- A thread that has sent its commit is Stalled until Sluice acknowledges it. -/
theorem State.Sent.stalled {ks : List Nat} {s t : State} {k : Nat} (h : s.Sent ks t) (hk : k ∈ ks)
    (hs : (s.threads.find k).isSome = true) : (t.thr k).state = .stalled .sluice := by
  obtain ⟨F, hF, kF⟩ := h k
  rw [State.find_thr hs] at hF
  rw [State.thr_of_find hF]
  exact (kF _).2 hk

/-- No register, predicate or PC of any thread differs where commits have been sent. -/
theorem State.Sent.keeps {ks : List Nat} {s t : State} (h : s.Sent ks t) (k : Nat) :
    (t.thr k).regs = (s.thr k).regs ∧ (t.thr k).preds = (s.thr k).preds ∧ (t.thr k).pc = (s.thr k).pc := by
  obtain ⟨F, hF, kF⟩ := h k
  unfold State.thr
  rw [hF]
  cases s.threads.find k with
  | none => exact ⟨rfl, rfl, rfl⟩
  | some x =>
    obtain ⟨⟨hr, hp, hc, -⟩, -⟩ := kF x
    exact ⟨hr, hp, hc⟩

/-- The end of a bundle leaves the threads that wait for Sluice, and every other, as they are. -/
theorem Run.finish_stalled {s u : State} {done pass : List Nat} (h : Hdr) (fm : Form)
    (hst : ∀ k ∈ done, (u.thr k).state = .stalled .sluice) (k : Nat) :
    ((Run.mk u done []).finish s h fm pass).thr k = u.thr k := by
  have hfin := Run.finish_threads (s := s) (r := ⟨u, done, []⟩) (h := h) (fm := fm) (pass := pass) rfl fun j hj => by
    rw [hst j hj]
    rfl
  rw [State.thr, hfin]
  rfl

/-! ### The instructions that may be steps -/

/-- The instruction runs its lanes over the row's opcode and form, and a lane that commits does what the row says. -/
def LaneRow.RunsBy (r : LaneRow) (i : Instr) : Prop :=
  ∃ f : Entry, (∀ s, exec i s = .next (runLanes r.opc r.h r.fm r.prot f s))
    ∧ ∀ s p k v u, r.ok s k v = true → ∃ w, f s p k v u = .ok w ∧ r.eff s p k v u = .ok w

theorem LaneRow.RunsLocally.runsBy {r : LaneRow} {i : Instr} (h : r.RunsLocally i) : r.RunsBy i := by
  obtain ⟨f, g, _, he, hg⟩ := h
  refine ⟨f, he, fun s p k v u _ => ?_⟩
  obtain ⟨h1, h2, -⟩ := hg s k v
  exact ⟨g s k v u, h1 p u, h2 p u⟩

theorem FloatShape.runsBy {i : Instr} {r : LaneRow} (hr : FloatShape i r) : r.RunsBy i := by
  cases hr with
  | value he => exact (value_runsLocally he).runsBy
  | float he =>
    refine ⟨_, he, fun s p k v u hok => ?_⟩
    simp only [LaneRow.float, LaneRow.events, Option.isNone_iff_eq_none] at hok
    exact ⟨_, by simp only [hok], rfl⟩

end Sys2Proof.Machine

open Sys2Proof Sys2Proof.Machine

/-- Settles O33: every lane's turn sends its commit and stalls its thread, which the end of the bundle leaves so. -/
theorem capsuleStepsAreSent : Obligations.CapsuleStepsAreSent := by
  intro i r hr s _ hk ho hp hok
  obtain ⟨f, he, hf⟩ : r.RunsBy i := hr.elim (fun h => (intRow_runsLocally h).runsBy) fun h => (floatRow_shape h).runsBy
  have hsent := lanesRun_sent hp
  have hst : ∀ k ∈ s.cur.threads, ((lanesRun r.h (r.stepOut s) (r.turns s) s).thr k).state = .stalled .sluice := fun k hm =>
    hsent.stalled (LaneRow.mem_turns ho hm) (LaneRow.atStep_iff.mp (hk k hm)).1
  have hthr := Run.finish_stalled (s := s) (done := s.passing r.h) (pass := s.passing r.h) r.h r.fm fun k hm =>
    hst k (State.mem_passing.mp hm).1
  refine ⟨(he s).trans (congrArg go (runLanes_steps hk ho hp fun kv hkv u => ?_)), fun k => ?_, fun k hm => ?_⟩
  · obtain ⟨hm, hv⟩ := mem_laneValues.mp hkv
    exact hf s _ kv.1 kv.2 u (hok kv.1 hm kv.2 hv)
  · rw [hthr]
    exact hsent.keeps k
  · rw [hthr]
    exact hst k hm
end

/-! ## Enabled floating-point events (O43) -/

section
namespace Sys2Proof.Machine

theorem State.PlainUser.modThr {s : State} {h : Hdr} {k : Nat} (hp : s.PlainUser h k) {F : Thread → Thread}
    (hF : ∀ t, (F t).handler = t.handler ∧ (F t).chain = t.chain) : (s.modThr k F).PlainUser h k := by
  obtain ⟨hin, hu, hc, hl⟩ := hp
  have ht := State.thr_modThr_same F hin
  exact ⟨by rw [State.find_modThr_same, Option.isSome_map, hin], by rw [ht, (hF _).1, hu], by rw [ht, (hF _).2, hc], hl⟩

/-- The same change of the same thread in two states that differ in threads alone. -/
theorem OnlyThreadsOf.modThr {s t : State} (ho : OnlyThreadsOf s t) (k : Nat) (F : Thread → Thread) :
    OnlyThreadsOf (s.modThr k F) (t.modThr k F) := by
  unfold OnlyThreadsOf at ho ⊢
  rw [ho]
  rfl

/-- A bundle whose every passing lane, at user privilege and outside chains, changes its thread and traps: each as alone, and
nothing but threads differs. -/
theorem runLanes_changeAndTrap {s : State} {opc : Nat} {h : Hdr} {fm : Form} {prot : State → Nat → Bool} {f : Entry} {cause : Nat}
    {info : Nat → Vals → Nat} {F : Nat → Vals → Thread → Thread} (hc : s.clears opc h fm prot = true)
    (ho : s.operandsOk h fm = true) (h15 : cause ≠ 15) (hp : ∀ k ∈ s.passing h, s.PlainUser h k)
    (hF : ∀ k v t, (F k v t).handler = t.handler ∧ (F k v t).chain = t.chain)
    (hf : ∀ k ∈ s.passing h, ∀ v, s.operands k h fm = .ok v → ∀ u,
      f s (s.laneValues h fm) k v u = .trap (u.modThr k (F k v)) cause (info k v)) :
    let t := runLanes opc h fm prot f s
    OnlyThreadsOf s t ∧ ∀ k ∈ s.passing h, ∀ v, s.operands k h fm = .ok v →
      t.threads.find k = some (trappedThread (s.modThr k (F k v)) k cause (info k v) h) := by
  obtain ⟨r, hr, ⟨hq, hd, hfl⟩, h1, -, -⟩ := runLanes_turns (f := f)
    (Q := fun r => OnlyThreadsOf s r.s ∧ r.done = [] ∧ r.faults = [])
    (R := fun k o => ∀ v, s.operands k h fm = .ok v →
      o = some (trappedThread (s.modThr k (F k v)) k cause (info k v) h)) hc
    (fun r v hr hv => ⟨OnlyThreadsOf.trans hr.1 hv, hr.2⟩) ⟨rfl, rfl, rfl⟩ fun k hk r hq hfind => by
      obtain ⟨v, hv⟩ := State.operandsOk_iff.mp ho k hk
      obtain ⟨hq, hd⟩ := hq
      have hpk := ((hp k hk).congr hfind).modThr (hF k v)
      have hmod := hq.modThr k (F k v)
      have hsame : (r.s.modThr k (F k v)).threads.find k = (s.modThr k (F k v)).threads.find k := by
        rw [State.find_modThr_same, State.find_modThr_same, hfind]
      simp only [plainStep, hv, hf k hk v hv, Run.lane_trap _ h15]
      have honly : OnlyThreadsOf s (r.s.modThr k (F k v)) := OnlyThreadsOf.trans hq rfl
      refine ⟨⟨honly.trans (State.trapLane_only hpk _ _ _), hd⟩, fun v' hv' => ?_, fun j hj => ?_⟩
      · cases hv'
        exact (State.trapLane_self hpk _ _ _).trans (congrArg some (trappedThread_congr hmod.weaken hsame _ _ _))
      · rw [State.trapLane_other hpk _ _ _ hj, State.find_modThr_other _ _ hj]
  obtain ⟨u, done, faults⟩ := r
  subst hd hfl
  dsimp only at hq h1
  rw [hr, Run.finish_none hq.weaken.nextReq]
  exact ⟨hq, h1⟩

/-- The entry of a lane that writes D with a value whose elements raise events (R55, R56). -/
def eventsEntry (h : Hdr) (fm : Form) (base : Nat) (f : State → Nat → Vals → Nat × List Events) : Entry := fun s0 _ k v run =>
  let flagged := run.modThr k fun t => t.orFps (allEvents (f s0 k v).2)
  match nonfinite (s0.thr k).fpc (f s0 k v).2 base with
  | some i => .trap flagged 7 i
  | none => .ok (flagged.writeD k h fm v.dst (f s0 k v).1)

theorem runEvents_eq (opc : Nat) (h : Hdr) (fm : Form) (base : Nat) (f : State → Nat → Vals → Nat × List Events) (s : State) :
    runEvents opc h fm base f s = runLanes opc h fm anyone (eventsEntry h fm base f) s := rfl

/-- An instruction each passing lane of which raises an enabled event: fps takes the lane's events, and the lane traps
NONFINITE (R56). -/
theorem runEvents_allTrap {s : State} {opc : Nat} {h : Hdr} {fm : Form} {base : Nat}
    {f : State → Nat → Vals → Nat × List Events} {x : Nat → Nat} (hc : s.clears opc h fm anyone = true) (ho : s.operandsOk h fm = true)
    (hp : ∀ k ∈ s.passing h, s.PlainUser h k)
    (hev : ∀ k ∈ s.passing h, ∀ v, s.operands k h fm = .ok v → nonfinite (s.thr k).fpc (f s k v).2 base = some (x k)) :
    let t := runEvents opc h fm base f s
    OnlyThreadsOf s t ∧ ∀ k ∈ s.passing h, ∀ v, s.operands k h fm = .ok v →
      t.threads.find k = some (trappedThread (s.modThr k fun t => t.orFps (allEvents (f s k v).2)) k 7 (x k) h) :=
  runLanes_changeAndTrap (f := eventsEntry h fm base f) (F := fun k v t => t.orFps (allEvents (f s k v).2))
    (info := fun k _ => x k) hc ho (by decide) hp (fun _ _ _ => ⟨rfl, rfl⟩) fun k hk v hv u => by
      simp only [eventsEntry, hev k hk v hv]

theorem allEvents_singleton (e : Events) : allEvents [e] = e := BitVec.zero_or

/-- One floating result of a lane, in its thread's rounding context. -/
def State.floatOf (s : State) (rnd : Nat) (f : RCtx → Vals → Nat × Events) (k : Nat) (v : Vals) : Nat × Events :=
  f ((s.thr k).rctx (laneOf k) rnd 0) v

theorem runFloat_eq (opc : Nat) (h : Hdr) (fm : Form) (rnd : Nat) (f : RCtx → Vals → Nat × Events) (s : State) :
    runFloat opc h fm rnd f s
      = runEvents opc h fm 0 (fun s k v => ((s.floatOf rnd f k v).1, [(s.floatOf rnd f k v).2])) s := rfl

theorem runFloat_allTrap {s : State} {opc : Nat} {h : Hdr} {fm : Form} {rnd : Nat} {f : RCtx → Vals → Nat × Events}
    {x : Nat → Nat} (hc : s.clears opc h fm anyone = true) (ho : s.operandsOk h fm = true)
    (hp : ∀ k ∈ s.passing h, s.PlainUser h k)
    (hev : ∀ k ∈ s.passing h, ∀ v, s.operands k h fm = .ok v →
      nonfinite (s.thr k).fpc [(s.floatOf rnd f k v).2] 0 = some (x k)) :
    let t := runFloat opc h fm rnd f s
    OnlyThreadsOf s t ∧ ∀ k ∈ s.passing h, ∀ v, s.operands k h fm = .ok v →
      t.threads.find k = some (trappedThread (s.modThr k fun t => t.orFps (s.floatOf rnd f k v).2) k 7 (x k) h) := by
  rw [runFloat_eq]
  obtain ⟨honly, htrap⟩ := runEvents_allTrap (f := fun s k v => ((s.floatOf rnd f k v).1, [(s.floatOf rnd f k v).2])) hc ho hp hev
  refine ⟨honly, fun k hk v hv => ?_⟩
  rw [htrap k hk v hv, allEvents_singleton]

end Sys2Proof.Machine

open Sys2Proof Sys2Proof.Machine

/-- Settles O43: every passing lane's turn is its flags, then the trap, which writes nothing else. -/
theorem enabledEventTraps : Obligations.EnabledEventTraps := by
  intro h rnd s x hc ho hch ev hu hev
  have hp : ∀ k ∈ s.passing h, s.PlainUser h k := fun k hk => by
    have hm := (State.mem_passing.mp hk).1
    obtain ⟨hhandler, hchain, -⟩ := hu k hm
    exact ⟨(State.laneClear_iff.mp ((State.clears_iff.mp hc).2 k hm)).1, hhandler, hchain, hch⟩
  exact ⟨_, rfl, runFloat_allTrap (f := fun c v => valAdd .f32 c (c.f32 v.a) (c.f32 v.b)) hc ho hp hev⟩
end

/-! ## Decoding what the encoder wrote (O2) -/

section
namespace Sys2Proof

/-! ### Bytes, lowest first -/

@[simp] theorem length_leBytes (n v : Nat) : (leBytes n v).length = n := by
  induction n generalizing v with
  | zero => rfl
  | succ n ih => simp [leBytes, ih]

theorem leNat_leBytes_append (n v : Nat) (bs : List Byte) :
    leNat (leBytes n v ++ bs) = v % 256 ^ n + 256 ^ n * leNat bs := by
  induction n generalizing v with
  | zero => simp [leBytes, Nat.mod_one]
  | succ n ih =>
    have hv : v % (256 * 256 ^ n) = v % 256 + 256 * (v / 256 % 256 ^ n) := Nat.mod_mul
    simp only [leBytes, List.cons_append, leNat, ih, BitVec.toNat_ofNat, Nat.pow_succ', hv]
    ring

/-- A unit at the head of the bytes: the number that the decoder reads holds it in its low bits. -/
theorem leNat_take_leBytes {n v : Nat} (hn : n ≤ 12) (hv : v < 256 ^ n) (rest : List Byte) :
    ∃ r, leNat ((leBytes n v ++ rest).take 12) = v + 256 ^ n * r :=
  ⟨leNat (rest.take (12 - n)), by
    rw [List.take_append, length_leBytes, List.take_of_length_le (by rw [length_leBytes]; exact hn),
      leNat_leBytes_append, Nat.mod_eq_of_lt hv]⟩

/-! ### The compact table and the opcodes -/

theorem Instr.opc_lt (i : Instr) : i.opc < 2 ^ 10 := by
  unfold Instr.opc; split <;> decide

theorem Instr.compact?_eq_none {i : Instr} (h : i.hdr?.isSome = true) : i.compact? = none := by
  unfold Instr.compact?
  split
  case h_65 => rfl
  all_goals cases h

theorem compactInstr_of_compact? {i : Instr} {k : Nat} {d a b : Byte} (h : i.compact? = some (k, d, a, b)) :
    k < 2 ^ 6 ∧ compactInstr k d a b = i := by
  unfold Instr.compact? at h
  split at h <;> cases h <;> exact ⟨by decide, rfl⟩

theorem compactInstr_isCompact (k : Nat) (d a b : Byte) : (compactInstr k d a b).compact?.isSome = true := by
  unfold compactInstr; split <;> rfl

/-! ### Units: each field reads back -/

/-- The modifier region of a full unit (R69): the immediate below the modifier fields and MOD[39], or the fields alone. -/
def modRegion (m : Nat) : Option Word → Nat
  | some v => v.toNat + 2 ^ 32 * m + 2 ^ 39
  | none => m

theorem encodeFull_eq (opc m : Nat) (h : Hdr) :
    encodeFull opc m h = 2 + 2 ^ 2 * opc + 2 ^ 12 * h.gp.toNat + 2 ^ 15 * b2n h.gn + 2 ^ 16 * h.d.toNat
      + 2 ^ 26 * h.a.toNat + 2 ^ 36 * h.b.toNat + 2 ^ 46 * h.hint.toNat + 2 ^ 56 * modRegion m h.imm := rfl

theorem modRegion_lt {m : Nat} {imm : Option Word} (hm : m < 2 ^ 39) (hi : imm.isSome = true → m < 2 ^ 7) :
    modRegion m imm < 2 ^ 40 := by
  cases imm with
  | none => dsimp only [modRegion]; omega
  | some v => have hm7 := hi rfl; dsimp only [modRegion]; omega

theorem modRegion_reads {w m : Nat} {imm : Option Word} (hw : field w 56 40 = modRegion m imm) (hm : m < 2 ^ 39)
    (hi : imm.isSome = true → m < 2 ^ 7) :
    (if bit w 95 then some (bits 32 w 56) else none) = imm ∧ (if bit w 95 then field w 88 7 else field w 56 39) = m := by
  unfold field modRegion at hw
  cases imm with
  | none =>
    dsimp only at hw
    have h95 : bit w 95 = false := bit_of (by rw [b2n_false]; omega)
    have hmods : field w 56 39 = m := by unfold field; omega
    simp [h95, hmods]
  | some v =>
    have hm7 := hi rfl
    dsimp only at hw
    have h95 : bit w 95 = true := bit_of (by rw [b2n_true]; omega)
    have hv : bits 32 w 56 = v := bits_of (by omega)
    have hmods : field w 88 7 = m := by unfold field; omega
    simp [h95, hv, hmods]

theorem encodeFull_lt {opc m : Nat} {h : Hdr} (ho : opc < 2 ^ 10) (hm : m < 2 ^ 39)
    (hi : h.imm.isSome = true → m < 2 ^ 7) : encodeFull opc m h < 2 ^ 96 := by
  have hn := b2n_lt h.gn
  have hM := modRegion_lt hm hi
  rw [encodeFull_eq]
  omega

theorem decodeUnit_encodeFull {opc m : Nat} {h : Hdr} (hl : h.len = .full) (ho : opc < 2 ^ 10) (hm : m < 2 ^ 39)
    (hi : h.imm.isSome = true → m < 2 ^ 7) (r : Nat) :
    decodeUnit (encodeFull opc m h + 2 ^ 96 * r) = decodedOf opc 12 (decodeOp opc h m) := by
  obtain ⟨len, gp, gn, hint, d, a, b, imm⟩ := h
  obtain rfl : len = .full := hl
  have hn := b2n_lt gn
  have hM := modRegion_lt hm hi
  generalize hw : encodeFull opc m ⟨.full, gp, gn, hint, d, a, b, imm⟩ + 2 ^ 96 * r = w
  rw [encodeFull_eq] at hw
  dsimp only at hw hM hi
  have hlen : w % 4 = 2 := by omega
  have hopc : field w 2 10 = opc := by unfold field; omega
  have hgp : bits 3 w 12 = gp := bits_of (by omega)
  have hgn : bit w 15 = gn := bit_of (by omega)
  have hd : bits 10 w 16 = d := bits_of (by omega)
  have ha : bits 10 w 26 = a := bits_of (by omega)
  have hb : bits 10 w 36 = b := bits_of (by omega)
  have hhint : bits 10 w 46 = hint := bits_of (by omega)
  obtain ⟨himm, hmods⟩ := modRegion_reads (w := w) (by unfold field; omega) hm hi
  simp only [decodeUnit, hlen, decodeFull, hopc, hgp, hgn, hd, ha, hb, hhint, himm, hmods]

theorem encodeMedium_lt {opc m : Nat} (h : Hdr) (ho : opc < 2 ^ 10) (hm : m < 2 ^ 6) : encodeMedium opc m h < 2 ^ 64 := by
  have hn := b2n_lt h.gn
  unfold encodeMedium
  omega

theorem decodeUnit_encodeMedium {opc m : Nat} {h : Hdr} (hl : h.len = .medium) (hi : h.imm = none) (ho : opc < 2 ^ 10)
    (hm : m < 2 ^ 6) (r : Nat) :
    decodeUnit (encodeMedium opc m h + 2 ^ 64 * r) = decodedOf opc 8 (decodeOp opc h m) := by
  obtain ⟨len, gp, gn, hint, d, a, b, imm⟩ := h
  obtain rfl : len = .medium := hl
  obtain rfl : imm = none := hi
  have hn := b2n_lt gn
  generalize hw : encodeMedium opc m ⟨.medium, gp, gn, hint, d, a, b, none⟩ + 2 ^ 64 * r = w
  unfold encodeMedium at hw
  dsimp only at hw
  have hlen : w % 4 = 1 := by omega
  have hopc : field w 2 10 = opc := by unfold field; omega
  have hzero : field w 12 2 = 0 := by unfold field; omega
  have hgp : bits 3 w 14 = gp := bits_of (by omega)
  have hgn : bit w 17 = gn := bit_of (by omega)
  have hd : bits 10 w 18 = d := bits_of (by omega)
  have ha : bits 10 w 28 = a := bits_of (by omega)
  have hb : bits 10 w 38 = b := bits_of (by omega)
  have hhint : bits 10 w 48 = hint := bits_of (by omega)
  have hmods : field w 58 6 = m := by unfold field; omega
  simp only [decodeUnit, hlen, decodeMedium, hzero, ne_eq, not_true_eq_false, if_false, hopc, hgp, hgn, hd, ha, hb, hhint,
    hmods]

theorem encodeCompact_lt {k : Nat} (d a b : Byte) (hk : k < 2 ^ 6) : encodeCompact k d a b < 2 ^ 32 := by
  unfold encodeCompact
  omega

theorem decodeUnit_encodeCompact {k : Nat} {d a b : Byte} (hk : k < 2 ^ 6)
    (hb : (compactInstr k d a b).compactBytes.all compactByteOk = true) (r : Nat) :
    decodeUnit (encodeCompact k d a b + 2 ^ 32 * r) = .instr (compactInstr k d a b) 4 := by
  generalize hw : encodeCompact k d a b + 2 ^ 32 * r = w
  unfold encodeCompact at hw
  have hlen : w % 4 = 0 := by omega
  have hidx : field w 2 6 = k := by unfold field; omega
  have hd : bits 8 w 8 = d := bits_of (by omega)
  have ha : bits 8 w 16 = a := bits_of (by omega)
  have hb' : bits 8 w 24 = b := bits_of (by omega)
  simp only [decodeUnit, hlen, decodeCompact, hidx, hd, ha, hb', hb, if_true]

/-! ### Well-formed instructions -/

theorem Hdr.wf_iff {h : Hdr} {pol : ImmPolicy} {m : Nat} :
    h.wf pol m = true ↔ h.len ≠ .compact ∧ (h.len = .medium → h.imm = none ∧ m < 2 ^ 6)
      ∧ (h.imm.isSome = true → m < 2 ^ 7) ∧ h.hint.getLsbD 0 = false ∧ pol.bad h.imm = false := by
  obtain ⟨len, gp, gn, hint, d, a, b, imm⟩ := h
  cases len <;> cases imm <;> simp [Hdr.wf, and_assoc]

end Sys2Proof

namespace Sys2Proof.Laws

/-- The opcode table reads every well-formed word form back: the laws made per instruction, gathered; compact forms and
steps have no header. -/
theorem Fields.all (i : Instr) : Fields.Statement i := by
  cases i with
  | mov => apply Fields.mov
  | movi => apply Fields.movi
  | sel => apply Fields.sel
  | iadd => apply Fields.iadd
  | isub => apply Fields.isub
  | iadc => apply Fields.iadc
  | imul => apply Fields.imul
  | imulh => apply Fields.imulh
  | imad => apply Fields.imad
  | imin => apply Fields.imin
  | imax => apply Fields.imax
  | iabs => apply Fields.iabs
  | ineg => apply Fields.ineg
  | andw => apply Fields.andw
  | orw => apply Fields.orw
  | xorw => apply Fields.xorw
  | andn => apply Fields.andn
  | notw => apply Fields.notw
  | shl => apply Fields.shl
  | shr => apply Fields.shr
  | sar => apply Fields.sar
  | rotl => apply Fields.rotl
  | bfx => apply Fields.bfx
  | bfi => apply Fields.bfi
  | popc => apply Fields.popc
  | clz => apply Fields.clz
  | ctz => apply Fields.ctz
  | brev => apply Fields.brev
  | icmp => apply Fields.icmp
  | plop => apply Fields.plop
  | lea => apply Fields.lea
  | add64 => apply Fields.add64
  | cmp64 => apply Fields.cmp64
  | cvti => apply Fields.cvti
  | bsel => apply Fields.bsel
  | fadd => apply Fields.fadd
  | fsub => apply Fields.fsub
  | fmul => apply Fields.fmul
  | ffma => apply Fields.ffma
  | fmin => apply Fields.fmin
  | fmax => apply Fields.fmax
  | fcmp => apply Fields.fcmp
  | fclass => apply Fields.fclass
  | frnd => apply Fields.frnd
  | frcp => apply Fields.frcp
  | frsq => apply Fields.frsq
  | fsqrt => apply Fields.fsqrt
  | fex2 => apply Fields.fex2
  | flg2 => apply Fields.flg2
  | fsin => apply Fields.fsin
  | fcos => apply Fields.fcos
  | ftanh => apply Fields.ftanh
  | f2f => apply Fields.f2f
  | i2f => apply Fields.i2f
  | f2i => apply Fields.f2i
  | hadd2 => apply Fields.hadd2
  | hmul2 => apply Fields.hmul2
  | hfma2 => apply Fields.hfma2
  | dp2 => apply Fields.dp2
  | dp4 => apply Fields.dp4
  | dp8 => apply Fields.dp8
  | sclf => apply Fields.sclf
  | pack => apply Fields.pack
  | unpk => apply Fields.unpk
  | rsadd => apply Fields.rsadd
  | rssub => apply Fields.rssub
  | rsmul => apply Fields.rsmul
  | rsdiv => apply Fields.rsdiv
  | rsneg => apply Fields.rsneg
  | rsrcp => apply Fields.rsrcp
  | rssqr => apply Fields.rssqr
  | rsfrom => apply Fields.rsfrom
  | rslo => apply Fields.rslo
  | rshi => apply Fields.rshi
  | rsuni => apply Fields.rsuni
  | rsint => apply Fields.rsint
  | rstest => apply Fields.rstest
  | rspack => apply Fields.rspack
  | rsunpk => apply Fields.rsunpk
  | rsring => apply Fields.rsring
  | bra => apply Fields.bra
  | brx => apply Fields.brx
  | call => apply Fields.call
  | ret => apply Fields.ret
  | loop => apply Fields.loop
  | exit => apply Fields.exit
  | yieldI => apply Fields.yieldI
  | nop => apply Fields.nop
  | sleep => apply Fields.sleep
  | bar => apply Fields.bar
  | bara => apply Fields.bara
  | launch => apply Fields.launch
  | cjoin => apply Fields.cjoin
  | rjen => apply Fields.rjen
  | rjwait => apply Fields.rjwait
  | rjleave => apply Fields.rjleave
  | lxch => apply Fields.lxch
  | vote => apply Fields.vote
  | segred => apply Fields.segred
  | scan => apply Fields.scan
  | matchL => apply Fields.matchL
  | lead => apply Fields.lead
  | bcast => apply Fields.bcast
  | ld => apply Fields.ld
  | st => apply Fields.st
  | lds => apply Fields.lds
  | sts => apply Fields.sts
  | ldc => apply Fields.ldc
  | ldf => apply Fields.ldf
  | pref => apply Fields.pref
  | cinv => apply Fields.cinv
  | smap => apply Fields.smap
  | swb => apply Fields.swb
  | sinv => apply Fields.sinv
  | atom => apply Fields.atom
  | atomc => apply Fields.atomc
  | red => apply Fields.red
  | atomsc => apply Fields.atomsc
  | atoms => apply Fields.atoms
  | fence => apply Fields.fence
  | waitc => apply Fields.waitc
  | waitg => apply Fields.waitg
  | armw => apply Fields.armw
  | arrv => apply Fields.arrv
  | caps => apply Fields.caps
  | cld => apply Fields.cld
  | cst => apply Fields.cst
  | cend => apply Fields.cend
  | cadopt => apply Fields.cadopt
  | cqry => apply Fields.cqry
  | mma => apply Fields.mma
  | mmai => apply Fields.mmai
  | mmab => apply Fields.mmab
  | mmas => apply Fields.mmas
  | tmv => apply Fields.tmv
  | mzero => apply Fields.mzero
  | mopr => apply Fields.mopr
  | mwait => apply Fields.mwait
  | tcopy => apply Fields.tcopy
  | rcfence => apply Fields.rcfence
  | cpwait => apply Fields.cpwait
  | gath => apply Fields.gath
  | scat => apply Fields.scat
  | hset => apply Fields.hset
  | hnext => apply Fields.hnext
  | hsave => apply Fields.hsave
  | hload => apply Fields.hload
  | hstat => apply Fields.hstat
  | hxst => apply Fields.hxst
  | hxld => apply Fields.hxld
  | hxclr => apply Fields.hxclr
  | hxrd => apply Fields.hxrd
  | hxwr => apply Fields.hxwr
  | hxcfg => apply Fields.hxcfg
  | trapI => apply Fields.trapI
  | xret => apply Fields.xret
  | mfs => apply Fields.mfs
  | mts => apply Fields.mts
  | mfsT => apply Fields.mfsT
  | mtsT => apply Fields.mtsT
  | bkpt => apply Fields.bkpt
  | dbgmsg => apply Fields.dbgmsg
  | pmark => apply Fields.pmark
  | pmrd => apply Fields.pmrd
  | clkrd => apply Fields.clkrd
  | ipref => apply Fields.ipref
  | qntf => apply Fields.qntf
  | tokrd => apply Fields.tokrd
  | _ => exact fun _ h => nomatch h

end Sys2Proof.Laws

namespace Sys2Proof

/-- The encoding of an instruction has the length of its unit. -/
@[simp] theorem length_encode (i : Instr) : (encode i).length = (encodeUnit i).2 := length_leBytes _ _

/-- Decoding bytes that begin with a unit reads that unit, whatever lies above it. -/
theorem decodeBytes_encode {i : Instr} {w n : Nat} (he : encodeUnit i = (w, n)) (hn : n ≤ 12) (hv : w < 256 ^ n)
    (hd : ∀ r, decodeUnit (w + 256 ^ n * r) = .instr i n) (rest : List Byte) :
    decodeBytes (encode i ++ rest) = .instr i (encode i).length := by
  obtain ⟨r, hr⟩ := leNat_take_leBytes hn hv rest
  rw [length_encode, decodeBytes, encode, he, hr, hd]

theorem decodeBytes_encode_compact {i : Instr} (hw : i.wf = true) (hc : i.compact?.isSome = true) (rest : List Byte) :
    decodeBytes (encode i ++ rest) = .instr i (encode i).length := by
  obtain ⟨⟨k, d, a, b⟩, hc⟩ := Option.isSome_iff_exists.mp hc
  obtain ⟨hk, rfl⟩ := compactInstr_of_compact? hc
  have he : encodeUnit (compactInstr k d a b) = (encodeCompact k d a b, 4) := by rw [encodeUnit, hc]
  have hb : (compactInstr k d a b).compactBytes.all compactByteOk = true := (Bool.and_eq_true_iff.mp hw).2
  exact decodeBytes_encode he (by decide) (encodeCompact_lt d a b hk) (decodeUnit_encodeCompact hk hb) rest

theorem Instr.wf_word {i : Instr} {h : Hdr} (hw : i.wf = true) (hh : i.hdr? = some h) :
    h.wf i.immPolicy i.mods = true ∧ i.badFields = false := by
  have hw := (Bool.and_eq_true_iff.mp hw).1
  simpa [hh] using hw

theorem decodeBytes_encode_word {i : Instr} {h : Hdr} (hw : i.wf = true) (hh : i.hdr? = some h) (rest : List Byte) :
    decodeBytes (encode i ++ rest) = .instr i (encode i).length := by
  obtain ⟨hwf, hbad⟩ := i.wf_word hw hh
  obtain ⟨hlen, hmed, himm, hhint, hpol⟩ := Hdr.wf_iff.mp hwf
  obtain ⟨hop, hmods⟩ := Laws.Fields.all i h hh hhint hpol hbad
  have hnc : i.compact? = none := Instr.compact?_eq_none (by rw [hh]; rfl)
  cases hl : h.len with
  | compact => exact absurd hl hlen
  | medium =>
    obtain ⟨hnone, hm6⟩ := hmed hl
    have he : encodeUnit i = (encodeMedium i.opc i.mods h, 8) := by simp only [encodeUnit, hnc, hh, hl]
    refine decodeBytes_encode he (by decide) (encodeMedium_lt h i.opc_lt hm6) (fun r => ?_) rest
    exact (decodeUnit_encodeMedium hl hnone i.opc_lt hm6 r).trans (by rw [hop, decodedOf])
  | full =>
    have he : encodeUnit i = (encodeFull i.opc i.mods h, 12) := by simp only [encodeUnit, hnc, hh, hl]
    refine decodeBytes_encode he (by decide) (encodeFull_lt i.opc_lt hmods himm) (fun r => ?_) rest
    exact (decodeUnit_encodeFull hl i.opc_lt hmods himm r).trans (by rw [hop, decodedOf])

end Sys2Proof

open Sys2Proof

/-- Settles O2: the unit stands in the low bits of what the decoder reads, each of its fields reads back, and the entry
of the opcode table (R85) gives the modifier fields back. -/
theorem decodeEncodeAgree : Obligations.DecodeEncodeAgree := by
  intro i hw hi rest
  rcases Bool.or_eq_true_iff.mp hi with hh | hc
  · obtain ⟨h, hh⟩ := Option.isSome_iff_exists.mp hh
    exact decodeBytes_encode_word hw hh rest
  · exact decodeBytes_encode_compact hw hc rest
end

/-! ## Units that do not decode (O3) -/

section
namespace Sys2Proof

/-! ### The opcode map -/

/-- How an encoding table answers: WHY 1 where R85 assigns the opcode to no entry; otherwise by the entry of a word form
of that opcode, with its immediate rule, its modifier mask and the field values it rules out. -/
def TableAnswer (opc : Nat) (h : Hdr) (m : Nat) (e : Except Nat Instr) : Prop :=
  (decodeOp.decodable opc = false ∧ e = .error 1)
    ∨ ∃ pol mask bad i, e = form pol mask bad h m i ∧ i.hdr? = some h ∧ i.opc = opc

theorem TableAnswer.unassigned {opc : Nat} {h : Hdr} {m : Nat} (ho : decodeOp.decodable opc = true → False) :
    TableAnswer opc h m (.error 1) :=
  .inl ⟨Bool.eq_false_iff.mpr ho, rfl⟩

theorem TableAnswer.entry {opc : Nat} {h : Hdr} {m : Nat} {pol : ImmPolicy} {mask : Nat} {bad : Option Nat} {i : Instr}
    (hh : i.hdr? = some h) (ho : i.opc = opc) : TableAnswer opc h m (form pol mask bad h m i) :=
  .inr ⟨pol, mask, bad, i, rfl, hh, ho⟩

theorem decodable_iff {o : Nat} :
    decodeOp.decodable o = true ↔ o ≤ 0x022 ∨ 0x080 ≤ o ∧ o ≤ 0x09C ∨ 0x100 ≤ o ∧ o ≤ 0x10F ∨ 0x140 ≤ o ∧ o ≤ 0x156
      ∨ 0x180 ≤ o ∧ o ≤ 0x18F ∨ 0x200 ≤ o ∧ o ≤ 0x20A ∨ 0x240 ≤ o ∧ o ≤ 0x247 ∨ 0x280 ≤ o ∧ o ≤ 0x289
      ∨ 0x2C0 ≤ o ∧ o ≤ 0x2D1 := by
  simp [decodeOp.decodable, or_assoc]

theorem decodeInt_answer (h : Hdr) (m : Nat) {opc : Nat} (hc : opc / 64 = 0) :
    TableAnswer opc h m (decodeInt opc h m) := by
  unfold decodeInt
  split
  case h_36 =>
    refine .unassigned fun ho => ?_
    obtain ⟨hlo, hhi⟩ : 0x000 ≤ opc ∧ opc ≤ 0x022 := by have hr := decodable_iff.mp ho; omega
    interval_cases opc <;> contradiction
  all_goals exact .entry rfl rfl

theorem decodeFloat_answer (h : Hdr) (m : Nat) {opc : Nat} (hc : opc / 64 = 2) :
    TableAnswer opc h m (decodeFloat opc h m) := by
  unfold decodeFloat
  split
  case h_30 =>
    refine .unassigned fun ho => ?_
    obtain ⟨hlo, hhi⟩ : 0x080 ≤ opc ∧ opc ≤ 0x09C := by have hr := decodable_iff.mp ho; omega
    interval_cases opc <;> contradiction
  all_goals exact .entry rfl rfl

theorem decodeRing_answer (h : Hdr) (m : Nat) {opc : Nat} (hc : opc / 64 = 4) :
    TableAnswer opc h m (decodeRing opc h m) := by
  unfold decodeRing
  split
  case h_17 =>
    refine .unassigned fun ho => ?_
    obtain ⟨hlo, hhi⟩ : 0x100 ≤ opc ∧ opc ≤ 0x10F := by have hr := decodable_iff.mp ho; omega
    interval_cases opc <;> contradiction
  all_goals exact .entry rfl rfl

theorem decodeControl_answer (h : Hdr) (m : Nat) {opc : Nat} (hc : opc / 64 = 5) :
    TableAnswer opc h m (decodeControl opc h m) := by
  unfold decodeControl
  split
  case h_24 =>
    refine .unassigned fun ho => ?_
    obtain ⟨hlo, hhi⟩ : 0x140 ≤ opc ∧ opc ≤ 0x156 := by have hr := decodable_iff.mp ho; omega
    interval_cases opc <;> contradiction
  all_goals exact .entry rfl rfl

theorem decodeMemory_answer (h : Hdr) (m : Nat) {opc : Nat} (hc : opc / 64 = 6) :
    TableAnswer opc h m (decodeMemory opc h m) := by
  unfold decodeMemory
  split
  case h_17 =>
    refine .unassigned fun ho => ?_
    obtain ⟨hlo, hhi⟩ : 0x180 ≤ opc ∧ opc ≤ 0x18F := by have hr := decodable_iff.mp ho; omega
    interval_cases opc <;> contradiction
  all_goals exact .entry rfl rfl

theorem decodeSync_answer (h : Hdr) (m : Nat) {opc : Nat} (hc : opc / 64 = 8) :
    TableAnswer opc h m (decodeSync opc h m) := by
  unfold decodeSync
  split
  case h_12 =>
    refine .unassigned fun ho => ?_
    obtain ⟨hlo, hhi⟩ : 0x200 ≤ opc ∧ opc ≤ 0x20A := by have hr := decodable_iff.mp ho; omega
    interval_cases opc <;> contradiction
  all_goals exact .entry rfl rfl

theorem decodeMatrix_answer (h : Hdr) (m : Nat) {opc : Nat} (hc : opc / 64 = 9) :
    TableAnswer opc h m (decodeMatrix opc h m) := by
  unfold decodeMatrix
  split
  case h_9 =>
    refine .unassigned fun ho => ?_
    obtain ⟨hlo, hhi⟩ : 0x240 ≤ opc ∧ opc ≤ 0x247 := by have hr := decodable_iff.mp ho; omega
    interval_cases opc <;> contradiction
  all_goals exact .entry rfl rfl

theorem decodeEngine_answer (h : Hdr) (m : Nat) {opc : Nat} (hc : opc / 64 = 10) :
    TableAnswer opc h m (decodeEngine opc h m) := by
  unfold decodeEngine
  split
  case h_11 =>
    refine .unassigned fun ho => ?_
    obtain ⟨hlo, hhi⟩ : 0x280 ≤ opc ∧ opc ≤ 0x289 := by have hr := decodable_iff.mp ho; omega
    interval_cases opc <;> contradiction
  all_goals exact .entry rfl rfl

theorem decodeSystem_answer (h : Hdr) (m : Nat) {opc : Nat} (hc : opc / 64 = 11) :
    TableAnswer opc h m (decodeSystem opc h m) := by
  unfold decodeSystem
  split
  case h_19 =>
    refine .unassigned fun ho => ?_
    obtain ⟨hlo, hhi⟩ : 0x2C0 ≤ opc ∧ opc ≤ 0x2D1 := by have hr := decodable_iff.mp ho; omega
    interval_cases opc <;> contradiction
  case h_9 => split_ifs <;> exact .entry rfl rfl
  case h_10 => split_ifs <;> exact .entry rfl rfl
  all_goals exact .entry rfl rfl

/-- What the opcode map makes of an opcode where HINT[0] is no obstacle. -/
theorem decodeOp_answer {opc : Nat} {h : Hdr} (m : Nat) (hh : (h.hint.getLsbD 0 && decodeOp.decodable opc) = false) :
    TableAnswer opc h m (decodeOp opc h m) := by
  unfold decodeOp
  rw [hh, if_neg Bool.false_ne_true]
  split
  case h_1 hc => exact decodeInt_answer h m hc
  case h_2 hc => exact decodeFloat_answer h m hc
  case h_3 hc => exact decodeRing_answer h m hc
  case h_4 hc => exact decodeControl_answer h m hc
  case h_5 hc => exact decodeMemory_answer h m hc
  case h_6 hc => exact decodeSync_answer h m hc
  case h_7 hc => exact decodeMatrix_answer h m hc
  case h_8 hc => exact decodeEngine_answer h m hc
  case h_9 hc => exact decodeSystem_answer h m hc
  case h_10 =>
    refine .unassigned fun ho => ?_
    have hr := decodable_iff.mp ho
    simp only [imp_false] at *
    omega

/-- The header of a full unit that has no immediate (R67). -/
def plainHdr (w : Nat) : Hdr :=
  ⟨.full, bits 3 w 12, bit w 15, bits 10 w 46, bits 10 w 16, bits 10 w 26, bits 10 w 36, none⟩

theorem exists_word_of_decodable {opc : Nat} (ho : decodeOp.decodable opc = true) :
    ∃ i : Instr, i.hdr?.isSome = true ∧ i.opc = opc := by
  rcases decodeOp_answer (opc := opc) (h := plainHdr 0) 0 rfl with ⟨hu, -⟩ | ⟨-, -, -, i, -, hh, hi⟩
  · exact absurd ho (Bool.eq_false_iff.mp hu)
  · exact ⟨i, by rw [hh]; rfl, hi⟩

theorem decodeOp_unassigned {opc : Nat} (hno : ∀ i : Instr, i.hdr?.isSome = true → i.opc ≠ opc) (h : Hdr) (m : Nat) :
    decodeOp opc h m = .error 1 := by
  have hu : decodeOp.decodable opc = false := Bool.eq_false_iff.mpr fun ho =>
    have ⟨i, hh, hi⟩ := exists_word_of_decodable ho
    hno i hh hi
  rcases decodeOp_answer m (h := h) (by rw [hu, Bool.and_false]) with ⟨-, he⟩ | ⟨-, -, -, i, -, hh, hi⟩
  · exact he
  · exact absurd hi (hno i (by rw [hh]; rfl))

/-! ### Units by their length -/

theorem decodeUnit_full {w : Nat} (hl : w % 4 = 2) : decodeUnit w = decodeFull w := by
  simp only [decodeUnit, hl]

theorem decodeUnit_medium {w : Nat} (hl : w % 4 = 1) : decodeUnit w = decodeMedium w := by
  simp only [decodeUnit, hl]

theorem decodeUnit_compact {w : Nat} (hl : w % 4 = 0) : decodeUnit w = decodeCompact w := by
  simp only [decodeUnit, hl]

/-! ### Reserved field values -/

@[simp] theorem toNat_bits (k n lo : Nat) : (bits k n lo).toNat = field n lo k := BitVec.toNat_ofNat _ _

/-- A field of a field is a field of the whole. -/
theorem field_field (n lo : Nat) {w i k : Nat} (h : i + k ≤ w) : field (field n lo w) i k = field n (lo + i) k := by
  obtain ⟨j, rfl⟩ := Nat.exists_eq_add_of_le h
  unfold field
  rw [Nat.add_assoc, Nat.pow_add 2 i (k + j), Nat.mod_mul_right_div_self,
    Nat.mod_mod_of_dvd _ (Nat.pow_dvd_pow 2 (Nat.le_add_right k j)), Nat.div_div_eq_div_mul, ← Nat.pow_add]

theorem decodeFull_plain {w : Nat} (himm : bit w 95 = false) :
    decodeFull w = decodedOf (field w 2 10) 12 (decodeOp (field w 2 10) (plainHdr w) (field w 56 39)) := by
  unfold decodeFull plainHdr
  simp only [himm, Bool.false_eq_true, if_false]

theorem form_reserved {pol : ImmPolicy} {mask m : Nat} {c : Bool} {h : Hdr} {i : Instr} (hp : pol.bad h.imm = false)
    (hm : m ||| mask = mask) (hc : c = true) : form pol mask (why56 c false) h m i = .error 5 := by
  simp [form, hp, hm, hc, why56]

/-- A full unit without HINT[0] and immediate, all of whose modifier bits its entry defines, is ILLOP with WHY 5 where a
field has a reserved value. -/
theorem decodeFull_reserved {w : Nat} (hhint : bit w 46 = false) (himm : bit w 95 = false) (o : Nat) (pol : ImmPolicy)
    (n : Nat) (c : Bool) (i : Instr) (ho : field w 2 10 = o)
    (he : decodeOp o (plainHdr w) (field w 56 39) = if (plainHdr w).hint.getLsbD 0 && decodeOp.decodable o then .error 2
      else form pol (2 ^ n - 1) (why56 c false) (plainHdr w) (field w 56 39) i)
    (hp : pol.bad none = false) (hm : field w 56 39 < 2 ^ n) (hc : c = true) :
    decodeFull w = .illop 5 (field w 2 10) 12 := by
  have hh : (plainHdr w).hint.getLsbD 0 = false := by
    rw [show (plainHdr w).hint = bits 10 w 46 from rfl, bits, BitVec.getLsbD_ofNat, Nat.testBit_zero]
    simpa [bit] using hhint
  rw [decodeFull_plain himm, ho, he, hh, Bool.false_and, if_neg Bool.false_ne_true, form_reserved hp (or_full hm) hc]
  rfl

/-- A modifier field of 3 bits that holds more than 5. -/
theorem modField_reserved {w : Nat} (i : Nat) (hi : i ≤ 36) (h5 : 5 < field w (56 + i) 3) :
    decide ((bits 3 (field w 56 39) i).toNat > 5) = true := by
  rw [toNat_bits, field_field w 56 (by omega)]
  exact decide_eq_true h5

/-- Modifier bits of which those from bit `i` on are 0. -/
theorem modBits_lt {w : Nat} (i : Nat) (hi : i ≤ 39) (h0 : field w (56 + i) (39 - i) = 0) : field w 56 39 < 2 ^ i := by
  rw [← field_field w 56 (w := 39) (by omega)] at h0
  generalize hm : field w 56 39 = m at h0 ⊢
  have hlt : m < 2 ^ i * 2 ^ (39 - i) := by
    rw [← Nat.pow_add, Nat.add_sub_cancel' hi, ← hm]
    exact Nat.mod_lt _ (by decide)
  rw [field, Nat.mod_eq_of_lt (Nat.div_lt_of_lt_mul hlt)] at h0
  exact (Nat.div_eq_zero_iff.mp h0).resolve_left (by positivity)

theorem decodeFull_reservedField {w : Nat} (hhint : bit w 46 = false) (himm : bit w 95 = false)
    (hr : field w 2 10 ∈ [0x080, 0x081, 0x082, 0x083] ∧ 5 < field w 56 3 ∧ field w 59 36 = 0
      ∨ field w 2 10 ∈ [0x01C, 0x020] ∧ 5 < field w 56 3 ∧ field w 60 35 = 0
      ∨ field w 2 10 = 0x021 ∧ (5 < field w 56 3 ∨ 5 < field w 59 3) ∧ field w 63 32 = 0) :
    decodeFull w = .illop 5 (field w 2 10) 12 := by
  simp only [List.mem_cons, List.not_mem_nil, or_false] at hr
  let m := field w 56 39
  rcases hr with ⟨ho, h5, h0⟩ | ⟨ho, h5, h0⟩ | ⟨ho, h5, h0⟩
  · have hc := modField_reserved 0 (by decide) h5
    have hm := modBits_lt 3 (by decide) h0
    rcases ho with ho | ho | ho | ho
    · exact decodeFull_reserved hhint himm 0x080 .yes 3 _ (.fadd (plainHdr w) (bits 3 m 0)) ho rfl rfl hm hc
    · exact decodeFull_reserved hhint himm 0x081 .yes 3 _ (.fsub (plainHdr w) (bits 3 m 0)) ho rfl rfl hm hc
    · exact decodeFull_reserved hhint himm 0x082 .yes 3 _ (.fmul (plainHdr w) (bits 3 m 0)) ho rfl rfl hm hc
    · exact decodeFull_reserved hhint himm 0x083 .yes 3 _ (.ffma (plainHdr w) (bits 3 m 0)) ho rfl rfl hm hc
  · have hc := modField_reserved 0 (by decide) h5
    have hm := modBits_lt 4 (by decide) h0
    rcases ho with ho | ho
    · exact decodeFull_reserved hhint himm 0x01C .yes 4 _ (.icmp (plainHdr w) (bits 3 m 0) (bit m 3)) ho rfl rfl hm hc
    · exact decodeFull_reserved hhint himm 0x020 .yes 4 _ (.cmp64 (plainHdr w) (bits 3 m 0) (bit m 3)) ho rfl rfl hm hc
  · have hc : (decide ((bits 3 m 0).toNat > 5) || decide ((bits 3 m 3).toNat > 5)) = true :=
      Bool.or_eq_true_iff.mpr (h5.imp (modField_reserved 0 (by decide)) (modField_reserved 3 (by decide)))
    have hm := modBits_lt 7 (by decide) h0
    exact decodeFull_reserved hhint himm 0x021 .no 7 _ (.cvti (plainHdr w) (bits 3 m 0) (bits 3 m 3) (bit m 6)) ho rfl rfl
      hm hc

end Sys2Proof

open Sys2Proof

/-- Settles O3: an opcode that no word form has is none that R85 assigns, so its table answers WHY 1; a reserved field
value makes its entry answer WHY 5; a compact unit whose bytes do not all expand is the fill fault of kind 2. -/
theorem undecodableUnits : Obligations.UndecodableUnits := by
  refine ⟨fun w hl => ?_, fun w hl hno => ?_, fun w hl h12 hno => ?_, fun w hl h12 => ?_, fun w hl hhint himm hr => ?_,
    fun w hl => ?_⟩
  · simp only [decodeUnit, hl]
  · rw [decodeUnit_full hl, decodeFull, decodeOp_unassigned hno, decodedOf]
  · rw [decodeUnit_medium hl, decodeMedium, if_neg (by simpa using h12)]
    simp only [decodeOp_unassigned hno, decodedOf]
  · rw [decodeUnit_medium hl, decodeMedium, if_pos h12]
  · rw [decodeUnit_full hl]
    exact decodeFull_reservedField hhint himm hr
  · rw [decodeUnit_compact hl, decodeCompact]
    split_ifs with hb
    · exact .inr ⟨_, rfl, compactInstr_isCompact _ _ _ _, hb⟩
    · exact .inl rfl
end

/-! ## Words of the spec (O1) -/

section

open Sys2Proof

/-- Settles O1: the decoder evaluated on each of the six words. -/
theorem decodesSpecWords : Obligations.DecodesSpecWords :=
  ⟨rfl, rfl, rfl, rfl, rfl, rfl⟩
end

/-! ## Integer instructions and instructions of own threads complete (O12, O16) -/

section
namespace Sys2Proof.Machine

/-! ### A lane's own work -/

/-- Work of lane `k` with the values `v`: a change of its own thread and, where D is an s register, of its group's. -/
structure OwnWork (fm : Form) (k : Nat) (v : Vals) (g : State → State) : Prop where
  isLocal : ∀ now, ∃ F, Local now k g F
  keepsGroups : (v.dst + fm.d.words ≤ 256 ∨ 320 ≤ v.dst) → ∀ u, (g u).groups = u.groups

section
variable {h : Hdr} {fm : Form} {k : Nat} {v : Vals}

theorem OwnWork.id : OwnWork fm k v fun u => u :=
  ⟨fun now => ⟨_, Local.id now k⟩, fun _ _ => rfl⟩

theorem OwnWork.comp {g₁ g₂ : State → State} (h₁ : OwnWork fm k v g₁) (h₂ : OwnWork fm k v g₂) :
    OwnWork fm k v fun u => g₂ (g₁ u) where
  isLocal now :=
    have ⟨_, hF₁⟩ := h₁.isLocal now
    have ⟨_, hF₂⟩ := h₂.isLocal now
    ⟨_, hF₁.comp hF₂⟩
  keepsGroups hd u := (h₂.keepsGroups hd _).trans (h₁.keepsGroups hd u)

theorem OwnWork.modThr (F : Thread → Thread) : OwnWork fm k v fun u => u.modThr k F :=
  ⟨fun now => ⟨F, Local.modThr now k F⟩, fun _ _ => rfl⟩

theorem OwnWork.writeD (x : Nat) : OwnWork fm k v fun u => u.writeD k h fm v.dst x :=
  ⟨fun now => ⟨_, Local.writeD now k h fm v.dst x⟩, fun hd u => writeD_groups u k h fm v.dst x hd⟩

theorem OwnWork.markWriter (s : State) (hw : fm.d = .w) : OwnWork fm k v fun u => s.markWriter u h k v.dst :=
  ⟨fun now => ⟨_, Local.markWriter now k s h v.dst⟩, fun hd _ => markWriter_groups (hw ▸ Nat.one_pos) hd⟩

/-- Events into fps, then D. -/
theorem OwnWork.eventsThenD (e : Events) (x : Nat) :
    OwnWork fm k v fun u => (u.modThr k fun t => t.orFps e).writeD k h fm v.dst x :=
  (OwnWork.modThr _).comp (.writeD x)

/-- D, and UDIV by R27 where D is an s register that only some lanes write. -/
theorem OwnWork.writeMarked (s : State) (hw : fm.d = .w) (x : Nat) :
    OwnWork fm k v fun u => s.markWriter (u.writeD k h fm v.dst x) h k v.dst :=
  (OwnWork.writeD x).comp (.markWriter s hw)

/-- Work that a test decides on. -/
theorem OwnWork.ite {p : Prop} [Decidable p] {g₁ g₂ : State → State} (h₁ : OwnWork fm k v g₁) (h₂ : OwnWork fm k v g₂) :
    OwnWork fm k v fun u => if p then g₁ u else g₂ u := by
  by_cases hp : p
  · simpa only [if_pos hp] using h₁
  · simpa only [if_neg hp] using h₂

/-- An outcome in which the lane commits and does its own work: it goes on past the instruction or at an address, or sleeps. -/
inductive OwnOutcome (fm : Form) (k : Nat) (v : Vals) : (State → Lane) → Prop where
  | ok {g : State → State} (hg : OwnWork fm k v g) : OwnOutcome fm k v fun u => .ok (g u)
  | okAt {g : State → State} (pc : Nat) (hg : OwnWork fm k v g) : OwnOutcome fm k v fun u => .okAt (g u) pc
  | sleep (till : Nat) : OwnOutcome fm k v fun u => .wait u (.sleep till)

theorem OwnOutcome.ite {p : Prop} [Decidable p] {o₁ o₂ : State → Lane} (h₁ : OwnOutcome fm k v o₁)
    (h₂ : OwnOutcome fm k v o₂) : OwnOutcome fm k v fun u => if p then o₁ u else o₂ u := by
  by_cases hp : p
  · simpa only [if_pos hp] using h₁
  · simpa only [if_neg hp] using h₂

variable {o : State → Lane}

theorem OwnOutcome.commits (ho : OwnOutcome fm k v o) (u : State) : (o u).commits = true := by
  cases ho <;> rfl

/-- With its move past the instruction the lane changes its own thread alone, and it awaits no arrival word. -/
theorem OwnOutcome.isLocal (ho : OwnOutcome fm k v o) (h : Hdr) (now : Nat) :
    ∃ F, Local now k (fun u => (o u).after h k u) F ∧ ∀ t, (F t).state.hasMates = false := by
  cases ho with
  | ok hg =>
    obtain ⟨_, hF⟩ := hg.isLocal now
    exact ⟨_, hF.comp (Local.goesOn now k h), fun _ => rfl⟩
  | okAt pc hg =>
    obtain ⟨_, hF⟩ := hg.isLocal now
    exact ⟨_, hF.comp (Local.pass now k h pc), fun _ => rfl⟩
  | sleep till => exact ⟨_, Local.passWait now k h (.sleep till), fun _ => rfl⟩

theorem OwnOutcome.keepsGroups (ho : OwnOutcome fm k v o) (h : Hdr) (hd : v.dst + fm.d.words ≤ 256 ∨ 320 ≤ v.dst)
    (u : State) : ((o u).after h k u).groups = u.groups := by
  cases ho with
  | ok hg => exact hg.keepsGroups hd u
  | okAt pc hg => exact hg.keepsGroups hd u
  | sleep till => rfl

end

/-- An entry that agrees with its row wherever the row commits, each lane doing its own work, completes. -/
theorem own_completes {r : LaneRow} {i : Instr} {f : Entry} (he : ∀ s, exec i s = .next (runLanes r.opc r.h r.fm r.prot f s))
    (hf : ∀ s k v u, r.ok s k v = true → f s (s.laneValues r.h r.fm) k v u = r.eff s (s.laneValues r.h r.fm) k v u)
    (ho : ∀ s p k v, OwnOutcome r.fm k v (r.eff s p k v)) : r.Completes i := by
  intro s hc hops hk
  have hF k v := (ho s (s.laneValues r.h r.fm) k v).isLocal r.h s.time
  refine ⟨_, he s, runLanes_local hc hops _ (fun k v => (hF k v).choose) (fun k _ v _ => (hF k v).choose_spec.1)
    (fun k _ v _ u => (ho ..).commits u) (fun k _ v _ hd u => (ho ..).keepsGroups r.h hd u)
    (fun k _ v _ => (hF k v).choose_spec.2) fun k hk' v hv u => hf s k v u (hk k hk' v hv)⟩

/-! ### Integer, logic and address instructions -/

/-- MOV to BSEL: D takes a value, but for IADC, which then writes its carry predicate. -/
theorem intRow_completes {i : Instr} {r : LaneRow} (hr : intRow i = some r) : r.Completes i := by
  cases i
  case iadc =>
    cases hr
    exact own_completes (fun _ => rfl) (fun _ _ _ _ _ => rfl) fun _ _ _ _ => .ok ((OwnWork.writeD _).comp (.modThr _))
  case mov | movi | sel | iadd | isub | imul | imulh | imad | imin | imax | iabs | ineg | andw | orw | xorw | andn | notw
      | shl | shr | sar | rotl | bfx | bfi | popc | clz | ctz | brev | icmp | plop | lea | add64 | cmp64 | cvti | bsel =>
    cases hr
    exact value_completes fun _ => rfl
  all_goals simp only [intRow, reduceCtorEq] at hr

/-! ### Branches, collectives and register moves -/

/-- A transfer to an aligned target moves the lane there (R104). -/
theorem transfer_aligned {u : State} {target : Nat} (ht : (target % 4 == 0) = true) : transfer u target = .okAt u target := by
  simp only [transfer, bne, ht, Bool.not_true, Bool.false_eq_true, if_false]

/-- BRX and RET (R104). -/
theorem branchToRegister_completes {i : Instr} {opc : Nat} {h : Hdr}
    (he : ∀ s, exec i s = .next (runLanes opc h ⟨.none, .x2, .none, false, false, [], false⟩ anyone
      (fun _ _ _ v run => transfer run (addr48 v.a)) s)) :
    (LaneRow.bare opc h ⟨.none, .x2, .none, false, false, [], false⟩ (fun _ _ v => addr48 v.a % 4 == 0)
      fun _ _ v u => .okAt u (addr48 v.a)).Completes i :=
  own_completes he (fun _ _ _ _ ha => transfer_aligned ha) fun _ _ _ _ => .okAt _ .id

/-- CALL (R104). -/
theorem call_completes {h : Hdr} {ind : Bool} {r : LaneRow} (hr : ownRow (.call h ind) = some r) : r.Completes (.call h ind) := by
  cases hr
  refine own_completes (fun _ => rfl) (fun s k v u ha => ?_) fun _ _ _ _ => .okAt _ (.writeD _)
  simp only [LaneRow.bare] at ha ⊢
  simp only [bne, ha, Bool.not_true, Bool.false_eq_true, if_false]

/-- LOOP (R105): a lane counts its register down and goes back while the count is not 0. -/
theorem loop_completes {h : Hdr} {r : LaneRow} (hr : ownRow (.loop h) = some r) : r.Completes (.loop h) := by
  cases hr
  refine own_completes (fun _ => rfl) (fun s k v u ha => ?_) fun s _ k v =>
    .ite (.ok .id) (.ite (.ok (.writeMarked s (by rfl) _)) (.okAt _ (.writeMarked s (by rfl) _)))
  simp only [LaneRow.bare] at ha ⊢
  simp only [bne, ha, Bool.not_true, Bool.false_eq_true, if_false]
  by_cases h0 : v.d = 0
  · simp only [h0, if_true]
  · have hlast : v.d - 1 = 0 ↔ v.d = 1 := by omega
    simp only [h0, if_false, hlast]

/-- SLEEP (R108). -/
theorem sleep_completes {h : Hdr} {r : LaneRow} (hr : ownRow (.sleep h) = some r) : r.Completes (.sleep h) := by
  cases hr
  exact own_completes (fun _ => rfl) (fun _ _ _ _ _ => rfl) fun _ _ _ _ => .ite (.ok .id) (.sleep _)

/-- FENCE (R177). -/
theorem fence_completes {h : Hdr} {sc : BitVec 3} {r : LaneRow} (hr : ownRow (.fence h sc) = some r) :
    r.Completes (.fence h sc) := by
  cases hr
  exact own_completes (fun _ => rfl) (fun _ _ _ _ hpast => if_pos hpast) fun _ _ _ _ => .ok (.modThr _)

/-- LXCH (R117): a lane whose source is in range takes its value, and a predicate says whether it is. -/
theorem lxch_completes {h : Hdr} {mode seg : BitVec 2} {vp : BitVec 3} {r : LaneRow}
    (hr : ownRow (.lxch h mode seg vp) = some r) : r.Completes (.lxch h mode seg vp) := by
  cases hr
  refine own_completes (fun _ => rfl) (fun _ _ _ _ _ => rfl) fun s p k v => ?_
  dsimp only
  cases (lxchSource mode.toNat seg.toNat (laneOf k) v.b).bind (Lanes.lane p) with
  | none => exact .ok (.ite .id (.modThr _))
  | some x => exact .ok (.ite (.writeMarked s (by rfl) _) ((OwnWork.writeMarked s (by rfl) _).comp (.modThr _)))

/-- Instructions whose every lane computes D from the participating lanes (`runPart`, R115). -/
theorem part_completes {i : Instr} {opc : Nat} {h : Hdr} {fm : Form} {f : Lanes → Nat → Vals → Nat}
    (he : ∀ s, exec i s = .next (runPart opc h fm f s)) : (LaneRow.part opc h fm f).Completes i :=
  own_completes he (fun _ _ _ _ _ => rfl) fun _ _ _ _ => .ok (.writeD _)

/-- SEGRED and SCAN (`runReduce`): the receiving lane raises no event that it enables. -/
theorem reduce_completes {i : Instr} {opc : Nat} {h : Hdr} {op : BitVec 3} {ty : BitVec 2} {upTo : Nat → Nat → Bool}
    (he : ∀ s, exec i s = .next (runReduce opc h op ty upTo s)) : (LaneRow.reduce opc h op ty upTo).Completes i := by
  refine own_completes he (fun s k v u hquiet => ?_) fun _ _ _ _ => .ok (.eventsThenD _ _)
  simp only [LaneRow.reduce, Option.isNone_iff_eq_none] at hquiet ⊢
  simp only [hquiet]

/-- TMV (R204). -/
theorem tmv_completes {h : Hdr} {m1 n1 : BitVec 3} {bf : Bool} {r : LaneRow} (hr : ownRow (.tmv h m1 n1 bf) = some r) :
    r.Completes (.tmv h m1 n1 bf) := by
  cases hr
  refine own_completes (fun _ => rfl) (fun s k v u hok => ?_) fun _ _ _ _ => .ok (.eventsThenD _ _)
  simp only [LaneRow.bare, Bool.and_eq_true, decide_eq_true_eq, Option.isNone_iff_eq_none] at hok ⊢
  obtain ⟨⟨haligned, hin⟩, hquiet⟩ := hok
  simp only [bne, haligned, Bool.not_true, Bool.false_eq_true, if_false, if_neg (Nat.not_lt.mpr hin)]
  unfold tmvRows at hquiet ⊢
  simp only [hquiet]

/-- MFS.t (R228): D, then the success bit. -/
theorem mfsT_completes {h : Hdr} {pv : BitVec 3} {r : LaneRow} (hr : ownRow (.mfsT h pv) = some r) : r.Completes (.mfsT h pv) := by
  cases hr
  exact own_completes (fun _ => rfl) (fun _ _ _ _ _ => rfl) fun _ _ _ _ => .ok ((OwnWork.writeD _).comp (.ite .id (.modThr _)))

/-- LDC (R161): an aligned offset within the constant store. -/
theorem ldc_completes {h : Hdr} {sz : BitVec 2} {r : LaneRow} (hr : ownRow (.ldc h sz) = some r) : r.Completes (.ldc h sz) := by
  cases hr
  refine valueIf_completes (fun _ => rfl) fun s k v u hok => ?_
  simp only [Bool.and_eq_true, decide_eq_true_eq] at hok
  simp only [bne, hok.1, Bool.not_true, Bool.false_eq_true, if_false, if_neg (Nat.not_lt.mpr hok.2)]

/-- HSTAT (R214): a cursor that no draw holds. -/
theorem hstat_completes {h : Hdr} {hc : BitVec 2} {r : LaneRow} (hr : ownRow (.hstat h hc) = some r) :
    r.Completes (.hstat h hc) := by
  cases hr
  refine valueIf_completes (fun _ => rfl) fun s k v u hok => ?_
  simp only [Bool.and_eq_true, Bool.not_eq_true'] at hok
  simp only [hok.1, hok.2, Bool.false_eq_true, if_false]

/-- HXRD (R220): an aligned offset within the image. -/
theorem hxrd_completes {h : Hdr} {r : LaneRow} (hr : ownRow (.hxrd h) = some r) : r.Completes (.hxrd h) := by
  cases hr
  refine valueIf_completes (fun _ => rfl) fun s k v u hok => ?_
  simp only [Bool.and_eq_true, decide_eq_true_eq] at hok
  simp only [imageOffset, bne, hok.1, Bool.not_true, Bool.false_eq_true, if_false, if_neg (Nat.not_le.mpr hok.2)]

/-- BRX to TOKRD, one instruction at a time. -/
theorem ownRow_completes {i : Instr} {r : LaneRow} (hr : ownRow i = some r) : r.Completes i := by
  cases i
  case brx | ret =>
    cases hr
    exact branchToRegister_completes fun _ => rfl
  case yieldI | nop =>
    cases hr
    exact own_completes (fun _ => rfl) (fun _ _ _ _ _ => rfl) fun _ _ _ _ => .ok .id
  case vote | matchL | bcast =>
    cases hr
    exact part_completes fun _ => rfl
  case segred | scan =>
    cases hr
    exact reduce_completes fun _ => rfl
  case mfs | pmrd | clkrd | tokrd =>
    cases hr
    exact valueIf_completes (fun _ => rfl) fun _ _ _ _ _ => rfl
  case call => exact call_completes hr
  case loop => exact loop_completes hr
  case sleep => exact sleep_completes hr
  case fence => exact fence_completes hr
  case lxch => exact lxch_completes hr
  case tmv => exact tmv_completes hr
  case mfsT => exact mfsT_completes hr
  case ldc => exact ldc_completes hr
  case hstat => exact hstat_completes hr
  case hxrd => exact hxrd_completes hr
  all_goals simp only [ownRow, reduceCtorEq] at hr

end Sys2Proof.Machine

open Sys2Proof Sys2Proof.Machine

/-- Settles O12: each instruction is `runValue` of its row's function, IADC also writes its carry predicate. -/
theorem integerInstructionsComplete : Obligations.IntegerInstructionsComplete :=
  fun _ _ hr => (intRow_completes hr).of_expand

/-- Settles O16: each instruction's lanes commit by work of their own, one instruction at a time. -/
theorem ownThreadInstructionsComplete : Obligations.OwnThreadInstructionsComplete :=
  fun _ _ hr => (ownRow_completes hr).of_expand
end

/-! ## Branch, exit, barrier, launch, rejoin and wait instructions complete (O18) -/

section
namespace Sys2Proof.Machine

/-- BRA (R104): its bank is trained before the lanes and the fetch redirected after them. -/
theorem bra_completes {h : Hdr} {r : BundleRow} (hr : controlRow (.bra h) = some r) : r.Completes (.bra h) := by
  cases hr
  exact bundle_completes (fun _ => rfl) fun _ _ _ _ _ ha => ⟨transfer_aligned ha, rfl⟩

/-- LAUNCH (R111): the leader, its depth, its descriptor's place and room in the child queue all pass. -/
theorem launch_completes {h : Hdr} {r : BundleRow} (hr : controlRow (.launch h) = some r) : r.Completes (.launch h) := by
  cases hr
  refine bundle_completes (fun _ => rfl) fun s p k v u hok => ⟨?_, rfl⟩
  simp only [Bool.and_eq_true, Bool.not_eq_true', beq_iff_eq, decide_eq_true_eq] at hok
  obtain ⟨⟨⟨⟨⟨⟨⟨hleader, hdepth⟩, haligned⟩, hperformed⟩, hpast⟩, hwindow⟩, hread⟩, hroom⟩ := hok
  obtain ⟨bs, hbytes⟩ := Option.isSome_iff_exists.mp hread
  dsimp only
  rw [hbytes]
  unfold launchBytes at hbytes
  cases hplace : s.placeGlobal k (addr48 v.a) 64 .load with
  | error b => simp [hplace] at hbytes
  | ok q =>
    simp only [hplace] at hbytes
    simp [hleader, Nat.not_le.mpr hdepth, haligned, hperformed, hpast, hwindow, hbytes, Nat.not_le.mpr hroom]

/-- CJOIN (R112): its lane goes on where the children are done, and waits for them otherwise. -/
theorem cjoin_completes {h : Hdr} {r : BundleRow} (hr : controlRow (.cjoin h) = some r) : r.Completes (.cjoin h) := by
  cases hr
  refine bundle_completes (fun _ => rfl) fun s p k v u _ => ⟨rfl, ?_⟩
  dsimp only
  split <;> rfl

/-- RJWAIT (R113): a lane that is not enrolled goes on, one that is arrives and waits. -/
theorem rjwait_completes {h : Hdr} {j : BitVec 3} {r : BundleRow} (hr : controlRow (.rjwait h j) = some r) :
    r.Completes (.rjwait h j) := by
  cases hr
  refine bundle_completes (fun _ => rfl) fun s p k v u _ => ⟨rfl, ?_⟩
  dsimp only
  split <;> rfl

/-- WAITC (R178): its checks pass, nothing keeps its release, and the monitor has room. -/
theorem waitc_completes {h : Hdr} {live : BitVec 5} {cnd : BitVec 2} {r : BundleRow}
    (hr : controlRow (.waitc h live cnd) = some r) : r.Completes (.waitc h live cnd) := by
  cases hr
  refine bundle_completes (fun _ => rfl) fun s p k v u hok => ⟨?_, rfl⟩
  simp only [Bool.and_eq_true, Bool.not_eq_true', beq_iff_eq, decide_eq_true_eq] at hok
  obtain ⟨⟨⟨⟨⟨⟨⟨⟨huser, hscratch⟩, hregs⟩, haligned⟩, htarget⟩, hplace⟩, hrelease⟩, hawaits⟩, hroom⟩ := hok
  obtain ⟨q, hq⟩ : ∃ q, s.place k (addr48 v.a) 4 .load false = .ok q := ⟨_, placed_ok hplace⟩
  simp only [hq, placeOf] at hroom ⊢
  obtain ⟨x, hx⟩ := Option.isSome_iff_exists.mp hroom
  simp only [huser, hscratch, Nat.not_lt.mpr hregs, haligned, htarget, hrelease, hawaits, hx, bne_self_eq_false, Bool.or_self,
    ne_eq, not_true, Bool.false_eq_true, if_false, Option.getD_some]

/-- WAITG (R182): its word is placed, its turn has come and its lines are there. -/
theorem waitg_completes {h : Hdr} {r : BundleRow} (hr : controlRow (.waitg h) = some r) : r.Completes (.waitg h) := by
  cases hr
  refine bundle_completes (fun _ => rfl) fun s p k v u hok => ⟨?_, ?_⟩
  · simp only [Bool.and_eq_true] at hok
    obtain ⟨⟨hplace, hturn⟩, hlines⟩ := hok
    obtain ⟨q, hq⟩ : ∃ q, s.placeOff k (v.a % 2 ^ 32) 8 .load = .ok q := ⟨_, placed_ok hplace⟩
    simp only [hq, placeOf] at hturn hlines ⊢
    simp only [hturn, hlines, Bool.not_true, Bool.false_eq_true, if_false]
  · dsimp only
    split <;> rfl

/-- BRA to WAITG, one instruction at a time. -/
theorem controlRow_completes {i : Instr} {r : BundleRow} (hr : controlRow i = some r) : r.Completes i := by
  cases i
  case exit | rjen | rjleave | lead =>
    cases hr
    exact bundle_completes (fun _ => rfl) fun _ _ _ _ _ _ => ⟨rfl, rfl⟩
  case bar | bara =>
    cases hr
    exact barrier_completes fun _ => rfl
  case bra => exact bra_completes hr
  case launch => exact launch_completes hr
  case cjoin => exact cjoin_completes hr
  case rjwait => exact rjwait_completes hr
  case waitc => exact waitc_completes hr
  case waitg => exact waitg_completes hr
  all_goals simp only [controlRow, reduceCtorEq] at hr

theorem BundleRow.Completes.of_expand {r : BundleRow} {i : Instr} (hr : r.Completes (expand i)) : r.Completes i := by
  intro s
  rw [exec_expand]
  exact hr s

end Sys2Proof.Machine

open Sys2Proof Sys2Proof.Machine

/-- Settles O18: where its row's checks pass, each entry answers what the row says, one instruction at a time. -/
theorem controlInstructionsComplete : Obligations.ControlInstructionsComplete :=
  fun _ _ hr => (controlRow_completes hr).of_expand
end

/-! ## Integers and words (O52–O60) -/

section
namespace Sys2Proof.Machine

/-- A value that the rules give, where it is the entry's on the operands that a lane can read. -/
theorem rule_completes {i : Instr} {opc : Nat} {h : Hdr} {fm : Form} {f g : State → Nat → Vals → Nat}
    (he : ∀ s, exec i s = .next (runValue opc h fm f s)) (hv : ∀ s k v, s.operands k h fm = .ok v → g s k v = f s k v) :
    (LaneRow.value opc h fm g).Completes i :=
  value_congr (value_completes he) hv

/-- The same where A and B are words. -/
theorem rule_completes_words {i : Instr} {opc : Nat} {h : Hdr} {fm : Form} {f g : State → Nat → Vals → Nat}
    (he : ∀ s, exec i s = .next (runValue opc h fm f s)) (hfa : fm.a = .v) (hfb : fm.b = .v)
    (hv : ∀ s k v, v.a < 2 ^ 32 → v.b < 2 ^ 32 → g s k v = f s k v) : (LaneRow.value opc h fm g).Completes i := by
  refine rule_completes he fun s k v ho => hv s k v ?_ ?_
  · have ha := operands_a_lt ho (by rw [hfa]; rfl)
    rwa [hfa] at ha
  · have hb := operands_b_lt ho (by rw [hfb]; rfl) (by rw [hfb]; exact .inl rfl)
    rwa [hfb] at hb

/-- Two's complement is the integer of the bit vector. -/
theorem sgn_eq_toInt {w : Nat} (hw : 0 < w) (n : Nat) : sgn w n = (BitVec.ofNat w n).toInt := by
  obtain ⟨w, rfl⟩ := Nat.exists_eq_add_one_of_ne_zero hw.ne'
  have hhalf : n % 2 ^ (w + 1) < 2 ^ w ↔ 2 * (n % 2 ^ (w + 1)) < 2 ^ (w + 1) := by omega
  simp only [sgn, BitVec.toInt_eq_toNat_cond, BitVec.toNat_ofNat, Nat.add_sub_cancel, hhalf]
  push_cast
  rfl

theorem wrapTo_eq_ofInt (w : Nat) (v : Int) : wrapTo w v = (BitVec.ofInt w v).toNat := by
  rw [BitVec.toNat_ofInt, wrapTo]
  norm_cast

theorem asInt_signed {w : Nat} (hw : 0 < w) (n : Nat) : asInt false w n = sgn w n := (sgn_eq_toInt hw n).symm

theorem asInt_eq_intOf (u : Bool) {w n : Nat} (hw : 0 < w) (hn : n < 2 ^ w) : asInt u w n = intOf u w n := by
  cases u with
  | false => exact asInt_signed hw n
  | true => simp only [asInt, intOf, if_true, BitVec.toNat_ofNat, Nat.mod_eq_of_lt hn]

theorem least_le_greatest (u : Bool) (w : Nat) : leastOf u w ≤ greatestOf u w := by
  have hfull := Int.pow_pos (n := 2) (m := w) (by decide)
  have hhalf := Int.pow_pos (n := 2) (m := w - 1) (by decide)
  cases u <;> simp only [leastOf, greatestOf, if_true, Bool.false_eq_true, if_false] <;> omega

theorem intTypeRange_eq (u : Bool) (w : Nat) : intTypeRange u w = (leastOf u w, greatestOf u w) := by
  cases u <;> rfl

/-- Clamping to a range that is not empty. -/
theorem clampTo_eq {lo hi : Int} (h : lo ≤ hi) (v : Int) :
    clampTo (lo, hi) v = if v < lo then lo else if hi < v then hi else v := by
  unfold clampTo
  split_ifs <;> omega

theorem asWord_eq_intResult (u sat : Bool) (w : Nat) (v : Int) : asWord u sat w v = intResult u sat w v := by
  cases sat <;>
    simp only [asWord, intResult, wrapTo_eq_ofInt, intTypeRange_eq, clampTo_eq (least_le_greatest u w), if_true,
      Bool.false_eq_true, if_false]

/-- An operand read as an integer and written back is the operand. -/
theorem ofInt_intOf (u : Bool) {w n : Nat} (hw : 0 < w) (hn : n < 2 ^ w) : (BitVec.ofInt w (intOf u w n)).toNat = n := by
  cases u with
  | false =>
    rw [intOf, if_neg Bool.false_ne_true, sgn_eq_toInt hw, BitVec.ofInt_toInt, BitVec.toNat_ofNat, Nat.mod_eq_of_lt hn]
  | true => rw [intOf, if_pos rfl, BitVec.ofInt_natCast, BitVec.toNat_ofNat, Nat.mod_eq_of_lt hn]

end Sys2Proof.Machine
end

/-! ## Integer arithmetic (O52) -/

section
namespace Sys2Proof.Machine

theorem asWord_iadd (u sat : Bool) {a b : Nat} (ha : a < 2 ^ 32) (hb : b < 2 ^ 32) :
    asWord u sat 32 (asInt u 32 a + asInt u 32 b) = valIadd u sat a b := by
  rw [asWord_eq_intResult, asInt_eq_intOf u (by decide) ha, asInt_eq_intOf u (by decide) hb, valIadd]

theorem asWord_isub (u sat : Bool) {a b : Nat} (ha : a < 2 ^ 32) (hb : b < 2 ^ 32) :
    asWord u sat 32 (asInt u 32 a - asInt u 32 b) = valIsub u sat a b := by
  rw [asWord_eq_intResult, asInt_eq_intOf u (by decide) ha, asInt_eq_intOf u (by decide) hb, valIsub]

theorem asWord_imul (u sat wide : Bool) {a b : Nat} (ha : a < 2 ^ 32) (hb : b < 2 ^ 32) :
    asWord u sat (if wide then 64 else 32) (asInt u 32 a * asInt u 32 b) = valImul u sat wide a b := by
  rw [asWord_eq_intResult, asInt_eq_intOf u (by decide) ha, asInt_eq_intOf u (by decide) hb, valImul]

/-- The high word of a product: its floor by 2^32. -/
theorem ofInt_imulh (u : Bool) {a b : Nat} (ha : a < 2 ^ 32) (hb : b < 2 ^ 32) :
    (BitVec.ofInt 32 ((asInt u 32 a * asInt u 32 b).fdiv (2 ^ 32))).toNat = valImulh u a b := by
  rw [asInt_eq_intOf u (by decide) ha, asInt_eq_intOf u (by decide) hb, Int.fdiv_eq_ediv_of_nonneg _ (by decide),
    valImulh, wrapTo_eq_ofInt]

theorem asWord_imad (u sat wide : Bool) {a b d : Nat} (ha : a < 2 ^ 32) (hb : b < 2 ^ 32)
    (hd : d < 2 ^ (if wide then 64 else 32)) :
    asWord u sat (if wide then 64 else 32) (asInt u 32 a * asInt u 32 b + asInt u (if wide then 64 else 32) d)
      = valImad u sat wide a b d := by
  rw [asWord_eq_intResult, asInt_eq_intOf u (by decide) ha, asInt_eq_intOf u (by decide) hb,
    asInt_eq_intOf u (by split <;> decide) hd, valImad]

theorem ofInt_imin (u : Bool) {a b : Nat} (ha : a < 2 ^ 32) (hb : b < 2 ^ 32) :
    (BitVec.ofInt 32 (min (asInt u 32 a) (asInt u 32 b))).toNat = valImin u a b := by
  rw [asInt_eq_intOf u (by decide) ha, asInt_eq_intOf u (by decide) hb, valImin]
  split
  · rw [min_eq_right (by omega), ofInt_intOf u (by decide) hb]
  · rw [min_eq_left (by omega), ofInt_intOf u (by decide) ha]

theorem ofInt_imax (u : Bool) {a b : Nat} (ha : a < 2 ^ 32) (hb : b < 2 ^ 32) :
    (BitVec.ofInt 32 (max (asInt u 32 a) (asInt u 32 b))).toNat = valImax u a b := by
  rw [asInt_eq_intOf u (by decide) ha, asInt_eq_intOf u (by decide) hb, valImax]
  split
  · rw [max_eq_right (by omega), ofInt_intOf u (by decide) hb]
  · rw [max_eq_left (by omega), ofInt_intOf u (by decide) ha]

theorem asWord_iabs (sat : Bool) (a : Nat) : asWord false sat 32 |asInt false 32 a| = valIabs sat a := by
  rw [asWord_eq_intResult, asInt_signed (by decide), Int.abs_eq_natAbs, valIabs]

theorem asWord_ineg (sat : Bool) (a : Nat) : asWord false sat 32 (-asInt false 32 a) = valIneg sat a := by
  rw [asWord_eq_intResult, asInt_signed (by decide), valIneg]

/-- IADD to INEG: the exact integer of R94 is the model's, and so is its way into D. -/
theorem arithRule_completes {i : Instr} {r : LaneRow} (hr : arithRule i = some r) : r.Completes i := by
  cases i
  case iadd =>
    cases hr
    exact rule_completes_words (fun _ => rfl) rfl rfl fun _ _ _ ha hb => asWord_iadd _ _ ha hb
  case isub =>
    cases hr
    exact rule_completes_words (fun _ => rfl) rfl rfl fun _ _ _ ha hb => asWord_isub _ _ ha hb
  case imul =>
    cases hr
    exact rule_completes_words (fun _ => rfl) rfl rfl fun _ _ _ ha hb => asWord_imul _ _ _ ha hb
  case imulh =>
    cases hr
    exact rule_completes_words (fun _ => rfl) rfl rfl fun _ _ _ ha hb => ofInt_imulh _ ha hb
  case imad h u sat wide =>
    cases hr
    refine rule_completes (fun _ => rfl) fun _ _ v hv => asWord_imad _ _ _ (operands_a_lt hv rfl) (operands_b_lt hv rfl (.inl rfl)) ?_
    have hd := operands_d_lt hv (by cases wide <;> rfl)
    cases wide <;> exact hd
  case imin =>
    cases hr
    exact rule_completes_words (fun _ => rfl) rfl rfl fun _ _ _ ha hb => ofInt_imin _ ha hb
  case imax =>
    cases hr
    exact rule_completes_words (fun _ => rfl) rfl rfl fun _ _ _ ha hb => ofInt_imax _ ha hb
  case iabs =>
    cases hr
    exact rule_completes (fun _ => rfl) fun _ _ _ _ => asWord_iabs _ _
  case ineg =>
    cases hr
    exact rule_completes (fun _ => rfl) fun _ _ _ _ => asWord_ineg _ _
  all_goals simp only [arithRule, reduceCtorEq] at hr

end Sys2Proof.Machine

open Sys2Proof Sys2Proof.Machine

/-- Settles O52: the values meet on operands below 2^32, which R94 reads as integers; the bundle is that of O12. -/
theorem arithmeticRule : Obligations.ArithmeticRule :=
  fun _ _ hr => (arithRule_completes hr).of_expand
end

/-! ## Addition with carry (O53) -/

section
namespace Sys2Proof.Machine

/-- IADC: the sum is the same in either order. -/
theorem carryRule_completes {i : Instr} {r : LaneRow} (hr : carryRule i = some r) : r.Completes i := by
  cases i
  case iadc h cp sub =>
    cases hr
    refine own_completes (fun _ => rfl) (fun s k v u _ => ?_) fun _ _ _ _ => .ok ((OwnWork.writeD _).comp (.modThr _))
    have hsum : (if sub then 2 ^ 32 - 1 - v.b else v.b) + v.a + b2n ((s.thr k).pred cp.toNat)
        = v.a + (if sub then 0xFFFF_FFFF - v.b else v.b) + (if (s.thr k).pred cp.toNat then 1 else 0) :=
      congrArg (· + b2n _) (Nat.add_comm _ _)
    simp only [hsum, ge_iff_le]
  all_goals simp only [carryRule, reduceCtorEq] at hr

end Sys2Proof.Machine

open Sys2Proof Sys2Proof.Machine

/-- Settles O53: the sum is the model's in another order. -/
theorem carryRule : Obligations.CarryRule :=
  fun _ _ hr => (carryRule_completes hr).of_expand
end

/-! ## Moves, logic and shifts (O54) -/

section
namespace Sys2Proof.Machine

/-- A word is the one whose bits are its bits. -/
theorem wordOf_eq {n : Nat} {f : Nat → Bool} (hn : n < 2 ^ 32) (hf : ∀ i, i < 32 → f i = n.testBit i) : wordOf f = n := by
  refine Nat.eq_of_testBit_eq fun i => ?_
  unfold wordOf
  by_cases hi : i < 32
  · rw [Nat.testBit_ofBits_lt _ i hi, hf i hi]
  · have hle := Nat.le_of_not_lt hi
    rw [Nat.testBit_ofBits_ge _ i hle, Nat.testBit_lt_two_pow (Nat.lt_of_lt_of_le hn (Nat.pow_le_pow_right (by decide) hle))]

theorem testBit_valNot {a : Nat} (ha : a < 2 ^ 32) (i : Nat) : (valNot a).testBit i = (decide (i < 32) && !a.testBit i) := by
  rw [valNot, Nat.sub_sub, Nat.add_comm, Nat.testBit_two_pow_sub_succ ha]

theorem valNot_lt (a : Nat) : valNot a < 2 ^ 32 := by
  unfold valNot; omega

theorem wordOf_not {a : Nat} (ha : a < 2 ^ 32) : (wordOf fun i => !a.testBit i) = valNot a :=
  wordOf_eq (valNot_lt a) fun i hi => by simp only [testBit_valNot ha, hi, decide_true, Bool.true_and]

theorem wordOf_andn {a b : Nat} (hb : b < 2 ^ 32) : (wordOf fun i => a.testBit i && !b.testBit i) = valAndn a b :=
  wordOf_eq (Nat.and_lt_two_pow _ (valNot_lt b)) fun i hi => by
    simp only [valAndn, Nat.testBit_and, testBit_valNot hb, hi, decide_true, Bool.true_and]

theorem wordOf_and {a b : Nat} (hb : b < 2 ^ 32) : (wordOf fun i => a.testBit i && b.testBit i) = a &&& b :=
  wordOf_eq (Nat.and_lt_two_pow _ hb) fun _ _ => (Nat.testBit_and ..).symm

theorem wordOf_or {a b : Nat} (ha : a < 2 ^ 32) (hb : b < 2 ^ 32) : (wordOf fun i => a.testBit i || b.testBit i) = a ||| b :=
  wordOf_eq (Nat.or_lt_two_pow ha hb) fun _ _ => (Nat.testBit_or ..).symm

theorem wordOf_xor {a b : Nat} (ha : a < 2 ^ 32) (hb : b < 2 ^ 32) : (wordOf fun i => a.testBit i ^^ b.testBit i) = a ^^^ b :=
  wordOf_eq (Nat.xor_lt_two_pow ha hb) fun _ _ => (Nat.testBit_xor ..).symm

theorem toNat_shl {a : Nat} (ha : a < 2 ^ 32) (b : Nat) : (BitVec.ofNat 32 a <<< b).toNat = valShl a b := by
  rw [BitVec.toNat_shiftLeft, BitVec.toNat_ofNat, Nat.mod_eq_of_lt ha, Nat.shiftLeft_eq, valShl]
  split
  · rfl
  · exact Nat.mod_eq_zero_of_dvd (Dvd.dvd.mul_left (Nat.pow_dvd_pow 2 (by omega)) a)

theorem toNat_shr {a : Nat} (ha : a < 2 ^ 32) (b : Nat) : (BitVec.ofNat 32 a >>> b).toNat = valShr a b := by
  rw [BitVec.toNat_ushiftRight, BitVec.toNat_ofNat, Nat.mod_eq_of_lt ha, Nat.shiftRight_eq_div_pow, valShr]
  split
  · rfl
  · exact Nat.div_eq_of_lt (Nat.lt_of_lt_of_le ha (Nat.pow_le_pow_right (by decide) (by omega)))

/-- Beyond 31 places an arithmetic shift leaves the sign alone. -/
theorem ediv_two_pow_min {x : Int} (hlo : -2 ^ 31 ≤ x) (hhi : x < 2 ^ 31) (b : Nat) : x / 2 ^ min b 31 = x / 2 ^ b := by
  rcases Nat.le_total b 31 with hb | hb
  · rw [Nat.min_eq_left hb]
  · have hpow : (2 : Int) ^ 31 ≤ 2 ^ b := pow_le_pow_right₀ (by decide) hb
    rw [Nat.min_eq_right hb]
    rcases lt_or_ge x 0 with hx | hx
    · rw [Int.ediv_eq_neg_one_of_neg_of_le hx (by omega), Int.ediv_eq_neg_one_of_neg_of_le hx (by omega)]
    · rw [Int.ediv_eq_zero_of_lt hx hhi, Int.ediv_eq_zero_of_lt hx (by omega)]

theorem toNat_sar (a b : Nat) : ((BitVec.ofNat 32 a).sshiftRight b).toNat = valSar a b := by
  have hlo := BitVec.le_toInt (BitVec.ofNat 32 a)
  have hhi := BitVec.toInt_lt (x := BitVec.ofNat 32 a)
  rw [valSar, sgn_eq_toInt (by decide), ediv_two_pow_min hlo hhi, wrapTo_eq_ofInt,
    ← BitVec.ofInt_toInt (x := (BitVec.ofNat 32 a).sshiftRight b), BitVec.toInt_sshiftRight, Int.shiftRight_eq_div_pow]
  norm_cast

/-- A rotation puts the high bits below the shifted ones, where they do not overlap. -/
theorem toNat_rotl {a : Nat} (ha : a < 2 ^ 32) (b : Nat) : ((BitVec.ofNat 32 a).rotateLeft (b % 32)).toNat = valRotl a b := by
  have hn : b % 32 < 32 := Nat.mod_lt _ (by decide)
  have hsplit : 2 ^ 32 = 2 ^ (b % 32) * 2 ^ (32 - b % 32) := by rw [← Nat.pow_add]; congr 1; omega
  have hhigh : a / 2 ^ (32 - b % 32) < 2 ^ (b % 32) := Nat.div_lt_of_lt_mul (by rw [Nat.mul_comm, ← hsplit]; exact ha)
  rw [BitVec.toNat_rotateLeft, BitVec.toNat_ofNat, Nat.mod_eq_of_lt ha, Nat.mod_mod, Nat.shiftLeft_eq, Nat.shiftRight_eq_div_pow,
    valRotl]
  have hlow : a * 2 ^ (b % 32) % 2 ^ 32 = 2 ^ (b % 32) * (a % 2 ^ (32 - b % 32)) := by
    rw [hsplit, Nat.mul_comm a, Nat.mul_mod_mul_left]
  have hsum : 2 ^ (b % 32) * (a % 2 ^ (32 - b % 32)) + a / 2 ^ (32 - b % 32) < 2 ^ 32 :=
    calc _ < 2 ^ (b % 32) * (a % 2 ^ (32 - b % 32) + 1) := by rw [Nat.mul_succ]; omega
      _ ≤ 2 ^ (b % 32) * 2 ^ (32 - b % 32) := Nat.mul_le_mul_left _ (Nat.mod_lt _ (Nat.two_pow_pos _))
      _ = 2 ^ 32 := hsplit.symm
  rw [← Nat.mod_add_mod, hlow, Nat.mod_eq_of_lt hsum, Nat.two_pow_add_eq_or_of_lt hhigh]

/-- MOV to ROTL: an immediate stands in B, and a word is known by its bits (R96). -/
theorem logicRule_completes {i : Instr} {r : LaneRow} (hr : logicRule i = some r) : r.Completes i := by
  cases i
  case mov =>
    cases hr
    exact value_completes fun _ => rfl
  case movi h w64 =>
    obtain ⟨x, hx, rfl⟩ := Option.map_eq_some_iff.mp hr
    refine rule_completes (fun _ => rfl) fun s k v hv => ?_
    have himm := operands_imm hv (by cases w64 <;> rfl) hx
    cases w64 <;> exact himm.symm
  case sel =>
    cases hr
    exact value_completes fun _ => rfl
  case andw =>
    cases hr
    exact rule_completes (fun _ => rfl) fun _ _ _ hv => wordOf_and (operands_b_lt hv rfl (.inl rfl))
  case orw =>
    cases hr
    exact rule_completes_words (fun _ => rfl) rfl rfl fun _ _ _ ha hb => wordOf_or ha hb
  case xorw =>
    cases hr
    exact rule_completes_words (fun _ => rfl) rfl rfl fun _ _ _ ha hb => wordOf_xor ha hb
  case andn =>
    cases hr
    exact rule_completes (fun _ => rfl) fun _ _ _ hv => wordOf_andn (operands_b_lt hv rfl (.inl rfl))
  case notw =>
    cases hr
    exact rule_completes (fun _ => rfl) fun _ _ _ hv => wordOf_not (operands_a_lt hv rfl)
  case shl =>
    cases hr
    exact rule_completes (fun _ => rfl) fun _ _ _ hv => toNat_shl (operands_a_lt hv rfl) _
  case shr =>
    cases hr
    exact rule_completes (fun _ => rfl) fun _ _ _ hv => toNat_shr (operands_a_lt hv rfl) _
  case sar =>
    cases hr
    exact rule_completes (fun _ => rfl) fun _ _ _ _ => toNat_sar _ _
  case rotl =>
    cases hr
    exact rule_completes (fun _ => rfl) fun _ _ _ hv => toNat_rotl (operands_a_lt hv rfl) _
  all_goals simp only [logicRule, reduceCtorEq] at hr

end Sys2Proof.Machine

open Sys2Proof Sys2Proof.Machine

/-- Settles O54: each value is the model's, by its bits or by the shift as a power of 2. -/
theorem logicAndShiftRule : Obligations.LogicAndShiftRule :=
  fun _ _ hr => (logicRule_completes hr).of_expand
end

/-! ## Bit fields (O55) -/

section
namespace Sys2Proof.Machine

theorem testBit_field (n lo w i : Nat) : (field n lo w).testBit i = (decide (i < w) && n.testBit (lo + i)) := by
  rw [field, Nat.testBit_mod_two_pow, Nat.testBit_div_two_pow, Nat.add_comm]

theorem field_lt (n lo w : Nat) : field n lo w < 2 ^ w := Nat.mod_lt _ (Nat.two_pow_pos w)

theorem fieldBounds_eq (b : Nat) : fieldBounds b = (b % 256, min (b % 256 + b / 256 % 256) 32) := by
  simp only [fieldBounds, field, Nat.pow_zero, Nat.div_one]; rfl

/-- The field is empty where it begins beyond the word or has no bit (R97). -/
theorem fieldBounds_empty (pos len : Nat) : pos ≥ min (pos + len) 32 ↔ 32 ≤ pos ∨ len = 0 := by omega

/-- A field as a signed number, extended to the word: the bits above it are its highest one. -/
theorem testBit_wrapTo_sgn {n x i : Nat} (hn : 0 < n) (hi : i < 32) :
    (wrapTo 32 (sgn n x)).testBit i = x.testBit (if i < n then i else n - 1) := by
  rw [sgn_eq_toInt hn, wrapTo_eq_ofInt, ← BitVec.signExtend, BitVec.testBit_toNat, BitVec.getLsbD_signExtend,
    BitVec.msb_eq_getLsbD_last, BitVec.getLsbD_ofNat, BitVec.getLsbD_ofNat]
  split
  · simp only [decide_true, Bool.true_and, *]
  · simp only [show n - 1 < n by omega, hi, decide_true, Bool.true_and]

theorem wordOf_bfx (sx : Bool) (a b : Nat) :
    (if 32 ≤ b % 256 ∨ b / 256 % 256 = 0 then 0
      else wordOf fun i => if b % 256 + i < min (b % 256 + b / 256 % 256) 32 then a.testBit (b % 256 + i)
        else sx && a.testBit (min (b % 256 + b / 256 % 256) 32 - 1)) = valBfx sx a b := by
  simp only [valBfx, fieldBounds_eq, fieldBounds_empty]
  split
  · rfl
  · rename_i hfield
    generalize b % 256 = pos at *
    generalize b / 256 % 256 = len at *
    obtain ⟨n, hn⟩ : ∃ n, min (pos + len) 32 = pos + n := ⟨min (pos + len) 32 - pos, by omega⟩
    have hpos : 0 < n := by omega
    have hle : n ≤ 32 := by omega
    simp only [hn, Nat.add_sub_cancel_left, Nat.add_lt_add_iff_left]
    cases sx with
    | true =>
      refine wordOf_eq ?_ fun i hi => ?_
      · rw [wrapTo_eq_ofInt]; exact BitVec.isLt _
      · simp only [if_true, testBit_wrapTo_sgn hpos hi, testBit_field, Bool.true_and]
        split
        · simp only [decide_true, Bool.true_and, *]
        · have hlast : n - 1 < n := by omega
          simp only [hlast, decide_true, Bool.true_and, Nat.add_sub_assoc (show 1 ≤ n from hpos)]
    | false =>
      refine wordOf_eq (Nat.lt_of_lt_of_le (field_lt ..) (Nat.pow_le_pow_right (by decide) hle)) fun i hi => ?_
      simp [testBit_field]

/-- A number with a field replaced, bit by bit. -/
theorem testBit_setField (d pos n x i : Nat) :
    (setField d pos n x).testBit i = if pos ≤ i ∧ i < pos + n then x.testBit (i - pos) else d.testBit i := by
  have hset : setField d pos n x = 2 ^ pos * (2 ^ n * (d / 2 ^ (pos + n)) + x % 2 ^ n) + d % 2 ^ pos := by
    have hd := Nat.div_add_mod d (2 ^ (pos + n))
    rw [Nat.pow_add, Nat.mod_mul, Nat.mul_assoc, ← Nat.pow_add] at hd
    rw [setField, field, Nat.mul_add, Nat.mul_comm _ (2 ^ pos), Nat.mul_comm _ (2 ^ pos)]
    omega
  rw [hset, Nat.testBit_two_pow_mul_add _ (Nat.mod_lt _ (Nat.two_pow_pos pos)),
    Nat.testBit_two_pow_mul_add _ (Nat.mod_lt _ (Nat.two_pow_pos n)), Nat.testBit_mod_two_pow, Nat.testBit_mod_two_pow,
    Nat.testBit_div_two_pow]
  rcases Nat.lt_or_ge i pos with hlow | hlow
  · simp only [hlow, if_true, decide_true, Bool.true_and, Nat.not_le.mpr hlow, false_and, if_false]
  · rcases Nat.lt_or_ge i (pos + n) with hmid | hmid
    · have hin : i - pos < n := by omega
      simp only [Nat.not_lt.mpr hlow, if_false, hin, if_true, decide_true, Bool.true_and, hlow, hmid, and_self]
    · have hout : ¬ i - pos < n := by omega
      have hback : i - pos - n + (pos + n) = i := by omega
      simp only [Nat.not_lt.mpr hlow, if_false, hout, hback, Nat.not_lt.mpr hmid, and_false]

theorem setField_lt {d pos n x : Nat} (hd : d < 2 ^ 32) (hn : pos + n ≤ 32) : setField d pos n x < 2 ^ 32 := by
  refine Nat.lt_pow_two_of_testBit _ fun i hi => ?_
  have hbeyond : ¬ (pos ≤ i ∧ i < pos + n) := by omega
  rw [testBit_setField, if_neg hbeyond, Nat.testBit_lt_two_pow (Nat.lt_of_lt_of_le hd (Nat.pow_le_pow_right (by decide) hi))]

theorem wordOf_bfi {d : Nat} (hd : d < 2 ^ 32) (a b : Nat) :
    (if 32 ≤ b % 256 ∨ b / 256 % 256 = 0 then d
      else wordOf fun i => if b % 256 ≤ i ∧ i < min (b % 256 + b / 256 % 256) 32 then a.testBit (i - b % 256)
        else d.testBit i) = valBfi d a b := by
  simp only [valBfi, fieldBounds_eq, fieldBounds_empty]
  split
  · rfl
  · have hbound : b % 256 + (min (b % 256 + b / 256 % 256) 32 - b % 256) = min (b % 256 + b / 256 % 256) 32 := by omega
    refine wordOf_eq (setField_lt hd (by omega)) fun i _ => ?_
    rw [testBit_setField, hbound]

/-- BFX and BFI: the field's bits, one by one (R97). -/
theorem fieldRule_completes {i : Instr} {r : LaneRow} (hr : fieldRule i = some r) : r.Completes i := by
  cases i
  case bfx =>
    cases hr
    exact rule_completes (fun _ => rfl) fun _ _ _ _ => wordOf_bfx _ _ _
  case bfi =>
    cases hr
    exact rule_completes (fun _ => rfl) fun _ _ _ hv => wordOf_bfi (operands_d_lt hv rfl) _ _
  all_goals simp only [fieldRule, reduceCtorEq] at hr

end Sys2Proof.Machine

open Sys2Proof Sys2Proof.Machine

/-- Settles O55: each bit of the result is that of the model's. -/
theorem bitFieldRule : Obligations.BitFieldRule :=
  fun _ _ hr => (fieldRule_completes hr).of_expand
end

/-! ## Bit counts (O56) -/

section
namespace Sys2Proof.Machine

theorem bit_eq_testBit (n i : Nat) : bit n i = n.testBit i := by
  rw [Nat.testBit_eq_decide_div_mod_eq]; rfl

theorem countBits_congr {f g : Nat → Bool} (h : ∀ i, i < 32 → f i = g i) : countBits f = countBits g :=
  List.countP_congr fun i hi => by rw [h i (List.mem_range.mp hi)]

theorem countP_range_lt (n m : Nat) : (List.range n).countP (fun i => decide (i < m)) = min n m := by
  induction n with
  | zero => simp
  | succ n ih =>
    rw [List.range_succ, List.countP_append, ih, List.countP_singleton]
    by_cases hn : n < m <;> simp only [hn, decide_true, decide_false, if_true, Bool.false_eq_true, if_false] <;> omega

theorem countP_range_gt (n m : Nat) : (List.range n).countP (fun i => decide (m < i)) = n - (m + 1) := by
  induction n with
  | zero => simp
  | succ n ih =>
    rw [List.range_succ, List.countP_append, ih, List.countP_singleton]
    by_cases hn : m < n <;> simp only [hn, decide_true, decide_false, if_true, Bool.false_eq_true, if_false] <;> omega

theorem countBits_popc (a : Nat) : countBits a.testBit = valPopc a := by
  simp only [valPopc, countBits, List.countP_eq_length_filter, bit_eq_testBit]

/-- The zeros above the highest one stand at the positions beyond it. -/
theorem countBits_clz {a : Nat} (ha : a < 2 ^ 32) :
    (countBits fun i => (List.range 32).all fun j => j < i || !a.testBit j) = valClz a := by
  unfold valClz
  split
  · subst a
    simp only [Nat.zero_testBit, Bool.not_false, Bool.or_true]
    rfl
  · rename_i h0
    have hlog : a.log2 < 32 := (Nat.log2_lt h0).mpr ha
    rw [countBits_congr (g := fun i => decide (a.log2 < i)) fun i _ => ?_, countBits, countP_range_gt]
    · omega
    · rw [Bool.eq_iff_iff, List.all_eq_true, decide_eq_true_eq]
      constructor
      · intro hall
        simpa [Nat.testBit_log2 h0] using hall a.log2 (List.mem_range.mpr hlog)
      · intro hi j _
        rcases Nat.lt_or_ge j i with hj | hj
        · simp [hj]
        · have hzero : a.testBit j = false := Nat.testBit_lt_two_pow ((Nat.log2_lt h0).mp (Nat.lt_of_lt_of_le hi hj))
          simp [hzero]

/-- The zeros below the lowest one stand at the positions before it. -/
theorem countBits_ctz (a : Nat) :
    (countBits fun i => (List.range 32).all fun j => i < j || !a.testBit j) = valCtz a := by
  simp only [valCtz, bit_eq_testBit]
  cases hf : (List.range 32).find? a.testBit with
  | none =>
    have hzero : ∀ j ∈ List.range 32, a.testBit j = false := fun j hj => by simpa using List.find?_eq_none.mp hf j hj
    rw [countBits_congr (g := fun i => decide (i < 32)) fun i hi => ?_, countBits, countP_range_lt]
    · rfl
    · rw [decide_eq_true hi, List.all_eq_true]
      exact fun j hj => by simp [hzero j hj]
  | some c =>
    obtain ⟨hone, hc, hbelow⟩ := List.find?_range_eq_some.mp hf
    have hlt := List.mem_range.mp hc
    rw [countBits_congr (g := fun i => decide (i < c)) fun i _ => ?_, countBits, countP_range_lt]
    · rw [Option.getD_some]; omega
    · rw [Bool.eq_iff_iff, List.all_eq_true, decide_eq_true_eq]
      constructor
      · intro hall
        simpa [hone] using hall c hc
      · intro hi j _
        rcases Nat.lt_or_ge i j with hj | hj
        · simp [hj]
        · rw [hbelow j (by omega), Bool.or_true]

/-- The first `n` bits of a word in reverse, at the top. -/
def brevFold (a n : Nat) : Nat := (List.range n).foldl (fun acc i => if bit a i then acc + 2 ^ (31 - i) else acc) 0

theorem valBrev_eq (a : Nat) : valBrev a = brevFold a 32 := rfl

theorem brevFold_succ (a n : Nat) : brevFold a (n + 1) = brevFold a n + (if a.testBit n then 2 ^ (31 - n) else 0) := by
  rw [brevFold, List.range_succ, List.foldl_append, List.foldl_cons, List.foldl_nil, bit_eq_testBit, ← brevFold]
  split <;> rfl

/-- A bit added below all that a number has. -/
theorem testBit_add_bit {x p : Nat} (hx : 2 ^ (p + 1) ∣ x) (c : Bool) (j : Nat) :
    (x + if c then 2 ^ p else 0).testBit j = if j = p then c else x.testBit j := by
  obtain ⟨q, rfl⟩ := hx
  have hlow : (if c then 2 ^ p else 0) < 2 ^ (p + 1) := by
    have := Nat.two_pow_pos p
    rw [Nat.pow_succ]
    split <;> omega
  rw [Nat.testBit_two_pow_mul_add _ hlow, Nat.testBit_two_pow_mul]
  rcases Nat.lt_trichotomy j p with hj | rfl | hj
  · have hlt : j < p + 1 := by omega
    simp only [hlt, if_true, hj.ne, if_false, ge_iff_le, Nat.not_le.mpr hlt, decide_false, Bool.false_and]
    split
    · exact Nat.testBit_two_pow_of_ne hj.ne'
    · exact Nat.zero_testBit j
  · simp only [Nat.lt_succ_self, if_true]
    cases c <;> simp
  · have hge : p + 1 ≤ j := hj
    simp only [Nat.not_lt.mpr hge, if_false, hj.ne', hge, decide_true, Bool.true_and]

/-- Each of the first `n` bits stands in its mirror's place, and below these places there is nothing. -/
theorem brevFold_bits (a : Nat) {n : Nat} (hn : n ≤ 32) :
    2 ^ (32 - n) ∣ brevFold a n
      ∧ ∀ j, (brevFold a n).testBit j = (decide (32 - n ≤ j ∧ j < 32) && a.testBit (31 - j)) := by
  induction n with
  | zero =>
    refine ⟨dvd_zero _, fun j => ?_⟩
    have hnone : ¬ (32 - 0 ≤ j ∧ j < 32) := by omega
    simp only [brevFold, List.range_zero, List.foldl_nil, Nat.zero_testBit, hnone, decide_false, Bool.false_and]
  | succ n ih =>
    obtain ⟨hdvd, hbits⟩ := ih (by omega)
    rw [show 32 - n = 31 - n + 1 by omega] at hdvd
    rw [brevFold_succ, show 32 - (n + 1) = 31 - n by omega]
    refine ⟨dvd_add (dvd_trans (Nat.pow_dvd_pow 2 (Nat.le_succ _)) hdvd) ?_, fun j => ?_⟩
    · split
      · exact dvd_rfl
      · exact dvd_zero _
    · rw [testBit_add_bit hdvd, hbits]
      by_cases hj : j = 31 - n
      · have hin : 31 - n ≤ j ∧ j < 32 := by omega
        rw [if_pos hj, decide_eq_true hin, Bool.true_and, show 31 - j = n by omega]
      · have hin : 32 - n ≤ j ∧ j < 32 ↔ 31 - n ≤ j ∧ j < 32 := by omega
        rw [if_neg hj, decide_eq_decide.mpr hin]

theorem wordOf_brev (a : Nat) : (wordOf fun i => a.testBit (31 - i)) = valBrev a := by
  have hbits := (brevFold_bits a (Nat.le_refl 32)).2
  rw [valBrev_eq]
  refine wordOf_eq (Nat.lt_pow_two_of_testBit _ fun i hi => ?_) fun i hi => ?_
  · rw [hbits, decide_eq_false (by omega), Bool.false_and]
  · rw [hbits, decide_eq_true (by omega), Bool.true_and]

/-- POPC to BREV (R98). -/
theorem countRule_completes {i : Instr} {r : LaneRow} (hr : countRule i = some r) : r.Completes i := by
  cases i
  case popc =>
    cases hr
    exact rule_completes (fun _ => rfl) fun _ _ _ _ => countBits_popc _
  case clz =>
    cases hr
    exact rule_completes (fun _ => rfl) fun _ _ _ hv => countBits_clz (operands_a_lt hv rfl)
  case ctz =>
    cases hr
    exact rule_completes (fun _ => rfl) fun _ _ _ _ => countBits_ctz _
  case brev =>
    cases hr
    exact rule_completes (fun _ => rfl) fun _ _ _ _ => wordOf_brev _
  all_goals simp only [countRule, reduceCtorEq] at hr

end Sys2Proof.Machine

open Sys2Proof Sys2Proof.Machine

/-- Settles O56: the positions counted stand above the highest or below the lowest one, and BREV by induction on the bits moved. -/
theorem bitCountRule : Obligations.BitCountRule :=
  fun _ _ hr => (countRule_completes hr).of_expand
end

/-! ## Comparisons (O57) -/

section
namespace Sys2Proof.Machine

theorem meetsCond_eq {cond : BitVec 3} (hc : ¬ 5 < cond.toNat) (a b : Int) : meetsCond cond a b = condOf cond.toNat a b := by
  unfold meetsCond
  generalize cond.toNat = c at hc
  interval_cases c <;> rfl

theorem icmp_eq {cond : BitVec 3} (hc : ¬ 5 < cond.toNat) (u : Bool) {w a b : Nat} (hw : 0 < w) (ha : a < 2 ^ w)
    (hb : b < 2 ^ w) : (if meetsCond cond (asInt u w a) (asInt u w b) then 1 else 0) = valIcmp w cond.toNat u a b := by
  rw [meetsCond_eq hc, asInt_eq_intOf u hw ha, asInt_eq_intOf u hw hb, valIcmp, b2n]

theorem plop_eq (lut : BitVec 4) (a b : Nat) :
    (if lut.getLsbD (2 * (a % 2) + b % 2) then 1 else 0) = valPlop lut.toNat a b := by
  rw [valPlop, bit_eq_testBit, BitVec.testBit_toNat, b2n]

/-- ICMP, CMP64 and PLOP, whose condition is none of the reserved ones (R99). -/
theorem compareRule_completes {i : Instr} {r : LaneRow} (hr : compareRule i = some r) : r.Completes i := by
  cases i
  case icmp h cond u =>
    obtain ⟨hc, hr⟩ := Option.ite_none_left_eq_some.mp hr
    cases hr
    exact rule_completes (fun _ => rfl) fun _ _ _ hv =>
      icmp_eq hc u (by decide) (operands_a_lt hv rfl) (operands_b_lt hv rfl (.inl rfl))
  case cmp64 h cond u =>
    obtain ⟨hc, hr⟩ := Option.ite_none_left_eq_some.mp hr
    cases hr
    exact rule_completes (fun _ => rfl) fun _ _ _ hv =>
      icmp_eq hc u (by decide) (operands_a_lt hv rfl) (operands_b_lt hv rfl (.inr rfl))
  case plop =>
    cases hr
    exact rule_completes (fun _ => rfl) fun _ _ _ _ => plop_eq _ _ _
  all_goals simp only [compareRule, reduceCtorEq] at hr

end Sys2Proof.Machine

open Sys2Proof Sys2Proof.Machine

/-- Settles O57: the six conditions one by one, on operands read as integers. -/
theorem comparisonRule : Obligations.ComparisonRule :=
  fun _ _ hr => (compareRule_completes hr).of_expand
end

/-! ## Addresses (O58) -/

section
namespace Sys2Proof.Machine

theorem ofInt_two_pow (w n : Nat) : BitVec.ofInt w (2 ^ n) = BitVec.twoPow w n :=
  BitVec.eq_of_toNat_eq (by rw [BitVec.toNat_ofInt, BitVec.toNat_twoPow]; norm_cast)

/-- A word extended to 64 bits by its type is the 64-bit word of its value. -/
theorem ofInt_extend (u : Bool) {b : Nat} (hb : b < 2 ^ 32) :
    BitVec.ofInt 64 (intOf u 32 b) = if u then (BitVec.ofNat 32 b).zeroExtend 64 else (BitVec.ofNat 32 b).signExtend 64 := by
  cases u with
  | false => rw [if_neg Bool.false_ne_true, intOf, if_neg Bool.false_ne_true, sgn_eq_toInt (by decide), BitVec.signExtend]
  | true =>
    rw [if_pos rfl, intOf, if_pos rfl, BitVec.ofInt_natCast]
    exact BitVec.eq_of_toNat_eq (by rw [BitVec.toNat_setWidth, BitVec.toNat_ofNat, BitVec.toNat_ofNat, Nat.mod_eq_of_lt hb])

theorem toNat_lea (sc : Nat) (u : Bool) (a : Nat) {b : Nat} (hb : b < 2 ^ 32) :
    (BitVec.ofNat 64 a + ((if u then (BitVec.ofNat 32 b).zeroExtend 64 else (BitVec.ofNat 32 b).signExtend 64) <<< sc)).toNat
      = valLea sc u a b := by
  rw [← ofInt_extend u hb, valLea, wrapTo_eq_ofInt, BitVec.ofInt_add, BitVec.ofInt_natCast, BitVec.ofInt_mul, ofInt_two_pow,
    BitVec.shiftLeft_eq_mul_twoPow]

theorem toNat_add64 (neg : Bool) (a b : Nat) :
    (if neg then BitVec.ofNat 64 a - BitVec.ofNat 64 b else BitVec.ofNat 64 a + BitVec.ofNat 64 b).toNat = valAdd64 neg a b := by
  rw [valAdd64, wrapTo_eq_ofInt]
  cases neg with
  | false => rw [if_neg Bool.false_ne_true, if_neg Bool.false_ne_true, BitVec.ofInt_add, BitVec.ofInt_natCast, BitVec.ofInt_natCast]
  | true =>
    rw [if_pos rfl, if_pos rfl, Int.sub_eq_add_neg, BitVec.ofInt_add, BitVec.ofInt_neg, BitVec.ofInt_natCast,
      BitVec.ofInt_natCast, BitVec.sub_eq_add_neg]

/-- LEA and ADD64: 64-bit words add as the integers that they stand for (R100). -/
theorem addressRule_completes {i : Instr} {r : LaneRow} (hr : addressRule i = some r) : r.Completes i := by
  cases i
  case lea =>
    cases hr
    exact rule_completes (fun _ => rfl) fun _ _ _ hv => toNat_lea _ _ _ (operands_b_lt hv rfl (.inl rfl))
  case add64 =>
    cases hr
    exact rule_completes (fun _ => rfl) fun _ _ _ _ => toNat_add64 _ _ _
  all_goals simp only [addressRule, reduceCtorEq] at hr

end Sys2Proof.Machine

open Sys2Proof Sys2Proof.Machine

/-- Settles O58: the 64-bit word of a sum or a product is that of its parts. -/
theorem addressRule : Obligations.AddressRule :=
  fun _ _ hr => (addressRule_completes hr).of_expand
end

/-! ## Conversions (O59) -/

section
namespace Sys2Proof.Machine

/-- Width, signedness and range of the six integer types of R93. -/
theorem intType_eq {ty : BitVec 3} (h : ¬ 5 < ty.toNat) :
    intWidth ty.toNat = typeBits ty ∧ (ty.toNat % 2 = 0 ↔ typeUnsigned ty = false)
      ∧ intRange ty.toNat = (leastOf (typeUnsigned ty) (typeBits ty), greatestOf (typeUnsigned ty) (typeBits ty))
      ∧ 0 < typeBits ty := by
  revert ty
  decide

theorem readInt_eq {ty : BitVec 3} (h : ¬ 5 < ty.toNat) (a : Nat) :
    readInt ty.toNat a = asInt (typeUnsigned ty) (typeBits ty) a := by
  obtain ⟨hwidth, hparity, -, hpos⟩ := intType_eq h
  simp only [readInt, hwidth, hparity]
  cases typeUnsigned ty with
  | false => rw [if_pos rfl, asInt_signed hpos]
  | true => rfl

/-- A value of the type, written and read back. -/
theorem asInt_ofInt {u : Bool} {w : Nat} (hw : 0 < w) {v : Int} (hlo : leastOf u w ≤ v) (hhi : v ≤ greatestOf u w) :
    asInt u w (BitVec.ofInt w v).toNat = v := by
  rw [asInt, BitVec.ofNat_toNat, BitVec.setWidth_eq]
  cases u with
  | false =>
    simp only [leastOf, greatestOf, Bool.false_eq_true, if_false] at hlo hhi ⊢
    exact BitVec.toInt_ofInt_eq_self hw hlo (by omega)
  | true =>
    simp only [leastOf, greatestOf, if_true] at hlo hhi ⊢
    rw [BitVec.toNat_ofInt, Int.emod_eq_of_lt hlo (by push_cast; omega), Int.toNat_of_nonneg hlo]

theorem cvti_eq {sty dty : BitVec 3} (hs : ¬ 5 < sty.toNat) (hd : ¬ 5 < dty.toNat) (sat : Bool) (a : Nat) :
    (BitVec.ofInt 32 (asInt (typeUnsigned dty) (typeBits dty)
      (asWord (typeUnsigned dty) sat (typeBits dty) (asInt (typeUnsigned sty) (typeBits sty) a)))).toNat
      = valCvti sty.toNat dty.toNat sat a := by
  obtain ⟨hwidth, -, hrange, hpos⟩ := intType_eq hd
  have hle := least_le_greatest (typeUnsigned dty) (typeBits dty)
  rw [valCvti, wrapTo_eq_ofInt, readInt_eq hs]
  congr 2
  cases sat with
  | false => rw [if_neg Bool.false_ne_true, readInt_eq hd, hwidth, asWord_eq_intResult, intResult, if_neg Bool.false_ne_true]
  | true =>
    rw [if_pos rfl, asWord_eq_intResult, intResult, if_pos rfl, wrapTo_eq_ofInt, intTypeRange_eq, hrange]
    exact asInt_ofInt hpos (le_max_left _ _) (max_le hle (min_le_left _ _))

/-- CVTI between types that R93 gives (R101). -/
theorem convertRule_completes {i : Instr} {r : LaneRow} (hr : convertRule i = some r) : r.Completes i := by
  cases i
  case cvti h sty dty sat =>
    obtain ⟨hty, hr⟩ := Option.ite_none_left_eq_some.mp hr
    cases hr
    obtain ⟨hs, hd⟩ := not_or.mp hty
    exact rule_completes (fun _ => rfl) fun _ _ _ _ => cvti_eq hs hd _ _
  all_goals simp only [convertRule, reduceCtorEq] at hr

end Sys2Proof.Machine

open Sys2Proof Sys2Proof.Machine

/-- Settles O59: types by their width, signedness and range; a clamped value reads back as itself. -/
theorem conversionRule : Obligations.ConversionRule :=
  fun _ _ hr => (convertRule_completes hr).of_expand
end

/-! ## Byte selection (O60) -/

section
namespace Sys2Proof.Machine

theorem sourceByte_eq {a : Nat} (ha : a < 2 ^ 32) (b : Nat) {i : Nat} (hi : i < 8) :
    (sourceByte a b i).toNat = if i < 4 then field a (8 * i) 8 else field b (8 * (i - 4)) 8 := by
  simp only [sourceByte, field, BitVec.toNat_ofNat]
  split
  · interval_cases i <;> omega
  · interval_cases i <;> omega

theorem chosenByte_eq {a : Nat} (ha : a < 2 ^ 32) (b c : Nat) : (chosenByte a b c).toNat = bselByte a b c := by
  have hsrc : field c 0 3 = c % 8 := by rw [field, Nat.pow_zero, Nat.div_one]; rfl
  have hfill : field c 3 2 = c / 8 % 4 := rfl
  have hx := sourceByte_eq ha b (Nat.mod_lt c (show 0 < 8 by decide))
  have hmsb : (sourceByte a b (c % 8)).msb = bit (sourceByte a b (c % 8)).toNat 7 := by
    rw [BitVec.msb_eq_getLsbD_last, bit_eq_testBit, BitVec.testBit_toNat]
  have hlt : c / 8 % 4 < 4 := Nat.mod_lt _ (by decide)
  simp only [bselByte, hsrc, hfill, ← hx]
  unfold chosenByte
  dsimp only
  rw [hmsb]
  generalize c / 8 % 4 = fill at hlt
  interval_cases fill
  · rfl
  · rfl
  · exact apply_ite BitVec.toNat _ _ _
  · exact BitVec.toNat_not

theorem leNat_bsel {a : Nat} (ha : a < 2 ^ 32) (d b : Nat) :
    leNat ((List.range 4).map fun k => chosenByte a b (d / 2 ^ (8 * k) % 256)) = valBsel d a b := by
  have hrange : List.range 4 = [0, 1, 2, 3] := rfl
  simp only [hrange, List.map_cons, List.map_nil, leNat, chosenByte_eq ha, valBsel, field]
  norm_num
  ring

/-- BSEL, byte by byte (R102). -/
theorem selectRule_completes {i : Instr} {r : LaneRow} (hr : selectRule i = some r) : r.Completes i := by
  cases i
  case bsel =>
    cases hr
    exact rule_completes (fun _ => rfl) fun _ _ _ hv => leNat_bsel (operands_a_lt hv rfl) _ _
  all_goals simp only [selectRule, reduceCtorEq] at hr

end Sys2Proof.Machine

open Sys2Proof Sys2Proof.Machine

/-- Settles O60: each byte of b:a is a field of a or of b, and each result byte the one that FILL makes of it. -/
theorem byteSelectRule : Obligations.ByteSelectRule :=
  fun _ _ hr => (selectRule_completes hr).of_expand
end

/-! ## Ring-set instructions complete (O15) -/

section
namespace Sys2Proof.Machine

/-- RSPACK (R149): D takes the RS16 form, and a predicate says whether the set is not connected. -/
theorem rspack_completes {h : Hdr} {pw : BitVec 3} {r : LaneRow} (hr : ringRow (.rspack h pw) = some r) :
    r.Completes (.rspack h pw) := by
  cases hr
  exact own_completes (fun _ => rfl) (fun _ _ _ _ _ => rfl) fun _ _ _ _ =>
    .ok ((OwnWork.writeD _).comp (.ite .id (.modThr _)))

/-- RSADD to RSPACK: operations that consult a ring slot, values of the set alone, and RSPACK. -/
theorem ringRow_completes {i : Instr} {r : LaneRow} (hr : ringRow i = some r) : r.Completes i := by
  cases i
  case rsadd | rssub | rsmul | rsdiv | rsrcp | rssqr | rsfrom | rslo | rshi =>
    cases hr
    exact ring_completes' fun _ => rfl
  case rsneg | rsuni | rsint | rstest | rsunpk =>
    cases hr
    exact value_completes fun _ => rfl
  case rspack => exact rspack_completes hr
  all_goals simp only [ringRow, reduceCtorEq] at hr

end Sys2Proof.Machine

open Sys2Proof Sys2Proof.Machine

/-- Settles O15: each instruction is `runRing` or `runValue` of its row's function, RSPACK also writes its predicate. -/
theorem ringSetInstructionsComplete : Obligations.RingSetInstructionsComplete :=
  fun _ _ hr => (ringRow_completes hr).of_expand
end

/-! ## History, trap-return, special-register and debug instructions complete (O21) -/

section
namespace Sys2Proof.Machine

/-! ### The checks of single entries -/

/-- An aligned offset within the image passes its check (R220). -/
theorem imageOffset_inside {o : Nat} (ha : o % 4 = 0) (hin : o < 1536) (u : State) : imageOffset u o = none := by
  simp only [imageOffset, bne, ha, beq_self_eq_true, Bool.not_true, Bool.false_eq_true, if_false, if_neg (Nat.not_le.mpr hin)]

/-- The words of a ring, once read, do not depend on the state at the lane's turn (R150). -/
theorem ringFound_of_ringWords {s : State} {l0 va : Nat} {ws : List Word} (hw : ringWords s l0 va = some ws) (u : State) :
    ringFound s u l0 va = .ok ws := by
  have hs : ringFound s s l0 va = .ok ws := toOption_some hw
  unfold ringFound at hs ⊢
  by_cases ha : (va % 32 != 0) = true
  · rw [if_pos ha] at hs
    cases hs
  · rw [if_neg ha] at hs ⊢
    cases hread : s.words l0 (List.range 7) with
    | some xs => simpa only [hread] using hs
    | none =>
      rw [hread] at hs
      cases hask : s.askWords s l0 true 4 ((List.range 7).map fun i => (i, va + 4 * i)) <;> simp [hask] at hs

/-! ### Bank operations (R217–R221) -/

/-- An entry that waits for its bank to be free, and then moves every lane past its bank operation: HXCLR (R219), HXCFG (R221). -/
theorem freeBank_completes {i : Instr} {opc : Nat} {h : Hdr} {fm : Form} {move : State → Lanes → State → Nat → Vals → State}
    (he : ∀ s, exec i s = .next (runLanes opc h fm anyone
      (fun s0 p k v u => if s0.bankBusy k then .stall .slot else bankLane s0.time h (move s0 p u k v) k) s)) :
    BundleRow.Completes { opc := opc, h := h, fm := fm, ok := fun s _ _ k _ => !s.bankBusy k
                          out := fun s p u k v => bankLane s.time h (move s p u k v) k } i := by
  refine bundle_completes he fun s p k v u hfree => ⟨?_, rfl⟩
  simp only [Bool.not_eq_true'] at hfree
  simp only [hfree, Bool.false_eq_true, if_false]

/-- HXWR (R220): an aligned offset within the image, and a free bank. -/
theorem hxwr_completes {h : Hdr} {r : BundleRow} (hr : systemRow (.hxwr h) = some r) : r.Completes (.hxwr h) := by
  cases hr
  refine bundle_completes (fun _ => rfl) fun s p k v u hok => ⟨?_, rfl⟩
  simp only [Bool.and_eq_true, Bool.not_eq_true', beq_iff_eq, decide_eq_true_eq] at hok
  obtain ⟨⟨haligned, hin⟩, hfree⟩ := hok
  simp only [imageOffset_inside haligned hin, hfree, Bool.false_eq_true, if_false]

/-! ### Trap return, special registers and debug (R225–R228) -/

/-- XRET (R226): a length to skip where it skips, and an aligned target; a skipped chain member leaves its latch. -/
theorem xret_completes {h : Hdr} {skip : Bool} {r : BundleRow} (hr : systemRow (.xret h skip) = some r) :
    r.Completes (.xret h skip) := by
  cases hr
  refine bundle_completes (fun _ => rfl) fun s p k v u hok => ?_
  simp only [Bool.and_eq_true, Bool.not_eq_true', beq_iff_eq] at hok
  obtain ⟨hlength, haligned⟩ := hok
  refine ⟨?_, ?_⟩
  · simp only [hlength, haligned, bne_self_eq_false, Bool.false_eq_true, if_false]
  · dsimp only
    split <;> rfl

/-- MTS (R227): no reserved rounding mode goes into fpc. -/
theorem mts_completes {h : Hdr} {r : BundleRow} (hr : systemRow (.mts h) = some r) : r.Completes (.mts h) := by
  cases hr
  refine bundle_completes (fun _ => rfl) fun s p k v u hok => ⟨if_neg ?_, rfl⟩
  simpa only [Bool.not_eq_true', Bool.not_eq_true, beq_eq_decide] using hok

/-- MTS.t (R228): a target that takes the write does, and the success bit says whether one did. -/
theorem mtsT_completes {h : Hdr} {pv : BitVec 3} {r : BundleRow} (hr : systemRow (.mtsT h pv) = some r) :
    r.Completes (.mtsT h pv) := by
  cases hr
  refine bundle_completes (fun _ => rfl) fun s p k v u _ => ⟨?_, rfl⟩
  dsimp only
  cases (s.targetOf k v.a).bind fun j => u.writeTarget j v.dst v.b <;> rfl

/-- BKPT under a claim stops its lane (R225, R401). -/
theorem bkpt_completes {h : Hdr} {r : BundleRow} (hr : systemRow (.bkpt h) = some r) : r.Completes (.bkpt h) := by
  cases hr
  refine bundle_completes (fun _ => rfl) fun s p k v u (hclaimed : s.claimed k = true) => ⟨?_, rfl⟩
  simp only [hclaimed, Bool.not_true, Bool.false_eq_true, if_false]

/-- QNTF (R234): a queue of the partition, and nothing that the release awaits. -/
theorem qntf_completes {h : Hdr} {r : BundleRow} (hr : systemRow (.qntf h) = some r) : r.Completes (.qntf h) := by
  cases hr
  refine bundle_completes (fun _ => rfl) fun s p k v u hok => ⟨?_, rfl⟩
  simp only [Bool.and_eq_true, Bool.not_eq_true', decide_eq_true_eq] at hok
  obtain ⟨⟨hnumber, hqueue⟩, hrelease⟩ := hok
  have hnot : ¬ 4096 ≤ v.b % 2 ^ 32 := Nat.not_le.mpr hnumber
  simp only [ge_iff_le, hnot, decide_false, hqueue, hrelease, Bool.not_true, Bool.or_self, Bool.false_eq_true, if_false]

/-- RSRING (R150): the lowest lane has read its words, loads the slot, and every lane writes what they are. -/
theorem rsring_completes {h : Hdr} {rs : BitVec 2} {r : BundleRow} (hr : systemRow (.rsring h rs) = some r) :
    r.Completes (.rsring h rs) := by
  cases hr
  refine bundle_completes (fun _ => rfl) fun s p k v u hok => ?_
  cases p with
  | nil => cases hok
  | cons l p =>
    obtain ⟨ws, hws⟩ := Option.isSome_iff_exists.mp hok
    refine ⟨?_, rfl⟩
    simp only [List.head?_cons, ringFound_of_ringWords hws u, hws, Option.getD_some]

/-- HXST to RSRING, one instruction at a time. -/
theorem systemRow_completes {i : Instr} {r : BundleRow} (hr : systemRow i = some r) : r.Completes i := by
  cases i
  case hxst | hxld =>
    cases hr
    exact image_completes fun _ => rfl
  case hxclr | hxcfg =>
    cases hr
    exact freeBank_completes fun _ => rfl
  case dbgmsg | pmark =>
    cases hr
    exact bundle_completes (fun _ => rfl) fun _ _ _ _ _ _ => ⟨rfl, rfl⟩
  case ipref =>
    cases hr
    exact once_completes (fun _ => rfl) fun _ _ _ _ _ _ => rfl
  case hxwr => exact hxwr_completes hr
  case xret => exact xret_completes hr
  case mts => exact mts_completes hr
  case mtsT => exact mtsT_completes hr
  case bkpt => exact bkpt_completes hr
  case qntf => exact qntf_completes hr
  case rsring => exact rsring_completes hr
  all_goals simp only [systemRow, reduceCtorEq] at hr

end Sys2Proof.Machine

open Sys2Proof Sys2Proof.Machine

/-- Settles O21: where its row's checks pass, each entry answers what the row says, one instruction at a time. -/
theorem systemInstructionsComplete : Obligations.SystemInstructionsComplete :=
  fun _ _ hr => (systemRow_completes hr).of_expand
end

/-! ## Every step goes on (O5) -/

section
namespace Sys2Proof.Machine

/-! ### Every meaning answers a next state -/

theorem safe_go (s : State) : Safe (go s) := ⟨s, rfl⟩

theorem safe_ite {c : Prop} [Decidable c] {a b : Result} (ha : Safe a) (hb : Safe b) : Safe (if c then a else b) := by
  split
  · exact ha
  · exact hb

theorem execGrant_safe (r : Nat) (s : State) : Safe (execGrant r s) := by
  unfold execGrant
  split
  · split
    · refine safe_ite (safe_go _) ?_
      split <;> exact safe_go _
    · exact safe_go _
  · exact safe_go _

theorem execStashLineFill_safe (b w line : Nat) (s : State) : Safe (execStashLineFill b w line s) := by
  unfold execStashLineFill
  split
  · exact safe_go _
  · refine safe_ite (safe_go _) (safe_ite (safe_go _) ?_)
    split <;> exact safe_go _

theorem execStashEvict_safe (b w line : Nat) (s : State) : Safe (execStashEvict b w line s) := by
  unfold execStashEvict
  split
  · exact safe_go _
  · exact safe_ite (safe_go _) (safe_go _)

theorem execCapsRetryTimer_safe (c : Nat) (s : State) : Safe (execCapsRetryTimer c s) :=
  safe_ite (safe_go _) (safe_go _)

/-- Every instruction and every step of the machine answers a next state, whatever the state holds: most by their form, `go` of
what they leave, the four below by each branch of their tests. -/
theorem exec_safe (i : Instr) (s : State) : Safe (exec i s) := by
  cases i
  case grant r => exact execGrant_safe r s
  case stashLineFill b w line => exact execStashLineFill_safe b w line s
  case stashEvict b w line => exact execStashEvict_safe b w line s
  case capsRetryTimer c => exact execCapsRetryTimer_safe c s
  all_goals exact ⟨_, rfl⟩

/-! ### Every move is answered -/

theorem partitionCommand_safe (code p : Nat) (o : CmdOps) (s : State) : Safe (partitionCommand code p o s) := by
  unfold partitionCommand
  split <;> exact ⟨_, rfl⟩

theorem managementCommand_safe (code : Nat) (o : CmdOps) (s : State) : Safe (managementCommand code o s) := by
  unfold managementCommand
  split <;> exact ⟨_, rfl⟩

theorem commandMove_safe (ring : Nat) (s : State) : Safe (commandMove ring s) := by
  unfold commandMove
  refine safe_ite (safe_go s) ?_
  split
  · exact safe_go _
  · exact safe_ite (safe_go s) (safe_ite (safe_go s) (safe_ite (managementCommand_safe _ _ s) (partitionCommand_safe _ ring _ s)))

theorem pageDoorbell_safe (p off value : Nat) (s : State) : Safe (pageDoorbell p off value s) := by
  unfold pageDoorbell
  refine safe_ite (safe_ite ⟨_, rfl⟩ (safe_go s)) ?_
  refine safe_ite (safe_ite ⟨_, rfl⟩ (safe_ite ⟨_, rfl⟩ (safe_go s))) ?_
  refine safe_ite (safe_go _) (safe_ite ⟨_, rfl⟩ (safe_ite ?_ (safe_go s)))
  split <;> exact ⟨_, rfl⟩

theorem doorbellMove_safe (off value : Nat) (s : State) : Safe (doorbellMove off value s) :=
  safe_ite (safe_ite (safe_go _) (safe_go s)) (safe_ite (pageDoorbell_safe _ _ value s) (safe_go s))

theorem debugMove_safe (p : Nat) (s : State) : Safe (debugMove p s) := by
  unfold debugMove
  split
  · exact safe_go s
  · refine safe_ite (safe_go _) ?_
    split <;> exact ⟨_, rfl⟩

/-- An issued bundle waits, traps, defers or runs its instruction, and each goes on. -/
theorem issueBundle_safe (b : Bundle) (s : State) : Safe (issueBundle b s) := by
  unfold issueBundle
  dsimp only
  split
  · exact ⟨_, rfl⟩
  · exact ⟨_, rfl⟩
  · split
    · refine safe_ite ⟨_, rfl⟩ (safe_ite ⟨_, rfl⟩ ?_)
      obtain ⟨t, ht⟩ := exec_safe _ { s.touchCode (coreOf (b.threads.headD 0)) (s.grpOf (b.threads.headD 0)).oslot
        (s.thr (b.threads.headD 0)).pc with cur := b }
      rw [ht]
      exact ⟨_, rfl⟩
    · exact ⟨_, rfl⟩
    · exact ⟨_, rfl⟩

theorem issue_safe (b : Bundle) (s : State) : Safe (issue b s) :=
  safe_ite (issueBundle_safe b _) (safe_ite ⟨_, rfl⟩ ⟨s, rfl⟩)

theorem makeMove_safe (m : Move) (s : State) : Safe (makeMove m s) := by
  cases m with
  | issue b => exact issue_safe b s
  | act i => exact safe_ite (exec_safe i s) ⟨s, rfl⟩
  | spad c => exact ⟨_, rfl⟩
  | command ring => exact commandMove_safe ring s
  | doorbell off value => exact doorbellMove_safe off value s
  | debug p => exact debugMove_safe p s
  | debugDone p => exact ⟨_, rfl⟩

theorem settle_safe {o : Host.Outcome State Fault Refusal} (ho : Safe o) : Safe (settle o) := by
  obtain ⟨t, rfl⟩ := ho
  exact ⟨t.settled, rfl⟩

end Sys2Proof.Machine

open Sys2Proof Sys2Proof.Machine

/-- Settles O5: a step is one move, from the agenda or by chance, and every kind of move is answered with a next state. -/
theorem everyStepGoesOn : Obligations.EveryStepGoesOn := by
  intro s
  rw [step, takeMove]
  split
  · exact settle_safe (makeMove_safe _ _)
  · exact settle_safe (makeMove_safe _ _)
end

/-! ## Trap entry (O36) -/

section
namespace Sys2Proof.Machine

/-- LEN and CPOS of xstat as trap entry writes them, read back (R33). -/
theorem xstat_len_cpos {len n : Nat} (hl : len < 4) (hn : n < 8) (chn : Bool) :
    let x := (BitVec.ofNat 32 (len * 2 ^ 8 + (if chn then n * 2 ^ 5 + 2 ^ 4 else 0))).toNat
    field x 8 2 = len ∧ field x 5 3 = if chn then n else 0 := by
  simp only [BitVec.toNat_ofNat, field]
  cases chn <;> simp only [Bool.false_eq_true, if_false, if_true] <;> omega

end Sys2Proof.Machine

open Sys2Proof Sys2Proof.Machine

/-- Settles O36: at user privilege a trap changes its own thread alone, to the one at the entry to its handler. -/
theorem trapEntry : Obligations.TrapEntry := by
  intro s t0 k cause info len chn hk hh hcause hlen hlat hpc hinfo t
  have htrap := State.trap_user (by rw [State.thr_of_find hk, hh]) cause info len chn (s := s) (k := k)
  have ht : t = s.entered k cause info len chn t0 := by
    simp only [t, htrap, State.thr_modThr_same _ (Option.isSome_of_eq_some hk), State.thr_of_find hk]
  obtain ⟨hpprv, hchn, -⟩ := xstat_fields len hlat chn
  obtain ⟨hlen', hcpos⟩ := xstat_len_cpos hlen hlat chn
  rw [ht, htrap]
  refine ⟨rfl, rfl, Nat.mod_eq_of_lt (by omega), Nat.mod_eq_of_lt hcause, Nat.mod_eq_of_lt hinfo, hlen', hpprv, hcpos, hchn,
    rfl, rfl, rfl, rfl, rfl, rfl, rfl, fun j hj => State.find_modThr_other s _ hj⟩
end

/-! ## Writes at the home leave the partitions -/

section
namespace Sys2Proof.Machine

/-- Nothing but what a write at the home reaches differs: memory and its lines, windows that own a line, copies in L1, monitors
that fire, and the counts of refused writes. -/
def AtHome (s t : State) : Prop :=
  t = { s with
    mem := t.mem, undef := t.undef, homes := t.homes, setMaxExp := t.setMaxExp, wrote := t.wrote, poisoned := t.poisoned
    regions := t.regions, sluices := t.sluices, monitors := t.monitors, launches := t.launches, blocks := t.blocks
    cores := t.cores, pkg := t.pkg }

theorem AtHome.refl (s : State) : AtHome s s := rfl

theorem AtHome.trans {s t u : State} (h1 : AtHome s t) (h2 : AtHome t u) : AtHome s u := by
  unfold AtHome at *
  rw [h2, h1]

theorem AtHome.parts {s t : State} (h : AtHome s t) : t.parts = s.parts := by rw [h]
theorem AtHome.time {s t : State} (h : AtHome s t) : t.time = s.time := by rw [h]

/-- A run of such changes is one. -/
theorem AtHome.foldl {α : Type} {f : State → α → State} (hf : ∀ u a, AtHome u (f u a)) (l : List α) (s : State) :
    AtHome s (l.foldl f s) :=
  List.foldlRecOn (motive := AtHome s) l f (.refl s) fun u hu a _ => hu.trans (hf u a)

theorem storeBytes_atHome (s : State) (pa : Nat) (bs : List Byte) : AtHome s (s.storeBytes pa bs) := by
  induction bs generalizing s pa with
  | nil => exact .refl s
  | cons b bs ih => exact (show AtHome s (s.storeByte pa b) from rfl).trans (ih _ _)

theorem setElem_atHome (s : State) (base fmt e bits : Nat) : AtHome s (s.setElem base fmt e bits) := by
  unfold State.setElem
  dsimp only
  split
  · rfl
  · exact storeBytes_atHome ..

theorem endOwnership_atHome (s : State) (la : Nat) : AtHome s (s.endOwnership la) := by
  unfold State.endOwnership
  split <;> rfl

theorem viewWrite_atHome (s : State) (n : Nat) (r : Region) (pa : Nat) (bs : List Byte) : AtHome s (s.viewWrite n r pa bs) :=
  AtHome.foldl (fun u _ => setElem_atHome u ..) _ s

theorem plainWrite_atHome (s : State) (pa : Nat) (bs : List Byte) : AtHome s (s.plainWrite pa bs) := by
  unfold State.plainWrite
  split
  · rfl
  · exact storeBytes_atHome s pa bs

theorem putBytes_atHome (s : State) (pa : Nat) (bs : List Byte) : AtHome s (s.putBytes pa bs) := by
  unfold State.putBytes
  split
  · split
    · split
      · rfl
      · exact viewWrite_atHome ..
    · rfl
  · rfl
  · exact AtHome.foldl (fun u _ => plainWrite_atHome u ..) _ s

theorem markViews_atHome (s : State) (pa n : Nat) : AtHome s (s.markViews pa n) := by
  unfold State.markViews
  split <;> rfl

theorem evictL2_atHome (s : State) (la : Nat) : AtHome s (s.evictL2 la) := by
  unfold State.evictL2
  split
  · rfl
  · dsimp only
    split <;> rfl

theorem useL2_atHome (s : State) (la : Nat) (f : HomeLine → HomeLine) : AtHome s (s.useL2 la f) := by
  have hr : AtHome s (s.roomL2 la) := by
    unfold State.roomL2
    split
    · rfl
    · split
      · exact evictL2_atHome ..
      · rfl
  exact hr.trans rfl

theorem testMonitors_atHome (s : State) (la start : Nat) : AtHome s (s.testMonitors la start) := by
  unfold State.testMonitors
  dsimp only
  split
  · rfl
  · refine (show AtHome s { s with monitors := _ } from rfl).trans (AtHome.foldl (fun u m => ?_) _ _)
    exact (rfl : AtHome u (u.fire m start))

theorem afterWrite_atHome (s : State) (la g : Nat) (tied drop : List Nat) : AtHome s (s.afterWrite la g tied drop)  := by
  have hd := AtHome.foldl evictL2_atHome drop s
  have hw : AtHome s { drop.foldl State.evictL2 s with wrote := _ } := hd.trans rfl
  exact hw.trans (AtHome.foldl (fun u l => testMonitors_atHome u l (g + 1)) _ _)

theorem writeHome_atHome (s : State) (core : Option Nat) (pa : Nat) (bs : List Byte) : AtHome s (s.writeHome core pa bs).1 := by
  unfold State.writeHome
  extract_lets la s1 g tied s2 s3 s4
  have h1 : AtHome s s1 := by
    unfold s1
    split
    · exact (putBytes_atHome ..).trans (endOwnership_atHome ..)
    · rfl
  have h2 : AtHome s s2 := h1.trans ((putBytes_atHome ..).trans (markViews_atHome ..))
  have h3 : AtHome s s3 := by
    unfold s3
    split
    · exact h2
    · exact h2.trans (useL2_atHome ..)
  have h4 : AtHome s s4 := by
    unfold s4
    cases core with
    | none => exact h3
    | some c => exact h3.trans rfl
  split
  · exact h4
  · exact h4.trans (afterWrite_atHome ..)

theorem writeLines_atHome (s : State) (core : Option Nat) (pa : Nat) (bs : List Byte) : AtHome s (s.writeLines core pa bs).1 :=
  List.foldlRecOn (motive := fun u : State × Nat => AtHome s u.1) _ _ (.refl s) fun u hu _ _ => hu.trans (writeHome_atHome u.1 core ..)

end Sys2Proof.Machine
end

/-! ## Traps at handler privilege (O37) -/

section
namespace Sys2Proof.Machine

/-! ### A fault record posted -/

/-- A posted record has changed no thread. -/
@[simp] theorem post_threads (s : State) (p : Nat) (r : FaultRec) (w : Option Party) : (s.post p r w).1.threads = s.threads := by
  unfold State.post
  dsimp only
  split
  · simp only [State.writeRecord, State.modPart_threads, writeLines_threads]
  · cases w <;> rfl

@[simp] theorem post_time (s : State) (p : Nat) (r : FaultRec) (w : Option Party) : (s.post p r w).1.time = s.time := by
  unfold State.post
  dsimp only
  split
  · simp only [State.writeRecord, State.modPart_time, (writeLines_atHome ..).time]
  · cases w <;> rfl

/-- A posted record of a party that waits on it: the party stands under the record's SEQ. -/
theorem post_parked {s : State} {p : Nat} (hp : (s.parts.find p).isSome = true) (r : FaultRec) (w : Party) :
    ((s.post p r (some w)).1.partAt p).parked.find (s.post p r (some w)).2 = some w := by
  obtain ⟨P, hP⟩ := Option.isSome_iff_exists.mp hp
  unfold State.post
  dsimp only
  split
  · simp [State.writeRecord, State.partAt, Tbl.find_change_same, (writeLines_atHome ..).parts, hP]
  · simp [State.partAt, Tbl.find_change_same, hP]

/-! ### A trap at H -/

/-- A trap at H is a DOUBLE record and a parked thread (R224). -/
theorem State.trap_handler {s : State} {k : Nat} (hh : (s.thr k).handler = true) (c x len : Nat) (chn : Bool) :
    s.trap k c x len chn = s.doubleFault k c x := if_pos hh

/-- A thread parked under a record, what its unfinished instruction had read forgotten. -/
def Thread.parkedOn (seq : Nat) (t : Thread) : Thread := { t with state := .parked seq, memo := [] }

/-- The DOUBLE record of a trap at H (R319). -/
def State.doubleRecord (s : State) (k cause info : Nat) : FaultRec :=
  { s.recordOf k with kind := 6, detail := cause, va := (s.thr k).pc, xinfo := info % 2 ^ 32 }

/-- The state with the DOUBLE record posted for the thread that is to wait on it, and the record's SEQ. -/
def State.postDouble (s : State) (k cause info : Nat) : State × Nat :=
  s.post (s.partOf (coreOf k)) (s.doubleRecord k cause info) (some (.double k (s.thr k).pc))

theorem doubleFault_eq (s : State) (k c x : Nat) :
    s.doubleFault k c x = (s.postDouble k c x).1.modThr k (Thread.parkedOn (s.postDouble k c x).2) := rfl

@[simp] theorem doubleFault_time (s : State) (k c x : Nat) : (s.doubleFault k c x).time = s.time := by
  rw [doubleFault_eq, State.modThr_time, State.postDouble, post_time]

/-- A trap at H parks its thread. -/
theorem doubleFault_self {s : State} {k : Nat} (hk : (s.threads.find k).isSome = true) (c x : Nat) :
    (s.doubleFault k c x).threads.find k = some ((s.thr k).parkedOn (s.postDouble k c x).2) := by
  rw [doubleFault_eq, State.find_modThr_same, State.postDouble, post_threads, State.find_thr hk, Option.map_some]

/-- A trap at H touches no other thread. -/
theorem doubleFault_other (s : State) {k j : Nat} (c x : Nat) (hj : j ≠ k) :
    (s.doubleFault k c x).threads.find j = s.threads.find j := by
  rw [doubleFault_eq, State.find_modThr_other _ _ hj, State.postDouble, post_threads]

/-- A thread in its lane at handler privilege. -/
structure State.AtHandler (s : State) (k : Nat) : Prop where
  inLane : (s.threads.find k).isSome = true
  handler : (s.thr k).handler = true

theorem State.AtHandler.congr {s u : State} {k : Nat} (hp : s.AtHandler k) (hk : u.threads.find k = s.threads.find k) :
    u.AtHandler k ∧ u.thr k = s.thr k := by
  have ht : u.thr k = s.thr k := by simp only [State.thr, hk]
  exact ⟨⟨hk ▸ hp.inLane, ht ▸ hp.handler⟩, ht⟩

/-- What a turn that traps at H leaves in the threads. -/
theorem State.AtHandler.trapLane {s u : State} {k : Nat} (hp : s.AtHandler k) (hk : u.threads.find k = s.threads.find k)
    (h : Hdr) (fm : Form) (c x : Nat) :
    (u.trapLane k h fm c x).time = u.time
      ∧ (∃ seq, (u.trapLane k h fm c x).threads.find k = some ((s.thr k).parkedOn seq))
      ∧ ∀ j, j ≠ k → (u.trapLane k h fm c x).threads.find j = u.threads.find j := by
  obtain ⟨hu, ht⟩ := hp.congr hk
  rw [State.trapLane, State.trap_handler hu.handler, ← ht]
  exact ⟨doubleFault_time .., ⟨_, doubleFault_self hu.inLane c x⟩, fun j hj => doubleFault_other u c x hj⟩

/-- Lanes at H that trap one after another: each parks, and no other thread differs. -/
theorem State.trapEach_handler {s : State} (h : Hdr) (fm : Form) (e : Nat → Nat × Nat) {ks : List Nat} (hn : ks.Nodup)
    (hk : ∀ k ∈ ks, s.AtHandler k) :
    (∀ k ∈ ks, ∃ seq, (s.trapEach h fm e ks).threads.find k = some ((s.thr k).parkedOn seq))
      ∧ ∀ k, k ∉ ks → (s.trapEach h fm e ks).threads.find k = s.threads.find k := by
  obtain ⟨-, h2, h3⟩ := foldl_turns (st := id) (key := id) (s := s) (I := fun _ => True)
    (R := fun k o => ∃ seq, o = some ((s.thr k).parkedOn seq))
    (f := fun acc k => acc.trapLane k h fm (e k).1 (e k).2) ks (by simpa using hn)
    (fun k hk' u _ hf => ⟨trivial, ((hk k hk').trapLane hf h fm _ _).2⟩) s trivial fun _ _ => rfl
  exact ⟨h2, fun k hk' => h3 k fun a ha e => hk' (e ▸ ha)⟩

/-! ### Bundles at H -/

/-- A bundle whose every thread a decode check refuses at H: each parks (R76, R224). -/
theorem runLanes_refused_handler {s : State} {opc : Nat} {h : Hdr} {fm : Form} {prot : State → Nat → Bool} (f : Entry)
    (ha : ascending s.cur.threads = true) (hk : ∀ k ∈ s.cur.threads, s.AtHandler k)
    (hd : ∀ k ∈ s.cur.threads, (decodeTrap s opc h fm prot k).isSome = true) :
    let t := runLanes opc h fm prot f s
    (∀ k ∈ s.cur.threads, ∃ seq, t.threads.find k = some ((s.thr k).parkedOn seq))
      ∧ ∀ k, k ∉ s.cur.threads → t.threads.find k = s.threads.find k := by
  have hr : (runLanes opc h fm prot f s).threads =
      (s.trapEach h fm (fun k => (decodeTrap s opc h fm prot k).getD (0, 0)) s.cur.threads).threads := by
    have hu : ∀ u : State, udivStep u h fm [] = (u, []) := fun u => udivStep_clear (by simp)
    simp only [runLanes, decoded_refused hd, List.any_nil, Bool.false_eq_true, if_false, List.filter_nil, hu, List.map_nil,
      List.foldl_nil]
    exact Run.finish_threads rfl (by simp)
  simp only [hr]
  exact State.trapEach_handler h fm _ (ascending_nodup ha) hk

/-- A clear bundle whose every passing lane traps at H: each parks, and a lane whose guard fails goes past. -/
theorem runLanes_trap_handler {s : State} {opc : Nat} {h : Hdr} {fm : Form} {prot : State → Nat → Bool} {f : Entry} {cause : Nat}
    {info : Nat → Vals → Nat} (hc : s.clears opc h fm prot = true) (ho : s.operandsOk h fm = true) (h15 : cause ≠ 15)
    (hp : ∀ k ∈ s.passing h, (s.thr k).handler = true) (hm : fm.chainable = false)
    (hf : ∀ p k v u, f s p k v u = .trap u cause (info k v)) :
    let t := runLanes opc h fm prot f s
    (∀ k ∈ s.passing h, ∃ seq, t.threads.find k = some ((s.thr k).parkedOn seq))
      ∧ (∀ k ∈ s.cur.threads, (s.thr k).guard h = false → t.threads.find k = (s.goesOn k h).threads.find k)
      ∧ ∀ k, k ∉ s.cur.threads → t.threads.find k = s.threads.find k := by
  obtain ⟨r, hr, ⟨hdone, hfaults, -⟩, h1, h2, h3⟩ := runLanes_turns (f := f)
    (Q := fun r => r.done = [] ∧ r.faults = [] ∧ r.s.time = s.time)
    (R := fun k o => ∃ seq, o = some ((s.thr k).parkedOn seq)) hc
    (fun r v ⟨hdone, hfaults, htime⟩ hv => ⟨hdone, hfaults, hv.time.trans htime⟩) ⟨rfl, rfl, rfl⟩ fun k hk r hq hfind => by
      obtain ⟨hdone, hfaults, htime⟩ := hq
      obtain ⟨v, hv⟩ := State.operandsOk_iff.mp ho k hk
      obtain ⟨hin, -⟩ := State.laneClear_iff.mp ((State.clears_iff.mp hc).2 k (State.mem_passing.mp hk).1)
      obtain ⟨hsame, hturn⟩ := (State.AtHandler.mk hin (hp k hk)).trapLane hfind h fm cause (info k v)
      simp only [plainStep, hv, hf, Run.lane_trap _ h15]
      exact ⟨⟨hdone, hfaults, hsame.trans htime⟩, hturn⟩
  have hth := Run.finish_threads (s := s) (h := h) (fm := fm) (pass := s.passing h) hfaults (by simp [hdone])
  simp only [hr, hth]
  refine ⟨h1, fun k hk hg => ?_, h3⟩
  obtain ⟨r0, ⟨-, -, htime⟩, hf0, hk0⟩ := h2 k hk hg
  rw [hk0, failLane_self (by simp [inChain, hm]), State.goesOn, State.goesOn, State.find_modThr_same, State.find_modThr_same,
    hf0, htime]

/-- The instructions of the class at 0x000 need no privilege. -/
theorem intRow_prot {i : Instr} {r : LaneRow} (hr : intRow i = some r) : r.prot = anyone := by
  cases i <;> simp only [intRow, reduceCtorEq, Option.some.injEq] at hr <;> subst hr <;> rfl

end Sys2Proof.Machine

open Sys2Proof Sys2Proof.Machine

/-- Settles O37: a trap at H is a DOUBLE record and a parked thread, and TRAP and the decode checks trap lane by lane. -/
theorem trapAtHandlerPrivilegeParks : Obligations.TrapAtHandlerPrivilegeParks := by
  refine ⟨fun s t0 k cause info len chn hk hh => ?_, fun h s hc ho hp => ?_, fun i r hr s ha hk => ?_⟩
  · have hthr := State.thr_of_find hk
    have hpc := congrArg Thread.pc hthr
    refine ⟨s.doubleRecord k cause info, rfl, rfl, hpc, hpc, rfl, rfl, rfl, rfl, rfl, ?_⟩
    rw [State.trap_handler (by rw [hthr, hh]), ← hthr]
    exact ⟨doubleFault_eq s k cause info, State.thr_of_find (doubleFault_self (by rw [hk]; rfl) cause info),
      fun hpart => post_parked hpart _ _⟩
  · exact ⟨_, rfl, runLanes_trap_handler hc ho (by decide) hp rfl fun _ _ _ _ => rfl⟩
  · obtain ⟨f, -, -, he, -⟩ := intRow_runsLocally hr
    refine ⟨_, he s, runLanes_refused_handler f ha (fun k hk' => let ⟨hin, hh, _⟩ := hk k hk'; ⟨hin, hh⟩) fun k hk' => ?_⟩
    obtain ⟨-, -, hrefused⟩ := hk k hk'
    rwa [intRow_prot hr]
end

/-! ## Bundles whose lanes act on tables of their groups and cores -/

section
namespace Sys2Proof.Machine

/-- Nothing but threads and requests differs. -/
def OnlyThreadsAndReqs (s t : State) : Prop := t = { s with threads := t.threads, reqs := t.reqs }

theorem OnlyThreadsAndReqs.trans {s t u : State} (h1 : OnlyThreadsAndReqs s t) (h2 : OnlyThreadsAndReqs t u) :
    OnlyThreadsAndReqs s u := by
  unfold OnlyThreadsAndReqs at *
  rw [h2, h1]

theorem OnlyThreadsAndReqs.groups {s t : State} (h : OnlyThreadsAndReqs s t) : t.groups = s.groups := by rw [h]
theorem OnlyThreadsAndReqs.cores {s t : State} (h : OnlyThreadsAndReqs s t) : t.cores = s.cores := by rw [h]

theorem OnlyThreadsOf.andReqs {s t : State} (h : OnlyThreadsOf s t) : OnlyThreadsAndReqs s t := by
  unfold OnlyThreadsOf at h
  rw [h]
  rfl

/-- The end of a bundle that met no fault and writes no D changes threads and requests alone. -/
theorem Run.finish_noD {s : State} {r : Run} {h : Hdr} {fm : Form} {pass : List Nat} (hf : r.faults = [])
    (hd : fm.dWrite = false) : OnlyThreadsAndReqs r.s (r.finish s h fm pass) := by
  have hmates : ∀ (u : State) (F : Nat → Thread → Thread),
      OnlyThreadsOf u (r.done.foldl (fun (acc : State) k => acc.modThr k (F k)) u) := fun u F =>
    List.foldlRecOn (motive := OnlyThreadsOf u) _ _ rfl fun _ hv k _ => hv.modThr k (F k)
  unfold Run.finish
  simp only [hf, hd, Bool.false_and, Bool.false_eq_true, if_false]
  split
  · split
    · rfl
    · exact (hmates r.s _).andReqs
  · split
    · rfl
    · exact OnlyThreadsAndReqs.trans (t := { r.s with reqs := _ }) rfl (hmates _ _).andReqs

/-- The lanes whose guard fails, after the others, change threads alone. -/
theorem foldl_failLane_only (s u : State) (h : Hdr) (fm : Form) (ks : List Nat) :
    OnlyThreadsOf u (ks.foldl (fun u k => s.failLane u k h fm) u) :=
  List.foldlRecOn (motive := OnlyThreadsOf u) ks _ rfl fun v hv k _ => OnlyThreadsOf.trans hv (failLane_only s v k h fm)

/-- A bundle that writes no D differs in threads and requests alone from what its passing lanes left. -/
theorem State.bundle_noD (s : State) (h : Hdr) {fm : Form} (out : State → Nat → Vals → Lane) (hd : fm.dWrite = false) :
    OnlyThreadsAndReqs (lanesRun h out (s.laneValues h fm) s) (s.bundle h fm out) :=
  (foldl_failLane_only s _ h fm _).andReqs.trans (Run.finish_noD (r := ⟨_, s.passing h, []⟩) rfl hd)

/-- A test that every lane passes, whatever the lanes before it left. -/
theorem lanesPass_of_forall {h : Hdr} {out : State → Nat → Vals → Lane} {ok : State → Nat → Vals → Bool} {l : List (Nat × Vals)}
    (hok : ∀ kv ∈ l, ∀ u, ok u kv.1 kv.2 = true) (u : State) : lanesPass h out ok l u = true := by
  induction l generalizing u with
  | nil => rfl
  | cons a l ih =>
    simp only [lanesPass, hok a (by simp), Bool.true_and]
    exact ih (fun kv hkv => hok kv (by simp [hkv])) _

/-- Lanes that each change their own group and no other: a group takes the changes of its own lanes, in lane order. -/
theorem lanesRun_groups {h : Hdr} {out : State → Nat → Vals → Lane} {f : Vals → Group → Group}
    (ho : ∀ k v u, ((out u k v).after h k u).groups = u.groups.change (groupOf k) (f v)) (l : List (Nat × Vals)) (s : State) (g : Nat) :
    (lanesRun h out l s).groups.find g
      = (s.groups.find g).map fun G => (l.filter fun kv => groupOf kv.1 == g).foldl (fun G kv => f kv.2 G) G := by
  induction l generalizing s with
  | nil => exact (Option.map_id' (x := s.groups.find g)).symm
  | cons kv l ih =>
    rw [lanesRun, ih, ho]
    by_cases hg : groupOf kv.1 = g
    · rw [hg, Tbl.find_change_same, List.filter_cons_of_pos (by simpa using hg), Option.map_map]
      rfl
    · rw [Tbl.find_change_other _ _ (Ne.symm hg), List.filter_cons_of_neg (by simpa using hg)]

end Sys2Proof.Machine
end

/-! ## PMARK (O50) -/

section
namespace Sys2Proof.Machine

/-- A group with the mark of a lane's b (R230). -/
def Group.markWith (v : Vals) (G : Group) : Group := { G with mark := BitVec.ofNat 16 v.b }

/-- Of several marks the last stays, and nothing else of the group differs. -/
theorem Group.foldl_markWith {l : List (Nat × Vals)} {kv : Nat × Vals} (hl : l.getLast? = some kv) (G : Group) :
    l.foldl (fun G kv => G.markWith kv.2) G = G.markWith kv.2 := by
  obtain ⟨init, rfl⟩ := List.getLast?_eq_some_iff.mp hl
  obtain ⟨m, hm⟩ := List.foldlRecOn (motive := fun H : Group => ∃ m, H = { G with mark := m }) init
    (fun G kv => G.markWith kv.2) ⟨G.mark, rfl⟩ fun H ⟨_, hH⟩ kv _ => ⟨BitVec.ofNat 16 kv.2.b, by rw [hH]; rfl⟩
  rw [List.foldl_append, hm]
  rfl

/-- What a passing lane of PMARK does before it goes past. -/
def markLane (u : State) (k : Nat) (v : Vals) : State := u.modGrp (groupOf k) (Group.markWith v)

theorem pmarkOp_eq (h : Hdr) (s : State) :
    pmarkOp h s = runLanes 0x2CC h fmB anyone (fun _ _ k v u => .ok (markLane u k v)) s := rfl

/-- Nothing but threads and groups differs. -/
def OnlyThreadsAndGroups (s t : State) : Prop := t = { s with threads := t.threads, groups := t.groups }

theorem OnlyThreadsAndGroups.trans {s t u : State} (h1 : OnlyThreadsAndGroups s t) (h2 : OnlyThreadsAndGroups t u) :
    OnlyThreadsAndGroups s u := by
  unfold OnlyThreadsAndGroups at *
  rw [h2, h1]

theorem OnlyThreadsAndGroups.time {s t : State} (h : OnlyThreadsAndGroups s t) : t.time = s.time := by rw [h]
theorem OnlyThreadsAndGroups.nextReq {s t : State} (h : OnlyThreadsAndGroups s t) : t.nextReq = s.nextReq := by rw [h]

theorem OnlyThreadsOf.andGroups {s t : State} (h : OnlyThreadsOf s t) : OnlyThreadsAndGroups s t := by
  unfold OnlyThreadsOf at h
  rw [h]
  rfl

/-- A thread goes past its instruction alike from states that agree on it and on the time. -/
theorem find_goesOn_congr {s u : State} {k : Nat} (hk : u.threads.find k = s.threads.find k) (ht : u.time = s.time) (h : Hdr) :
    (u.goesOn k h).threads.find k = (s.goesOn k h).threads.find k := by
  rw [State.goesOn, State.goesOn, State.find_modThr_same, State.find_modThr_same, hk, ht]

/-- PMARK touches threads and groups alone, and every thread of its bundle goes past it. -/
theorem pmarkOp_threads {h : Hdr} {s : State} (hc : s.clears 0x2CC h fmB anyone = true) (ho : s.operandsOk h fmB = true) :
    OnlyThreadsAndGroups s (pmarkOp h s)
      ∧ (∀ k ∈ s.cur.threads, (pmarkOp h s).threads.find k = (s.goesOn k h).threads.find k)
      ∧ ∀ k, k ∉ s.cur.threads → (pmarkOp h s).threads.find k = s.threads.find k := by
  obtain ⟨r, hr, ⟨hq, hfaults, hdone⟩, h1, h2, h3⟩ := runLanes_turns (f := fun _ _ k v u => .ok (markLane u k v))
    (Q := fun r => OnlyThreadsAndGroups s r.s ∧ r.faults = [] ∧ ∀ k ∈ r.done, k ∈ s.passing h)
    (R := fun k o => o = (s.goesOn k h).threads.find k) hc
    (fun r v hr hv => ⟨hr.1.trans hv.andGroups, hr.2⟩) ⟨rfl, rfl, by simp⟩ fun k hk r hq hfind => by
      obtain ⟨hq, hfaults, hdone⟩ := hq
      obtain ⟨v, hv⟩ := State.operandsOk_iff.mp ho k hk
      simp only [plainStep, hv, Run.lane]
      refine ⟨⟨hq.trans rfl, hfaults, fun j hj => ?_⟩, find_goesOn_congr (u := markLane r.s k v) hfind hq.time h,
        fun j hj => State.find_modThr_other (markLane r.s k v) _ hj⟩
      rcases List.mem_append.mp hj with hj | hj
      · exact hdone j hj
      · exact List.mem_singleton.mp hj ▸ hk
  have hin : ∀ k ∈ s.cur.threads, (s.threads.find k).isSome = true := fun k hk =>
    (State.laneClear_iff.mp ((State.clears_iff.mp hc).2 k hk)).1
  have hend : r.finish s h fmB (s.passing h) = r.s := by
    obtain ⟨u, done, faults⟩ := r
    cases hfaults
    refine Run.finish_quiet hq.nextReq (fun k hk => ?_) (.inl rfl)
    have hk' := h1 k (hdone k hk)
    rw [State.goesOn, State.find_modThr_same, State.find_thr (hin k (State.mem_passing.mp (hdone k hk)).1)] at hk'
    rw [State.thr_of_find hk']
    rfl
  rw [pmarkOp_eq, hr, hend]
  refine ⟨hq, fun k hk => ?_, h3⟩
  cases hg : (s.thr k).guard h with
  | true => exact h1 k (State.mem_passing.mpr ⟨hk, hg⟩)
  | false =>
    obtain ⟨r0, ⟨hq0, -⟩, hf0, hk0⟩ := h2 k hk hg
    rw [hk0, failLane_self (by simp [inChain, fmB])]
    exact find_goesOn_congr hf0 hq0.time h

/-- A group after PMARK takes the marks of its passing lanes, in lane order. -/
theorem pmarkOp_groups {h : Hdr} {s : State} (hc : s.clears 0x2CC h fmB anyone = true) (ho : s.operandsOk h fmB = true) (g : Nat) :
    (pmarkOp h s).groups.find g = (s.groups.find g).map fun G =>
      ((s.laneValues h fmB).filter fun kv => groupOf kv.1 == g).foldl (fun G kv => G.markWith kv.2) G := by
  have hb : pmarkOp h s = s.bundle h fmB fun u k v => .ok (markLane u k v) :=
    runLanes_bundle (ok := fun _ _ _ => true) hc ho (lanesPass_true _ _) fun _ _ _ _ => ⟨rfl, rfl⟩
  rw [hb, (State.bundle_noD s h _ rfl).groups]
  exact lanesRun_groups (f := Group.markWith) (fun _ _ _ => rfl) _ s g

end Sys2Proof.Machine

open Sys2Proof Sys2Proof.Machine

/-- Settles O50: the lanes mark their group in ascending order, so the highest passing lane of each marks it last. -/
theorem performanceMarkTakesHighestLane : Obligations.PerformanceMarkTakesHighestLane := by
  intro h s hc ho
  obtain ⟨hframe, hpast, hother⟩ := pmarkOp_threads hc ho
  refine ⟨_, rfl, hframe, hpast, hother, fun g G hG => ?_⟩
  have hgrp := pmarkOp_groups hc ho g
  rw [hG, Option.map_some] at hgrp
  refine ⟨fun k v hlast => hgrp.trans (congrArg some (Group.foldl_markWith hlast G)), fun hnone => hgrp.trans ?_⟩
  have hnil : ((s.laneValues h fmB).filter fun kv => groupOf kv.1 == g) = [] :=
    List.filter_eq_nil_iff.mpr fun kv hkv => by simpa using hnone kv.1 (mem_laneValues.mp hkv).1
  rw [hnil]
  rfl
end

/-! ## HXCLR (O49) -/

section
namespace Sys2Proof.Machine

/-! ### The owner slot of a core after a bank operation -/

/-- An owner slot that its core has, after a change of it. -/
theorem slotAt_modSlot_same {s : State} {c o : Nat} (ho : o < (s.coreAt c).oslots.length) (f : OSlot → OSlot) :
    (s.modSlot c o f).slotAt c o = f (s.slotAt c o) := by
  rw [State.slotAt, State.modSlot, State.coreAt_modCore_same]
  simp [State.slotAt, List.getD_eq_getElem?_getD, List.getElem?_eq_getElem ho]

/-- A change of an owner slot leaves the L1 lines of every core. -/
theorem l1_modSlot (s : State) (c o : Nat) (f : OSlot → OSlot) (j : Nat) :
    ((s.modSlot c o f).coreAt j).l1 = (s.coreAt j).l1 := by
  by_cases hj : j = c
  · rw [hj, State.modSlot, State.coreAt_modCore_same]
  · rw [State.modSlot, State.coreAt_modCore_other s _ hj]

/-! ### What HXCLR does once per bundle -/

/-- A lane past its bank operation has done no more to the cores than the operation. -/
theorem bankLane_cores (now : Nat) (h : Hdr) (v u : State) (k : Nat) : ((bankLane now h v k).after h k u).cores = v.cores := rfl

/-- Lanes of which none acts leave the cores. -/
theorem lanesRun_cores {h : Hdr} {out : State → Nat → Vals → Lane} {l : List (Nat × Vals)}
    (ho : ∀ kv ∈ l, ∀ u, ((out u kv.1 kv.2).after h kv.1 u).cores = u.cores) (s : State) : (lanesRun h out l s).cores = s.cores := by
  induction l generalizing s with
  | nil => rfl
  | cons kv l ih => rw [lanesRun, ih (fun x hx => ho x (by simp [hx])), ho kv (by simp)]

/-- The cores after HXCLR: its lowest passing lane has cleared the bank of its owner slot, once (R91, R219). -/
theorem hxclr_cores {h : Hdr} {tbl : BitVec 4} {s : State} {l : Nat} {v : Vals} {rest : Lanes}
    (hc : s.clears 0x2C2 h fmNone anyone = true) (ho : s.operandsOk h fmNone = true)
    (hl : s.laneValues h fmNone = (l, v) :: rest) (hb : ∀ k ∈ s.passing h, s.bankBusy k = false) :
    ∃ t, exec (.hxclr h tbl) s = .next t ∧ t.cores = (s.bankOp l (Bank.clear tbl)).cores := by
  have hnd : l ∉ rest.map (·.1) := by
    have hp : ((s.laneValues h fmNone).map (·.1)).Nodup := by
      rw [laneValues_fst ho]
      exact (ascending_nodup (State.clears_iff.mp hc).1).filter _
    rw [hl, List.map_cons] at hp
    exact (List.nodup_cons.mp hp).1
  refine ⟨_, systemRow_completes (i := .hxclr h tbl) rfl s hc ho (lanesPass_of_forall (fun kv hkv _ => ?_) s), ?_⟩
  · simp only [id, hb kv.1 (mem_laneValues.mp hkv).1, Bool.not_false]
  · refine (State.bundle_noD s h (fm := fmNone) _ rfl).cores.trans ?_
    simp only [id, hl, List.head?_cons, Option.map_some, lanesRun, if_true]
    rw [lanesRun_cores fun kv hkv u => ?_, bankLane_cores]
    have hne : l ≠ kv.1 := fun e => hnd (e ▸ List.mem_map_of_mem hkv)
    rw [bankLane_cores, if_neg (by simpa using hne)]

/-- The tables of a bank after HXCLR (R42, R219). -/
theorem Bank.clear_tables (tbl : BitVec 4) (b : Bank) :
    let all := tbl == 0
    (b.clear tbl).bot = (if all || tbl.getLsbD 0 then List.replicate 4 (List.replicate 256 1) else b.bot)
      ∧ (b.clear tbl).ghr = (if all || tbl.getLsbD 0 then [0, 0, 0, 0] else b.ghr)
      ∧ (b.clear tbl).spt = (if all || tbl.getLsbD 1 then (List.range 32).map (fun e => ⟨31 - e, false, 0, 0, 0, 0⟩) else b.spt)
      ∧ (b.clear tbl).rip = (if all || tbl.getLsbD 2 then List.replicate 128 1 else b.rip)
      ∧ (b.clear tbl).cht = (if all || tbl.getLsbD 3 then List.replicate 4 (List.replicate 64 ⟨false, 0, 0⟩) else b.cht)
      ∧ (b.clear tbl).conf = (if all then 0x40F1 else b.conf) := by
  unfold Bank.clear
  by_cases h0 : tbl = 0
  · subst h0
    exact ⟨rfl, rfl, rfl, rfl, rfl, rfl⟩
  · simp only [h0, if_false, beq_false_of_ne h0, Bool.false_or, Bool.false_eq_true]
    exact ⟨rfl, rfl, rfl, rfl, rfl, trivial⟩

end Sys2Proof.Machine

open Sys2Proof Sys2Proof.Machine

/-- Settles O49: the lowest passing lane alone acts, on the bank of its own owner slot. -/
theorem historyClearClearsItsTables : Obligations.HistoryClearClearsItsTables := by
  intro h tbl s l v rest fm hc ho hl hb hlen
  obtain ⟨t, ht, hcores⟩ := hxclr_cores (tbl := tbl) hc ho hl hb
  have hcore : ∀ c, t.coreAt c = (s.bankOp l (Bank.clear tbl)).coreAt c := fun c => by rw [State.coreAt, hcores, State.coreAt]
  have hslot : t.slotAt (coreOf l) (s.grpOf l).oslot =
      { s.slotAt (coreOf l) (s.grpOf l).oslot with
        bank := (s.slotAt (coreOf l) (s.grpOf l).oslot).bank.clear tbl, busy := true } := by
    rw [State.slotAt, hcore]
    exact slotAt_modSlot_same hlen _
  refine ⟨t, ht, ?_⟩
  dsimp only
  rw [hslot]
  obtain ⟨hbot, hghr, hspt, hrip, hcht, hconf⟩ := Bank.clear_tables tbl (s.slotAt (coreOf l) (s.grpOf l).oslot).bank
  exact ⟨hbot, hghr, hspt, hrip, hcht, hconf, rfl, fun c => by rw [hcore]; exact l1_modSlot s _ _ _ c⟩
end

/-! ## The reset state (O6, O7) -/

section
namespace Sys2Proof.Machine

/-! ### What a table that lists nothing reads as -/

/-- A core without an entry is scrubbed (R394). -/
theorem State.coreAt_unlisted {s : State} {c : Nat} (h : s.cores.find c = none) : s.coreAt c = .scrubbed := by
  rw [State.coreAt, h, Option.getD_none]

/-- A line that is neither at its home nor evicted from its set has had no lease granted on it (R237, R238). -/
theorem State.maxExpOf_unlisted {s : State} {la : Nat} (hl : s.homes.find la = none)
    (hs : s.setMaxExp.find (Machine.setKey s la) = none) : s.maxExpOf la = 0 := by
  rw [State.maxExpOf, hl, hs, Option.getD_none]

/-- A line without an entry at its home has no stash owner (R237). -/
theorem State.stashOf_unlisted {s : State} {la : Nat} (h : s.homes.find la = none) : s.stashOf la = none := by
  rw [State.stashOf, h, Option.bind_none]

/-- A byte of a page that is not undefined is the byte of the memory. -/
theorem State.storedByte_defined {s : State} {pa : Nat} (h : s.undef.find (pa / 65536) = none) :
    s.storedByte pa = Memory.get s.mem pa := by
  rw [State.storedByte, h]

/-- A byte that nothing has written is 0 (R394). -/
theorem Memory.get_unlisted {m : List Host.Cell} {a : Nat} (h : Tbl.find m a = none) : Memory.get m a = 0 := by
  rw [Memory.get, h, Option.getD_none, Memory.blank]

theorem Memory.wf_nil : Memory.wf [] = true := rfl

/-- With no request pending, none has a number at or past the next one. -/
theorem State.reqsBelow_of_nil {s : State} (h : s.reqs = []) : s.reqsBelow := by
  intro r hr
  rw [h] at hr
  exact absurd hr List.not_mem_nil

/-! ### The machine at reset (R237, R394) -/

theorem State.reset_coreAt (c : Nat) : State.reset.coreAt c = .scrubbed := State.coreAt_unlisted (Tbl.find_nil c)

theorem State.reset_maxExpOf (la : Nat) : State.reset.maxExpOf la = 0 :=
  State.maxExpOf_unlisted (Tbl.find_nil la) (Tbl.find_nil _)

theorem State.reset_stashOf (la : Nat) : State.reset.stashOf la = none := State.stashOf_unlisted (Tbl.find_nil la)

theorem State.reset_storedByte (pa : Nat) : State.reset.storedByte pa = 0 :=
  (State.storedByte_defined (Tbl.find_nil _)).trans (Memory.get_unlisted (Tbl.find_nil pa))

end Sys2Proof.Machine

open Sys2Proof Sys2Proof.Machine

/-- Settles O6: the tables of the reset state list nothing, so every core, line and byte reads as its unlisted value. -/
theorem resetState : Obligations.ResetState := by
  refine ⟨rfl, rfl, rfl, rfl, rfl, rfl, rfl, rfl, fun c => ?_, fun la => ?_, fun pa _ => State.reset_storedByte pa⟩
  · rw [State.reset_coreAt, Core.scrubbed]
  · exact ⟨State.reset_maxExpOf la, State.reset_stashOf la⟩

/-- Settles O7: the reset state has written no byte and sent no request. -/
theorem resetMeetsInvariants : Obligations.ResetMeetsInvariants :=
  ⟨Memory.wf_nil, State.reqsBelow_of_nil rfl⟩
end

/-! ## Invalidations (O27) -/

section
namespace Sys2Proof.Machine

/-- A command that invalidates what its row covers completes where no request on its way holds it up (R271). -/
theorem invalidation_completes {p : Nat} {o : CmdOps} {masks : List Nat} {fits : Bool} {v : Covers} {body : State → CmdEnd}
    {i : Instr} {r : EventRow} (hr : invalidateCommand i = some r) (hcov : invCovers i = some (p, o, masks, fits, v))
    (he : ∀ s, exec i s = .next (runCmd p o masks body s)) (hbody : fits = true → ∀ s, body s = invalidate p v s) :
    r.Completes i := by
  rw [invalidateCommand, hcov, Option.map_some] at hr
  cases hr
  refine command_completes he fun s hok => ?_
  obtain ⟨hfits, hquiet⟩ := Bool.and_eq_true_iff.mp hok
  exact (hbody hfits s).trans (invalidate_done hquiet)

/-- The four invalidations complete as their rows say; INV_VA and INV_IPA need a range that is not empty. -/
theorem invalidateCommand_completes {i : Instr} {r : EventRow} (hr : invalidateCommand i = some r) : r.Completes i := by
  cases i
  case invVa => exact invalidation_completes hr rfl (fun _ => rfl) fun hn _ => if_neg (by simpa using hn)
  case invOwner => exact invalidation_completes hr rfl (fun _ => rfl) fun _ _ => rfl
  case invIpa => exact invalidation_completes hr rfl (fun _ => rfl) fun hn _ => if_neg (by simpa using hn)
  case invAll => exact invalidation_completes hr rfl (fun _ => rfl) fun _ _ => rfl
  all_goals simp only [invalidateCommand, invCovers, Option.map_none, reduceCtorEq] at hr

end Sys2Proof.Machine

open Sys2Proof Sys2Proof.Machine

/-- Settles O27: each is one invalidation of what its row covers, which nothing holds up. -/
theorem invalidationCommandsComplete : Obligations.InvalidationCommandsComplete := fun _ _ => invalidateCommand_completes
end

/-! ## Tables, regions and pages (O28) -/

section
namespace Sys2Proof.Machine

theorem setFaultq_completes {p : Nat} {o : CmdOps} {r : EventRow} (hr : tableCommand (.setFaultq p o) = some r) :
    r.Completes (.setFaultq p o) := by
  cases hr
  refine command_completes (fun _ => rfl) fun s hok => ?_
  simp only [Bool.and_eq_true, beq_iff_eq, decide_eq_true_eq] at hok
  obtain ⟨⟨⟨haligned, hlo⟩, hhi⟩, howns⟩ := hok
  simp only [haligned, ne_eq, not_true_eq_false, decide_false, Bool.false_or, Nat.not_lt.mpr hlo,
    Nat.not_lt.mpr hhi, howns, Bool.not_true, Bool.false_eq_true, if_false]

theorem setTables_completes {p : Nat} {o : CmdOps} {r : EventRow} (hr : tableCommand (.setTables p o) = some r) :
    r.Completes (.setTables p o) := by
  cases hr
  refine command_completes (fun _ => rfl) fun s hok => ?_
  simp only [Bool.and_eq_true, beq_iff_eq] at hok
  obtain ⟨howners, hqueues⟩ := hok
  exact if_neg (by simp [howners, hqueues])

theorem setSluiceOvf_completes {p : Nat} {o : CmdOps} {r : EventRow} (hr : tableCommand (.setSluiceOvf p o) = some r) :
    r.Completes (.setSluiceOvf p o) := by
  cases hr
  refine command_completes (fun _ => rfl) fun s hok => ?_
  simp only [Bool.and_eq_true, beq_iff_eq, decide_eq_true_eq] at hok
  obtain ⟨⟨haligned, hsize⟩, howns⟩ := hok
  simp only [haligned, ne_eq, not_true_eq_false, decide_false, Bool.false_or, Nat.not_lt.mpr hsize, howns,
    Bool.not_true, Bool.false_eq_true, if_false]

theorem setRegion_completes {p : Nat} {o : CmdOps} {r : EventRow} (hr : tableCommand (.setRegion p o) = some r) :
    r.Completes (.setRegion p o) := by
  cases hr
  refine command_completes (fun _ => rfl) fun s hok => ?_
  simp only [Bool.and_eq_true, beq_iff_eq] at hok
  obtain ⟨⟨⟨⟨haligned, hpart⟩, hreach⟩, hvalid⟩, hheld⟩ := hok
  simp only [haligned, ne_eq, not_true_eq_false, if_false, hpart, bne_self_eq_false, hreach, Bool.not_true, Bool.or_self,
    Bool.false_eq_true, hvalid, hheld, Bool.and_false, if_true, State.setRegion]

/-- The key that a PAGE_REC may name: key 0 for class 0 alone, or a key of the partition (R379). -/
theorem pageRecKey_eq (P : Part) (cls key : Nat) :
    (if key = 0 then cls == 0 else P.keyBase ≤ key && key < P.keyBase + P.keyCnt) = if key = 0 then cls == 0 else P.hasKey key := by
  by_cases hkey : key = 0
  · rw [if_pos hkey, if_pos hkey]
  · simp only [hkey, if_false, Part.hasKey, bne_iff_ne.mpr hkey, Bool.true_and]

theorem pageRec_completes {p : Nat} {o : CmdOps} {r : EventRow} (hr : tableCommand (.pageRec p o) = some r) :
    r.Completes (.pageRec p o) := by
  cases hr
  refine command_completes (fun _ => rfl) fun s hok => ?_
  rw [← pageRecKey_eq] at hok
  simp only [Bool.and_eq_true] at hok
  obtain ⟨⟨⟨hcls, hkey⟩, hpages⟩, hunread⟩ := hok
  have hquiet : (o.f 1 0 2 == 2 && !s.pagesUnread (o.pages 0).contains) = false := by
    rw [← Bool.not_eq_true', Bool.not_and, Bool.not_not]
    exact hunread
  rw [State.holdsPages] at hpages
  simp only [bne_iff_ne.mp hcls, if_false, hkey, hpages, Bool.not_true, Bool.or_self, Bool.false_eq_true, hquiet]

theorem scrub_completes {p : Nat} {o : CmdOps} {r : EventRow} (hr : tableCommand (.scrub p o) = some r) : r.Completes (.scrub p o) := by
  cases hr
  exact command_completes (fun _ => rfl) fun s hpages => if_neg (by simpa [State.holdsPages] using hpages)

/-- The queue that a QRESUME looks at: its PROD is the one that the command brings, where it brings one (R303). -/
theorem queueAt_resumed (s : State) (q prod : Nat) (c : Prop) [Decidable c] :
    (if c then s.modQueue q fun Q => { Q with prod := prod } else s).queueAt q
      = { s.queueAt q with prod := if c then prod else (s.queueAt q).prod } := by
  by_cases hc : c
  · rw [if_pos hc, if_pos hc, State.queueAt_modQueue]
  · rw [if_neg hc, if_neg hc]

theorem qresume_completes {p : Nat} {o : CmdOps} {r : EventRow} (hr : tableCommand (.qresume p o) = some r) :
    r.Completes (.qresume p o) := by
  cases hr
  refine command_completes (fun _ => rfl) fun s hok => ?_
  simp only [Bool.and_eq_true, decide_eq_true_eq] at hok
  obtain ⟨⟨⟨hqueue, hhalted⟩, hvalid⟩, hahead⟩ := hok
  simp only [hqueue, hhalted, hvalid, Bool.not_true, Bool.false_eq_true, if_false, if_true, queueAt_resumed,
    if_neg (Nat.not_lt.mpr hahead)]

/-- The table, region and page commands are carried out as their rows say. -/
theorem tableCommand_completes {i : Instr} {r : EventRow} (hr : tableCommand i = some r) : r.Completes i := by
  cases i
  case setFaultq => exact setFaultq_completes hr
  case setTables => exact setTables_completes hr
  case setSluiceOvf => exact setSluiceOvf_completes hr
  case setRegion => exact setRegion_completes hr
  case pageRec => exact pageRec_completes hr
  case scrub => exact scrub_completes hr
  case qresume => exact qresume_completes hr
  all_goals simp only [tableCommand, reduceCtorEq] at hr

end Sys2Proof.Machine

open Sys2Proof Sys2Proof.Machine

/-- Settles O28: each command's checks let it through where its row's precondition holds. -/
theorem tableCommandsComplete : Obligations.TableCommandsComplete := fun _ _ => tableCommand_completes
end

/-! ## The dispatcher (O24) -/

section
namespace Sys2Proof.Machine

/-! ### Notifies and the pending map -/

/-- A notify that finds its queue valid and running, and does not overrun its ring, is served (R300). -/
theorem State.notifyQueue_served {s : State} {q p prod : Nat} (hp : s.queuePart q = some p)
    (hvalid : (s.queueDesc p q).valid = true) (hrunning : (s.queueAt q).halted = false)
    (hroom : ahead 32 (prod % 2 ^ 32) (s.queueAt q).cons ≤ 2 ^ (s.queueDesc p q).log2n) :
    s.notifyQueue q prod = s.idleFrom ((s.modQueue q fun Q => { Q with prod := prod % 2 ^ 32 }).serveQueue p q) q := by
  simp only [State.notifyQueue, hp, hvalid, State.queueAt_modQueue, hrunning, Nat.not_lt.mpr hroom, Bool.not_true,
    Bool.false_eq_true, if_false]

theorem notify_completes {q prod : Nat} {r : EventRow} (hr : dispatchEvent (.notify q prod) = some r) :
    r.Completes (.notify q prod) := by
  cases hr
  refine EventRow.on_completes fun s p hp hok => ?_
  simp only [Bool.and_eq_true, Bool.not_eq_true', decide_eq_true_eq] at hok
  obtain ⟨⟨hvalid, hrunning⟩, hroom⟩ := hok
  exact congrArg go (State.notifyQueue_served hp hvalid hrunning hroom)

theorem pendingMap_completes {sl : Nat} {r : EventRow} (hr : dispatchEvent (.pendingMap sl) = some r) :
    r.Completes (.pendingMap sl) := by
  cases hr
  refine EventRow.on_completes fun s x hx _ => ?_
  refine congrArg go (?_ : s.pendingMap sl = _)
  obtain ⟨pP, hpart, hx⟩ := Option.bind_eq_some_iff.mp hx
  obtain ⟨q, hpending, rfl⟩ := Option.map_eq_some_iff.mp hx
  simp only [State.pendingMap, hpart, hpending]

/-! ### Records consumed -/

/-- What RECORD_CONSUME reads for a slot that holds a queue. -/
theorem State.recordConsume_slot {s : State} {src : Nat} {x : Nat × Nat} (hsrc : src < 256) (hx : s.slotQueue src = some x) :
    s.recordConsume src = s.consumeQueue x.2 x.1 := by
  obtain ⟨q, hq, hx⟩ := Option.bind_eq_some_iff.mp hx
  obtain ⟨pP, hpart, rfl⟩ := Option.map_eq_some_iff.mp hx
  simp only [State.recordConsume, hsrc, if_true, hq, hpart]

/-- A record of a running queue that passes the checks becomes the queue's last launch (R301, R302). -/
theorem State.consumeQueue_checked {s : State} {p q : Nat} {c : Checked} (hrunning : (s.queueAt q).halted = false)
    (hrecord : ((s.queueAt q).prod == (s.queueAt q).cons) = false) (hc : s.checkQueue p q = .ok c) :
    s.consumeQueue p q =
      let u := (s.ensureCtx p (s.queueDesc p q).ctx).modQueue q fun Q => { Q with cons := (Q.cons + 1) % 2 ^ 32 }
      { u.modQueue q fun Q => { Q with last := some s.nextLaunch } with
        launches := u.launches.put s.nextLaunch (mkLaunch s (some q) (s.queueAt q).cons p (s.queueDesc p q).ctx
          (s.nextRecord p q) c 1 (s.lastOf q) none)
        nextLaunch := s.nextLaunch + 1 } := by
  simp only [State.consumeQueue, hrunning, hrecord, Bool.or_self, Bool.false_eq_true, if_false, hc]

/-- The oldest record of a child queue, where it can be read and passes the checks, becomes its launch (R309). -/
theorem State.consumeChild_checked {s : State} {key : Nat} {c : Child} {P : Launch} {bs : List Byte} {y : Checked}
    (hx : s.nextChild key = some (c, P, bs))
    (hy : s.checkRecord P.part (childRecord P bs) P.record.owner P.mask = .ok y) :
    s.consumeChild key = { s with
      childQs := s.childQs.put key { s.childQ key with waiting := (s.childQ key).waiting.tail }
      launches := s.launches.put c.launch
        { mkLaunch s none 0 P.part P.ctx (childRecord P bs) y c.depth none (some (c.parent, c.block)) with
          startStopped := c.stopped } } := by
  obtain ⟨c', hhead, hx⟩ := Option.bind_eq_some_iff.mp hx
  obtain ⟨P', hP, hx⟩ := Option.bind_eq_some_iff.mp hx
  obtain ⟨bs', hbs, hx⟩ := Option.map_eq_some_iff.mp hx
  cases hx
  obtain ⟨cs, hwaiting⟩ := List.head?_eq_some_iff.mp hhead
  simp only [State.consumeChild, hwaiting, hP, hbs, Option.isNone_some, Bool.false_eq_true, if_false, Option.getD_some, hy,
    List.tail_cons]

theorem recordConsume_completes {src : Nat} {r : EventRow} (hr : dispatchEvent (.recordConsume src) = some r) :
    r.Completes (.recordConsume src) := by
  cases hr
  by_cases hsrc : src < 256
  · rw [if_pos hsrc]
    refine EventRow.on_completes fun s x hx hok => ?_
    refine congrArg go (?_ : s.recordConsume src = _)
    simp only [Bool.and_eq_true, Bool.not_eq_true', bne] at hok
    obtain ⟨⟨hrunning, hrecord⟩, hchecked⟩ := hok
    obtain ⟨c, hc⟩ := Option.isSome_iff_exists.mp hchecked
    rw [State.recordConsume_slot hsrc hx, State.consumeQueue_checked hrunning hrecord (toOption_some hc), hc, Option.elim_some]
  · rw [if_neg hsrc]
    refine EventRow.on_completes fun s x hx hchecked => ?_
    refine congrArg go (?_ : s.recordConsume src = _)
    obtain ⟨y, hy⟩ := Option.isSome_iff_exists.mp hchecked
    rw [State.recordConsume, if_neg hsrc, State.consumeChild_checked hx (toOption_some hy), hy, Option.elim_some]

/-! ### Readiness and priority -/

theorem launchReady_completes {l : Nat} {r : EventRow} (hr : dispatchEvent (.launchReady l) = some r) :
    r.Completes (.launchReady l) := by
  cases hr
  refine EventRow.on_completes fun s L hL hok => ?_
  refine congrArg go (?_ : s.launchReady l = _)
  rw [State.launchReady, hL]
  exact if_pos hok

theorem priorityAge_completes {l : Nat} {r : EventRow} (hr : dispatchEvent (.priorityAge l) = some r) :
    r.Completes (.priorityAge l) := by
  cases hr
  refine EventRow.on_completes fun s L hL hok => ?_
  refine congrArg go (?_ : s.priorityAge l = _)
  rw [State.priorityAge, hL]
  exact if_pos hok

/-! ### Placement and carve-outs -/

/-- The next block of the first placeable launch goes to its spot where no continuation or saved block could take the core
(R305, R306). -/
theorem State.blockPlacement_first {s : State} {i c : Nat} {l : Launch} {x : Spot} (hl : s.launches.find i = some l)
    (hspot : s.chooseCore l.mask l.need = some (c, x)) (hplaceable : s.placeable l = true) (hfirst : s.isFirst i l = true)
    (hcont : s.contWaits c = false) (hsaved : s.savedWaits c = false) :
    s.blockPlacement i =
      let u := s.placeBlock i l c x
      if (u.launches.find i).any fun l => !l.unplaced then u.unmark l.markedCore else u := by
  rw [State.isFirst, ← List.not_any_eq_all_not, Bool.not_eq_true'] at hfirst
  simp only [State.blockPlacement, hl, hplaceable, Bool.not_true, hfirst, Bool.or_self, Bool.false_eq_true, if_false, hspot,
    hcont, hsaved]
  cases (s.placeBlock i l c x).launches.find i with
  | none => rfl
  | some l1 => cases hmore : l1.unplaced <;> simp [hmore]

theorem blockPlacement_completes {i : Nat} {r : EventRow} (hr : dispatchEvent (.blockPlacement i) = some r) :
    r.Completes (.blockPlacement i) := by
  cases hr
  refine EventRow.on_completes fun s x hx hok => ?_
  obtain ⟨l, hl, hx⟩ := Option.bind_eq_some_iff.mp hx
  obtain ⟨cx, hspot, rfl⟩ := Option.map_eq_some_iff.mp hx
  simp only [Bool.and_eq_true, Bool.not_eq_true'] at hok
  obtain ⟨⟨⟨⟨hplaceable, hfirst⟩, hcont⟩, hsaved⟩, _⟩ := hok
  exact congrArg go (State.blockPlacement_first hl hspot hplaceable hfirst hcont hsaved)

theorem continuationPlacement_completes {i c : Nat} {r : EventRow}
    (hr : dispatchEvent (.continuationPlacement i c) = some r) : r.Completes (.continuationPlacement i c) := by
  cases hr
  refine EventRow.on_completes fun s y hy hok => ?_
  refine congrArg go (?_ : s.continuationPlacement i c = _)
  obtain ⟨l, hl, hy⟩ := Option.bind_eq_some_iff.mp hy
  obtain ⟨x, hspot, hy⟩ := Option.bind_eq_some_iff.mp hy
  obtain ⟨u, hslot, rfl⟩ := Option.map_eq_some_iff.mp hy
  simp only [Bool.and_eq_true, Bool.not_eq_true'] at hok
  obtain ⟨⟨hpool, hrestored⟩, hmask⟩ := hok
  simp only [State.continuationPlacement, hl, hpool, hrestored, hmask, Bool.not_true, Bool.or_self, Bool.false_eq_true,
    if_false, hspot, toOption_some hslot]

theorem carveChange_completes {c : Nat} {r : EventRow} (hr : dispatchEvent (.carveChange c) = some r) :
    r.Completes (.carveChange c) := by
  cases hr
  refine EventRow.on_completes fun s t ht hfits => ?_
  refine congrArg go (?_ : s.carveChange c = _)
  rw [State.mayCarve] at hfits
  simp only [State.carveChange, ht, hfits, Bool.not_true, Bool.false_eq_true, if_false]

/-! ### Completion -/

theorem blockComplete_completes {b : Nat} {r : EventRow} (hr : dispatchEvent (.blockComplete b) = some r) :
    r.Completes (.blockComplete b) := by
  cases hr
  refine EventRow.on_completes fun s B hB hok => ?_
  refine congrArg go (?_ : s.blockComplete b = _)
  simp only [Bool.and_eq_true, Bool.not_eq_true', decide_eq_true_eq] at hok
  obtain ⟨⟨⟨hresident, hquiet⟩, hpast⟩, hrecord⟩ := hok
  have hroom : ((s.releaseWindows b).childrenOut b && !(s.releaseWindows b).hasRecord b
      && decide ((s.releaseWindows b).retireRecords B.core ≥ 256)) = false := by
    rw [← Bool.not_eq_true', Bool.not_and, Bool.not_and, Bool.not_not, ← decide_not]
    simpa only [ge_iff_le, Nat.not_le] using hrecord
  simp only [State.blockComplete, hB, hresident, hquiet, Bool.not_true, Bool.or_self, Bool.false_eq_true, if_false,
    Nat.not_le.mpr hpast, hroom]
  cases (s.releaseWindows b).childrenOut b <;> rfl

theorem blockRetire_completes {b : Nat} {r : EventRow} (hr : dispatchEvent (.blockRetire b) = some r) :
    r.Completes (.blockRetire b) := by
  cases hr
  refine EventRow.on_completes fun s B hB hok => ?_
  refine congrArg go (?_ : s.blockRetire b = _)
  rw [State.blockRetire, hB]
  exact if_pos hok

theorem gridComplete_completes {i : Nat} {r : EventRow} (hr : dispatchEvent (.gridComplete i) = some r) :
    r.Completes (.gridComplete i) := by
  cases hr
  refine EventRow.on_completes fun s l hl hends => ?_
  refine congrArg go (?_ : s.gridComplete i = _)
  simp only [State.gridEnds, Bool.and_eq_true, Bool.not_eq_true', beq_iff_eq, decide_eq_true_eq] at hends
  obtain ⟨⟨⟨⟨⟨⟨⟨hready, hplaced⟩, hlive⟩, hpool⟩, hsaved⟩, hmonitors⟩, hchildren⟩, hpast⟩ := hends
  have hnoMonitor : s.monitors.any (fun m => m.carried.grid == i) = false := by
    rw [← Bool.not_eq_true', List.not_any_eq_all_not]
    exact hmonitors
  simp only [State.gridComplete, hl, Option.isNone_eq_false_iff.mpr hready, hplaced, hlive, bne_self_eq_false, hpool, Bool.not_true,
    hsaved, hnoMonitor, hchildren, Nat.not_le.mpr hpast, decide_false, Bool.or_self, Bool.false_eq_true, if_false]
  cases l.queue <;> rfl

/-- The dispatcher does its steps as their rows say. -/
theorem dispatchEvent_completes {i : Instr} {r : EventRow} (hr : dispatchEvent i = some r) : r.Completes i := by
  cases i
  case notify => exact notify_completes hr
  case pendingMap => exact pendingMap_completes hr
  case recordConsume => exact recordConsume_completes hr
  case launchReady => exact launchReady_completes hr
  case priorityAge => exact priorityAge_completes hr
  case blockPlacement => exact blockPlacement_completes hr
  case continuationPlacement => exact continuationPlacement_completes hr
  case carveChange => exact carveChange_completes hr
  case blockComplete => exact blockComplete_completes hr
  case blockRetire => exact blockRetire_completes hr
  case gridComplete => exact gridComplete_completes hr
  all_goals simp only [dispatchEvent, reduceCtorEq] at hr

end Sys2Proof.Machine

open Sys2Proof Sys2Proof.Machine

/-- Settles O24: the checks of each step let it through where its row's precondition holds. -/
theorem dispatcherStepsComplete : Obligations.DispatcherStepsComplete := fun _ _ => dispatchEvent_completes
end

/-! ## The doorbell aperture (O34) -/

section
namespace Sys2Proof.Machine

/-- An offset within the page of a partition that exists reaches that partition's doorbell page (R367). -/
theorem doorbellMove_page {s : State} {p off : Nat} (value : Nat) (hring : s.hasRing p = true) (hp : p < 16) (hoff : off < 65536) :
    doorbellMove (65536 * p + off) value s = pageDoorbell p off value s := by
  have hpage : (65536 * p + off) / 65536 = p := by omega
  have hrest : (65536 * p + off) % 65536 = off := by omega
  have hne : p ≠ mgmtRing := Nat.ne_of_lt hp
  simp only [doorbellMove, hpage, hrest, if_neg hne, hring, if_true]

/-- 8·q is the notify word of queue q (R297). -/
theorem pageDoorbell_notify {s : State} {p q : Nat} (value : Nat) (hq : q < 4096) (hqueue : (s.partAt p).hasQueue q = true) :
    pageDoorbell p (8 * q) value s = execNotify q (value % 2 ^ 32) s := by
  have hlow : 8 * q < 0x8000 := by omega
  have halign : 8 * q % 8 = 0 := by omega
  have hnum : 8 * q / 8 = q := by omega
  simp only [pageDoorbell, if_pos hlow, halign, hnum, hqueue, decide_true, Bool.and_self, if_true]

/-- 0x8000 + 16·c is PROD of brine channel c (R386). -/
theorem pageDoorbell_brineProd {c : Nat} (s : State) (p value : Nat) (hc : c < 64) :
    pageDoorbell p (0x8000 + 16 * c) value s = execBrineProdWrite p c (value % 2 ^ 32) s := by
  have hqueues : ¬ 0x8000 + 16 * c < 0x8000 := by omega
  have hbrine : 0x8000 + 16 * c < 0x8400 := by omega
  have halign : (0x8000 + 16 * c) % 16 = 0 := by omega
  have hnum : (0x8000 + 16 * c - 0x8000) / 16 = c := by omega
  simp only [pageDoorbell, if_neg hqueues, if_pos hbrine, halign, if_true, hnum]

/-- 8 bytes further, bit 0 asks channel c to leave DESYNC (R386). -/
theorem pageDoorbell_brineClear {c value : Nat} (s : State) (p : Nat) (hc : c < 64) (hbit : bit value 0 = true) :
    pageDoorbell p (0x8008 + 16 * c) value s = execBrineDesyncClear p c s := by
  have hqueues : ¬ 0x8008 + 16 * c < 0x8000 := by omega
  have hbrine : 0x8008 + 16 * c < 0x8400 := by omega
  have hword : (0x8008 + 16 * c) % 16 = 8 := by omega
  have hnum : (0x8008 + 16 * c - 0x8000) / 16 = c := by omega
  simp only [pageDoorbell, if_neg hqueues, if_pos hbrine, hword, hnum, hbit]
  rfl

/-- 0x8400 is PROD of the partition's control ring (R367). -/
theorem pageDoorbell_ctlProd {p : Nat} (s : State) (value : Nat) (hp : p < 16) :
    pageDoorbell p 0x8400 value s = .next (s.modPart p fun P => { P with ctlProd := value % 2 ^ 32 }) := by
  have hprod : s.ringProd p (value % 2 ^ 32) = s.modPart p fun P => { P with ctlProd := value % 2 ^ 32 } := by
    simp only [State.ringProd, if_neg (Nat.ne_of_lt hp : p ≠ mgmtRing), Nat.mod_mod]
  exact congrArg go hprod

/-- 0x8600 is CONS of the fault queue (R318). -/
theorem pageDoorbell_faultqCons (s : State) (p value : Nat) :
    pageDoorbell p 0x8600 value s = execFaultqConsWrite p (value % 2 ^ 32) s := rfl

/-- 0x8800 attaches where [63:62] is 1 (R396). -/
theorem pageDoorbell_attach {value : Nat} (s : State) (p : Nat) (hop : field value 62 2 = 1) :
    pageDoorbell p 0x8800 value s = execAttach p (value % 2 ^ 48) s := by
  simp only [pageDoorbell, hop]
  rfl

/-- 0x8800 detaches where [63:62] is 2 (R396). -/
theorem pageDoorbell_detach {value : Nat} (s : State) (p : Nat) (hop : field value 62 2 = 2) :
    pageDoorbell p 0x8800 value s = execDetach p s := by
  simp only [pageDoorbell, hop]
  rfl

/-- 0x8400 of page 16 is PROD of the management ring (R367). -/
theorem doorbellMove_mgmtProd (s : State) (value : Nat) :
    doorbellMove (65536 * 16 + 0x8400) value s = .next (s.modPkg fun g => { g with mgmtProd := value % 2 ^ 32 }) := by
  have hprod : s.ringProd mgmtRing (value % 2 ^ 32) = s.modPkg fun g => { g with mgmtProd := value % 2 ^ 32 } := by
    simp only [State.ringProd, if_true, Nat.mod_mod]
  exact congrArg go hprod

end Sys2Proof.Machine

open Sys2Proof Sys2Proof.Machine

/-- Settles O34: the page is the partition's own, and each offset of it falls to its register. -/
theorem doorbellWordsReachTheirRegisters : Obligations.DoorbellWordsReachTheirRegisters := by
  intro s p value hring hp
  have page {off : Nat} (hoff : off < 65536) := doorbellMove_page value hring hp hoff
  refine ⟨fun q hq hqueue => ?_, fun c hc => ⟨?_, fun hbit => ?_⟩, ?_, ?_, fun hop => ?_, fun hop => ?_, ?_⟩
  · exact (page (by omega)).trans (pageDoorbell_notify value hq hqueue)
  · rw [Nat.add_assoc]
    exact (page (by omega)).trans (pageDoorbell_brineProd s p value hc)
  · rw [Nat.add_assoc]
    exact (page (by omega)).trans (pageDoorbell_brineClear s p hc hbit)
  · exact (page (by decide)).trans (pageDoorbell_ctlProd s value hp)
  · exact (page (by decide)).trans (pageDoorbell_faultqCons s p value)
  · exact (page (by decide)).trans (pageDoorbell_attach s p hop)
  · exact (page (by decide)).trans (pageDoorbell_detach s p hop)
  · exact doorbellMove_mgmtProd s value
end

/-! ## The context engine (O25) -/

section
namespace Sys2Proof.Machine

/-! ### The fault queue and the retired-instruction timer -/

theorem faultRecordPost_completes {p : Nat} {r : EventRow} (hr : contextEvent (.faultRecordPost p) = some r) :
    r.Completes (.faultRecordPost p) := by
  cases hr
  refine EventRow.on_completes fun s rec hhead hroom => congrArg go (?_ : s.postHeld p = _)
  obtain ⟨rest, hheld⟩ := List.head?_eq_some_iff.mp hhead
  simp only [State.postHeld, hheld, hroom, if_true, List.tail_cons]

/-- An update of a partition that exists turns on what it makes of that partition alone. -/
theorem State.modPart_congr {s : State} {p : Nat} {P : Part} {f g : Part → Part} (hp : s.parts.find p = some P) (hfg : f P = g P) :
    s.modPart p f = s.modPart p g := by
  simp only [State.modPart, Tbl.change, hp, hfg]

theorem faultqConsWrite_completes {p v : Nat} {r : EventRow} (hr : contextEvent (.faultqConsWrite p v) = some r) :
    r.Completes (.faultqConsWrite p v) := by
  cases hr
  refine EventRow.on_completes fun s q hq hahead => congrArg go (State.modPart_congr hq ?_)
  exact if_pos (of_decide_eq_true hahead)

theorem retiredTimerExpire_completes {c x : Nat} {r : EventRow} (hr : contextEvent (.retiredTimerExpire c x) = some r) :
    r.Completes (.retiredTimerExpire c x) := by
  cases hr
  refine EventRow.on_completes fun s t ht hdue => congrArg go (?_ : s.timerExpire c x = _)
  rw [State.timerExpire, ht]
  exact if_pos (by simpa using hdue)

/-! ### Acknowledgements and frames -/

/-- An acknowledgement that is missing and ready, of a core that is not frozen, has its effect and is counted (R323, R325). -/
theorem State.engineAck_ready {s u : State} {c x cls : Nat} (hmissing : s.missingAck c x cls = true)
    (hrunning : (s.coreAt c).frozen = none) (hready : s.ackReady c x cls = true) (hu : s.ackEffect c x cls = .ok u) :
    s.engineAck c x cls = u.modCtx x fun C =>
      { C with preemption := C.preemption.map fun q => { q with missing := q.missing.filter (· != (c, cls)) } } := by
  rw [State.engineAck, hmissing, hrunning, hready, hu]
  rfl

theorem engineAck_completes {c x cls : Nat} {r : EventRow} (hr : contextEvent (.engineAck c x cls) = some r) :
    r.Completes (.engineAck c x cls) := by
  cases hr
  refine EventRow.on_completes fun s u hu hok => congrArg go (?_ : s.engineAck c x cls = _)
  obtain ⟨hok, hready⟩ := Bool.and_eq_true_iff.mp hok
  obtain ⟨hmissing, hrunning⟩ := Bool.and_eq_true_iff.mp hok
  exact State.engineAck_ready hmissing (Option.isNone_iff_eq_none.mp hrunning) hready (toOption_some hu)

theorem State.nextBytes_some {s : State} {c x : Nat} {q : Preemption} {b : Nat × List Byte} (h : s.nextRecordOf c x q = some b) :
    s.nextBytes c x q = b := by rw [State.nextBytes, h, Option.getD_some]

theorem State.nextBytes_none {s : State} {c x : Nat} {q : Preemption} (h : s.nextRecordOf c x q = none) :
    (s.nextBytes c x q).1 = 0x20 ∧ (s.nextBytes c x q).2 = frameDone x := by
  rw [State.nextBytes, h, Option.getD_none]
  exact ⟨rfl, rfl⟩

/-- The writing of a frame that is open: its next bytes, or the fault that they meet (R332, R333). -/
theorem State.frameWrite_open {s : State} {c x : Nat} {q : Preemption} (hq : (s.ctxAt x).preemption = some q)
    (hopen : s.frameOpen c x q = true) :
    s.frameWrite c x =
      match s.ipaFault (s.ctxAt x).part (frameAt x c + (s.nextBytes c x q).1) (s.nextBytes c x q).2.length .store with
      | some e => s.stallArea 10 c x e
      | none => s.frameWritten c x q := by
  rw [State.frameWrite]
  simp only [hq, hopen, Bool.not_true, Bool.false_eq_true, if_false]
  rw [State.frameWritten]
  cases hnext : s.nextRecordOf c x q with
  | some b =>
    rw [State.nextBytes_some hnext]
    dsimp only
    rw [State.frameBytes]
    cases s.ipaFault (s.ctxAt x).part (frameAt x c + b.1) b.2.length .store with
    | some e => rfl
    | none => exact (if_pos Option.isSome_some).symm
  | none =>
    obtain ⟨hoff, hdone⟩ := State.nextBytes_none hnext
    rw [hoff, hdone]
    dsimp only
    rw [State.frameBytes]
    cases s.ipaFault (s.ctxAt x).part (frameAt x c + 0x20) (frameDone x).length .store with
    | some e => rfl
    | none => exact (if_neg Bool.false_ne_true).symm

theorem frameWrite_completes {c x : Nat} {r : EventRow} (hr : contextEvent (.frameWrite c x) = some r) :
    r.Completes (.frameWrite c x) := by
  cases hr
  exact EventRow.on_completes fun s q hq hopen => congrArg go (State.frameWrite_open hq hopen)

/-! ### The collector (R327) -/

/-- A context in pre-emption has its entry, and in it the pre-emption. -/
theorem State.inPreempt_eq_some {s : State} {x : Nat} {q : Ctx × Preemption} (h : s.inPreempt x = some q) :
    s.ctxs.find x = some q.1 ∧ q.1.preemption = some q.2 := by
  obtain ⟨C, hC, hq⟩ := Option.bind_eq_some_iff.mp h
  obtain ⟨q', hq', rfl⟩ := Option.map_eq_some_iff.mp hq
  exact ⟨hC, hq'⟩

theorem preemptDone_completes {x : Nat} {r : EventRow} (hr : contextEvent (.preemptDone x) = some r) :
    r.Completes (.preemptDone x) := by
  cases hr
  refine EventRow.on_completes fun s q hq hfinished => congrArg go (?_ : s.preemptDone x = _)
  obtain ⟨hC, hpre⟩ := State.inPreempt_eq_some hq
  obtain ⟨hacked, hwritten⟩ := Bool.and_eq_true_iff.mp hfinished
  simp only [State.preemptDone, hC, hpre, hacked, hwritten, Bool.not_true, Bool.or_self, Bool.false_eq_true, if_false]

theorem preemptLate_completes {x : Nat} {r : EventRow} (hr : contextEvent (.preemptLate x) = some r) :
    r.Completes (.preemptLate x) := by
  cases hr
  refine EventRow.on_completes fun s q hq hok => congrArg go (?_ : s.preemptLate x = _)
  obtain ⟨hC, hpre⟩ := State.inPreempt_eq_some hq
  simp only [Bool.and_eq_true, Bool.not_eq_true', decide_eq_true_eq, bne_iff_ne] at hok
  obtain ⟨⟨hfirst, hdue⟩, hmask⟩ := hok
  simp only [State.preemptLate, hC, hpre, hfirst, Nat.not_lt.mpr hdue, hmask, decide_false, Bool.or_self, Bool.false_eq_true,
    if_false]

/-! ### Restores (R334) -/

/-- A context that may be restored restores the next saved block of its frame for a core. -/
theorem State.contextRestore_next {s : State} {x c : Nat} {y : Frame × Nat × Block} (hy : s.nextSaved x c = some y)
    (hidle : (s.ctxAt x).preemption.isNone = true) (helig : (s.ctxAt x).suspended = some .eligible) :
    s.contextRestore x c = s.restoreNext x c y.1 y.2.1 y.2.2 := by
  obtain ⟨f, hf, hy⟩ := Option.bind_eq_some_iff.mp hy
  obtain ⟨b, hb, rfl⟩ := Option.map_eq_some_iff.mp hy
  obtain ⟨bs, hblocks⟩ := List.head?_eq_some_iff.mp hb
  simp only [State.contextRestore, Option.isSome_eq_false_iff.mpr hidle, helig, ne_eq, not_true_eq_false, decide_false,
    Bool.or_self, Bool.false_eq_true, if_false, hf, hblocks]

theorem contextRestore_completes {x c : Nat} {r : EventRow} (hr : contextEvent (.contextRestore x c) = some r) :
    r.Completes (.contextRestore x c) := by
  cases hr
  refine EventRow.on_completes fun s y hy hok => congrArg go (?_ : s.contextRestore x c = _)
  simp only [Bool.and_eq_true, beq_iff_eq] at hok
  obtain ⟨⟨hidle, helig⟩, hplace⟩ := hok
  rw [State.contextRestore_next hy hidle helig, restoreNext_eq]
  cases hret : y.2.2.retired with
  | true => exact .inl rfl
  | false => exact .inr (by simpa only [hret, Bool.false_eq_true, if_false] using hplace)

/-- The context engine does its steps as their rows say. -/
theorem contextEvent_completes {i : Instr} {r : EventRow} (hr : contextEvent i = some r) : r.Completes i := by
  cases i
  case faultRecordPost => exact faultRecordPost_completes hr
  case faultqConsWrite => exact faultqConsWrite_completes hr
  case retiredTimerExpire => exact retiredTimerExpire_completes hr
  case engineAck => exact engineAck_completes hr
  case frameWrite => exact frameWrite_completes hr
  case preemptDone => exact preemptDone_completes hr
  case preemptLate => exact preemptLate_completes hr
  case contextRestore => exact contextRestore_completes hr
  all_goals simp only [contextEvent, reduceCtorEq] at hr

end Sys2Proof.Machine

open Sys2Proof Sys2Proof.Machine

/-- Settles O25: the checks of each step let it through where its row's precondition holds; the writing of a frame by its two outcomes. -/
theorem contextEngineStepsComplete : Obligations.ContextEngineStepsComplete := fun _ _ => contextEvent_completes
end

/-! ## Context commands (O26) -/

section
namespace Sys2Proof.Machine

theorem preempt_completes {p : Nat} {o : CmdOps} {r : EventRow} (hr : contextCommand (.preempt p o) = some r) :
    r.Completes (.preempt p o) := by
  cases hr
  refine command_completes (fun _ => rfl) fun s howns => ?_
  simp only [howns, Bool.not_true, Bool.false_eq_true, if_false, State.cmdPreempt, beq_iff_eq]

theorem restore_completes {p : Nat} {o : CmdOps} {r : EventRow} (hr : contextCommand (.restore p o) = some r) :
    r.Completes (.restore p o) := by
  cases hr
  exact command_completes (fun _ => rfl) fun s howns => if_neg (by simp [howns])

theorem replay_completes {p : Nat} {o : CmdOps} {r : EventRow} (hr : contextCommand (.replay p o) = some r) :
    r.Completes (.replay p o) := by
  cases hr
  exact command_completes (fun _ => rfl) fun _ _ => rfl

theorem abort_completes {p : Nat} {o : CmdOps} {r : EventRow} (hr : contextCommand (.abort p o) = some r) :
    r.Completes (.abort p o) := by
  cases hr
  exact command_completes (fun _ => rfl) fun s howns => if_neg (by simp [howns])

theorem ptimer_completes {p : Nat} {o : CmdOps} {r : EventRow} (hr : contextCommand (.ptimer p o) = some r) :
    r.Completes (.ptimer p o) := by
  cases hr
  refine command_completes (fun _ => rfl) fun s hok => if_neg ?_
  simp only [Bool.and_eq_true, beq_iff_eq] at hok
  obtain ⟨howns, hcore⟩ := hok
  simp [howns, hcore]

/-- The five context commands are carried out as their rows say. -/
theorem contextCommand_completes {i : Instr} {r : EventRow} (hr : contextCommand i = some r) : r.Completes i := by
  cases i
  case preempt => exact preempt_completes hr
  case restore => exact restore_completes hr
  case replay => exact replay_completes hr
  case abort => exact abort_completes hr
  case ptimer => exact ptimer_completes hr
  all_goals simp only [contextCommand, reduceCtorEq] at hr

end Sys2Proof.Machine

open Sys2Proof Sys2Proof.Machine

/-- Settles O26: a context of the partition, and for PTIMER a core of it, pass each command's checks. -/
theorem contextCommandsComplete : Obligations.ContextCommandsComplete := fun _ _ => contextCommand_completes
end

/-! ## Keys and attestation (O29) -/

section
namespace Sys2Proof.Machine

/-- A command of a partition that exists, its reserved operand bits 0, is answered with the STATUS of its body. -/
theorem runCmd_answered {s t : State} {p st : Nat} {o : CmdOps} {masks : List Nat} {body : State → CmdEnd}
    (hring : (decide (p < 16) && (s.parts.find p).isSome) = true) (hfits : o.fits masks = true) (hbody : body s = (t, some st)) :
    runCmd p o masks body s = t.answer p st := by
  simp only [runCmd, hring, hfits, hbody, Bool.not_true, Bool.false_eq_true, if_false]

/-- So is one that has to wait left as its body leaves it. -/
theorem runCmd_waits {s t : State} {p : Nat} {o : CmdOps} {masks : List Nat} {body : State → CmdEnd}
    (hring : (decide (p < 16) && (s.parts.find p).isSome) = true) (hfits : o.fits masks = true) (hbody : body s = (t, none)) :
    runCmd p o masks body s = t := by
  simp only [runCmd, hring, hfits, hbody, Bool.not_true, Bool.false_eq_true, if_false]

theorem keygen_completes {p : Nat} {o : CmdOps} {r : EventRow} (hr : keyCommand (.keygen p o) = some r) : r.Completes (.keygen p o) := by
  cases hr
  refine command_completes (fun _ => rfl) fun s hok => ?_
  simp only [Bool.and_eq_true, Bool.not_eq_true'] at hok
  obtain ⟨⟨hfits, hallowed⟩, hidle⟩ := hok
  simp only [hfits, hallowed, hidle, Bool.not_true, Bool.false_eq_true, if_false]

/-- A KEYLOAD that its checks let through: its blob fails the unwrap check, or its key is set (R381). -/
theorem keyload_completes {p : Nat} {o : CmdOps} {r : EventRow} (hr : keyCommand (.keyload p o) = some r) :
    r.Completes (.keyload p o) := by
  cases hr
  intro s hok
  simp only [Bool.and_eq_true, Bool.not_eq_true', beq_iff_eq] at hok
  obtain ⟨⟨⟨⟨⟨⟨hring, hmasks⟩, hfits⟩, haligned⟩, hallowed⟩, hreach⟩, hidle⟩ := hok
  refine congrArg go (?_ : keyloadOp p o s = _)
  dsimp only
  cases hkey : s.unwrapped p o with
  | none =>
    refine runCmd_answered (Bool.and_eq_true_iff.mpr hring) hmasks ?_
    simp only [hfits, haligned, hallowed, hreach, hkey, Bool.not_true, ne_eq, not_true_eq_false, decide_false, Bool.or_self,
      Bool.false_eq_true, if_false]
  | some k =>
    refine runCmd_answered (Bool.and_eq_true_iff.mpr hring) hmasks ?_
    simp only [hfits, haligned, hallowed, hreach, hkey, hidle, Bool.not_true, ne_eq, not_true_eq_false, decide_false,
      Bool.or_self, Bool.false_eq_true, if_false]

theorem keydrop_completes {p : Nat} {o : CmdOps} {r : EventRow} (hr : keyCommand (.keydrop p o) = some r) :
    r.Completes (.keydrop p o) := by
  cases hr
  refine command_completes (fun _ => rfl) fun s hok => ?_
  simp only [Bool.and_eq_true, Bool.not_eq_true'] at hok
  obtain ⟨⟨hfits, hallowed⟩, hidle⟩ := hok
  simp only [hfits, hallowed, hidle, Bool.not_true, Bool.false_eq_true, if_false]
  by_cases hchannel : o.f 0 15 1 = 1
  · simp only [CmdOps.keyTarget, hchannel, if_true]
  · simp only [CmdOps.keyTarget, hchannel, if_false]

theorem attest_completes {p : Nat} {o : CmdOps} {r : EventRow} (hr : keyCommand (.attest p o) = some r) : r.Completes (.attest p o) := by
  cases hr
  refine command_completes (fun _ => rfl) fun s hok => ?_
  simp only [Bool.and_eq_true, beq_iff_eq] at hok
  obtain ⟨⟨⟨hnonce, hreport⟩, hread⟩, hwrite⟩ := hok
  simp only [hnonce, hreport, hread, hwrite, ne_eq, not_true_eq_false, decide_false, Bool.not_true, Bool.or_self,
    Bool.false_eq_true, if_false]

/-- An IDCERT whose chain fits is written, or denied where it does not reach its buffer; one whose chain does not fit is BADARG. -/
theorem idcert_completes {p : Nat} {o : CmdOps} {r : EventRow} (hr : keyCommand (.idcert p o) = some r) : r.Completes (.idcert p o) := by
  cases hr
  intro s hok
  simp only [Bool.and_eq_true, beq_iff_eq] at hok
  obtain ⟨⟨hring, hmasks⟩, haligned⟩ := hok
  refine congrArg go (?_ : idcertOp p o s = _)
  dsimp only
  by_cases hshort : o.f 1 0 32 < Config.identityChain.length
  · rw [if_pos hshort]
    exact runCmd_answered (Bool.and_eq_true_iff.mpr hring) hmasks (if_pos (by simp [hshort]))
  · rw [if_neg hshort]
    cases hreach : s.reachesBytes p (o.f 0 0 48) Config.identityChain.length with
    | true =>
      refine runCmd_answered (Bool.and_eq_true_iff.mpr hring) hmasks ?_
      simp only [haligned, hshort, hreach, ne_eq, not_true_eq_false, decide_false, Bool.or_self, Bool.not_true,
        Bool.false_eq_true, if_false]
    | false =>
      refine runCmd_answered (Bool.and_eq_true_iff.mpr hring) hmasks ?_
      simp only [haligned, hshort, hreach, ne_eq, not_true_eq_false, decide_false, Bool.or_self, Bool.not_false,
        Bool.false_eq_true, if_false, if_true]

/-- The five key and attestation commands are carried out as their rows say. -/
theorem keyCommand_completes {i : Instr} {r : EventRow} (hr : keyCommand i = some r) : r.Completes i := by
  cases i
  case keygen => exact keygen_completes hr
  case keyload => exact keyload_completes hr
  case keydrop => exact keydrop_completes hr
  case attest => exact attest_completes hr
  case idcert => exact idcert_completes hr
  all_goals simp only [keyCommand, reduceCtorEq] at hr

end Sys2Proof.Machine

open Sys2Proof Sys2Proof.Machine

/-- Settles O29: each command's checks let it through where its row's precondition holds, KEYLOAD and IDCERT by their outcomes. -/
theorem keyCommandsComplete : Obligations.KeyCommandsComplete := fun _ _ => keyCommand_completes
end

/-! ## Brine channels (O30) -/

section
namespace Sys2Proof.Machine

/-! ### Opening, closing and the host's writes -/

theorem brineSet_completes {p : Nat} {o : CmdOps} {r : EventRow} (hr : brineEvent (.brineSet p o) = some r) :
    r.Completes (.brineSet p o) := by
  cases hr
  refine command_completes (fun _ => rfl) fun s hok => ?_
  simp only [Bool.and_eq_true, beq_iff_eq, Bool.not_eq_true'] at hok
  obtain ⟨⟨⟨haligned, hreach⟩, hclosed⟩, hdesc⟩ := hok
  simp only [haligned, hreach, hclosed, hdesc, ne_eq, not_true_eq_false, Bool.not_true, Bool.false_eq_true, if_false]

theorem brineClose_completes {p : Nat} {o : CmdOps} {r : EventRow} (hr : brineEvent (.brineClose p o) = some r) :
    r.Completes (.brineClose p o) := by
  cases hr
  refine command_completes (fun _ => rfl) fun s hok => ?_
  obtain ⟨hidle, hopened⟩ := Bool.and_eq_true_iff.mp hok
  simp only [hopened, Option.isSome_eq_false_iff.mpr hidle, Bool.false_eq_true, if_true, if_false]

theorem brineProdWrite_completes {p ch v : Nat} {r : EventRow} (hr : brineEvent (.brineProdWrite p ch v) = some r) :
    r.Completes (.brineProdWrite p ch v) := by
  cases hr
  exact fun _ _ => rfl

theorem brineDesyncClear_completes {p ch : Nat} {r : EventRow} (hr : brineEvent (.brineDesyncClear p ch) = some r) :
    r.Completes (.brineDesyncClear p ch) := by
  cases hr
  exact fun _ hok => congrArg go (if_pos hok)

/-! ### A slot to the host (R389) -/

/-- The source of a send is read and its slot sealed, or the send fails at a check. -/
theorem State.brineSeal_eq {s : State} {p : Nat} {o : CmdOps} :
    s.brineSeal p (o.f 0 0 6) (o.f 1 0 16) (o.f 2 0 48) (o.f 3 0 32) ((s.partAt p).channel (o.f 0 0 6))
      = if ((s.partAt p).channel (o.f 0 0 6)).key.isEmpty then none else (s.sendPieces p o).map (s.sealed p o) := by
  rw [State.brineSeal, State.sendPieces, Option.map_bind]
  rfl

/-- The end of a send whose request the host has answered in time. -/
theorem State.brineSent_inTime {s : State} {p ch : Nat} {b : Brine} {r : FarReq} {hd c : List Byte} (ht : timedOut s.time r.sentAt = false) :
    s.brineSent p ch b r hd c = ((s.storeBytes (b.payload b.cons) c).storeBytes (b.header b.cons) hd).brineFinish p ch := by
  simp only [State.brineSent, ht, Bool.false_eq_true, if_false]

theorem State.brineSent_late {s : State} {p ch : Nat} {b : Brine} {r : FarReq} {hd c : List Byte} (ht : timedOut s.time r.sentAt = true) :
    s.brineSent p ch b r hd c = none := if_pos ht

/-- A BRINE_SEND whose slot the host has been sent ends with it: as a whole, or in DESYNC. -/
theorem brineSendOp_sent {s : State} {p ow : Nat} {o : CmdOps} {far : FarReq} {hd c : List Byte}
    (hring : (decide (p < 16) && (s.parts.find p).isSome) = true)
    (hmasks : o.fits [fieldMask 0 6, fieldMask 0 16, mAddr, fieldMask 0 32] = true)
    (hbusy : ((s.partAt p).channel (o.f 0 0 6)).busy = some (.send ow far hd c)) :
    brineSendOp p o s = if timedOut s.time far.sentAt then s.sendFails p o else s.sendEnds p o hd c := by
  cases ht : timedOut s.time far.sentAt with
  | true => exact runCmd_answered hring hmasks (by simp only [hbusy, State.brineSent_late ht])
  | false =>
    rw [if_neg Bool.false_ne_true, State.sendEnds]
    cases hend : State.brineFinish _ p (o.f 0 0 6) with
    | none => exact runCmd_answered hring hmasks (by simp only [hbusy, State.brineSent_inTime ht, hend])
    | some x => exact runCmd_answered hring hmasks (by simp only [hbusy, State.brineSent_inTime ht, hend])

/-- A BRINE_SEND of an open channel with room seals its slot and waits for the host, or fails into DESYNC. -/
theorem brineSendOp_sealed {s : State} {p : Nat} {o : CmdOps}
    (hring : (decide (p < 16) && (s.parts.find p).isSome) = true)
    (hmasks : o.fits [fieldMask 0 6, fieldMask 0 16, mAddr, fieldMask 0 32] = true)
    (hidle : ((s.partAt p).channel (o.f 0 0 6)).busy.any BrineStage.sends = false)
    (hlo : 1 ≤ o.f 3 0 32) (hhi : o.f 3 0 32 ≤ 4096) (hopened : ((s.partAt p).channel (o.f 0 0 6)).opened = true)
    (hhost : ((s.partAt p).channel (o.f 0 0 6)).toHost = true) (hsync : ((s.partAt p).channel (o.f 0 0 6)).desync = false)
    (hroom : ahead 32 ((s.partAt p).channel (o.f 0 0 6)).cons ((s.partAt p).channel (o.f 0 0 6)).prod
      < 2 ^ ((s.partAt p).channel (o.f 0 0 6)).log2n) :
    brineSendOp p o s = (s.brineSeal p (o.f 0 0 6) (o.f 1 0 16) (o.f 2 0 48) (o.f 3 0 32) ((s.partAt p).channel (o.f 0 0 6))).elim
      (s.sendFails p o) id := by
  cases hseal : s.brineSeal p (o.f 0 0 6) (o.f 1 0 16) (o.f 2 0 48) (o.f 3 0 32) ((s.partAt p).channel (o.f 0 0 6)) with
  | none =>
    refine runCmd_answered hring hmasks ?_
    dsimp only
    split
    next ow far hd c hbusy => simp [hbusy, BrineStage.sends] at hidle
    next =>
      rw [if_neg (by simp [Nat.one_le_iff_ne_zero.mp hlo, Nat.not_lt.mpr hhi, hopened, hhost]), if_neg (by simp [hsync, hroom]), hseal]
  | some u =>
    refine runCmd_waits hring hmasks ?_
    dsimp only
    split
    next ow far hd c hbusy => simp [hbusy, BrineStage.sends] at hidle
    next =>
      rw [if_neg (by simp [Nat.one_le_iff_ne_zero.mp hlo, Nat.not_lt.mpr hhi, hopened, hhost]), if_neg (by simp [hsync, hroom]), hseal]
      rfl

theorem brineSend_completes {p : Nat} {o : CmdOps} {r : EventRow} (hr : brineEvent (.brineSend p o) = some r) :
    r.Completes (.brineSend p o) := by
  cases hr
  intro s hok
  simp only [Bool.and_eq_true, Bool.or_eq_true, Bool.not_eq_true', decide_eq_true_eq] at hok
  obtain ⟨⟨⟨hpart, hthere⟩, hmasks⟩, hstage⟩ := hok
  have hring : (decide (p < 16) && (s.parts.find p).isSome) = true := by rw [decide_eq_true hpart, hthere]; rfl
  refine congrArg go (?_ : brineSendOp p o s = _)
  dsimp only
  split
  next ow far hd c hbusy => exact brineSendOp_sent hring hmasks hbusy
  next hother =>
    have hidle : ((s.partAt p).channel (o.f 0 0 6)).busy.any BrineStage.sends = false := by
      cases hbusy : ((s.partAt p).channel (o.f 0 0 6)).busy with
      | none => rfl
      | some st =>
        cases st with
        | send ow far hd c => exact absurd hbusy (hother ow far hd c)
        | fetch | write | publish => rfl
    obtain ⟨⟨⟨⟨⟨hlo, hhi⟩, hopened⟩, hhost⟩, hsync⟩, hroom⟩ := hstage.resolve_left (by simp [hidle])
    rw [brineSendOp_sealed hring hmasks hidle hlo hhi hopened hhost hsync hroom, State.brineSeal_eq]
    split
    · rfl
    · rw [Option.elim_map, Function.id_comp]

/-! ### A slot from the host (R387) -/

/-- The next step of a slot in progress, by its stage: the host's answer, a part written, or the end of the slot once T exceeds
every GWCT. -/
theorem State.brineNext_eq {s : State} {p ch : Nat} {st : BrineStage} (hpast : ∀ ow g, st = .write ow [] g → g < s.time) :
    s.brineNext p ch ((s.partAt p).channel ch) st = s.slotNext p ch (some st) := by
  cases st with
  | fetch far =>
    simp only [State.brineNext, State.slotNext]
    split
    · rfl
    · cases s.brineOpen p ch ((s.partAt p).channel ch).cons ((s.partAt p).channel ch) <;> rfl
  | write ow todo g =>
    cases todo with
    | nil => exact if_neg (Nat.not_le.mpr (hpast ow g rfl))
    | cons x todo => rfl
  | publish ow far =>
    simp only [State.brineNext, State.slotNext]
    split
    · rfl
    · cases s.brineFinish p ch <;> rfl
  | send ow far hd c => rfl

theorem brineSlotFinish_completes {p ch : Nat} {r : EventRow} (hr : brineEvent (.brineSlotFinish p ch) = some r) :
    r.Completes (.brineSlotFinish p ch) := by
  cases hr
  intro s hok
  refine congrArg go (?_ : s.brineSlot p ch = s.slotNext p ch ((s.partAt p).channel ch).busy)
  rw [State.brineSlot]
  cases hbusy : ((s.partAt p).channel ch).busy with
  | none =>
    simp only [hbusy, Bool.and_eq_true, Bool.not_eq_true', bne] at hok
    obtain ⟨⟨⟨hopened, hdevice⟩, hsync⟩, hahead⟩ := hok
    exact if_neg (by simp only [hopened, hdevice, hsync, hahead, Bool.not_true, Bool.or_self, Bool.false_eq_true, not_false_eq_true])
  | some st =>
    refine State.brineNext_eq fun ow g hst => ?_
    simpa only [hbusy, hst, decide_eq_true_eq] using hok

/-- The steps of brine channels are done as their rows say. -/
theorem brineEvent_completes {i : Instr} {r : EventRow} (hr : brineEvent i = some r) : r.Completes i := by
  cases i
  case brineSet => exact brineSet_completes hr
  case brineClose => exact brineClose_completes hr
  case brineSend => exact brineSend_completes hr
  case brineProdWrite => exact brineProdWrite_completes hr
  case brineSlotFinish => exact brineSlotFinish_completes hr
  case brineDesyncClear => exact brineDesyncClear_completes hr
  all_goals simp only [brineEvent, reduceCtorEq] at hr

end Sys2Proof.Machine

open Sys2Proof Sys2Proof.Machine

/-- Settles O30: each step's checks let it through where its row's precondition holds, a slot in progress by its stage. -/
theorem brineStepsComplete : Obligations.BrineStepsComplete := fun _ _ => brineEvent_completes
end

/-! ## The package (O31) -/

section
namespace Sys2Proof.Machine

/-! ### Partitions and cores -/

theorem partCreate_completes {p : Nat} {o : CmdOps} {r : EventRow} (hr : packageEvent (.partCreate p o) = some r) :
    r.Completes (.partCreate p o) := by
  cases hr
  refine manage_completes (fun _ => rfl) fun s hok => ?_
  simp only [Bool.and_eq_true, beq_iff_eq] at hok
  obtain ⟨⟨⟨⟨haligned, hread⟩, hfree⟩, hreserved⟩, hfields⟩ := hok
  simp only [haligned, hread, Option.isSome_eq_false_iff.mpr hfree, hreserved, hfields, ne_eq, not_true_eq_false, decide_false,
    Bool.not_true, Bool.or_self, Bool.false_eq_true, if_false]

theorem partDestroy_completes {p : Nat} {o : CmdOps} {r : EventRow} (hr : packageEvent (.partDestroy p o) = some r) :
    r.Completes (.partDestroy p o) := by
  cases hr
  refine manage_completes (fun _ => rfl) fun s hthere => ?_
  simp only [Option.isNone_eq_false_iff.mpr hthere, Bool.false_eq_true, if_false, State.destroyed]
  split
  · rename_i h; rw [h]; rfl
  · rename_i h; rw [h]; rfl
theorem coreAssign_completes {p : Nat} {o : CmdOps} {r : EventRow} (hr : packageEvent (.coreAssign p o) = some r) :
    r.Completes (.coreAssign p o) := by
  cases hr
  refine manage_completes (fun _ => rfl) fun s hok => ?_
  obtain ⟨hcore, htarget⟩ := Bool.and_eq_true_iff.mp hok
  obtain ⟨dst, hdst, hmoved⟩ := (Option.any_eq_true ..).mp htarget
  rw [State.target] at hdst
  simp only [Bool.and_eq_true, Bool.not_eq_true', decide_eq_true_eq] at hcore hmoved
  obtain ⟨hother, hdone⟩ := hmoved
  simp only [State.target, hdst, Option.elim_some, Nat.not_le.mpr hcore, if_false, hother, Bool.false_eq_true]
  obtain ⟨u, hu⟩ : ∃ u, s.moveCore (o.f 0 0 8) dst = (u, true) := ⟨_, Prod.ext rfl hdone⟩
  simp only [hu]

/-! ### Pages, weights and regions -/

theorem memAssign_completes {p : Nat} {o : CmdOps} {r : EventRow} (hr : packageEvent (.memAssign p o) = some r) :
    r.Completes (.memAssign p o) := by
  cases hr
  refine manage_completes (fun _ => rfl) fun s hok => ?_
  obtain ⟨htarget, hpages⟩ := Bool.and_eq_true_iff.mp hok
  obtain ⟨dst, hdst⟩ := Option.isSome_iff_exists.mp htarget
  rw [State.target] at hdst
  simp only [State.target, hdst, Option.elim_some, hpages, Bool.not_true, Bool.false_eq_true, if_false]

theorem powerWeight_completes {p : Nat} {o : CmdOps} {r : EventRow} (hr : packageEvent (.powerWeight p o) = some r) :
    r.Completes (.powerWeight p o) := by
  cases hr
  refine manage_completes (fun _ => rfl) fun s hok => ?_
  obtain ⟨hthere, hweight⟩ := Bool.and_eq_true_iff.mp hok
  simp only [Option.isNone_eq_false_iff.mpr hthere, bne_iff_ne.mp hweight, decide_false, Bool.or_self, Bool.false_eq_true, if_false]

theorem regionAssign_completes {p : Nat} {o : CmdOps} {r : EventRow} (hr : packageEvent (.regionAssign p o) = some r) :
    r.Completes (.regionAssign p o) := by
  cases hr
  refine manage_completes (fun _ => rfl) fun s htarget => ?_
  obtain ⟨dst, hdst⟩ := Option.isSome_iff_exists.mp htarget
  rw [State.target] at hdst
  simp only [State.target, hdst, Option.elim_some, State.setRegion]

/-! ### Links -/

/-- LINK_KEY's test of the links that it names, port by port or over the list of them. -/
theorem State.linksFree_iff {s : State} {o : CmdOps} (h : s.linksFree o = true) :
    ((o.f 0 0 1 == 1 && s.hostHolds s.pkg.hostOut.other) || (o.f 0 1 1 == 1 && s.hostInHolds s.pkg.hostIn.other)
      || ((List.range 8).filter fun i => bit (o.f 1 0 8) i).any fun i => s.portHolds i (s.pkg.ports.getD i ⟨0, []⟩).other) = false := by
  simp only [State.linksFree, Bool.and_eq_true, Bool.not_eq_true', List.all_eq_true] at h
  obtain ⟨⟨hout, hin⟩, hports⟩ := h
  rw [hout, hin, Bool.false_or, Bool.false_or, List.any_eq_false]
  intro i hi
  obtain ⟨hrange, hnamed⟩ := List.mem_filter.mp hi
  simpa [hnamed] using hports i hrange

/-- The ports that LINK_KEY switches are those that its operand names. -/
theorem linkPorts_eq (o : CmdOps) (f g : Nat → LinkDir) :
    ((List.range 8).map fun i => if ((List.range 8).filter fun i => bit (o.f 1 0 8) i).contains i then f i else g i)
      = (List.range 8).map fun i => if bit (o.f 1 0 8) i then f i else g i := by
  refine List.map_congr_left fun i hi => ?_
  simp only [List.contains_eq_mem, List.mem_filter, hi, true_and, decide_eq_true_eq]

theorem linkKey_completes {p : Nat} {o : CmdOps} {r : EventRow} (hr : packageEvent (.linkKey p o) = some r) :
    r.Completes (.linkKey p o) := by
  cases hr
  refine manage_completes (fun _ => rfl) fun s hfree => ?_
  simp only [State.linksFree_iff hfree, Bool.false_eq_true, if_false, linkPorts_eq, beq_iff_eq]
  rfl

theorem sublinkAssign_completes {p : Nat} {o : CmdOps} {r : EventRow} (hr : packageEvent (.sublinkAssign p o) = some r) :
    r.Completes (.sublinkAssign p o) := by
  cases hr
  refine manage_completes (fun _ => rfl) fun s hok => ?_
  simp only [Bool.and_eq_true, decide_eq_true_eq] at hok
  obtain ⟨⟨htarget, hsplit⟩, hsub⟩ := hok
  obtain ⟨dst, hdst⟩ := Option.isSome_iff_exists.mp htarget
  rw [State.target] at hdst
  simp only [State.target, hdst, Option.elim_some, Nat.not_lt.mpr hsplit, Nat.not_le.mpr hsub, decide_false, Bool.or_self,
    Bool.false_eq_true, if_false]

theorem sublinkTrain_completes {port sl : Nat} {r : EventRow} (hr : packageEvent (.sublinkTrain port sl) = some r) :
    r.Completes (.sublinkTrain port sl) := by
  cases hr
  exact EventRow.on_completes fun _ _ _ _ => rfl

/-- A trained sub-link of a partition, whose request translates through its stage 2 (R390). -/
theorem State.remotePa_eq_some {s : State} {port sl ipa pa : Nat} {kind : Acc} (h : s.remotePa port sl ipa kind = some pa) :
    ∃ p r, s.pkg.sublinks.find (port * 4 + sl) = some ⟨some p, r, true⟩ ∧ s.ipaToPa p (ipa % 2 ^ 40) kind = .ok pa := by
  obtain ⟨⟨part, rem, trained⟩, hlink, h⟩ := Option.bind_eq_some_iff.mp h
  cases trained with
  | false => cases h
  | true =>
    obtain ⟨p, rfl, hpa⟩ := Option.bind_eq_some_iff.mp h
    exact ⟨p, rem, hlink, toOption_some hpa⟩

/-- A remote read changes nothing, wherever its address leads. -/
theorem State.remoteRequest_read (s : State) (port sl ipa n : Nat) : s.remoteRequest port sl ipa (.read n) = s := by
  unfold State.remoteRequest
  split
  · dsimp only
    split <;> rfl
  · rfl

theorem pritchRemoteRequest_completes {port sl ipa : Nat} {acc : RemoteAcc} {r : EventRow}
    (hr : packageEvent (.pritchRemoteRequest port sl ipa acc) = some r) : r.Completes (.pritchRemoteRequest port sl ipa acc) := by
  cases acc with
  | read n =>
    cases hr
    exact fun s _ => congrArg go (State.remoteRequest_read ..)
  | write data =>
    cases hr
    refine EventRow.on_completes fun s pa hpa _ => congrArg go (?_ : s.remoteRequest port sl ipa (.write data) = _)
    obtain ⟨p, rem, hlink, hpa⟩ := State.remotePa_eq_some hpa
    simp only [State.remoteRequest, hlink, hpa]
  | atomic op ty b cmp =>
    cases hr
    refine EventRow.on_completes fun s pa hpa hok => congrArg go (?_ : s.remoteRequest port sl ipa (.atomic op ty b cmp) = _)
    obtain ⟨p, rem, hlink, hpa⟩ := State.remotePa_eq_some hpa
    simp only [Bool.and_eq_true, beq_iff_eq, Bool.not_eq_true'] at hok
    obtain ⟨haligned, hclean⟩ := hok
    simp only [State.remoteRequest, hlink, hpa, haligned, hclean, ne_eq, not_true_eq_false, decide_false, Bool.or_self,
      Bool.false_eq_true, if_false]

/-! ### Resets -/

theorem reset_completes {p : Nat} {o : CmdOps} {r : EventRow} (hr : packageEvent (.reset p o) = some r) : r.Completes (.reset p o) := by
  cases hr
  intro s hok
  simp only [Bool.and_eq_true, beq_iff_eq] at hok
  obtain ⟨hring, hmasks⟩ := hok
  refine congrArg go (?_ : resetOp p o s = _)
  simp only [resetOp, hring, hmasks, ne_eq, not_true_eq_false, Bool.not_true, Bool.false_eq_true, if_false]

theorem powerOnReset_completes {r : EventRow} (hr : packageEvent .powerOnReset = some r) : r.Completes .powerOnReset := by
  cases hr
  exact fun _ _ => rfl

/-- The management commands and the link events are carried out as their rows say. -/
theorem packageEvent_completes {i : Instr} {r : EventRow} (hr : packageEvent i = some r) : r.Completes i := by
  cases i
  case partCreate => exact partCreate_completes hr
  case partDestroy => exact partDestroy_completes hr
  case coreAssign => exact coreAssign_completes hr
  case memAssign => exact memAssign_completes hr
  case linkKey => exact linkKey_completes hr
  case sublinkAssign => exact sublinkAssign_completes hr
  case powerWeight => exact powerWeight_completes hr
  case reset => exact reset_completes hr
  case regionAssign => exact regionAssign_completes hr
  case powerOnReset => exact powerOnReset_completes hr
  case pritchRemoteRequest => exact pritchRemoteRequest_completes hr
  case sublinkTrain => exact sublinkTrain_completes hr
  all_goals simp only [packageEvent, reduceCtorEq] at hr

end Sys2Proof.Machine

open Sys2Proof Sys2Proof.Machine

/-- Settles O31: each command's checks let it through where its row's precondition holds, and so do those of the link events. -/
theorem packageCommandsComplete : Obligations.PackageCommandsComplete := fun _ _ => packageEvent_completes
end

/-! ## The mode of the package (O11)

Whether the package is in confidential mode is written by the bring-up of a package reset alone. Every operation of the model
is given a lemma that says so of it, in the order of the model; a step is made of them. -/

section
namespace Sys2Proof.Machine

/-! ### Folds and choices -/

/-- Two states with one package have one mode. The steps that the kernel would otherwise compare by unfolding them go
through this. -/
theorem confidential_of_pkg {u s t : State} (h : u.pkg = s.pkg) (hs : s.pkg.confidential = t.pkg.confidential) :
    u.pkg.confidential = t.pkg.confidential := h ▸ hs

/-- So have a state and the state of an account whose other part must not be compared. -/
theorem fst_mk_confidential {α : Type} {s t : State} (h : t.pkg.confidential = s.pkg.confidential) (b : α) :
    (t, b).1.pkg.confidential = s.pkg.confidential := h

/-- A fold whose steps leave the mode leaves it. -/
@[simp] theorem foldl_confidential {α : Type} {f : State → α → State}
    (hf : ∀ u a, (f u a).pkg.confidential = u.pkg.confidential) (l : List α) (s : State) :
    (l.foldl f s).pkg.confidential = s.pkg.confidential :=
  List.foldlRecOn (motive := fun u : State => u.pkg.confidential = s.pkg.confidential) l f rfl
    fun u hu a _ => (hf u a).trans hu

/-- So does a fold that carries an account beside the state. -/
theorem foldl_fst_confidential {α β : Type} {f : State × β → α → State × β}
    (hf : ∀ u a, (f u a).1.pkg.confidential = u.1.pkg.confidential) (l : List α) (x : State × β) :
    (l.foldl f x).1.pkg.confidential = x.1.pkg.confidential :=
  List.foldlRecOn (motive := fun u : State × β => u.1.pkg.confidential = x.1.pkg.confidential) l f rfl
    fun u hu a _ => (hf u a).trans hu

@[simp] theorem ite_confidential (c : Prop) [Decidable c] (s t : State) :
    (if c then s else t).pkg.confidential = if c then s.pkg.confidential else t.pkg.confidential :=
  apply_ite (·.pkg.confidential) c s t

@[simp] theorem ite_fst_confidential {β : Type} (c : Prop) [Decidable c] (x y : State × β) :
    (if c then x else y).1.pkg.confidential = if c then x.1.pkg.confidential else y.1.pkg.confidential :=
  apply_ite (·.1.pkg.confidential) c x y

/-! ### Writes at the home -/

@[simp] theorem State.modSluice_confidential (s : State) (d : Nat) (f : Sluice → Sluice) :
    (s.modSluice d f).pkg.confidential = s.pkg.confidential := by simp [State.modSluice]

@[simp] theorem State.storeByte_confidential (s : State) (pa : Nat) (b : Byte) :
    (s.storeByte pa b).pkg.confidential = s.pkg.confidential := by simp [State.storeByte]

@[simp] theorem State.storeBytes_confidential (s : State) (pa : Nat) (bs : List Byte) :
    (s.storeBytes pa bs).pkg.confidential = s.pkg.confidential := by
  induction bs generalizing s pa with
  | nil => rfl
  | cons b bs ih => exact ih _ _

@[simp] theorem State.setElem_confidential (s : State) (base fmt e bits : Nat) :
    (s.setElem base fmt e bits).pkg.confidential = s.pkg.confidential := by simp [State.setElem]

@[simp] theorem State.viewWrite_confidential (s : State) (n : Nat) (r : Region) (pa : Nat) (bs : List Byte) :
    (s.viewWrite n r pa bs).pkg.confidential = s.pkg.confidential := by simp [State.viewWrite]

@[simp] theorem State.markViews_confidential (s : State) (pa n : Nat) :
    (s.markViews pa n).pkg.confidential = s.pkg.confidential := by simp [State.markViews]

@[simp] theorem State.modHome_confidential (s : State) (la : Nat) (f : HomeLine → HomeLine) :
    (s.modHome la f).pkg.confidential = s.pkg.confidential := by simp [State.modHome]

@[simp] theorem State.evictL2_confidential (s : State) (la : Nat) :
    (s.evictL2 la).pkg.confidential = s.pkg.confidential := by
  unfold State.evictL2
  (repeat' split) <;> simp

@[simp] theorem State.roomL2_confidential (s : State) (la : Nat) :
    (s.roomL2 la).pkg.confidential = s.pkg.confidential := by
  unfold State.roomL2
  (repeat' split) <;> simp

@[simp] theorem State.useL2_confidential (s : State) (la : Nat) (f : HomeLine → HomeLine) :
    (s.useL2 la f).pkg.confidential = s.pkg.confidential := by simp [State.useL2]

@[simp] theorem State.fire_confidential (s : State) (m : Monitor) (start : Nat) :
    (s.fire m start).pkg.confidential = s.pkg.confidential := by simp [State.fire]

@[simp] theorem State.testMonitors_confidential (s : State) (la start : Nat) :
    (s.testMonitors la start).pkg.confidential = s.pkg.confidential := by simp [State.testMonitors]

@[simp] theorem State.modStashLine_confidential (s : State) (own : Nat × Nat × Nat) (f : StashLine → StashLine) :
    (s.modStashLine own f).pkg.confidential = s.pkg.confidential := by simp [State.modStashLine]

@[simp] theorem State.touchSpad_confidential (s : State) (b off n : Nat) :
    (s.touchSpad b off n).pkg.confidential = s.pkg.confidential := by simp [State.touchSpad]

@[simp] theorem State.writeSpad_confidential (s : State) (b off : Nat) (bs : List Byte) :
    (s.writeSpad b off bs).pkg.confidential = s.pkg.confidential := by simp [State.writeSpad]

@[simp] theorem State.endOwnership_confidential (s : State) (la : Nat) :
    (s.endOwnership la).pkg.confidential = s.pkg.confidential := by
  unfold State.endOwnership
  split <;> simp

@[simp] theorem State.plainWrite_confidential (s : State) (pa : Nat) (bs : List Byte) :
    (s.plainWrite pa bs).pkg.confidential = s.pkg.confidential := by simp [State.plainWrite]

@[simp] theorem State.putBytes_confidential (s : State) (pa : Nat) (bs : List Byte) :
    (s.putBytes pa bs).pkg.confidential = s.pkg.confidential := by
  unfold State.putBytes
  (repeat' split) <;> simp

@[simp] theorem State.afterWrite_confidential (s : State) (la g : Nat) (tied drop : List Nat) :
    (s.afterWrite la g tied drop).pkg.confidential = s.pkg.confidential := by simp [State.afterWrite]

@[simp] theorem State.afterPut_confidential (s : State) (pa n : Nat) :
    (s.afterPut pa n).pkg.confidential = s.pkg.confidential := by simp [State.afterPut]

@[simp] theorem State.writeHome_confidential (s : State) (core : Option Nat) (pa : Nat) (bs : List Byte) :
    (s.writeHome core pa bs).1.pkg.confidential = s.pkg.confidential := by
  unfold State.writeHome
  extract_lets la s1 g tied s2 s3 s4
  have h1 : s1.pkg.confidential = s.pkg.confidential := by
    unfold s1
    split <;> simp
  have h4 : s4.pkg.confidential = s.pkg.confidential := by
    unfold s4 s3 s2
    split <;> simp [h1]
  simp [h4]

@[simp] theorem State.writeLines_confidential (s : State) (core : Option Nat) (pa : Nat) (bs : List Byte) :
    (s.writeLines core pa bs).1.pkg.confidential = s.pkg.confidential := by
  unfold State.writeLines
  exact foldl_fst_confidential (fun _ _ => by simp) _ _

@[simp] theorem State.deviceWrite_confidential (s : State) (pa : Nat) (bs : List Byte) :
    (s.deviceWrite pa bs).pkg.confidential = s.pkg.confidential := by simp [State.deviceWrite]

/-! ### Sluice -/

@[simp] theorem State.setRecord_confidential (s : State) (pa : Nat) (r : CapRec) :
    (s.setRecord pa r).pkg.confidential = s.pkg.confidential := by simp [State.setRecord]

@[simp] theorem State.nameRecord_confidential (s : State) (pa : Nat) :
    (s.nameRecord pa).pkg.confidential = s.pkg.confidential := by simp [State.nameRecord]

@[simp] theorem State.forgetRecords_confidential (s : State) (pg : Nat) :
    (s.forgetRecords pg).pkg.confidential = s.pkg.confidential := by simp [State.forgetRecords]

@[simp] theorem State.touchLine_confidential (s : State) (pa : Nat) :
    (s.touchLine pa).pkg.confidential = s.pkg.confidential := by simp [State.touchLine]

@[simp] theorem State.wakeRecord_confidential (s : State) (pa : Nat) :
    (s.wakeRecord pa).pkg.confidential = s.pkg.confidential := by
  unfold State.wakeRecord
  exact foldl_confidential (fun _ _ => by rfl) _ _

@[simp] theorem State.dropWaiter_confidential (s : State) (k : Nat) :
    (s.dropWaiter k).pkg.confidential = s.pkg.confidential := by simp [State.dropWaiter]

@[simp] theorem State.waitRecord_confidential (s : State) (k pa va : Nat) :
    (s.waitRecord k pa va).pkg.confidential = s.pkg.confidential := by simp [State.waitRecord]

@[simp] theorem State.deschedule_confidential (s : State) (ident : Nat) :
    (s.deschedule ident).pkg.confidential = s.pkg.confidential := by simp [State.deschedule]

@[simp] theorem State.reschedule_confidential (s : State) (ident : Nat) :
    (s.reschedule ident).pkg.confidential = s.pkg.confidential := by simp [State.reschedule]

@[simp] theorem State.capsuleEnds_confidential (s : State) (c : Capsule) :
    (s.capsuleEnds c).pkg.confidential = s.pkg.confidential := by simp [State.capsuleEnds]

@[simp] theorem State.dropDisplaced_confidential (s : State) (pa holder : Nat) :
    (s.dropDisplaced pa holder).pkg.confidential = s.pkg.confidential := by simp [State.dropDisplaced]

@[simp] theorem State.postDisplaced_confidential (s : State) (pa part holder : Nat) (cs : List Word) :
    (s.postDisplaced pa part holder cs).pkg.confidential = s.pkg.confidential := by
  unfold State.postDisplaced
  split <;> simp

/-! ### Translation -/

@[simp] theorem State.tlbFill_confidential (s : State) (core : Nat) (quad : Option Nat) (part owner root va : Nat)
    (acc : Acc) :
    (s.tlbFill core quad part owner root va acc).pkg.confidential = s.pkg.confidential := by
  unfold State.tlbFill
  (repeat' split) <;> simp

@[simp] theorem State.aliasEntries_confidential (s : State) :
    s.aliasEntries.pkg.confidential = s.pkg.confidential := by simp [State.aliasEntries]

@[simp] theorem State.tlbFillFor_confidential (s : State) (k va : Nat) (acc : Acc) :
    (s.tlbFillFor k va acc).pkg.confidential = s.pkg.confidential := by simp [State.tlbFillFor]

/-! ### Threads -/

@[simp] theorem State.writeRecord_confidential (s : State) (p : Nat) (r : FaultRec) :
    (s.writeRecord p r).pkg.confidential = s.pkg.confidential := by simp [State.writeRecord]

@[simp] theorem State.post_confidential (s : State) (p : Nat) (r : FaultRec) (party : Option Party) :
    (s.post p r party).1.pkg.confidential = s.pkg.confidential := by
  unfold State.post
  split <;> simp

@[simp] theorem State.parkOn_confidential (s : State) (ks done : List Nat) (src kind va ipa acc prog : Nat) :
    (s.parkOn ks done src kind va ipa acc prog).pkg.confidential = s.pkg.confidential := by
  unfold State.parkOn
  split
  · rfl
  · dsimp only
    exact (foldl_confidential (fun _ _ => by rfl) _ _).trans (State.post_confidential ..)

@[simp] theorem State.doubleFault_confidential (s : State) (k cause info : Nat) :
    (s.doubleFault k cause info).pkg.confidential = s.pkg.confidential := by simp [State.doubleFault]

@[simp] theorem State.trap_confidential (s : State) (k cause info len : Nat) (chn : Bool) :
    (s.trap k cause info len chn).pkg.confidential = s.pkg.confidential := by simp [State.trap]

@[simp] theorem State.trapReturn_confidential (s : State) (k target : Nat) :
    (s.trapReturn k target).pkg.confidential = s.pkg.confidential := by simp [State.trapReturn]

@[simp] theorem State.wake_confidential (s : State) (p : Nat → Wait → Bool) :
    (s.wake p).pkg.confidential = s.pkg.confidential := by simp [State.wake]

@[simp] theorem State.testRejoin_confidential (s : State) (g j : Nat) :
    (s.testRejoin g j).pkg.confidential = s.pkg.confidential := by simp [State.testRejoin]

@[simp] theorem State.modBar_confidential (s : State) (b id : Nat) (f : Barrier → Barrier) :
    (s.modBar b id f).pkg.confidential = s.pkg.confidential := by simp [State.modBar]

@[simp] theorem State.testBar_confidential (s : State) (b id : Nat) :
    (s.testBar b id).pkg.confidential = s.pkg.confidential := by simp [State.testBar]

@[simp] theorem State.endGroup_confidential (s : State) (g : Nat) :
    (s.endGroup g).pkg.confidential = s.pkg.confidential := by
  unfold State.endGroup
  dsimp only
  split <;> simp

@[simp] theorem State.endThread_confidential (s : State) (k : Nat) :
    (s.endThread k).pkg.confidential = s.pkg.confidential := by
  unfold State.endThread
  split <;> simp

@[simp] theorem State.retire_confidential (s : State) (core : Nat) (ctxs : List Nat) :
    (s.retire core ctxs).pkg.confidential = s.pkg.confidential := by
  unfold State.retire
  exact foldl_confidential (fun _ _ => by rfl) _ _

@[simp] theorem State.retireOne_confidential (s : State) (k : Nat) :
    (s.retireOne k).pkg.confidential = s.pkg.confidential := by simp [State.retireOne]

@[simp] theorem State.endStep_confidential (s : State) (k : Nat) (trapped : Bool) :
    (s.endStep k trapped).pkg.confidential = s.pkg.confidential := by simp [State.endStep]

@[simp] theorem State.orderPoint_confidential (s : State) (k : Nat) :
    (s.orderPoint k).pkg.confidential = s.pkg.confidential := by simp [State.orderPoint]

@[simp] theorem State.enterWct_confidential (s : State) (k : Nat) (hostPath : Bool) (g : Nat) :
    (s.enterWct k hostPath g).pkg.confidential = s.pkg.confidential := by simp [State.enterWct]

/-! ### Registers -/

@[simp] theorem State.writeReg_confidential (s : State) (k code : Nat) (v : Word) :
    (s.writeReg k code v).pkg.confidential = s.pkg.confidential := by simp [State.writeReg]

@[simp] theorem State.writeRun_confidential (s : State) (k code v n : Nat) :
    (s.writeRun k code v n).pkg.confidential = s.pkg.confidential := by
  induction n generalizing s code v with
  | zero => rfl
  | succ n ih =>
    unfold State.writeRun
    split
    · rfl
    · exact (ih ..).trans (State.writeReg_confidential ..)

/-! ### Flags -/

@[simp] theorem State.markUdiv_confidential (s : State) (passing committed : List Nat) :
    (s.markUdiv passing committed).pkg.confidential = s.pkg.confidential := by simp [State.markUdiv]

/-! ### Traps, latches and requests of a lane -/

@[simp] theorem State.keepAlias_confidential (s : State) (k va : Nat) :
    (s.keepAlias k va).pkg.confidential = s.pkg.confidential := by simp [State.keepAlias]

@[simp] theorem State.trapLane_confidential (s : State) (k : Nat) (h : Hdr) (fm : Form) (cause info : Nat) :
    (s.trapLane k h fm cause info).pkg.confidential = s.pkg.confidential := by simp [State.trapLane]

@[simp] theorem State.writeD_confidential (s : State) (k : Nat) (h : Hdr) (fm : Form) (dst v : Nat) :
    (s.writeD k h fm dst v).pkg.confidential = s.pkg.confidential := by simp [State.writeD]

@[simp] theorem State.failLane_confidential (s0 s : State) (k : Nat) (h : Hdr) (fm : Form) :
    (s0.failLane s k h fm).pkg.confidential = s.pkg.confidential := by
  unfold State.failLane
  dsimp only
  split <;> rfl

@[simp] theorem State.addReq_confidential (s : State) (r : Req) :
    (s.addReq r).pkg.confidential = s.pkg.confidential := by simp [State.addReq]

@[simp] theorem State.sendCommit_confidential (s : State) (k : Nat) (c : Capsule) (pa : Nat) (writes : List (BitVec 10 × Word))
    (cst : Option (StepAccess × Word)) (cld : Option (StepAccess × BitVec 10)) :
    (s.sendCommit k c pa writes cst cld).pkg.confidential = s.pkg.confidential := by simp [State.sendCommit]

/-! ### Lanes and bundles -/

/-- What an outcome of a lane leaves of the mode: the state that it carries has that of a state. -/
def Lane.KeepsMode (u : State) : Lane → Prop
  | .ok t | .okAt t _ | .wait t _ | .left t | .trap t _ _ | .asks t => t.pkg.confidential = u.pkg.confidential
  | .fault .. | .stall _ => True

@[simp] theorem Lane.keepsMode_ok (u t : State) : (Lane.ok t).KeepsMode u ↔ t.pkg.confidential = u.pkg.confidential := Iff.rfl
@[simp] theorem Lane.keepsMode_okAt (u t : State) (pc : Nat) :
    (Lane.okAt t pc).KeepsMode u ↔ t.pkg.confidential = u.pkg.confidential := Iff.rfl
@[simp] theorem Lane.keepsMode_wait (u t : State) (w : Wait) :
    (Lane.wait t w).KeepsMode u ↔ t.pkg.confidential = u.pkg.confidential := Iff.rfl
@[simp] theorem Lane.keepsMode_left (u t : State) :
    (Lane.left t).KeepsMode u ↔ t.pkg.confidential = u.pkg.confidential := Iff.rfl
@[simp] theorem Lane.keepsMode_trap (u t : State) (c i : Nat) :
    (Lane.trap t c i).KeepsMode u ↔ t.pkg.confidential = u.pkg.confidential := Iff.rfl
@[simp] theorem Lane.keepsMode_asks (u t : State) :
    (Lane.asks t).KeepsMode u ↔ t.pkg.confidential = u.pkg.confidential := Iff.rfl
@[simp] theorem Lane.keepsMode_fault (u : State) (kind va ipa acc : Nat) : (Lane.fault kind va ipa acc).KeepsMode u := trivial
@[simp] theorem Lane.keepsMode_stall (u : State) (w : Stall) : (Lane.stall w).KeepsMode u := trivial

theorem Lane.KeepsMode.trans {u w : State} {l : Lane} (hl : l.KeepsMode u) (h : u.pkg.confidential = w.pkg.confidential) :
    l.KeepsMode w := by
  cases l with
  | ok | okAt | wait | left | trap | asks => exact Eq.trans hl h
  | fault | stall => trivial

theorem Run.lane_confidential (r : Run) (h : Hdr) (fm : Form) (k : Nat) {l : Lane} (hl : l.KeepsMode r.s) :
    (r.lane h fm k l).s.pkg.confidential = r.s.pkg.confidential := by
  cases l with
  | trap t c i =>
    rw [Lane.keepsMode_trap] at hl
    simp only [Run.lane, State.trapLane_confidential]
    split <;> simp [hl]
  | ok | okAt | wait | left | asks => exact hl
  | fault | stall => rfl

@[simp] theorem Run.finish_confidential (r : Run) (before : State) (h : Hdr) (fm : Form) (passing : List Nat) :
    (r.finish before h fm passing).pkg.confidential = r.s.pkg.confidential := by
  unfold Run.finish
  extract_lets s1 s2 inGroup s3
  have h1 : s1.pkg.confidential = r.s.pkg.confidential := by
    unfold s1
    split <;> simp
  have h2 : s2.pkg.confidential = r.s.pkg.confidential := by
    unfold s2
    split <;> exact h1
  have h3 : s3.pkg.confidential = r.s.pkg.confidential := by
    unfold s3
    split
    · exact h2
    · refine (foldl_confidential (fun _ _ => ?_) _ _).trans h2
      rfl
  split
  · exact h3
  · simp [h3]

@[simp] theorem State.commitAt_keepsMode (s u : State) (k : Nat) (c : Capsule) (send : Nat → State)
    (hu : s.pkg.confidential = u.pkg.confidential) (hs : ∀ pa, (send pa).pkg.confidential = u.pkg.confidential) :
    (s.commitAt k c send).KeepsMode u := by
  unfold State.commitAt
  split
  · exact hs _
  · trivial
  · exact hu
  · exact hu

theorem laneOutcome_keepsMode (s0 s : State) (opc : Nat) (fm : Form) (k : Nat) (v : Vals) {l : Lane} (hl : l.KeepsMode s) :
    (laneOutcome s0 opc fm k s v l).KeepsMode s := by
  unfold laneOutcome stepLane
  split
  · split
    · exact State.commitAt_keepsMode _ _ _ _ _ rfl fun _ => by simp
    · exact hl
  · exact hl

theorem stepFail_keepsMode (s0 s : State) (h : Hdr) (k : Nat) : (stepFail s0 h k s).KeepsMode s := by
  unfold stepFail
  dsimp only
  split
  · rfl
  · split
    · rfl
    · exact State.commitAt_keepsMode _ _ _ _ _ rfl fun _ => by simp

theorem passStep_confidential (s0 : State) (opc : Nat) (h : Hdr) (fm : Form) {f : Entry} (part : List (Nat × Vals))
    (hf : ∀ s0 p k v u, (f s0 p k v u).KeepsMode u) (r : Run) (kv : Nat × Except (Nat × Nat) Vals) :
    (passStep s0 opc h fm f part r kv).s.pkg.confidential = r.s.pkg.confidential := by
  unfold passStep
  split
  · exact Run.lane_confidential _ _ _ _ rfl
  · exact Run.lane_confidential _ _ _ _ (laneOutcome_keepsMode _ _ _ _ _ _ (hf ..))

theorem failStep_confidential (s0 : State) (opc : Nat) (h : Hdr) (fm : Form) (r : Run) (k : Nat) :
    (failStep s0 opc h fm r k).s.pkg.confidential = r.s.pkg.confidential := by
  unfold failStep
  split
  · exact Run.lane_confidential _ _ _ _ (stepFail_keepsMode ..)
  · simp

/-- A fold of turns that leave the mode leaves it. -/
theorem foldl_run_confidential {α : Type} {f : Run → α → Run}
    (hf : ∀ r a, (f r a).s.pkg.confidential = r.s.pkg.confidential) (l : List α) (r : Run) : (l.foldl f r).s.pkg.confidential = r.s.pkg.confidential :=
  List.foldlRecOn (motive := fun x : Run => x.s.pkg.confidential = r.s.pkg.confidential) l f rfl
    fun x hx a _ => (hf x a).trans hx

@[simp] theorem decoded_confidential (s : State) (opc : Nat) (h : Hdr) (fm : Form) (prot : State → Nat → Bool) :
    (decoded s opc h fm prot).1.pkg.confidential = s.pkg.confidential := by
  unfold decoded
  refine foldl_confidential (fun u k => ?_) _ _
  split <;> simp

@[simp] theorem udivStep_confidential (s : State) (h : Hdr) (fm : Form) (passing : List Nat) :
    (udivStep s h fm passing).1.pkg.confidential = s.pkg.confidential := by
  unfold udivStep
  dsimp only
  split
  · rfl
  · split
    · rfl
    · exact (foldl_confidential (fun _ _ => by simp) _ _).trans (foldl_confidential (fun _ _ => by rfl) _ _)

/-- A bundle whose lanes leave the mode leaves it. -/
theorem runLanes_confidential {opc : Nat} {h : Hdr} {fm : Form} {prot : State → Nat → Bool} {f : Entry}
    (hf : ∀ s0 p k v u, (f s0 p k v u).KeepsMode u) (s : State) :
    (runLanes opc h fm prot f s).pkg.confidential = s.pkg.confidential := by
  unfold runLanes
  dsimp only
  split
  · exact (foldl_confidential (fun _ _ => by rfl) _ _).trans (decoded_confidential ..)
  · rw [Run.finish_confidential, foldl_run_confidential (failStep_confidential _ _ _ _),
      foldl_run_confidential (passStep_confidential _ _ _ _ _ hf), udivStep_confidential, decoded_confidential]

theorem runOnce_confidential {opc : Nat} {h : Hdr} {fm : Form} {prot : State → Nat → Bool}
    {f : State → State → List Nat → Nat → Vals → Lane} (hf : ∀ s0 u ks k v, (f s0 u ks k v).KeepsMode u) (s : State) :
    (runOnce opc h fm prot f s).pkg.confidential = s.pkg.confidential := by
  unfold runOnce
  refine runLanes_confidential (fun s0 p k v u => ?_) s
  split
  · rfl
  · dsimp only
    split
    · exact hf ..
    · split <;> trivial

@[simp] theorem runValue_confidential (opc : Nat) (h : Hdr) (fm : Form) (f : State → Nat → Vals → Nat) (s : State) :
    (runValue opc h fm f s).pkg.confidential = s.pkg.confidential := by
  unfold runValue
  exact runLanes_confidential (fun _ _ _ _ _ => by simp) s

@[simp] theorem runEvents_confidential (opc : Nat) (h : Hdr) (fm : Form) (base : Nat)
    (f : State → Nat → Vals → Nat × List Events) (s : State) : (runEvents opc h fm base f s).pkg.confidential = s.pkg.confidential := by
  unfold runEvents
  refine runLanes_confidential (fun s0 p k v u => ?_) s
  dsimp only
  split <;> simp

/-! ### The history banks -/

@[simp] theorem State.count_confidential (s : State) (core o n by' : Nat) :
    (s.count core o n by').pkg.confidential = s.pkg.confidential := by simp [State.count]

@[simp] theorem State.modBank_confidential (s : State) (core o : Nat) (f : Bank → Bank) :
    (s.modBank core o f).pkg.confidential = s.pkg.confidential := by simp [State.modBank]

@[simp] theorem State.trainBranch_confidential (s : State) (k : Nat) (outcomes : List Bool) (pc : Nat) :
    (s.trainBranch k outcomes pc).pkg.confidential = s.pkg.confidential := by simp [State.trainBranch]

@[simp] theorem State.redirect_confidential (s before : State) (pc : Nat) (outcomes : List (Nat × Bool)) :
    (s.redirect before pc outcomes).pkg.confidential = s.pkg.confidential := by simp [State.redirect]

/-- A fold that may fail, whose steps leave the mode where they succeed, leaves it where it succeeds. -/
theorem foldlM_ok_confidential {α ε : Type} {f : State → α → Except ε State} {l : List α} {s t : State}
    (hf : ∀ u a x, f u a = .ok x → x.pkg.confidential = u.pkg.confidential) (h : l.foldlM f s = .ok t) :
    t.pkg.confidential = s.pkg.confidential := by
  induction l generalizing s with
  | nil =>
    cases h
    rfl
  | cons a l ih =>
    rw [List.foldlM_cons] at h
    cases hx : f s a with
    | error e =>
      rw [hx] at h
      cases h
    | ok x =>
      rw [hx] at h
      exact (ih h).trans (hf _ _ _ hx)

@[simp] theorem Bad.lane_keepsMode (u : State) (b : Bad) : (b.lane u).KeepsMode u := by
  cases b <;> simp [Bad.lane]

/-! ### Loads, stores and prefetches -/

@[simp] theorem State.send_confidential (s : State) (k : Nat) (p : Place) (size : Nat) (kind : ReqKind) (acq : Bool)
    (acc : Acc) :
    (s.send k p size kind acq acc).pkg.confidential = s.pkg.confidential := by simp [State.send]

theorem State.askWords_confidential {s0 run t : State} {k : Nat} {lease : Bool} {size : Nat} {ws : List (Nat × Nat)}
    (h : s0.askWords run k lease size ws = .ok t) : t.pkg.confidential = run.pkg.confidential := by
  unfold State.askWords at h
  refine foldlM_ok_confidential (fun u w x hx => ?_) h
  split at hx
  · cases hx
    rfl
  · cases hp : s0.place k w.2 size .load true with
    | error b => simp [hp, Except.map] at hx
    | ok p =>
      simp only [hp, Except.map, Except.ok.injEq] at hx
      simp [← hx]

@[simp] theorem State.lookUp_confidential (s : State) (now : Nat) (ids : List Nat) :
    (s.lookUp now ids).pkg.confidential = s.pkg.confidential := by
  unfold State.lookUp
  refine foldl_fst_confidential (fun x i => ?_) _ _
  dsimp only
  (repeat' split) <;> simp

@[simp] theorem State.sptPrefetch_confidential (s : State) (k pc va : Nat) :
    (s.sptPrefetch k pc va).pkg.confidential = s.pkg.confidential := by
  unfold State.sptPrefetch
  dsimp only
  (repeat' split) <;> simp

@[simp] theorem State.trainLoad_confidential (s : State) (k pc : Nat) (eas : List Nat) :
    (s.trainLoad k pc eas).pkg.confidential = s.pkg.confidential := by simp [State.trainLoad]

@[simp] theorem State.lookUpSince_confidential (before s : State) :
    (before.lookUpSince s).pkg.confidential = s.pkg.confidential := by simp [State.lookUpSince]

@[simp] theorem afterLoads_confidential (before s : State) :
    (afterLoads before s).pkg.confidential = s.pkg.confidential := by
  unfold afterLoads
  dsimp only
  split <;> simp

@[simp] theorem ldOp_confidential (h : Hdr) (sz : BitVec 3) (acq : Bool) (sc : BitVec 3) (nl : Bool) (s : State) :
    (ldOp h sz acq sc nl s).pkg.confidential = s.pkg.confidential := by
  unfold ldOp
  refine (afterLoads_confidential ..).trans (runLanes_confidential (fun s0 part k v run => ?_) s)
  split <;> simp

@[simp] theorem stOp_confidential (h : Hdr) (sz : BitVec 3) (rel : Bool) (sc : BitVec 3) (s : State) :
    (stOp h sz rel sc s).pkg.confidential = s.pkg.confidential := by
  unfold stOp
  refine runLanes_confidential (fun s0 part k v run => ?_) s
  (repeat' split) <;> simp

@[simp] theorem ldsOp_confidential (h : Hdr) (sz : BitVec 3) (s : State) :
    (ldsOp h sz s).pkg.confidential = s.pkg.confidential := by
  unfold ldsOp
  refine runLanes_confidential (fun s0 part k v run => ?_) s
  split <;> simp

@[simp] theorem stsOp_confidential (h : Hdr) (sz : BitVec 3) (s : State) :
    (stsOp h sz s).pkg.confidential = s.pkg.confidential := by
  unfold stsOp
  refine runLanes_confidential (fun s0 part k v run => ?_) s
  split <;> simp

@[simp] theorem ldcOp_confidential (h : Hdr) (sz : BitVec 2) (s : State) :
    (ldcOp h sz s).pkg.confidential = s.pkg.confidential := by
  unfold ldcOp
  refine runLanes_confidential (fun s0 part k v run => ?_) s
  dsimp only
  (repeat' split) <;> simp

@[simp] theorem ldfOp_confidential (h : Hdr) (w16 : Bool) (s : State) :
    (ldfOp h w16 s).pkg.confidential = s.pkg.confidential := by
  unfold ldfOp
  refine runLanes_confidential (fun s0 part k v run => ?_) s
  split <;> simp

@[simp] theorem prefOp_confidential (h : Hdr) (l2 : Bool) (s : State) :
    (prefOp h l2 s).pkg.confidential = s.pkg.confidential := by
  unfold prefOp
  refine runLanes_confidential (fun s0 part k v run => ?_) s
  dsimp only
  (repeat' split) <;> simp

@[simp] theorem State.dropFills_confidential (s : State) (core : Nat) (followers : Bool) (p : Req → Bool) :
    (s.dropFills core followers p).pkg.confidential = s.pkg.confidential := by simp [State.dropFills]

@[simp] theorem cinvOp_confidential (h : Hdr) (op : BitVec 2) (s : State) :
    (cinvOp h op s).pkg.confidential = s.pkg.confidential := by
  unfold cinvOp
  refine runLanes_confidential (fun s0 part k v run => ?_) s
  dsimp only
  split
  · (repeat' split) <;> simp
  · simp
  · split
    · simp
    · exact foldl_confidential (fun _ _ => by rfl) _ _
  · exact foldl_confidential (fun _ _ => by rfl) _ _

/-! ### Atomics -/

@[simp] theorem atomLane_keepsMode (s0 run : State) (k va size sc : Nat) (rel acq : Bool) (kind : ReqKind) :
    (atomLane s0 run k va size sc rel acq kind).KeepsMode run := by
  unfold atomLane
  (repeat' split) <;> simp

@[simp] theorem atomOp_confidential (h : Hdr) (op : BitVec 4) (ty ord : BitVec 2) (sc : BitVec 3) (s : State) :
    (atomOp h op ty ord sc s).pkg.confidential = s.pkg.confidential := by
  unfold atomOp
  refine runLanes_confidential (fun s0 part k v run => ?_) s
  simp

@[simp] theorem atomcOp_confidential (h : Hdr) (w64 : Bool) (ord : BitVec 2) (sc : BitVec 3) (s : State) :
    (atomcOp h w64 ord sc s).pkg.confidential = s.pkg.confidential := by
  unfold atomcOp
  refine runLanes_confidential (fun s0 part k v run => ?_) s
  simp

@[simp] theorem redOp_confidential (h : Hdr) (op : BitVec 4) (ty : BitVec 2) (rel : Bool) (sc : BitVec 3)
    (s : State) :
    (redOp h op ty rel sc s).pkg.confidential = s.pkg.confidential := by
  unfold redOp
  refine runLanes_confidential (fun s0 part k v run => ?_) s
  simp

@[simp] theorem atomscOp_confidential (h : Hdr) (op : BitVec 4) (ty : BitVec 2) (s : State) :
    (atomscOp h op ty s).pkg.confidential = s.pkg.confidential := by
  unfold atomscOp
  refine runLanes_confidential (fun s0 part k v run => ?_) s
  (repeat' split) <;> simp

@[simp] theorem atomsOp_confidential (h : Hdr) (op : BitVec 4) (ty : BitVec 2) (s : State) :
    (atomsOp h op ty s).pkg.confidential = s.pkg.confidential := by
  unfold atomsOp
  refine runLanes_confidential (fun s0 part k v run => ?_) s
  split <;> simp

/-! ### Ring sets -/

@[simp] theorem runRing_confidential (opc : Nat) (h : Hdr) (fm : Form) (rs : Nat) (f : RingPts → List Word → Vals → Nat)
    (bare : Vals → Nat) (s : State) :
    (runRing opc h fm rs f bare s).pkg.confidential = s.pkg.confidential := by
  unfold runRing
  refine runLanes_confidential (fun s0 part k v run => ?_) s
  (repeat' split) <;> simp

@[simp] theorem rspackOp_confidential (h : Hdr) (pw : BitVec 3) (s : State) :
    (rspackOp h pw s).pkg.confidential = s.pkg.confidential := by
  unfold rspackOp
  refine runLanes_confidential (fun s0 part k v run => ?_) s
  simp

@[simp] theorem State.modRing_confidential (s : State) (c rs : Nat) (f : Ring → Ring) :
    (s.modRing c rs f).pkg.confidential = s.pkg.confidential := by simp [State.modRing]

@[simp] theorem State.queueRing_confidential (s : State) (k rs : Nat) :
    (s.queueRing k rs).pkg.confidential = s.pkg.confidential := by simp [State.queueRing]

@[simp] theorem State.loadRing_confidential (s : State) (k rs : Nat) (ws : List Word) :
    (s.loadRing k rs ws).pkg.confidential = s.pkg.confidential := by simp [State.loadRing]

theorem ringFound_keepsMode {s0 run : State} {l0 va : Nat} {l : Lane} (h : ringFound s0 run l0 va = .error l) :
    l.KeepsMode run := by
  unfold ringFound at h
  split at h
  · cases h
    rfl
  · split at h
    · cases h
    · split at h <;> cases h
      · simp
      · exact State.askWords_confidential ‹_›

@[simp] theorem rsringOp_confidential (h : Hdr) (rs : BitVec 2) (s : State) :
    (rsringOp h rs s).pkg.confidential = s.pkg.confidential := by
  unfold rsringOp
  refine (State.lookUpSince_confidential ..).trans (runLanes_confidential (fun s0 part k v run => ?_) s)
  split
  · rfl
  · split
    next hl =>
      have h1 := ringFound_keepsMode hl
      rw [Lane.keepsMode_asks] at h1
      split
      · trivial
      · split <;> simp [h1]
    next hl => exact ringFound_keepsMode hl
    next => simp

/-! ### Control, barriers and child grids -/

@[simp] theorem transfer_keepsMode (run : State) (target : Nat) : (transfer run target).KeepsMode run := by
  unfold transfer
  split <;> rfl

@[simp] theorem State.markWriter_confidential (s0 run : State) (h : Hdr) (k dst : Nat) :
    (s0.markWriter run h k dst).pkg.confidential = run.pkg.confidential := by simp [State.markWriter]

@[simp] theorem braOp_confidential (h : Hdr) (s : State) : (braOp h s).pkg.confidential = s.pkg.confidential := by
  unfold braOp
  refine (State.redirect_confidential ..).trans ((runLanes_confidential (fun s0 part k v run => ?_) _).trans ?_) <;> simp

@[simp] theorem brxOp_confidential (h : Hdr) (s : State) : (brxOp h s).pkg.confidential = s.pkg.confidential := by
  unfold brxOp
  refine runLanes_confidential (fun s0 part k v run => ?_) s
  simp

@[simp] theorem callOp_confidential (h : Hdr) (ind : Bool) (s : State) :
    (callOp h ind s).pkg.confidential = s.pkg.confidential := by
  unfold callOp
  refine runLanes_confidential (fun s0 part k v run => ?_) s
  dsimp only
  (repeat' split) <;> simp

@[simp] theorem retOp_confidential (h : Hdr) (s : State) : (retOp h s).pkg.confidential = s.pkg.confidential := by
  unfold retOp
  refine runLanes_confidential (fun s0 part k v run => ?_) s
  simp

@[simp] theorem loopOp_confidential (h : Hdr) (s : State) : (loopOp h s).pkg.confidential = s.pkg.confidential := by
  unfold loopOp
  refine runLanes_confidential (fun s0 part k v run => ?_) s
  dsimp only
  (repeat' split) <;> simp

@[simp] theorem exitOp_confidential (h : Hdr) (s : State) : (exitOp h s).pkg.confidential = s.pkg.confidential := by
  unfold exitOp
  refine runLanes_confidential (fun s0 part k v run => ?_) s
  simp

@[simp] theorem yieldOp_confidential (h : Hdr) (s : State) : (yieldOp h s).pkg.confidential = s.pkg.confidential := by
  unfold yieldOp
  refine runLanes_confidential (fun s0 part k v run => ?_) s
  simp

@[simp] theorem nopOp_confidential (h : Hdr) (s : State) : (nopOp h s).pkg.confidential = s.pkg.confidential := by
  unfold nopOp
  refine runLanes_confidential (fun s0 part k v run => ?_) s
  simp

@[simp] theorem sleepOp_confidential (h : Hdr) (s : State) : (sleepOp h s).pkg.confidential = s.pkg.confidential := by
  unfold sleepOp
  refine runLanes_confidential (fun s0 part k v run => ?_) s
  split <;> simp

@[simp] theorem State.arriveBar_confidential (s : State) (k id b : Nat) :
    (s.arriveBar k id b).pkg.confidential = s.pkg.confidential := by simp [State.arriveBar]

@[simp] theorem barrierOp_confidential (opc : Nat) (h : Hdr) (id : BitVec 4) (waits : Bool) (s : State) :
    (barrierOp opc h id waits s).pkg.confidential = s.pkg.confidential := by
  unfold barrierOp
  refine runLanes_confidential (fun s0 part k v run => ?_) s
  split <;> simp

@[simp] theorem barOp_confidential (h : Hdr) (id : BitVec 4) (s : State) :
    (barOp h id s).pkg.confidential = s.pkg.confidential := by simp [barOp]

@[simp] theorem baraOp_confidential (h : Hdr) (id : BitVec 4) (s : State) :
    (baraOp h id s).pkg.confidential = s.pkg.confidential := by simp [baraOp]

@[simp] theorem State.launchChild_confidential (s : State) (k : Nat) (bytes : List Byte) :
    (s.launchChild k bytes).1.pkg.confidential = s.pkg.confidential := by
  unfold State.launchChild
  dsimp only
  split <;> simp

@[simp] theorem launchOp_confidential (h : Hdr) (s : State) :
    (launchOp h s).pkg.confidential = s.pkg.confidential := by
  unfold launchOp
  refine runLanes_confidential (fun s0 part k v run => ?_) s
  dsimp only
  (repeat' split) <;> simp

@[simp] theorem State.joinChildren_confidential (s : State) (k hnd bound : Nat) :
    (s.joinChildren k hnd bound).pkg.confidential = s.pkg.confidential := by simp [State.joinChildren]

@[simp] theorem cjoinOp_confidential (h : Hdr) (s : State) : (cjoinOp h s).pkg.confidential = s.pkg.confidential := by
  unfold cjoinOp
  refine runLanes_confidential (fun s0 part k v run => ?_) s
  dsimp only
  (repeat' split) <;> simp

@[simp] theorem State.modRejoin_confidential (s : State) (g j : Nat)
    (f : BitVec 32 × BitVec 32 → BitVec 32 × BitVec 32) :
    (s.modRejoin g j f).pkg.confidential = s.pkg.confidential := by simp [State.modRejoin]

@[simp] theorem rjenOp_confidential (h : Hdr) (j : BitVec 3) (s : State) :
    (rjenOp h j s).pkg.confidential = s.pkg.confidential := by
  unfold rjenOp
  refine runLanes_confidential (fun s0 part k v run => ?_) s
  simp

@[simp] theorem rjwaitOp_confidential (h : Hdr) (j : BitVec 3) (s : State) :
    (rjwaitOp h j s).pkg.confidential = s.pkg.confidential := by
  unfold rjwaitOp
  refine runLanes_confidential (fun s0 part k v run => ?_) s
  dsimp only
  (repeat' split) <;> simp

@[simp] theorem rjleaveOp_confidential (h : Hdr) (j : BitVec 3) (s : State) :
    (rjleaveOp h j s).pkg.confidential = s.pkg.confidential := by
  unfold rjleaveOp
  refine runLanes_confidential (fun s0 part k v run => ?_) s
  simp

/-! ### Fences, continuations and arrival words -/

@[simp] theorem fenceOp_confidential (h : Hdr) (sc : BitVec 3) (s : State) :
    (fenceOp h sc s).pkg.confidential = s.pkg.confidential := by
  unfold fenceOp
  refine runLanes_confidential (fun s0 part k v run => ?_) s
  split <;> simp

@[simp] theorem State.register_confidential (s : State) (m : Monitor) :
    (s.register m).pkg.confidential = s.pkg.confidential := by simp [State.register]

@[simp] theorem waitcOp_confidential (h : Hdr) (live : BitVec 5) (cnd : BitVec 2) (s : State) :
    (waitcOp h live cnd s).pkg.confidential = s.pkg.confidential := by
  unfold waitcOp
  refine runLanes_confidential (fun s0 part k v run => ?_) s
  dsimp only
  (repeat' split) <;> simp

@[simp] theorem State.releaseWaitg_confidential (s : State) (b off : Nat) :
    (s.releaseWaitg b off).pkg.confidential = s.pkg.confidential := by
  unfold State.releaseWaitg
  refine foldl_confidential (fun u kt => ?_) _ _
  (repeat' split) <;> simp

@[simp] theorem State.updateArrival_confidential (s : State) (b off : Nat) (f : Nat → Nat) (test : Bool) :
    (s.updateArrival b off f test).pkg.confidential = s.pkg.confidential := by simp [State.updateArrival]

@[simp] theorem State.countArrival_confidential (s : State) (b off n : Nat) :
    (s.countArrival b off n).pkg.confidential = s.pkg.confidential := by simp [State.countArrival]

@[simp] theorem waitgOp_confidential (h : Hdr) (s : State) : (waitgOp h s).pkg.confidential = s.pkg.confidential := by
  unfold waitgOp
  refine runLanes_confidential (fun s0 part k v run => ?_) s
  dsimp only
  (repeat' split) <;> simp

@[simp] theorem armwOp_confidential (h : Hdr) (s : State) : (armwOp h s).pkg.confidential = s.pkg.confidential := by
  unfold armwOp
  refine runLanes_confidential (fun s0 part k v run => ?_) s
  split <;> simp

@[simp] theorem arrvOp_confidential (h : Hdr) (s : State) : (arrvOp h s).pkg.confidential = s.pkg.confidential := by
  unfold arrvOp
  refine runLanes_confidential (fun s0 part k v run => ?_) s
  (repeat' split) <;> simp

/-! ### Capsules -/

@[simp] theorem capsTrap_keepsMode (run : State) (t : Thread) (why : Nat) : (capsTrap run t why).KeepsMode run := rfl

theorem recordPlace_keepsMode {s0 run : State} {k va : Nat} {acc : Acc} {l : Lane}
    (h : recordPlace s0 run k va acc = .error l) : l.KeepsMode run := by
  unfold recordPlace at h
  dsimp only at h
  (repeat' split at h) <;> cases h <;> trivial

@[simp] theorem State.newIdent_confidential (s : State) (k : Nat) :
    (s.newIdent k).1.pkg.confidential = s.pkg.confidential := by simp [State.newIdent]

@[simp] theorem capsOp_confidential (h : Hdr) (ns : BitVec 5) (s : State) :
    (capsOp h ns s).pkg.confidential = s.pkg.confidential := by
  unfold capsOp
  refine runLanes_confidential (fun s0 part k v run => ?_) s
  dsimp only
  split
  · simp
  · split
    · simp
    · split
      next hl => exact recordPlace_keepsMode hl
      next => (repeat' split) <;> simp

theorem stepAccess_keepsMode {s0 run : State} {h : Hdr} {k va : Nat} {acc : Acc} {l : Lane}
    (hl : stepAccess s0 run h k va acc = .error l) : l.KeepsMode run := by
  unfold stepAccess at hl
  dsimp only at hl
  (repeat' split at hl) <;> cases hl <;> simp

@[simp] theorem cldOp_confidential (h : Hdr) (s : State) : (cldOp h s).pkg.confidential = s.pkg.confidential := by
  unfold cldOp
  refine runLanes_confidential (fun s0 part k v run => ?_) s
  split
  next hl => exact stepAccess_keepsMode hl
  next => simp

@[simp] theorem cstOp_confidential (h : Hdr) (s : State) : (cstOp h s).pkg.confidential = s.pkg.confidential := by
  unfold cstOp
  refine runLanes_confidential (fun s0 part k v run => ?_) s
  split
  next hl => exact stepAccess_keepsMode hl
  next => simp

@[simp] theorem State.refused_confidential (s : State) (k pa : Nat) (c : Capsule) :
    (s.refused k pa c).pkg.confidential = s.pkg.confidential := by
  unfold State.refused
  (repeat' split) <;> simp

@[simp] theorem cendOp_confidential (h : Hdr) (s : State) : (cendOp h s).pkg.confidential = s.pkg.confidential := by
  unfold cendOp
  refine runLanes_confidential (fun s0 part k v run => ?_) s
  dsimp only
  (repeat' split) <;> simp

@[simp] theorem cadoptOp_confidential (h : Hdr) (s : State) : (cadoptOp h s).pkg.confidential = s.pkg.confidential := by
  unfold cadoptOp
  refine runLanes_confidential (fun s0 part k v run => ?_) s
  dsimp only
  split
  · simp
  · split
    · simp
    · split
      · rfl
      · split
        next hl => exact recordPlace_keepsMode hl
        next => (repeat' split) <;> simp

@[simp] theorem cqryOp_confidential (h : Hdr) (s : State) : (cqryOp h s).pkg.confidential = s.pkg.confidential := by
  unfold cqryOp
  refine runLanes_confidential (fun s0 part k v run => ?_) s
  split
  next hl => exact recordPlace_keepsMode hl
  next => simp

@[simp] theorem State.trapBetween_confidential (s : State) (k cause info : Nat) :
    (s.trapBetween k cause info).pkg.confidential = s.pkg.confidential := by simp [State.trapBetween]

@[simp] theorem State.enterFor_confidential (s : State) (q : Req) (g : Nat) :
    (s.enterFor q g).pkg.confidential = s.pkg.confidential := by simp [State.enterFor]

@[simp] theorem State.failReq_confidential (s : State) (r : Nat) (q : Req) (acked : Bool) :
    (s.failReq r q acked).pkg.confidential = s.pkg.confidential := by simp [State.failReq]

@[simp] theorem State.failRead_confidential (s : State) (r : Nat) (q : Req) :
    (s.failRead r q).pkg.confidential = s.pkg.confidential := by simp [State.failRead]

@[simp] theorem State.sluiceWrite_confidential (s : State) (core : Option Nat) (sync : Bool) (pa : Nat)
    (bs : List Byte) :
    (s.sluiceWrite core sync pa bs).1.pkg.confidential = s.pkg.confidential := by simp [State.sluiceWrite]

@[simp] theorem State.cstStore_confidential (s : State) (core : Nat) (a : StepAccess) (w : Word) :
    (s.cstStore core a w).1.pkg.confidential = s.pkg.confidential := by
  unfold State.cstStore
  split <;> simp

@[simp] theorem State.touchWords_confidential (s : State) (x0 : ReqKind) :
    (s.touchWords x0).pkg.confidential = s.pkg.confidential := by
  unfold State.touchWords
  (repeat' split) <;> simp

@[simp] theorem commitOp_confidential (r : Nat) (s : State) :
    (commitOp r s).pkg.confidential = s.pkg.confidential := by
  unfold commitOp
  dsimp only
  (repeat' split) <;> simp

/-! ### Power tokens -/

@[simp] theorem State.toPool_confidential (s : State) (p keep : Nat) :
    (s.toPool p keep).pkg.confidential = s.pkg.confidential := by simp [State.toPool]

@[simp] theorem State.flowIdle_confidential (s : State) :
    s.flowIdle.pkg.confidential = s.pkg.confidential := by simp [State.flowIdle]

@[simp] theorem State.startInterval_confidential (s : State) :
    s.startInterval.pkg.confidential = s.pkg.confidential := by simp [State.startInterval]

@[simp] theorem State.midInterval_confidential (s : State) :
    s.midInterval.pkg.confidential = s.pkg.confidential := by simp [State.midInterval]

@[simp] theorem State.drawTokens_confidential (n : Nat) (s : State) :
    (s.drawTokens n).pkg.confidential = s.pkg.confidential := by
  induction n generalizing s with
  | zero => rfl
  | succ n ih =>
    unfold State.drawTokens
    split
    · rfl
    · split
      · rfl
      · exact ih _

@[simp] theorem State.accrue_confidential (s : State) (p : Nat) :
    (s.accrue p).pkg.confidential = s.pkg.confidential := by simp [State.accrue]

@[simp] theorem State.accrueIdle_confidential (s : State) : s.accrueIdle.pkg.confidential = s.pkg.confidential := by
  unfold State.accrueIdle
  split <;> simp

@[simp] theorem State.stretchCores_confidential (s : State) :
    s.stretchCores.pkg.confidential = s.pkg.confidential := by simp [State.stretchCores]

/-! ### Stash windows -/

@[simp] theorem State.oweGwct_confidential (s : State) (k pa g : Nat) :
    (s.oweGwct k pa g).pkg.confidential = s.pkg.confidential := by simp [State.oweGwct]

@[simp] theorem State.carryBad_confidential (s : State) (b w line : Nat) (la : Nat) :
    (s.carryBad b w line la).pkg.confidential = s.pkg.confidential := by
  unfold State.carryBad
  split <;> simp

@[simp] theorem State.writeBackLine_confidential (s : State) (b w line : Nat) (k : Option Nat) (keep : Bool) :
    (s.writeBackLine b w line k keep).pkg.confidential = s.pkg.confidential := by
  unfold State.writeBackLine
  (repeat' split) <;> simp

@[simp] theorem State.writeBack_confidential (s : State) (b w : Nat) (k : Option Nat) :
    (s.writeBack b w k).pkg.confidential = s.pkg.confidential := by
  unfold State.writeBack
  split <;> simp

@[simp] theorem State.unmap_confidential (s : State) (b w : Nat) :
    (s.unmap b w).pkg.confidential = s.pkg.confidential := by
  unfold State.unmap
  split <;> simp

@[simp] theorem State.releaseWindow_confidential (s : State) (b w : Nat) (k : Option Nat) :
    (s.releaseWindow b w k).pkg.confidential = s.pkg.confidential := by simp [State.releaseWindow]

@[simp] theorem State.releaseWindows_confidential (s : State) (b : Nat) :
    (s.releaseWindows b).pkg.confidential = s.pkg.confidential := by simp [State.releaseWindows]

@[simp] theorem State.askLines_confidential (s : State) (k b w va : Nat) (pas : List Nat) :
    (s.askLines k b w va pas).pkg.confidential = s.pkg.confidential := by simp [State.askLines]

@[simp] theorem State.sendBack_confidential (s : State) (k b w : Nat) :
    (s.sendBack k b w).pkg.confidential = s.pkg.confidential := by simp [State.sendBack]

@[simp] theorem State.partWindow_confidential (s : State) (k b w : Nat) (wb : Bool) :
    (s.partWindow k b w wb).pkg.confidential = s.pkg.confidential := by
  unfold State.partWindow
  split <;> simp

@[simp] theorem State.endParting_confidential (s : State) (b w : Nat) :
    (s.endParting b w).pkg.confidential = s.pkg.confidential := by
  unfold State.endParting
  split <;> simp

@[simp] theorem smapOp_confidential (h : Hdr) (w : BitVec 3) (s : State) :
    (smapOp h w s).pkg.confidential = s.pkg.confidential := by
  unfold smapOp
  refine runLanes_confidential (fun s0 part k v run => ?_) s
  dsimp only
  (repeat' split) <;> simp

@[simp] theorem swbOp_confidential (h : Hdr) (w : BitVec 3) (s : State) :
    (swbOp h w s).pkg.confidential = s.pkg.confidential := by
  unfold swbOp
  refine runLanes_confidential (fun s0 part k v run => ?_) s
  split <;> simp

@[simp] theorem sinvOp_confidential (h : Hdr) (w : BitVec 3) (wb : Bool) (s : State) :
    (sinvOp h w wb s).pkg.confidential = s.pkg.confidential := by
  unfold sinvOp
  refine runLanes_confidential (fun s0 part k v run => ?_) s
  split <;> simp

@[simp] theorem State.recallLine_confidential (s : State) (la : Nat) (own : Nat × Nat × Nat) :
    (s.recallLine la own).pkg.confidential = s.pkg.confidential := by simp [State.recallLine]

theorem State.takeLine_confidential {s t : State} {b w i la : Nat} (h : s.takeLine b w i la = some t) :
    t.pkg.confidential = s.pkg.confidential := by
  unfold State.takeLine at h
  split at h
  · cases h
  · cases h
    (repeat' split) <;> simp

@[simp] theorem State.fillLine_confidential (s : State) (b w line : Nat) (W : Stash) :
    (s.fillLine b w line W).pkg.confidential = s.pkg.confidential := by simp [State.fillLine]

/-! ### The lease machine -/

@[simp] theorem State.perform_confidential (s : State) (r v g : Nat) :
    (s.perform r v g).pkg.confidential = s.pkg.confidential := by simp [State.perform]

@[simp] theorem evictOp_confidential (c o la : Nat) (s : State) :
    (evictOp c o la s).pkg.confidential = s.pkg.confidential := by simp [evictOp]

@[simp] theorem readL1Op_confidential (r : Nat) (s : State) :
    (readL1Op r s).pkg.confidential = s.pkg.confidential := by
  unfold readL1Op
  (repeat' split) <;> simp

@[simp] theorem State.grantLease_confidential (s : State) (q : Req) :
    (s.grantLease q).pkg.confidential = s.pkg.confidential := by simp [State.grantLease]

@[simp] theorem State.fillL2_confidential (s : State) (q : Req) :
    (s.fillL2 q).pkg.confidential = s.pkg.confidential := by simp [State.fillL2]

@[simp] theorem State.readFine_confidential (s : State) (q : Req) :
    (s.readFine q).pkg.confidential = s.pkg.confidential := by simp [State.readFine]

@[simp] theorem readHomeOp_confidential (r : Nat) (s : State) :
    (readHomeOp r s).pkg.confidential = s.pkg.confidential := by
  unfold readHomeOp
  (repeat' split) <;> simp

@[simp] theorem recallOp_confidential (r : Nat) (s : State) :
    (recallOp r s).pkg.confidential = s.pkg.confidential := by
  unfold recallOp
  split <;> simp

@[simp] theorem writeHomeOp_confidential (r : Nat) (s : State) :
    (writeHomeOp r s).pkg.confidential = s.pkg.confidential := by
  unfold writeHomeOp
  dsimp only
  (repeat' split) <;> simp

@[simp] theorem rmwHomeOp_confidential (r : Nat) (s : State) :
    (rmwHomeOp r s).pkg.confidential = s.pkg.confidential := by
  unfold rmwHomeOp
  (repeat' split) <;> simp

@[simp] theorem ticketOp_confidential (r : Nat) (s : State) :
    (ticketOp r s).pkg.confidential = s.pkg.confidential := by
  unfold ticketOp
  split <;> simp

@[simp] theorem sluiceOpOp_confidential (r : Nat) (s : State) :
    (sluiceOpOp r s).pkg.confidential = s.pkg.confidential := by
  unfold sluiceOpOp
  (repeat' split) <;> simp

@[simp] theorem lineStoreEvictOp_confidential (la : Nat) (s : State) :
    (lineStoreEvictOp la s).pkg.confidential = s.pkg.confidential := by simp [lineStoreEvictOp]

@[simp] theorem l2EvictOp_confidential (la : Nat) (s : State) :
    (l2EvictOp la s).pkg.confidential = s.pkg.confidential := by simp [l2EvictOp]

@[simp] theorem State.deliver_confidential (s : State) (q : Req) (d : Dest) (v : Nat) :
    (s.deliver q d v).pkg.confidential = s.pkg.confidential := by simp [State.deliver]

@[simp] theorem State.remember_confidential (s : State) (q : Req) (key v : Nat) :
    (s.remember q key v).pkg.confidential = s.pkg.confidential := by simp [State.remember]

@[simp] theorem loadReturnOp_confidential (r : Nat) (s : State) :
    (loadReturnOp r s).pkg.confidential = s.pkg.confidential := by
  unfold loadReturnOp
  (repeat' split) <;> simp

@[simp] theorem gwctReturnOp_confidential (r : Nat) (s : State) :
    (gwctReturnOp r s).pkg.confidential = s.pkg.confidential := by
  unfold gwctReturnOp
  (repeat' split) <;> simp

@[simp] theorem State.hostPerform_confidential (s : State) (q : Req) :
    (s.hostPerform q).1.pkg.confidential = s.pkg.confidential := by
  unfold State.hostPerform
  split <;> simp

@[simp] theorem State.dropCompletion_confidential (s : State) (r : Nat) (q : Req) :
    (s.dropCompletion r q).pkg.confidential = s.pkg.confidential := by simp [State.dropCompletion]

@[simp] theorem hostPathCompletionOp_confidential (r : Nat) (ok : Bool) (s : State) :
    (hostPathCompletionOp r ok s).pkg.confidential = s.pkg.confidential := by
  unfold hostPathCompletionOp
  split <;> simp

@[simp] theorem requestTimeoutOp_confidential (r : Nat) (s : State) :
    (requestTimeoutOp r s).pkg.confidential = s.pkg.confidential := by
  unfold requestTimeoutOp
  split <;> simp

@[simp] theorem State.writeScratch_confidential (s : State) (b off : Nat) (bs : List Byte) :
    (s.writeScratch b off bs).pkg.confidential = s.pkg.confidential := by simp [State.writeScratch]

@[simp] theorem State.spadPerform_confidential (s : State) (r : Nat) (q : Req) :
    (s.spadPerform r q).pkg.confidential = s.pkg.confidential := by
  unfold State.spadPerform
  split <;> simp

@[simp] theorem spadMove_confidential (core : Nat) (s : State) :
    (spadMove core s).pkg.confidential = s.pkg.confidential := by
  unfold spadMove
  (repeat' split) <;> simp

/-- A computation that may fail and succeeded: its first part did, and the rest after it. -/
theorem except_bind_eq_ok {ε α β : Type} {x : Except ε α} {f : α → Except ε β} {b : β} (h : x >>= f = .ok b) :
    ∃ a, x = .ok a ∧ f a = .ok b := by
  cases x with
  | error e => cases h
  | ok a => exact ⟨a, rfl, h⟩

/-! ### Integer instructions -/

@[simp] theorem iadcOp_confidential (h : Hdr) (cp : BitVec 3) (sub : Bool) (s : State) :
    (iadcOp h cp sub s).pkg.confidential = s.pkg.confidential := by
  unfold iadcOp
  refine runLanes_confidential (fun s0 part k v run => ?_) s
  simp

/-! ### Floating-point instructions -/

@[simp] theorem runFloat_confidential (opc : Nat) (h : Hdr) (fm : Form) (rnd : Nat) (f : RCtx → Vals → Nat × Events)
    (s : State) :
    (runFloat opc h fm rnd f s).pkg.confidential = s.pkg.confidential := by simp [runFloat]

/-! ### Packed instructions -/

@[simp] theorem runHalf_confidential (opc : Nat) (h : Hdr) (fm : Form) (rnd : Nat) (bf : Bool)
    (f : Fmt → RCtx → FVal → FVal → FVal → Nat × Events) (s : State) :
    (runHalf opc h fm rnd bf f s).pkg.confidential = s.pkg.confidential := by simp [runHalf]

/-! ### Matrix operations -/

@[simp] theorem State.mxLatch_confidential (s : State) (e part : Nat) (o : MxOp) :
    (s.mxLatch e part o).pkg.confidential = s.pkg.confidential := by
  unfold State.mxLatch
  (repeat' split) <;> simp

@[simp] theorem State.mxTouch_confidential (s : State) (o : MxOp) :
    (s.mxTouch o).pkg.confidential = s.pkg.confidential := by simp [State.mxTouch]

@[simp] theorem State.mxFinishRow_confidential (s0 : State) (e : Nat) (o : MxOp) (s : State) (k : Nat) :
    (s0.mxFinishRow e o s k).pkg.confidential = s.pkg.confidential := by
  unfold State.mxFinishRow
  dsimp only
  split <;> rfl

@[simp] theorem State.mxPart_confidential (s : State) (e part : Nat) (o : MxOp) :
    (s.mxPart e part o).pkg.confidential = s.pkg.confidential := by simp [State.mxPart]

@[simp] theorem State.endMwait_confidential (s : State) (k mask len bound : Nat) :
    (s.endMwait k mask len bound).pkg.confidential = s.pkg.confidential := by
  unfold State.endMwait
  split <;> simp

@[simp] theorem State.testMwait_confidential (s : State) (g : Nat) :
    (s.testMwait g).pkg.confidential = s.pkg.confidential := by
  unfold State.testMwait
  refine foldl_confidential (fun u kt => ?_) _ _
  (repeat' split) <;> simp

@[simp] theorem mxuOpCompleteOp_confidential (e : Nat) (s : State) :
    (mxuOpCompleteOp e s).pkg.confidential = s.pkg.confidential := by
  unfold mxuOpCompleteOp
  dsimp only
  (repeat' split) <;> simp

@[simp] theorem State.accept_confidential (s : State) (q : MxReq) (ks : List Nat) :
    (s.accept q ks).pkg.confidential = s.pkg.confidential := by
  unfold State.accept
  exact (foldl_confidential (fun _ _ => by rfl) _ _).trans (foldl_confidential (fun _ _ => by rfl) _ _)

@[simp] theorem mxIssue_keepsMode (q : MxReq) (s0 run : State) (ks : List Nat) (l0 : Nat) :
    (mxIssue q s0 run ks l0).KeepsMode run := by
  unfold mxIssue
  dsimp only
  (repeat' split) <;> simp

@[simp] theorem mxOp_confidential (opc : Nat) (h : Hdr) (kind : MxKind) (asp pm : Bool) (str : BitVec 2) (b : Cls)
    (s : State) :
    (mxOp opc h kind asp pm str b s).pkg.confidential = s.pkg.confidential := by
  unfold mxOp
  refine runOnce_confidential (fun s0 run ks k v => ?_) s
  simp

@[simp] theorem mmaOp_confidential (h : Hdr) (ty : BitVec 3) (asp pm : Bool) (str : BitVec 2) (rnd : BitVec 3)
    (s : State) :
    (mmaOp h ty asp pm str rnd s).pkg.confidential = s.pkg.confidential := by simp [mmaOp]

@[simp] theorem mmaiOp_confidential (h : Hdr) (ty : BitVec 3) (asp pm : Bool) (str : BitVec 2) (sat : Bool)
    (s : State) :
    (mmaiOp h ty asp pm str sat s).pkg.confidential = s.pkg.confidential := by simp [mmaiOp]

@[simp] theorem mmabOp_confidential (h : Hdr) (ty : BitVec 3) (asp pm : Bool) (str : BitVec 2) (rnd : BitVec 3)
    (s : State) :
    (mmabOp h ty asp pm str rnd s).pkg.confidential = s.pkg.confidential := by simp [mmabOp]

@[simp] theorem mmasOp_confidential (h : Hdr) (ty : BitVec 3) (asp pm : Bool) (str : BitVec 2) (rnd : BitVec 3) (sat : Bool)
    (s : State) :
    (mmasOp h ty asp pm str rnd sat s).pkg.confidential = s.pkg.confidential := by simp [mmasOp]

@[simp] theorem mzeroOp_confidential (h : Hdr) (pm : Bool) (str : BitVec 2) (s : State) :
    (mzeroOp h pm str s).pkg.confidential = s.pkg.confidential := by
  unfold mzeroOp
  refine runOnce_confidential (fun s0 run ks k v => ?_) s
  simp

@[simp] theorem moprOp_confidential (h : Hdr) (s : State) : (moprOp h s).pkg.confidential = s.pkg.confidential := by
  unfold moprOp
  refine runLanes_confidential (fun s0 part k v run => ?_) s
  split <;> simp

@[simp] theorem mwaitOp_confidential (h : Hdr) (smask : BitVec 4) (s : State) :
    (mwaitOp h smask s).pkg.confidential = s.pkg.confidential := by
  unfold mwaitOp
  refine runLanes_confidential (fun s0 part k v run => ?_) s
  dsimp only
  (repeat' split) <;> simp

@[simp] theorem tmvOp_confidential (h : Hdr) (m1 n1 : BitVec 3) (bf : Bool) (s : State) :
    (tmvOp h m1 n1 bf s).pkg.confidential = s.pkg.confidential := by
  unfold tmvOp
  refine runLanes_confidential (fun s0 part k v run => ?_) s
  dsimp only
  (repeat' split) <;> simp

/-! ### Copy, gather and scatter engines -/

theorem State.engWrite_confidential {s : State} {o : EngOp} {va : Nat} {bs : List Byte} {r : State × Nat}
    (h : s.engWrite o va bs = .ok r) : r.1.pkg.confidential = s.pkg.confidential := by
  unfold State.engWrite at h
  obtain ⟨ps, -, h⟩ := except_bind_eq_ok h
  cases h
  refine foldl_fst_confidential (fun x p => ?_) _ _
  dsimp only
  (repeat' split) <;> simp

theorem State.moveElem_confidential {s : State} {o : EngOp} {toGlobal : Bool} {place : Option (Nat × Nat)}
    {mb off sh sb : Nat} {conv : Nat → Nat} {r : State × Nat} (h : s.moveElem o toGlobal place mb off sh sb conv = .ok r) :
    r.1.pkg.confidential = s.pkg.confidential := by
  unfold State.moveElem at h
  dsimp only at h
  split at h
  · split at h
    · cases h
      rfl
    · split at h
      · obtain ⟨x, -, h⟩ := except_bind_eq_ok h
        exact State.engWrite_confidential h
      · exact State.engWrite_confidential h
  · split at h
    · cases h
      simp
    · obtain ⟨bs, -, h⟩ := except_bind_eq_ok h
      cases h
      simp

theorem State.doPart_confidential {s : State} {o : EngOp} {part : Nat} {r : State × Nat} (h : s.doPart o part = .ok r) :
    r.1.pkg.confidential = s.pkg.confidential := by
  unfold State.doPart at h
  dsimp only at h
  split at h
  · split at h <;> exact State.moveElem_confidential h
  · exact State.moveElem_confidential h

@[simp] theorem State.hold_confidential (s : State) (e : Nat) (o : EngOp) (toGlobal : Bool) (kind va ipa : Nat)
    (walk : Bool) :
    (s.hold e o toGlobal kind va ipa walk).pkg.confidential = s.pkg.confidential := by simp [State.hold]

@[simp] theorem State.engPerform_confidential (s : State) (e part : Nat) (o : EngOp) :
    (s.engPerform e part o).pkg.confidential = s.pkg.confidential := by
  unfold State.engPerform
  split
  next h => exact State.doPart_confidential h
  next => rfl
  next => simp

@[simp] theorem State.engFar_confidential (s : State) (e part va pa : Nat) (o : EngOp) :
    (s.engFar e part va pa o).pkg.confidential = s.pkg.confidential := by
  unfold State.engFar
  split <;> simp

@[simp] theorem State.engPart_confidential (s : State) (e part : Nat) (o : EngOp) :
    (s.engPart e part o).pkg.confidential = s.pkg.confidential := by
  unfold State.engPart
  (repeat' split) <;> simp

@[simp] theorem enginePartOp_confidential (e part : Nat) (s : State) :
    (enginePartOp e part s).pkg.confidential = s.pkg.confidential := by
  unfold enginePartOp
  split <;> simp

@[simp] theorem State.endUnit_confidential (s : State) (e : Nat) (o : EngOp) :
    (s.endUnit e o).pkg.confidential = s.pkg.confidential := by
  unfold State.endUnit
  (repeat' split) <;> simp

@[simp] theorem copyChunkDoneOp_confidential (e : Nat) (s : State) :
    (copyChunkDoneOp e s).pkg.confidential = s.pkg.confidential := by
  unfold copyChunkDoneOp
  (repeat' split) <;> simp

@[simp] theorem gatherWindowDoneOp_confidential (e : Nat) (s : State) :
    (gatherWindowDoneOp e s).pkg.confidential = s.pkg.confidential := by
  unfold gatherWindowDoneOp
  (repeat' split) <;> simp

@[simp] theorem State.purgeOps_confidential (s : State) (k : Nat) :
    (s.purgeOps k).pkg.confidential = s.pkg.confidential := by simp [State.purgeOps]

@[simp] theorem State.deliverError_confidential (s : State) (k e : Nat) :
    (s.deliverError k e).pkg.confidential = s.pkg.confidential := by simp [State.deliverError]

@[simp] theorem State.testCpwait_confidential (s : State) (k : Nat) :
    (s.testCpwait k).pkg.confidential = s.pkg.confidential := by
  unfold State.testCpwait
  (repeat' split) <;> simp

@[simp] theorem engineOpCompleteOp_confidential (e : Nat) (s : State) :
    (engineOpCompleteOp e s).pkg.confidential = s.pkg.confidential := by
  unfold engineOpCompleteOp
  split <;> simp

@[simp] theorem cpwaitOp_confidential (h : Hdr) (s : State) :
    (cpwaitOp h s).pkg.confidential = s.pkg.confidential := by
  unfold cpwaitOp
  refine runLanes_confidential (fun s0 part k v run => ?_) s
  dsimp only
  (repeat' split) <;> simp

@[simp] theorem State.startEng_confidential (s : State) (k : Nat) (kind : EngKind) (arrival : Option Nat) :
    (s.startEng k kind arrival).pkg.confidential = s.pkg.confidential := by simp [State.startEng]

theorem arrivalBad_keepsMode {run : State} {scratch off : Nat} {l : Lane} (h : arrivalBad run scratch off = some l) :
    l.KeepsMode run := by
  unfold arrivalBad at h
  (repeat' split at h) <;> cases h <;> rfl

@[simp] theorem startLane_keepsMode (s0 run : State) (k : Nat) (kind : EngKind) (arv : Bool) (off : Nat) :
    (startLane s0 run k kind arv off).KeepsMode run := by
  unfold startLane
  split
  next l h =>
    split at h
    · exact arrivalBad_keepsMode h
    · cases h
  next => split <;> simp

theorem shapeFound_keepsMode {s0 run : State} {k r : Nat} {l : Lane} (h : shapeFound s0 run k r = .error l) :
    l.KeepsMode run := by
  unfold shapeFound at h
  (repeat' split at h) <;> cases h <;> simp

@[simp] theorem tcopyOp_confidential (h : Hdr) (dir : Bool) (sf : BitVec 3) (sr arv : Bool) (s : State) :
    (tcopyOp h dir sf sr arv s).pkg.confidential = s.pkg.confidential := by
  unfold tcopyOp
  refine runLanes_confidential (fun s0 part k v run => ?_) s
  dsimp only
  split
  · simp
  · split
    next hl => exact shapeFound_keepsMode hl
    next =>
      split
      · simp
      · split
        · simp
        · split
          · simp
          · exact (startLane_keepsMode ..).trans (by simp)

@[simp] theorem rcfenceOp_confidential (h : Hdr) (all : Bool) (s : State) :
    (rcfenceOp h all s).pkg.confidential = s.pkg.confidential := by
  unfold rcfenceOp
  refine runOnce_confidential (fun s0 run ks k v => ?_) s
  dsimp only
  (repeat' split) <;> simp

@[simp] theorem gatherOp_confidential (opc : Nat) (toGlobal : Bool) (h : Hdr) (sz : BitVec 2) (u arv : Bool)
    (s : State) :
    (gatherOp opc toGlobal h sz u arv s).pkg.confidential = s.pkg.confidential := by
  unfold gatherOp
  refine runLanes_confidential (fun s0 part k v run => ?_) s
  dsimp only
  (repeat' split) <;> simp

@[simp] theorem gathOp_confidential (h : Hdr) (sz : BitVec 2) (u arv : Bool) (s : State) :
    (gathOp h sz u arv s).pkg.confidential = s.pkg.confidential := by simp [gathOp]

@[simp] theorem scatOp_confidential (h : Hdr) (sz : BitVec 2) (u arv : Bool) (s : State) :
    (scatOp h sz u arv s).pkg.confidential = s.pkg.confidential := by simp [scatOp]

/-! ### Harrow cursors -/

@[simp] theorem State.setCursor_confidential (s : State) (q n : Nat) (c : Cursor) :
    (s.setCursor q n c).pkg.confidential = s.pkg.confidential := by simp [State.setCursor]

@[simp] theorem State.askFor_keepsMode (s0 run : State) (k n size key va : Nat) :
    (s0.askFor run k n size key va).KeepsMode run := by
  unfold State.askFor
  split
  next => simp
  next h => simpa using State.askWords_confidential h

@[simp] theorem State.endDraw_confidential (s : State) (q n : Nat) :
    (s.endDraw q n).pkg.confidential = s.pkg.confidential := by simp [State.endDraw]

@[simp] theorem hsetLoad_confidential (opc : Nat) (full : Bool) (h : Hdr) (hc : BitVec 2) (s : State) :
    (hsetLoad opc full h hc s).pkg.confidential = s.pkg.confidential := by
  unfold hsetLoad
  refine runOnce_confidential (fun s0 run ks k v => ?_) s
  dsimp only
  (repeat' split) <;> simp

@[simp] theorem hsetOp_confidential (h : Hdr) (hc : BitVec 2) (s : State) :
    (hsetOp h hc s).pkg.confidential = s.pkg.confidential := by simp [hsetOp]

@[simp] theorem hloadOp_confidential (h : Hdr) (hc : BitVec 2) (s : State) :
    (hloadOp h hc s).pkg.confidential = s.pkg.confidential := by simp [hloadOp]

@[simp] theorem hsaveOp_confidential (h : Hdr) (hc : BitVec 2) (s : State) :
    (hsaveOp h hc s).pkg.confidential = s.pkg.confidential := by
  unfold hsaveOp
  refine runOnce_confidential (fun s0 run ks k v => ?_) s
  dsimp only
  (repeat' split) <;> simp

@[simp] theorem hstatOp_confidential (h : Hdr) (hc : BitVec 2) (s : State) :
    (hstatOp h hc s).pkg.confidential = s.pkg.confidential := by
  unfold hstatOp
  refine runLanes_confidential (fun s0 part k v run => ?_) s
  (repeat' split) <;> simp

@[simp] theorem State.takeSurvivor_confidential (s : State) (k dst pv : Nat) (d : Draw) :
    (s.takeSurvivor k dst pv d).pkg.confidential = s.pkg.confidential := by
  unfold State.takeSurvivor
  dsimp only
  (repeat' split) <;> simp

@[simp] theorem hnextOp_confidential (h : Hdr) (hc : BitVec 2) (pv : BitVec 3) (s : State) :
    (hnextOp h hc pv s).pkg.confidential = s.pkg.confidential := by
  unfold hnextOp
  refine runLanes_confidential (fun s0 part k v run => ?_) s
  extract_lets ks l0 q first
  split
  · simp
  split
  · simp
  split
  · simp
  next key va size c _ =>
    have ha := State.askFor_keepsMode s0 run l0 hc.toNat size key va
    split
    next => split <;> simp
    next hl =>
      rw [hl] at ha
      split
      · exact ha
      · trivial
    next => simp
    next => exact ha
  next => simp
  next =>
    dsimp only
    split <;> simp

/-! ### The instruction cache -/

@[simp] theorem State.fillCode_confidential (s : State) (c o pc : Nat) (ipref : Bool) :
    (s.fillCode c o pc ipref).pkg.confidential = s.pkg.confidential := by simp [State.fillCode]

@[simp] theorem State.touchCode_confidential (s : State) (c o pc : Nat) :
    (s.touchCode c o pc).pkg.confidential = s.pkg.confidential := by simp [State.touchCode]

@[simp] theorem State.askAhead_confidential (s : State) (c o line : Nat) (ipref : Bool) :
    (s.askAhead c o line ipref).pkg.confidential = s.pkg.confidential := by simp [State.askAhead]

@[simp] theorem State.hintFills_confidential (s : State) (c o : Nat) (i : Instr) (pc : Nat) :
    (s.hintFills c o i pc).pkg.confidential = s.pkg.confidential := by simp [State.hintFills]

@[simp] theorem icacheFillOp_confidential (c o pc : Nat) (s : State) :
    (icacheFillOp c o pc s).pkg.confidential = s.pkg.confidential := by
  unfold icacheFillOp
  split
  · split
    · rfl
    · dsimp only
      split <;> simp
  · exact (foldl_confidential (fun _ _ => by rfl) _ _).trans (State.fillCode_confidential ..)

/-! ### Selection and deferral -/

@[simp] theorem State.endDeferral_confidential (s : State) (q : Nat) (d : Bundle × Nat) :
    (s.endDeferral q d).pkg.confidential = s.pkg.confidential := by simp [State.endDeferral]

@[simp] theorem State.endDeferrals_confidential (s : State) (q : Nat) :
    (s.endDeferrals q).pkg.confidential = s.pkg.confidential := by simp [State.endDeferrals]

@[simp] theorem State.endCycle_confidential (s : State) (q : Nat) :
    (s.endCycle q).pkg.confidential = s.pkg.confidential := by simp [State.endCycle]

@[simp] theorem State.learnCht_confidential (before s : State) (b : Bundle) (i : Instr) :
    (before.learnCht s b i).pkg.confidential = s.pkg.confidential := by
  unfold State.learnCht
  split
  · rfl
  · extract_lets k0 q pc c o Q learn fresh met s1 rest ended
    have hl (f : Bank → Bank) (u : State) : (learn f u).pkg.confidential = u.pkg.confidential := by
      unfold learn
      split <;> simp
    have h1 : s1.pkg.confidential = s.pkg.confidential := foldl_confidential (fun _ _ => hl ..) _ _
    clear_value ended s1 learn
    split <;> simp [hl, h1]

/-! ### Contexts and packets -/

@[simp] theorem State.writeIpaRun_confidential (s : State) (p ipa : Nat) (bs : List Byte) :
    (s.writeIpaRun p ipa bs).1.pkg.confidential = s.pkg.confidential := by
  rw [State.writeIpaRun]
  refine foldl_fst_confidential (fun x i => ?_) _ _
  extract_lets a
  clear_value a
  split <;> simp

@[simp] theorem State.writeIpa_confidential (s : State) (p ipa : Nat) (bs : List Byte) :
    (s.writeIpa p ipa bs).pkg.confidential = s.pkg.confidential := by
  rw [State.writeIpa, State.writeIpaRun_confidential]

@[simp] theorem State.ensureCtx_confidential (s : State) (p x : Nat) :
    (s.ensureCtx p x).pkg.confidential = s.pkg.confidential := by
  unfold State.ensureCtx
  split <;> simp

@[simp] theorem State.abortBuilds_confidential (s : State) (c x : Nat) :
    (s.abortBuilds c x).pkg.confidential = s.pkg.confidential := by
  unfold State.abortBuilds
  exact foldl_confidential (fun _ _ => by rfl) _ _

@[simp] theorem State.beginPreempt_confidential (s : State) (x : Nat) (kind : Held) :
    (s.beginPreempt x kind).pkg.confidential = s.pkg.confidential := by
  unfold State.beginPreempt
  (repeat' split) <;> simp

@[simp] theorem State.parkGroup_confidential (s : State) (x g : Nat) :
    (s.parkGroup x g).pkg.confidential = s.pkg.confidential := by simp [State.parkGroup]

@[simp] theorem State.parkStopped_confidential (s : State) : s.parkStopped.pkg.confidential = s.pkg.confidential := by
  unfold State.parkStopped
  refine foldl_confidential (fun u c => ?_) _ _
  split <;> simp

@[simp] theorem State.release_confidential (s : State) (x : Nat) (from' : Held) :
    (s.release x from').pkg.confidential = s.pkg.confidential := by simp [State.release]

@[simp] theorem State.setHpmap_confidential (s : State) (p o core : Nat) :
    (s.setHpmap p o core).1.pkg.confidential = s.pkg.confidential := by
  unfold State.setHpmap
  dsimp only
  split <;> simp

@[simp] theorem State.saveBankRun_confidential (s : State) (c o : Nat) :
    (s.saveBankRun c o).1.pkg.confidential = s.pkg.confidential := by
  have hw := State.writeIpaRun_confidential s (s.partOf c) ((s.slotAt c o).hsave + 1536 * c) (s.slotAt c o).bank.image
  rw [State.saveBankRun]
  split
  · rfl
  · exact fst_mk_confidential ((State.setHpmap_confidential ..).trans hw) _

@[simp] theorem State.saveBank_confidential (s : State) (c o : Nat) :
    (s.saveBank c o).pkg.confidential = s.pkg.confidential := by simp [State.saveBank]

@[simp] theorem State.stallArea_confidential (s : State) (kind c x : Nat) (f : AreaFault) :
    (s.stallArea kind c x f).pkg.confidential = s.pkg.confidential := by simp [State.stallArea]

/-! ### The debug monitor's ring -/

@[simp] theorem State.ringWrite_confidential (s : State) (p ring log2n size prod : Nat) (bs : List Byte) :
    (s.ringWrite p ring log2n size prod bs).pkg.confidential = s.pkg.confidential := by simp [State.ringWrite]

@[simp] theorem State.modDbg_confidential (s : State) (p : Nat) (f : Dbg → Dbg) :
    (s.modDbg p f).pkg.confidential = s.pkg.confidential := by simp [State.modDbg]

@[simp] theorem State.mailWrite_confidential (s : State) (p : Nat) (d : Dbg) (prod : Nat) (m : MailEntry) :
    (s.mailWrite p d prod m).pkg.confidential = s.pkg.confidential := by simp [State.mailWrite]

@[simp] theorem State.mailboxPost_confidential (s : State) (p : Nat) :
    (s.mailboxPost p).pkg.confidential = s.pkg.confidential := by
  unfold State.mailboxPost
  (repeat' split) <;> simp

@[simp] theorem State.mailboxFlush_confidential (s : State) (p : Nat) :
    (s.mailboxFlush p).pkg.confidential = s.pkg.confidential := by
  unfold State.mailboxFlush
  split <;> simp

@[simp] theorem State.postStop_confidential (s : State) (p : Nat) (m : MailEntry) :
    (s.postStop p m).pkg.confidential = s.pkg.confidential := by
  unfold State.postStop
  dsimp only
  split <;> simp

@[simp] theorem State.stopMail_confidential (s : State) (ks : List Nat) (cause : Nat) :
    (s.stopMail ks cause).pkg.confidential = s.pkg.confidential := by
  unfold State.stopMail
  split <;> simp

@[simp] theorem State.dbgMessage_confidential (s : State) (k a b : Nat) :
    (s.dbgMessage k a b).pkg.confidential = s.pkg.confidential := by
  unfold State.dbgMessage
  dsimp only
  (repeat' split) <;> simp

/-! ### The dispatcher -/

@[simp] theorem State.mapSlot_confidential (s : State) (p q sl : Nat) :
    (s.mapSlot p q sl).pkg.confidential = s.pkg.confidential := by
  unfold State.mapSlot
  split <;> simp

@[simp] theorem State.serveQueue_confidential (s : State) (p q : Nat) :
    (s.serveQueue p q).pkg.confidential = s.pkg.confidential := by
  unfold State.serveQueue
  (repeat' split) <;> simp

@[simp] theorem State.pendingMap_confidential (s : State) (sl : Nat) :
    (s.pendingMap sl).pkg.confidential = s.pkg.confidential := by
  unfold State.pendingMap
  (repeat' split) <;> simp

@[simp] theorem State.mapPending_confidential (s : State) (p : Nat) :
    (s.mapPending p).pkg.confidential = s.pkg.confidential := by simp [State.mapPending]

@[simp] theorem State.noteIdle_confidential (s : State) (q : Nat) :
    (s.noteIdle q).pkg.confidential = s.pkg.confidential := by
  unfold State.noteIdle
  split <;> simp

@[simp] theorem State.idleFrom_confidential (before s : State) (q : Nat) :
    (before.idleFrom s q).pkg.confidential = s.pkg.confidential := by simp [State.idleFrom]

@[simp] theorem State.mapAll_confidential (s : State) :
    s.mapAll.pkg.confidential = s.pkg.confidential := by simp [State.mapAll]

@[simp] theorem State.notifyQueue_confidential (s : State) (q prod : Nat) :
    (s.notifyQueue q prod).pkg.confidential = s.pkg.confidential := by
  unfold State.notifyQueue
  split <;> simp

@[simp] theorem State.addDone_confidential (s : State) (p owner va : Nat) :
    (s.addDone p owner va).pkg.confidential = s.pkg.confidential := by
  unfold State.addDone
  (repeat' split) <;> simp

@[simp] theorem State.wakeJoins_confidential (s : State) : s.wakeJoins.pkg.confidential = s.pkg.confidential := by
  unfold State.wakeJoins
  exact (foldl_confidential (fun _ _ => by simp) _ _).trans (foldl_confidential (fun _ _ => by rfl) _ _)

@[simp] theorem State.rejectLaunch_confidential (s : State) (p x q index : Nat) (r : LaunchRec) (owner reason : Nat) :
    (s.rejectLaunch p x q index r owner reason).pkg.confidential = s.pkg.confidential := by simp [State.rejectLaunch]

@[simp] theorem State.consumeQueue_confidential (s : State) (p q : Nat) :
    (s.consumeQueue p q).pkg.confidential = s.pkg.confidential := by
  unfold State.consumeQueue
  split <;> simp

@[simp] theorem State.consumeChild_confidential (s : State) (key : Nat) :
    (s.consumeChild key).pkg.confidential = s.pkg.confidential := by
  unfold State.consumeChild
  dsimp only
  (repeat' split) <;> simp

@[simp] theorem State.recordConsume_confidential (s : State) (src : Nat) :
    (s.recordConsume src).pkg.confidential = s.pkg.confidential := by
  unfold State.recordConsume
  (repeat' split) <;> simp

@[simp] theorem State.launchReady_confidential (s : State) (i : Nat) :
    (s.launchReady i).pkg.confidential = s.pkg.confidential := by
  unfold State.launchReady
  split <;> simp

@[simp] theorem State.readyAll_confidential (s : State) :
    s.readyAll.pkg.confidential = s.pkg.confidential := by simp [State.readyAll]

@[simp] theorem State.stepTraps_confidential (s : State) :
    s.stepTraps.pkg.confidential = s.pkg.confidential := by simp [State.stepTraps]

@[simp] theorem State.settled_confidential (s : State) :
    s.settled.pkg.confidential = s.pkg.confidential := by simp [State.settled]

@[simp] theorem State.priorityAge_confidential (s : State) (i : Nat) :
    (s.priorityAge i).pkg.confidential = s.pkg.confidential := by
  unfold State.priorityAge
  split <;> simp

@[simp] theorem State.setSlot_confidential (s : State) (c o : Nat) (sl : OSlot) :
    (s.setSlot c o sl).pkg.confidential = s.pkg.confidential := by simp [State.setSlot]

@[simp] theorem State.reassign_confidential (s : State) (p c o : Nat) (d : OwnerDesc) :
    (s.reassign p c o d).pkg.confidential = s.pkg.confidential := by simp [State.reassign]

@[simp] theorem State.loadImage_confidential (s : State) (p c owner cbase cunits : Nat) :
    (s.loadImage p c owner cbase cunits).pkg.confidential = s.pkg.confidential := by simp [State.loadImage]

theorem State.takeSlot_ok_confidential {s t : State} {p c owner ctx : Nat} {x : Spot}
    (h : s.takeSlot p c owner ctx x = .ok t) : t.pkg.confidential = s.pkg.confidential := by
  unfold State.takeSlot at h
  (repeat' split at h) <;> cases h <;> simp

theorem State.takeSlot_error_confidential {s t : State} {p c owner ctx : Nat} {x : Spot}
    (h : s.takeSlot p c owner ctx x = .error t) : t.pkg.confidential = s.pkg.confidential := by
  unfold State.takeSlot at h
  (repeat' split at h) <;> cases h <;> simp

@[simp] theorem State.startGroup_confidential (s : State) (key : Nat) (G : Group) (ts : List (Nat × Thread)) :
    (s.startGroup key G ts).pkg.confidential = s.pkg.confidential := by simp [State.startGroup]

@[simp] theorem State.placeBlock_confidential (s : State) (i : Nat) (l : Launch) (c : Nat) (x : Spot) :
    (s.placeBlock i l c x).pkg.confidential = s.pkg.confidential := by
  unfold State.placeBlock
  split
  next ht => exact State.takeSlot_error_confidential ht
  next s1 ht =>
    extract_lets hold b keys s2 blank B s3 noGroup s4 s5
    have h3 : s3.pkg.confidential = s.pkg.confidential :=
      (State.loadImage_confidential ..).trans (State.takeSlot_ok_confidential ht)
    have h4 : s4.pkg.confidential = s.pkg.confidential := (foldl_confidential (fun _ _ => by simp) _ _).trans h3
    have h5 : s5.pkg.confidential = s.pkg.confidential := by
      unfold s5
      split
      · exact (foldl_confidential (fun _ _ => by simp) _ _).trans h4
      · exact h4
    exact h5

@[simp] theorem State.unmark_confidential (s : State) (c : Option Nat) :
    (s.unmark c).pkg.confidential = s.pkg.confidential := by
  unfold State.unmark
  split <;> simp

@[simp] theorem State.markCore_confidential (s : State) (i : Nat) (l : Launch) :
    (s.markCore i l).pkg.confidential = s.pkg.confidential := by
  unfold State.markCore
  (repeat' split) <;> simp

@[simp] theorem State.blockPlacement_confidential (s : State) (i : Nat) :
    (s.blockPlacement i).pkg.confidential = s.pkg.confidential := by
  unfold State.blockPlacement
  dsimp only
  (repeat' split) <;> simp

@[simp] theorem State.placeCont_confidential (s now : State) (i : Nat) (l : Launch) (c : Nat) (x : Spot) :
    (s.placeCont now i l c x).pkg.confidential = s.pkg.confidential := by simp [State.placeCont]

@[simp] theorem State.continuationPlacement_confidential (s : State) (i c : Nat) :
    (s.continuationPlacement i c).pkg.confidential = s.pkg.confidential := by
  unfold State.continuationPlacement
  split
  · rfl
  split
  · rfl
  split
  · rfl
  split
  next ht => exact State.takeSlot_error_confidential ht
  next ht => exact (State.placeCont_confidential ..).trans (State.takeSlot_ok_confidential ht)

@[simp] theorem State.carveChange_confidential (s : State) (c : Nat) :
    (s.carveChange c).pkg.confidential = s.pkg.confidential := by
  unfold State.carveChange
  split <;> simp

@[simp] theorem State.finishBlock_confidential (s : State) (b : Nat) :
    (s.finishBlock b).pkg.confidential = s.pkg.confidential := by simp [State.finishBlock]

@[simp] theorem State.blockComplete_confidential (s : State) (b : Nat) :
    (s.blockComplete b).pkg.confidential = s.pkg.confidential := by
  unfold State.blockComplete
  split <;> simp

@[simp] theorem State.blockRetire_confidential (s : State) (b : Nat) :
    (s.blockRetire b).pkg.confidential = s.pkg.confidential := by
  unfold State.blockRetire
  split <;> simp

@[simp] theorem State.gridComplete_confidential (s : State) (i : Nat) :
    (s.gridComplete i).pkg.confidential = s.pkg.confidential := by
  unfold State.gridComplete
  (repeat' split) <;> simp

/-! ### The context engine -/

@[simp] theorem State.postHeld_confidential (s : State) (p : Nat) :
    (s.postHeld p).pkg.confidential = s.pkg.confidential := by
  unfold State.postHeld
  split <;> simp

@[simp] theorem State.faultqCons_confidential (s : State) (p v : Nat) :
    (s.faultqCons p v).pkg.confidential = s.pkg.confidential := by simp [State.faultqCons]

@[simp] theorem State.parkWindow_confidential (s : State) (b w : Nat) :
    (s.parkWindow b w).pkg.confidential = s.pkg.confidential := by
  unfold State.parkWindow
  split <;> simp

theorem State.ackEffect_ok_confidential {s t : State} {c x cls : Nat} (h : s.ackEffect c x cls = .ok t) :
    t.pkg.confidential = s.pkg.confidential := by
  unfold State.ackEffect at h
  split at h
  · cases h
    refine foldl_confidential (fun u k => ?_) _ _
    split <;> simp
  · cases h
    exact foldl_confidential (fun u b => foldl_confidential (fun _ _ => by simp) _ _) _ _
  · dsimp only at h
    split at h <;> cases h
    refine foldl_confidential (fun u o => ?_) _ _
    split <;> simp
  · cases h
    rfl

theorem State.ackEffect_error_confidential {s t : State} {c x cls : Nat} (h : s.ackEffect c x cls = .error t) :
    t.pkg.confidential = s.pkg.confidential := by
  unfold State.ackEffect at h
  dsimp only at h
  (repeat' split at h) <;> cases h
  exact State.stallArea_confidential ..

@[simp] theorem State.engineAck_confidential (s : State) (c x cls : Nat) :
    (s.engineAck c x cls).pkg.confidential = s.pkg.confidential := by
  unfold State.engineAck
  split
  · rfl
  split
  next h => exact State.ackEffect_error_confidential h
  next h => exact confidential_of_pkg (State.modCtx_pkg ..) (State.ackEffect_ok_confidential h)

@[simp] theorem State.vacate_confidential (s : State) (f : Frame) :
    (s.vacate f).pkg.confidential = s.pkg.confidential := by simp [State.vacate]

theorem orStop_confidential {α : Type} {e : Except State α} {f : α → State} {s : State}
    (he : ∀ t, e = .error t → t.pkg.confidential = s.pkg.confidential)
    (hf : ∀ a, e = .ok a → (f a).pkg.confidential = s.pkg.confidential) :
    (orStop e f).pkg.confidential = s.pkg.confidential := by
  cases e with
  | error t => exact he t rfl
  | ok a => exact hf a rfl

theorem State.frameBytes_ok_confidential {s t : State} {c x off : Nat} {bs : List Byte}
    (h : s.frameBytes c x off bs = .ok t) : t.pkg.confidential = s.pkg.confidential := by
  rw [State.frameBytes] at h
  split at h <;> cases h
  exact State.writeIpa_confidential ..

theorem State.frameBytes_error_confidential {s t : State} {c x off : Nat} {bs : List Byte}
    (h : s.frameBytes c x off bs = .error t) : t.pkg.confidential = s.pkg.confidential := by
  rw [State.frameBytes] at h
  split at h <;> cases h
  exact State.stallArea_confidential ..

@[simp] theorem State.frameWrite_confidential (s : State) (c x : Nat) :
    (s.frameWrite c x).pkg.confidential = s.pkg.confidential := by
  unfold State.frameWrite
  split
  · rfl
  split
  · rfl
  dsimp only
  split
  · exact orStop_confidential (fun _ => State.frameBytes_error_confidential)
      fun _ h => confidential_of_pkg (State.modCtx_pkg ..) (State.frameBytes_ok_confidential h)
  · refine orStop_confidential (fun _ => State.frameBytes_error_confidential) fun u h => ?_
    simp [State.frameBytes_ok_confidential h]

theorem State.reissue_confidential {s t : State} {q : Req} (h : s.reissue q = .ok t) :
    t.pkg.confidential = s.pkg.confidential := by
  unfold State.reissue at h
  extract_lets k x at h
  clear_value x
  split at h <;> cases h
  dsimp only
  split <;> rfl

@[simp] theorem State.reissueFor_confidential (s : State) (x k : Nat) :
    (s.reissueFor x k).pkg.confidential = s.pkg.confidential := by
  unfold State.reissueFor
  refine foldl_fst_confidential (fun u q => ?_) _ _
  split
  · rfl
  split
  next h => exact State.reissue_confidential h
  next => simp

@[simp] theorem State.markReady_confidential (s : State) (c x written : Nat) (old new : Frame) :
    (s.markReady c x written old new).pkg.confidential = s.pkg.confidential := by
  unfold State.markReady
  refine foldl_confidential (fun u kp => ?_) _ _
  (repeat' split) <;> simp

@[simp] theorem State.replayFrames_confidential (s : State) (p seq : Nat) :
    (s.replayFrames p seq).pkg.confidential = s.pkg.confidential := by simp [State.replayFrames]

@[simp] theorem State.replaySeq_confidential (s : State) (p seq : Nat) :
    (s.replaySeq p seq).pkg.confidential = s.pkg.confidential := by
  unfold State.replaySeq
  (repeat' split) <;> simp

@[simp] theorem State.preemptDone_confidential (s : State) (x : Nat) :
    (s.preemptDone x).pkg.confidential = s.pkg.confidential := by
  unfold State.preemptDone
  (repeat' split) <;> simp

@[simp] theorem State.preemptLate_confidential (s : State) (x : Nat) :
    (s.preemptLate x).pkg.confidential = s.pkg.confidential := by
  unfold State.preemptLate
  (repeat' split) <;> simp

@[simp] theorem State.timerExpire_confidential (s : State) (c x : Nat) :
    (s.timerExpire c x).pkg.confidential = s.pkg.confidential := by
  unfold State.timerExpire
  split <;> simp

@[simp] theorem State.retest_confidential (s : State) (k : Nat) :
    (s.retest k).pkg.confidential = s.pkg.confidential := by
  unfold State.retest
  dsimp only
  (repeat' split) <;> simp

@[simp] theorem State.restoreRings_confidential (s : State) (c o : Nat) (f : Frame) :
    (s.restoreRings c o f).pkg.confidential = s.pkg.confidential := by simp [State.restoreRings]

@[simp] theorem State.restoreBlock_confidential (s : State) (y : Nat) (f : Frame) (c b : Nat) (B : Block) (x : Spot) :
    (s.restoreBlock y f c b B x).pkg.confidential = s.pkg.confidential := by
  unfold State.restoreBlock
  extract_lets old key tkey hold sl s1 s2 s2' s3 s4 s5 s6 ks s7 s8
  have h2 : s2.pkg.confidential = s.pkg.confidential := State.loadImage_confidential ..
  have h2' : s2'.pkg.confidential = s.pkg.confidential := (foldl_confidential (fun _ _ => by simp) _ _).trans h2
  have h3 : s3.pkg.confidential = s.pkg.confidential := (State.restoreRings_confidential ..).trans h2'
  have h4 : s4.pkg.confidential = s.pkg.confidential := (foldl_confidential (fun _ _ => by simp) _ _).trans h3
  have h6 : s6.pkg.confidential = s.pkg.confidential := Eq.trans (foldl_confidential (fun _ _ => by rfl) _ _) h4
  have h7 : s7.pkg.confidential = s.pkg.confidential := (foldl_confidential (fun _ _ => by simp) _ _).trans h6
  have h8 : s8.pkg.confidential = s.pkg.confidential := by
    refine (foldl_confidential (fun u k => ?_) _ _).trans h7
    split <;> simp
  exact (foldl_confidential (fun _ _ => by simp) _ _).trans h8

@[simp] theorem State.dropSaved_confidential (s : State) (x c b i owner : Nat) :
    (s.dropSaved x c b i owner).pkg.confidential = s.pkg.confidential := by
  unfold State.dropSaved
  split
  · rfl
  · dsimp only
    split
    · exact confidential_of_pkg (State.modCtx_pkg ..) (State.writeIpa_confidential ..)
    · rfl

theorem State.restoreReads_error_confidential {s t : State} {x c : Nat} {f : Frame} {i b : Nat} {B : Block}
    (h : s.restoreReads x c f i b B = .error t) : t.pkg.confidential = s.pkg.confidential := by
  rw [State.restoreReads] at h
  (repeat' split at h) <;> cases h <;> simp

@[simp] theorem State.restoreNext_confidential (s : State) (x c : Nat) (f : Frame) (b : Nat) (B : Block) :
    (s.restoreNext x c f b B).pkg.confidential = s.pkg.confidential := by
  unfold State.restoreNext
  split
  · cases s.recordSpot x c B with
    | none => rfl
    | some i => exact State.dropSaved_confidential ..
  · cases s.savedSpot f c b B with
    | none => rfl
    | some i =>
      simp only [Option.elim_some]
      split
      · rfl
      · refine orStop_confidential (fun _ => State.restoreReads_error_confidential) fun ws _ => ?_
        refine orStop_confidential (fun _ => State.takeSlot_error_confidential) fun u hu => ?_
        simp [State.takeSlot_ok_confidential hu]

@[simp] theorem State.contextRestore_confidential (s : State) (x c : Nat) :
    (s.contextRestore x c).pkg.confidential = s.pkg.confidential := by
  unfold State.contextRestore
  dsimp only
  (repeat' split) <;> simp

@[simp] theorem writeFrames_confidential (s : State) (p x off : Nat) (bs : List Byte) (cs : List Nat) :
    (cs.foldl (fun (acc : State) c => acc.writeIpa p (frameAt x c + off) bs) s).pkg.confidential = s.pkg.confidential := by
  induction cs generalizing s with
  | nil => rfl
  | cons c cs ih => rw [List.foldl_cons, ih, State.writeIpa_confidential]

@[simp] theorem State.abortCtx_confidential (s : State) (x : Nat) :
    (s.abortCtx x).pkg.confidential = s.pkg.confidential := by
  unfold State.abortCtx
  extract_lets C ofCtx idents here bs s0 s1 f s2 s3 cores s4 mine s5 s6
  have h0 : s0.pkg.confidential = s.pkg.confidential :=
    foldl_confidential (fun u b => foldl_confidential (fun _ _ => by simp) _ _) _ _
  have h1 : s1.pkg.confidential = s.pkg.confidential := (foldl_confidential (fun _ _ => by simp) _ _).trans h0
  have h2 : s2.pkg.confidential = s.pkg.confidential := (foldl_confidential (fun _ _ => by simp) _ _).trans h1
  have h3 : s3.pkg.confidential = s.pkg.confidential := (State.vacate_confidential ..).trans h2
  have h4 : s4.pkg.confidential = s.pkg.confidential := (writeFrames_confidential ..).trans h3
  clear_value s4
  have h6 : s6.pkg.confidential = s.pkg.confidential := (foldl_confidential (fun _ _ => by simp) _ _).trans h4
  exact (State.flowIdle_confidential ..).trans ((State.post_confidential ..).trans h6)

@[simp] theorem State.cmdPreempt_confidential (s : State) (p x : Nat) (hold : Bool) :
    (s.cmdPreempt p x hold).pkg.confidential = s.pkg.confidential := by simp [State.cmdPreempt]

@[simp] theorem State.cmdRestore_confidential (s : State) (x : Nat) :
    (s.cmdRestore x).pkg.confidential = s.pkg.confidential := by simp [State.cmdRestore]

@[simp] theorem State.cmdPtimer_confidential (s : State) (p x c n : Nat) :
    (s.cmdPtimer p x c n).pkg.confidential = s.pkg.confidential := by simp [State.cmdPtimer]

/-! ### The partition's command ring -/

@[simp] theorem State.raiseCons_confidential (s : State) (ring : Nat) :
    (s.raiseCons ring).pkg.confidential = s.pkg.confidential := by simp [State.raiseCons]

@[simp] theorem State.setDue_confidential (s : State) (ring : Nat) (st : Option Nat) :
    (s.setDue ring st).pkg.confidential = s.pkg.confidential := by simp [State.setDue]

@[simp] theorem State.ringAfter_confidential (s : State) (ring g : Nat) :
    (s.ringAfter ring g).pkg.confidential = s.pkg.confidential := by simp [State.ringAfter]

@[simp] theorem State.ringStore_confidential (s : State) (ring pa : Nat) (bs : List Byte) :
    (s.ringStore ring pa bs).pkg.confidential = s.pkg.confidential := by simp [State.ringStore]

@[simp] theorem State.sayStatus_confidential (s : State) (ring status : Nat) :
    (s.sayStatus ring status).pkg.confidential = s.pkg.confidential := by simp [State.sayStatus]

@[simp] theorem State.answer_confidential (s : State) (ring status : Nat) :
    (s.answer ring status).pkg.confidential = s.pkg.confidential := by simp [State.answer]

@[simp] theorem State.ringDue_confidential (s : State) (ring st : Nat) :
    (s.ringDue ring st).pkg.confidential = s.pkg.confidential := by simp [State.ringDue]

@[simp] theorem State.ringProd_confidential (s : State) (ring prod : Nat) :
    (s.ringProd ring prod).pkg.confidential = s.pkg.confidential := by simp [State.ringProd]

theorem runCmd_confidential {p : Nat} {o : CmdOps} {masks : List Nat} {body : State → CmdEnd}
    (hb : ∀ u, (body u).1.pkg.confidential = u.pkg.confidential) (s : State) :
    (runCmd p o masks body s).pkg.confidential = s.pkg.confidential := by
  have h := hb s
  unfold runCmd
  split
  · simp
  · split
    · simp
    · split
      next hs => simpa [hs] using h
      next hs => simpa [hs] using h

theorem runMgmt_confidential {p : Nat} {o : CmdOps} {masks : List Nat} {body : State → CmdEnd}
    (hb : ∀ u, (body u).1.pkg.confidential = u.pkg.confidential) (s : State) :
    (runMgmt p o masks body s).pkg.confidential = s.pkg.confidential := by
  have h := hb s
  unfold runMgmt
  split
  · simp
  · split
    · simp
    · split
      next hs => simpa [hs] using h
      next hs => simpa [hs] using h

@[simp] theorem State.breakBrine_confidential (s : State) (p x : Nat) :
    (s.breakBrine p x).pkg.confidential = s.pkg.confidential := by simp [State.breakBrine]

@[simp] theorem preemptOp_confidential (p : Nat) (o : CmdOps) (s : State) :
    (preemptOp p o s).pkg.confidential = s.pkg.confidential := by
  unfold preemptOp
  refine runCmd_confidential (fun u => ?_) s
  simp

@[simp] theorem restoreOp_confidential (p : Nat) (o : CmdOps) (s : State) :
    (restoreOp p o s).pkg.confidential = s.pkg.confidential := by
  unfold restoreOp
  refine runCmd_confidential (fun u => ?_) s
  simp

@[simp] theorem replayOp_confidential (p : Nat) (o : CmdOps) (s : State) :
    (replayOp p o s).pkg.confidential = s.pkg.confidential := by
  unfold replayOp
  refine runCmd_confidential (fun u => ?_) s
  simp

@[simp] theorem abortOp_confidential (p : Nat) (o : CmdOps) (s : State) :
    (abortOp p o s).pkg.confidential = s.pkg.confidential := by
  unfold abortOp
  refine runCmd_confidential (fun u => ?_) s
  simp

@[simp] theorem ptimerOp_confidential (p : Nat) (o : CmdOps) (s : State) :
    (ptimerOp p o s).pkg.confidential = s.pkg.confidential := by
  unfold ptimerOp
  refine runCmd_confidential (fun u => ?_) s
  simp

@[simp] theorem State.dropXlat_confidential (s : State) (p : Nat) (v : Covers) :
    (s.dropXlat p v).pkg.confidential = s.pkg.confidential := by simp [State.dropXlat]

@[simp] theorem invalidate_confidential (p : Nat) (v : Covers) (s : State) :
    (invalidate p v s).1.pkg.confidential = s.pkg.confidential := by
  unfold invalidate
  dsimp only
  split <;> split <;> rfl

@[simp] theorem invVaOp_confidential (p : Nat) (o : CmdOps) (s : State) :
    (invVaOp p o s).pkg.confidential = s.pkg.confidential := by
  unfold invVaOp
  refine runCmd_confidential (fun u => ?_) s
  dsimp only
  split <;> simp

@[simp] theorem invOwnerOp_confidential (p : Nat) (o : CmdOps) (s : State) :
    (invOwnerOp p o s).pkg.confidential = s.pkg.confidential := by
  unfold invOwnerOp
  refine runCmd_confidential (fun u => ?_) s
  simp

@[simp] theorem invIpaOp_confidential (p : Nat) (o : CmdOps) (s : State) :
    (invIpaOp p o s).pkg.confidential = s.pkg.confidential := by
  unfold invIpaOp
  refine runCmd_confidential (fun u => ?_) s
  simp

@[simp] theorem invAllOp_confidential (p : Nat) (o : CmdOps) (s : State) :
    (invAllOp p o s).pkg.confidential = s.pkg.confidential := by
  unfold invAllOp
  refine runCmd_confidential (fun u => ?_) s
  simp

@[simp] theorem setFaultqOp_confidential (p : Nat) (o : CmdOps) (s : State) :
    (setFaultqOp p o s).pkg.confidential = s.pkg.confidential := by
  unfold setFaultqOp
  refine runCmd_confidential (fun u => ?_) s
  simp

@[simp] theorem setTablesOp_confidential (p : Nat) (o : CmdOps) (s : State) :
    (setTablesOp p o s).pkg.confidential = s.pkg.confidential := by
  unfold setTablesOp
  refine runCmd_confidential (fun u => ?_) s
  simp

@[simp] theorem setSluiceOvfOp_confidential (p : Nat) (o : CmdOps) (s : State) :
    (setSluiceOvfOp p o s).pkg.confidential = s.pkg.confidential := by
  unfold setSluiceOvfOp
  refine runCmd_confidential (fun u => ?_) s
  simp

@[simp] theorem State.writeRegion_confidential (s : State) (n : Nat) (r : Region) :
    (s.writeRegion n r).pkg.confidential = s.pkg.confidential := by simp [State.writeRegion]

@[simp] theorem State.setRegion_confidential (s : State) (ring n : Nat) (r : Region) :
    (s.setRegion ring n r).pkg.confidential = s.pkg.confidential := by simp [State.setRegion]

@[simp] theorem setRegionOp_confidential (p : Nat) (o : CmdOps) (s : State) :
    (setRegionOp p o s).pkg.confidential = s.pkg.confidential := by
  unfold setRegionOp
  refine runCmd_confidential (fun u => ?_) s
  simp

@[simp] theorem State.dropLine_confidential (s : State) (la : Nat) :
    (s.dropLine la).pkg.confidential = s.pkg.confidential := by simp [State.dropLine]

@[simp] theorem State.freshViews_confidential (s : State) (pg : Nat) :
    (s.freshViews pg).pkg.confidential = s.pkg.confidential := by simp [State.freshViews]

@[simp] theorem State.zeroPage_confidential (s : State) (ring pg : Nat) :
    (s.zeroPage ring pg).pkg.confidential = s.pkg.confidential := by
  unfold State.zeroPage
  exact (State.ringStore_confidential ..).trans (State.forgetRecords_confidential ..)

@[simp] theorem State.blurPage_confidential (s : State) (pg : Nat) (keyless : Bool) :
    (s.blurPage pg keyless).pkg.confidential = s.pkg.confidential := by simp [State.blurPage]

@[simp] theorem State.poisonPage_confidential (s : State) (pg : Nat) :
    (s.poisonPage pg).pkg.confidential = s.pkg.confidential := rfl

@[simp] theorem State.curePage_confidential (s : State) (pg : Nat) :
    (s.curePage pg).pkg.confidential = s.pkg.confidential := by simp [State.curePage]

@[simp] theorem State.cureChecked_confidential (s : State) (pg : Nat) :
    (s.cureChecked pg).pkg.confidential = s.pkg.confidential := by simp [State.cureChecked]

@[simp] theorem State.setRecord'_confidential (s : State) (ring cls key pg : Nat) :
    (s.setRecord' ring cls key pg).pkg.confidential = s.pkg.confidential := by simp [State.setRecord']

@[simp] theorem pageRecOp_confidential (p : Nat) (o : CmdOps) (s : State) :
    (pageRecOp p o s).pkg.confidential = s.pkg.confidential := by
  unfold pageRecOp
  refine runCmd_confidential (fun u => ?_) s
  simp

@[simp] theorem scrubOp_confidential (p : Nat) (o : CmdOps) (s : State) :
    (scrubOp p o s).pkg.confidential = s.pkg.confidential := by
  unfold scrubOp
  refine runCmd_confidential (fun u => ?_) s
  simp

@[simp] theorem State.rekey_confidential (s : State) (id : Nat) (keyless : Bool) :
    (s.rekey id keyless).pkg.confidential = s.pkg.confidential := by simp [State.rekey]

@[simp] theorem State.modBrine_confidential (s : State) (p ch : Nat) (f : Brine → Brine) :
    (s.modBrine p ch f).pkg.confidential = s.pkg.confidential := by simp [State.modBrine]

@[simp] theorem State.setKey_confidential (s : State) (p : Nat) (t : Nat ⊕ Nat) (k : List Byte) :
    (s.setKey p t k).pkg.confidential = s.pkg.confidential := by
  unfold State.setKey
  split <;> simp

@[simp] theorem keygenOp_confidential (p : Nat) (o : CmdOps) (s : State) :
    (keygenOp p o s).pkg.confidential = s.pkg.confidential := by
  unfold keygenOp
  refine runCmd_confidential (fun u => ?_) s
  simp

@[simp] theorem keyloadOp_confidential (p : Nat) (o : CmdOps) (s : State) :
    (keyloadOp p o s).pkg.confidential = s.pkg.confidential := by
  unfold keyloadOp
  refine runCmd_confidential (fun u => ?_) s
  (repeat' split) <;> simp

@[simp] theorem keydropOp_confidential (p : Nat) (o : CmdOps) (s : State) :
    (keydropOp p o s).pkg.confidential = s.pkg.confidential := by
  unfold keydropOp
  refine runCmd_confidential (fun u => ?_) s
  (repeat' split) <;> simp

@[simp] theorem attestOp_confidential (p : Nat) (o : CmdOps) (s : State) :
    (attestOp p o s).pkg.confidential = s.pkg.confidential := by
  unfold attestOp
  refine runCmd_confidential (fun u => ?_) s
  simp

@[simp] theorem idcertOp_confidential (p : Nat) (o : CmdOps) (s : State) :
    (idcertOp p o s).pkg.confidential = s.pkg.confidential := by
  unfold idcertOp
  refine runCmd_confidential (fun u => ?_) s
  simp

@[simp] theorem qresumeOp_confidential (p : Nat) (o : CmdOps) (s : State) :
    (qresumeOp p o s).pkg.confidential = s.pkg.confidential := by
  unfold qresumeOp
  refine runCmd_confidential (fun u => ?_) s
  simp

/-! ### Brine channels -/

@[simp] theorem brineSetOp_confidential (p : Nat) (o : CmdOps) (s : State) :
    (brineSetOp p o s).pkg.confidential = s.pkg.confidential := by
  unfold brineSetOp
  refine runCmd_confidential (fun u => ?_) s
  simp

@[simp] theorem brineCloseOp_confidential (p : Nat) (o : CmdOps) (s : State) :
    (brineCloseOp p o s).pkg.confidential = s.pkg.confidential := by
  unfold brineCloseOp
  refine runCmd_confidential (fun u => ?_) s
  simp

theorem State.brineFinish_confidential {s : State} {p ch : Nat} {r : State × Nat} (h : s.brineFinish p ch = some r) :
    r.1.pkg.confidential = s.pkg.confidential := by
  rw [State.brineFinish] at h
  split at h <;> cases h
  exact (State.storeBytes_confidential ..).trans
    (confidential_of_pkg (State.modPart_pkg ..) (State.writeLines_confidential ..))

@[simp] theorem State.brineFail_confidential (s : State) (p ch : Nat) :
    (s.brineFail p ch).pkg.confidential = s.pkg.confidential := by simp [State.brineFail]

@[simp] theorem State.brineStage_confidential (s : State) (p ch : Nat) (st : BrineStage) :
    (s.brineStage p ch st).pkg.confidential = s.pkg.confidential := by simp [State.brineStage]

theorem State.brineWrite_confidential {s t : State} {p ch owner : Nat} {todo : List (Nat × List Byte)} {g : Nat}
    (h : s.brineWrite p ch owner todo g = some t) : t.pkg.confidential = s.pkg.confidential := by
  rw [State.brineWrite] at h
  split at h
  · cases h
    rfl
  · obtain ⟨ps, -, rfl⟩ := Option.map_eq_some_iff.1 h
    exact (State.brineStage_confidential ..).trans (foldl_fst_confidential (fun _ _ => by simp) _ _)

@[simp] theorem State.brineNext_confidential (s : State) (p ch : Nat) (b : Brine) (st : BrineStage) :
    (s.brineNext p ch b st).pkg.confidential = s.pkg.confidential := by
  have orFail {o : Option State} (ho : ∀ t, o = some t → t.pkg.confidential = s.pkg.confidential) :
      (o.getD (s.brineFail p ch)).pkg.confidential = s.pkg.confidential := by
    cases o with
    | none => exact State.brineFail_confidential ..
    | some t => exact ho t rfl
  unfold State.brineNext
  dsimp only
  split
  · split
    · simp
    · refine orFail fun t ht => ?_
      obtain ⟨x, -, rfl⟩ := Option.map_eq_some_iff.1 ht
      simp
  · exact orFail fun t ht => State.brineWrite_confidential ht
  · split <;> simp
  · split
    · simp
    · refine orFail fun t ht => ?_
      obtain ⟨x, hx, rfl⟩ := Option.map_eq_some_iff.1 ht
      exact State.brineFinish_confidential hx
  · rfl

@[simp] theorem State.brineSlot_confidential (s : State) (p ch : Nat) :
    (s.brineSlot p ch).pkg.confidential = s.pkg.confidential := by
  unfold State.brineSlot
  dsimp only
  split <;> simp

theorem State.brineSeal_confidential {s t : State} {p ch owner va len : Nat} {b : Brine}
    (h : s.brineSeal p ch owner va len b = some t) : t.pkg.confidential = s.pkg.confidential := by
  rw [State.brineSeal] at h
  split at h
  · cases h
  · obtain ⟨d, -, h⟩ := Option.bind_eq_some_iff.1 h
    obtain ⟨ps, -, rfl⟩ := Option.map_eq_some_iff.1 h
    simp

theorem State.brineSent_confidential {s : State} {p ch : Nat} {b : Brine} {r : FarReq} {header payload : List Byte}
    {x : State × Nat} (h : s.brineSent p ch b r header payload = some x) : x.1.pkg.confidential = s.pkg.confidential := by
  rw [State.brineSent] at h
  split at h
  · cases h
  · simp [State.brineFinish_confidential h]

@[simp] theorem brineSendOp_confidential (p : Nat) (o : CmdOps) (s : State) :
    (brineSendOp p o s).pkg.confidential = s.pkg.confidential := by
  unfold brineSendOp
  refine runCmd_confidential (fun u => ?_) s
  dsimp only
  split
  · split
    next h => simp [State.brineSent_confidential h]
    next => simp
  · split
    · rfl
    split
    · rfl
    split
    next h => exact State.brineSeal_confidential h
    next => simp

@[simp] theorem State.brineProd_confidential (s : State) (p ch v : Nat) :
    (s.brineProd p ch v).pkg.confidential = s.pkg.confidential := by simp [State.brineProd]

@[simp] theorem State.brineClear_confidential (s : State) (p ch : Nat) :
    (s.brineClear p ch).pkg.confidential = s.pkg.confidential := by simp [State.brineClear]

/-! ### Collectives -/

@[simp] theorem lxchOp_confidential (h : Hdr) (mode seg : BitVec 2) (vp : BitVec 3) (s : State) :
    (lxchOp h mode seg vp s).pkg.confidential = s.pkg.confidential := by
  unfold lxchOp
  refine runLanes_confidential (fun s0 part k v run => ?_) s
  dsimp only
  (repeat' split) <;> simp

@[simp] theorem runPart_confidential (opc : Nat) (h : Hdr) (fm : Form) (f : Lanes → Nat → Vals → Nat) (s : State) :
    (runPart opc h fm f s).pkg.confidential = s.pkg.confidential := by
  unfold runPart
  refine runLanes_confidential (fun s0 part k v run => ?_) s
  simp

@[simp] theorem runReduce_confidential (opc : Nat) (h : Hdr) (op : BitVec 3) (ty : BitVec 2) (upTo : Nat → Nat → Bool)
    (s : State) :
    (runReduce opc h op ty upTo s).pkg.confidential = s.pkg.confidential := by
  unfold runReduce
  refine runLanes_confidential (fun s0 part k v run => ?_) s
  dsimp only
  (repeat' split) <;> simp

@[simp] theorem leadOp_confidential (h : Hdr) (s : State) : (leadOp h s).pkg.confidential = s.pkg.confidential := by
  unfold leadOp
  refine runLanes_confidential (fun s0 part k v run => ?_) s
  simp

/-! ### The management ring -/

@[simp] theorem partCreateOp_confidential (p : Nat) (o : CmdOps) (s : State) :
    (partCreateOp p o s).pkg.confidential = s.pkg.confidential := by
  unfold partCreateOp
  refine runMgmt_confidential (fun u => ?_) s
  simp

@[simp] theorem State.withdrawCore_confidential (s : State) (c p : Nat) :
    (s.withdrawCore c p).pkg.confidential = s.pkg.confidential := by simp [State.withdrawCore]

@[simp] theorem State.scrubCore_confidential (s : State) (c : Nat) (p : Option Nat) :
    (s.scrubCore c p).pkg.confidential = s.pkg.confidential := by simp [State.scrubCore]

theorem State.saveCore_confidential {s t : State} {c : Nat} (h : s.saveCore c = .ok t) :
    t.pkg.confidential = s.pkg.confidential := by
  rw [State.saveCore] at h
  split at h
  · cases h
  · rw [← Except.ok.inj h]
    exact foldl_confidential (fun _ _ => by rw [State.ringAfter_confidential, State.saveBankRun_confidential]) _ _

@[simp] theorem State.moveCore_confidential (s : State) (c : Nat) (dst : Option Nat) :
    (s.moveCore c dst).1.pkg.confidential = s.pkg.confidential := by
  rw [State.moveCore]
  split
  · simp
  dsimp only
  split
  · simp
  split
  · simp
  next h => simp [State.saveCore_confidential h]

@[simp] theorem coreAssignOp_confidential (p : Nat) (o : CmdOps) (s : State) :
    (coreAssignOp p o s).pkg.confidential = s.pkg.confidential := by
  unfold coreAssignOp
  refine runMgmt_confidential (fun u => ?_) s
  dsimp only
  split
  · rfl
  next dst _ =>
    have h := State.moveCore_confidential u (o.f 0 0 8) dst
    split
    · rfl
    split
    · rfl
    split <;> simp_all

@[simp] theorem State.assignPage_confidential (s : State) (dst : Option Nat) (pg : Nat) :
    (s.assignPage dst pg).pkg.confidential = s.pkg.confidential := by simp [State.assignPage]

@[simp] theorem memAssignOp_confidential (p : Nat) (o : CmdOps) (s : State) :
    (memAssignOp p o s).pkg.confidential = s.pkg.confidential := by
  unfold memAssignOp
  refine runMgmt_confidential (fun u => ?_) s
  (repeat' split) <;> simp

@[simp] theorem powerWeightOp_confidential (p : Nat) (o : CmdOps) (s : State) :
    (powerWeightOp p o s).pkg.confidential = s.pkg.confidential := by
  unfold powerWeightOp
  refine runMgmt_confidential (fun u => ?_) s
  simp

@[simp] theorem regionAssignOp_confidential (p : Nat) (o : CmdOps) (s : State) :
    (regionAssignOp p o s).pkg.confidential = s.pkg.confidential := by
  unfold regionAssignOp
  refine runMgmt_confidential (fun u => ?_) s
  (repeat' split) <;> simp

@[simp] theorem linkKeyOp_confidential (p : Nat) (o : CmdOps) (s : State) :
    (linkKeyOp p o s).pkg.confidential = s.pkg.confidential := by
  unfold linkKeyOp
  refine runMgmt_confidential (fun u => ?_) s
  simp

@[simp] theorem State.dropPort_confidential (s : State) (port : Nat) :
    (s.dropPort port).pkg.confidential = s.pkg.confidential := by simp [State.dropPort]

@[simp] theorem sublinkAssignOp_confidential (p : Nat) (o : CmdOps) (s : State) :
    (sublinkAssignOp p o s).pkg.confidential = s.pkg.confidential := by
  unfold sublinkAssignOp
  refine runMgmt_confidential (fun u => ?_) s
  (repeat' split) <;> simp

@[simp] theorem State.sublinkTrain_confidential (s : State) (port sl : Nat) :
    (s.sublinkTrain port sl).pkg.confidential = s.pkg.confidential := by simp [State.sublinkTrain]

@[simp] theorem State.remoteRequest_confidential (s : State) (port sl ipa : Nat) (acc : RemoteAcc) :
    (s.remoteRequest port sl ipa acc).pkg.confidential = s.pkg.confidential := by
  unfold State.remoteRequest
  dsimp only
  (repeat' split) <;> simp

@[simp] theorem State.freeRegions_confidential (s : State) (n : Nat) :
    (s.freeRegions n).pkg.confidential = s.pkg.confidential := by simp [State.freeRegions]

@[simp] theorem State.freePart_confidential (s : State) (n : Nat) :
    (s.freePart n).pkg.confidential = s.pkg.confidential := by simp [State.freePart]

@[simp] theorem partDestroyOp_confidential (p : Nat) (o : CmdOps) (s : State) :
    (partDestroyOp p o s).pkg.confidential = s.pkg.confidential := by
  unfold partDestroyOp
  refine runMgmt_confidential (fun u => ?_) s
  dsimp only
  (repeat' split) <;> simp

@[simp] theorem State.hostWrite_confidential (s : State) (pa : Nat) (data : List Byte) :
    (s.hostWrite pa data).pkg.confidential = s.pkg.confidential := by
  unfold State.hostWrite
  split <;> simp

@[simp] theorem State.strike_confidential (s : State) (kind : MemErr) :
    (s.strike kind).pkg.confidential = s.pkg.confidential := by
  unfold State.strike
  split <;> simp

@[simp] theorem State.memoryError_confidential (s : State) (kind : MemErr) :
    (s.memoryError kind).pkg.confidential = s.pkg.confidential := by
  unfold State.memoryError
  (repeat' split) <;> simp

@[simp] theorem State.powerStart_confidential (s : State) :
    s.powerStart.pkg.confidential = s.pkg.confidential := by simp [State.powerStart]

@[simp] theorem State.powerMid_confidential (s : State) :
    s.powerMid.pkg.confidential = s.pkg.confidential := by simp [State.powerMid]

/-! ### The debug engine and TICK -/

@[simp] theorem State.dbgSay_confidential (s : State) (p st : Nat) :
    (s.dbgSay p st).pkg.confidential = s.pkg.confidential := by simp [State.dbgSay]

@[simp] theorem State.placeMonitor_confidential (s : State) (p : Nat) (d : Dbg) (o off : Nat) :
    (s.placeMonitor p d o off).pkg.confidential = s.pkg.confidential := by simp [State.placeMonitor]

@[simp] theorem State.attach_confidential (s : State) (p desc : Nat) :
    (s.attach p desc).pkg.confidential = s.pkg.confidential := by
  unfold State.attach
  extract_lets u desc bs d use room
  have hu : u.pkg.confidential = s.pkg.confidential := rfl
  clear_value room use d bs u
  rw [← hu]
  split
  · rfl
  split
  · rfl
  split
  · rfl
  split
  · rfl
  split
  · rfl
  split
  · split
    next h => exact (State.placeMonitor_confidential ..).trans (State.takeSlot_ok_confidential h)
    next h => exact confidential_of_pkg (State.modPart_pkg ..) (State.takeSlot_error_confidential h)
  · rfl

@[simp] theorem State.unstop_confidential (s : State) (ks : List Nat) :
    (s.unstop ks).pkg.confidential = s.pkg.confidential := by simp [State.unstop]

@[simp] theorem State.frameThreads_confidential (s : State) (mine : Nat → Ctx → Bool) (f : Thread → Thread) :
    (s.frameThreads mine f).pkg.confidential = s.pkg.confidential := by simp [State.frameThreads]

@[simp] theorem State.attachAgain_confidential (s : State) (p : Nat) :
    (s.attachAgain p).pkg.confidential = s.pkg.confidential := by
  unfold State.attachAgain
  split <;> simp

@[simp] theorem State.detach_confidential (s : State) (p : Nat) :
    (s.detach p).pkg.confidential = s.pkg.confidential := by
  unfold State.detach
  dsimp only
  split <;> simp

@[simp] theorem State.autoDetach_confidential (s : State) (p : Nat) :
    (s.autoDetach p).pkg.confidential = s.pkg.confidential := by
  unfold State.autoDetach
  split <;> simp

@[simp] theorem State.entryStatus_confidential (s : State) (p : Nat) (d : Dbg) (st : Nat) :
    (s.entryStatus p d st).pkg.confidential = s.pkg.confidential := by simp [State.entryStatus]

@[simp] theorem State.entrySay_confidential (s : State) (p st : Nat) :
    (s.entrySay p st).pkg.confidential = s.pkg.confidential := by
  unfold State.entrySay
  split <;> simp

@[simp] theorem State.entryDue_confidential (s : State) (p : Nat) :
    (s.entryDue p).pkg.confidential = s.pkg.confidential := by
  unfold State.entryDue
  (repeat' split) <;> simp

theorem runDebug_confidential {p : Nat} {t : DbgTarget} {body : State → State}
    (hb : ∀ u, (body u).pkg.confidential = u.pkg.confidential) (s : State) :
    (runDebug p t body s).pkg.confidential = s.pkg.confidential := by
  unfold runDebug
  (repeat' split) <;> simp [hb]

@[simp] theorem State.begin'_confidential (s : State) (p code : Nat) (t : DbgTarget) (todo : List Nat) :
    (s.begin' p code t todo).pkg.confidential = s.pkg.confidential := by simp [State.begin']

@[simp] theorem stopDbg_confidential (p : Nat) (t : DbgTarget) (s : State) :
    (stopDbg p t s).pkg.confidential = s.pkg.confidential := by
  unfold stopDbg
  refine runDebug_confidential (fun u => ?_) s
  have h : ((u.targetThreads t).foldl (fun (acc : State) k => acc.modThr k Thread.stop) u).pkg.confidential =
      u.pkg.confidential := foldl_confidential (fun _ _ => by rfl) _ _
  simp [h]

@[simp] theorem resumeDbg_confidential (p : Nat) (t : DbgTarget) (s : State) :
    (resumeDbg p t s).pkg.confidential = s.pkg.confidential := by
  unfold resumeDbg
  refine runDebug_confidential (fun u => ?_) s
  simp

@[simp] theorem trapstepDbg_confidential (p : Nat) (t : DbgTarget) (s : State) :
    (trapstepDbg p t s).pkg.confidential = s.pkg.confidential := by
  unfold trapstepDbg
  refine runDebug_confidential (fun u => ?_) s
  exact (State.entrySay_confidential ..).trans ((State.unstop_confidential ..).trans (foldl_confidential (fun _ _ => by rfl) _ _))

@[simp] theorem State.letStep_confidential (s : State) (ks : List Nat) :
    (s.letStep ks).pkg.confidential = s.pkg.confidential := by simp [State.letStep]

@[simp] theorem stepDbg_confidential (code p : Nat) (t : DbgTarget) (s : State) :
    (stepDbg code p t s).pkg.confidential = s.pkg.confidential := by
  unfold stepDbg
  refine runDebug_confidential (fun u => ?_) s
  simp

@[simp] theorem State.stopMails_confidential (s : State) (ks : List Nat) (cause : Nat) :
    (s.stopMails ks cause).pkg.confidential = s.pkg.confidential := by simp [State.stopMails]

@[simp] theorem State.stepMail_confidential (s : State) (p : Nat) (ks : List Nat) :
    (s.stepMail p ks).pkg.confidential = s.pkg.confidential := by
  unfold State.stepMail
  split <;> simp

@[simp] theorem State.debugDone_confidential (s : State) (p : Nat) :
    (s.debugDone p).pkg.confidential = s.pkg.confidential := by
  unfold State.debugDone
  dsimp only
  (repeat' split) <;> simp

@[simp] theorem State.stallSample_confidential (s : State) (q : Nat) :
    (s.stallSample q).pkg.confidential = s.pkg.confidential := by
  unfold State.stallSample
  dsimp only
  (repeat' split) <;> simp

@[simp] theorem State.sampleDrain_confidential (s : State) (c : Nat) :
    (s.sampleDrain c).pkg.confidential = s.pkg.confidential := by
  unfold State.sampleDrain
  dsimp only
  (repeat' split) <;> simp

@[simp] theorem State.nextCycle_confidential (s : State) :
    s.nextCycle.pkg.confidential = s.pkg.confidential := by simp [State.nextCycle]

@[simp] theorem tickOp_confidential (s : State) : (tickOp s).pkg.confidential = s.pkg.confidential := by simp [tickOp]

/-! ### History, traps and system -/

@[simp] theorem State.bankOp_confidential (s : State) (k : Nat) (f : Bank → Bank) :
    (s.bankOp k f).pkg.confidential = s.pkg.confidential := by simp [State.bankOp]

@[simp] theorem bankLane_keepsMode (u : State) (now : Nat) (h : Hdr) (run : State) (k : Nat) :
    (bankLane now h run k).KeepsMode u ↔ run.pkg.confidential = u.pkg.confidential := Iff.rfl

@[simp] theorem State.sendImage_confidential (s : State) (k : Nat) (ps : List Place) (acc : Acc) (key : Nat) :
    (s.sendImage k ps acc key).pkg.confidential = s.pkg.confidential := by simp [State.sendImage]

theorem imageOp_confidential {opc : Nat} {acc : Acc} {key : Nat} {h : Hdr} {ready : State → Nat → Bool}
    {move : State → Nat → State → State} (hm : ∀ s0 k u, (move s0 k u).pkg.confidential = u.pkg.confidential)
    (s : State) : (imageOp opc acc key h ready move s).pkg.confidential = s.pkg.confidential := by
  unfold imageOp
  refine runLanes_confidential (fun s0 part k v run => ?_) s
  dsimp only
  (repeat' split) <;> simp [hm]

@[simp] theorem State.storeImage_confidential (s : State) (k : Nat) (now : State) :
    (s.storeImage k now).pkg.confidential = s.pkg.confidential := by simp [State.storeImage]

@[simp] theorem hxstOp_confidential (h : Hdr) (s : State) : (hxstOp h s).pkg.confidential = s.pkg.confidential := by
  unfold hxstOp
  exact imageOp_confidential (fun _ _ _ => by simp) s

@[simp] theorem hxldOp_confidential (h : Hdr) (s : State) : (hxldOp h s).pkg.confidential = s.pkg.confidential := by
  unfold hxldOp
  exact imageOp_confidential (fun _ _ _ => by simp) s

@[simp] theorem hxclrOp_confidential (h : Hdr) (tbl : BitVec 4) (s : State) :
    (hxclrOp h tbl s).pkg.confidential = s.pkg.confidential := by
  unfold hxclrOp
  refine runLanes_confidential (fun s0 part k v run => ?_) s
  split <;> simp

theorem imageOffset_keepsMode {run : State} {o : Nat} {l : Lane} (h : imageOffset run o = some l) : l.KeepsMode run := by
  unfold imageOffset at h
  (repeat' split at h) <;> cases h <;> rfl

@[simp] theorem hxrdOp_confidential (h : Hdr) (s : State) : (hxrdOp h s).pkg.confidential = s.pkg.confidential := by
  unfold hxrdOp
  refine runLanes_confidential (fun s0 part k v run => ?_) s
  split
  next hl => exact imageOffset_keepsMode hl
  next => simp

@[simp] theorem hxwrOp_confidential (h : Hdr) (s : State) : (hxwrOp h s).pkg.confidential = s.pkg.confidential := by
  unfold hxwrOp
  refine runLanes_confidential (fun s0 part k v run => ?_) s
  split
  next hl => exact imageOffset_keepsMode hl
  next => split <;> simp

@[simp] theorem hxcfgOp_confidential (h : Hdr) (s : State) : (hxcfgOp h s).pkg.confidential = s.pkg.confidential := by
  unfold hxcfgOp
  refine runLanes_confidential (fun s0 part k v run => ?_) s
  split <;> simp

@[simp] theorem trapOp_confidential (h : Hdr) (s : State) : (trapOp h s).pkg.confidential = s.pkg.confidential := by
  unfold trapOp
  refine runLanes_confidential (fun s0 part k v run => ?_) s
  simp

@[simp] theorem xretOp_confidential (h : Hdr) (skip : Bool) (s : State) :
    (xretOp h skip s).pkg.confidential = s.pkg.confidential := by
  unfold xretOp
  refine runLanes_confidential (fun s0 part k v run => ?_) s
  dsimp only
  (repeat' split) <;> simp

@[simp] theorem State.writeSpecial_confidential (s : State) (k code : Nat) (w : Word) :
    (s.writeSpecial k code w).pkg.confidential = s.pkg.confidential := by
  unfold State.writeSpecial
  split <;> simp

@[simp] theorem mfsOp_confidential (h : Hdr) (s : State) : (mfsOp h s).pkg.confidential = s.pkg.confidential := by
  unfold mfsOp
  refine runLanes_confidential (fun s0 part k v run => ?_) s
  simp

@[simp] theorem mtsOp_confidential (h : Hdr) (s : State) : (mtsOp h s).pkg.confidential = s.pkg.confidential := by
  unfold mtsOp
  refine runLanes_confidential (fun s0 part k v run => ?_) s
  split <;> simp

theorem State.writeTarget_confidential {s t : State} {j code v : Nat} (h : s.writeTarget j code v = some t) :
    t.pkg.confidential = s.pkg.confidential := by
  rw [State.writeTarget] at h
  (repeat' split at h) <;> cases h <;> simp

@[simp] theorem State.writePv_confidential (s : State) (k : Nat) (pv : BitVec 3) (ok : Bool) :
    (s.writePv k pv ok).pkg.confidential = s.pkg.confidential := by simp [State.writePv]

@[simp] theorem mfsTOp_confidential (h : Hdr) (pv : BitVec 3) (s : State) :
    (mfsTOp h pv s).pkg.confidential = s.pkg.confidential := by
  unfold mfsTOp
  refine runLanes_confidential (fun s0 part k v run => ?_) s
  simp

@[simp] theorem mtsTOp_confidential (h : Hdr) (pv : BitVec 3) (s : State) :
    (mtsTOp h pv s).pkg.confidential = s.pkg.confidential := by
  unfold mtsTOp
  refine runLanes_confidential (fun s0 part k v run => ?_) s
  split
  next ht =>
    obtain ⟨j, -, hj⟩ := Option.bind_eq_some_iff.1 ht
    simp [State.writeTarget_confidential hj]
  next => simp

@[simp] theorem bkptOp_confidential (h : Hdr) (s : State) : (bkptOp h s).pkg.confidential = s.pkg.confidential := by
  unfold bkptOp
  refine runLanes_confidential (fun s0 part k v run => ?_) s
  split <;> simp

@[simp] theorem dbgmsgOp_confidential (h : Hdr) (s : State) :
    (dbgmsgOp h s).pkg.confidential = s.pkg.confidential := by
  unfold dbgmsgOp
  refine runLanes_confidential (fun s0 part k v run => ?_) s
  simp

@[simp] theorem pmarkOp_confidential (h : Hdr) (s : State) : (pmarkOp h s).pkg.confidential = s.pkg.confidential := by
  unfold pmarkOp
  refine runLanes_confidential (fun s0 part k v run => ?_) s
  simp

@[simp] theorem pmrdOp_confidential (h : Hdr) (s : State) : (pmrdOp h s).pkg.confidential = s.pkg.confidential := by
  unfold pmrdOp
  refine runLanes_confidential (fun s0 part k v run => ?_) s
  simp

@[simp] theorem clkrdOp_confidential (h : Hdr) (s : State) : (clkrdOp h s).pkg.confidential = s.pkg.confidential := by
  unfold clkrdOp
  refine runLanes_confidential (fun s0 part k v run => ?_) s
  simp

@[simp] theorem iprefOp_confidential (h : Hdr) (s : State) : (iprefOp h s).pkg.confidential = s.pkg.confidential := by
  unfold iprefOp
  refine runOnce_confidential (fun s0 run ks k v => ?_) s
  simp

@[simp] theorem qntfOp_confidential (h : Hdr) (s : State) : (qntfOp h s).pkg.confidential = s.pkg.confidential := by
  unfold qntfOp
  refine runLanes_confidential (fun s0 part k v run => ?_) s
  dsimp only
  (repeat' split) <;> simp

@[simp] theorem tokrdOp_confidential (h : Hdr) (fig : BitVec 2) (s : State) :
    (tokrdOp h fig s).pkg.confidential = s.pkg.confidential := by
  unfold tokrdOp
  refine runLanes_confidential (fun s0 part k v run => ?_) s
  simp

@[simp] theorem bankOpDoneOp_confidential (c o : Nat) (s : State) :
    (bankOpDoneOp c o s).pkg.confidential = s.pkg.confidential := by simp [bankOpDoneOp]

@[simp] theorem ringBuildDoneOp_confidential (c rs : Nat) (s : State) :
    (ringBuildDoneOp c rs s).pkg.confidential = s.pkg.confidential := by
  unfold ringBuildDoneOp
  (repeat' split) <;> simp

@[simp] theorem sleepExpireOp_confidential (k : Nat) (s : State) :
    (sleepExpireOp k s).pkg.confidential = s.pkg.confidential := by
  unfold sleepExpireOp
  split <;> simp

@[simp] theorem deferEndOp_confidential (q : Nat) (s : State) :
    (deferEndOp q s).pkg.confidential = s.pkg.confidential := by simp [deferEndOp]

/-! ### After an issue -/

@[simp] theorem State.countRetired_confidential (before s : State) (core : Nat) (ps : List Nat) :
    (before.countRetired s core ps).pkg.confidential = s.pkg.confidential := by
  unfold State.countRetired
  exact (foldl_confidential (fun _ _ => by rfl) _ _).trans (State.retire_confidential ..)

@[simp] theorem State.settleStep_confidential (s before : State) (k : Nat) :
    (s.settleStep before k).pkg.confidential = s.pkg.confidential := by
  unfold State.settleStep
  dsimp only
  (repeat' split) <;> simp

@[simp] theorem State.noteStalls_confidential (before s : State) (ks : List Nat) :
    (before.noteStalls s ks).pkg.confidential = s.pkg.confidential := by
  unfold State.noteStalls
  exact foldl_confidential (fun _ _ => by rfl) _ _

@[simp] theorem State.settleStall_confidential (before s : State) (b : Bundle) (i : Instr) :
    (before.settleStall s b i).pkg.confidential = s.pkg.confidential := rfl

@[simp] theorem State.settleQuad_confidential (before s : State) (b : Bundle) (i : Instr) :
    (before.settleQuad s b i).pkg.confidential = s.pkg.confidential := rfl

@[simp] theorem afterIssue_confidential (before s : State) (b : Bundle) (i : Instr) :
    (afterIssue before s b i).pkg.confidential = s.pkg.confidential := by
  unfold afterIssue
  extract_lets s0 ps
  have h0 : s0.pkg.confidential = s.pkg.confidential := State.noteStalls_confidential ..
  clear_value s0 ps
  split
  · exact (State.settleStall_confidential ..).trans h0
  · exact h0
  · refine (State.autoDetach_confidential ..).trans
      ((foldl_confidential (fun _ _ => State.settleStep_confidential ..) _ _).trans ?_)
    split <;> simp [h0]

@[simp] theorem State.trapBundle_confidential (s : State) (b : Bundle) (cause info len : Nat) (chn : Bool) :
    (s.trapBundle b cause info len chn).pkg.confidential = s.pkg.confidential := by simp [State.trapBundle]

@[simp] theorem State.stallFetch_confidential (s : State) (b : Bundle) :
    (s.stallFetch b).pkg.confidential = s.pkg.confidential := by
  unfold State.stallFetch
  split
  · rfl
  · refine (foldl_confidential (fun _ _ => by rfl) _ _).trans ?_
    simp

@[simp] theorem State.fetchMiss_confidential (s : State) (b : Bundle) :
    (s.fetchMiss b).pkg.confidential = s.pkg.confidential := by
  unfold State.fetchMiss
  dsimp only
  (repeat' split) <;> simp

@[simp] theorem State.wakeThreads_confidential (s : State) (ks : List Nat) :
    (s.wakeThreads ks).pkg.confidential = s.pkg.confidential := by
  unfold State.wakeThreads
  exact foldl_confidential (fun _ _ => by rfl) _ _

@[simp] theorem State.defer_confidential (s : State) (b : Bundle) :
    (s.defer b).pkg.confidential = s.pkg.confidential := by simp [State.defer]

theorem State.trapWord_confidential {s s1 : State} (h1 : s1.pkg.confidential = s.pkg.confidential) (b : Bundle) (hint : Bool)
    (cause info len : Nat) (chn : Bool) : (s.trapWord s1 b hint cause info len chn).pkg.confidential = s.pkg.confidential := by
  unfold State.trapWord
  split <;> simp [h1]

/-! ### Instructions and steps of the machine -/

/-- An outcome leaves the mode: where the machine goes on, the next state has that of a state. -/
def SameMode (s : State) : Result → Prop
  | .next t => t.pkg.confidential = s.pkg.confidential
  | _ => True

theorem sameMode_go {s t : State} (h : t.pkg.confidential = s.pkg.confidential) : SameMode s (go t) := h

theorem sameMode_ite {s : State} {c : Prop} [Decidable c] {a b : Result} (ha : SameMode s a) (hb : SameMode s b) :
    SameMode s (if c then a else b) := by
  split
  · exact ha
  · exact hb

theorem SameMode.trans {s u : State} {o : Result} (ho : SameMode u o) (h : u.pkg.confidential = s.pkg.confidential) :
    SameMode s o := by
  cases o with
  | next t => exact Eq.trans ho h
  | fault | refused => trivial

theorem execGrant_sameMode (r : Nat) (s : State) : SameMode s (execGrant r s) := by
  unfold execGrant
  split
  · split
    · refine sameMode_ite (sameMode_go rfl) ?_
      split
      next h => exact sameMode_go (by rw [State.takeLine_confidential h])
      next => exact sameMode_go rfl
    · exact sameMode_go rfl
  · exact sameMode_go rfl

theorem execStashLineFill_sameMode (b w line : Nat) (s : State) : SameMode s (execStashLineFill b w line s) := by
  unfold execStashLineFill
  split
  · exact sameMode_go rfl
  · refine sameMode_ite (sameMode_go rfl) (sameMode_ite (sameMode_go (State.fillLine_confidential ..)) ?_)
    split
    next h => exact sameMode_go ((State.fillLine_confidential ..).trans (State.takeLine_confidential h))
    next => exact sameMode_go rfl

theorem execStashEvict_sameMode (b w line : Nat) (s : State) : SameMode s (execStashEvict b w line s) := by
  unfold execStashEvict
  split
  · exact sameMode_go rfl
  · exact sameMode_ite (sameMode_go rfl) (sameMode_go (by simp))

theorem execCapsRetryTimer_sameMode (c : Nat) (s : State) : SameMode s (execCapsRetryTimer c s) :=
  sameMode_ite (sameMode_go rfl) (sameMode_go (State.wake_confidential ..))

theorem execEnergyAccrue_sameMode (p : Nat) (s : State) : SameMode s (execEnergyAccrue p s) := by
  unfold execEnergyAccrue
  refine sameMode_go ?_
  split <;> simp

theorem dp4Op_confidential (h : Hdr) (ty : BitVec 3) (sat : Bool) (rnd : BitVec 3) (s : State) :
    (dp4Op h ty sat rnd s).pkg.confidential = s.pkg.confidential := by
  unfold dp4Op
  split
  · exact runValue_confidential ..
  · exact runFloat_confidential ..

theorem dp8Op_confidential (h : Hdr) (ty : BitVec 3) (sat : Bool) (rnd : BitVec 3) (s : State) :
    (dp8Op h ty sat rnd s).pkg.confidential = s.pkg.confidential := by
  unfold dp8Op
  split
  · exact runValue_confidential ..
  · exact runFloat_confidential ..

/-- Every instruction and every step of the machine but the two package resets leaves the mode. -/
theorem exec_sameMode (i : Instr) (s : State) (hp : i ≠ .powerOnReset) (hr : ∀ p o, i ≠ .reset p o) :
    SameMode s (exec i s) := by
  cases i
  case mov | movi | sel | iadd | isub | imul | imulh | imad | imin | imax | iabs | ineg | andw | orw | xorw | andn |
    notw | shl | shr | sar | rotl | bfx | bfi | popc | clz | ctz | brev | icmp | plop | lea | add64 | cmp64 | cvti |
    bsel | fmin | fmax | fcmp | fclass | frnd | unpk | rsneg | rsuni | rsint | rstest | rsunpk |
    movCompact | iaddCompact | isubCompact | imulCompact | imadCompact | iminCompact | imaxCompact | andwCompact |
    orwCompact | xorwCompact | andnCompact | notwCompact | shlCompact | shrCompact | sarCompact | popcCompact |
    clzCompact | add64Compact | leaCompact | fminCompact | fmaxCompact | rsuniCompact | rsintCompact |
    bfxCompact | bfiCompact | bselCompact | cvtiCompact =>
    exact sameMode_go (runValue_confidential ..)
  case iadc => exact sameMode_go (iadcOp_confidential ..)
  case fadd | fsub | fmul | ffma | frcp | frsq | fsqrt | fex2 | flg2 | fsin | fcos | ftanh | f2f | i2f | f2i | dp2 |
    sclf | faddCompact | fsubCompact | fmulCompact | ffmaCompact | frcpCompact | frsqCompact | fsqrtCompact |
    fex2Compact | flg2Compact | ftanhCompact | dp2Compact | i2fCompact | f2iCompact | f2fCompact =>
    exact sameMode_go (runFloat_confidential ..)
  case hadd2 | hmul2 | hfma2 | hadd2Compact | hmul2Compact | hfma2Compact => exact sameMode_go (runHalf_confidential ..)
  case pack => exact sameMode_go (runEvents_confidential ..)
  case rsadd | rssub | rsmul | rsdiv | rsrcp | rssqr | rsfrom | rslo | rshi | rsaddCompact | rssubCompact |
    rsmulCompact | rsdivCompact =>
    exact sameMode_go (runRing_confidential ..)
  case rspack => exact sameMode_go (rspackOp_confidential ..)
  case rsring => exact sameMode_go (rsringOp_confidential ..)
  case bra => exact sameMode_go (braOp_confidential ..)
  case brx => exact sameMode_go (brxOp_confidential ..)
  case call => exact sameMode_go (callOp_confidential ..)
  case ret => exact sameMode_go (retOp_confidential ..)
  case loop => exact sameMode_go (loopOp_confidential ..)
  case exit => exact sameMode_go (exitOp_confidential ..)
  case yieldI => exact sameMode_go (yieldOp_confidential ..)
  case nop => exact sameMode_go (nopOp_confidential ..)
  case sleep => exact sameMode_go (sleepOp_confidential ..)
  case bar => exact sameMode_go (barOp_confidential ..)
  case bara => exact sameMode_go (baraOp_confidential ..)
  case launch => exact sameMode_go (launchOp_confidential ..)
  case cjoin => exact sameMode_go (cjoinOp_confidential ..)
  case rjen => exact sameMode_go (rjenOp_confidential ..)
  case rjwait => exact sameMode_go (rjwaitOp_confidential ..)
  case rjleave => exact sameMode_go (rjleaveOp_confidential ..)
  case lxch | lxchFromCompact | lxchFlipCompact | lxchFwdCompact => exact sameMode_go (lxchOp_confidential ..)
  case vote | matchL | bcast => exact sameMode_go (runPart_confidential ..)
  case segred | scan => exact sameMode_go (runReduce_confidential ..)
  case lead => exact sameMode_go (leadOp_confidential ..)
  case ld | ldB32Compact | ldB64Compact => exact sameMode_go (ldOp_confidential ..)
  case st | stB32Compact | stB64Compact => exact sameMode_go (stOp_confidential ..)
  case lds | ldsCompact => exact sameMode_go (ldsOp_confidential ..)
  case sts | stsCompact => exact sameMode_go (stsOp_confidential ..)
  case ldc | ldcCompact => exact sameMode_go (ldcOp_confidential ..)
  case ldf => exact sameMode_go (ldfOp_confidential ..)
  case pref => exact sameMode_go (prefOp_confidential ..)
  case cinv => exact sameMode_go (cinvOp_confidential ..)
  case smap => exact sameMode_go (smapOp_confidential ..)
  case swb => exact sameMode_go (swbOp_confidential ..)
  case sinv => exact sameMode_go (sinvOp_confidential ..)
  case atom | atomCompact => exact sameMode_go (atomOp_confidential ..)
  case atomc => exact sameMode_go (atomcOp_confidential ..)
  case red | redCompact => exact sameMode_go (redOp_confidential ..)
  case atomsc => exact sameMode_go (atomscOp_confidential ..)
  case atoms => exact sameMode_go (atomsOp_confidential ..)
  case fence => exact sameMode_go (fenceOp_confidential ..)
  case waitc => exact sameMode_go (waitcOp_confidential ..)
  case waitg => exact sameMode_go (waitgOp_confidential ..)
  case armw => exact sameMode_go (armwOp_confidential ..)
  case arrv => exact sameMode_go (arrvOp_confidential ..)
  case caps => exact sameMode_go (capsOp_confidential ..)
  case cld => exact sameMode_go (cldOp_confidential ..)
  case cst => exact sameMode_go (cstOp_confidential ..)
  case cend => exact sameMode_go (cendOp_confidential ..)
  case cadopt => exact sameMode_go (cadoptOp_confidential ..)
  case cqry => exact sameMode_go (cqryOp_confidential ..)
  case mma => exact sameMode_go (mmaOp_confidential ..)
  case mmai => exact sameMode_go (mmaiOp_confidential ..)
  case mmab => exact sameMode_go (mmabOp_confidential ..)
  case mmas => exact sameMode_go (mmasOp_confidential ..)
  case tmv => exact sameMode_go (tmvOp_confidential ..)
  case mzero => exact sameMode_go (mzeroOp_confidential ..)
  case mopr => exact sameMode_go (moprOp_confidential ..)
  case mwait => exact sameMode_go (mwaitOp_confidential ..)
  case tcopy => exact sameMode_go (tcopyOp_confidential ..)
  case rcfence => exact sameMode_go (rcfenceOp_confidential ..)
  case cpwait => exact sameMode_go (cpwaitOp_confidential ..)
  case gath => exact sameMode_go (gathOp_confidential ..)
  case scat => exact sameMode_go (scatOp_confidential ..)
  case hset => exact sameMode_go (hsetOp_confidential ..)
  case hnext => exact sameMode_go (hnextOp_confidential ..)
  case hsave => exact sameMode_go (hsaveOp_confidential ..)
  case hload => exact sameMode_go (hloadOp_confidential ..)
  case hstat => exact sameMode_go (hstatOp_confidential ..)
  case hxst => exact sameMode_go (hxstOp_confidential ..)
  case hxld => exact sameMode_go (hxldOp_confidential ..)
  case hxclr => exact sameMode_go (hxclrOp_confidential ..)
  case hxrd => exact sameMode_go (hxrdOp_confidential ..)
  case hxwr => exact sameMode_go (hxwrOp_confidential ..)
  case hxcfg => exact sameMode_go (hxcfgOp_confidential ..)
  case trapI => exact sameMode_go (trapOp_confidential ..)
  case xret => exact sameMode_go (xretOp_confidential ..)
  case mfs => exact sameMode_go (mfsOp_confidential ..)
  case mts => exact sameMode_go (mtsOp_confidential ..)
  case mfsT => exact sameMode_go (mfsTOp_confidential ..)
  case mtsT => exact sameMode_go (mtsTOp_confidential ..)
  case bkpt => exact sameMode_go (bkptOp_confidential ..)
  case dbgmsg => exact sameMode_go (dbgmsgOp_confidential ..)
  case pmark => exact sameMode_go (pmarkOp_confidential ..)
  case pmrd => exact sameMode_go (pmrdOp_confidential ..)
  case clkrd => exact sameMode_go (clkrdOp_confidential ..)
  case ipref => exact sameMode_go (iprefOp_confidential ..)
  case qntf => exact sameMode_go (qntfOp_confidential ..)
  case tokrd => exact sameMode_go (tokrdOp_confidential ..)
  case tick => exact sameMode_go (tickOp_confidential ..)
  case evict => exact sameMode_go (evictOp_confidential ..)
  case readL1 => exact sameMode_go (readL1Op_confidential ..)
  case readHome => exact sameMode_go (readHomeOp_confidential ..)
  case writeHome => exact sameMode_go (writeHomeOp_confidential ..)
  case rmwHome => exact sameMode_go (rmwHomeOp_confidential ..)
  case ticket => exact sameMode_go (ticketOp_confidential ..)
  case sluiceOp => exact sameMode_go (sluiceOpOp_confidential ..)
  case grant => exact execGrant_sameMode ..
  case enginePart => exact sameMode_go (enginePartOp_confidential ..)
  case loadReturn => exact sameMode_go (loadReturnOp_confidential ..)
  case gwctReturn => exact sameMode_go (gwctReturnOp_confidential ..)
  case hostPathCompletion => exact sameMode_go (hostPathCompletionOp_confidential ..)
  case requestTimeout => exact sameMode_go (requestTimeoutOp_confidential ..)
  case l2Evict => exact sameMode_go (l2EvictOp_confidential ..)
  case lineStoreEvict => exact sameMode_go (lineStoreEvictOp_confidential ..)
  case stashLineFill => exact execStashLineFill_sameMode ..
  case stashEvict => exact execStashEvict_sameMode ..
  case icacheFill => exact sameMode_go (icacheFillOp_confidential ..)
  case bankOpDone => exact sameMode_go (bankOpDoneOp_confidential ..)
  case ringBuildDone => exact sameMode_go (ringBuildDoneOp_confidential ..)
  case mxuOpComplete => exact sameMode_go (mxuOpCompleteOp_confidential ..)
  case copyChunkDone => exact sameMode_go (copyChunkDoneOp_confidential ..)
  case gatherWindowDone => exact sameMode_go (gatherWindowDoneOp_confidential ..)
  case engineOpComplete => exact sameMode_go (engineOpCompleteOp_confidential ..)
  case capsuleCommit => exact sameMode_go (commitOp_confidential ..)
  case capsRetryTimer => exact execCapsRetryTimer_sameMode ..
  case sleepExpire => exact sameMode_go (sleepExpireOp_confidential ..)
  case deferEnd => exact sameMode_go (deferEndOp_confidential ..)
  case notify => exact sameMode_go (State.notifyQueue_confidential ..)
  case pendingMap => exact sameMode_go (State.pendingMap_confidential ..)
  case recordConsume => exact sameMode_go (State.recordConsume_confidential ..)
  case launchReady => exact sameMode_go (State.launchReady_confidential ..)
  case priorityAge => exact sameMode_go (State.priorityAge_confidential ..)
  case blockPlacement => exact sameMode_go (State.blockPlacement_confidential ..)
  case continuationPlacement => exact sameMode_go (State.continuationPlacement_confidential ..)
  case carveChange => exact sameMode_go (State.carveChange_confidential ..)
  case blockComplete => exact sameMode_go (State.blockComplete_confidential ..)
  case blockRetire => exact sameMode_go (State.blockRetire_confidential ..)
  case gridComplete => exact sameMode_go (State.gridComplete_confidential ..)
  case faultRecordPost => exact sameMode_go (State.postHeld_confidential ..)
  case faultqConsWrite => exact sameMode_go (State.faultqCons_confidential ..)
  case retiredTimerExpire => exact sameMode_go (State.timerExpire_confidential ..)
  case engineAck => exact sameMode_go (State.engineAck_confidential ..)
  case frameWrite => exact sameMode_go (State.frameWrite_confidential ..)
  case preemptDone => exact sameMode_go (State.preemptDone_confidential ..)
  case preemptLate => exact sameMode_go (State.preemptLate_confidential ..)
  case contextRestore => exact sameMode_go (State.contextRestore_confidential ..)
  case preempt => exact sameMode_go (preemptOp_confidential ..)
  case restore => exact sameMode_go (restoreOp_confidential ..)
  case replay => exact sameMode_go (replayOp_confidential ..)
  case abort => exact sameMode_go (abortOp_confidential ..)
  case ptimer => exact sameMode_go (ptimerOp_confidential ..)
  case invVa => exact sameMode_go (invVaOp_confidential ..)
  case invOwner => exact sameMode_go (invOwnerOp_confidential ..)
  case invIpa => exact sameMode_go (invIpaOp_confidential ..)
  case invAll => exact sameMode_go (invAllOp_confidential ..)
  case setFaultq => exact sameMode_go (setFaultqOp_confidential ..)
  case setTables => exact sameMode_go (setTablesOp_confidential ..)
  case setSluiceOvf => exact sameMode_go (setSluiceOvfOp_confidential ..)
  case setRegion => exact sameMode_go (setRegionOp_confidential ..)
  case pageRec => exact sameMode_go (pageRecOp_confidential ..)
  case scrub => exact sameMode_go (scrubOp_confidential ..)
  case keygen => exact sameMode_go (keygenOp_confidential ..)
  case keyload => exact sameMode_go (keyloadOp_confidential ..)
  case keydrop => exact sameMode_go (keydropOp_confidential ..)
  case attest => exact sameMode_go (attestOp_confidential ..)
  case idcert => exact sameMode_go (idcertOp_confidential ..)
  case brineSet => exact sameMode_go (brineSetOp_confidential ..)
  case brineClose => exact sameMode_go (brineCloseOp_confidential ..)
  case brineSend => exact sameMode_go (brineSendOp_confidential ..)
  case qresume => exact sameMode_go (qresumeOp_confidential ..)
  case partCreate => exact sameMode_go (partCreateOp_confidential ..)
  case partDestroy => exact sameMode_go (partDestroyOp_confidential ..)
  case coreAssign => exact sameMode_go (coreAssignOp_confidential ..)
  case memAssign => exact sameMode_go (memAssignOp_confidential ..)
  case linkKey => exact sameMode_go (linkKeyOp_confidential ..)
  case sublinkAssign => exact sameMode_go (sublinkAssignOp_confidential ..)
  case powerWeight => exact sameMode_go (powerWeightOp_confidential ..)
  case reset p o => exact absurd rfl (hr p o)
  case regionAssign => exact sameMode_go (regionAssignOp_confidential ..)
  case powerOnReset => exact absurd rfl hp
  case brineProdWrite => exact sameMode_go (State.brineProd_confidential ..)
  case brineSlotFinish => exact sameMode_go (State.brineSlot_confidential ..)
  case brineDesyncClear => exact sameMode_go (State.brineClear_confidential ..)
  case powerIntervalStart => exact sameMode_go (State.powerStart_confidential ..)
  case powerMidpoint => exact sameMode_go (State.powerMid_confidential ..)
  case energyAccrue => exact execEnergyAccrue_sameMode ..
  case memoryError => exact sameMode_go (State.memoryError_confidential ..)
  case attach => exact sameMode_go (State.attach_confidential ..)
  case detach => exact sameMode_go (State.detach_confidential ..)
  case stop => exact sameMode_go (stopDbg_confidential ..)
  case resume => exact sameMode_go (resumeDbg_confidential ..)
  case step | stepOne | stepWait => exact sameMode_go (stepDbg_confidential ..)
  case trapstep => exact sameMode_go (trapstepDbg_confidential ..)
  case mailboxPost => exact sameMode_go (State.mailboxPost_confidential ..)
  case stallSample => exact sameMode_go (State.stallSample_confidential ..)
  case sampleDrain => exact sameMode_go (State.sampleDrain_confidential ..)
  case hostWrite => exact sameMode_go (State.hostWrite_confidential ..)
  case pritchRemoteRequest => exact sameMode_go (State.remoteRequest_confidential ..)
  case sublinkTrain => exact sameMode_go (State.sublinkTrain_confidential ..)
  case dp4 | dp4S8Compact | dp4E4m3Compact => exact sameMode_go (dp4Op_confidential ..)
  case dp8 | dp8S4Compact | dp8E2m1Compact => exact sameMode_go (dp8Op_confidential ..)
  -- The one constructor left is the recall of a line, whose name is a keyword of Mathlib and cannot name a case.
  next r => exact sameMode_go (recallOp_confidential r s)

end Sys2Proof.Machine

namespace Sys2Proof

/-! ### Units are no steps of the machine -/

theorem form_eq_ok {pol : ImmPolicy} {mask m : Nat} {bad : Option Nat} {h : Hdr} {i j : Instr}
    (he : form pol mask bad h m i = .ok j) : j = i := by
  unfold form at he
  (repeat' split at he) <;> cases he
  rfl

/-- The opcode map gives word forms alone. -/
theorem decodeOp_hdr? {opc m : Nat} {h : Hdr} {i : Instr} (hd : decodeOp opc h m = .ok i) : i.hdr? = some h := by
  cases hh : h.hint.getLsbD 0 && decodeOp.decodable opc with
  | true =>
    rw [decodeOp, hh, if_pos rfl] at hd
    cases hd
  | false =>
    obtain ⟨-, he⟩ | ⟨pol, mask, bad, j, he, hj, -⟩ := decodeOp_answer m hh
    · rw [he] at hd
      cases hd
    · rw [he] at hd
      rw [form_eq_ok hd, hj]

theorem decodedOf_hdr? {opc len n m : Nat} {h : Hdr} {i : Instr} (hd : decodedOf opc len (decodeOp opc h m) = .instr i n) :
    i.hdr?.isSome = true := by
  cases he : decodeOp opc h m with
  | error why => simp [he, decodedOf] at hd
  | ok j =>
    rw [he] at hd
    cases hd
    rw [decodeOp_hdr? he]
    rfl

/-- A step of the machine has no unit: the decoder gives word forms and compact forms alone. -/
theorem isStep_of_decodeBytes {bs : List Byte} {i : Instr} {n : Nat} (h : decodeBytes bs = .instr i n) :
    Machine.isStep i = false := by
  have word {i : Instr} (hh : i.hdr?.isSome = true) : Machine.isStep i = false := by
    cases hi : i.hdr? <;> simp_all [Machine.isStep]
  have compact {i : Instr} (hc : i.compact?.isSome = true) : Machine.isStep i = false := by
    cases hi : i.compact? <;> simp_all [Machine.isStep]
  unfold decodeBytes decodeUnit at h
  split at h
  · unfold decodeCompact at h
    dsimp only at h
    split at h <;> cases h
    exact compact (compactInstr_isCompact ..)
  · unfold decodeMedium at h
    split at h
    · cases h
    · exact word (decodedOf_hdr? h)
  · exact word (decodedOf_hdr? h)
  · cases h

end Sys2Proof

namespace Sys2Proof.Machine

/-! ### Moves -/

theorem exec_sameMode_of_not_isStep {i : Instr} (hi : isStep i = false) (s : State) : SameMode s (exec i s) :=
  exec_sameMode i s (fun h => by cases h; cases hi) fun p o h => by cases h; cases hi

theorem State.isStep_of_instrAt {s : State} {k : Nat} {i : Instr} (h : s.instrAt k = some i) : isStep i = false := by
  unfold State.instrAt at h
  split at h
  · split at h <;> cases h
    exact isStep_of_decodeBytes ‹_›
  · cases h

@[simp] theorem retestBundle_confidential (b : Bundle) (s : State) :
    (retestBundle b s).pkg.confidential = s.pkg.confidential := by
  unfold retestBundle
  split
  · rfl
  split
  · simp
  next i hi =>
    have he := exec_sameMode_of_not_isStep (State.isStep_of_instrAt hi) { s with cur := b }
    split
    next t ht =>
      rw [ht] at he
      split
      · exact he
      · simp
    next => simp

theorem exec_issued_sameMode {i : Instr} (hi : isStep i = false) (b : Bundle) (s : State) (c o pc : Nat) :
    SameMode s (exec i { s.touchCode c o pc with cur := b }) :=
  (exec_sameMode_of_not_isStep hi _).trans (State.touchCode_confidential s c o pc)

theorem issueBundle_sameMode (b : Bundle) (s : State) : SameMode s (issueBundle b s) := by
  unfold issueBundle
  dsimp only
  split
  · exact State.fetchMiss_confidential ..
  · exact State.trapWord_confidential (by simp) ..
  · split
    next i n hd =>
      refine sameMode_ite rfl (sameMode_ite (State.defer_confidential ..) ?_)
      have he := exec_issued_sameMode (isStep_of_decodeBytes hd) b s (coreOf (b.threads.headD 0))
        (s.grpOf (b.threads.headD 0)).oslot (s.thr (b.threads.headD 0)).pc
      split
      next t ht =>
        rw [ht] at he
        exact (afterIssue_confidential ..).trans he
      next => exact he
    · exact State.trapWord_confidential rfl ..
    · exact State.trapWord_confidential rfl ..

theorem issue_sameMode (b : Bundle) (s : State) : SameMode s (issue b s) :=
  sameMode_ite ((issueBundle_sameMode b _).trans (State.endDeferrals_confidential ..))
    (sameMode_ite (retestBundle_confidential b s) rfl)

theorem partitionCommand_sameMode (code p : Nat) (o : CmdOps) (s : State) : SameMode s (partitionCommand code p o s) := by
  unfold partitionCommand
  split
  · exact preemptOp_confidential ..
  · exact restoreOp_confidential ..
  · exact replayOp_confidential ..
  · exact abortOp_confidential ..
  · exact ptimerOp_confidential ..
  · exact invVaOp_confidential ..
  · exact invOwnerOp_confidential ..
  · exact invIpaOp_confidential ..
  · exact invAllOp_confidential ..
  · exact setFaultqOp_confidential ..
  · exact setTablesOp_confidential ..
  · exact setSluiceOvfOp_confidential ..
  · exact setRegionOp_confidential ..
  · exact pageRecOp_confidential ..
  · exact scrubOp_confidential ..
  · exact keygenOp_confidential ..
  · exact keyloadOp_confidential ..
  · exact keydropOp_confidential ..
  · exact attestOp_confidential ..
  · exact idcertOp_confidential ..
  · exact brineSetOp_confidential ..
  · exact brineCloseOp_confidential ..
  · exact brineSendOp_confidential ..
  · exact qresumeOp_confidential ..
  · exact State.answer_confidential ..

theorem resetOp_mode (p : Nat) (o : CmdOps) (s : State) :
    (resetOp p o s).pkg.confidential = s.pkg.confidential ∨ ∃ c, resetOp p o s = s.bringUp c := by
  unfold resetOp
  split
  · exact .inl (State.answer_confidential ..)
  · split
    · exact .inl (State.answer_confidential ..)
    · exact .inr ⟨_, rfl⟩

/-- Whether a move keeps the mode or is a package reset. -/
def KeepsOrResets (s : State) (o : Result) : Prop := SameMode s o ∨ ∃ c, o = .next (s.bringUp c)

theorem keepsOrResets_ite {s : State} {c : Prop} [Decidable c] {a b : Result} (ha : KeepsOrResets s a)
    (hb : KeepsOrResets s b) : KeepsOrResets s (if c then a else b) := by
  split
  · exact ha
  · exact hb

theorem managementCommand_keepsOrResets (code : Nat) (o : CmdOps) (s : State) :
    KeepsOrResets s (managementCommand code o s) := by
  unfold managementCommand
  split
  · exact .inl (partCreateOp_confidential ..)
  · exact .inl (partDestroyOp_confidential ..)
  · exact .inl (coreAssignOp_confidential ..)
  · exact .inl (memAssignOp_confidential ..)
  · exact .inl (linkKeyOp_confidential ..)
  · exact .inl (sublinkAssignOp_confidential ..)
  · exact .inl (powerWeightOp_confidential ..)
  · exact (resetOp_mode mgmtRing o s).imp id fun ⟨c, hc⟩ => ⟨c, congrArg _ hc⟩
  · exact .inl (regionAssignOp_confidential ..)
  · exact .inl (State.answer_confidential ..)

theorem commandMove_keepsOrResets (ring : Nat) (s : State) : KeepsOrResets s (commandMove ring s) := by
  unfold commandMove
  have stays : KeepsOrResets s (go s) := .inl rfl
  refine keepsOrResets_ite stays ?_
  split
  · exact .inl (State.ringDue_confidential ..)
  · exact keepsOrResets_ite stays (keepsOrResets_ite stays (keepsOrResets_ite (managementCommand_keepsOrResets ..)
      (.inl (partitionCommand_sameMode ..))))

theorem pageDoorbell_sameMode (p off value : Nat) (s : State) : SameMode s (pageDoorbell p off value s) := by
  unfold pageDoorbell
  have stays : SameMode s (go s) := rfl
  refine sameMode_ite (sameMode_ite (State.notifyQueue_confidential ..) stays) ?_
  refine sameMode_ite (sameMode_ite (State.brineProd_confidential ..)
    (sameMode_ite (State.brineClear_confidential ..) stays)) ?_
  refine sameMode_ite (State.ringProd_confidential ..) (sameMode_ite (State.faultqCons_confidential ..)
    (sameMode_ite ?_ stays))
  split
  · exact State.attach_confidential ..
  · exact State.detach_confidential ..
  · exact stays

theorem doorbellMove_sameMode (off value : Nat) (s : State) : SameMode s (doorbellMove off value s) :=
  sameMode_ite (sameMode_ite (State.ringProd_confidential ..) rfl) (sameMode_ite (pageDoorbell_sameMode ..) rfl)

theorem debugMove_sameMode (p : Nat) (s : State) : SameMode s (debugMove p s) := by
  unfold debugMove
  split
  · rfl
  · refine sameMode_ite (State.entrySay_confidential ..) ?_
    split
    · exact stopDbg_confidential ..
    · exact resumeDbg_confidential ..
    · exact stepDbg_confidential ..
    · exact stepDbg_confidential ..
    · exact stepDbg_confidential ..
    · exact trapstepDbg_confidential ..

/-- A step of the machine, which no ring brings, keeps the mode or is POWER_ON_RESET. -/
theorem exec_keepsOrResets {i : Instr} (hi : isCommand i = false) (s : State) : KeepsOrResets s (exec i s) := by
  by_cases hp : i = .powerOnReset
  · exact .inr ⟨false, by rw [hp]; rfl⟩
  · exact .inl (exec_sameMode i s hp fun p o h => by cases h; cases hi)

theorem makeMove_keepsOrResets (m : Move) (s : State) : KeepsOrResets s (makeMove m s) := by
  cases m with
  | issue b => exact .inl (issue_sameMode b s)
  | act i =>
    unfold makeMove
    dsimp only
    split
    next h =>
      rw [Bool.and_eq_true, Bool.not_eq_true'] at h
      exact exec_keepsOrResets h.2 s
    next => exact .inl rfl
  | spad c => exact .inl (spadMove_confidential ..)
  | command ring => exact commandMove_keepsOrResets ring s
  | doorbell off value => exact .inl (doorbellMove_sameMode off value s)
  | debug p => exact .inl (debugMove_sameMode p s)
  | debugDone p => exact .inl (State.debugDone_confidential ..)

/-! ### The package after a reset -/

theorem State.bringUp_settled (s : State) (c : Bool) : (s.bringUp c).settled = s.bringUp c := rfl

theorem State.bringUp_storedByte (s : State) (c : Bool) {pa : Nat} (h : pa < 0x400000000000) :
    (s.bringUp c).storedByte pa = 0 := by
  refine (State.storedByte_defined (Tbl.find_nil _)).trans (Memory.get_unlisted ?_)
  exact Tbl.find_filter_drop _ _ _ fun v => decide_eq_false (Nat.not_le.mpr h)

theorem settle_sameMode {s : State} {o : Result} (h : SameMode s o) : SameMode s (settle o) := by
  cases o with
  | next t => exact (State.settled_confidential t).trans h
  | fault | refused => trivial

theorem settle_keepsOrResets {s : State} {o : Result} (h : KeepsOrResets s o) : KeepsOrResets s (settle o) :=
  h.imp settle_sameMode fun ⟨c, hc⟩ => ⟨c, by rw [hc, settle, State.bringUp_settled]⟩

/-- A step keeps the mode or is the package reset of a state. -/
theorem step_mode (s : State) : SameMode s (step s) ∨ ∃ u c, step s = .next (State.bringUp u c) := by
  unfold step takeMove
  dsimp only
  split
  · exact (settle_keepsOrResets (makeMove_keepsOrResets _ _)).imp id fun ⟨c, hc⟩ => ⟨_, c, hc⟩
  · exact (settle_keepsOrResets (makeMove_keepsOrResets _ _)).imp id fun ⟨c, hc⟩ => ⟨_, c, hc⟩

end Sys2Proof.Machine

open Sys2Proof Sys2Proof.Machine

/-- Settles O11: every operation of the model leaves the mode, so a step that changes it is the package reset. -/
theorem confidentialModeIsFixed : Obligations.ConfidentialModeIsFixed := by
  intro s t hst hne
  obtain h | ⟨u, c, h⟩ := step_mode s
  · rw [hst] at h
    exact absurd h hne
  · cases hst.symm.trans h
    exact ⟨rfl, rfl, rfl, rfl, rfl, rfl, rfl, rfl, fun pa _ hpa => State.bringUp_storedByte u c hpa⟩
end
